-- ==== Sys2Proof/Word.lean ====
section
/-!
DEFINITION. The word types of the machine.
-/

namespace Sys2Proof

/-- A byte of memory. -/
abbrev Byte := BitVec 8

/-- A general register of 64 bits (R174). -/
abbrev Word := BitVec 64

/-- A lane or a predicate of 32 bits (R174). -/
abbrev Lane := BitVec 32

end Sys2Proof
end

