-- ==== Sys2Proof/Config.lean ====
section
/-!
DEFINITION. What an implementation fixes and the spec leaves open: constants without a body, so that nothing can be
proved of their values. Each one is a free value of the assumption log. Those applied to a plain number are applied
to State's counter `tick`, which every step advances, so that each step meets a fresh value.
-/

namespace Sys2Proof.Config

/-- The arithmetic-clock periods that a step takes (R2, R68, R193): the model keeps no timing (log 6). -/
opaque cycles : Nat → Nat

/-- Which of the free strands of a core runs a candidate: a number taken modulo how many there are (R141). -/
opaque strandPick : Nat → Nat

/-- Which of the free inbox entries a message takes: a number taken modulo how many there are (R43). -/
opaque inboxPick : Nat → Nat

/-- Which cluster of a die a message starts from, or which cluster an enqueued brick of another die joins: a number
taken modulo how many there are (R148). -/
opaque clusterPick : Nat → Nat

/-- Which byte an aliased destination byte of CPY.M ends with (R290): its old value when this is false. -/
opaque aliasKeepsRead : Nat → Bool

/-- The rounding of 2 to a power when a bracket of 320 bits does not decide it (R270): the type and the operand. -/
opaque exp2Rounded : Nat → Nat → Nat

/-- The CRC-64 of a flit, whose polynomial the spec does not give (R376). -/
opaque crc64 : List Byte → BitVec 64

/-- The port by which a package sends a flit on: a number taken modulo how many of its links serve (R8, R371). -/
opaque routePort : Nat → Nat

/-- What a datagram's 16-byte header holds: source domain, destination domain, sequence number and flit count, whose places
the spec does not give (R380). -/
opaque tunnelHeader : List Byte → Nat × Nat × Nat × Nat

/-- The sequence numbers that a datagram acknowledges, whose form the spec does not give (R380). -/
opaque tunnelAcks : List Byte → List Nat

/-- What the last flit of an item carries, with the flits before it, for an agent of this domain, none where it carries a packet:
the launch and the item. The form is not given (R322, R329, R380). -/
opaque tunnelItem : List Byte → Option (Nat × List Byte)

/-- The bytes that an exit gateway finds in a combine record of another domain: the counter of free values, the domain and the
record. The spec does not say how it is read there (R329). -/
opaque remoteRecord : Nat → Nat → Nat → List Byte

/-- Which of a package's measurements an image extends (R381). -/
opaque measureOf : List Byte → Nat

/-- Whether a signature of an image verifies (R381): the algorithm is named and not defined. -/
opaque signatureValid : List Byte → List Byte → Bool

/-- The signature of an attestation report (R381). -/
opaque attestationSignature : List Byte → List Byte

/-- The issue gap of a power budget and the power drawn (R382). -/
opaque issueGap : Nat → Nat

/-- Which line of a set a cache or a directory store gives up (R45, R76). -/
opaque victimPick : Nat → Nat

/-- Whether an access to a line misses every L2 and reaches memory (R31): the counter of free values and the line. -/
opaque l2Misses : Nat → Nat → Bool

/-- The bus address of the PRP list of an NVMe Read of more than two pages, which the spec does not place (R292). -/
opaque prpList : Nat → Nat

/-- Which of the free course numbers a CBEGIN is given: a number taken modulo how many there are (R308). -/
opaque coursePick : Nat → Nat

/-- The number of this domain among the domains that the Ethernet tunnel joins (R322, R380). -/
opaque ownDomain : Nat

/-- Whether a machine check disables its package (R371). -/
opaque machineCheckDisables : Nat → Bool

/-- The base of the trap area that system firmware sets at bring-up (R361). -/
opaque trapArea : Nat

/-- The trap entry PC that system firmware sets at bring-up (R361). -/
opaque trapPc : Nat

/-- Whether the host offers CXL at a host port when the port trains (R372): the counter of free values and the port. -/
opaque hostOffersCxl : Nat → Nat → Bool

/-- Whether a line is among those that its home die's L2 keeps resident beside its directory store (R76): the counter of free values
and the line. -/
opaque inHomeSlice : Nat → Nat → Bool

/-- How many measurements a package keeps (R381). -/
opaque measureCount : Nat

/-- The kind of a flit that carries an end-to-end acknowledgement or a resend request, which the spec does not give (R376, R379). -/
opaque controlKind : Nat

/-- The payload of such a flit: twice the acknowledged number, or one more than twice the first missing one. Its form is not given
(R379). -/
opaque controlPayload : Nat → List Byte

/-- The other domain for which a flit delivered to an exit gateway is, none where it is for the package itself: how a flit says so
is not given (R376, R379). -/
opaque flitDomain : List Byte → Option Nat

/-- The flits that carry an item to another domain, whose form the spec does not give (R322, R329, R380). -/
opaque itemFlits : List Byte → List (List Byte)

/-- The 16-byte header of a datagram that this domain sends: source domain, destination domain, sequence number and flit count,
whose places the spec does not give (R380). -/
opaque tunnelHeaderBytes : Nat → Nat → Nat → Nat → List Byte

/-- Whether a flit of a datagram carries a part of an item that later flits go on with: the form is not given (R380). -/
opaque tunnelPart : List Byte → Bool

end Sys2Proof.Config
end

