-- ==== Sys2Proof/Syntax.lean ====
section
/-!
DEFINITION. The instruction set as data: one constructor of `Instr` for each of the 253 rows of
spec/opcode_table.json, in the order of the table. The rows 0 to 155 are instructions of strands and carry the
fields of their word; the other rows, and YIELD_EXPIRY, INVP_COMPLETION and HALT_RELEASE among the first, are
steps of the other agents (95) and carry the numbers that say which pending thing they concern.
-/

namespace Sys2Proof

/-- A guard: the predicate `p` and its negation (R173). -/
structure Guard where
  neg : Bool
  p   : BitVec 3
  deriving DecidableEq, Repr

/-- The fields of a word of the R format (R167); `md` is MOD, word bits 59 to 48. -/
structure Ops where
  g   : Guard
  dst : BitVec 6
  sa  : BitVec 6
  sb  : BitVec 6
  sc  : BitVec 6
  md  : BitVec 12
  imm : BitVec 48
  deriving DecidableEq, Repr

/-- The fields of a pair (R171): a scalar half and a vector half under one guard. -/
structure PairOps where
  g    : Guard
  sop  : BitVec 6
  sdst : BitVec 6
  ssa  : BitVec 6
  ssb  : BitVec 6
  si   : Bool
  simm : BitVec 15
  vop  : BitVec 6
  vdst : BitVec 6
  vsa  : BitVec 6
  vsb  : BitVec 6
  vsc  : BitVec 6
  vtype : BitVec 4
  deriving DecidableEq, Repr

/-- The instructions and the steps of the other agents. -/
inductive Instr where
  /-- ADD (R195): Integer add modulo 2^64 of a and b into s[DST]. -/
  | add (o : Ops)
  /-- SUB (R195): Integer subtract modulo 2^64. -/
  | sub (o : Ops)
  /-- MUL (R195): Low 64 bits of the product. -/
  | mul (o : Ops)
  /-- MULH (R195): High 64 bits of the 128-bit product, signed or unsigned. -/
  | mulh (o : Ops)
  /-- DIV (R196): Quotient rounded toward zero, with defined results for a zero divisor and overflow. -/
  | div (o : Ops)
  /-- REM (R196): Remainder with the sign of the dividend. -/
  | rem (o : Ops)
  /-- AND (R195): Bitwise and. -/
  | and (o : Ops)
  /-- OR (R195): Bitwise or. -/
  | or (o : Ops)
  /-- XOR (R195): Bitwise exclusive or. -/
  | xor (o : Ops)
  /-- ANDN (R195): a and not b. -/
  | andn (o : Ops)
  /-- SHL (R195): Shift left by b[5:0]. -/
  | shl (o : Ops)
  /-- SHR (R195): Logical shift right by b[5:0]. -/
  | shr (o : Ops)
  /-- SRA (R195): Arithmetic shift right by b[5:0]. -/
  | sra (o : Ops)
  /-- ROT (R195): Rotate left by b[5:0]. -/
  | rot (o : Ops)
  /-- CLZ (R195): Count leading zero bits. -/
  | clz (o : Ops)
  /-- CTZ (R195): Count trailing zero bits. -/
  | ctz (o : Ops)
  /-- POPC (R195): Count one bits. -/
  | popc (o : Ops)
  /-- MIN (R195): Signed minimum. -/
  | min (o : Ops)
  /-- MAX (R195): Signed maximum. -/
  | max (o : Ops)
  /-- MINZ (R195): Unsigned minimum. -/
  | minz (o : Ops)
  /-- MAXZ (R195): Unsigned maximum. -/
  | maxz (o : Ops)
  /-- CMP (R197): Compares a with b under a condition and writes all ones or zero to a predicate. -/
  | cmp (o : Ops)
  /-- SEL (R198): Selects a or b by bit 0 of a predicate. -/
  | sel (o : Ops)
  /-- MOVI (R201): Writes a 64-bit immediate to an s register. -/
  | movi (g : Guard) (dst : BitVec 6) (imm : Word)
  /-- LEA (R200): Forms an effective address without accessing memory. -/
  | lea (o : Ops)
  /-- BFX (R199): Extracts a bit field, zero- or sign-extended. -/
  | bfx (o : Ops)
  /-- BFI (R199): Inserts a bit field from s[SC]. -/
  | bfi (o : Ops)
  /-- NOP (R201): No effect. -/
  | nop (o : Ops)
  /-- FADD (R203): Scalar floating-point add, rounded once to nearest even. -/
  | fadd (o : Ops)
  /-- FSUB (R203): Scalar floating-point subtract. -/
  | fsub (o : Ops)
  /-- FMUL (R203): Scalar floating-point multiply. -/
  | fmul (o : Ops)
  /-- FFMA (R203): Fused multiply-add with one rounding. -/
  | ffma (o : Ops)
  /-- FDIV (R203): Scalar floating-point divide. -/
  | fdiv (o : Ops)
  /-- FSQRT (R203): Scalar floating-point square root. -/
  | fsqrt (o : Ops)
  /-- FMIN (R204): IEEE minimumNumber of two scalars. -/
  | fmin (o : Ops)
  /-- FMAX (R204): IEEE maximumNumber of two scalars. -/
  | fmax (o : Ops)
  /-- FCMP (R205): Floating-point compare into a predicate. -/
  | fcmp (o : Ops)
  /-- FCVT (R206): Converts between floating-point and integer types with a rounding mode and optional saturation. -/
  | fcvt (o : Ops)
  /-- FMOV (R207): Copies 64 bits between f and s registers unchanged. -/
  | fmov (o : Ops)
  /-- BR (R208): PC-relative branch in slots. -/
  | br (o : Ops)
  /-- J (R208): Jump within the 2 PiB region of the J. -/
  | j (o : Ops)
  /-- JR (R208): Jump to the PC in an s register. -/
  | jr (o : Ops)
  /-- CALL (R208): Writes the link and branches PC-relative. -/
  | call (o : Ops)
  /-- CALL_REG (R208): Writes the link and jumps to a register target. -/
  | callReg (o : Ops)
  /-- RET (R208): Returns to the PC in an s register, predicted from the return stack. -/
  | ret (o : Ops)
  /-- LOOP (R208): Decrements a counter and branches while it is nonzero. -/
  | loop (o : Ops)
  /-- WAIT (R209): Stalls until the ld, st, cp and tl counters meet their limits, then clears the guaranteed
      pending marks. -/
  | wait (o : Ops)
  /-- CHUNK (R210): Ends the current chunk. -/
  | chunk (o : Ops)
  /-- SUSP (R212): Writes a brick, optionally linked to a join, and ends the run. -/
  | susp (o : Ops)
  /-- SUSP_MSG (R212): Writes a brick that waits for a message naming it, and ends the run. -/
  | suspMsg (o : Ops)
  /-- DONE (R211): Waits for ld, ends the chunk and the run, and frees its inbox entry at apply. -/
  | done (o : Ops)
  /-- YIELD (R213): Stops the strand issuing for n cycles. -/
  | yield (o : Ops)
  /-- YIELD_EXPIRY (R213): The YIELD count of n cycles expires and the strand resumes issue. -/
  | yieldExpiry (strand : Nat)
  /-- TRAP (R214): Ends the previous chunk, waits for its commit, then raises a software trap alone in its chunk. -/
  | trap (o : Ops)
  /-- KRD (R215): Reads a control register into an s register. -/
  | krd (o : Ops)
  /-- KWR (R215): Writes a control register at its chunk's apply. -/
  | kwr (o : Ops)
  /-- ERET (R219): Returns to KEPC.PC in mode KEPC.SV. -/
  | eret (o : Ops)
  /-- INVP (R220): Drops translations of a page range, context or all, and stalls until completion. -/
  | invp (o : Ops)
  /-- INVP_COMPLETION (R21): An INVP completes once caches have dropped entries and every chunk that used them has
      committed or been squashed, releasing the stalled strand. -/
  | invpCompletion (strand : Nat)
  /-- HALT (R221): Stops issue on the strand until the security processor releases it. -/
  | halt (o : Ops)
  /-- HALT_RELEASE (R221): The security processor's halt control resumes a halted strand or kills its launch. -/
  | haltRelease (strand : Nat) (resume : Bool)
  /-- PAIR (R171): Executes a scalar half and a vector half under one guard. -/
  | pair (p : PairOps)
  /-- VADD (R257): Element-wise add. -/
  | vadd (o : Ops)
  /-- VSUB (R257): Element-wise subtract. -/
  | vsub (o : Ops)
  /-- VMUL (R257): Element-wise multiply. -/
  | vmul (o : Ops)
  /-- VFMA (R257): Element-wise fused multiply-add. -/
  | vfma (o : Ops)
  /-- VMIN (R257): Element-wise minimum. -/
  | vmin (o : Ops)
  /-- VMAX (R257): Element-wise maximum. -/
  | vmax (o : Ops)
  /-- VABS (R257): Element-wise absolute value. -/
  | vabs (o : Ops)
  /-- VNEG (R257): Element-wise negation. -/
  | vneg (o : Ops)
  /-- VAND (R257): Element-wise and. -/
  | vand (o : Ops)
  /-- VOR (R257): Element-wise or. -/
  | vor (o : Ops)
  /-- VXOR (R257): Element-wise exclusive or. -/
  | vxor (o : Ops)
  /-- VSHL (R257): Element-wise shift left. -/
  | vshl (o : Ops)
  /-- VSHR (R257): Element-wise shift right. -/
  | vshr (o : Ops)
  /-- VCMP (R260): Element-wise compare into a predicate. -/
  | vcmp (o : Ops)
  /-- VSEL (R261): Element-wise select by a predicate. -/
  | vsel (o : Ops)
  /-- VCVT (R262): Element-wise conversion between types. -/
  | vcvt (o : Ops)
  /-- VLD (R263): Loads consecutive elements into a vector register. -/
  | vld (o : Ops)
  /-- VST (R263): Stores a vector register to consecutive memory. -/
  | vst (o : Ops)
  /-- VGATH (R264): Loads elements from per-lane addresses. -/
  | vgath (o : Ops)
  /-- VSCAT (R264): Stores elements to per-lane addresses in ascending order. -/
  | vscat (o : Ops)
  /-- VBCAST (R266): Broadcasts a scalar to every active element. -/
  | vbcast (o : Ops)
  /-- VPERM (R267): Permutes the elements of a register. -/
  | vperm (o : Ops)
  /-- VREDSUM (R269): Reduces active elements to their sum. -/
  | vredsum (o : Ops)
  /-- VREDMAX (R269): Reduces active elements to their maximum. -/
  | vredmax (o : Ops)
  /-- VREDMIN (R269): Reduces active elements to their minimum. -/
  | vredmin (o : Ops)
  /-- VEXP2 (R270): Correctly rounded 2^a per element. -/
  | vexp2 (o : Ops)
  /-- VRCP (R270): Correctly rounded reciprocal per element. -/
  | vrcp (o : Ops)
  /-- VRSQ (R270): Correctly rounded reciprocal square root per element. -/
  | vrsq (o : Ops)
  /-- VMOVS (R268): Moves one element between a vector and a scalar register. -/
  | vmovs (o : Ops)
  /-- VDIST (R271): Accumulates per-lane distances between a query and gathered segments. -/
  | vdist (o : Ops)
  /-- VTOPK (R272): Merges candidates into a best-k key and identifier list. -/
  | vtopk (o : Ops)
  /-- LD (R225): Loads n bytes into a register at domain scope. -/
  | ld (o : Ops)
  /-- LD_ACQ_SY (R123): Aligned load at system scope that blocks later accesses and ends the chunk. -/
  | ldAcqSy (o : Ops)
  /-- ST (R226): Stores n bytes, held in the chunk's version until apply. -/
  | st (o : Ops)
  /-- ST_REL_SY (R122): Store at system scope performed after the waits of a system release, ending the chunk. -/
  | stRelSy (o : Ops)
  /-- LDS (R227): Stale load returning the local copy and making a watch entry. -/
  | lds (o : Ops)
  /-- CHKW (R228): Resolves pending watch entries and branches if any is struck or OVF is set. -/
  | chkw (o : Ops)
  /-- WCLR (R229): Resolves pending watch entries, then frees all entries and clears OVF. -/
  | wclr (o : Ops)
  /-- LDL (R231): Loads and marks the words read as dead. -/
  | ldl (o : Ops)
  /-- LDL_DROP (R55): Loads, marks words dead and discards their unwritten-back copies at commit. -/
  | ldlDrop (o : Ops)
  /-- PF (R233): Prefetch hint over a run of lines into L1 or L2. -/
  | pf (o : Ops)
  /-- RES (R233): Residency hint that holds or releases lines in L2. -/
  | res (o : Ops)
  /-- SPMAP (R234): Binds a window of the pool to a global range. -/
  | spmap (o : Ops)
  /-- SPUNMAP (R235): At apply, snapshots and queues M words, squashes users and unbinds a window. -/
  | spunmap (o : Ops)
  /-- SPFLUSH (R236): At commit, snapshots the M words of a window and queues their write-back. -/
  | spflush (o : Ops)
  /-- FENCE (R238): Ends the chunk and stalls until it has committed and st is zero. -/
  | fence (o : Ops)
  /-- FENCE_SY (R124): FENCE plus the waits of a system release and the acquire issue rule. -/
  | fenceSy (o : Ops)
  /-- LEASE (R278): Requests the array lease and stalls until granted. -/
  | lease (o : Ops)
  /-- UNLEASE (R278): Releases the lease or cancels the request. -/
  | unlease (o : Ops)
  /-- SLOT_CLM (R280): Claims a range of operand slots at issue and reports success in a predicate. -/
  | slotClm (o : Ops)
  /-- SLOT_REL (R280): At apply, makes a range of held slots Releasing. -/
  | slotRel (o : Ops)
  /-- CPY_IN (R288): Copy engine fills a slot from memory under a layout record. -/
  | cpyIn (o : Ops)
  /-- CPY_OUT (R289): Copy engine writes an accumulator rectangle to memory with conversion. -/
  | cpyOut (o : Ops)
  /-- CPY_M (R290): Copy engine copies n bytes between memory ranges. -/
  | cpyM (o : Ops)
  /-- CPY_NV (R292): Copy engine reads NVMe logical blocks into device memory. -/
  | cpyNv (o : Ops)
  /-- MMA_DD (R282): Tile multiply of f64 tiles into an FP64 accumulator. -/
  | mmaDd (o : Ops)
  /-- MMA_SS (R282): Tile multiply of f32 tiles. -/
  | mmaSs (o : Ops)
  /-- MMA_BB (R282): Tile multiply of bf16 tiles with tensor scales. -/
  | mmaBb (o : Ops)
  /-- MMA_HH (R282): Tile multiply of f16 tiles with tensor scales. -/
  | mmaHh (o : Ops)
  /-- MMA_EE (R282): Tile multiply of e4m3 tiles. -/
  | mmaEe (o : Ops)
  /-- MMA_EF (R282): Tile multiply of e4m3 by e5m2 tiles. -/
  | mmaEf (o : Ops)
  /-- MMA_FF (R282): Tile multiply of e5m2 tiles. -/
  | mmaFf (o : Ops)
  /-- MMA_QQ (R282): Tile multiply of q4 tiles with block scales. -/
  | mmaQq (o : Ops)
  /-- MMA_QE (R282): Tile multiply of q4 by e4m3 across two B slots. -/
  | mmaQe (o : Ops)
  /-- MMA_II (R282): Tile multiply of s8 tiles into s32 with wrap. -/
  | mmaIi (o : Ops)
  /-- MMV (R283): Multiplies streamed weight rows by vectors held in an accumulator. -/
  | mmv (o : Ops)
  /-- ACC_ZERO (R284): Zeroes a run of accumulators. -/
  | accZero (o : Ops)
  /-- ACC_RD (R284): Copies accumulator rows raw to a scratchpad address. -/
  | accRd (o : Ops)
  /-- AMO (R297): Returning atomic that reads at its place of execution and applies its new value at commit. -/
  | amo (o : Ops)
  /-- RED (R297): Non-returning reduction applied at apply at the home or in the cluster reduction buffer. -/
  | red (o : Ops)
  /-- SEND (R300): Sends one message to an endpoint, expert or brick at apply. -/
  | send (o : Ops)
  /-- SENDM (R299): Sends one message per set mask bit with a field replaced. -/
  | sendm (o : Ops)
  /-- SEND_NX (R299): Sends a message to the same core at the next stage. -/
  | sendNx (o : Ops)
  /-- HSET (R302): Writes a handler table entry at apply. -/
  | hset (o : Ops)
  /-- HMASK (R302): Masks the channels of a mask at apply. -/
  | hmask (o : Ops)
  /-- HUNMASK (R302): Unmasks the channels of a mask at apply. -/
  | hunmask (o : Ops)
  /-- JINIT (R303): Writes a join word with a count and brick link. -/
  | jinit (o : Ops)
  /-- JARR (R304): Arrives at a join, decrementing its count and swapping the brick at zero. -/
  | jarr (o : Ops)
  /-- QOPEN (R305): Makes the run a member of a region, holding it open. -/
  | qopen (o : Ops)
  /-- QWAIT (R306): Writes a brick in STATE 4 and ends the run until the region is quiescent. -/
  | qwait (o : Ops)
  /-- CBEGIN (R308): Opens a course and returns its handle. -/
  | cbegin (o : Ops)
  /-- STC (R309): Course store sent at apply to the destination's staging buffer. -/
  | stc (o : Ops)
  /-- LAY (R310): Closes a course and drives its prepare, decision and publication, returning a status. -/
  | lay (o : Ops)
  /-- ABANDON (R311): Discards an open course at every destination. -/
  | abandon (o : Ops)
  /-- CSTAT (R312): Reads a course's state. -/
  | cstat (o : Ops)
  /-- EXDEF (R337): Defines an expert from a template and enters it in every name map. -/
  | exdef (o : Ops)
  /-- EXRT (R338): Returns one word of an expert descriptor. -/
  | exrt (o : Ops)
  /-- EXLOAD (R339): Loads a gate table into the scorers. -/
  | exload (o : Ops)
  /-- EXGROW (R340): Grows a replica entry from free to warming and copies the master. -/
  | exgrow (o : Ops)
  /-- EXRETIRE (R341): Moves an active replica to draining and sends a retire notice. -/
  | exretire (o : Ops)
  /-- EXJOIN_CONTRIB (R342): Contributes a member replica's gradient to the owner. -/
  | exjoinContrib (o : Ops)
  /-- EXJOIN_HAND (R342): Contributes if needed and frees a draining replica. -/
  | exjoinHand (o : Ops)
  /-- EXUPD (R332): Publishes the owner's update to every active replica by course and starts the next step. -/
  | exupd (o : Ops)
  /-- EXSPILL (R344): Routes the spill ring at once. -/
  | exspill (o : Ops)
  /-- INSTRUCTION_LIMIT_CHUNK_END (R97): The 512-instruction count of a chunk expires and the chunk ends. -/
  | instructionLimitChunkEnd (strand : Nat)
  /-- COMMIT_POINT (R102): With every grant, lock, answer and resolution in, the arbiter records the commit point. -/
  | commitPoint (strand : Nat)
  /-- SOLE_COMMIT_TOKEN_GRANT (R107): A strand waiting in sole-commit mode takes its die's commit token and re-
      executes. -/
  | soleCommitTokenGrant (die : Nat)
  /-- LOAD_DATA_RETURN (R177): Data of an operation counted on ld is written and the counter falls in issue order. -/
  | loadDataReturn (strand seq : Nat)
  /-- STORE_ACKNOWLEDGEMENT (R177): A target acknowledges an off-die store, RED, STC or system store and st falls. -/
  | storeAcknowledgement (strand seq : Nat)
  /-- TRANSLATION_MISS (R19): A translation cache miss reaches the walking MTU, which walks the table and returns
      the leaf or parks. -/
  | translationMiss (source lkey va kind : Nat)
  /-- MTU_RESUME (R28): Writing a PARKID makes the MTU walk again for every access parked on that page. -/
  | mtuResume (pkg unit parkId : Nat)
  /-- MTU_KILL (R28): Writing a launch key discards its parked accesses domain-wide and kills the launch. -/
  | mtuKill (pkg unit lkey : Nat)
  /-- COUNTER_HALVING (R31): Every 1,000 µs the MTU halves all its access counters. -/
  | counterHalving (pkg unit : Nat)
  /-- CDUMP (R33): A write to CDUMP starts a dump of every counter to HBM. -/
  | cdump (pkg unit value : Nat)
  /-- COUNTER_DUMP_DONE (R33): The last dump write commits, BUSY clears and the dump count advances. -/
  | counterDumpDone (pkg unit : Nat)
  /-- PAGE_MOVE (R89): The migration engine moves a page by copy, copy again and final pass, ending with a PFN
      update and INVP. -/
  | pageMove (pkg unit leaf frame : Nat)
  /-- MOVE_FINAL_PASS (R89): With no course-locked word on the page, the final pass sets MIG, drains copies,
      rewrites PFN and resumes parked accesses. -/
  | moveFinalPass (pkg unit : Nat)
  /-- HOME_READ_REQUEST (R77): A holder's read of a span arrives at the home and is answered, recalled or marked. -/
  | homeReadRequest (packet : Nat)
  /-- HOME_OWNERSHIP_REQUEST (R77): An ownership request arrives at the home and is granted after invalidations or
      a recall. -/
  | homeOwnershipRequest (packet : Nat)
  /-- HOME_WRITE_BACK (R77): A write-back from an owner arrives at the home and updates it. -/
  | homeWriteBack (packet : Nat)
  /-- RECALL_ANSWER (R78): An owner's answer to a recall arrives at the home and the waiting request proceeds. -/
  | recallAnswer (packet : Nat)
  /-- INVALIDATION_ARRIVAL (R72): An invalidation reaches a holder, discarding overlapping spans and squashing or
      striking as its keys hit. -/
  | invalidationArrival (packet : Nat)
  /-- RECALL_ARRIVAL (R50): A recall for read or write reaches a holder, which writes back and keeps or drops the
      word. -/
  | recallArrival (packet : Nat)
  /-- FILL_ANSWER (R51): A fill answer reaches a holder and its words become valid. -/
  | fillAnswer (packet : Nat)
  /-- CONFIRM_REQUEST (R79): A confirm request arrives at a home and is answered on the holder's channel. -/
  | confirmRequest (packet : Nat)
  /-- CONFIRM_ANSWER (R110): A confirm answer arrives and resolves pending watch entries as confirmed or struck. -/
  | confirmAnswer (packet : Nat)
  /-- COMBINE_REQUEST (R85): A reduction buffer receives a combine request and sends and resets its partial. -/
  | combineRequest (packet : Nat)
  /-- COMBINE_PARTIAL_ARRIVAL (R85): A partial arrives at the home and is applied; the reader is answered when all
      are in. -/
  | combinePartialArrival (packet : Nat)
  /-- WINDOW_WRITE_BACK (R52): The window write-back logic commits a queued byte-masked line write. -/
  | windowWriteBack (core : Nat)
  /-- HOST_SNPDATA (R91): A host SnpData snoop reaches the device cache. -/
  | hostSnpdata (pkg line : Nat)
  /-- HOST_SNPINV (R91): A host SnpInv snoop reaches the device cache and may squash a live chunk. -/
  | hostSnpinv (pkg line : Nat)
  /-- HOST_SNPCUR (R91): A host SnpCur snoop reaches the device cache. -/
  | hostSnpcur (pkg line : Nat)
  /-- HOST_CXL_MEM_READ (R92): A host CXL.mem read reaches device memory. -/
  | hostCxlMemRead (pkg addr size : Nat) (caches : Bool)
  /-- HOST_CXL_MEM_WRITE (R92): A host CXL.mem write is applied at the home as a write through. -/
  | hostCxlMemWrite (pkg addr : Nat) (data : List Byte)
  /-- BACK_INVALIDATION_ANSWER (R92): The host's answer to BISnpData or BISnpInv arrives at the home. -/
  | backInvalidationAnswer (pkg line : Nat) (data : List Byte)
  /-- CXL_CACHE_GRANT (R91): The host's answer to RdShared or RdOwn arrives and sets the line's MESI state. -/
  | cxlCacheGrant (pkg line : Nat) (exclusive : Bool) (data : List Byte)
  /-- MESSAGE_ARRIVAL (R43): A message reaches a core's inbox, or is refused when full, and its channel count
      rises. -/
  | messageArrival (msg : Nat)
  /-- HANDLER_SELECTION (R141): A free strand's core selects a channel or brick by effective priority and starts
      it. -/
  | handlerSelection (core : Nat)
  /-- BRICK_MESSAGE_ARRIVAL (R147): A message naming a brick arrives and enqueues it if it is waiting. -/
  | brickMessageArrival (msg : Nat)
  /-- QUIESCENCE_WAVE (R151): Every 2,048 cycles a wave sums counters, declares quiet regions, updates horizons
      and ends idle launches. -/
  | quiescenceWave
  /-- DOORBELL (R347): A doorbell write publishes new entries of a work queue. -/
  | doorbell (pkg queue tail : Nat)
  /-- HQU_SUBMIT_MESSAGE (R348): A device message to the host queue unit copies a packet into a queue's ring. -/
  | hquSubmitMessage (msg : Nat)
  /-- QUANTUM_REMAP (R349): Every 64 µs the host queue unit remaps its 2,048 slots to queues with work. -/
  | quantumRemap (pkg : Nat)
  /-- ADMISSION (R351): A mapped queue's head entry is refused or, once its cores are free, has its allotment
      reserved. -/
  | admission (pkg queue : Nat)
  /-- LAUNCH_DISPATCH (R158): Once footprint lines are loaded, each member's strand 0 starts its run at ENTRY. -/
  | launchDispatch (lkey : Nat)
  /-- GRAPH_ADMISSION (R353): A graph record is taken and validated, and its nodes with no predecessor start. -/
  | graphAdmission (pkg queue : Nat)
  /-- GRAPH_NODE_COMPLETE (R354): A graph node completes or is skipped, updating successors and starting those
      that reach zero. -/
  | graphNodeComplete (pkg graph node : Nat)
  /-- MSIX_COALESCE_EXPIRY (R356): A queue's coalescing window expires and its pending MSI-X message is sent. -/
  | msixCoalesceExpiry (pkg queue : Nat)
  /-- WATCH_ENTRY_WRITE (R358): A write arming a watch entry reads the word and fires at once if the condition
      holds. -/
  | watchEntryWrite (pkg entry word value : Nat)
  /-- LEASE_GRANT (R277): The array lease is granted to the highest-priority pending request. -/
  | leaseGrant (cluster : Nat)
  /-- LEASE_TERM_EXPIRY (R277): A lease term ends after 64 commands or 8,192 cycles and passes to a pending
      request. -/
  | leaseTermExpiry (cluster : Nat)
  /-- TILE_TASK_ISSUE (R279): The array issues the earliest ready task in entry order. -/
  | tileTaskIssue (cluster : Nat)
  /-- TILE_TASK_COMPLETE (R279): A tile task's results are written, its entry freed and tl falls. -/
  | tileTaskComplete (cluster : Nat)
  /-- SUBNORMAL_ASSIST (R366): A supervisor assist run recomputes marked subnormal accumulator elements. -/
  | subnormalAssist (cluster : Nat)
  /-- COPY_COMMAND_START (R285): The copy engine's shadow command swaps in or a wait-list entry starts. -/
  | copyCommandStart (cluster : Nat)
  /-- COPY_COMMAND_COMPLETE (R286): A copy command's writes commit and its mailbox is written, and cp falls. -/
  | copyCommandComplete (cluster cmd : Nat)
  /-- ACCUMULATOR_LAST_ELEMENT_READ (R276): A CPY.OUT or ACC.RD has read the last element of its accumulator,
      lowering the read count and, with LAST, making the accumulator Drained. -/
  | accumulatorLastElementRead (cluster cmd : Nat)
  /-- NVME_COMPLETION_ENTRY (R292): The engine consumes an NVMe completion queue entry. -/
  | nvmeCompletionEntry (pkg queue cid status : Nat)
  /-- NVME_TIMEOUT (R292): An outstanding NVMe command exceeds its timeout and the CPY.NV ends with code 9. -/
  | nvmeTimeout (pkg queue cid : Nat)
  /-- NVME_CONTROLLER_WRITE (R291): A controller write to the peer-to-peer window arrives as an engine write or is
      discarded. -/
  | nvmeControllerWrite (pkg offset : Nat) (data : List Byte)
  /-- NVME_QUEUE_ENTRY_WRITE (R291): A write setting EN of an NVMe queue table entry resets SQTAIL, CQHEAD and
      PHASE. -/
  | nvmeQueueEntryWrite (pkg queue word value : Nat)
  /-- STC_STAGING_ARRIVAL (R309): A course store reaches a destination staging buffer and is staged or marks
      overflow. -/
  | stcStagingArrival (pkg stc : Nat)
  /-- COURSE_PREPARE (R310): A destination, having staged the announced STCs, locks the words and reports ready or
      overflow. -/
  | coursePrepare (pkg src num : Nat)
  /-- COURSE_READY_REPORT (R310): A ready or overflow report reaches the source, which decides when all are in. -/
  | courseReadyReport (src num dst status : Nat)
  /-- COURSE_TIMEOUT (R310): 100 µs after LAY's apply the course fails with status 3. -/
  | courseTimeout (src num : Nat)
  /-- COURSE_DECISION (R118): A destination receives the decision and publishes or discards its staged words. -/
  | courseDecision (pkg src num : Nat)
  /-- COURSE_DECISION_ACK (R310): Acknowledgements reach the source, which frees the number and returns the
      status. -/
  | courseDecisionAck (src num dst : Nat)
  /-- SCORING_REQUEST (R322): An edge gateway scores tokens, writes combine records and sends token records. -/
  | scoringRequest (msg : Nat)
  /-- TOKEN_ARRIVAL (R324): A token record reaches the serving directory and is delivered, held, spilled or
      dropped. -/
  | tokenArrival (msg : Nat)
  /-- LOAD_WINDOW_END (R325): At a 4,096-cycle window end the directory grows or retires a replica by load. -/
  | loadWindowEnd (pkg : Nat)
  /-- REPLICA_COPY_COMPLETE (R319): Every write of a warming replica's copy commits and it becomes active. -/
  | replicaCopyComplete (name entry : Nat)
  /-- CONTRIBUTION_ARRIVAL (R331): A replica's gradient arrives at the owner's directory and is added, possibly
      closing the join. -/
  | contributionArrival (name cmd : Nat)
  /-- EXUPD_COURSE_STATUS (R332): The update course's status reaches the directory, which advances the version or
      reopens UPD. -/
  | exupdCourseStatus (name status : Nat)
  /-- COMBINE_CONTRIBUTION (R329): A replica's slot result reaches an edge gateway for forwarding or combining. -/
  | combineContribution (msg : Nat)
  /-- COMBINE_RECORD_RECHECK (R329): Every 4,096 cycles a waiting gateway rereads the combine record. -/
  | combineRecordRecheck (pkg gateway : Nat)
  /-- MERGE_CONTRIBUTION (R388): A triple contribution reaches an edge gateway and joins its record's arrival set. -/
  | mergeContribution (msg : Nat)
  /-- TRAP_ENTRY (R361): After earlier chunks commit, the strand writes its trap record and enters the handler. -/
  | trapEntry (strand : Nat)
  /-- PREEMPTION (R367): The host queue unit signals a cluster; the displaced launch stops and the shadow bank
      swaps in. -/
  | preemption (cluster lkey : Nat)
  /-- SPILL_COMPLETE (R368): The spill engine finishes writing a displaced context image. -/
  | spillComplete (cluster : Nat)
  /-- LAUNCH_RESUME (R369): A displaced launch resumes in place or from its image, with remap tables rewritten. -/
  | launchResume (cluster target : Nat)
  /-- PACKAGE_DECLARED_DOWN (R371): A package is declared down; homes drop its holders and recovery proceeds. -/
  | packageDeclaredDown (pkg : Nat)
  /-- FAULT_RING_WRITE (R397): A write to an MTU's FRHEAD, FRBASE or FRCTL frees ring space or makes the ring
      valid, and the MTU writes the records it has held. -/
  | faultRingWrite (pkg unit offset value : Nat)
  /-- CANDIDATE_RING_WRITE (R33): A write to CRHEAD, CRBASE or CRCTL frees or validates the candidate ring, and
      the MTU writes its held candidate records. -/
  | candidateRingWrite (pkg unit offset value : Nat)
  /-- GIXIS_FLIT_RECEIVE (R377): A receiver checks a flit's CRC and sequence, accepting, discarding or asking for
      replay. -/
  | gixisFlitReceive (pkg port : Nat) (flit : List Byte)
  /-- GIXIS_REPLAY_REQUEST (R377): A sender resends stored flits from the requested sequence number. -/
  | gixisReplayRequest (pkg port seq : Nat)
  /-- LINK_RETRAIN (R378): After retraining, link ends compare views and enter service or the disagree state. -/
  | linkRetrain (pkg port width lanes speed peerWidth peerLanes peerSpeed : Nat)
  /-- LINK_RETRAIN_TIMEOUT (R378): A 5 ms retrain attempt expires; after three the link is declared down. -/
  | linkRetrainTimeout (pkg port : Nat)
  /-- E2E_ACK_ARRIVAL (R379): An end-to-end acknowledgement frees stored flits at the source. -/
  | e2eAckArrival (pkg dst vc seq : Nat)
  /-- E2E_ACK_TIMER (R379): Every 4 µs a destination with unacknowledged flits sends an acknowledgement. -/
  | e2eAckTimer (pkg : Nat)
  /-- E2E_RESEND_REQUEST (R379): A source resends from the first missing end-to-end number. -/
  | e2eResendRequest (pkg dst vc seq : Nat)
  /-- TUNNEL_DATAGRAM_RECEIVE (R380): An Ethernet tunnel datagram arrives and its flits are accepted or discarded
      as duplicates. -/
  | tunnelDatagramReceive (pkg port : Nat) (datagram : List Byte)
  /-- TUNNEL_RETRANSMIT_TIMEOUT (R380): A datagram unacknowledged for 100 µs is resent unchanged. -/
  | tunnelRetransmitTimeout (pkg domain seq : Nat)
  /-- SECOND_TIER_LINK_DOWN (R375): A second-tier link goes down and its range becomes reserved. -/
  | secondTierLinkDown (pkg port : Nat)
  /-- POWER_EPOCH (R382): Every 1 µs the power arbiter divides the budget among dies, HBM and I/O. -/
  | powerEpoch (pkg : Nat)
  /-- AGEING_REFRESH (R383): Every 24 hours each die's predicted end of life is refreshed. -/
  | ageingRefresh (pkg : Nat) (months : List Nat)
  /-- FIRMWARE_VERIFY (R381): The security processor verifies and measures a firmware image before running it. -/
  | firmwareVerify (pkg : Nat) (image signature : List Byte)
  /-- ATTESTATION_REQUEST (R381): The security processor returns a signed report of nonce, measurements and level. -/
  | attestationRequest (pkg : Nat) (nonce : List Byte)
  /-- BRING_UP_LEVEL (R384): The package enters the next service level after its self-test. -/
  | bringUpLevel (pkg : Nat) (selfTest : Bool)
  /-- REGISTER_WRITE (R374): A host write to a register with no behaviour of its own updates its RW fields. -/
  | registerWrite (pkg offset size value : Nat)
  /-- TUNNEL_ROUTE_ENTRY_WRITE (R380): A write that makes a tunnel route entry valid releases the traffic held at
      its gateway for that domain. -/
  | tunnelRouteEntryWrite (pkg domain word value : Nat)
  /-- SECOND_TIER_LINK_UP (R375): A second-tier CXL link comes up with its expander, and its capacity appears in
      the port's range. -/
  | secondTierLinkUp (pkg port capacity : Nat)
  deriving DecidableEq, Repr

end Sys2Proof
end

