-- ==== Sys2Proof/Machine/Fields.lean ====
section
/-!
DEFINITION. The fields of an instruction word under the spec's own numbering of bits: MOD bits are numbered 59 to
48 and IMM bits 47 to 0 (R167), and each field of a memory operand has its name (R169, R222).
-/

namespace Sys2Proof

/-- Bits `hi` to `lo` of a number. -/
def bits (x hi lo : Nat) : Nat := x / 2 ^ lo % 2 ^ (hi + 1 - lo)

/-- Bit `n` of a number. -/
def nbit (x n : Nat) : Bool := x / 2 ^ n % 2 == 1

/-- MOD bit `n` of the word, with `n` from 48 to 59 (R167). -/
def Ops.modBit (o : Ops) (n : Nat) : Bool := nbit o.md.toNat (n - 48)

/-- MOD bits `hi` to `lo` of the word (R167). -/
def Ops.modBits (o : Ops) (hi lo : Nat) : Nat := bits o.md.toNat (hi - 48) (lo - 48)

/-- IMM bits `hi` to `lo` of the word (R167). -/
def Ops.immBits (o : Ops) (hi lo : Nat) : Nat := bits o.imm.toNat hi lo

/-- The immediate flag I of the scalar integer instructions (R168). -/
def Ops.iFlag (o : Ops) : Bool := o.modBit 59

/-- The variant flag X of MULH, DIV, REM and BFX (R194). -/
def Ops.xFlag (o : Ops) : Bool := o.modBit 58

/-- SIZE of a memory access as a power of two (R222). -/
def Ops.sizeLog (o : Ops) : Nat := o.modBits 59 58

/-- The bytes of a memory access (R222). -/
def Ops.nBytes (o : Ops) : Nat := 2 ^ o.sizeLog

/-- The F bit of a memory access: the data register is an f register (R222). -/
def Ops.fFlag (o : Ops) : Bool := o.modBit 56

/-- The SX bit of a load (R222). -/
def Ops.sxFlag (o : Ops) : Bool := o.modBit 57

/-- SCALE of a memory operand (R169). -/
def Ops.scale (o : Ops) : Nat := o.modBits 49 48

/-- TYPE of a scalar floating-point instruction (R202). -/
def Ops.fType (o : Ops) : Nat := o.modBits 58 55

/-- STYPE of FCVT (R202). -/
def Ops.fSType (o : Ops) : Nat := o.modBits 54 51

/-- COND, RM or DIR of a scalar floating-point instruction (R202). -/
def Ops.fCond (o : Ops) : Nat := o.modBits 50 48

/-- TYPE of a vector instruction (R255). -/
def Ops.vType (o : Ops) : Nat := o.modBits 59 56

/-- BS of a vector instruction (R257). -/
def Ops.bs (o : Ops) : Bool := o.modBit 55

end Sys2Proof
end

