-- ==== Sys2Proof/Machine/Legal.lean ====
section
/-!
DEFINITION. Which fields of a word are legal: the decode fates of R191, row by row. A register field beyond its
file, a nonzero unused field, a reserved MOD value and a guard with GN = 1 and GP = 0 are illegal.
-/

namespace Sys2Proof

/-- What a register field of a word names: nothing (it must be zero, R167) or a register of a file (R168). -/
inductive File where
  | n
  | s
  | f
  | p
  | v
  | a
  deriving DecidableEq, Repr

/-- Whether a register field holds a number of its file (R168). -/
def File.holds (k : File) (r : BitVec 6) : Bool :=
  match k with
  | .n => r == 0
  | .s => r.toNat < 32
  | .f => r.toNat < 16
  | .p => r.toNat < 8
  | .v => true
  | .a => r.toNat < 32

/-- GN = 1 with GP = 0 is illegal (R173). -/
def guardLegal (g : Guard) : Bool := !(g.neg && g.p == 0)

/-- The field rules that all words of the R format share: the guard, the four register fields, and no bit of MOD
or IMM set beyond those the instruction uses (R167, R168, R191). -/
def fits (o : Ops) (dst sa sb sc : File) (md : BitVec 12) (imm : BitVec 48) : Bool :=
  guardLegal o.g && dst.holds o.dst && sa.holds o.sa && sb.holds o.sb && sc.holds o.sc &&
    o.md &&& ~~~md == 0 && o.imm &&& ~~~imm == 0

/-- With I = 1, SB is zero; with I = 0, IMM is zero (R168). -/
def iForm (o : Ops) : Bool := if o.iFlag then o.sb == 0 else o.imm == 0

/-- An immediate field description of BFX and BFI: bits 47 to 13 zero and a length of at most 64 (R199). -/
def fieldImm (o : Ops) : Bool := !o.iFlag || (o.immBits 47 13 == 0 && o.immBits 12 6 ≤ 64)

/-- The element types f16, bf16, f32 and f64 (R183, R202). -/
def scalarFp (t : Nat) : Bool := 8 ≤ t && t ≤ 11

/-- The integer element types (R255). -/
def intType (t : Nat) : Bool := t ≤ 7

/-- "int" and "fp" of the table of R255. -/
def intOrFp (t : Nat) : Bool := t ≤ 11

/-- "signed" and "fp" of the table of R255. -/
def signedOrFp (t : Nat) : Bool := t ≤ 3 || scalarFp t

/-- The element types of 64 bits: s64, z64 and f64 (R253). -/
def wideType (t : Nat) : Bool := t == 3 || t == 7 || t == 11

/-- Every floating-point element type (R240). -/
def fpType (t : Nat) : Bool := scalarFp t || t == 12 || t == 13

/-- The order of the largest finite values of the floating-point types (R240). -/
def maxRank (t : Nat) : Nat :=
  match t with
  | 12 => 1
  | 13 => 2
  | 8 => 3
  | 9 => 4
  | 10 => 5
  | 11 => 6
  | _ => 0

/-- The integer types of FCVT: s32, s64, z32 and z64 (R206). -/
def fcvtInt (t : Nat) : Bool := t == 2 || t == 3 || t == 6 || t == 7

/-- The type, rounding and saturation rules of FCVT (R206). -/
def fcvtLegal (o : Ops) : Bool :=
  (scalarFp o.fType || fcvtInt o.fType) && (scalarFp o.fSType || fcvtInt o.fSType) &&
    o.fType != o.fSType && (scalarFp o.fType || scalarFp o.fSType) && o.fCond ≤ 4 &&
    (!o.modBit 59 || (scalarFp o.fType && scalarFp o.fSType && maxRank o.fType < maxRank o.fSType))

/-- The control register numbers of R216. -/
def controlRegister (n : Nat) : Bool :=
  n ≤ 8 || n == 0x10 || n == 0x11 || n == 0x18 || n == 0x19

/-- The scopes of INVP and their fields (R220). -/
def invpLegal (o : Ops) : Bool :=
  match o.modBits 58 57 with
  | 0 => o.imm != 0
  | 1 => o.sa == 0 && o.sb != 0 && o.imm == 0
  | 2 => o.sa == 0 && o.sb == 0 && o.imm == 0
  | _ => false

/-- The file of the scalar operand of a vector instruction: s for integer types, f for fp types (R257). -/
def scalarFile (o : Ops) : File := if intType o.vType then .s else .f

/-- The file of operand b of a vector instruction (R257). -/
def scalarOrVector (o : Ops) : File := if o.bs then scalarFile o else .v

/-- The integer types some value of which exceeds the largest finite value of a floating-point type (R262). -/
def intExceeds (src dst : Nat) : Bool :=
  match dst with
  | 12 => src == 1 || src == 5 || src == 2 || src == 6 || src == 3 || src == 7
  | 13 => src == 5 || src == 2 || src == 6 || src == 3 || src == 7
  | 8 => src == 5 || src == 2 || src == 6 || src == 3 || src == 7
  | _ => false

/-- Whether the saturation modifier is permitted for a conversion (R262). -/
def satPermitted (src dst : Nat) : Bool :=
  if intType src then intType dst || intExceeds src dst
  else fpType dst && maxRank dst < maxRank src

/-- The type, rounding, saturation and half rules of VCVT (R262). -/
def vcvtLegal (o : Ops) : Bool :=
  o.vType ≤ 13 && o.modBits 55 52 ≤ 13 && o.vType != o.modBits 55 52 && o.modBits 51 49 ≤ 4 &&
    (!o.modBit 48 || satPermitted (o.modBits 55 52) o.vType) &&
    (o.imm == 0 || wideType o.vType != wideType (o.modBits 55 52))

/-- The element types of VDIST (R255). -/
def vdistType (t : Nat) : Bool :=
  t == 0 || t == 4 || t == 8 || t == 9 || t == 10 || t == 12 || t == 13

/-- The file of the data register of a memory access (R222). -/
def dataFile (o : Ops) : File := if o.fFlag then .f else .s

/-- X = 1 with SIZE = D is illegal; with F = 1, SIZE is H, W or D and X is 0 (R222). -/
def loadForm (o : Ops) : Bool :=
  !(o.sxFlag && o.sizeLog == 3) && !(o.fFlag && (o.sizeLog == 0 || o.sxFlag))

/-- The range of SLOT.CLM and SLOT.REL (R280). -/
def slotRange (o : Ops) : Bool :=
  1 ≤ o.immBits 15 8 && o.immBits 15 8 ≤ 128 && o.immBits 6 0 + o.immBits 15 8 ≤ 128 &&
    o.immBits 7 7 == 0

/-- The scalar operations of a pair by their class-00 opcodes (R172). -/
def pairScalar (op : Nat) : Bool :=
  op == 0x1C || (1 ≤ op && op ≤ 3) || (7 ≤ op && op ≤ 0xD) || (0x12 ≤ op && op ≤ 0x15)

/-- The element types that each vector operation of a pair accepts (R172, R255). -/
def pairVector (op t : Nat) : Bool :=
  if op ≤ 5 then intOrFp t
  else if op ≤ 7 then signedOrFp t
  else op ≤ 0xC && intType t

/-- The field rules of a pair (R171, R172): an unused source field is zero, a shift by an immediate lies between
0 and 63 as in the full form (R194), and NOP uses no field. -/
def pairLegal (p : PairOps) : Bool :=
  guardLegal p.g && pairScalar p.sop.toNat && pairVector p.vop.toNat p.vtype.toNat &&
    File.s.holds p.sdst && File.s.holds p.ssa && File.s.holds p.ssb &&
    (if p.si then p.ssb == 0 else p.simm == 0) &&
    (p.sop != 0x1C || (p.sdst == 0 && p.ssa == 0 && p.ssb == 0 && !p.si)) &&
    (!(0xB ≤ p.sop.toNat && p.sop.toNat ≤ 0xD) || !p.si || p.simm.toNat ≤ 63) &&
    (p.vop == 3 || p.vsc == 0) && (!(p.vop == 6 || p.vop == 7) || p.vsb == 0)

/-- The rules that each row's description gives for the fields of its word (R191 and the rule of each row). Every
step of another agent is legal: it has no word. -/
def legal (i : Instr) : Bool :=
  match i with
  | .add o => fits o .s .s .s .n 0x800 0xffffffffffff && (iForm o)
  | .sub o => fits o .s .s .s .n 0x800 0xffffffffffff && (iForm o)
  | .mul o => fits o .s .s .s .n 0x800 0xffffffffffff && (iForm o)
  | .mulh o => fits o .s .s .s .n 0xc00 0xffffffffffff && (iForm o)
  | .div o => fits o .s .s .s .n 0xc00 0xffffffffffff && (iForm o)
  | .rem o => fits o .s .s .s .n 0xc00 0xffffffffffff && (iForm o)
  | .and o => fits o .s .s .s .n 0x800 0xffffffffffff && (iForm o)
  | .or o => fits o .s .s .s .n 0x800 0xffffffffffff && (iForm o)
  | .xor o => fits o .s .s .s .n 0x800 0xffffffffffff && (iForm o)
  | .andn o => fits o .s .s .s .n 0x800 0xffffffffffff && (iForm o)
  | .shl o => fits o .s .s .s .n 0x800 0xffffffffffff && (iForm o && (!o.iFlag || o.imm.toNat ≤ 63))
  | .shr o => fits o .s .s .s .n 0x800 0xffffffffffff && (iForm o && (!o.iFlag || o.imm.toNat ≤ 63))
  | .sra o => fits o .s .s .s .n 0x800 0xffffffffffff && (iForm o && (!o.iFlag || o.imm.toNat ≤ 63))
  | .rot o => fits o .s .s .s .n 0x800 0xffffffffffff && (iForm o && (!o.iFlag || o.imm.toNat ≤ 63))
  | .clz o => fits o .s .s .n .n 0x0 0x0
  | .ctz o => fits o .s .s .n .n 0x0 0x0
  | .popc o => fits o .s .s .n .n 0x0 0x0
  | .min o => fits o .s .s .s .n 0x800 0xffffffffffff && (iForm o)
  | .max o => fits o .s .s .s .n 0x800 0xffffffffffff && (iForm o)
  | .minz o => fits o .s .s .s .n 0x800 0xffffffffffff && (iForm o)
  | .maxz o => fits o .s .s .s .n 0x800 0xffffffffffff && (iForm o)
  | .cmp o => fits o .p .s .s .n 0xbc0 0xffffffffffff && (iForm o && o.modBits 57 54 ≤ 9)
  | .sel o => fits o .s .s .s .p 0x800 0xffffffffffff && (iForm o)
  | .movi g dst _ => guardLegal g && File.s.holds dst
  | .lea o => fits o .s .s .s .n 0x803 0xffffffffffff && (iForm o && (!o.iFlag || o.scale == 0))
  | .bfx o => fits o .s .s .s .n 0xc00 0xffffffffffff && (iForm o && fieldImm o)
  | .bfi o => fits o .s .s .s .s 0x800 0xffffffffffff && (iForm o && fieldImm o)
  | .nop o => fits o .n .n .n .n 0x0 0x0
  | .fadd o => fits o .f .f .f .n 0x780 0x0 && (scalarFp o.fType)
  | .fsub o => fits o .f .f .f .n 0x780 0x0 && (scalarFp o.fType)
  | .fmul o => fits o .f .f .f .n 0x780 0x0 && (scalarFp o.fType)
  | .ffma o => fits o .f .f .f .f 0x780 0x0 && (scalarFp o.fType)
  | .fdiv o => fits o .f .f .f .n 0x780 0x0 && (scalarFp o.fType)
  | .fsqrt o => fits o .f .f .n .n 0x780 0x0 && (scalarFp o.fType)
  | .fmin o => fits o .f .f .f .n 0x780 0x0 && (scalarFp o.fType)
  | .fmax o => fits o .f .f .f .n 0x780 0x0 && (scalarFp o.fType)
  | .fcmp o => fits o .p .f .f .n 0x787 0x0 && (scalarFp o.fType && o.fCond ≤ 6)
  | .fcvt o => fits o (if scalarFp o.fType then .f else .s) (if scalarFp o.fSType then .f else .s) .n .n 0xfff 0x0 && (fcvtLegal o)
  | .fmov o => fits o (if o.fCond == 2 then .s else .f) (if o.fCond == 1 then .s else .f) .n .n 0x7 0x0 && (o.fCond ≤ 2)
  | .br o => fits o .n .n .n .n 0x0 0xffffffffffff
  | .j o => fits o .n .n .n .n 0x0 0xffffffffffff && (o.immBits 2 0 ≤ 4)
  | .jr o => fits o .n .s .n .n 0x0 0x0
  | .call o => fits o .s .n .n .n 0x0 0xffffffffffff
  | .callReg o => fits o .s .s .n .n 0x400 0x0 && (o.modBit 58)
  | .ret o => fits o .n .s .n .n 0x0 0x0
  | .loop o => fits o .s .n .n .n 0x0 0xffffffffffff && (o.dst != 0)
  | .wait o => fits o .n .n .n .n 0x0 0xffffff
  | .chunk o => fits o .n .n .n .n 0x0 0x0
  | .susp o => fits o .n .s .s .n 0x0 0xffffffffffff
  | .suspMsg o => fits o .n .s .n .n 0x400 0xffffffffffff && (o.modBit 58)
  | .done o => fits o .n .n .n .n 0x0 0x0
  | .yield o => fits o .n .n .n .n 0x0 0xffff && (o.imm != 0)
  | .trap o => fits o .n .n .n .n 0x0 0xffff
  | .krd o => fits o .s .n .n .n 0x0 0xfff && (controlRegister o.imm.toNat)
  | .kwr o => fits o .n .s .n .n 0x0 0xfff && (controlRegister o.imm.toNat)
  | .eret o => fits o .n .n .n .n 0x0 0x0
  | .invp o => fits o .n .s .s .n 0x700 0xfffffffff && (invpLegal o)
  | .halt o => fits o .n .n .n .n 0x0 0x0
  | .pair p => pairLegal p
  | .vadd o => fits o .v .v (scalarOrVector o) .n 0xf80 0x0 && (intOrFp o.vType)
  | .vsub o => fits o .v .v (scalarOrVector o) .n 0xf80 0x0 && (intOrFp o.vType)
  | .vmul o => fits o .v .v (scalarOrVector o) .n 0xf80 0x0 && (intOrFp o.vType)
  | .vfma o => fits o .v .v (scalarOrVector o) .v 0xf80 0x0 && (intOrFp o.vType)
  | .vmin o => fits o .v .v (scalarOrVector o) .n 0xf80 0x0 && (intOrFp o.vType)
  | .vmax o => fits o .v .v (scalarOrVector o) .n 0xf80 0x0 && (intOrFp o.vType)
  | .vabs o => fits o .v .v .n .n 0xf00 0x0 && (signedOrFp o.vType)
  | .vneg o => fits o .v .v .n .n 0xf00 0x0 && (signedOrFp o.vType)
  | .vand o => fits o .v .v (scalarOrVector o) .n 0xf80 0x0 && (intType o.vType)
  | .vor o => fits o .v .v (scalarOrVector o) .n 0xf80 0x0 && (intType o.vType)
  | .vxor o => fits o .v .v (scalarOrVector o) .n 0xf80 0x0 && (intType o.vType)
  | .vshl o => fits o .v .v (scalarOrVector o) .n 0xf80 0x0 && (intType o.vType)
  | .vshr o => fits o .v .v (scalarOrVector o) .n 0xf80 0x0 && (intType o.vType)
  | .vcmp o => fits o .p .v (scalarOrVector o) .n 0xff8 0x0 && (intOrFp o.vType && (o.modBits 54 51 ≤ 5 || (o.modBits 54 51 == 6 && scalarFp o.vType)))
  | .vsel o => fits o .v .v .v .p 0xf00 0x0 && (o.vType ≤ 13)
  | .vcvt o => fits o .v .v .n .n 0xfff 0x1 && (vcvtLegal o)
  | .vld o => fits o .v .s .s .n 0xf03 0xffffffffffff && (o.vType ≤ 13)
  | .vst o => fits o .n .s .s .v 0xf03 0xffffffffffff && (o.vType ≤ 13)
  | .vgath o => fits o .v .s .v .n 0xf03 0xffffffffffff && (o.vType ≤ 13)
  | .vscat o => fits o .n .s .v .v 0xf03 0xffffffffffff && (o.vType ≤ 13)
  | .vbcast o => fits o .v (scalarFile o) .n .n 0xf00 0x0 && (intOrFp o.vType)
  | .vperm o => fits o .v .v .v .n 0xf00 0x0 && (o.vType ≤ 13)
  | .vredsum o => fits o (scalarFile o) .v .n .n 0xf00 0x0 && (intOrFp o.vType)
  | .vredmax o => fits o (scalarFile o) .v .n .n 0xf00 0x0 && (intOrFp o.vType)
  | .vredmin o => fits o (scalarFile o) .v .n .n 0xf00 0x0 && (intOrFp o.vType)
  | .vexp2 o => fits o .v .v .n .n 0xf00 0x0 && (scalarFp o.vType)
  | .vrcp o => fits o .v .v .n .n 0xf00 0x0 && (scalarFp o.vType)
  | .vrsq o => fits o .v .v .n .n 0xf00 0x0 && (scalarFp o.vType)
  | .vmovs o => fits o (if o.bs then .v else scalarFile o) (if o.bs then scalarFile o else .v) .n .n 0xf80 0x1f && (intOrFp o.vType && (!wideType o.vType || o.imm.toNat ≤ 15))
  | .vdist o => fits o .v .s .v .v 0xff3 0xffffffffffff && (vdistType o.vType && o.modBits 55 54 != 3)
  | .vtopk o => fits o .v .v .v .n 0xf80 0x3f && ((o.vType == 2 || o.vType == 6 || o.vType == 10) && o.dst.toNat % 2 == 0 && 1 ≤ o.imm.toNat && o.imm.toNat ≤ 32)
  | .ld o => fits o (dataFile o) .s .s .n 0xf03 0xffffffffffff && (loadForm o)
  | .ldAcqSy o => fits o (dataFile o) .s .s .n 0xfc3 0xffffffffffff && (loadForm o && o.modBits 55 54 == 1)
  | .st o => fits o .n .s .s (dataFile o) 0xd03 0xffffffffffff && (loadForm o)
  | .stRelSy o => fits o .n .s .s (dataFile o) 0xdc3 0xffffffffffff && (loadForm o && o.modBits 55 54 == 1)
  | .lds o => fits o (dataFile o) .s .s .n 0xf03 0xffffffffffff && (loadForm o)
  | .chkw o => fits o .n .n .n .n 0x0 0xffffffffffff
  | .wclr o => fits o .n .n .n .n 0x0 0x0
  | .ldl o => fits o (dataFile o) .s .s .n 0xf03 0xffffffffffff && (loadForm o)
  | .ldlDrop o => fits o (dataFile o) .s .s .n 0xf43 0xffffffffffff && (loadForm o && o.modBit 54)
  | .pf o => fits o .n .s .s .s 0x403 0xffffffffffff
  | .res o => fits o .n .s .s .s 0x403 0xffffffffffff
  | .spmap o => fits o .n .s .s .s 0xf00 0x0
  | .spunmap o => fits o .n .n .n .n 0x700 0x0
  | .spflush o => fits o .n .n .n .n 0x700 0x0
  | .fence o => fits o .n .n .n .n 0x0 0x0
  | .fenceSy o => fits o .n .n .n .n 0x400 0x0 && (o.modBit 58)
  | .lease o => fits o .n .n .n .n 0x0 0x7
  | .unlease o => fits o .n .n .n .n 0x0 0x0
  | .slotClm o => fits o .p .n .n .n 0x0 0xffff && (slotRange o)
  | .slotRel o => fits o .n .n .n .n 0x0 0xffff && (slotRange o)
  | .cpyIn o => fits o .s .s .n .n 0x0 0x7f
  | .cpyOut o => fits o .s .s .n .n 0xfe0 0x1f && (o.modBits 59 58 ≤ 2 && o.modBits 57 55 ≤ 4 && (o.modBits 59 58 != 1 || o.imm.toNat % 2 == 0))
  | .cpyM o => fits o .s .s .s .s 0x0 0x0
  | .cpyNv o => fits o .s .s .n .n 0x0 0x0
  | .mmaDd o => fits o .a .n .n .n 0xe00 0x7f7f && (o.dst.toNat % 2 == 0)
  | .mmaSs o => fits o .a .n .n .n 0xe00 0x7f7f
  | .mmaBb o => fits o .a .n .n .f 0xe00 0x7f7f
  | .mmaHh o => fits o .a .n .n .f 0xe00 0x7f7f
  | .mmaEe o => fits o .a .n .n .f 0xe00 0x7f7f
  | .mmaEf o => fits o .a .n .n .f 0xe00 0x7f7f
  | .mmaFf o => fits o .a .n .n .f 0xe00 0x7f7f
  | .mmaQq o => fits o .a .n .n .f 0xe00 0x7f7f
  | .mmaQe o => fits o .a .n .n .f 0xe00 0x7f7f && (o.immBits 14 8 != 127)
  | .mmaIi o => fits o .a .n .n .n 0xe00 0x7f7f
  | .mmv o => fits o .a .s .s (if o.vType == 10 then .n else .f) 0xff0 0x71f && (o.vType != 11 && 8 ≤ o.vType && o.vType ≤ 14 && o.immBits 4 0 != o.dst.toNat)
  | .accZero o => fits o .a .n .n .n 0x0 0x3f && (1 ≤ o.imm.toNat && o.imm.toNat ≤ 32 && o.dst.toNat + o.imm.toNat ≤ 32)
  | .accRd o => fits o .a .s .n .n 0x800 0x3f3f && (o.immBits 5 0 + (o.immBits 13 8 + 1) ≤ 64)
  | .amo o => fits o .s .s .s .s 0xfc3 0xffffffffffff && (2 ≤ o.sizeLog && o.modBits 57 54 ≤ 13)
  | .red o => fits o .n .s .s .s 0xfc3 0xffffffffffff && (2 ≤ o.sizeLog && o.modBits 57 54 ≤ 12)
  | .send o => fits o (if o.modBit 58 then .s else .n) .s .n (if o.immBits 14 8 == 0 then .n else .v) 0xe0f 0x7f3f && (o.immBits 14 8 ≤ 64 && (!o.modBit 57 || o.imm == 0))
  | .sendm o => fits o (if o.modBit 58 then .s else .n) .s .s (if o.immBits 14 8 == 0 then .n else .v) 0xd8f 0x7f3f && (o.immBits 14 8 ≤ 64 && o.modBits 56 55 != 3)
  | .sendNx o => fits o (if o.modBit 58 then .s else .n) .n .n (if o.immBits 14 8 == 0 then .n else .v) 0xc0f 0x7f3f && (o.immBits 14 8 ≤ 64)
  | .hset o => fits o .n .s .n .n 0x0 0x3f
  | .hmask o => fits o .n .s .n .n 0x0 0x0
  | .hunmask o => fits o .n .s .n .n 0x0 0x0
  | .jinit o => fits o .n .s .s .s 0x0 0x3fff && (o.sb == 0 || o.imm == 0)
  | .jarr o => fits o .s .s .s .n 0x3 0xffffffffffff
  | .qopen o => fits o .n .n .n .n 0xf 0x0
  | .qwait o => fits o .n .s .n .n 0xf 0xffffffffffff
  | .cbegin o => fits o .s .n .n .n 0x0 0x0
  | .stc o => fits o .s .s .s .s 0xc03 0xffffffffffff
  | .lay o => fits o .s .s .n .n 0x0 0x0
  | .abandon o => fits o .n .s .n .n 0x0 0x0
  | .cstat o => fits o .s .s .n .n 0x0 0x0
  | .exdef o => fits o .s .s .s .n 0x0 0x0
  | .exrt o => fits o .s .s .n .n 0x0 0x7f && (o.imm.toNat ≤ 79)
  | .exload o => fits o .s .s .n .n 0x0 0xf
  | .exgrow o => fits o .s .s .n .n 0x0 0x3f && (o.imm.toNat ≤ 32)
  | .exretire o => fits o .s .s .n .n 0x0 0x1f
  | .exjoinContrib o => fits o .s .s .s .n 0x0 0x1f
  | .exjoinHand o => fits o .s .s .s .n 0x800 0x1f && (o.modBit 59)
  | .exupd o => fits o .s .s .n .n 0x0 0x0
  | .exspill o => fits o .s .s .n .n 0x0 0x0
  | .yieldExpiry _ => true
  | .invpCompletion _ => true
  | .haltRelease _ _ => true
  | .instructionLimitChunkEnd _ => true
  | .commitPoint _ => true
  | .soleCommitTokenGrant _ => true
  | .loadDataReturn _ _ => true
  | .storeAcknowledgement _ _ => true
  | .translationMiss _ _ _ _ => true
  | .mtuResume _ _ _ => true
  | .mtuKill _ _ _ => true
  | .counterHalving _ _ => true
  | .cdump _ _ _ => true
  | .counterDumpDone _ _ => true
  | .pageMove _ _ _ _ => true
  | .moveFinalPass _ _ => true
  | .homeReadRequest _ => true
  | .homeOwnershipRequest _ => true
  | .homeWriteBack _ => true
  | .recallAnswer _ => true
  | .invalidationArrival _ => true
  | .recallArrival _ => true
  | .fillAnswer _ => true
  | .confirmRequest _ => true
  | .confirmAnswer _ => true
  | .combineRequest _ => true
  | .combinePartialArrival _ => true
  | .windowWriteBack _ => true
  | .hostSnpdata _ _ => true
  | .hostSnpinv _ _ => true
  | .hostSnpcur _ _ => true
  | .hostCxlMemRead _ _ _ _ => true
  | .hostCxlMemWrite _ _ _ => true
  | .backInvalidationAnswer _ _ _ => true
  | .cxlCacheGrant _ _ _ _ => true
  | .messageArrival _ => true
  | .handlerSelection _ => true
  | .brickMessageArrival _ => true
  | .quiescenceWave => true
  | .doorbell _ _ _ => true
  | .hquSubmitMessage _ => true
  | .quantumRemap _ => true
  | .admission _ _ => true
  | .launchDispatch _ => true
  | .graphAdmission _ _ => true
  | .graphNodeComplete _ _ _ => true
  | .msixCoalesceExpiry _ _ => true
  | .watchEntryWrite _ _ _ _ => true
  | .leaseGrant _ => true
  | .leaseTermExpiry _ => true
  | .tileTaskIssue _ => true
  | .tileTaskComplete _ => true
  | .subnormalAssist _ => true
  | .copyCommandStart _ => true
  | .copyCommandComplete _ _ => true
  | .nvmeCompletionEntry _ _ _ _ => true
  | .nvmeTimeout _ _ _ => true
  | .nvmeControllerWrite _ _ _ => true
  | .nvmeQueueEntryWrite _ _ _ _ => true
  | .stcStagingArrival _ _ => true
  | .coursePrepare _ _ _ => true
  | .courseReadyReport _ _ _ _ => true
  | .courseTimeout _ _ => true
  | .courseDecision _ _ _ => true
  | .courseDecisionAck _ _ _ => true
  | .scoringRequest _ => true
  | .tokenArrival _ => true
  | .loadWindowEnd _ => true
  | .replicaCopyComplete _ _ => true
  | .contributionArrival _ _ => true
  | .exupdCourseStatus _ _ => true
  | .combineContribution _ => true
  | .combineRecordRecheck _ _ => true
  | .mergeContribution _ => true
  | .trapEntry _ => true
  | .preemption _ _ => true
  | .spillComplete _ => true
  | .launchResume _ _ => true
  | .packageDeclaredDown _ => true
  | .gixisFlitReceive _ _ _ => true
  | .gixisReplayRequest _ _ _ => true
  | .linkRetrain _ _ _ _ _ _ _ _ => true
  | .linkRetrainTimeout _ _ => true
  | .e2eAckArrival _ _ _ _ => true
  | .e2eAckTimer _ => true
  | .e2eResendRequest _ _ _ _ => true
  | .tunnelDatagramReceive _ _ _ => true
  | .tunnelRetransmitTimeout _ _ _ => true
  | .secondTierLinkDown _ _ => true
  | .powerEpoch _ => true
  | .ageingRefresh _ _ => true
  | .firmwareVerify _ _ _ => true
  | .attestationRequest _ _ => true
  | .bringUpLevel _ _ => true
  | .registerWrite _ _ _ _ => true
  | .faultRingWrite _ _ _ _ => true
  | .candidateRingWrite _ _ _ _ => true
  | .tunnelRouteEntryWrite _ _ _ _ => true
  | .accumulatorLastElementRead _ _ => true
  | .secondTierLinkUp _ _ _ => true

end Sys2Proof
end

