-- ==== Sys2Proof/Machine/Numeric.lean ====
section
/-!
DEFINITION. Number formats and arithmetic: the formats of R240 to R243, exact values, Round and Saturate (R245 to
R247), and the arithmetic of R203, R204, R251 and R270. A number is worked on exactly and rounded once.
-/

namespace Sys2Proof.Machine

/-- A finite value: (-1)^neg times m times 2^e. -/
structure Exact where
  neg : Bool
  m   : Nat
  e   : Int
  deriving DecidableEq, Repr

/-- What a floating-point code stands for (R240, R241). -/
inductive Num where
  | nan
  | inf (neg : Bool)
  | fin (x : Exact)
  deriving DecidableEq, Repr

/-- A floating-point format: exponent and fraction widths, bias, and whether it has infinities (R240, R241). -/
structure Fmt where
  ebits  : Nat
  fbits  : Nat
  bias   : Int
  hasInf : Bool
  deriving DecidableEq, Repr

/-- The format of an element-type code (R183, R240); f64 for a code that is no floating-point type. -/
def fmtOf (t : Nat) : Fmt :=
  match t with
  | 8 => ⟨5, 10, 15, true⟩
  | 9 => ⟨8, 7, 127, true⟩
  | 10 => ⟨8, 23, 127, true⟩
  | 12 => ⟨4, 3, 7, false⟩
  | 13 => ⟨5, 2, 15, true⟩
  | _ => ⟨11, 52, 1023, true⟩

/-- The width in bits of an element-type code (R239, R240, R242). -/
def typeWidth (t : Nat) : Nat :=
  match t with
  | 0 => 8
  | 1 => 16
  | 2 => 32
  | 3 => 64
  | 4 => 8
  | 5 => 16
  | 6 => 32
  | 7 => 64
  | 8 => 16
  | 9 => 16
  | 10 => 32
  | 11 => 64
  | 12 => 8
  | 13 => 8
  | 14 => 4
  | _ => 64

/-- Whether an element type is a signed integer type (R183). -/
def signedType (t : Nat) : Bool := t ≤ 3

/-- The sign position of a format. -/
def Fmt.width (f : Fmt) : Nat := 1 + f.ebits + f.fbits

/-- The magnitude code of the exponent of all ones. -/
def Fmt.topCode (f : Fmt) : Nat := (2 ^ f.ebits - 1) * 2 ^ f.fbits

/-- The magnitude code of the largest finite value (R240, R241): e4m3 reaches 0x7E. -/
def Fmt.maxCode (f : Fmt) : Nat :=
  if f.hasInf then f.topCode - 1 else f.topCode + 2 ^ f.fbits - 2

/-- The sign bit of a code. -/
def Fmt.signBit (f : Fmt) (neg : Bool) : Nat := if neg then 2 ^ (f.width - 1) else 0

/-- The canonical quiet NaN (R241). -/
def Fmt.quietNan (f : Fmt) : Nat :=
  if f.hasInf then f.topCode + 2 ^ (f.fbits - 1) else f.topCode + 2 ^ f.fbits - 1

/-- The code of an infinity, or the NaN code with a sign of a format that has none (R241, R245). -/
def Fmt.infCode (f : Fmt) (neg : Bool) : Nat :=
  f.signBit neg + (if f.hasInf then f.topCode else f.topCode + 2 ^ f.fbits - 1)

/-- What the low bits of a code stand for (R240, R241). -/
def Fmt.value (f : Fmt) (code : Nat) : Num :=
  let c := code % 2 ^ (f.width - 1)
  let neg := nbit code (f.width - 1)
  let ex := c / 2 ^ f.fbits
  let fr := c % 2 ^ f.fbits
  if c ≤ f.maxCode then
    if ex = 0 then .fin ⟨neg, fr, 1 - f.bias - f.fbits⟩
    else .fin ⟨neg, 2 ^ f.fbits + fr, ex - f.bias - f.fbits⟩
  else if f.hasInf && fr == 0 then .inf neg
  else .nan

/-- The rounding modes of R245 and R206. -/
inductive RMode where
  | rne
  | rtz
  | rup
  | rdn
  | sr
  deriving DecidableEq, Repr

/-- The mode of a code of R206. -/
def rmodeOf (n : Nat) : RMode :=
  match n with
  | 0 => .rne
  | 1 => .rtz
  | 2 => .rup
  | 3 => .rdn
  | _ => .sr

/-- Whether a magnitude between `t` and the next value, `r` parts of 2^sh above `t`, is rounded away from zero;
`g` is the draw of R246. -/
def roundsUp (mode : RMode) (neg : Bool) (g t r sh : Nat) : Bool :=
  if r = 0 then false
  else
    match mode with
    | .rne => if 2 * r = 2 ^ sh then t % 2 == 1 else 2 ^ sh < 2 * r
    | .rtz => false
    | .rup => !neg
    | .rdn => neg
    | .sr => g < r * 65536 / 2 ^ sh

/-- The bits of a magnitude. -/
def bitLen (m : Nat) : Nat := if m = 0 then 0 else Nat.log2 m + 1

/-- What an overflow delivers (R245). -/
def overflowCode (f : Fmt) (mode : RMode) (neg : Bool) : Nat :=
  let toMax :=
    match mode with
    | .rtz => true
    | .rup => neg
    | .rdn => !neg
    | _ => false
  if toMax then f.signBit neg + f.maxCode else f.infCode neg

/-- The magnitude code of a finite magnitude, before overflow is judged: the neighbours are multiples of the
quantum, which below the normal range is that of the subnormal values (R245). -/
def roundMagnitude (f : Fmt) (mode : RMode) (g : Nat) (x : Exact) : Nat :=
  let q : Int := max (bitLen x.m - 1 + x.e - f.fbits) (1 - f.bias - f.fbits)
  let base := ((q + f.fbits + f.bias - 1).toNat) * 2 ^ f.fbits
  if q ≤ x.e then base + x.m * 2 ^ (x.e - q).toNat
  else
    let sh := (q - x.e).toNat
    let t := x.m / 2 ^ sh
    base + t + (if roundsUp mode x.neg g t (x.m % 2 ^ sh) sh then 1 else 0)

/-- Round of R245, with the saturation modifier of R247 when `sat` holds: a NaN gives the canonical quiet NaN. -/
def roundNum (f : Fmt) (mode : RMode) (g : Nat) (sat : Bool) (x : Num) : Nat :=
  match x with
  | .nan => f.quietNan
  | .inf neg =>
    if sat then f.signBit neg + f.maxCode
    else if f.hasInf then f.infCode neg
    else overflowCode f mode neg
  | .fin x =>
    if x.m = 0 then f.signBit x.neg
    else
      let c := roundMagnitude f mode g x
      if c ≤ f.maxCode then f.signBit x.neg + c
      else if sat then f.signBit x.neg + f.maxCode
      else overflowCode f mode x.neg

/-- Round to nearest even, the rounding of all arithmetic (R203). -/
def rne (f : Fmt) (x : Num) : Nat := roundNum f .rne 0 false x

/-- Round to the integers (R245). -/
def roundToInt (mode : RMode) (g : Nat) (x : Exact) : Int :=
  let mag :=
    if 0 ≤ x.e then x.m * 2 ^ x.e.toNat
    else
      let sh := (-x.e).toNat
      let t := x.m / 2 ^ sh
      t + (if roundsUp mode x.neg g t (x.m % 2 ^ sh) sh then 1 else 0)
  if x.neg then -(mag : Int) else mag

/-- The least and greatest integers of an integer type (R239). -/
def intMin (t : Nat) : Int := if signedType t then -(2 ^ (typeWidth t - 1) : Int) else 0

/-- The greatest integer of an integer type (R239). -/
def intMax (t : Nat) : Int :=
  if signedType t then 2 ^ (typeWidth t - 1) - 1 else 2 ^ typeWidth t - 1

/-- An integer clamped to a type (R239). -/
def clampInt (t : Nat) (x : Int) : Int := max (intMin t) (min x (intMax t))

/-- The low `w` bits of an integer. -/
def lowBits (w : Nat) (x : Int) : Nat := (x % (2 ^ w : Int)).toNat

/-- The integer that the low bits of a code stand for in an integer type (R239). -/
def intOf (t : Nat) (code : Nat) : Int :=
  let w := typeWidth t
  let c := code % 2 ^ w
  if signedType t && nbit c (w - 1) then (c : Int) - 2 ^ w else c

/-- A number clamped into an integer type under a mode: NaN gives 0, an infinity a limit (R206, R239). -/
def numToInt (t : Nat) (mode : RMode) (g : Nat) (x : Num) : Int :=
  match x with
  | .nan => 0
  | .inf neg => if neg then intMin t else intMax t
  | .fin x => clampInt t (roundToInt mode g x)

/-- An integer as an exact value. -/
def exactOfInt (x : Int) : Num := .fin ⟨x < 0, x.natAbs, 0⟩

/-- The sign of a number that is not a NaN. -/
def Num.sign (x : Num) : Bool :=
  match x with
  | .nan => false
  | .inf neg => neg
  | .fin x => x.neg

/-- A number with its sign inverted. -/
def Num.negate (x : Num) : Num :=
  match x with
  | .nan => .nan
  | .inf neg => .inf (!neg)
  | .fin x => .fin { x with neg := !x.neg }

/-- A finite value as an integer number of 2^e. -/
def Exact.scaled (x : Exact) (e : Int) : Int :=
  let m : Int := x.m * 2 ^ (x.e - e).toNat
  if x.neg then -m else m

/-- The exact sum (R203): a zero sum of operands of opposite sign is +0, and of equal signs keeps the sign. -/
def addExact (x y : Exact) : Exact :=
  let e := min x.e y.e
  let s := x.scaled e + y.scaled e
  if s = 0 then ⟨x.neg && y.neg, 0, 0⟩ else ⟨s < 0, s.natAbs, e⟩

/-- The sum of two numbers (R203). -/
def addNum (x y : Num) : Num :=
  match x, y with
  | .nan, _ => .nan
  | _, .nan => .nan
  | .inf a, .inf b => if a = b then .inf a else .nan
  | .inf a, .fin _ => .inf a
  | .fin _, .inf b => .inf b
  | .fin a, .fin b => .fin (addExact a b)

/-- The exact product of two numbers (R203). -/
def mulNum (x y : Num) : Num :=
  match x, y with
  | .nan, _ => .nan
  | _, .nan => .nan
  | .inf a, .inf b => .inf (a != b)
  | .inf a, .fin b => if b.m = 0 then .nan else .inf (a != b.neg)
  | .fin a, .inf b => if a.m = 0 then .nan else .inf (a.neg != b)
  | .fin a, .fin b => .fin ⟨a.neg != b.neg, a.m * b.m, a.e + b.e⟩

/-- A magnitude with one more bit below it, set when the exact value lies above the magnitude. -/
def withSticky (neg : Bool) (m : Nat) (e : Int) (earlier : Bool) : Num :=
  .fin ⟨neg, 2 * m + (if earlier then 1 else 0), e - 1⟩

/-- The quotient of two numbers (R203), to 160 bits with a bit that says whether it lies above them: enough for one
rounding to any type. -/
def divNum (x y : Num) : Num :=
  match x, y with
  | .nan, _ => .nan
  | _, .nan => .nan
  | .inf _, .inf _ => .nan
  | .inf a, .fin b => .inf (a != b.neg)
  | .fin a, .inf b => .fin ⟨a.neg != b, 0, 0⟩
  | .fin a, .fin b =>
    if b.m = 0 then (if a.m = 0 then .nan else .inf (a.neg != b.neg))
    else
      let k := 160 + bitLen b.m
      let n := a.m * 2 ^ k
      withSticky (a.neg != b.neg) (n / b.m) (a.e - b.e - k) (n % b.m != 0)

/-- The integer square root by its binary digits from bit `k` down: `r` is the root found so far. -/
def isqrtFrom (n : Nat) : Nat → Nat → Nat
  | 0, r => r
  | k + 1, r => isqrtFrom n k (if (r + 2 ^ k) * (r + 2 ^ k) ≤ n then r + 2 ^ k else r)

/-- The integer square root. -/
def isqrt (n : Nat) : Nat := isqrtFrom n (bitLen n / 2 + 1) 0

/-- The square root of a number (R203): that of -0 is -0, and that of a negative number is NaN. -/
def sqrtNum (x : Num) : Num :=
  match x with
  | .nan => .nan
  | .inf neg => if neg then .nan else .inf false
  | .fin x =>
    if x.m = 0 then .fin x
    else if x.neg then .nan
    else
      let odd := x.e % 2 != 0
      let m := (if odd then 2 * x.m else x.m) * 2 ^ 320
      let e := (if odd then x.e - 1 else x.e) / 2 - 160
      let r := isqrt m
      withSticky false r e (r * r != m)

/-- 1 divided by the square root (R270). -/
def rsqrtNum (x : Num) : Num :=
  match x with
  | .nan => .nan
  | .inf neg => if neg then .nan else .fin ⟨false, 0, 0⟩
  | .fin x =>
    if x.m = 0 then .inf x.neg
    else if x.neg then .nan
    else
      let odd := x.e % 2 != 0
      let m := if odd then 2 * x.m else x.m
      let e := (if odd then x.e - 1 else x.e) / 2
      let k := 160 + bitLen m
      let a := 2 ^ (2 * k)
      let r := isqrt (a / m)
      withSticky false r (-e - k) (r * r * m != a)

/-- The fractional bits with which the powers of 2 are bracketed. -/
def exp2Bits : Nat := 320

/-- The natural logarithm of 2 from below, in units of 2^-352: the sum of 1/(k 2^k). -/
def ln2From : Nat → Nat → Nat
  | 0, _ => 0
  | n + 1, k => 2 ^ 352 / (k * 2 ^ k) + ln2From n (k + 1)

/-- The Taylor terms of exp(y) from term `k` on, each rounded down, with y in units of 2^-352. -/
def expTerms (y : Nat) : Nat → Nat → Nat → Nat
  | 0, _, _ => 0
  | n + 1, k, term => term + expTerms y n (k + 1) (term * y / (2 ^ 352 * k))

/-- A lower bound of 2^f, within 2^-320 of it, in units of 2^-352, for a fraction f in units of 2^-320. -/
def exp2Fraction (f : Nat) : Nat :=
  expTerms (f * ln2From 360 1 / 2 ^ 320) 90 1 (2 ^ 352)

/-- 2 to a finite power under RNE (R270): exact for an integer power, else decided by a bracket of 2^f. -/
def exp2Exact (t : Nat) (code : Nat) (x : Exact) : Nat :=
  let f := fmtOf t
  if 14 < (bitLen x.m : Int) + x.e then
    (if x.neg then f.signBit false else overflowCode f .rne false)
  else if 0 ≤ x.e ∨ x.m % 2 ^ (-x.e).toNat = 0 then
    rne f (.fin ⟨false, 1, roundToInt .rtz 0 x⟩)
  else
    let n := roundToInt .rdn 0 x
    let frac := addExact x ⟨0 ≤ n, n.natAbs, 0⟩
    let ft := (roundToInt .rtz 0 ⟨false, frac.m, frac.e + exp2Bits⟩).toNat
    let lo := exp2Fraction ft
    let hi := lo + 2 ^ 36
    let rl := rne f (withSticky false lo (n - 352) true)
    let rh := rne f (withSticky false hi (n - 352) true)
    if rl = rh then rl else Config.exp2Rounded t code

/-- VEXP2 of one element (R270). -/
def exp2Code (t : Nat) (code : Nat) : Nat :=
  let f := fmtOf t
  match f.value code with
  | .nan => f.quietNan
  | .inf neg => if neg then f.signBit false else f.infCode false
  | .fin x => exp2Exact t code x

/-- Whether one number is less than another, with -0 equal to +0; a NaN is never less. -/
def Num.lt (x y : Num) : Bool :=
  match x, y with
  | .nan, _ => false
  | _, .nan => false
  | .inf a, .inf b => a && !b
  | .inf a, .fin _ => a
  | .fin _, .inf b => !b
  | .fin a, .fin b =>
    let e := min a.e b.e
    a.scaled e < b.scaled e

/-- Whether two numbers are equal, with -0 equal to +0; a NaN equals nothing. -/
def Num.eqv (x y : Num) : Bool :=
  match x, y with
  | .nan, _ => false
  | _, .nan => false
  | x, y => !x.lt y && !y.lt x

/-- Whether a number is a NaN. -/
def Num.isNan (x : Num) : Bool :=
  match x with
  | .nan => true
  | _ => false

/-- The code that minimumNumber (or maximumNumber) chooses: a NaN loses to a number, two NaNs give the canonical
quiet NaN, and -0 is less than +0 (R204). The bits of the chosen operand are unchanged (R296). -/
def minMaxNum (isMax : Bool) (t : Nat) (a b : Nat) : Nat :=
  let f := fmtOf t
  let x := f.value a
  let y := f.value b
  if x.isNan && y.isNan then f.quietNan
  else if x.isNan then b % 2 ^ f.width
  else if y.isNan then a % 2 ^ f.width
  else
    let aFirst := x.lt y || (x.eqv y && (x.sign || !y.sign))
    if aFirst != isMax then a % 2 ^ f.width else b % 2 ^ f.width

/-- An exact sum of numbers: the identity is -0 (R251). -/
def sumNum (xs : List Num) : Num := xs.foldl addNum (.fin ⟨true, 0, 0⟩)

/-- The next state of the stochastic-rounding generator (R246). -/
def nextQ (q : BitVec 32) : BitVec 32 :=
  let q := q ^^^ (q <<< 13)
  let q := q ^^^ (q >>> 17)
  q ^^^ (q <<< 5)

/-- The draw of a generator state (R246). -/
def drawOf (q : BitVec 32) : Nat := q.toNat % 65536

/-- The seed of a generator: zero is replaced by 1 (R246). -/
def seedQ (x : BitVec 32) : BitVec 32 := if x = 0 then 1 else x

/-- The value of a 4-bit code under a block type, in halves (R243). -/
def q4Halves (ty code : Nat) : Int :=
  match ty with
  | 0 => if code < 8 then 2 * code else 2 * (code : Int) - 32
  | 1 =>
    let ex := bits code 2 1
    let fr := bits code 0 0
    let m : Int := if ex = 0 then fr else (2 + fr) * 2 ^ (ex - 1)
    if nbit code 3 then -m else m
  | 2 =>
    let p := bits code 2 0
    let m : Int := if p = 0 then 0 else 2 ^ p
    if nbit code 3 then -m else m
  | _ =>
    match code with
    | 9 => -16
    | 10 => 24
    | 11 => -24
    | 12 => 32
    | 13 => -32
    | 14 => 48
    | 15 => -48
    | c => 2 * c

/-- The value of a q4 element under its scale byte (R242); a zero code stands for +0 (R243). -/
def q4Value (scaleByte code : Nat) : Num :=
  let h := q4Halves (bits scaleByte 7 6) code
  .fin ⟨h < 0, h.natAbs, (bits scaleByte 5 0 : Int) - 33⟩

end Sys2Proof.Machine
end

