-- ==== Sys2Proof/Machine/Flags.lean ====
section
/-!
DEFINITION. Conditions and predicates: the machine keeps no flags (R194, R203); a comparison writes a predicate of
32 bits whose lanes all agree (R197, R205) or one bit for each element (R260).
-/

namespace Sys2Proof.Machine

/-- The predicate that a scalar comparison writes (R197, R205). -/
def predOf (c : Bool) : Lane := if c then 0xFFFFFFFF else 0

/-- The condition of a CMP code on 64-bit patterns (R197). -/
def cmpHolds (code : Nat) (a b : Word) : Bool :=
  match code with
  | 0 => a == b
  | 1 => a != b
  | 2 => a.slt b
  | 3 => a.sle b
  | 4 => b.slt a
  | 5 => b.sle a
  | 6 => a.ult b
  | 7 => a.ule b
  | 8 => b.ult a
  | _ => b.ule a

/-- The condition of an FCMP code (R205): with a NaN operand only NE and UN hold. -/
def fcmpHolds (code : Nat) (x y : Num) : Bool :=
  match code with
  | 0 => x.eqv y
  | 1 => !x.eqv y
  | 2 => x.lt y
  | 3 => x.lt y || x.eqv y
  | 4 => y.lt x
  | 5 => y.lt x || x.eqv y
  | _ => x.isNan || y.isNan

/-- The condition of a VCMP code on two elements of a type (R260). -/
def elementHolds (t code : Nat) (a b : Nat) : Bool :=
  if scalarFp t then fcmpHolds code ((fmtOf t).value a) ((fmtOf t).value b)
  else
    let x := intOf t a
    let y := intOf t b
    match code with
    | 0 => x == y
    | 1 => x != y
    | 2 => x < y
    | 3 => x ≤ y
    | 4 => y < x
    | _ => y ≤ x

end Sys2Proof.Machine
end

