-- ==== Sys2Proof/Machine/Element.lean ====
section
/-!
DEFINITION. What is computed on single elements and on rows of elements: vector arithmetic (R257, R259), conversion
(R206, R262), reductions (R251, R269), special functions (R270), distances (R271), best-k lists (R272), atomic
operations (R295, R296) and the sums of the matrix arrays (R250). An element is the number of its bits.
-/

namespace Sys2Proof.Machine

/-- The two-operand and fused operations of R257. -/
inductive ElemOp where
  | add
  | sub
  | mul
  | fma
  | min
  | max
  | abs
  | neg
  | and
  | or
  | xor
  | shl
  | shr
  deriving DecidableEq, Repr

/-- An integer element operation, modulo 2^w (R257). -/
def intElement (op : ElemOp) (t : Nat) (a b c : Nat) : Nat :=
  let w := typeWidth t
  let x := intOf t a
  let y := intOf t b
  let n := b % w
  match op with
  | .add => lowBits w (x + y)
  | .sub => lowBits w (x - y)
  | .mul => lowBits w (x * y)
  | .fma => lowBits w (x * y + intOf t c)
  | .min => lowBits w (min x y)
  | .max => lowBits w (max x y)
  | .abs => lowBits w (if x < 0 then -x else x)
  | .neg => lowBits w (-x)
  | .and => (a &&& b) % 2 ^ w
  | .or => (a ||| b) % 2 ^ w
  | .xor => (a ^^^ b) % 2 ^ w
  | .shl => a * 2 ^ n % 2 ^ w
  | .shr => lowBits w (x / 2 ^ n)

/-- A floating-point element operation under RNE; the logic operations have no floating-point form (R257, R259). -/
def fpElement (op : ElemOp) (t : Nat) (a b c : Nat) : Nat :=
  let f := fmtOf t
  let x := f.value a
  let y := f.value b
  match op with
  | .add => rne f (addNum x y)
  | .sub => rne f (addNum x y.negate)
  | .mul => rne f (mulNum x y)
  | .fma => rne f (addNum (mulNum x y) (f.value c))
  | .min => minMaxNum false t a b
  | .max => minMaxNum true t a b
  | .abs => if x.isNan then f.quietNan else a % 2 ^ (f.width - 1)
  | .neg => if x.isNan then f.quietNan else (a ^^^ 2 ^ (f.width - 1)) % 2 ^ f.width
  | _ => a % 2 ^ f.width

/-- An element operation of R257 in its type. -/
def element (op : ElemOp) (t : Nat) (a b c : Nat) : Nat :=
  if intType t then intElement op t a b c else fpElement op t a b c

/-- A conversion of one element (R206, R262); `g` is the draw that stochastic rounding uses. -/
def convert (dst src : Nat) (mode : RMode) (sat : Bool) (g : Nat) (x : Nat) : Nat :=
  if fpType dst then
    roundNum (fmtOf dst) mode g sat (if fpType src then (fmtOf src).value x else exactOfInt (intOf src x))
  else if fpType src then lowBits (typeWidth dst) (numToInt dst mode g ((fmtOf src).value x))
  else if sat then lowBits (typeWidth dst) (clampInt dst (intOf src x))
  else lowBits (typeWidth dst) (intOf src x)

/-- Whether a conversion draws: under SR each active element draws once, whatever its value and the types (R246, R262). -/
def convertDraws (mode : RMode) : Bool := mode == .sr

/-- One level of the tree of R251 and the levels above it, at most `n`. -/
def treeLevels (f : Nat → Nat → Nat) : Nat → List Nat → List Nat
  | 0, xs => xs
  | n + 1, xs => treeLevels f n (pairUp xs)
where
  /-- Elements 2i and 2i + 1 combined. -/
  pairUp : List Nat → List Nat
    | a :: b :: rest => f a b :: pairUp rest
    | rest => rest

/-- The reductions of R269. -/
inductive RedOp where
  | sum
  | max
  | min
  deriving DecidableEq, Repr

/-- A floating-point reduction of a row whose inactive elements are none (R251, R269). -/
def fpReduce (op : RedOp) (t : Nat) (xs : List (Option Nat)) : Nat :=
  let f := fmtOf t
  let ident := match op with
    | .sum => f.signBit true
    | _ => f.quietNan
  let comb := match op with
    | .sum => fun a b => rne f (addNum (f.value a) (f.value b))
    | .max => minMaxNum true t
    | .min => minMaxNum false t
  (treeLevels comb 6 (xs.map fun x => x.getD ident)).headD ident

/-- An integer reduction as a 64-bit value (R269): an exact sum modulo 2^64, or the extended extreme element. -/
def intReduce (op : RedOp) (t : Nat) (xs : List (Option Nat)) : Nat :=
  let ys := xs.filterMap fun x => x.map (intOf t)
  match op with
  | .sum => lowBits 64 (ys.foldl (· + ·) 0)
  | .max => lowBits 64 (ys.foldl max (ys.headD 0))
  | .min => lowBits 64 (ys.foldl min (ys.headD 0))

/-- A special function of one element (R270). -/
inductive SpecialFn where
  | exp2
  | rcp
  | rsq
  deriving DecidableEq, Repr

/-- VEXP2, VRCP and VRSQ of one element (R270). -/
def special (fn : SpecialFn) (t : Nat) (a : Nat) : Nat :=
  let f := fmtOf t
  match fn with
  | .exp2 => exp2Code t a
  | .rcp => rne f (divNum (.fin ⟨false, 1, 0⟩) (f.value a))
  | .rsq => rne f (rsqrtNum (f.value a))

/-- The value of an element of any type but q4. -/
def elementNum (t : Nat) (a : Nat) : Num :=
  if fpType t then (fmtOf t).value a else exactOfInt (intOf t a)

/-- The magnitude of a number. -/
def Num.absolute (x : Num) : Num := if x.sign then x.negate else x

/-- One term of a distance (R271): metric 0 is L2, 1 is IP, 2 is L1. -/
def distanceTerm (metric t q s : Nat) : Num :=
  let x := elementNum t q
  let y := elementNum t s
  let d := addNum x y.negate
  match metric with
  | 0 => mulNum d d
  | 1 => mulNum x y
  | _ => d.absolute

/-- The new accumulator lane of a distance (R271): an exact sum, rounded or wrapped once. -/
def distance (metric t : Nat) (acc : Nat) (q seg : List Nat) : Nat :=
  let s := sumNum (List.zipWith (distanceTerm metric t) q seg)
  if intType t then
    match s with
    | .fin x => lowBits 32 (intOf 2 acc + roundToInt .rtz 0 x)
    | _ => acc
  else rne (fmtOf 10) (addNum ((fmtOf 10).value acc) s)

/-- An entry of a best-k list (R272): key, identifier, whether it is a candidate, and its lane. -/
structure TopEntry where
  key  : Nat
  id   : Nat
  cand : Bool
  lane : Nat
  deriving DecidableEq, Repr

/-- The order of keys under ASC or DESC (R272): for f32 -0 is less than +0 and a NaN ranks last. -/
def keyBefore (t : Nat) (desc : Bool) (a b : Nat) : Bool :=
  if t = 10 then
    let x := (fmtOf 10).value a
    let y := (fmtOf 10).value b
    if x.isNan then false
    else if y.isNan then true
    else
      let less := x.lt y || (x.eqv y && x.sign && !y.sign)
      let more := y.lt x || (x.eqv y && y.sign && !x.sign)
      if desc then more else less
  else if desc then intOf t b < intOf t a
  else intOf t a < intOf t b

/-- The order of a best-k list: key, then identifier, then list entries before candidates, then lane (R272). -/
def topBefore (t : Nat) (desc : Bool) (a b : TopEntry) : Bool :=
  if keyBefore t desc a.key b.key then true
  else if keyBefore t desc b.key a.key then false
  else if a.id != b.id then a.id < b.id
  else if a.cand != b.cand then b.cand
  else a.lane < b.lane

/-- An entry put into its place in an ordered list. -/
def topInsert (t : Nat) (desc : Bool) (x : TopEntry) : List TopEntry → List TopEntry
  | [] => [x]
  | y :: ys => if topBefore t desc y x then y :: topInsert t desc x ys else x :: y :: ys

/-- The first `k` of the entries in the order of R272. -/
def topSelect (t : Nat) (desc : Bool) (k : Nat) (xs : List TopEntry) : List TopEntry :=
  (xs.foldr (topInsert t desc) []).take k

/-- The new value of an atomic operation on `n` bytes (R295, R296): `e` is the expected value of CAS. -/
def atomicNew (op n old b e : Nat) : Nat :=
  let w := 8 * n
  let ti := if n = 4 then 2 else 3
  let tu := if n = 4 then 6 else 7
  let tf := if n = 4 then 10 else 11
  let x := old % 2 ^ w
  let y := b % 2 ^ w
  match op with
  | 0 => (x + y) % 2 ^ w
  | 1 => (x + 2 ^ w - y) % 2 ^ w
  | 2 => x &&& y
  | 3 => x ||| y
  | 4 => x ^^^ y
  | 5 => intElement .min ti x y 0
  | 6 => intElement .max ti x y 0
  | 7 => intElement .min tu x y 0
  | 8 => intElement .max tu x y 0
  | 9 => fpElement .add tf x y 0
  | 10 => fpElement .min tf x y 0
  | 11 => fpElement .max tf x y 0
  | 12 => y
  | 13 => if x = e % 2 ^ w then y else x
  | _ => x

/-- Whether an operation is one that PCIe AtomicOps carry: ADD, SUB, SWAP or CAS (R94). -/
def pcieAtomic (op : Nat) : Bool := op == 0 || op == 1 || op == 12 || op == 13

/-- The identity that a cluster's partial of a RED operation starts from (R84): the operation's neutral value. -/
def reduceIdentity (op n : Nat) : Nat :=
  let w := 8 * n
  match op with
  | 2 => 2 ^ w - 1
  | 5 => 2 ^ (w - 1) - 1
  | 6 => 2 ^ (w - 1)
  | 7 => 2 ^ w - 1
  | 9 => 2 ^ (w - 1)
  | 10 => (fmtOf (if n = 4 then 10 else 11)).quietNan
  | 11 => (fmtOf (if n = 4 then 10 else 11)).quietNan
  | _ => 0

/-- A bf16 input of an array: a subnormal is zero with its sign (R248, R252). -/
def flushBf16 (code : Nat) : Nat := if bits code 14 7 = 0 then code / 2 ^ 15 % 2 * 2 ^ 15 else code

/-- The K indices that one array cycle takes (R250, R252). -/
def cyclesP (t : Nat) : Nat :=
  match typeWidth t with
  | 4 => 32
  | 8 => 16
  | 16 => 8
  | 32 => 2
  | _ => 1

/-- A row of numbers cut into runs of `n`. -/
def chunksOf (n : Nat) : Nat → List Num → List (List Num)
  | 0, _ => []
  | fuel + 1, xs => if xs.isEmpty then [] else xs.take n :: chunksOf n fuel (xs.drop n)

/-- The accumulation of R250 in a floating-point format: one exact sum and one rounding each cycle, so that eight products of 2^−25
on an accumulator of 1.0 give 1 + 2^−22 and never 1.0 (R252). -/
def accumulate (f : Fmt) (p : Nat) (acc : Nat) (products : List Num) : Nat :=
  (chunksOf p products.length products).foldl (fun c xs => rne f (addNum (f.value c) (sumNum xs))) acc

/-- Whether an accumulator element is nonzero and below the smallest normal value, which raises the assist (R249). -/
def isSubnormal (f : Fmt) (code : Nat) : Bool :=
  let c := code % 2 ^ (f.width - 1)
  0 < c && c < 2 ^ f.fbits

end Sys2Proof.Machine
end

