-- ==== Sys2Proof/WellFormed.lean ====
section
/-!
DEFINITION. The well-formed instructions: those whose word is a legal instruction under the decode fates of R191.
The rules themselves, row by row, are in Machine/Legal.lean.
-/

namespace Sys2Proof

/-- An instruction that has a legal word (R191), or a step of another agent. -/
def Instr.wellFormed (i : Instr) : Bool := legal i

end Sys2Proof
end

