-- ==== Sys2Proof/Decode.lean ====
section
/-!
DEFINITION. The decoder and the encoder, both from the formats of R167, R170 and R171 and the opcode map of R187
to R190. The decoder is total on the 96-bit words of a slot (R161) and rejects by name every word that is not a
legal instruction (R191).
-/

namespace Sys2Proof

/-- Why a word is no instruction (R191). -/
inductive DecodeError where
  /-- A reserved opcode of R187 to R190. -/
  | reservedOpcode
  /-- A field that breaks a rule of R191: a reserved bit, a reserved MOD value, a register beyond its file, a
  guard of GN = 1 with GP = 0, an operation that a pair does not take. -/
  | illegalField
  /-- Bytes that do not make up a slot of 12 bytes. -/
  | notASlot
  deriving DecidableEq, Repr

/-- The outcome of decoding. -/
inductive Decoded where
  | instr (i : Instr)
  | reject (e : DecodeError)
  deriving DecidableEq, Repr

/-- OPC, word bits 95 to 88 (R167). -/
def opcodeOf (w : BitVec 96) : Nat := (w.extractLsb' 88 8).toNat

/-- The guard, word bits 87 to 84 (R167). -/
def guardOf (w : BitVec 96) : Guard := ⟨w.getLsbD 87, w.extractLsb' 84 3⟩

/-- The fields of the R format (R167). -/
def unpackR (w : BitVec 96) : Ops :=
  { g := guardOf w, dst := w.extractLsb' 78 6, sa := w.extractLsb' 72 6, sb := w.extractLsb' 66 6,
    sc := w.extractLsb' 60 6, md := w.extractLsb' 48 12, imm := w.extractLsb' 0 48 }

/-- The fields of a pair (R171). -/
def unpackPair (w : BitVec 96) : PairOps :=
  { g := guardOf w, sop := w.extractLsb' 78 6, sdst := w.extractLsb' 72 6, ssa := w.extractLsb' 66 6,
    ssb := w.extractLsb' 60 6, si := w.getLsbD 59, simm := w.extractLsb' 44 15, vop := w.extractLsb' 38 6,
    vdst := w.extractLsb' 32 6, vsa := w.extractLsb' 26 6, vsb := w.extractLsb' 20 6, vsc := w.extractLsb' 14 6,
    vtype := w.extractLsb' 10 4 }

/-- Class 00, scalar and system (R187), but for MOVI. -/
def scalarRow (opc : Nat) (o : Ops) : Option Instr :=
  match opc with
  | 0x01 => some (.add o)
  | 0x02 => some (.sub o)
  | 0x03 => some (.mul o)
  | 0x04 => some (.mulh o)
  | 0x05 => some (.div o)
  | 0x06 => some (.rem o)
  | 0x07 => some (.and o)
  | 0x08 => some (.or o)
  | 0x09 => some (.xor o)
  | 0x0A => some (.andn o)
  | 0x0B => some (.shl o)
  | 0x0C => some (.shr o)
  | 0x0D => some (.sra o)
  | 0x0E => some (.rot o)
  | 0x0F => some (.clz o)
  | 0x10 => some (.ctz o)
  | 0x11 => some (.popc o)
  | 0x12 => some (.min o)
  | 0x13 => some (.max o)
  | 0x14 => some (.minz o)
  | 0x15 => some (.maxz o)
  | 0x16 => some (.cmp o)
  | 0x17 => some (.sel o)
  | 0x19 => some (.lea o)
  | 0x1A => some (.bfx o)
  | 0x1B => some (.bfi o)
  | 0x1C => some (.nop o)
  | 0x20 => some (.fadd o)
  | 0x21 => some (.fsub o)
  | 0x22 => some (.fmul o)
  | 0x23 => some (.ffma o)
  | 0x24 => some (.fdiv o)
  | 0x25 => some (.fsqrt o)
  | 0x26 => some (.fmin o)
  | 0x27 => some (.fmax o)
  | 0x28 => some (.fcmp o)
  | 0x29 => some (.fcvt o)
  | 0x2A => some (.fmov o)
  | 0x2C => some (.br o)
  | 0x2D => some (.j o)
  | 0x2E => some (.jr o)
  | 0x2F => some (if o.modBit 58 then .callReg o else .call o)
  | 0x30 => some (.ret o)
  | 0x31 => some (.loop o)
  | 0x32 => some (.wait o)
  | 0x33 => some (.chunk o)
  | 0x34 => some (if o.modBit 58 then .suspMsg o else .susp o)
  | 0x35 => some (.done o)
  | 0x36 => some (.yield o)
  | 0x37 => some (.trap o)
  | 0x38 => some (.krd o)
  | 0x39 => some (.kwr o)
  | 0x3A => some (.eret o)
  | 0x3B => some (.invp o)
  | 0x3C => some (.halt o)
  | _ => none

/-- Class 01, vector (R188). -/
def vectorRow (opc : Nat) (o : Ops) : Option Instr :=
  match opc with
  | 0x40 => some (.vadd o)
  | 0x41 => some (.vsub o)
  | 0x42 => some (.vmul o)
  | 0x43 => some (.vfma o)
  | 0x44 => some (.vmin o)
  | 0x45 => some (.vmax o)
  | 0x46 => some (.vabs o)
  | 0x47 => some (.vneg o)
  | 0x48 => some (.vand o)
  | 0x49 => some (.vor o)
  | 0x4A => some (.vxor o)
  | 0x4B => some (.vshl o)
  | 0x4C => some (.vshr o)
  | 0x4D => some (.vcmp o)
  | 0x4E => some (.vsel o)
  | 0x4F => some (.vcvt o)
  | 0x50 => some (.vld o)
  | 0x51 => some (.vst o)
  | 0x52 => some (.vgath o)
  | 0x53 => some (.vscat o)
  | 0x54 => some (.vbcast o)
  | 0x55 => some (.vperm o)
  | 0x56 => some (.vredsum o)
  | 0x57 => some (.vredmax o)
  | 0x58 => some (.vredmin o)
  | 0x59 => some (.vexp2 o)
  | 0x5A => some (.vrcp o)
  | 0x5B => some (.vrsq o)
  | 0x5C => some (.vmovs o)
  | 0x5D => some (.vdist o)
  | 0x5E => some (.vtopk o)
  | _ => none

/-- Class 11, engine and memory (R190). -/
def engineRow (opc : Nat) (o : Ops) : Option Instr :=
  match opc with
  | 0xC0 => some (if o.modBits 55 54 != 0 then .ldAcqSy o else .ld o)
  | 0xC1 => some (if o.modBits 55 54 != 0 then .stRelSy o else .st o)
  | 0xC2 => some (.lds o)
  | 0xC3 => some (.chkw o)
  | 0xC4 => some (.wclr o)
  | 0xC5 => some (if o.modBit 54 then .ldlDrop o else .ldl o)
  | 0xC6 => some (.pf o)
  | 0xC7 => some (.res o)
  | 0xC8 => some (.spmap o)
  | 0xC9 => some (.spunmap o)
  | 0xCA => some (.spflush o)
  | 0xCB => some (if o.modBit 58 then .fenceSy o else .fence o)
  | 0xCC => some (.lease o)
  | 0xCD => some (.unlease o)
  | 0xCE => some (.slotClm o)
  | 0xCF => some (.slotRel o)
  | 0xD0 => some (.cpyIn o)
  | 0xD1 => some (.cpyOut o)
  | 0xD2 => some (.cpyM o)
  | 0xD3 => some (.cpyNv o)
  | 0xD4 => some (.mmaDd o)
  | 0xD5 => some (.mmaSs o)
  | 0xD6 => some (.mmaBb o)
  | 0xD7 => some (.mmaHh o)
  | 0xD8 => some (.mmaEe o)
  | 0xD9 => some (.mmaEf o)
  | 0xDA => some (.mmaFf o)
  | 0xDB => some (.mmaQq o)
  | 0xDC => some (.mmaQe o)
  | 0xDD => some (.mmaIi o)
  | 0xDE => some (.mmv o)
  | 0xDF => some (.accZero o)
  | 0xE0 => some (.accRd o)
  | 0xE1 => some (.amo o)
  | 0xE2 => some (.red o)
  | 0xE3 => some (.send o)
  | 0xE4 => some (.sendm o)
  | 0xE5 => some (.sendNx o)
  | 0xE6 => some (.hset o)
  | 0xE7 => some (.hmask o)
  | 0xE8 => some (.hunmask o)
  | 0xE9 => some (.jinit o)
  | 0xEA => some (.jarr o)
  | 0xEB => some (.qopen o)
  | 0xEC => some (.qwait o)
  | 0xED => some (.cbegin o)
  | 0xEE => some (.stc o)
  | 0xEF => some (.lay o)
  | 0xF0 => some (.abandon o)
  | 0xF1 => some (.cstat o)
  | 0xF2 => some (.exdef o)
  | 0xF3 => some (.exrt o)
  | 0xF4 => some (.exload o)
  | 0xF5 => some (.exgrow o)
  | 0xF6 => some (.exretire o)
  | 0xF7 => some (if o.modBit 59 then .exjoinHand o else .exjoinContrib o)
  | 0xF8 => some (.exupd o)
  | 0xF9 => some (.exspill o)
  | _ => none

/-- The row of the opcode map that a word's opcode, and the MOD bit that tells two rows of one opcode apart, name
(R187 to R190). MOVI's reserved bits 77 to 64 and a pair's bits 9 to 0 must be zero (R170, R171). -/
def rowOf (w : BitVec 96) : Option Instr :=
  let opc := opcodeOf w
  if opc = 0x18 then
    if w.extractLsb' 64 14 = 0 then some (.movi (guardOf w) (w.extractLsb' 78 6) (w.extractLsb' 0 64)) else none
  else if opc = 0x80 then
    if w.extractLsb' 0 10 = 0 then some (.pair (unpackPair w)) else none
  else if opc < 0x40 then scalarRow opc (unpackR w)
  else if opc < 0x80 then vectorRow opc (unpackR w)
  else if opc < 0xC0 then none
  else engineRow opc (unpackR w)

/-- The instruction of a word, or the reason that it is none (R191). -/
def decode (w : BitVec 96) : Decoded :=
  match rowOf w with
  | none => .reject (if opcodeOf w = 0x18 ∨ opcodeOf w = 0x80 then .illegalField else .reservedOpcode)
  | some i => if i.wellFormed then .instr i else .reject .illegalField

/-- A number from bytes, the lowest byte first (R5). -/
def fromBytes : List Byte → Nat
  | [] => 0
  | b :: bs => b.toNat + 256 * fromBytes bs

/-- The `n` bytes of a number, the lowest first (R5). -/
def toBytes : Nat → Nat → List Byte
  | 0, _ => []
  | n + 1, x => BitVec.ofNat 8 x :: toBytes n (x / 256)

/-- The instruction of the first slot of any bytes, and the bytes after it (R161). -/
def decodeBytes (bs : List Byte) : Decoded × List Byte :=
  if bs.length < 12 then (.reject .notASlot, bs)
  else (decode (BitVec.ofNat 96 (fromBytes (bs.take 12))), bs.drop 12)

/-- The guard as four bits (R167). -/
def packGuard (g : Guard) : BitVec 4 := BitVec.ofBool g.neg ++ g.p

/-- A word of the R format (R167). -/
def packR (opc : BitVec 8) (o : Ops) : BitVec 96 :=
  opc ++ packGuard o.g ++ o.dst ++ o.sa ++ o.sb ++ o.sc ++ o.md ++ o.imm

/-- A word of the M format (R170). -/
def packM (g : Guard) (dst : BitVec 6) (imm : Word) : BitVec 96 :=
  (0x18 : BitVec 8) ++ packGuard g ++ dst ++ (0 : BitVec 14) ++ imm

/-- The word of a pair (R171). -/
def packPair (p : PairOps) : BitVec 96 :=
  (0x80 : BitVec 8) ++ packGuard p.g ++ p.sop ++ p.sdst ++ p.ssa ++ p.ssb ++ BitVec.ofBool p.si ++ p.simm ++
    p.vop ++ p.vdst ++ p.vsa ++ p.vsb ++ p.vsc ++ p.vtype ++ (0 : BitVec 10)

/-- The word of an instruction; the steps of the other agents have none. -/
def encode (i : Instr) : Option (BitVec 96) :=
  match i with
  | .add o => some (packR 0x01 o)
  | .sub o => some (packR 0x02 o)
  | .mul o => some (packR 0x03 o)
  | .mulh o => some (packR 0x04 o)
  | .div o => some (packR 0x05 o)
  | .rem o => some (packR 0x06 o)
  | .and o => some (packR 0x07 o)
  | .or o => some (packR 0x08 o)
  | .xor o => some (packR 0x09 o)
  | .andn o => some (packR 0x0A o)
  | .shl o => some (packR 0x0B o)
  | .shr o => some (packR 0x0C o)
  | .sra o => some (packR 0x0D o)
  | .rot o => some (packR 0x0E o)
  | .clz o => some (packR 0x0F o)
  | .ctz o => some (packR 0x10 o)
  | .popc o => some (packR 0x11 o)
  | .min o => some (packR 0x12 o)
  | .max o => some (packR 0x13 o)
  | .minz o => some (packR 0x14 o)
  | .maxz o => some (packR 0x15 o)
  | .cmp o => some (packR 0x16 o)
  | .sel o => some (packR 0x17 o)
  | .movi g dst imm => some (packM g dst imm)
  | .lea o => some (packR 0x19 o)
  | .bfx o => some (packR 0x1A o)
  | .bfi o => some (packR 0x1B o)
  | .nop o => some (packR 0x1C o)
  | .fadd o => some (packR 0x20 o)
  | .fsub o => some (packR 0x21 o)
  | .fmul o => some (packR 0x22 o)
  | .ffma o => some (packR 0x23 o)
  | .fdiv o => some (packR 0x24 o)
  | .fsqrt o => some (packR 0x25 o)
  | .fmin o => some (packR 0x26 o)
  | .fmax o => some (packR 0x27 o)
  | .fcmp o => some (packR 0x28 o)
  | .fcvt o => some (packR 0x29 o)
  | .fmov o => some (packR 0x2A o)
  | .br o => some (packR 0x2C o)
  | .j o => some (packR 0x2D o)
  | .jr o => some (packR 0x2E o)
  | .call o => some (packR 0x2F o)
  | .callReg o => some (packR 0x2F o)
  | .ret o => some (packR 0x30 o)
  | .loop o => some (packR 0x31 o)
  | .wait o => some (packR 0x32 o)
  | .chunk o => some (packR 0x33 o)
  | .susp o => some (packR 0x34 o)
  | .suspMsg o => some (packR 0x34 o)
  | .done o => some (packR 0x35 o)
  | .yield o => some (packR 0x36 o)
  | .yieldExpiry _ => none
  | .trap o => some (packR 0x37 o)
  | .krd o => some (packR 0x38 o)
  | .kwr o => some (packR 0x39 o)
  | .eret o => some (packR 0x3A o)
  | .invp o => some (packR 0x3B o)
  | .invpCompletion _ => none
  | .halt o => some (packR 0x3C o)
  | .haltRelease _ _ => none
  | .pair p => some (packPair p)
  | .vadd o => some (packR 0x40 o)
  | .vsub o => some (packR 0x41 o)
  | .vmul o => some (packR 0x42 o)
  | .vfma o => some (packR 0x43 o)
  | .vmin o => some (packR 0x44 o)
  | .vmax o => some (packR 0x45 o)
  | .vabs o => some (packR 0x46 o)
  | .vneg o => some (packR 0x47 o)
  | .vand o => some (packR 0x48 o)
  | .vor o => some (packR 0x49 o)
  | .vxor o => some (packR 0x4A o)
  | .vshl o => some (packR 0x4B o)
  | .vshr o => some (packR 0x4C o)
  | .vcmp o => some (packR 0x4D o)
  | .vsel o => some (packR 0x4E o)
  | .vcvt o => some (packR 0x4F o)
  | .vld o => some (packR 0x50 o)
  | .vst o => some (packR 0x51 o)
  | .vgath o => some (packR 0x52 o)
  | .vscat o => some (packR 0x53 o)
  | .vbcast o => some (packR 0x54 o)
  | .vperm o => some (packR 0x55 o)
  | .vredsum o => some (packR 0x56 o)
  | .vredmax o => some (packR 0x57 o)
  | .vredmin o => some (packR 0x58 o)
  | .vexp2 o => some (packR 0x59 o)
  | .vrcp o => some (packR 0x5A o)
  | .vrsq o => some (packR 0x5B o)
  | .vmovs o => some (packR 0x5C o)
  | .vdist o => some (packR 0x5D o)
  | .vtopk o => some (packR 0x5E o)
  | .ld o => some (packR 0xC0 o)
  | .ldAcqSy o => some (packR 0xC0 o)
  | .st o => some (packR 0xC1 o)
  | .stRelSy o => some (packR 0xC1 o)
  | .lds o => some (packR 0xC2 o)
  | .chkw o => some (packR 0xC3 o)
  | .wclr o => some (packR 0xC4 o)
  | .ldl o => some (packR 0xC5 o)
  | .ldlDrop o => some (packR 0xC5 o)
  | .pf o => some (packR 0xC6 o)
  | .res o => some (packR 0xC7 o)
  | .spmap o => some (packR 0xC8 o)
  | .spunmap o => some (packR 0xC9 o)
  | .spflush o => some (packR 0xCA o)
  | .fence o => some (packR 0xCB o)
  | .fenceSy o => some (packR 0xCB o)
  | .lease o => some (packR 0xCC o)
  | .unlease o => some (packR 0xCD o)
  | .slotClm o => some (packR 0xCE o)
  | .slotRel o => some (packR 0xCF o)
  | .cpyIn o => some (packR 0xD0 o)
  | .cpyOut o => some (packR 0xD1 o)
  | .cpyM o => some (packR 0xD2 o)
  | .cpyNv o => some (packR 0xD3 o)
  | .mmaDd o => some (packR 0xD4 o)
  | .mmaSs o => some (packR 0xD5 o)
  | .mmaBb o => some (packR 0xD6 o)
  | .mmaHh o => some (packR 0xD7 o)
  | .mmaEe o => some (packR 0xD8 o)
  | .mmaEf o => some (packR 0xD9 o)
  | .mmaFf o => some (packR 0xDA o)
  | .mmaQq o => some (packR 0xDB o)
  | .mmaQe o => some (packR 0xDC o)
  | .mmaIi o => some (packR 0xDD o)
  | .mmv o => some (packR 0xDE o)
  | .accZero o => some (packR 0xDF o)
  | .accRd o => some (packR 0xE0 o)
  | .amo o => some (packR 0xE1 o)
  | .red o => some (packR 0xE2 o)
  | .send o => some (packR 0xE3 o)
  | .sendm o => some (packR 0xE4 o)
  | .sendNx o => some (packR 0xE5 o)
  | .hset o => some (packR 0xE6 o)
  | .hmask o => some (packR 0xE7 o)
  | .hunmask o => some (packR 0xE8 o)
  | .jinit o => some (packR 0xE9 o)
  | .jarr o => some (packR 0xEA o)
  | .qopen o => some (packR 0xEB o)
  | .qwait o => some (packR 0xEC o)
  | .cbegin o => some (packR 0xED o)
  | .stc o => some (packR 0xEE o)
  | .lay o => some (packR 0xEF o)
  | .abandon o => some (packR 0xF0 o)
  | .cstat o => some (packR 0xF1 o)
  | .exdef o => some (packR 0xF2 o)
  | .exrt o => some (packR 0xF3 o)
  | .exload o => some (packR 0xF4 o)
  | .exgrow o => some (packR 0xF5 o)
  | .exretire o => some (packR 0xF6 o)
  | .exjoinContrib o => some (packR 0xF7 o)
  | .exjoinHand o => some (packR 0xF7 o)
  | .exupd o => some (packR 0xF8 o)
  | .exspill o => some (packR 0xF9 o)
  | .instructionLimitChunkEnd _ => none
  | .commitPoint _ => none
  | .soleCommitTokenGrant _ => none
  | .loadDataReturn _ _ => none
  | .storeAcknowledgement _ _ => none
  | .translationMiss _ _ _ _ => none
  | .mtuResume _ _ _ => none
  | .mtuKill _ _ _ => none
  | .counterHalving _ _ => none
  | .cdump _ _ _ => none
  | .counterDumpDone _ _ => none
  | .pageMove _ _ _ _ => none
  | .moveFinalPass _ _ => none
  | .homeReadRequest _ => none
  | .homeOwnershipRequest _ => none
  | .homeWriteBack _ => none
  | .recallAnswer _ => none
  | .invalidationArrival _ => none
  | .recallArrival _ => none
  | .fillAnswer _ => none
  | .confirmRequest _ => none
  | .confirmAnswer _ => none
  | .combineRequest _ => none
  | .combinePartialArrival _ => none
  | .windowWriteBack _ => none
  | .hostSnpdata _ _ => none
  | .hostSnpinv _ _ => none
  | .hostSnpcur _ _ => none
  | .hostCxlMemRead _ _ _ _ => none
  | .hostCxlMemWrite _ _ _ => none
  | .backInvalidationAnswer _ _ _ => none
  | .cxlCacheGrant _ _ _ _ => none
  | .messageArrival _ => none
  | .handlerSelection _ => none
  | .brickMessageArrival _ => none
  | .quiescenceWave => none
  | .doorbell _ _ _ => none
  | .hquSubmitMessage _ => none
  | .quantumRemap _ => none
  | .admission _ _ => none
  | .launchDispatch _ => none
  | .graphAdmission _ _ => none
  | .graphNodeComplete _ _ _ => none
  | .msixCoalesceExpiry _ _ => none
  | .watchEntryWrite _ _ _ _ => none
  | .leaseGrant _ => none
  | .leaseTermExpiry _ => none
  | .tileTaskIssue _ => none
  | .tileTaskComplete _ => none
  | .subnormalAssist _ => none
  | .copyCommandStart _ => none
  | .copyCommandComplete _ _ => none
  | .nvmeCompletionEntry _ _ _ _ => none
  | .nvmeTimeout _ _ _ => none
  | .nvmeControllerWrite _ _ _ => none
  | .nvmeQueueEntryWrite _ _ _ _ => none
  | .stcStagingArrival _ _ => none
  | .coursePrepare _ _ _ => none
  | .courseReadyReport _ _ _ _ => none
  | .courseTimeout _ _ => none
  | .courseDecision _ _ _ => none
  | .courseDecisionAck _ _ _ => none
  | .scoringRequest _ => none
  | .tokenArrival _ => none
  | .loadWindowEnd _ => none
  | .replicaCopyComplete _ _ => none
  | .contributionArrival _ _ => none
  | .exupdCourseStatus _ _ => none
  | .combineContribution _ => none
  | .combineRecordRecheck _ _ => none
  | .mergeContribution _ => none
  | .trapEntry _ => none
  | .preemption _ _ => none
  | .spillComplete _ => none
  | .launchResume _ _ => none
  | .packageDeclaredDown _ => none
  | .gixisFlitReceive _ _ _ => none
  | .gixisReplayRequest _ _ _ => none
  | .linkRetrain _ _ _ _ _ _ _ _ => none
  | .linkRetrainTimeout _ _ => none
  | .e2eAckArrival _ _ _ _ => none
  | .e2eAckTimer _ => none
  | .e2eResendRequest _ _ _ _ => none
  | .tunnelDatagramReceive _ _ _ => none
  | .tunnelRetransmitTimeout _ _ _ => none
  | .secondTierLinkDown _ _ => none
  | .powerEpoch _ => none
  | .ageingRefresh _ _ => none
  | .firmwareVerify _ _ _ => none
  | .attestationRequest _ _ => none
  | .bringUpLevel _ _ => none
  | .registerWrite _ _ _ _ => none
  | .faultRingWrite _ _ _ _ => none
  | .candidateRingWrite _ _ _ _ => none
  | .tunnelRouteEntryWrite _ _ _ _ => none
  | .accumulatorLastElementRead _ _ => none
  | .secondTierLinkUp _ _ _ => none

/-- The instruction that the decoder reads from a slot whose bits are `w`: the bytes of `w`, the lowest first,
laid out as the hardware stores them, with zeros above `nbits`. -/
def decodeTableWord (nbits w : Nat) : Option Instr :=
  match (decodeBytes (toBytes 12 (w % 2 ^ nbits))).1 with
  | .instr i => some i
  | .reject _ => none

end Sys2Proof
end

