-- ==== Sys2Proof/Machine/Table.lean ====
section
/-!
DEFINITION. Finite tables by number: a list of keys and values in rising order of the keys, with no entry equal to
what an unlisted key reads as. Memory is such a table of bytes.
-/

namespace Sys2Proof.Machine

/-- A table of values by number. -/
abbrev Tab (α : Type) := List (Nat × α)

/-- The value at a key, `d` where none is listed. -/
def tget {α : Type} (d : α) : Tab α → Nat → α
  | [], _ => d
  | (k, v) :: rest, a => if k = a then v else tget d rest a

/-- A table without a key. -/
def terase {α : Type} (t : Tab α) (a : Nat) : Tab α := t.filter fun e => e.1 != a

/-- An entry put before the first greater key. -/
def tinsert {α : Type} (a : Nat) (v : α) : Tab α → Tab α
  | [] => [(a, v)]
  | (k, w) :: rest => if a < k then (a, v) :: (k, w) :: rest else (k, w) :: tinsert a v rest

/-- A value written at a key: writing `d` removes the entry. -/
def tset {α : Type} [DecidableEq α] (d : α) (t : Tab α) (a : Nat) (v : α) : Tab α :=
  if v = d then terase t a else tinsert a v (terase t a)

/-- The value at a key, none where none is listed. -/
def tget? {α : Type} : Tab α → Nat → Option α
  | [], _ => none
  | (k, v) :: rest, a => if k = a then some v else tget? rest a

/-- A value kept at a key, whatever it is. -/
def tput {α : Type} (t : Tab α) (a : Nat) (v : α) : Tab α := tinsert a v (terase t a)

/-- Keys strictly rising, and no value equal to `d`: the canonical form. -/
def tcanon {α : Type} [DecidableEq α] (d : α) : Tab α → Bool
  | [] => true
  | (k, v) :: rest => v != d && rest.all (fun e => k < e.1) && tcanon d rest

/-- The numbers from `a` up, `n` of them. -/
def rangeFrom (a n : Nat) : List Nat := (List.range n).map (a + ·)

/-- The first element of a list that meets a test is replaced. -/
def updateFirst {α : Type} (p : α → Bool) (f : α → α) : List α → List α
  | [] => []
  | x :: xs => if p x then f x :: xs else x :: updateFirst p f xs

end Sys2Proof.Machine
end

