-- ==== Sys2Proof/Machine/State.lean ====
section
/-!
DEFINITION. The state of the machine: a Gixis domain of Onaset packages, as plain data. Numbers that name agents
are physical: a core is ((package * 8 + die) * 18 + cluster) * 16 + core, a bank of a core is core * 2 + bank, a
strand is bank * 4 + strand; a cluster is core / 16, a die is cluster / 18, a package is die / 8. Every register
that the spec gives no reset value is 0 at reset (log 2, DESIGN CHOICE).
-/

namespace Sys2Proof.Machine

/-- Why the machine stops with a fault. Every one is raised only for a number that names no agent of a domain of
1,024 packages (R1, R8): safe, since no such agent exists. -/
inductive Fault where
  /-- An instruction on a strand beyond the last strand of the domain; raised by every instruction: safe. -/
  | noSuchStrand
  /-- A step of an agent of a package, die, cluster, core or unit beyond the last one; raised by the steps of the
  other agents: safe. -/
  | noSuchAgent
  deriving DecidableEq, Repr

/-- Why a step has no meaning in the model. -/
inductive Refusal where
  /-- Raised only by an arm of `exec` whose instruction is not modelled yet: safe. -/
  | notModelled (mnemonic : String)
  deriving DecidableEq, Repr

/-- The byte-addressed memories, in one canonical form: the fabric physical memory of the domain (R8, R9), and above
it the pools, operand slots and accumulators, which have no physical address (log 8). -/
abbrev Memory := List Host.Cell

/-- Registers of a strand (R174): s, f and p by number, lane i of v[r] at 32 * r + i. An unlisted one reads 0. -/
structure Regs where
  s : Tab Word := []
  f : Tab Word := []
  p : Tab Lane := []
  v : Tab Lane := []
  deriving DecidableEq, Repr

/-- One of the four counters of outstanding work (R177). -/
inductive Counter where
  | ld
  | st
  | cp
  | tl
  deriving DecidableEq, Repr

/-- What the completion of an operation writes. -/
inductive Fin where
  | none
  /-- A load into an s or f register: bytes, sign extension (R225). -/
  | scalar (isF : Bool) (reg n : Nat) (sx : Bool)
  /-- A vector load or gather: type and the active elements in order (R263, R264). -/
  | vector (reg type : Nat) (active : List Nat)
  /-- VDIST: metric, type, query elements and the active lanes (R271). -/
  | dist (reg metric type : Nat) (query : List Nat) (active : List Nat)
  /-- AMO: bytes, operation, operand, expected value, storage address (R297). -/
  | amo (reg n op b e : Nat) (cls : Nat)
  /-- JARR (R304). -/
  | jarr (reg : Nat)
  /-- An answer of an agent: the value, once it is known (R308, R310, R312, R338). -/
  | answer (reg : Nat) (value : Option Word)
  /-- EXRT whose request is on its way to the serving directory: the expert's name and the descriptor word (R338). -/
  | expert (reg name word : Nat)
  deriving DecidableEq, Repr

/-- A write of a chunk's version (R98): the storage address of each byte, the bytes of a store, or the operation,
operand and expected value of an atomic, whose read and write come together at apply (R106, R297). Operation 16 is
JARR's arrival (R304). A store that waits for its translation has no addresses yet. -/
structure VWrite where
  locs : List Nat := []
  data : List Byte := []
  new  : Option (Nat × Nat × Nat) := none
  deriving DecidableEq, Repr

/-- An operation counted on a counter (R177): its number on the strand, the chunk it belongs to, whether it has
completed, its pc, the address and the storage addresses of each element, the earlier writes of its strand that it
must see (R98), the bytes read so far, the words still awaited with the binding under which the fill of each window word was asked
for (R51), the words that are dead once it completes, and whether those of them in M stay until the drop of its chunk (R231). -/
structure OutOp where
  counter : Counter
  seq     : Nat := 0
  chunk   : Nat
  done    : Bool := false
  fin     : Fin := .none
  pc      : Word := 0
  vas     : List Nat := []
  locs    : List (List Nat) := []
  earlier    : List VWrite := []
  buf     : Tab Byte := []
  need    : List Nat := []
  binds   : Tab Nat := []
  mark    : List Nat := []
  drop    : Bool := false
  acquire : Bool := false
  detached : Bool := false
  deriving DecidableEq, Repr

/-- A pending mark of a register (R179): s 0 to 31, f 32 to 47, p 64 to 71, v 128 to 191, and the number of the
operation on ld. -/
structure PendMark where
  reg : Nat
  seq : Nat
  deriving DecidableEq, Repr

/-- The state of a watch entry that is in use (R109). -/
inductive WatchState where
  | pending
  | confirmed
  | struck
  deriving DecidableEq, Repr

/-- A watch entry in use: the word, the stored span it is tied to, the chunk that made it, and the chunk that has asked about it
(R80, R109, R228). A span
held beside the entry because the core has no place for it is marked `beside`; `filled` says that the span has arrived, so that
its discard strikes the entry (R80). -/
structure Watch where
  word   : Nat
  first  : Nat
  count  : Nat
  st     : WatchState
  chunk  : Nat
  asked  : Bool := false
  by_    : Nat := 0
  beside : Bool := false
  filled : Bool := false
  deriving DecidableEq, Repr

/-- A kind of access for the checks of R17 and R18. `spmap` is the W check of a window that will not be read-only. -/
inductive Access where
  | load
  | store
  | stc
  | amo
  | red
  | lds
  | fetch
  | engineRead
  | engineWrite
  | fill
  | winWrite
  | spmap
  deriving DecidableEq, Repr

/-- A memory instruction that has issued: its kind of access, its pc, the bytes and addresses of its elements, the bytes or
the atomic operation that it writes, its number on ld or st, where its writes stand in the chunk's version, whether its
elements form one access, and whether a failed check reports the element's address (R265), the course handle of a course
store, whether the class must be one of PRIV, HOME and SPAN (R304), whether the words read become dead or are dropped (R231),
whether it is the acquire of R123, and the mode in which it issued, which its checks keep (R18, R219). -/
structure MemOp where
  access : Access
  pc     : Word
  n      : Nat
  vas    : List Nat
  data   : List (List Byte) := []
  new    : Option (Nat × Nat × Nat) := none
  seq    : Option Nat := none
  at_    : Nat := 0
  span   : Bool := false
  vec    : Bool := false
  stc    : Option Nat := none
  join   : Bool := false
  ldl    : Bool := false
  drop   : Bool := false
  acquire : Bool := false
  sv     : Bool := false
  deriving DecidableEq, Repr

/-- A ticket: domain time or ordered timestamp, and the strand (R103, R108). -/
structure Ticket where
  time   : Nat
  strand : Nat
  deriving DecidableEq, Repr

/-- The quantities of an engine command (R187): what is done once it is applied. -/
inductive CmdKind where
  | cpyIn (slot record : Nat)
  | cpyOut (acc ty rm : Nat) (sat last : Bool) (record : Nat)
  | cpyM (src dst n : Nat)
  | cpyNv (desc : Nat)
  | flush (window : Nat)
  | exdef (name template : Nat)
  | exload (desc table : Nat)
  | exgrow (name entry : Nat)
  | exretire (name entry : Nat)
  | exjoin (name grad entry : Nat) (hand : Bool)
  | exupd (name : Nat)
  | exspill (name : Nat)
  deriving DecidableEq, Repr

/-- An engine command: its number, issuing strand, number on cp, launch key, mode, mailbox, its place in the order of
apply, generator of stochastic rounding, how far it has got, the bytes that it has read and not yet written, what it has written,
its completion code with the status of an NVMe completion (R286), whether only its mailbox write is left, for an EX
command the endpoint identifier of its issuer (R342, R343), and for a CPY.NV the storage address of its first byte in each
destination page, as its checks found them (R292). -/
structure Cmd where
  id      : Nat
  strand  : Nat
  seq     : Nat
  chunk   : Nat
  lkey    : Nat
  sv      : Bool
  mailbox : Option Nat
  kind    : CmdKind
  order   : Nat := 0
  q       : BitVec 32 := 1
  applied : Bool := false
  started : Bool := false
  ready   : Bool := false
  cursor  : Nat := 0
  data    : Tab Byte := []
  bytes   : Nat := 0
  code    : Nat := 0
  status  : Nat := 0
  ended   : Bool := false
  issuer  : Nat := 0
  frames  : List Nat := []
  deriving DecidableEq, Repr

/-- The forms of tile commands (R279). -/
inductive TaskKind where
  /-- MMA: A type, B type, whether the accumulator is s32, slots, and LAST of each (R281). -/
  | mma (ta tb : Nat) (sa sb : Nat) (lastA lastB : Bool)
  /-- MMV: type, V, K, accumulator X, for each row still to be read the storage addresses of its bytes, the weight base and
  the row stride (R283). -/
  | mmv (ty v k x : Nat) (rows : List (List Nat)) (base stride : Nat)
  | zero (count : Nat)
  /-- ACC.RD: scratchpad address, first row, row count, LAST (R284). -/
  | rd (dest first count : Nat) (last : Bool)
  deriving DecidableEq, Repr

/-- A tile command in the dependency table (R279): its place in entry order, whether it has started, whether it has read
its last accumulator element, MMV's next row, or the 64-byte writes that ACC.RD has made, with MMV's mode and the bytes of the row
in progress that it has read (R283, R284), and the elements that its assist recomputes (R249). -/
structure Task where
  id      : Nat
  strand  : Nat
  seq     : Nat
  chunk   : Nat
  lkey    : Nat
  kind    : TaskKind
  acc     : Nat
  set     : Bool := false
  scales  : Word := 0
  order   : Nat := 0
  applied : Bool := false
  started : Bool := false
  isRead  : Bool := false
  cursor  : Nat := 0
  sv      : Bool := false
  marked  : List Nat := []
  data    : List Byte := []
  deriving DecidableEq, Repr

/-- One effect held in a chunk until its commit point (R98, R102), in program order. -/
inductive Held where
  /-- A message: target, channel, payload, region, ordered timestamp (R300). -/
  | msg (target chan : Nat) (payload : List Byte) (len q : Nat) (ts : Option Nat)
  /-- A message that names a brick (R299). -/
  | brickMsg (addr q : Nat)
  | kwr (reg : Nat) (value : Word)
  | hset (chan : Nat) (value : Word)
  | hmask (mask : Word) (on : Bool)
  /-- A course store: handle, storage address, bytes, number on st (R309). -/
  | stc (handle : Nat) (addr n value seq : Nat)
  | slotRel (first count : Nat)
  | qopen (q : Nat)
  /-- The end of the run (R211). -/
  | endRun
  /-- A brick that the suspending chunk enqueues itself, or a wait for quiescence (R212, R306). -/
  | enqueue (addr pri : Nat)
  | qwait (addr q : Nat)
  /-- A brick written by the end of a run, and whether it waits for a join, a message or quiescence (R144). -/
  | suspend (addr : Nat) (waits : Bool)
  | unmap (window : Nat)
  /-- LDL.DROP: storage addresses of the words (R55). -/
  | drop (words : List Nat)
  | cmd (id : Nat)
  | task (id : Nat)
  | cbegin (num : Nat)
  | lay (handle seq : Nat)
  | abandon (handle : Nat)
  | invp (scope : Nat) (domain : Bool) (va key n : Nat)
  /-- A store off the die, or at system scope, whose apply is acknowledged on st (R224). -/
  | ack (seq : Nat)
  deriving DecidableEq, Repr

/-- A chunk that has not been applied (R97 to R104): its start, instructions, checkpoint, version, signatures (two
banks of 512 bits each), log of words, what it still awaits at the home slices, its memory instructions that wait for a
page (R26), the address and pc of the store of each word, the pages it has translated through (R21), the window
words whose fill it awaits, each with the binding under which it was asked for (R50, R51), the words that it writes through a
PCIe-only port (R94), those that it writes through host port 1 (R9, R22), what its atomics have read through a PCIe-only port
(R94, R297), whether it runs in sole-commit mode
(R107) or waits in a CHKW or WCLR (R111), and whether it has passed its commit point and makes the waits of R122, with the
packets and the back-invalidations that it then waits for. -/
structure Chunk where
  id       : Nat
  startPc  : Word
  count    : Nat := 0
  sealed   : Bool := false
  ticket   : Option Ticket := none
  regs     : Regs := {}
  issued   : Nat := 0
  ldIssued : Nat := 0
  q        : BitVec 32 := 1
  marks    : List PendMark := []
  watches  : List Watch := []
  ovf      : Bool := false
  sv       : Bool := false
  tf       : Bool := false
  brpc     : Word := 0
  writes   : List VWrite := []
  classes  : Tab Nat := []
  gaining  : Bool := false
  rsig     : BitVec 1024 := 0
  wsig     : BitVec 1024 := 0
  log      : List Nat := []
  readers  : List Nat := []
  confirms : List Nat := []
  toOwn    : List Nat := []
  toConfirm : List Nat := []
  maps     : List Nat := []
  held     : List Held := []
  parked   : List (Nat × MemOp) := []
  origin   : Tab (Nat × Word) := []
  used     : List (Nat × Nat) := []
  fills    : List (Nat × Nat) := []
  asked    : List Nat := []
  sysWait  : Bool := false
  fence    : Bool := false
  fenceSy  : Bool := false
  pcie     : List Nat := []
  port1    : List Nat := []
  amoRead  : Tab Byte := []
  sole     : Bool := false
  checking : Bool := false
  committed : Bool := false
  writesOut : List Nat := []
  snoopsOut : List Nat := []
  deriving DecidableEq, Repr

/-- What a strand is doing. -/
inductive Run where
  /-- No run (R142). -/
  | free
  | running
  /-- YIELD: no issue until its n cycles have passed (R213). -/
  | yielding
  /-- HALT (R221). -/
  | halted
  /-- INVP: no issue until it has completed (R220): `await` lists the chunks and window writes it waits for. -/
  | invp
  /-- A FENCE: no issue until its chunk has committed and st is 0 (R238). -/
  | fence
  /-- DONE or SUSP: the run has ended and its chunk is not yet applied (R211). -/
  | ending
  /-- A trap waits for the earlier chunks (R360). -/
  | trapping
  /-- Sole-commit mode: no issue before the die's token is taken (R107). -/
  | token
  deriving DecidableEq, Repr

/-- What a trap records until its entry, with the domain time at which it was taken (R361, R362). -/
structure TrapInfo where
  cause : Nat
  addr  : Nat
  time  : Nat := 0
  fpc   : Word
  cspc  : Word
  sv    : Bool
  brpc  : Word
  deriving DecidableEq, Repr

/-- What the run of a strand carries (R140, R144, R305), and for an ordered run the endpoints that received and sent its message,
as one number in the order of R108 and R301. -/
structure RunInfo where
  chan   : Nat := 0
  entry  : Option Nat := none
  region : Option Nat := none
  qset   : List Nat := []
  ord    : Bool := false
  ts     : Nat := 0
  pri    : Nat := 0
  brick  : Option Nat := none
  wasHorizon : Bool := false
  ep     : Nat := 0
  deriving DecidableEq, Repr

/-- A strand of a core (R142, R174 to R180, R217, R361): `wake` is the time at which its YIELD ends (R213), `refetch` the line
that is being fetched once more after a parity mismatch (R163). -/
structure Strand where
  regs    : Regs := {}
  pc      : Word := 0
  run     : Run := .free
  info    : RunInfo := {}
  sv      : Bool := false
  kepc    : Word := 0
  tf      : Bool := false
  q       : BitVec 32 := 0
  brpc    : Word := 0
  ops     : List OutOp := []
  issued  : Nat := 0
  ldIssued : Nat := 0
  marks   : List PendMark := []
  watches : List Watch := []
  ovf     : Bool := false
  chunks  : List Chunk := []
  squashes : Nat := 0
  sole    : Option Ticket := none
  trap    : Option TrapInfo := none
  lkey    : Nat := 0
  await   : List (Nat × Nat) := []
  wake    : Nat := 0
  refetch : Option Nat := none
  deriving DecidableEq, Repr

/-- A message in an inbox, counted on its channel until the run that it starts has ended (R43, R138): `started` says that the run
has begun. -/
structure InMsg where
  chan   : Nat
  entry  : Nat
  len    : Nat
  sender : Nat
  ts     : Nat
  q      : Option Nat
  ord    : Bool
  started : Bool := false
  deriving DecidableEq, Repr

/-- A window of a core (R47 to R50): V and D of each 8-byte word as lists of word numbers, the storage address of
each page's frame, the class, the chunks that have accessed it, the number of its binding, by which fills of an older
binding or translation are told apart (R21, R235, R237), and the pages whose translation has been dropped since (R21, R237). -/
structure Window where
  base  : Nat
  pool  : Nat
  len   : Nat
  ro    : Bool
  cls   : Nat
  pages : Tab Nat
  valid : List Nat := []
  dirty : List Nat := []
  users : List Nat := []
  bind  : Nat := 0
  stale : List Nat := []
  deriving DecidableEq, Repr

/-- A translation held by a source (R19): launch key, page number of 4 KiB pages, frame, class, permissions. -/
structure TlbEntry where
  source : Nat
  lkey   : Nat
  vpage  : Nat
  pages  : Nat
  frame  : Nat
  leaf   : Nat
  cls    : Nat
  s      : Bool
  r      : Bool
  w      : Bool
  x      : Bool
  d      : Bool
  word   : Nat
  owner  : Nat
  deriving DecidableEq, Repr

/-- A queued write-back of one line of a window (R52, R232): the global address, the bytes snapshotted by
global address, the strand whose instruction queued it with its mode, for a SPAN window the words of memory that it carries, which
the home still records as owned, and the translation that a drop of translations leaves it (R237). -/
structure WinWrite where
  window : Nat
  va     : Nat
  cells  : Tab Byte
  strand : Nat
  lkey   : Nat
  sv     : Bool
  id     : Nat
  words  : List Nat := []
  entry  : Option TlbEntry := none
  deriving DecidableEq, Repr

/-- An SPFLUSH whose count on cp is not yet down: the writes it waits for (R232, R236). -/
structure FlushWait where
  strand : Nat
  seq    : Nat
  writes : List Nat
  deriving DecidableEq, Repr

/-- A bank of a core: what belongs to the launch that holds it (R36, R139, R367). -/
structure Bank where
  lkey     : Nat := 0
  kbReg    : Nat := 0
  kbSpad   : Nat := 0
  kbL1     : Nat := 0
  fused    : Bool := false
  handlers : Tab Word := []
  inbox    : List Nat := []
  msgs     : List InMsg := []
  chanTime : Tab Nat := []
  windows  : Tab Window := []
  winQueue : List WinWrite := []
  flushes  : List FlushWait := []
  frozen   : Bool := false
  deriving DecidableEq, Repr

/-- A stored span of a line: the first word, the words' bytes, its class, and whether it is pinned or least in line
for replacement (R45, R54, R60, R72). `owned` is state M of a peer store (R87). -/
structure Span where
  line   : Nat
  first  : Nat
  data   : List Byte
  cls    : Nat
  owned  : Bool := false
  pinned : Nat := 0
  dead   : Bool := false
  deriving DecidableEq, Repr

/-- A core: its L1 region with the places that a launch keeps pinned in it (R60), the pool words that gaining chunks lock
with strand and chunk (R102), and its counters (R45, R57, R101, R150). -/
structure Core where
  l1      : List Span := []
  pins    : List (Nat × Nat) := []
  poolLocks : List (Nat × Nat × Nat) := []
  khdrop  : Word := 0
  ksquash : Word := 0
  sent    : Tab Nat := []
  recv    : Tab Nat := []
  deriving DecidableEq, Repr

/-- An operand slot: V, claim and releasing (R275). `filling` is V = 0 and C = 0. -/
structure Slot where
  full      : Bool := false
  filling   : Bool := false
  owner     : Option Nat := none
  releasing : Bool := false
  relPins   : List Nat := []
  deriving DecidableEq, Repr

/-- An accumulator's state (R276). -/
inductive AccState where
  | ready
  | busy
  | drained
  deriving DecidableEq, Repr

/-- An accumulator: state and copy reads in progress (R276). -/
structure Acc where
  st    : AccState := .ready
  reads : Nat := 0
  deriving DecidableEq, Repr

/-- A request for the lease of an array (R277, R359). -/
structure LeaseReq where
  strand : Nat
  pri    : Nat
  since  : Nat
  deriving DecidableEq, Repr

/-- A brick on a cluster's queue (R148). -/
structure QBrick where
  lkey  : Nat
  addr  : Nat
  pri   : Nat
  since : Nat
  deriving DecidableEq, Repr

/-- A partial of a reduction buffer (R84): operation, bytes and value; an empty SWAP partial holds none. -/
structure Partial where
  addr  : Nat
  n     : Nat
  op    : Nat
  value : Option Nat
  reg   : Bool := true
  deriving DecidableEq, Repr

/-- What pre-emption freezes of a displaced launch on a cluster (R293, R367, R368). -/
structure Frozen where
  lkey    : Nat
  tasks   : List Task
  copies  : List Cmd
  spilled : Bool := false
  deriving DecidableEq, Repr

/-- A cluster: slots, accumulators, lease, dependency table, copy engine, brick queues and reduction buffer. `copyQueue` are the
strands, with their chunks, that stall for the shadow register, in issue order, and `finishing` the copy commands that have issued
their last data write and not yet completed (R285). -/
structure Cluster where
  slots    : Tab Slot := []
  accs     : Tab Acc := []
  holder   : Option Nat := none
  term     : Nat := 0
  termFrom : Nat := 0
  lastHolder : Nat := 0
  requests : List LeaseReq := []
  tasks    : List Task := []
  shadow   : Option Cmd := none
  copyQueue : List (Nat × Nat) := []
  active   : Option Cmd := none
  finishing : List Cmd := []
  waiting  : List Cmd := []
  bricks   : List QBrick := []
  partials : List Partial := []
  assists  : List Nat := []
  frozen   : List Frozen := []
  deriving DecidableEq, Repr

/-- A compute die: commit token, peer store, resident lines with the launches that asked for each, and recent atomics (R58,
R71, R96, R107). -/
structure Die where
  token    : Option Nat := none
  peer     : List Span := []
  resident : Tab (List Nat) := []
  atomics  : Tab Nat := []
  deriving DecidableEq, Repr

/-- An agent that the home records for a copy (R71). -/
inductive Agent where
  | core (core : Nat)
  | redbuf (cluster : Nat)
  | peer (die : Nat)
  deriving DecidableEq, Repr

/-- The state of a word at its home (R74). -/
inductive WState where
  | u
  | s
  | m
  | p
  | tr
  | tc
  deriving DecidableEq, Repr

/-- A holder pointer: the agent and its mask of words (R73). -/
structure Holder where
  agent : Agent
  mask  : List Nat
  deriving DecidableEq, Repr

/-- The directory entry of a line (R73 to R79): the eight word states, the pointers, or in coarse mode the 64-bit
group vector; the words held in TW with the strand and chunk that hold them; reader marks by strand, chunk and word;
words that a sole-commit chunk holds; words that a course locks; the owner of each word in M or TR; the number of the recall
that is outstanding for a word (R78); the numbers of the registrations of reduction buffers by cluster and word (R86); the
words of which an engine write has still a piece to apply (R126), and those of which a core's store to host memory has one (R121);
and the places that accesses of engines and of the host hold
in the order of arrival, each with its words (R77). -/
structure DirEntry where
  ws     : Tab WState := []
  coarse : Bool := false
  groups : List Nat := []
  holders : List Holder := []
  tw     : List (Nat × Nat × Nat) := []
  marks  : List (Nat × Nat × Nat) := []
  sole   : List (Nat × Nat) := []
  locks  : List (Nat × Nat) := []
  owned  : Tab Agent := []
  recalls : Tab Nat := []
  regs   : List (Nat × Nat × Nat) := []
  split  : List Nat := []
  posting : List Nat := []
  places : List (List Nat × List Nat × Nat) := []
  deriving DecidableEq, Repr

/-- The packets between holders and homes (R72, R78). -/
inductive PKind where
  | read
  | own
  | writeBack (keeps : Bool)
  | recallAns
  | inval
  | recall (forWrite : Bool)
  | fill
  | confirmReq
  | confirmAns
  | combineReq
  | partialAns (op n : Nat)
  /-- An ownership grant, on the holder's channel (R78). -/
  | grant
  /-- The pieces of an engine write that follow its first (R126). -/
  | piece
  /-- A posted write to a PCIe-only port (R94, R121). -/
  | posted
  deriving DecidableEq, Repr

/-- A packet in flight: home die, holder, line, words, requesting strand, chunk and operation, data, and its place in
the order of arrival at the home once it has arrived and waits (R77), and for a window fill the window, the pool word
of each word (R51) and the window's binding. `admitted` says that the check at the target has been made (R24), `keep` that a
fill may leave a copy (R83), `tag` is the number of a recall or registration (R78, R86), `pcie` marks an access through a
PCIe-only port (R94), and `port1` one through host port 1 (R9, R22). -/
structure Packet where
  id     : Nat
  kind   : PKind
  home   : Nat
  holder : Agent
  line   : Nat
  words  : List Nat
  strand : Nat := 0
  chunk  : Nat := 0
  seq    : Nat := 0
  cls    : Nat := 3
  win    : Option (Nat × Nat) := none
  pool   : List Nat := []
  cells  : Tab Byte := []
  stamp  : Option Nat := none
  bind   : Nat := 0
  admitted : Bool := false
  keep   : Bool := true
  tag    : Nat := 0
  pcie   : Bool := false
  port1  : Bool := false
  deriving DecidableEq, Repr

/-- What a message carries besides its bytes (R300, R323). `held` marks a contribution that its gateway has refused (R388). -/
structure Msg where
  id      : Nat
  lkey    : Nat
  src     : Nat
  srcId   : Nat
  target  : Nat
  dst     : Option Nat
  brick   : Option Nat := none
  chan    : Nat
  payload : List Byte
  len     : Nat
  q       : Option Nat
  ts      : Nat
  ord     : Bool
  held    : Bool := false
  deriving DecidableEq, Repr

/-- A parked page of a unit (R26, R27), the entry at which its walk stopped, and the accesses behind it: the source and a
number that tells its accesses apart. -/
structure Park where
  pkg    : Nat
  unit   : Nat
  id     : Nat
  lkey   : Nat
  vpage  : Nat
  cause  : Nat
  entry  : Nat
  behind : List (Nat × Nat)
  deriving DecidableEq, Repr

/-- A missing translation that a full unit has refused, or that waits at its source behind a refused one, in the order of the
source's retries (R30): the unit, the source, the access's number, the launch, the page and the kind. -/
structure Refused where
  pkg    : Nat
  unit   : Nat
  source : Nat
  tag    : Nat
  lkey   : Nat
  vpage  : Nat
  deriving DecidableEq, Repr

/-- A launch (R155 to R159, R370, R406): its packet, placement, totals of the previous wave, horizon, the bricks in STATE 4
with their region and the waves since their commit, the suspended bricks of ordered runs with their timestamp and endpoint
(R108), the addresses of the bricks left unresumed (R405) and of those put in STATE 1 or 4 and not woken since (R144, R159), and the
engine commands of which its kill has discarded an access (R28). `loading` says that its payload is not
yet read (R156). An address from 2^60 up in `quiet`
stands for a wait node of a graph (R354). -/
structure Launch where
  lkey     : Nat
  ptroot   : Word
  packet   : List Word
  pkg      : Nat
  queue    : Nat
  context  : Nat
  graph    : Option (Nat × Nat) := none
  bank     : Nat := 0
  remap    : Tab Nat := []
  loading  : Bool := true
  started  : Bool := false
  ended    : Bool := false
  killed   : Bool := false
  prev     : Tab (Nat × Nat) := []
  prevOk   : Bool := false
  horizon  : Nat × Nat := (0, 0)
  quiet    : List (Nat × Nat × Nat) := []
  suspended : List (Nat × Nat × Nat) := []
  lost     : List Nat := []
  waits    : List Nat := []
  cut      : List Nat := []
  deriving DecidableEq, Repr

/-- An event of an expert (R318): the arrival of a token record or of an EX command, the end of a load window with the window's
deliveries, the end of a replica copy with its code, the arrival of an EXJOIN's contribution, the end of an EXUPD's course with
its code and lay status, and the routing of the spill ring after a trigger of R326. -/
inductive ExEvent where
  | token (msg : Nat)
  | command (cmd : Nat)
  | window (deliveries : Tab Nat)
  | copied (entry code : Nat)
  | joined (cmd : Nat)
  | course (code status : Nat)
  | spill
  deriving DecidableEq, Repr

/-- An expert (R314 to R317): its launch, owner package, the 80 words of its descriptor, the deliveries of the current
window by replica (R325), the messages whose token records it holds in arrival order (R324), the replicas whose
contribution is under way (R331), the replicas whose copy has begun, the EXGROW commands that wait for their replica
(R319, R340), the EXUPD in progress (R332), whether the ring has been appended to since the last second pass (R326),
whether the step has dropped a token (R324), the events that have arrived, the first of which is being processed (R318), and
whether a trigger to route the ring came in a step that routes none (R326, R330; log 37). -/
structure Expert where
  lkey     : Nat
  pkg      : Nat
  words    : Tab Nat
  window   : Tab Nat := []
  heldTok  : List Nat := []
  joins    : List Nat := []
  copying  : List Nat := []
  grows    : List (Nat × Nat) := []
  upd      : Option Nat := none
  appended : Bool := false
  dropped  : Bool := false
  queue    : List ExEvent := []
  spillDue : Bool := false
  deriving DecidableEq, Repr

/-- The states of a course at its source (R312). -/
inductive CourseState where
  | closed
  | reserved
  | opened
  | preparing
  | deciding
  deriving DecidableEq, Repr

/-- A course number of a source package (R307 to R312). -/
structure Course where
  gen     : Nat := 0
  st      : CourseState := .closed
  lkey    : Nat := 0
  count   : Nat := 0
  dests   : Tab Nat := []
  reports : Tab Nat := []
  acks    : List Nat := []
  verdict : Nat := 0
  rejected : Bool := false
  lay     : Option (Nat × Nat) := none
  expert  : Option Nat := none
  since   : Nat := 0
  deriving DecidableEq, Repr

/-- Course stores staged at a destination package for a course of a source package (R309). -/
structure Staging where
  src     : Nat
  num     : Nat
  cells   : Tab Byte := []
  arrived : Nat := 0
  overflow : Bool := false
  prepare : Bool := false
  locked  : Bool := false
  deriving DecidableEq, Repr

/-- A course store in flight to its staging buffer (R116). -/
structure StcMsg where
  id    : Nat
  src   : Nat
  num   : Nat
  gen   : Nat
  addr  : Nat
  n     : Nat
  value : Nat
  strand : Nat
  seq   : Nat
  deriving DecidableEq, Repr

/-- A gate table of the scorers (R320, R339). -/
structure Gate where
  d     : Nat
  e     : Nat
  rows  : List Byte
  names : List Word
  deriving DecidableEq, Repr

/-- A combine in progress at a gateway (R329): the gateway, the record, the launch, the row of each slot that has
arrived, the messages that brought them, the partial rows by domain, the job of its accesses, and at an exit gateway the domain
that homes the record, with the number of the combining gateway there. -/
structure Combine where
  gateway : Nat
  record  : Nat
  lkey    : Nat
  rows    : Tab Nat := []
  msgs    : List Nat := []
  parts   : Tab (List Nat) := []
  job     : Nat := 0
  domain  : Option Nat := none
  number  : Nat := 0
  deriving DecidableEq, Repr

/-- An arrival set of a merge record at an edge gateway (R388 to R390): the gateway, the record, the launch, the row of each slot
that has arrived, the messages that brought them, and the message that completed it. -/
structure Merge where
  gateway : Nat
  record  : Nat
  lkey    : Nat
  rows    : Tab Nat := []
  msgs    : List Nat := []
  last    : Option Nat := none
  deriving DecidableEq, Repr

/-- A page move of a unit (R32, R89, R90): the leaf, the old and the new frame, the page's size, the kind of its candidate (0
where there is none) with the block and the counter's value, whether it changes BIAS and no frame, how far it has got (0
waits to begin, 1 copies every line, 2 copies again, 3 in its final pass, 4 copies the last lines), the lines of this pass still to
be copied, the lines marked as written since they were copied, and what its first INVP waits for. -/
structure Move where
  unit    : Nat
  leaf    : Nat
  old     : Nat := 0
  new     : Nat := 0
  size    : Nat := 0
  kind    : Nat := 0
  block   : Nat := 0
  value   : Nat := 0
  bias    : Bool := false
  phase   : Nat := 0
  todo    : List Nat := []
  marked  : List Nat := []
  await   : List (Nat × Nat) := []
  deriving DecidableEq, Repr

/-- A graph that runs (R353, R354): node words, counters, live flags and results, the launch nodes whose completion word is
written, of its copy nodes the bytes written so far and the bytes read for the line in progress, and the predicate words that its
conditional nodes have read (R355). -/
structure Graph where
  id      : Nat
  queue   : Nat
  compl   : Nat
  nodes   : List (List Word)
  counts  : Tab Nat
  live    : List Nat
  running : List Nat := []
  done    : List Nat := []
  failed  : Option Nat := none
  finished : List Nat := []
  moved   : Tab Nat := []
  part    : Tab (List Byte) := []
  preds   : Tab Nat := []
  deriving DecidableEq, Repr

/-- An NVMe Read that is outstanding (R292): its command, queue and identifier, the first page of the peer-to-peer window
that it has mapped and the storage addresses of its frames, its bytes and those that have arrived, when it was submitted,
whether its completion entry has come, and its PRP entries. -/
structure NvRead where
  cmd    : Nat
  cluster : Nat
  queue  : Nat
  cid    : Nat
  window : Nat
  frames : List Nat
  bytes  : Nat
  landed : Nat := 0
  since  : Nat := 0
  fine   : Bool := false
  prps   : List Nat := []
  deriving DecidableEq, Repr

/-- A Gixis port (R376 to R378): the next sequence number to send and to accept, the replay buffer, the state of the link with
its attempts to retrain (`training` is the disagree state), whether a replay has been asked for, and the flits put on the
wire. -/
structure Link where
  next    : Nat := 0
  expect  : Nat := 0
  replay  : List (Nat × List Byte) := []
  up      : Bool := true
  training : Bool := false
  width   : Nat := 8
  retrains : Nat := 0
  nak     : Bool := false
  out     : List (List Byte) := []
  deriving DecidableEq, Repr

/-- Delivery between two packages on one virtual channel (R379): the next number and the flits stored toward the other package,
and from it the next number to accept and how many accepted flits are not yet acknowledged. -/
structure E2e where
  next   : Nat := 0
  store  : List (Nat × List Byte) := []
  expect : Nat := 0
  unacked : Nat := 0
  deriving DecidableEq, Repr

/-- What crosses to another domain: its bytes, and for a token record the message's launch and region, which count it as received
once the other domain has acknowledged it (R150, R380, log 35). `flit` marks a flit that crosses as it is (R379). -/
structure TunnelItem where
  bytes : List Byte
  count : Option (Nat × Nat) := none
  flit  : Bool := false
  deriving DecidableEq, Repr

/-- A datagram (R380): its sequence number, its bytes, the Ethernet port and the addresses of the route entry that it was made by,
and the item that counts as received once it is acknowledged. -/
structure Datagram where
  seq    : Nat
  bytes  : List Byte
  port   : Nat
  dest   : List Word
  hop    : Nat
  source : List Word
  sport  : Nat
  count  : Option (Nat × Nat) := none
  deriving DecidableEq, Repr

/-- A tunnel to another domain (R380): the next sequence number, the next one expected, datagrams not yet acknowledged,
traffic held for want of a route, the datagrams put on the wire, the numbers acknowledged to the other domain, and the flits of an
item that has come in part. -/
structure Tunnel where
  next   : Nat := 0
  expect : Nat := 0
  store  : List Datagram := []
  held   : List TunnelItem := []
  out    : List Datagram := []
  acks   : List Nat := []
  parts  : List Byte := []
  deriving DecidableEq, Repr

/-- An attestation report (R381): the requester's nonce, every measurement, the service level and the signature. -/
structure Report where
  nonce     : List Byte
  measures  : List (List Byte)
  level     : Nat
  signature : List Byte
  deriving DecidableEq, Repr

/-- A line of host memory in a home die's cache (R91). -/
inductive Mesi where
  | i
  | s
  | e
  | m
  deriving DecidableEq, Repr

/-- A record that a translation unit has still to write to a ring: the unit, the record, and the base and control words of the ring
that it belongs to, where they have been rewritten since (R397, R398). -/
structure RingRecord where
  unit  : Nat
  words : List Word
  ring  : Option (Word × Word) := none
  deriving DecidableEq, Repr

/-- What the security processor has reported (R363, R384). -/
inductive SecurityReport where
  /-- A machine check of a strand: cause code and address. -/
  | machineCheck (strand cause addr : Nat)
  /-- A level that failed its self-test. -/
  | selfTest (level : Nat)
  deriving DecidableEq, Repr

/-- A package: the registers of the host function by offset (R374), and what its units hold. `hostCopies` are the device lines
of which the host may hold a copy, `hostShared` those of which it holds a shared one, `snoops` the lines asked of the host,
`snoopData` those of them asked with BISnpData (R92), `security` what the security processor has reported (R363, R384), `unsent` the
flits that wait for room at a port (R377, R379), and `arrived` the flits delivered to the package (R379). -/
structure Pkg where
  down     : Bool := false
  kxdom    : BitVec 32 := 0
  khostemu : Bool := false
  regs     : Tab Word := []
  counters : Tab Nat := []
  posted   : List Nat := []
  faultHeld : List RingRecord := []
  candHeld : List RingRecord := []
  moves    : List Move := []
  mesi     : Tab Mesi := []
  cache    : Tab Byte := []
  hostCopies : List Nat := []
  hostShared : List Nat := []
  snoops   : List Nat := []
  snoopData : List Nat := []
  quantum  : Nat := 0
  pointers : Tab Nat := []
  mapped   : List Nat := []
  heads    : Tab Nat := []
  tails    : Tab Nat := []
  lastEntry : Tab Nat := []
  msixPend : Tab Nat := []
  msixVec  : Tab Nat := []
  msix     : List Nat := []
  graphs   : List Graph := []
  courses  : Tab Course := []
  staging  : List Staging := []
  gates    : Tab Gate := []
  combines : List Combine := []
  merges   : List Merge := []
  pins     : List (Nat × Nat) := []
  links    : Tab Link := []
  e2e      : Tab E2e := []
  tunnels  : Tab Tunnel := []
  nvme     : List NvRead := []
  nvmeOut  : List (Nat × List Byte) := []
  tiers    : Tab Nat := []
  pcieOnly : List Nat := []
  budget   : Nat := 3400
  nextBudget : Nat := 3400
  gap      : Nat := 0
  eol      : Tab Nat := []
  measures : Tab (List Byte) := []
  booted   : List (List Byte) := []
  level    : Nat := 0
  report   : Option Report := none
  security : List SecurityReport := []
  unsent   : List (List Byte) := []
  arrived  : List (List Byte) := []
  deriving DecidableEq, Repr

/-- Who moves next (log 4): a strand fetches and runs its next instruction, an owed step is taken, or a step of the
outside world comes in. -/
inductive Turn where
  | strand (k : Nat)
  | due (n : Nat)
  | input (i : Instr)
  deriving DecidableEq, Repr

/-- The state of the domain. `tick`, `cur`, `turns`, `due` and `nextId` are the model's own (log 4, log 5): a counter
of free values, the strand that acts, the choices of who moves next, the steps that the machine's agents owe, and a
counter of record numbers. `jobs` holds, for the accesses to ranges that directories, gateways and host queue units have under
way, the bytes of each range that are read or written (R114, R126). `foreign` holds the domain of the combine record of each slot
whose token came from another domain: launch, record, slot and domain (R329, log 35). `dropped` holds the translations that have been
dropped while something still uses their frames (R21). -/
structure State where
  tick     : Nat := 0
  time     : Nat := 0
  cur      : Nat := 0
  turns    : List Turn := []
  due      : List Instr := []
  nextId   : Nat := 1
  mem      : Memory := []
  strands  : Tab Strand := []
  banks    : Tab Bank := []
  cores    : Tab Core := []
  clusters : Tab Cluster := []
  dies     : Tab Die := []
  pkgs     : Tab Pkg := []
  dir      : Tab DirEntry := []
  net      : List Packet := []
  msgs     : List Msg := []
  stcs     : List StcMsg := []
  tlb      : List TlbEntry := []
  dropped  : List TlbEntry := []
  parks    : List Park := []
  refused  : List Refused := []
  launches : Tab Launch := []
  experts  : Tab Expert := []
  cmds     : Tab Cmd := []
  jobs     : Tab (Tab (List Byte)) := []
  foreign  : List (Nat × Nat × Nat × Nat) := []
  trapArea : Nat := 0
  trapPc   : Word := 0
  deriving DecidableEq, Repr

/-- The machine right after reset: every field at the value the spec gives, and 0 or none where it gives none. -/
def State.reset : State := {}

end Sys2Proof.Machine
end

