-- ==== Sys2Proof/Machine/Ops.lean ====
section
/-!
DEFINITION. The named operations over memory, registers and strands: numbering of agents, bytes of memory, registers
with their special cases, the live chunk and its checkpoint, the checks that every instruction shares in the order of
R192, and the advance of the pc.
-/

namespace Sys2Proof.Machine

/-- The outcome of a step of this machine. -/
abbrev Out := Host.Outcome State Fault Refusal

/-! ### Numbers of agents -/

/-- The packages of a domain (R8). -/
def packageLimit : Nat := 1024

/-- The strands of a domain: 8 dies, 18 clusters, 16 cores, two banks of 4 strands (R1). -/
def strandLimit : Nat := packageLimit * 8 * 18 * 16 * 8

/-- The bank of a strand, counted over all cores. -/
def bankOf (k : Nat) : Nat := k / 4

/-- The core of a strand. -/
def coreOf (k : Nat) : Nat := k / 8

/-- The cluster of a strand. -/
def clusterOf (k : Nat) : Nat := k / 128

/-- The compute die of a cluster, counted over all packages. -/
def dieOfCluster (c : Nat) : Nat := c / 18

/-- The compute die of a strand. -/
def dieOf (k : Nat) : Nat := dieOfCluster (clusterOf k)

/-- The package of a die. -/
def pkgOfDie (d : Nat) : Nat := d / 8

/-- The package of a strand. -/
def pkgOf (k : Nat) : Nat := pkgOfDie (dieOf k)

/-- The number of a strand within its bank (R153). -/
def strandNo (k : Nat) : Nat := k % 4

/-- The bank of a strand within its core: 0 ordinary, 1 shadow (R361). -/
def bankNo (k : Nat) : Nat := k / 4 % 2

/-! ### Memory -/

/-- What a byte that nothing has written reads as (log 3, DESIGN CHOICE). -/
def unwritten : Byte := 0

/-- The byte at a storage address. -/
def Memory.read (m : Memory) (a : Nat) : Byte := tget unwritten m a

/-- A byte written at a storage address. -/
def Memory.write (m : Memory) (a : Nat) (b : Byte) : Memory := tset unwritten m a b

/-- The canonical form: addresses strictly rising, and no entry equal to what an unlisted byte reads as. -/
def Memory.wf (m : Memory) : Bool := tcanon unwritten m

/-- The bytes from an address upward. -/
def Memory.readBytes (m : Memory) (a n : Nat) : List Byte := (rangeFrom a n).map m.read

/-- The number of `n` bytes, little-endian (R5). -/
def Memory.readNat (m : Memory) (a n : Nat) : Nat := fromBytes (m.readBytes a n)

/-- Bytes written from an address upward. -/
def Memory.writeBytes (m : Memory) (a : Nat) : List Byte → Memory
  | [] => m
  | b :: bs => (m.write a b).writeBytes (a + 1) bs

/-- Cells written in order. -/
def Memory.writeCells (m : Memory) (cs : Tab Byte) : Memory := cs.foldl (fun m c => m.write c.1 c.2) m

/-- The first storage address of the pools (log 8). -/
def poolBase : Nat := 2 ^ 60

/-- The first storage address of the operand slots (log 8). -/
def slotBase : Nat := 2 ^ 61

/-- The first storage address of the accumulators (log 8). -/
def accBase : Nat := 2 ^ 62

/-- The storage address of a pool byte: core and pool offset (R36). -/
def poolKey (core off : Nat) : Nat := poolBase + core * 2 ^ 19 + off

/-- Whether a storage address is a pool byte. -/
def isPool (a : Nat) : Bool := poolBase ≤ a && a < slotBase

/-- The core of a pool byte. -/
def poolCore (a : Nat) : Nat := (a - poolBase) / 2 ^ 19

/-- The pool offset of a pool byte. -/
def poolOff (a : Nat) : Nat := (a - poolBase) % 2 ^ 19

/-- The storage address of a slot byte: 512 bytes a row, the scale area 32 KiB above (R273). -/
def slotKey (cluster slot off : Nat) : Nat := slotBase + (cluster * 128 + slot) * 2 ^ 16 + off

/-- The storage address of an accumulator byte (R274). -/
def accKey (cluster acc off : Nat) : Nat := accBase + (cluster * 32 + acc) * 2 ^ 14 + off

/-! ### Parts of the state -/

/-- A strand. -/
def State.strand (s : State) (k : Nat) : Strand := tget {} s.strands k

/-- The state with a strand changed. -/
def State.setStrand (s : State) (k : Nat) (f : Strand → Strand) : State :=
  { s with strands := tset {} s.strands k (f (s.strand k)) }

/-- The strand that acts. -/
def State.me (s : State) : Strand := s.strand s.cur

/-- The state with the acting strand changed. -/
def State.setMe (s : State) (f : Strand → Strand) : State := s.setStrand s.cur f

/-- A bank of a core. -/
def State.bank (s : State) (k : Nat) : Bank := tget {} s.banks k

/-- The state with a bank changed. -/
def State.setBank (s : State) (k : Nat) (f : Bank → Bank) : State :=
  { s with banks := tset {} s.banks k (f (s.bank k)) }

/-- A core. -/
def State.core (s : State) (k : Nat) : Core := tget {} s.cores k

/-- The state with a core changed. -/
def State.setCore (s : State) (k : Nat) (f : Core → Core) : State :=
  { s with cores := tset {} s.cores k (f (s.core k)) }

/-- A cluster. -/
def State.cluster (s : State) (k : Nat) : Cluster := tget {} s.clusters k

/-- The state with a cluster changed. -/
def State.setCluster (s : State) (k : Nat) (f : Cluster → Cluster) : State :=
  { s with clusters := tset {} s.clusters k (f (s.cluster k)) }

/-- A compute die. -/
def State.die (s : State) (k : Nat) : Die := tget {} s.dies k

/-- The state with a die changed. -/
def State.setDie (s : State) (k : Nat) (f : Die → Die) : State :=
  { s with dies := tset {} s.dies k (f (s.die k)) }

/-- A package. -/
def State.pkg (s : State) (k : Nat) : Pkg := tget {} s.pkgs k

/-- The state with a package changed. -/
def State.setPkg (s : State) (k : Nat) (f : Pkg → Pkg) : State :=
  { s with pkgs := tset {} s.pkgs k (f (s.pkg k)) }

/-- The launch of a key. -/
def State.launch (s : State) (lkey : Nat) : Option Launch := tget? s.launches lkey

/-- The state with a launch changed, if it lives. -/
def State.setLaunch (s : State) (lkey : Nat) (f : Launch → Launch) : State :=
  match s.launch lkey with
  | some l => { s with launches := tput s.launches lkey (f l) }
  | none => s

/-- A directory entry. -/
def State.entry (s : State) (line : Nat) : DirEntry := tget {} s.dir line

/-- The state with a directory entry changed. -/
def State.setEntry (s : State) (line : Nat) (f : DirEntry → DirEntry) : State :=
  { s with dir := tset {} s.dir line (f (s.entry line)) }

/-- The state with a step owed. -/
def State.owe (s : State) (i : Instr) : State := { s with due := s.due ++ [i] }

/-- The state with steps owed. -/
def State.oweAll (s : State) (is : List Instr) : State := { s with due := s.due ++ is }

/-- A fresh record number and the state after it is taken. -/
def State.fresh (s : State) : Nat × State := (s.nextId, { s with nextId := s.nextId + 1 })

/-- The state with an operation folded over a list. -/
def State.each {α : Type} (s : State) (xs : List α) (f : State → α → State) : State := xs.foldl f s

/-! ### Registers -/

/-- The number of a register in pending marks and trap records of the s file. -/
def regS (r : Nat) : Nat := r

/-- The number of a register of the f file. -/
def regF (r : Nat) : Nat := 32 + r

/-- The number of a register of the p file. -/
def regP (r : Nat) : Nat := 64 + r

/-- The number of a register of the v file. -/
def regV (r : Nat) : Nat := 128 + r

/-- The register number that a trap record of an unwaited read holds (R364): the number within its file. -/
def regNumber (r : Nat) : Nat := if r < 32 then r else if r < 64 then r - 32 else if r < 128 then r - 64 else r - 128

/-- s[r]: s0 reads as zero (R174). -/
def Regs.getS (g : Regs) (r : Nat) : Word := if r = 0 then 0 else tget 0 g.s r

/-- A write of s[r]: a write of s0 is discarded (R175). -/
def Regs.setS (g : Regs) (r : Nat) (x : Word) : Regs := if r = 0 then g else { g with s := tset 0 g.s r x }

/-- f[r] (R174). -/
def Regs.getF (g : Regs) (r : Nat) : Word := tget 0 g.f r

/-- A write of f[r] (R174). -/
def Regs.setF (g : Regs) (r : Nat) (x : Word) : Regs := { g with f := tset 0 g.f r x }

/-- p[r]: p0 reads as all ones (R174). -/
def Regs.getP (g : Regs) (r : Nat) : Lane := if r = 0 then BitVec.allOnes 32 else tget 0 g.p r

/-- A write of p[r]: a write of p0 is discarded (R175). -/
def Regs.setP (g : Regs) (r : Nat) (x : Lane) : Regs := if r = 0 then g else { g with p := tset 0 g.p r x }

/-- Lane i of v[r] (R174). -/
def Regs.getLane (g : Regs) (r i : Nat) : Lane := tget 0 g.v (32 * r + i)

/-- A write of lane i of v[r]. -/
def Regs.setLane (g : Regs) (r i : Nat) (x : Lane) : Regs := { g with v := tset 0 g.v (32 * r + i) x }

/-- Element i of v[r] in a type: a 64-bit element takes two lanes, a narrow one the low bits of its lane (R253). -/
def Regs.getElem (g : Regs) (t r i : Nat) : Nat :=
  if wideType t then (g.getLane r (2 * i)).toNat + 2 ^ 32 * (g.getLane r (2 * i + 1)).toNat
  else (g.getLane r i).toNat % 2 ^ typeWidth t

/-- A write of element i of v[r] in a type: the lane bits above a narrow element become zero (R253). -/
def Regs.setElem (g : Regs) (t r i x : Nat) : Regs :=
  if wideType t then (g.setLane r (2 * i) (BitVec.ofNat 32 x)).setLane r (2 * i + 1) (BitVec.ofNat 32 (x / 2 ^ 32))
  else g.setLane r i (BitVec.ofNat 32 (x % 2 ^ typeWidth t))

/-- The elements of a vector register in a type (R253). -/
def elemCount (t : Nat) : Nat := if wideType t then 16 else 32

/-- s[r] of the acting strand. -/
def State.s (st : State) (r : BitVec 6) : Word := st.me.regs.getS r.toNat

/-- f[r] of the acting strand. -/
def State.f (st : State) (r : BitVec 6) : Word := st.me.regs.getF r.toNat

/-- The state with the registers of the acting strand changed. -/
def State.setRegs (st : State) (f : Regs → Regs) : State := st.setMe fun t => { t with regs := f t.regs }

/-- A write of s[r] of the acting strand (R175). -/
def State.writeS (st : State) (r : BitVec 6) (x : Word) : State := st.setRegs fun g => g.setS r.toNat x

/-- A write of f[r] of the acting strand. -/
def State.writeF (st : State) (r : BitVec 6) (x : Word) : State := st.setRegs fun g => g.setF r.toNat x

/-- A write of p[r] of the acting strand (R175). -/
def State.writeP (st : State) (r : BitVec 6) (x : Lane) : State := st.setRegs fun g => g.setP r.toNat x

/-! ### Program counters -/

/-- The slot that lies `n` slots after a pc (R164, R186), none when it is outside the canonical range. -/
def slotAdd (pc : Word) (n : Int) : Option Word :=
  let k : Int := (bits pc.toNat 55 6 * 5 + bits pc.toNat 2 0 : Nat) + n
  if k < 0 ∨ 5 * 2 ^ 50 ≤ k then none
  else some (BitVec.ofNat 64 (k.toNat / 5 * 64 + k.toNat % 5))

/-- The slot that sequential flow reaches (R164): past the last line it is a pc that no fetch accepts. -/
def nextPc (pc : Word) : Word := (slotAdd pc 1).getD (BitVec.ofNat 64 (2 ^ 56))

/-- The state with the acting strand's pc set. -/
def State.setPc (st : State) (pc : Word) : State := st.setMe fun t => { t with pc := pc }

/-- The acting strand goes on with the next slot. -/
def State.advance (st : State) : State := st.setMe fun t => { t with pc := nextPc t.pc }

/-! ### The live chunk -/

/-- The live chunk of a strand: the newest, while it is not sealed (R97). -/
def Strand.live (t : Strand) : Option Chunk :=
  match t.chunks with
  | c :: _ => if c.sealed then none else some c
  | [] => none

/-- A strand with its live chunk changed. -/
def Strand.setLive (t : Strand) (f : Chunk → Chunk) : Strand :=
  match t.chunks with
  | c :: cs => if c.sealed then t else { t with chunks := f c :: cs }
  | [] => t

/-- The checkpoint that a chunk takes when it begins (R98, R180, R230, R246): registers, pending marks, the watch entries of
earlier chunks, OVF, the generator, the mode and TF. The entries in it follow what becomes of them (`Strand.mapWatches`), so that
a rollback finds them resolved. A chunk that begins while its strand has a sole ticket that no chunk holds runs in sole-commit
mode (R107). -/
def Strand.newChunk (t : Strand) (id : Nat) : Chunk :=
  { id := id, startPc := t.pc, regs := t.regs, q := t.q, issued := t.issued, ldIssued := t.ldIssued, marks := t.marks,
    watches := t.watches, ovf := t.ovf, sv := t.sv, tf := t.tf, brpc := t.brpc,
    sole := t.sole.isSome && !(t.chunks.any fun c => c.sole) }

/-- The watch entries of a strand changed, in its table and in the checkpoints of its chunks (R109, R230). -/
def Strand.mapWatches (t : Strand) (f : Watch → Watch) : Strand :=
  { t with
    watches := t.watches.map f
    chunks := t.chunks.map fun c => { c with watches := c.watches.map f } }

/-- The live chunk is begun if there is none (R97). -/
def State.openChunk (st : State) : State :=
  match st.me.live with
  | some _ => st
  | none =>
    let id := st.nextId
    { st.setMe fun t => { t with chunks := t.newChunk id :: t.chunks } with nextId := id + 1 }

/-- The live chunk of the acting strand; a chunk of no effects where there is none. -/
def State.chunk (st : State) : Chunk := (st.me.live).getD { id := 0, startPc := 0 }

/-- The state with the acting strand's live chunk changed. -/
def State.setChunk (st : State) (f : Chunk → Chunk) : State := st.setMe fun t => t.setLive f

/-- The state with a chunk of a strand changed. -/
def State.setChunkOf (st : State) (k id : Nat) (f : Chunk → Chunk) : State :=
  st.setStrand k fun t => { t with chunks := t.chunks.map fun c => if c.id = id then f c else c }

/-- A chunk of a strand. -/
def State.chunkOf (st : State) (k id : Nat) : Option Chunk := (st.strand k).chunks.find? fun c => c.id == id

/-- The sole ticket of a chunk that runs in sole-commit mode (R107). -/
def State.soleOf (st : State) (k id : Nat) : Option Ticket :=
  if (st.chunkOf k id).any fun c => c.sole then (st.strand k).sole else none

/-- An effect held until the commit point (AtCommit, R186). -/
def State.hold (st : State) (h : Held) : State := st.setChunk fun c => { c with held := c.held ++ [h] }

/-- One more instruction has retired in the live chunk (R97). -/
def State.retire (st : State) : State := st.setChunk fun c => { c with count := c.count + 1 }

/-- The strand of a chunk goes back to the chunk's checkpoint (R104, R180): its operations leave the counters. -/
def Strand.rollback (t : Strand) (c : Chunk) : Strand :=
  { t with
    regs := c.regs, pc := c.startPc, q := c.q, issued := c.issued, ldIssued := c.ldIssued, marks := c.marks, watches := c.watches,
    ovf := c.ovf, sv := c.sv, tf := c.tf, brpc := c.brpc, trap := none, ops := t.ops.filter fun o => o.chunk != c.id,
    chunks := t.chunks.filter fun d => d.id != c.id }

/-- The place of an ordered message among those of one timestamp: by receiving endpoint, then by sending endpoint (R108, R301). -/
def pairPlace (receiver sender : Nat) : Nat := receiver % 2 ^ 24 * 2 ^ 24 + sender % 2 ^ 24

/-! ### Counters -/

/-- The operations of a counter in issue order (R177). -/
def Strand.issuedOn (t : Strand) (c : Counter) : List OutOp := t.ops.filter fun o => o.counter == c && !o.detached

/-- The value of a counter: it falls in issue order (R177, R178). -/
def Strand.counter (t : Strand) (c : Counter) : Nat := ((t.issuedOn c).dropWhile fun o => o.done).length

/-- The operations of a counter that a WAIT, a FENCE and the end of a run consult: the stores that the live chunk holds are not
yet counted for them (R209, log 19). -/
def Strand.onCounter (t : Strand) (c : Counter) : List OutOp :=
  (t.issuedOn c).filter fun o => !(c == .st && (t.live.any fun d => d.id == o.chunk))

/-- The value of a counter for a WAIT, a FENCE and the end of a run: it falls in issue order (R178, R209). -/
def Strand.count (t : Strand) (c : Counter) : Nat := ((t.onCounter c).dropWhile fun o => o.done).length

/-- A strand with an operation marked complete; the completed ones at the front of their counter leave it (R178). -/
def Strand.complete (t : Strand) (c : Counter) (seq : Nat) : Strand :=
  let ops := t.ops.map fun o => if o.counter == c && o.seq == seq then { o with done := true } else o
  let open' := ((ops.filter fun o => o.counter == c).dropWhile fun o => o.done).map fun o => o.seq
  { t with ops := ops.filter fun o => o.counter != c || open'.contains o.seq }

/-- Whether a register is pending (R179). -/
def Strand.pending (t : Strand) (r : Nat) : Bool := t.marks.any fun m => m.reg == r

/-- An operation issued on a counter by the acting strand. On ld, its destination registers are marked pending with
the operation's number among those of ld; s0 and p0 are never marked (R175, R179). -/
def State.issueOp (st : State) (regs : List Nat) (op : OutOp) : State :=
  st.setMe fun t =>
    { t with
      ops := t.ops ++ [{ op with seq := t.issued }]
      issued := t.issued + 1
      ldIssued := if op.counter == .ld then t.ldIssued + 1 else t.ldIssued
      marks := t.marks ++ (regs.filter fun r => r != 0 && r != 64).map fun r => ⟨r, t.ldIssued⟩ }

/-- Whether a counter would be raised to 63, which stalls issue (R177). -/
def State.counterFull (st : State) (c : Counter) : Bool := 62 ≤ st.me.counter c

/-- The condition of WAIT for one counter (R178, R209): the limit 63 does not consult it. -/
def State.within (st : State) (c : Counter) (limit : Nat) : Bool := limit == 63 || st.me.count c ≤ limit

/-- The marks that a WAIT removes: those of operations its ld limit guarantees complete (R178, R179). -/
def State.clearMarks (st : State) (limit : Nat) : State :=
  if limit = 63 then st
  else st.setMe fun t => { t with marks := t.marks.filter fun m => t.ldIssued ≤ m.seq + limit }

/-! ### Slots, accumulators and leases of a cluster -/

/-- An operand slot of a cluster. -/
def Cluster.slot (c : Cluster) (n : Nat) : Slot := tget {} c.slots n

/-- A cluster with a slot changed. -/
def Cluster.setSlot (c : Cluster) (n : Nat) (f : Slot → Slot) : Cluster := { c with slots := tset {} c.slots n (f (c.slot n)) }

/-- An accumulator of a cluster. -/
def Cluster.acc (c : Cluster) (n : Nat) : Acc := tget {} c.accs n

/-- A cluster with an accumulator changed. -/
def Cluster.setAcc (c : Cluster) (n : Nat) (f : Acc → Acc) : Cluster := { c with accs := tset {} c.accs n (f (c.acc n)) }

/-- The physical slots that a tile command names. -/
def Task.slots (t : Task) : List Nat :=
  match t.kind with
  | .mma ta tb sa sb _ _ => if ta = 14 ∧ tb = 12 then [sa, sb, sb + 1] else [sa, sb]
  | _ => []

/-- The accumulators that a tile command writes: for FP64 the pair (R274). -/
def Task.writes (t : Task) : List Nat :=
  match t.kind with
  | .mma ta _ _ _ _ _ => if ta = 11 then [t.acc, t.acc + 1] else [t.acc]
  | .mmv _ _ _ _ _ _ _ => [t.acc]
  | .zero n => rangeFrom t.acc n
  | .rd _ _ _ _ => []

/-- The accumulators that a tile command names. -/
def Task.accs (t : Task) : List Nat :=
  match t.kind with
  | .mmv _ _ _ x _ _ _ => [t.acc, x]
  | .rd _ _ _ _ => [t.acc]
  | _ => t.writes

/-- The physical slots that a copy command names. -/
def Cmd.slots (c : Cmd) : List Nat :=
  match c.kind with
  | .cpyIn s _ => [s]
  | _ => []

/-- The accumulators that a copy command reads. -/
def Cmd.accs (c : Cmd) : List Nat :=
  match c.kind with
  | .cpyOut a ty _ _ _ _ => if ty = 11 then [a, a + 1] else [a]
  | _ => []

/-- The copy commands of a cluster: in the shadow register, active, finishing, on the wait list, and frozen. -/
def Cluster.copies (c : Cluster) : List Cmd :=
  c.shadow.toList ++ c.active.toList ++ c.finishing ++ c.waiting ++ c.frozen.flatMap fun f => f.copies

/-- The tile commands of a cluster, frozen ones among them. -/
def Cluster.allTasks (c : Cluster) : List Task := c.tasks ++ c.frozen.flatMap fun f => f.tasks

/-- Whether a command that a release waits for still lives (R275). -/
def Cluster.lives (c : Cluster) (id : Nat) : Bool :=
  (c.allTasks.any fun t => t.id == id) || c.copies.any fun m => m.id == id

/-- Releasing slots become Unclaimed once no command reserved before their release still names them (R275). -/
def Cluster.settleSlots (c : Cluster) : Cluster :=
  { c with slots := c.slots.filterMap fun e =>
      let pins := e.2.relPins.filter c.lives
      if e.2.releasing && pins.isEmpty then none else some (e.1, { e.2 with relPins := pins }) }

/-- The commands that name a slot now. -/
def Cluster.namers (c : Cluster) (n : Nat) : List Nat :=
  ((c.allTasks.filter fun t => t.slots.contains n).map fun t => t.id) ++
    (c.copies.filter fun m => m.slots.contains n).map fun m => m.id

/-- The read of an accumulator's last element: the read count falls (R276), and a CPY.OUT with LAST leaves the accumulator Drained
(R289). -/
def Cluster.readDone (c : Cluster) (as : List Nat) (last : Bool) : Cluster :=
  as.foldl (fun c a => c.setAcc a fun x => { st := if last then .drained else x.st, reads := x.reads - 1 }) c

/-- The completion of a copy read of accumulators: with LAST they are Drained, without it Ready, unless a tile command has made them
Busy since (R276). -/
def Cluster.readEnd (c : Cluster) (as : List Nat) (last : Bool) : Cluster :=
  as.foldl (fun c a => c.setAcc a fun x => { x with st := if x.st = .busy then .busy else if last then .drained else .ready }) c

/-- The lease of a holder ends, and the next grant is owed. -/
def State.dropHolder (st : State) (cluster k : Nat) : State :=
  if (st.cluster cluster).holder = some k then
    (st.setCluster cluster fun c => { c with holder := none, lastHolder := k % 128 + 1 }).owe (.leaseGrant cluster)
  else st

/-- A strand's lease is released, or its request cancelled (R277, R278). -/
def State.releaseLease (st : State) (k : Nat) : State :=
  (st.setCluster (clusterOf k) fun c => { c with requests := c.requests.filter fun r => r.strand != k }).dropHolder (clusterOf k) k

end Sys2Proof.Machine
end

