-- ==== Sys2Proof/Machine/Physical.lean ====
section
/-!
DEFINITION. Physical memory as every agent sees it: the local physical map (R9), homes (R63, R66), the registers of the host
function (R374) with the counter windows (R33), the range checks at the target (R22, R23), and the rings of the
memory-side translation units (R397, R398).
-/

namespace Sys2Proof.Machine

/-! ### Physical addresses -/

/-- The package of a fabric physical address (R8). -/
def pkgOfAddr (a : Nat) : Nat := a / 2 ^ 50

/-- The local physical address (R8). -/
def localOf (a : Nat) : Nat := a % 2 ^ 50

/-- Where a local physical address lies (R9). -/
inductive Region where
  | hbm
  | tier (port : Nat)
  | host (port : Nat)
  | reserved
  deriving DecidableEq, Repr

/-- The stack of an HBM address (R66). -/
def stackOf (l : Nat) : Nat :=
  let n := l / 64
  (n % 8) ^^^ (n / 8 % 8) ^^^ (n / 64 % 8)

/-- The region of a local physical address of a package: second-tier memory ends at the attached capacity (R9, R375),
and at service level 1 only stacks 0 and 1 exist, one host port, and no second tier (R384; that it is port 0 is log 134). -/
def regionOf (g : Pkg) (l : Nat) : Region :=
  if l < 2 ^ 39 then if g.level = 1 ∧ 2 ≤ stackOf l then .reserved else .hbm
  else if 0x1000000000000 ≤ l ∧ l < 0x1000000000000 + 6 * 2 ^ 44 then
    let port := (l - 0x1000000000000) / 2 ^ 44
    if (l - 0x1000000000000) % 2 ^ 44 < tget 0 g.tiers port ∧ g.level ≠ 1 then .tier port else .reserved
  else if 0x2000000000000 ≤ l ∧ l < 0x3000000000000 then
    if g.level = 1 ∧ 0x2800000000000 ≤ l then .reserved else .host ((l - 0x2000000000000) / 2 ^ 47)
  else .reserved

/-- The home die within its package (R63). -/
def homeDieNo (l : Nat) : Nat := if l < 2 ^ 39 then stackOf l else bits l 14 12

/-- The home die of a fabric physical address, counted over all packages (R63). -/
def homeOf (a : Nat) : Nat := pkgOfAddr a * 8 + homeDieNo (localOf a)

/-- Whether an address is in host memory (R9). -/
def isHost (a : Nat) : Bool := 0x2000000000000 ≤ localOf a && localOf a < 0x3000000000000

/-- A fabric physical address with the bit that selects the host port taken as 0: the two ports give one storage
address for each host byte (R99). -/
def storageOf (a : Nat) : Nat := if isHost a && nbit a 47 then a - 2 ^ 47 else a

/-- The region of a fabric physical address. -/
def State.regionAt (st : State) (a : Nat) : Region := regionOf (st.pkg (pkgOfAddr a)) (localOf a)

/-- Whether a package answers to a logical number (R15): it does until it is declared down. -/
def State.answers (st : State) (p : Nat) : Bool := p < packageLimit && !(st.pkg p).down

/-- Whether a page of some bytes from an address on lies in a reserved range: attached second-tier memory may end inside it
(R9, R15). -/
def State.pageReserved (st : State) (a size : Nat) : Bool :=
  match st.regionAt a with
  | .reserved => true
  | .tier p => st.regionAt (a + size - 1) != .tier p
  | _ => false

/-- Whether a page table may lie at an address: HBM or second-tier memory of a package that answers (R13, R15). -/
def State.tableAt (st : State) (a : Nat) : Bool :=
  st.answers (pkgOfAddr a) &&
    match st.regionAt a with
    | .hbm => true
    | .tier _ => true
    | _ => false

/-! ### The registers of the host function and the range checks -/

/-- The permission bit that an access needs at the target: R, W or M (R22). -/
def Access.rangeBit (a : Access) : Nat :=
  match a with
  | .store => 2
  | .engineWrite => 2
  | .winWrite => 2
  | .stc => 3
  | .amo => 3
  | .red => 3
  | _ => 1

/-- The unit that counts a block and the block's index, for HBM and second-tier memory (R25, R33). -/
def counterOf (l : Nat) : Option (Nat × Nat) :=
  if l < 2 ^ 39 then some (l / 2 ^ 16 % 8, l / 2 ^ 16 / 8)
  else if 0x1000000000000 ≤ l ∧ l < 0x1000000000000 + 6 * 2 ^ 44 then
    let port := (l - 0x1000000000000) / 2 ^ 44
    let o := (l - 0x1000000000000) % 2 ^ 44
    if port < 3 then some (8, port * 2 ^ 28 + o / 2 ^ 16) else some (9, (port - 3) * 2 ^ 28 + o / 2 ^ 16)
  else none

/-- The key of a counter in a package's table. -/
def counterKey (unit index : Nat) : Nat := unit * 2 ^ 30 + index

/-- The offset of a unit's register block in the host function (R374). -/
def unitBlock (unit : Nat) : Nat := 0x80000 + unit * 0x1000

/-- The number whose 16-bit digits, the lowest first, are some numbers. -/
def fromDigits16 : List Nat → Nat
  | [] => 0
  | x :: xs => x % 2 ^ 16 + 2 ^ 16 * fromDigits16 xs

/-- Whether an offset of the host function lies in the counter window of a unit (R33). -/
def inCounterWindow (off : Nat) : Bool := 0x80000 ≤ off && off < 0x8A000 && 0x800 ≤ off % 0x1000

/-- Eight bytes of a counter window: four counters from CWBASE on, those beyond the unit's memory zero (R33). -/
def Pkg.counterWindow (g : Pkg) (off : Nat) : Word :=
  let unit := (off - 0x80000) / 0x1000
  let base := bits (tget 0 g.regs (unitBlock unit + 0x78)).toNat 29 0 + (off % 0x1000 - 0x800) / 2
  BitVec.ofNat 64 (fromDigits16 ((rangeFrom base 4).map fun i => if i < 2 ^ 30 then tget 0 g.counters (counterKey unit i) else 0))

/-- The package status word (R382). -/
def Pkg.status (g : Pkg) : Nat := g.budget * 2 ^ 32 + g.gap * 2 ^ 16 + g.level

/-- The offset of the package status word, of which BUDGET may be written (R374, R382). -/
def statusAt : Nat := 0x1100000

/-- The word that a package holds behind an offset of its host function, whether or not a read shows it. -/
def State.stored (st : State) (p off : Nat) : Word := tget 0 (st.pkg p).regs off

/-- What a read of the first memory space of a host function gives at an offset (R374): the counter windows and CDUMP, which is
write-only, of the units (R6, R33), TAIL of a doorbell (R347), HEAD in a queue's descriptor (R346), the status word and the ageing
words (R382, R383), the parts of a unit's block that act on a write (R397), else the word that is held. -/
def Pkg.view (g : Pkg) (off : Nat) : Word :=
  if inCounterWindow off then g.counterWindow off
  else if 0x80000 ≤ off ∧ off < 0x8A000 ∧ off % 0x1000 = 0x80 then 0
  else if 0x40000 ≤ off ∧ off < 0x60000 then BitVec.ofNat 64 (tget 0 g.tails ((off - 0x40000) / 8) % 2 ^ 16)
  else if off = statusAt then BitVec.ofNat 64 g.status
  else if statusAt + 8 ≤ off ∧ off < statusAt + 88 then BitVec.ofNat 64 (tget 0 g.eol ((off - statusAt - 8) / 8) % 2 ^ 16)
  else if off < 0x40000 ∧ off % 16 = 8 then
    tget 0 g.regs off ||| BitVec.ofNat 64 (tget 0 g.heads (off / 16) % 2 ^ 16 * 2 ^ 8)
  else tget 0 g.regs off

/-- A register of the host function of a package by offset, as a read shows it (R374). -/
def State.reg (st : State) (p off : Nat) : Word := (st.pkg p).view off

/-- A host read of the second memory space, which is the peer-to-peer window, gives zero (R374). -/
def State.peerWindowRead (_st : State) (_p _off : Nat) : Word := 0

/-- A register of the host function written. -/
def State.setReg (st : State) (p off : Nat) (x : Word) : State :=
  st.setPkg p fun g => { g with regs := tset 0 g.regs off x }

/-- Step 7 of R18: whether the permission table of the target admits an access from a package (R22, R23). -/
def State.rangeAdmits (st : State) (src : Nat) (addr bit : Nat) : Bool :=
  let target := pkgOfAddr addr
  src == target ||
    (List.range 8).any fun i =>
      let off := 0x100000 + 128 * src + 16 * i
      let w0 := (st.reg target off).toNat
      let w1 := (st.reg target (off + 8)).toNat
      let block := bits (localOf addr) 49 16
      nbit w0 0 && bits w0 63 50 == 0 && bits w0 15 4 == 0 && bits w1 63 50 == 0 && bits w1 15 0 == 0 &&
        bits w0 49 16 ≤ bits w1 49 16 && bits w0 49 16 ≤ block && block ≤ bits w1 49 16 && nbit w0 bit

/-! ### Rings -/

/-- Whether a ring is present (R397): LOG from 4 to 15, the base aligned to the ring's size, and the range wholly in HBM or
second-tier memory of the package. At service level 1 the stacks that are reserved lie between the others, line by line (R66,
R384). -/
def State.ringPresent (st : State) (p : Nat) (base log size : Nat) : Bool :=
  4 ≤ log && log ≤ 15 && base % (size * 2 ^ log) == 0 &&
    (match regionOf (st.pkg p) base, regionOf (st.pkg p) (base + size * 2 ^ log - 1) with
     | .hbm, .hbm =>
       (st.pkg p).level != 1 || (List.range (size * 2 ^ log / 64)).all fun i => regionOf (st.pkg p) (base + 64 * i) == .hbm
     | .tier a, .tier b => a == b
     | _, _ => false)

/-- An MSI-X message sent (R356, R398). -/
def State.sendMsix (st : State) (p vec : Nat) : State := st.setPkg p fun g => { g with msix := g.msix ++ [vec] }

/-- The records that a unit's package holds for its fault rings, or for its candidate rings. -/
def Pkg.ringHeld (g : Pkg) (fault : Bool) : List RingRecord := if fault then g.faultHeld else g.candHeld

/-- The held records of one kind changed. -/
def Pkg.setRingHeld (g : Pkg) (fault : Bool) (f : List RingRecord → List RingRecord) : Pkg :=
  if fault then { g with faultHeld := f g.faultHeld } else { g with candHeld := f g.candHeld }

/-- The step by which a unit writes a record that it holds: the write of its tail register, which changes nothing itself (R33,
R397). -/
def ringStep (p unit : Nat) (fault : Bool) : Instr :=
  if fault then .faultRingWrite p unit 0x10 0 else .candidateRingWrite p unit 0x68 0

/-- A record of a unit for its fault ring or candidate ring: it is held until its write has been applied at its home (R397,
R398). -/
def State.postRecord (st : State) (p unit : Nat) (fault : Bool) (record : List Word) : State :=
  let st := st.setPkg p fun g => g.setRingHeld fault fun hs => hs ++ [{ unit := unit, words := record }]
  if st.due.contains (ringStep p unit fault) then st else st.owe (ringStep p unit fault)

/-- Cells from an address upward. -/
def cellsAt (a : Nat) (bs : List Byte) : Tab Byte := (List.range bs.length).zip bs |>.map fun e => (a + e.1, e.2)

end Sys2Proof.Machine
end

