-- ==== Sys2Proof/Machine/Coherence.lean ====
section
/-!
DEFINITION. Copies and homes: signatures (R99, R100), the value at a home and writes to it, with the host's watch
table (R358) and the access counters (R31), stored spans and window words (R45, R49 to R51, R71, R72), and the packets
between holders and homes (R77 to R79).
-/

namespace Sys2Proof.Machine

/-! ### Words and signatures -/

/-- The word number of a storage address. -/
def wordOf (a : Nat) : Nat := a / 8

/-- The line of a word. -/
def lineOfWord (w : Nat) : Nat := w / 8

/-- The words that `n` bytes from an address touch, rounded outward (R99). -/
def wordsOf (a n : Nat) : List Nat := if n = 0 then [] else rangeFrom (a / 8) ((a + n - 1) / 8 + 1 - a / 8)

/-- The 8 bytes of a word from somewhere. -/
def wordCells (w : Nat) (f : Nat → Byte) : Tab Byte := (rangeFrom (w * 8) 8).map fun a => (a, f a)

/-- A list without repeats. -/
def nubNat : List Nat → List Nat
  | [] => []
  | x :: xs => x :: (nubNat xs).filter (· != x)

/-- The fold of a key into 9 bits (R100). -/
def foldKey (k : Nat) : Nat :=
  bits k 8 0 ^^^ bits k 17 9 ^^^ bits k 26 18 ^^^ bits k 35 27 ^^^ bits k 44 36 ^^^ bits k 53 45 ^^^ bits k 56 54

/-- The two bits of a key: one in each bank (R100). -/
def sigOf (k : Nat) : BitVec 1024 :=
  (1 <<< foldKey k) ||| (1 <<< (512 + foldKey (k ^^^ (k / 2 ^ 16))))

/-- Whether a key hits a signature: both of its bits are set (R100). -/
def sigHits (s : BitVec 1024) (k : Nat) : Bool := s &&& sigOf k == sigOf k

/-- Whether two signatures intersect: a shared bit in each bank (R100). -/
def sigMeets (a b : BitVec 1024) : Bool :=
  let c := a &&& b
  c.extractLsb' 0 512 != 0 && c.extractLsb' 512 512 != 0

/-- The window of a bank that holds a pool offset within the scratchpad region. -/
def Bank.windowAt (b : Bank) (off : Nat) : Option (Nat × Window) :=
  b.windows.find? fun e => e.2.pool ≤ off && off < e.2.pool + e.2.len

/-- The window of a bank that holds a global address (R49). -/
def Bank.windowOf (b : Bank) (va : Nat) : Option (Nat × Window) :=
  b.windows.find? fun e => e.2.base ≤ va && va < e.2.base + e.2.len

/-- The storage address of a window's global address, by the translation that SPMAP recorded (R99). -/
def Window.phys (w : Window) (va : Nat) : Nat := storageOf (tget 0 w.pages (va / 4096) + va % 4096)

/-- The bank of a core whose scratchpad holds a pool offset: the shadow bank has the upper half (R39). -/
def bankAt (core off : Nat) : Nat := core * 2 + (if off < 2 ^ 18 then 0 else 1)

/-- The storage address in memory of a pool byte that lies in a window. -/
def State.windowPhys (st : State) (a : Nat) : Option Nat :=
  let b := st.bank (bankAt (poolCore a) (poolOff a))
  let off := poolOff a - b.kbReg
  match b.windowAt off with
  | some (_, w) => some (w.phys (w.base + (off - w.pool)))
  | none => none

/-- The global address at which a window maps a storage address of memory, if it maps it. -/
def Window.vaOf (w : Window) (a : Nat) : Option Nat :=
  w.pages.findSome? fun e =>
    let f := storageOf e.2
    let va := e.1 * 4096 + (a - f)
    if f ≤ a && a < f + 4096 && w.base ≤ va && va < w.base + w.len then some va else none

/-- The storage address of the pool byte that holds a global address of a window of a bank. -/
def State.windowPool (st : State) (bank : Nat) (w : Window) (va : Nat) : Nat :=
  poolKey (bank / 2) ((st.bank bank).kbReg + w.pool + (va - w.base))

/-- The signature key of a storage word (R99): bits 59:3 of the memory address, a window word by its translation, a
pool word outside every window by die, cluster, core and scratchpad offset. -/
def State.keyOf (st : State) (w : Nat) : Nat :=
  let a := w * 8
  if isPool a then
    match st.windowPhys a with
    | some p => p / 8
    | none =>
      let c := poolCore a
      let b := st.bank (bankAt c (poolOff a))
      0x1FF * 2 ^ 48 + c / 16 / 18 % 8 * 2 ^ 45 + c / 16 % 18 * 2 ^ 40 + c % 16 * 2 ^ 36 + (poolOff a - b.kbReg) / 8 % 2 ^ 15
  else w

/-- The words of a stored span. -/
def Span.words (x : Span) : List Nat := rangeFrom (x.line * 8 + x.first) (x.data.length / 8)

/-- The byte of a span at a storage address, if it holds it. -/
def Span.byteAt (x : Span) (a : Nat) : Option Byte :=
  let b := x.line * 64 + x.first * 8
  if b ≤ a && a < b + x.data.length then some (x.data.getD (a - b) 0) else none

/-! ### The value at a home -/

/-- The state of a host line in its home die's cache (R91). -/
def State.mesiOf (st : State) (line : Nat) : Mesi := tget .i (st.pkg (pkgOfAddr (line * 64))).mesi line

/-- The state with a host line's cache state set. -/
def State.setMesi (st : State) (line : Nat) (x : Mesi) : State :=
  st.setPkg (pkgOfAddr (line * 64)) fun g => { g with mesi := tset .i g.mesi line x }

/-- The byte that a write posted to a port carries and that has not yet reached the host, the newest first (R94, R121). -/
def State.postedByte (st : State) (a : Nat) : Option Byte :=
  st.net.reverse.findSome? fun p => if p.kind == .posted then tget? p.cells a else none

/-- The byte at its home, as a device access finds it: the device cache of a host line that holds it, else a posted write on
the way to the port, behind which a device read travels (R122), else memory. -/
def State.homeByte (st : State) (a : Nat) : Byte :=
  if isHost a then
    if st.mesiOf (a / 64) != .i then tget 0 (st.pkg (pkgOfAddr a)).cache a else (st.postedByte a).getD (st.mem.read a)
  else st.mem.read a

/-- Bytes at their homes. -/
def State.homeBytes (st : State) (a n : Nat) : List Byte := (rangeFrom a n).map st.homeByte

/-- A byte written at its home. -/
def State.putByte (st : State) (a : Nat) (b : Byte) : State :=
  if isHost a && st.mesiOf (a / 64) != .i then
    st.setPkg (pkgOfAddr a) fun g => { g with cache := tset 0 g.cache a b }
  else { st with mem := st.mem.write a b }

/-- The byte that the owner of a word in M holds: a dirty window word, one snapshotted and not yet written back, a span
of a die's peer store, or a write-back that is in flight (R52, R74, R78, R87). -/
def State.ownedByte (st : State) (a : Nat) : Option Byte :=
  let dirty := st.banks.findSome? fun b => b.2.windows.findSome? fun w =>
    match w.2.vaOf a with
    | some va =>
      if w.2.cls = 3 ∧ w.2.dirty.contains ((va - w.2.base) / 8) = true then some (st.mem.read (st.windowPool b.1 w.2 va))
      else none
    | none => none
  let queued := st.banks.findSome? fun b => b.2.winQueue.reverse.findSome? fun q =>
    if q.words.contains (a / 8) then tget? q.cells (q.va + a % 64) else none
  let stored := st.dies.findSome? fun d => d.2.peer.findSome? fun x => if x.owned then x.byteAt a else none
  let sent := st.net.reverse.findSome? fun p => match p.kind with
    | .writeBack _ => tget? p.cells a
    | .recallAns => tget? p.cells a
    | _ => none
  ((dirty.orElse fun _ => queued).orElse fun _ => stored).orElse fun _ => sent

/-- The coherent value of a byte: its owner's where its word is in M, or is being recalled, else its home's (R74). -/
def State.currentByte (st : State) (a : Nat) : Byte :=
  let x := tget .u (st.entry (a / 64)).ws (a / 8 % 8)
  if x == .m || x == .tr then (st.ownedByte a).getD (st.homeByte a) else st.homeByte a

/-- The coherent values of bytes. -/
def State.currentBytes (st : State) (a n : Nat) : List Byte := (rangeFrom a n).map st.currentByte

/-- The coherent number of bytes (R5). -/
def State.currentNat (st : State) (a n : Nat) : Nat := fromBytes (st.currentBytes a n)

/-- Whether a watch entry's condition holds for a word (R357). -/
def watchHolds (mode : Nat) (word value : Nat) : Bool :=
  match mode with
  | 0 => word != value
  | 1 => value ≤ word
  | 2 => word == value
  | _ => false

/-- An armed watch entry at a register offset is tested against its word of HBM or second-tier memory, which an owner may hold,
and fires (R357, R358). -/
def State.testWatch (st : State) (p off : Nat) : State :=
  let w := (st.reg p off).toNat
  let addr := p * 2 ^ 50 + bits w 49 3 * 8
  let placed := match st.regionAt addr with
    | .hbm => true
    | .tier _ => true
    | _ => false
  if nbit w 63 && placed && watchHolds (bits w 62 61) (st.currentNat addr 8) (st.reg p (off + 8)).toNat then
    (st.setReg p off (BitVec.ofNat 64 (w - 2 ^ 63))).sendMsix p (bits w 60 50)
  else st

/-- The armed watch entries of a package that watch one of some words. -/
def State.watchersOf (st : State) (p : Nat) (words : List Nat) : List Nat :=
  (st.pkg p).regs.filterMap fun e =>
    if 0x60000 ≤ e.1 && e.1 < 0x70000 && e.1 % 16 == 0 && nbit e.2.toNat 63 &&
        words.contains ((p * 2 ^ 50 + bits e.2.toNat 49 3 * 8) / 8) then some e.1 else none

/-- The lines of pages that a package moves are marked as they are written (R89). -/
def State.markMoves (st : State) (p : Nat) (words : List Nat) : State :=
  if (st.pkg p).moves.isEmpty then st
  else
    st.setPkg p fun g =>
      { g with
        moves := g.moves.map fun m =>
          if m.phase = 0 then m
          else
            let hit := (nubNat (words.map lineOfWord)).filter fun l => m.old ≤ l * 64 && l * 64 < m.old + m.size
            { m with marked := nubNat (m.marked ++ hit) } }

/-- The watch entries of some words are tested after an apply of a write to them (R358). -/
def State.testWords (st : State) (words : List Nat) : State :=
  st.each (nubNat (words.map fun w => pkgOfAddr (w * 8))) fun st p =>
    st.each (st.watchersOf p words) fun st off => st.testWatch p off

/-- Cells written at their homes as one apply, after which the watch entries of the words are tested (R358). -/
def State.applyCells (st : State) (cells : Tab Byte) : State :=
  let st := st.each cells fun st c => st.putByte c.1 c.2
  let words := nubNat (cells.map fun c => c.1 / 8)
  (st.each (nubNat (words.map fun w => pkgOfAddr (w * 8))) fun st p => st.markMoves p words).testWords words

/-! ### Access counters -/

/-- The reverse-map word of a block's frame: the address of the leaf that maps the page whose first frame it is (R33). -/
def State.reverseWord (st : State) (p unit index frame : Nat) : Option Nat :=
  let base := bits (st.reg p (unitBlock unit + 0xF0)).toNat 49 3 * 8
  let w := st.mem.readNat (p * 2 ^ 50 + base + 8 * (16 * index + frame)) 8
  if nbit w 0 then some (bits w 59 4 * 16) else none

/-- The page that holds a block, by the reverse map: the unit that owns its first frame, its leaf and its size code. A page of
2 MiB has its word in the map of the unit of its first block (R33, log 42). -/
def State.reverseOf (st : State) (p block : Nat) : Option (Nat × Nat × Nat) :=
  let sized (b : Nat) : Option (Nat × Nat × Nat) :=
    match counterOf (b * 2 ^ 16) with
    | none => none
    | some (unit, index) =>
      (st.reverseWord p unit index 0).map fun leaf => (unit, leaf, bits (st.mem.readNat leaf 8) 9 8)
  match sized block with
  | some r => some r
  | none =>
    match sized (block / 32 * 32) with
    | some (unit, leaf, sz) => if sz = 2 then some (unit, leaf, sz) else none
    | none => none

/-- Whether a counter's value makes its block a candidate: 1 promote, 2 demote (R32, R33). -/
def State.candidateKind (st : State) (p unit value : Nat) : Option Nat :=
  let ctl := (st.reg p (unitBlock unit + 0x40)).toNat
  if 8 ≤ unit then (if bits ctl 31 16 < value then some 1 else none)
  else if value < bits ctl 47 32 && (st.reg p (unitBlock unit + 0x48)).toNat < (st.reg p (unitBlock unit + 0x50)).toNat
  then some 2 else none

/-- The record of a candidate whose move has ended or been refused with an outcome (R33). -/
def State.postCandidate (st : State) (p unit block sz outcome kind value frame : Nat) : State :=
  st.postRecord p unit false
    [BitVec.ofNat 64 (block * 2 ^ 16 + sz * 2 ^ 8 + outcome * 2 ^ 4 + kind),
     BitVec.ofNat 64 (value * 2 ^ 48 + (if outcome = 1 then bits frame 49 12 else 0))]

/-- A block becomes a candidate: posted at once when automatic migration is off or the page is excluded, else its move is
owed by the unit that owns the page's first frame (R32, R33). -/
def State.becomeCandidate (st : State) (p unit index block kind value : Nat) : State :=
  let st := st.setPkg p fun g => { g with posted := counterKey unit index :: g.posted }
  let page := st.reverseOf p block
  let sz := (page.map fun r => r.2.2).getD 0
  if nbit (st.reg p (unitBlock unit + 0x40)).toNat 0 = false then st.postCandidate p unit block sz 0 kind value 0
  else
    match page with
    | none => st.postCandidate p unit block 0 3 kind value 0
    | some (unit, leaf, sz) =>
      if nbit (st.mem.readNat (leaf + 8) 8) 16 || sz == 3 then st.postCandidate p unit block sz 3 kind value 0
      else
        let m : Move := { unit := unit, leaf := leaf, kind := kind, block := block, value := value }
        (st.setPkg p fun g => { g with moves := g.moves ++ [m] }).owe (.pageMove p unit leaf 0)

/-- An access to a block is counted when it reaches memory (R31), and the block may become a candidate. -/
def State.countAccess (st : State) (a : Nat) : State :=
  match counterOf (localOf a) with
  | none => st
  | some (unit, index) =>
    if Config.l2Misses st.tick (a / 64) = false then st
    else
      let p := pkgOfAddr a
      let key := counterKey unit index
      let value := min 65535 (tget 0 (st.pkg p).counters key + 1)
      let st := st.setPkg p fun g => { g with counters := tset 0 g.counters key value }
      match st.candidateKind p unit value with
      | some kind =>
        if (st.pkg p).posted.contains key then st
        else st.becomeCandidate p unit index (localOf a / 2 ^ 16) kind value
      | none => st

/-! ### Spans -/

/-- Whether a span overlaps some words. -/
def Span.overlaps (x : Span) (ws : List Nat) : Bool := x.words.any ws.contains

/-- A span with bytes of cells put in place. -/
def Span.update (x : Span) (cells : Tab Byte) : Span :=
  { x with data := (List.range x.data.length).map fun i =>
      (tget? cells (x.line * 64 + x.first * 8 + i)).getD (x.data.getD i 0) }

/-- The core whose L1 region, or fused slice, holds a line for a core (R46, R69). -/
def State.l1Of (st : State) (bank a : Nat) : Nat :=
  if (st.bank bank).fused then bank / 2 / 16 * 16 + bits a 9 6 else bank / 2

/-- The first stored span that holds a byte. -/
def spanByte (xs : List Span) (a : Nat) : Option Byte := xs.findSome? fun x => x.byteAt a

/-- Whether the home of an address is on another package than a die. -/
def isPeer (die a : Nat) : Bool := pkgOfAddr a != pkgOfDie die

/-- The local copy of a byte for a strand's core (R64, R70, R87): an L1 span, or for a line of another package a span
of the die's peer store; only lines of classes PRIV, RO and SPAN have copies. -/
def State.localByte (st : State) (k cls a : Nat) : Option Byte :=
  if cls = 0 ∨ cls = 1 ∨ cls = 3 then
    match spanByte (st.core (st.l1Of (bankOf k) a)).l1 a with
    | some b => some b
    | none => if isPeer (dieOf k) a then spanByte (st.die (dieOf k)).peer a else none
  else none

/-- The holder that the home records for a strand's copy of an address (R71). -/
def State.holderOf (st : State) (k a : Nat) : Agent :=
  if isPeer (dieOf k) a then .peer (dieOf k) else .core (st.l1Of (bankOf k) a)

/-! ### Holders at the home -/

/-- The group of an agent in coarse mode (R73). -/
def groupOf (home : Nat) (g : Agent) : Nat :=
  let at' (die : Nat) : Nat := if pkgOfDie die = pkgOfDie home then die % 8 else 8 + pkgOfDie die % 56
  match g with
  | .core c => at' (c / 16 / 18)
  | .redbuf c => at' (c / 18)
  | .peer d => 8 + pkgOfDie d % 56

/-- The state of a word of a line. -/
def DirEntry.state (e : DirEntry) (i : Nat) : WState := tget .u e.ws i

/-- The agents for which a group bit stands (R73): every core and reduction buffer of a die of the home package, or every
holder of the packages whose number modulo 56 is that of the group. -/
def groupAgents (home g : Nat) : List Agent :=
  if g < 8 then
    let d := pkgOfDie home * 8 + g
    ((rangeFrom (d * 288) 288).map Agent.core) ++ (rangeFrom (d * 18) 18).map Agent.redbuf
  else
    ((rangeFrom 0 packageLimit).filter fun p => p % 56 == g - 8 && p != pkgOfDie home).flatMap fun p =>
      ((rangeFrom (p * 8) 8).map Agent.peer) ++ (rangeFrom (p * 144) 144).map Agent.redbuf

/-- Agents without repeats. -/
def nubAgents : List Agent → List Agent
  | [] => []
  | x :: xs => x :: (nubAgents xs).filter (· != x)

/-- A holder recorded for words: a fourth pointer changes the entry to coarse mode, in which every marked holder is taken to
hold all eight words (R73, R75). -/
def DirEntry.addHolder (e : DirEntry) (home : Nat) (g : Agent) (ws : List Nat) : DirEntry :=
  let all := rangeFrom 0 8
  if e.coarse then
    { e with
      groups := nubNat (groupOf home g :: e.groups)
      holders := e.holders.filter (fun h => h.agent != g) ++ [⟨g, all⟩] }
  else if e.holders.any fun h => h.agent == g then
    { e with holders := updateFirst (fun h => h.agent == g) (fun h => { h with mask := nubNat (ws ++ h.mask) }) e.holders }
  else if e.holders.length < 3 then { e with holders := e.holders ++ [⟨g, ws⟩] }
  else
    { e with
      coarse := true
      groups := nubNat (groupOf home g :: e.holders.map fun h => groupOf home h.agent)
      holders := e.holders.map (fun h => { h with mask := all }) ++ [⟨g, all⟩] }

/-- The recorded agents whose mask takes in one of some word indexes (R73). -/
def DirEntry.holdersOf (e : DirEntry) (ws : List Nat) : List Agent :=
  (e.holders.filter fun h => h.mask.any ws.contains).map fun h => h.agent

/-- The agents to which an invalidation of some words goes: in pointer mode the holders, in coarse mode every agent of the
marked groups (R73, R75). -/
def DirEntry.targets (e : DirEntry) (home : Nat) (ws : List Nat) : List Agent :=
  let hs := e.holdersOf ws
  if e.coarse then hs ++ (e.groups.flatMap (groupAgents home)).filter fun g => !hs.contains g else hs

/-- The owner of a word in M or TR. -/
def DirEntry.owner (e : DirEntry) (i : Nat) : Option Agent := (tget? e.owned i).orElse fun _ => (e.holdersOf [i]).head?

/-- Word states set. -/
def DirEntry.setStates (e : DirEntry) (is : List Nat) (x : WState) : DirEntry :=
  { e with ws := is.foldl (fun t i => tset .u t i x) e.ws }

/-- Every holder but one loses some words, and the words their owner; an entry with every word in U or M returns to pointer
mode, with the owners as its pointers (R75). -/
def DirEntry.dropHolders (e : DirEntry) (ws : List Nat) (keep : Option Agent) : DirEntry :=
  let owned := e.owned.filter fun o => !ws.contains o.1 || some o.2 == keep
  let all := (List.range 8).all fun i => e.state i == .u || e.state i == .m
  if e.coarse then
    let mine := (rangeFrom 0 8).filter fun i => e.state i == .m
    let agents := nubAgents (mine.filterMap fun i => tget? owned i)
    if all && agents.length ≤ 3 then
      { e with
        coarse := false, groups := [], owned := owned
        holders := agents.map fun g => ⟨g, mine.filter fun i => tget? owned i == some g⟩ }
    else { e with owned := owned }
  else
    let hs := e.holders.map fun h => if some h.agent == keep then h else { h with mask := h.mask.filter fun i => !ws.contains i }
    { e with owned := owned, holders := hs.filter fun h => !h.mask.isEmpty }

/-- A word comes to be owned by an agent, in state M. -/
def DirEntry.own (e : DirEntry) (home : Nat) (g : Agent) (is : List Nat) : DirEntry :=
  let e := (e.setStates is .m).addHolder home g is
  { e with owned := is.foldl (fun t i => tput t i g) e.owned }

/-! ### Packets -/

/-- The step that takes a packet (R77 to R79, R85). -/
def PKind.event (k : PKind) (id : Nat) : Instr :=
  match k with
  | .read => .homeReadRequest id
  | .own => .homeOwnershipRequest id
  | .writeBack _ => .homeWriteBack id
  | .recallAns => .recallAnswer id
  | .inval => .invalidationArrival id
  | .recall _ => .recallArrival id
  | .fill => .fillAnswer id
  | .confirmReq => .confirmRequest id
  | .confirmAns => .confirmAnswer id
  | .combineReq => .combineRequest id
  | .partialAns _ _ => .combinePartialArrival id
  | .grant => .fillAnswer id
  | .piece => .homeOwnershipRequest id
  | .posted => .homeWriteBack id

/-- Whether a packet travels from a home to a holder (R78). -/
def PKind.toHolder (k : PKind) : Bool :=
  match k with
  | .inval => true
  | .recall _ => true
  | .fill => true
  | .confirmAns => true
  | .combineReq => true
  | .grant => true
  | _ => false

/-- The source package of a packet's holder or requester. -/
def Packet.sourcePackage (p : Packet) : Nat :=
  match p.holder with
  | .core c => pkgOfDie (dieOfCluster (c / 16))
  | .redbuf c => pkgOfDie (dieOfCluster c)
  | .peer d => pkgOfDie d

/-- Whether a packet is addressed to a package that is declared down (R88). -/
def State.lost (st : State) (p : Packet) : Bool :=
  if p.kind.toHolder then (st.pkg p.sourcePackage).down else (st.pkg (pkgOfDie p.home)).down

/-- A packet sent: it is in flight and its step is owed; a package that is declared down receives none. -/
def State.send (st : State) (p : Packet) : State :=
  if st.lost p then st
  else
    let (id, st) := st.fresh
    { st with net := st.net ++ [{ p with id := id }] }.owe (p.kind.event id)

/-- The packet of a number. -/
def State.packet (st : State) (id : Nat) : Option Packet := st.net.find? fun p => p.id == id

/-- The fabric address of the first byte of a packet's line as its access named it: through host port 1 it has local address bit
47 set, which the range check of the target covers (R9, R22). -/
def Packet.target (p : Packet) : Nat := p.line * 64 + if p.port1 && isHost (p.line * 64) then 2 ^ 47 else 0

/-- A packet taken out of flight. -/
def State.dropPacket (st : State) (id : Nat) : State := { st with net := st.net.filter fun p => p.id != id }

/-- Whether two holders are reached over one channel from a home (R71, R78): a die stands for each of its cores, which the
invalidations of PRIV lines reach through their site (R82). -/
def Agent.sameChannel (a b : Agent) : Bool :=
  a == b || match a, b with
    | .core c, .peer d => dieOfCluster (c / 16) == d
    | .peer d, .core c => dieOfCluster (c / 16) == d
    | _, _ => false

/-- Whether an earlier packet of the same channel has not yet been delivered (R78). -/
def State.behind (st : State) (p : Packet) : Bool :=
  (st.net.takeWhile fun q => q.id != p.id).any fun q =>
    q.kind.toHolder && q.home == p.home && q.holder.sameChannel p.holder

/-- Whether an earlier packet of a holder to a home has not yet arrived that must come before one of its own: its data and its
partials (R77, R85). -/
def State.behindData (st : State) (p : Packet) : Bool :=
  (st.net.takeWhile fun q => q.id != p.id).any fun q =>
    q.home == p.home && q.holder == p.holder && q.line == p.line && match q.kind with
      | .writeBack _ => true
      | .recallAns => true
      | .partialAns _ _ => true
      | _ => false

/-- Whether an earlier request for one of the words waits at the home (R77), or an access of an engine or of the host. A request
that waits for what the requester itself holds is not waited for (R107). -/
def State.queuedBefore (st : State) (p : Packet) : Bool :=
  let e := st.entry p.line
  let mine := (e.sole.filter fun t => t.2 == p.strand).map (fun t => t.1) ++
    (e.tw.filter fun t => t.2.1 == p.strand && t.2.2 == p.chunk).map fun t => t.1
  let older (n : Nat) : Bool := match p.stamp with
    | some b => n < b
    | none => true
  (st.net.any fun q => q.id != p.id && q.line == p.line && q.words.any p.words.contains &&
    !(q.words.any fun w => mine.contains (w % 8)) && q.stamp.any older) ||
  e.places.any fun x => x.2.1.any (fun i => p.words.contains (p.line * 8 + i) && !mine.contains i) && older x.2.2

/-- Whether an access of an engine or of the host, by its key, finds earlier accesses waiting for its words of a line (R77). -/
def State.placedAfter (st : State) (line : Nat) (idx : List Nat) (key : List Nat) : Bool :=
  let e := st.entry line
  let mine := (e.places.find? fun x => x.1 == key).map fun x => x.2.2
  let older (n : Nat) : Bool := match mine with
    | some b => n < b
    | none => true
  (st.net.any fun q => q.line == line && (q.words.any fun w => idx.contains (w % 8)) && q.stamp.any older) ||
    e.places.any fun x => x.1 != key && x.2.1.any idx.contains && older x.2.2

/-- An access of an engine or of the host takes its place in the order of arrival, once (R77). An access without a key takes
none. -/
def State.takePlace (st : State) (line : Nat) (idx : List Nat) (key : List Nat) : State :=
  if key.isEmpty || (st.entry line).places.any fun x => x.1 == key then st
  else
    let (n, st) := st.fresh
    st.setEntry line fun e => { e with places := e.places ++ [(key, idx, n)] }

/-- Whether an access of an engine or of the host waits at the home of a line: it has then been admitted (R24, R77). -/
def State.holdsPlace (st : State) (line : Nat) (key : List Nat) : Bool :=
  !key.isEmpty && (st.entry line).places.any fun x => x.1 == key

/-- The places of an access are given up: it has been served, or its command has ended. -/
def State.leavePlaces (st : State) (key : List Nat) : State :=
  if key.isEmpty then st
  else
    { st with dir := st.dir.filterMap fun x =>
        let e := { x.2 with places := x.2.places.filter fun y => y.1 != key }
        if e = {} then none else some (x.1, e) }

/-- A packet takes its place in the order of arrival at the home, once (R77); it has then been admitted (R24). -/
def State.stampPacket (st : State) (id : Nat) : State :=
  let (n, st) := st.fresh
  { st with net := updateFirst (fun p => p.id == id && p.stamp.isNone) (fun p => { p with stamp := some n, admitted := true }) st.net }

/-- A device atomic has executed on a line: its home die records it (R96). -/
def State.noteAtomic (st : State) (line : Nat) : State :=
  st.setDie (homeOf (line * 64)) fun d => { d with atomics := tput (d.atomics.filter fun e => st.time < e.2 + 4096) line st.time }

/-- Invalidations of words sent to holders (R77, R79). `by_` is the strand that wrote, whose own later chunks read the
written bytes from its version (R98): it is kept in the packet, with 1 in `seq`. -/
def State.sendInvals (st : State) (home line : Nat) (ws : List Nat) (targets : List Agent) (by_ : Option Nat) : State :=
  st.each targets fun st g =>
    st.send { id := 0, kind := .inval, home := home, holder := g, line := line, words := ws, strand := by_.getD 0,
              seq := if by_.isSome then 1 else 0 }

/-- The compute dies on which a launch has members (R82). -/
def State.sites (st : State) (lkey : Nat) : List Nat :=
  match st.launch lkey with
  | some l => nubNat (l.remap.map fun e => e.2 / 18)
  | none => []

/-- What a write through to words sends out (R77, R79, R82): invalidations to the other holders, to the cores of reader marks of
other strands and to those of other chunks whose read signature a key hits (R100, log 101), and for PRIV to every site of the
owning launch. The words' new state follows. -/
def State.writeThrough (st : State) (line : Nat) (idx : List Nat) (cls owner : Nat) (keep : Option Agent) (by_ : Option Nat) :
    State :=
  let home := homeOf (line * 64)
  let e := st.entry line
  let ws := idx.map fun i => line * 8 + i
  let others := (e.targets home idx).filter fun g => some g != keep
  let marked := (e.marks.filter fun m => idx.contains m.1 && some m.2.1 != by_).map fun m =>
    Agent.core (coreOf m.2.1)
  let hit := (st.strands.filter fun t => some t.1 != by_ && t.2.chunks.any fun c => ws.any (sigHits c.rsig)).map fun t =>
    Agent.core (coreOf t.1)
  let marks := (marked ++ hit).foldl (fun l g => if l.contains g || others.contains g then l else l ++ [g]) []
  let st := st.sendInvals home line ws (others ++ marks) by_
  let st := if cls = 0 then
      st.sendInvals home line ws ((st.sites owner).map Agent.peer) by_
    else st
  let kept := match keep with
    | some g => e.holders.any fun h => h.agent == g && h.mask.any idx.contains
    | none => false
  st.setEntry line fun e =>
    ((e.setStates (idx.filter fun i => e.state i != .p) .u).setStates (if kept then idx else []) .s).dropHolders idx keep

end Sys2Proof.Machine
end

