-- ==== Sys2Proof/Machine/Chunks.lean ====
section
/-!
DEFINITION. The life of a chunk up to its commit point: tickets (R103), squashes (R104), sole-commit mode (R107),
sealing and gaining (R102).
-/

namespace Sys2Proof.Machine

/-- The order of tickets (R103). -/
def Ticket.before (a b : Ticket) : Bool := a.time < b.time || (a.time == b.time && a.strand < b.strand)

/-- A 64-bit register with a field counted up, modulo the field's width. -/
def countField (x : Word) (hi lo : Nat) : Word :=
  let v := (bits x.toNat hi lo + 1) % 2 ^ (hi + 1 - lo)
  BitVec.ofNat 64 (x.toNat - bits x.toNat hi lo * 2 ^ lo + v * 2 ^ lo)

/-- What one chunk holds is given back: its words in TW, its marks, the holds of its loads if it runs in sole-commit mode, its
pool words, its places among refused requests, and its requests in flight. A window fill goes on: a squash does not undo it
(R104). -/
def State.releaseChunk (st : State) (k id : Nat) : State :=
  let alone := (st.soleOf k id).isSome
  { st with
    dir := st.dir.filterMap fun (l, e) =>
      let e := { e with
        tw := e.tw.filter fun t => !(t.2.1 == k && t.2.2 == id)
        marks := e.marks.filter fun t => !(t.2.1 == k && t.2.2 == id)
        sole := if alone then e.sole.filter fun t => t.2 != k else e.sole }
      if e = {} then none else some (l, e)
    cores := st.cores.map fun c =>
      if c.2.poolLocks.isEmpty then c
      else (c.1, { c.2 with poolLocks := c.2.poolLocks.filter fun x => !(x.2.1 == k && x.2.2 == id) })
    refused := st.refused.filter fun r => r.tag / 2 ^ 64 != id || r.tag < 2 ^ 64
    net := st.net.filter fun p =>
      !(p.strand == k && p.chunk == id && p.win.isNone && (p.kind == .read || p.kind == .own || p.kind == .confirmReq)) }

/-- What a discarded chunk had reserved is given back: table entries and shadow register (R279, R285), course numbers
(R308), and the windows it bound (R234). A releasing slot that only its commands named is then free (R275). -/
def State.unreserve (st : State) (k : Nat) (c : Chunk) : State :=
  let st := st.setCluster (clusterOf k) fun x =>
    Cluster.settleSlots
      { x with
        tasks := x.tasks.filter fun t => !(t.strand == k && t.chunk == c.id && !t.applied)
        copyQueue := x.copyQueue.filter fun q => q != (k, c.id)
        shadow := match x.shadow with
          | some m => if m.strand == k && m.chunk == c.id && !m.applied then none else some m
          | none => none }
  let st := { st with cmds := st.cmds.filter fun e => !(e.2.strand == k && e.2.chunk == c.id && !e.2.applied) }
  let st := st.each c.held fun st h =>
    match h with
    | .cbegin num => st.setPkg (pkgOf k) fun g =>
        let x : Course := tget {} g.courses num
        { g with courses := tset {} g.courses num { x with st := .closed } }
    | _ => st
  st.setBank (bankOf k) fun b =>
    { b with windows := c.maps.foldl (fun t w => terase t w) b.windows }

/-- The chunks of a strand from a chunk on: those that fall with it when it is discarded. -/
def Strand.fallen (t : Strand) (id : Nat) : List Chunk :=
  (t.chunks.takeWhile fun c => c.id != id) ++ (t.chunks.filter fun c => c.id == id)

/-- The pending watch entries that a chunk asked about are asked about again by whoever needs them: the chunk is discarded, and its
requests with it (R104, R110). -/
def Strand.forgetAsked (t : Strand) (id : Nat) : Strand :=
  if t.watches.any fun w => w.asked && w.by_ == id && w.st == .pending then
    t.mapWatches fun w => if w.asked && w.by_ == id && w.st == .pending then { w with asked := false } else w
  else t

/-- A chunk is discarded, with every later chunk of its strand, and the strand goes back to its checkpoint (R104). -/
def State.discard (st : State) (k id : Nat) : State :=
  match (st.strand k).chunks.find? fun c => c.id == id with
  | none => st
  | some c =>
    let fallen := (st.strand k).fallen id
    let st := st.each fallen fun st d => (st.releaseChunk k d.id).unreserve k d
    st.setStrand k fun t =>
      let t := fallen.foldl (fun t d => { t with ops := t.ops.filter fun o => o.chunk != d.id }) t
      let t := { t.rollback c with chunks := t.chunks.filter fun d => !(fallen.any fun f => f.id == d.id) }
      fallen.foldl (fun t d => t.forgetAsked d.id) t

/-- The die's commit token is taken by the waiting strand with the oldest sole ticket (R107). -/
def State.grantToken (st : State) (d : Nat) : State :=
  match (st.die d).token with
  | some _ => st
  | none =>
    let waiting := (st.strands.filter fun e => dieOf e.1 == d && e.2.run == .token && !(st.bank (bankOf e.1)).frozen).filterMap fun e =>
      e.2.sole.map fun t => (e.1, t)
    match waiting.foldl (fun (best : Option (Nat × Ticket)) x =>
        match best with
        | none => some x
        | some b => if x.2.before b.2 then some x else some b) none with
    | none => st
    | some (k, _) =>
      (st.setDie d fun x => { x with token := some k }).setStrand k fun t => { t with run := .running }

/-- A squash (R104), of a chunk that has not reached its commit point: the chunk is discarded and runs again from its first
instruction; after the fourth in a row it runs in sole-commit mode (R107). `exact` is the key of the word that raised it, when
one did: a squash by a key that a log of fewer than 64 words does not contain is counted as false (R101). -/
def State.squash (st : State) (k id : Nat) (exact : Option Nat) : State :=
  match (st.strand k).chunks.find? fun c => c.id == id && !c.committed with
  | none => st
  | some c =>
    let false' := match exact with
      | some key => c.log.length < 64 && !c.log.contains key
      | none => false
    let t := st.strand k
    let enters := t.squashes + 1 == 4 && t.sole.isNone
    let st := st.setCore (coreOf k) fun x =>
      let r := countField x.ksquash 23 0
      let r := if false' then countField r 47 24 else r
      { x with ksquash := if enters then countField r 63 48 else r }
    let now : Ticket := ⟨st.time, k⟩
    let st := (st.discard k id).setStrand k fun t =>
      let held := (st.die (dieOf k)).token == some k
      { t with
        squashes := t.squashes + 1
        sole := if enters then some now else t.sole
        run := if (enters || t.sole.isSome) && !held then .token else .running }
    st.grantToken (dieOf k)

/-- The chunks of a strand from the oldest on that are hit by keys (R104); the oldest is squashed. -/
def State.squashKeys (st : State) (k : Nat) (keys : List Nat) : State :=
  match (st.strand k).chunks.reverse.findSome? fun c =>
      if c.committed then none else (keys.find? fun key => sigHits c.rsig key).map fun key => (c.id, key) with
  | some (id, key) => st.squash k id (some key)
  | none => st

/-- The strands whose core has a state entry, on some cores. -/
def State.strandsOn (st : State) (p : Nat → Bool) : List Nat := (st.strands.filter fun e => p e.1).map fun e => e.1

/-- Whether a strand's run is ordered (R108). -/
def Strand.ordered (t : Strand) : Bool := t.info.ord && t.run != .free

/-- The live chunk of a strand is sealed: it takes its ticket, an ordered run's with its timestamp (R102, R103, R108),
and its commit is owed. -/
def State.seal (st : State) (k : Nat) : State :=
  let t := st.strand k
  match t.live with
  | none => st
  | some _ =>
    let time := if t.ordered then t.info.ts else st.time
    let st := st.setStrand k fun t => t.setLive fun c => { c with sealed := true, ticket := some ⟨time, k⟩ }
    if st.due.contains (.commitPoint k) then st else st.owe (.commitPoint k)

/-- The acting strand's chunk ends after this instruction (EndChunk, R97). -/
def State.endChunk (st : State) : State := st.seal st.cur

/-- The words of memory that a chunk must own (R102): its written words of memory, but for its updates of RED lines, and the
words of SPAN windows. -/
def State.ownWords (st : State) (c : Chunk) : List Nat :=
  nubNat ((c.writes.flatMap fun w => w.locs).flatMap fun a =>
    if a < poolBase then if tget 3 c.classes (a / 8) = 4 then [] else [a / 8]
    else if isPool a then
      let b := st.bank (bankAt (poolCore a) (poolOff a))
      match b.windowAt (poolOff a - b.kbReg) with
      | some (_, w) => if w.cls = 3 then [w.phys (w.base + (poolOff a - b.kbReg - w.pool)) / 8] else []
      | none => []
    else [])

/-- The agents whose channels from a home carry the invalidations of words that a strand has read (R71, R79, R82): the
holder of its copies, its core, and its die. -/
def State.channelsOf (st : State) (k w : Nat) : List Agent :=
  let a := st.holderOf k (w * 8)
  let rest := [Agent.core (coreOf k), Agent.peer (dieOf k)]
  if rest.contains a then rest else a :: rest

/-- The spans of consecutive words that some words of a line make: what one request to a home can name (R72). -/
def wordSpans (line : Nat) (ws : List Nat) : List (List Nat) :=
  ((rangeFrom (line * 8) 8).filter ws.contains).foldr (fun w xs =>
    match xs with
    | (v :: r) :: rest => if w + 1 = v then (w :: v :: r) :: rest else [w] :: (v :: r) :: rest
    | _ => [w] :: xs) []

/-- Ownership requests for words of a chunk, one for each span (R72, R102). -/
def State.askOwn (st : State) (k : Nat) (c : Chunk) (own : List Nat) : State :=
  let spans := (nubNat (own.map lineOfWord)).flatMap fun l => (wordSpans l own).map fun ws => (l, ws)
  let st := st.setChunkOf k c.id fun d => { d with toOwn := d.toOwn ++ spans.map fun x => x.1, asked := d.asked ++ own }
  st.each spans fun st x =>
    st.send { id := 0, kind := .own, home := homeOf (x.1 * 64), holder := st.holderOf k (x.1 * 64), line := x.1,
              words := x.2, strand := k, chunk := c.id, cls := tget 3 c.classes (x.2.headD 0),
              pcie := x.2.any c.pcie.contains, port1 := x.2.any c.port1.contains }

/-- Whether a cluster's reduction buffer is registered at the home for a word, and the end of that registration is not on its way
(R84 to R86). -/
def State.registered (st : State) (cl w : Nat) : Bool :=
  (st.entry (lineOfWord w)).regs.any fun r =>
    r.1 == cl && r.2.1 == w % 8 && !(st.net.any fun p => (match p.kind with
      | .partialAns _ _ => true
      | _ => false) && p.holder == .redbuf cl && p.seq == 1 && p.tag == r.2.2 && p.words.contains w)

/-- The words of RED lines that a chunk updates and for which its cluster's buffer is not registered (R106). -/
def State.unregistered (st : State) (k : Nat) (c : Chunk) : List Nat :=
  nubNat ((c.writes.flatMap fun w => w.locs).filterMap fun a =>
    if a < poolBase && tget 3 c.classes (a / 8) == 4 && !st.registered (clusterOf k) (a / 8) then some (a / 8) else none)

/-- The registrations of a chunk's reductions are sent to the homes during gaining (R106). -/
def State.askRegister (st : State) (k : Nat) (c : Chunk) : State :=
  let ws := st.unregistered k c
  let st := st.setChunkOf k c.id fun d => { d with toOwn := d.toOwn ++ ws.map lineOfWord }
  st.each ws fun st w =>
    st.send { id := 0, kind := .own, home := homeOf (w * 8), holder := .redbuf (clusterOf k), line := lineOfWord w, words := [w],
              strand := k, chunk := c.id, cls := 4 }

/-- Confirm requests for words, to their homes, on every channel that carries their invalidations (R79, R110). -/
def State.askConfirm (st : State) (k id : Nat) (ws : List Nat) : State :=
  st.each (nubNat (ws.map fun w => homeOf (w * 8))) fun st h =>
    let here := ws.filter fun w => homeOf (w * 8) == h
    let targets := here.foldl (fun l w => l ++ (st.channelsOf k w).filter fun a => !l.contains a) []
    let st := st.setChunkOf k id fun d => { d with toConfirm := d.toConfirm ++ List.replicate targets.length h }
    st.each targets fun st a =>
      st.send { id := 0, kind := .confirmReq, home := h, holder := a, line := 0, words := here, strand := k, chunk := id }

/-- Pending watch entries that no chunk has yet asked about are asked about by a chunk: those that it made itself as it gains, every
one of its strand for a CHKW or WCLR. They are resolved once the answers are in (R110, R228). -/
def State.askWatches (st : State) (k id : Nat) (every : Bool) : State :=
  let mine (w : Watch) : Bool := w.st == .pending && !w.asked && (every || w.chunk == id)
  let ws := ((st.strand k).watches.filter mine).map fun w => w.word
  let st := st.setStrand k fun t => t.mapWatches fun w => if mine w then { w with asked := true, by_ := id } else w
  st.askConfirm k id (nubNat ws)

/-- Gaining: ownership requests for the written words not yet asked for, registrations of reduction buffers, and confirm
requests for the words read from memory and for the pending watch entries (R79, R102, R106, R110). -/
def State.gain (st : State) (k : Nat) (c : Chunk) : State :=
  let own := (st.ownWords c).filter fun w => !c.asked.contains w
  let st := ((st.setChunkOf k c.id fun d => { d with gaining := true }).askOwn k c own).askRegister k c
  (st.askConfirm k c.id (nubNat c.confirms)).askWatches k c.id false

/-! ### Locks of pool words -/

/-- The pool words that a chunk writes, with their cores (R102). -/
def Chunk.poolWords (c : Chunk) : List (Nat × Nat) :=
  (nubNat ((c.writes.flatMap fun w => w.locs.filter isPool).map wordOf)).map fun w => (poolCore (w * 8), w)

/-- The pool words of a gaining chunk are locked at their cores: a holder with a younger ticket is squashed, one with an older
ticket is waited for (R102, R103). -/
def State.lockPool (st : State) (k : Nat) (c : Chunk) : Bool × State :=
  let holders (st : State) (x : Nat × Nat) : List (Nat × Nat × Nat) :=
    (st.core x.1).poolLocks.filter fun y => y.1 == x.2 && !(y.2.1 == k && y.2.2 == c.id)
  let younger (st : State) (y : Nat × Nat × Nat) : Bool :=
    y.2.1 != k && match st.soleOf k c.id, st.soleOf y.2.1 y.2.2 with
      | some a, some b => a.before b
      | some _, none => true
      | none, some _ => false
      | none, none => match c.ticket, (st.chunkOf y.2.1 y.2.2).bind fun d => d.ticket with
        | some a, some b => a.before b
        | _, _ => false
  let st := st.each c.poolWords fun st x =>
    (st.each ((holders st x).filter (younger st)) fun st y => st.squash y.2.1 y.2.2 none)
  if (st.chunkOf k c.id).isNone then (false, st)
  else
    let free := c.poolWords.filter fun x => (holders st x).isEmpty
    let st := st.each free fun st x => st.setCore x.1 fun d =>
      { d with poolLocks := if d.poolLocks.contains (x.2, k, c.id) then d.poolLocks else (x.2, k, c.id) :: d.poolLocks }
    (c.poolWords.all fun x => (holders st x).isEmpty, st)

end Sys2Proof.Machine
end

