-- ==== Sys2Proof/Machine/Integer.lean ====
section
/-!
DEFINITION. The results of the integer instructions on 64-bit patterns (R195 to R199). None of them traps on
overflow or division by zero, and none sets a flag (R194).
-/

namespace Sys2Proof.Machine

/-- Bits 127 to 64 of the exact product, signed or unsigned (R195). -/
def mulHigh (z : Bool) (a b : Word) : Word :=
  if z then BitVec.ofNat 64 (a.toNat * b.toNat / 2 ^ 64)
  else BitVec.ofInt 64 (a.toInt * b.toInt / 2 ^ 64)

/-- The quotient of R196. -/
def quotient (z : Bool) (a b : Word) : Word :=
  if z then (if b = 0 then BitVec.allOnes 64 else BitVec.ofNat 64 (a.toNat / b.toNat))
  else if b = 0 then BitVec.allOnes 64
  else BitVec.ofInt 64 (a.toInt.tdiv b.toInt)

/-- The remainder of R196: it takes the sign of the dividend. -/
def remainder (z : Bool) (a b : Word) : Word :=
  if z then (if b = 0 then a else BitVec.ofNat 64 (a.toNat % b.toNat))
  else if b = 0 then a
  else BitVec.ofInt 64 (a.toInt.tmod b.toInt)

/-- The shift count of a shift or rotation: b[5:0] (R195). -/
def shiftCount (b : Word) : Nat := b.toNat % 64

/-- A rotation to the left by `n` places (R195). -/
def rotateLeft (a : Word) (n : Nat) : Word := (a <<< n) ||| (a >>> (64 - n))

/-- The leading zero bits of the low `k` bits. -/
def leadingZerosFrom (a : Word) : Nat → Nat
  | 0 => 0
  | k + 1 => if a.getLsbD k then 0 else 1 + leadingZerosFrom a k

/-- The leading zero bits; 64 for zero (R195). -/
def leadingZeros (a : Word) : Nat := leadingZerosFrom a 64

/-- The zero bits from bit `64 - k` upward. -/
def trailingZerosFrom (a : Word) : Nat → Nat
  | 0 => 0
  | k + 1 => if a.getLsbD (63 - k) then 0 else 1 + trailingZerosFrom a k

/-- The trailing zero bits; 64 for zero (R195). -/
def trailingZeros (a : Word) : Nat := trailingZerosFrom a 64

/-- The one bits of the low `k` bits. -/
def onesFrom (a : Word) : Nat → Nat
  | 0 => 0
  | k + 1 => (if a.getLsbD k then 1 else 0) + onesFrom a k

/-- The number of one bits (R195). -/
def countOnes (a : Word) : Nat := onesFrom a 64

/-- The position of a bit field: b[5:0] (R199). -/
def fieldPos (b : Word) : Nat := b.toNat % 64

/-- The length of a bit field: b[12:6], at most 64 (R199). -/
def fieldLen (b : Word) : Nat := min (bits b.toNat 12 6) 64

/-- BFX: the field, zero-extended or sign-extended (R199). -/
def extractField (sx : Bool) (a b : Word) : Word :=
  let len := fieldLen b
  let f := a.toNat / 2 ^ fieldPos b % 2 ^ len
  if sx && 0 < len && nbit f (len - 1) then BitVec.ofNat 64 (f + (2 ^ 64 - 2 ^ len)) else BitVec.ofNat 64 f

/-- BFI: `c` inserted into the field of `a` (R199). -/
def insertField (a b c : Word) : Word :=
  let m := BitVec.ofNat 64 ((2 ^ fieldLen b - 1) * 2 ^ fieldPos b)
  (a &&& ~~~m) ||| (BitVec.ofNat 64 (c.toNat * 2 ^ fieldPos b) &&& m)

end Sys2Proof.Machine
end

