-- ==== Sys2Proof/Machine/Holders.lean ====
section
/-!
DEFINITION. The holders of copies and the owners of words, what they give up to their homes (R50, R71, R72, R80, R87), and the
reads and writes of engines at a home (R114, R125, R126).
-/

namespace Sys2Proof.Machine

/-! ### Words that wait -/

/-- A number that no strand has: the chunk of an engine. -/
def noStrand : Nat := strandLimit

/-- Whether a request of a strand's chunk must wait for a word of a line (R77, R107, R117): another chunk holds it in TW,
a recall or combine is outstanding, a course locks it, or another strand in sole-commit mode holds it. A write waits for the last
piece of an engine write, which reads see in its pieces (R126); every access of the device waits for that of a core's store to host
memory, whose chunk is indivisible for it (R98, R126). -/
def DirEntry.busy (e : DirEntry) (idx : List Nat) (k chunk : Nat) (holds : Bool) : Bool :=
  (e.tw.any fun t => idx.contains t.1 && !(t.2.1 == k && t.2.2 == chunk)) ||
    (idx.any fun i => e.state i == .tr || e.state i == .tc) || (e.locks.any fun l => idx.contains l.1) ||
    (holds && e.sole.any fun t => idx.contains t.1 && t.2 != k) ||
    (holds && e.split.any idx.contains) || e.posting.any idx.contains

/-- The word indexes of some words of a line. -/
def indexes (ws : List Nat) : List Nat := ws.map (· % 8)

/-! ### Holders -/

/-- The runs of consecutive words of a list in rising order: first word and count. -/
def wordRuns : List Nat → List (Nat × Nat)
  | [] => []
  | w :: ws =>
    match wordRuns ws with
    | (f, n) :: rest => if w + 1 = f then (w, n + 1) :: rest else (w, 1) :: (f, n) :: rest
    | [] => [(w, 1)]

/-- The spans that a fill answer makes. -/
def spansOf (line cls : Nat) (ws : List Nat) (cells : Tab Byte) : List Span :=
  (wordRuns ws).map fun r =>
    { line := line, first := r.1 % 8, data := (rangeFrom (r.1 * 8) (8 * r.2)).map fun a => tget 0 cells a, cls := cls }

/-- Spans with some words no longer owned: an owned span that holds one of them is split, and keeps the others; the words
themselves stay as a clean span, or with `gone` leave. -/
def splitOwned (ws : List Nat) (gone : Bool) (xs : List Span) : List Span :=
  xs.flatMap fun x =>
    if x.owned && x.overlaps ws then
      let cells := x.words.flatMap fun w => (rangeFrom (w * 8) 8).map fun a => (a, (x.byteAt a).getD 0)
      ((spansOf x.line x.cls (x.words.filter fun w => !ws.contains w) cells).map fun y => { y with owned := true }) ++
        (if gone then [] else spansOf x.line x.cls (x.words.filter ws.contains) cells)
    else [x]

/-- Whether a cluster's L1 regions are fused (R46, R69). -/
def State.isFused (st : State) (cluster : Nat) : Bool :=
  (List.range 32).any fun b => (st.bank (cluster * 32 + b)).fused

/-- The cores whose spans and window words an agent answers for: with fused L1, all those of the cluster (R69, R71). -/
def State.coresOf (st : State) (g : Agent) : List Nat :=
  match g with
  | .core c => if st.isFused (c / 16) then rangeFrom (c / 16 * 16) 16 else [c]
  | .redbuf _ => []
  | .peer d => rangeFrom (d * 288) 288

/-- Those of an agent's cores that hold a span or have a window bound. -/
def State.coresHolding (st : State) (g : Agent) : List Nat :=
  (st.coresOf g).filter fun c =>
    !(st.core c).l1.isEmpty || !(st.bank (2 * c)).windows.isEmpty || !(st.bank (2 * c + 1)).windows.isEmpty

/-- The strands whose copies an agent holds: those of a core, of its cluster where L1 is fused, or of a die (R69, R71). -/
def State.strandsOf (st : State) (g : Agent) : List Nat :=
  match g with
  | .core c =>
    let fused := st.isFused (c / 16)
    st.strandsOn fun k => if fused then clusterOf k == c / 16 else coreOf k == c
  | .redbuf _ => []
  | .peer d => st.strandsOn fun k => dieOf k == d

/-- Pending watch entries of strands that a discarded span ties to some words are struck, where the span had arrived (R80,
R110). -/
def State.strike (st : State) (ks ws : List Nat) : State :=
  st.each ks fun st k =>
    if (st.strand k).watches.isEmpty then st
    else st.setStrand k fun t => t.mapWatches fun w =>
      if w.st == .pending && w.filled && ws.any fun x => w.first ≤ x && x < w.first + w.count then { w with st := .struck } else w

/-- Strands hit by the keys of some words: the first chunk of each that is hit is squashed (R104). -/
def State.squashHit (st : State) (ks ws : List Nat) (except : Option Nat) : State :=
  let keys := ws.map st.keyOf
  st.each (ks.filter fun k => some k != except) fun st k => st.squashKeys k keys

/-- The spans of an agent that overlap some words are discarded in full, and window words of SPAN windows that are C
become I (R50, R72). -/
def State.dropSpans (st : State) (g : Agent) (ws : List Nat) : State :=
  let drop (xs : List Span) := xs.filter fun x => x.owned || !x.overlaps ws
  let st := st.each (st.coresHolding g) fun st c =>
    let st := st.setCore c fun x => { x with l1 := drop x.l1 }
    st.each [2 * c, 2 * c + 1] fun st b =>
      if (st.bank b).windows.isEmpty then st
      else st.setBank b fun x =>
        { x with windows := x.windows.map fun e =>
            if e.2.cls = 3 then
              (e.1, { e.2 with valid := e.2.valid.filter fun i =>
                e.2.dirty.contains i || !ws.contains (e.2.phys (e.2.base + 8 * i) / 8) })
            else e }
  match g with
  | .peer d => st.setDie d fun x => { x with peer := drop x.peer }
  | _ => st

/-- The M words of an agent among some words: the bytes of its owned peer spans, of its SPAN windows' queued write-backs and
of the dirty words of those windows, and before them what it has already sent home, the newest last (R50, R52, R78, R87). -/
def State.ownedCells (st : State) (g : Agent) (ws : List Nat) : Tab Byte :=
  let banks := (st.coresOf g).flatMap fun c => [2 * c, 2 * c + 1]
  let queued := banks.flatMap fun b => (st.bank b).winQueue.flatMap fun q =>
    (q.words.filter ws.contains).flatMap fun w => (List.range 8).map fun j =>
      (w * 8 + j, tget 0 q.cells (q.va + w % 8 * 8 + j))
  let wins := banks.flatMap fun b =>
    (st.bank b).windows.flatMap fun e =>
      if e.2.cls = 3 then
        e.2.dirty.flatMap fun i =>
          let va := e.2.base + 8 * i
          let w := e.2.phys va / 8
          if ws.contains w then (List.range 8).map fun j => (w * 8 + j, st.mem.read (st.windowPool b e.2 va + j)) else []
      else []
  let spans := match g with
    | .peer d => (st.die d).peer.flatMap fun x =>
        if x.owned then (x.words.filter ws.contains).flatMap fun w => (List.range 8).map fun j => (w * 8 + j, (x.byteAt (w * 8 + j)).getD 0)
        else []
    | _ => []
  let sent := st.net.flatMap fun p => match p.kind with
    | .writeBack _ => if p.holder == g then p.cells.filter fun c => ws.contains (c.1 / 8) else []
    | .recallAns => if p.holder == g then p.cells.filter fun c => ws.contains (c.1 / 8) else []
    | _ => []
  sent ++ spans ++ queued ++ wins

/-- A queued write without some words: a recall has taken their data (R78). -/
def WinWrite.without (q : WinWrite) (ws : List Nat) : WinWrite :=
  if q.words.any ws.contains then
    { q with
      words := q.words.filter fun w => !ws.contains w
      cells := q.cells.filter fun c => !(q.words.any fun w => ws.contains w && w % 8 == c.1 % 64 / 8) }
  else q

/-- A data packet of a holder without some words. -/
def Packet.without (p : Packet) (ws : List Nat) : Packet :=
  { p with words := p.words.filter (fun w => !ws.contains w), cells := p.cells.filter fun c => !ws.contains (c.1 / 8) }

/-- The M words of an agent among some words are no longer M: clean after a recall for read, gone after one for write
(R50), and no longer to be written back, but for the queue of a bank whose own later store leaves its snapshots as they are
(R52). -/
def State.yieldWords (st : State) (g : Agent) (ws : List Nat) (forWrite : Bool) (spare : Option Nat := none) : State :=
  let st : State := { st with net := st.net.map fun p => match p.kind with
    | .writeBack _ => if p.holder == g then p.without ws else p
    | .recallAns => if p.holder == g then p.without ws else p
    | _ => p }
  let banks := ((st.coresOf g).flatMap fun c => [2 * c, 2 * c + 1]).filter fun b =>
    !(st.bank b).windows.isEmpty || !(st.bank b).winQueue.isEmpty
  let st := st.each banks fun st b => st.setBank b fun x =>
    { x with
      winQueue := if spare = some b then x.winQueue else x.winQueue.map fun q => q.without ws
      windows := x.windows.map fun e =>
        if e.2.cls = 3 then
          let hit (i : Nat) : Bool := ws.contains (e.2.phys (e.2.base + 8 * i) / 8)
          (e.1, { e.2 with
            dirty := e.2.dirty.filter fun i => !hit i
            valid := if forWrite then e.2.valid.filter fun i => !hit i else e.2.valid })
        else e }
  match g with
  | .peer d => st.setDie d fun x => { x with peer := splitOwned ws forWrite x.peer }
  | _ => st

/-! ### Engine accesses at the homes -/

/-- The partials of every reduction buffer for some words are combined into the home at once, in the order of the
clusters (R85). -/
def State.combineNow (st : State) (ws : List Nat) : State :=
  st.each (st.clusters.filter fun c => c.2.partials.any fun p => ws.contains (wordOf p.addr)) fun st c =>
    let mine := c.2.partials.filter fun p => ws.contains (wordOf p.addr)
    let st := st.each mine fun st p =>
      match p.value with
      | none => st
      | some v =>
        let old := fromBytes (st.homeBytes p.addr p.n)
        st.applyCells (cellsAt p.addr (toBytes p.n (atomicNew p.op p.n old v 0)))
    st.setCluster c.1 fun x => { x with partials := x.partials.filter fun p => !ws.contains (wordOf p.addr) }

/-- The words of the owned spans of a peer store that overlap some words: a recall for write discards such a span in full, and
its other words go home with it (R72). -/
def State.wholeSpans (st : State) (g : Agent) (ws : List Nat) : List Nat :=
  match g with
  | .peer d => nubNat (ws ++ (st.die d).peer.flatMap fun x => if x.owned && x.overlaps ws then x.words else [])
  | _ => ws

/-- The M and P words of a line brought to their home at once: an owner's words are recalled, a recall that is outstanding is
answered, and partials are combined. -/
def State.settle (st : State) (line : Nat) (idx : List Nat) (forWrite : Bool) : State :=
  let e := st.entry line
  let owned := idx.filter fun i => e.state i == .m || e.state i == .tr
  let part := idx.filter fun i => e.state i == .p || e.state i == .tc
  let st := st.each owned fun st i =>
    match (st.entry line).owner i with
    | none => st.setEntry line fun e => e.setStates [i] .u
    | some g =>
      let ws := if forWrite then st.wholeSpans g [line * 8 + i] else [line * 8 + i]
      let st := (st.applyCells (st.ownedCells g ws)).yieldWords g ws forWrite
      let st := if forWrite then ((st.squashHit (st.strandsOf g) ws none).strike (st.strandsOf g) ws).dropSpans g ws else st
      st.setEntry line fun e =>
        let e := { e with recalls := terase e.recalls i }
        if forWrite then (e.setStates (indexes ws) .u).dropHolders (indexes ws) none else e.setStates [i] .s
  if part.isEmpty then st
  else
    (st.combineNow (part.map fun i => line * 8 + i)).setEntry line fun e =>
      { (e.setStates part .u).dropHolders part none with regs := e.regs.filter fun r => !part.contains r.2.1 }

/-! ### What is asked of holders and of the host -/

/-- Words of a line that are owned elsewhere are recalled, and words with partials are combined (R77, R85). Each recall has a
number, by which a late answer is told from the one that is awaited (R78). -/
def State.bringWords (st : State) (line : Nat) (idx : List Nat) (forWrite : Bool) : State :=
  let home := homeOf (line * 64)
  let e := st.entry line
  let owned := idx.filter fun i => e.state i == .m
  let part := idx.filter fun i => e.state i == .p
  let st := st.each owned fun st i =>
    match e.owner i with
    | none => st.setEntry line fun e => e.setStates [i] .u
    | some g =>
      let (n, st) := st.fresh
      (st.setEntry line fun e => { e.setStates [i] .tr with recalls := tput e.recalls i n }).send
        { id := 0, kind := .recall forWrite, home := home, holder := g, line := line, words := [line * 8 + i], tag := n }
  st.each part fun st i =>
    let targets := (e.regs.filter fun r => r.2.1 == i).map fun r => r.1
    if targets.isEmpty then st.setEntry line fun e => e.setStates [i] .u
    else
      st.each targets fun st c =>
        (st.setEntry line fun e => e.setStates [i] .tc).send
          { id := 0, kind := .combineReq, home := home, holder := .redbuf c, line := line, words := [line * 8 + i] }

/-- Whether an entry reaches host memory through a port that trained as PCIe only (R94). -/
def State.viaPcie (st : State) (frame : Nat) : Bool :=
  isHost frame && (st.pkg (pkgOfAddr frame)).pcieOnly.contains (bits frame 47 47)

/-- Whether the host must answer before a device access to a line (R91, R92, R93): it holds a copy of a device line, for a read
one that it does not share; or the device has no copy of a host line, for a write or an atomic none that it owns. An access
through a PCIe-only port asks nothing (R94). -/
def State.needsHost (st : State) (line : Nat) (forWrite pcie : Bool) : Bool :=
  let g := st.pkg (pkgOfAddr (line * 64))
  if isHost (line * 64) then !pcie && (st.mesiOf line == .i || (forWrite && st.mesiOf line == .s))
  else g.hostCopies.contains line && (forWrite || !g.hostShared.contains line)

/-- A line asked of the host, once: with RdShared or RdOwn (R91), or with BISnpData for a read and BISnpInv for a write (R92). -/
def State.askHost (st : State) (line : Nat) (forWrite : Bool) : State :=
  st.setPkg (pkgOfAddr (line * 64)) fun g =>
    if g.snoops.contains line then g
    else { g with snoops := g.snoops ++ [line], snoopData := if forWrite then g.snoopData else g.snoopData ++ [line] }

/-- The lines of a range of bytes with the indexes of their words. -/
def linesAt (a n : Nat) : List (Nat × List Nat) :=
  (nubNat ((wordsOf a n).map lineOfWord)).map fun l => (l, indexes ((wordsOf a n).filter fun w => lineOfWord w == l))

/-- Whether the words of an engine access may be accessed now: their package answers, none of them waits (R77, R117), earlier
requests have been served (R77), no word is owned or updated elsewhere (R85, R114), and the host need not answer (R91, R92). -/
def State.engineReady (st : State) (a n : Nat) (writes : Bool) (pcie : Bool := false) (key : List Nat := []) : Bool :=
  !(st.pkg (pkgOfAddr a)).down && (linesAt a n).all fun x =>
    let e := st.entry x.1
    !e.busy x.2 noStrand 0 writes && !st.placedAfter x.1 x.2 key &&
      !(x.2.any fun i => e.state i == .m || e.state i == .p) && !st.needsHost x.1 writes pcie

/-- What an engine access that must wait does for its words of a line: it takes its place in the order of arrival (R77); once it is
first, its words are recalled and combined, and the host is asked (R85, R91, R92). -/
def State.snoopWords (st : State) (line : Nat) (idx : List Nat) (writes pcie : Bool) (key : List Nat) : State :=
  let st := st.takePlace line idx key
  if (st.entry line).busy idx noStrand 0 writes || st.placedAfter line idx key then st
  else
    let st := st.bringWords line idx writes
    if st.needsHost line writes pcie then st.askHost line writes else st

/-- What an engine access to a range of bytes that must wait does. -/
def State.snoopFor (st : State) (a n : Nat) (writes : Bool := true) (pcie : Bool := false) (key : List Nat := []) : State :=
  st.each (linesAt a n) fun st x => st.snoopWords x.1 x.2 writes pcie key

/-- What an engine write of cells of one line that must wait does. -/
def State.snoopCells (st : State) (cells : Tab Byte) (pcie : Bool) (key : List Nat) : State :=
  match cells with
  | [] => st
  | c :: _ => st.snoopWords (c.1 / 64) (nubNat (cells.map fun c => wordOf c.1 % 8)) true pcie key

/-! ### Engine accesses at the homes -/

/-- An engine read of bytes at their homes, none while a word waits (R114). -/
def State.engineRead (st : State) (a n : Nat) (pcie : Bool := false) (key : List Nat := []) : Option (List Byte × State) :=
  if n = 0 then some ([], st)
  else if st.engineReady a n false pcie key then
    some (st.homeBytes a n, (st.each (linesAt a n) fun st x => st.countAccess (x.1 * 64)).leavePlaces key)
  else none

/-- A write to a port that trained as PCIe only is posted: it travels from its home die to the port, in the order of its die's
writes (R94, R121). `k` is the strand that made it, or none for an engine of the package `p`. -/
def State.postWrite (st : State) (cells : Tab Byte) (k : Option Nat) : State :=
  match cells with
  | [] => st
  | c :: _ =>
    st.send { id := 0, kind := .posted, home := homeOf c.1, holder := .core 0, line := c.1 / 64,
              words := nubNat (cells.map fun c => wordOf c.1), strand := k.getD noStrand, cells := cells }

/-- Cells of one line written at their home: posted to a PCIe-only port, or applied there (R91, R94). -/
def State.putCells (st : State) (line : Nat) (cells : Tab Byte) (pcie : Bool) (k : Option Nat) : State :=
  if isHost (line * 64) && st.mesiOf line == .i then
    if pcie then st.postWrite cells k else st.applyCells cells
  else
    (if isHost (line * 64) then st.setMesi line .m else st).applyCells cells

/-- A write through to the cells of one line at its home, committed as a chunk of one store (R52, R114): copies are
invalidated and live chunks are squashed as their invalidations arrive. -/
def State.writeLine (st : State) (line : Nat) (cells : Tab Byte) (cls owner : Nat) (keep : Option Agent) (by_ : Option Nat)
    (pcie : Bool := false) : State :=
  let idx := nubNat (cells.map fun c => wordOf c.1 % 8)
  let st := st.settle line idx true
  ((st.writeThrough line idx cls owner keep by_).putCells line cells pcie none).countAccess (line * 64)

/-- The size of an atomic piece of memory (R125). -/
def pieceSize (a : Nat) : Nat := if isHost a then 8 else 32

/-- The cells of a write that lie in its first atomic piece, and the others (R126). -/
def splitPieces (cells : Tab Byte) : Tab Byte × Tab Byte :=
  match cells with
  | [] => ([], [])
  | c :: _ => cells.partition fun x => x.1 / pieceSize c.1 == c.1 / pieceSize c.1

/-- An engine write of cells in one line, none while a word waits (R114). Its words are gained at once; its first piece is
applied, and the others follow it in ascending order as a packet at the home (R126), tagged with the command's number. -/
def State.engineWrite (st : State) (cells : Tab Byte) (cls owner : Nat) (pcie : Bool := false) (key : List Nat := []) :
    Option State :=
  match cells with
  | [] => some st
  | c :: _ =>
    let line := c.1 / 64
    if cells.all fun x => st.engineReady x.1 1 true pcie key then
      let (now, later) := splitPieces cells
      if later.isEmpty then some ((st.writeLine line cells cls owner none none pcie).leavePlaces key)
      else
        let idx := nubNat (cells.map fun c => wordOf c.1 % 8)
        let st := ((st.settle line idx true).writeThrough line idx cls owner none none).putCells line now pcie none
        let st := st.setEntry line fun e => { e with split := nubNat (e.split ++ later.map fun c => wordOf c.1 % 8) }
        some ((st.send { id := 0, kind := .piece, home := homeOf (line * 64), holder := .core 0, line := line,
                         words := nubNat (later.map fun c => wordOf c.1), strand := noStrand, cls := cls, cells := later,
                         seq := owner, pcie := pcie, tag := key.headD 0 }).leavePlaces key)
    else none

/-- The cells of a core's store to one line of host memory put at their home in ascending words, each an atomic piece that the host
may see before the next (R121, R126): posted to a PCIe-only port, or applied in the device cache, the first at once. The words of
`atomics` are those of AtomicOps, which the host executes at its port at this instant (R94, R297). -/
def State.putHostCells (st : State) (line : Nat) (cells : Tab Byte) (pcie : Bool) (k cls owner : Nat) (atomics : List Nat) : State :=
  let words := (rangeFrom (line * 8) 8).filter fun w => cells.any fun c => wordOf c.1 == w
  let at' (w : Nat) : Tab Byte := cells.filter fun c => wordOf c.1 == w
  if isHost (line * 64) && st.mesiOf line == .i then
    st.each words fun st w => if atomics.contains w then st.applyCells (at' w) else st.putCells line (at' w) pcie (some k)
  else
    match words with
    | [] => st
    | w :: rest =>
      let st := st.putCells line (at' w) pcie (some k)
      if rest.isEmpty then st
      else
        let st := st.setEntry line fun e => { e with posting := nubNat (e.posting ++ indexes rest) }
        st.send { id := 0, kind := .piece, home := homeOf (line * 64), holder := .core 0, line := line, words := rest, strand := k,
                  cls := cls, cells := cells.filter fun c => wordOf c.1 != w, seq := owner, pcie := pcie }

/-- The next piece of a write is applied at its home; the core chunks that have read the line since are squashed by its
invalidations (R126). -/
def State.applyPiece (st : State) (p : Packet) : State :=
  let (now, later) := splitPieces p.cells
  let idx := nubNat (now.map fun c => wordOf c.1 % 8)
  let by_ := if p.strand < strandLimit then some p.strand else none
  let st := (st.writeThrough p.line idx p.cls p.seq none by_).putCells p.line now p.pcie by_
  let left := later.map fun c => wordOf c.1 % 8
  let st := st.setEntry p.line fun e => 
    let stays (i : Nat) : Bool := !idx.contains i || left.contains i
    if by_.isSome then { e with posting := e.posting.filter stays } else { e with split := e.split.filter stays }
  if later.isEmpty then (st.dropPacket p.id).countAccess (p.line * 64)
  else
    let left := nubNat (later.map fun c => wordOf c.1)
    let st : State := { st with net := updateFirst (fun q => q.id == p.id) (fun q => { q with words := left, cells := later }) st.net }
    st.owe (p.kind.event p.id)

/-- What a release or fence at system scope waits for (R122): every write that precedes it in the total order and is posted to a
port or has pieces still to be applied. -/
def State.writesBefore (st : State) : List Nat :=
  (st.net.filter fun p => p.kind == .piece || p.kind == .posted).map fun p => p.id

/-- Whether an engine command has a piece of a write still to be applied (R115, R126). -/
def State.piecesLeft (st : State) (cmd : Nat) : Bool := st.net.any fun p => p.kind == .piece && p.tag == cmd && cmd != 0

end Sys2Proof.Machine
end

