-- ==== Sys2Proof/Machine/Translate.lean ====
section
/-!
DEFINITION. Address translation and its checks: the page table walk (R13 to R16), the checks of R18 in order, the translation
caches (R19 to R21), the page tables in memory (R32), and parks and fault records at the memory-side translation units (R25 to
R30, R397 to R399).
-/

namespace Sys2Proof.Machine

/-! ### Walks -/

/-- Why a walk stopped (R27): the cause code, the level and the address of the entry. -/
structure Miss where
  cause : Nat
  level : Nat
  addr  : Nat
  deriving DecidableEq, Repr

/-- The outcome of a walk. -/
inductive Walk where
  | leaf (addr w0 w1 level : Nat)
  | miss (m : Miss)
  deriving DecidableEq, Repr

/-- The index of a virtual address at a level (R13). -/
def levelIndex (va level : Nat) : Nat := if level = 4 then bits va 55 48 else bits va (20 + 9 * level) (12 + 9 * level)

/-- The physical address bits 59:12 of an entry as an address (R14). -/
def pfnAddr (w0 : Nat) : Nat := bits w0 63 16 * 4096

/-- The bytes of a page of a size code (R14). -/
def pageBytes (sz : Nat) : Nat :=
  match sz with
  | 0 => 2 ^ 12
  | 1 => 2 ^ 16
  | 2 => 2 ^ 21
  | _ => 2 ^ 30

/-- The class of a leaf (R14). -/
def leafClass (w0 : Nat) : Nat := bits w0 12 10

/-- Whether the 16 entries of a 64 KiB group are the same, A and D aside (R16). -/
def State.groupSame (st : State) (table idx : Nat) : Bool :=
  let base := table + 16 * (idx / 16 * 16)
  let first := st.currentNat base 8 ||| 0xC0
  let second := st.currentNat (base + 8) 8
  (List.range 16).all fun i =>
    (st.currentNat (base + 16 * i) 8 ||| 0xC0) == first && st.currentNat (base + 16 * i + 8) 8 == second

/-- The conditions of R15 on a leaf. -/
def State.leafSound (st : State) (table idx w0 w1 level : Nat) : Bool :=
  let sz := bits w0 9 8
  let a := pfnAddr w0
  let region := st.regionAt a
  let hostPage := match region with
    | .host _ => true
    | _ => false
  level ≤ 2 && bits w0 15 15 == 0 && bits w1 63 17 == 0 && leafClass w0 ≤ 5 &&
    (if level = 2 then sz == 3 else if level = 1 then sz == 2 else sz ≤ 1) &&
    a % pageBytes sz == 0 && ((leafClass w0 == 0) == (bits w1 15 0 != 0)) &&
    st.answers (pkgOfAddr a) && !st.pageReserved a (pageBytes sz) &&
    (!hostPage || leafClass w0 == 1 || leafClass w0 == 5) && (sz != 1 || st.groupSame table idx)

/-- A walk from a table at a level (R13 to R16); a page that moves stops it with cause 3 (R32). A and D of a 64 KiB page are
those of the first entry of its group (R16). -/
def State.walkFrom (st : State) (va : Nat) : Nat → Nat → Nat → Walk
  | 0, _, level => .miss ⟨2, level, 0⟩
  | fuel + 1, table, level =>
    let idx := levelIndex va level
    let addr := table + 16 * idx
    let w0 := st.currentNat addr 8
    let w1 := st.currentNat (addr + 8) 8
    if bits w0 0 0 = 0 then .miss ⟨1, level, addr⟩
    else if bits w0 1 1 = 1 then
      let next := pfnAddr w0
      if level = 0 ∨ bits w0 15 2 ≠ 0 ∨ w1 ≠ 0 ∨ bits w0 16 16 ≠ 0 ∨ st.tableAt next = false then .miss ⟨2, level, addr⟩
      else st.walkFrom va fuel next (level - 1)
    else if st.leafSound table idx w0 w1 level = false then .miss ⟨2, level, addr⟩
    else if bits w0 14 14 = 1 then .miss ⟨3, level, addr⟩
    else if bits w0 9 8 = 1 then
      let lead := table + 16 * (idx / 16 * 16)
      .leaf lead (st.currentNat lead 8) w1 level
    else .leaf addr w0 w1 level

/-- The walk of a virtual address from a root (R13). -/
def State.walk (st : State) (root va : Nat) : Walk :=
  if st.tableAt root then st.walkFrom va 5 root 4 else .miss ⟨2, 4, root + 16 * levelIndex va 4⟩

/-- The entry that a source holds after a walk (R19). -/
def tlbOf (source lkey va addr w0 w1 : Nat) : TlbEntry :=
  let size := pageBytes (bits w0 9 8)
  { source := source, lkey := lkey, vpage := va / size * (size / 4096), pages := size / 4096, frame := pfnAddr w0,
    leaf := addr, cls := leafClass w0, s := nbit w0 5, r := nbit w0 2, w := nbit w0 3, x := nbit w0 4,
    d := nbit w0 7, word := w0, owner := bits w1 15 0 }

/-- Whether an entry maps a virtual address for a source and context. -/
def TlbEntry.maps (e : TlbEntry) (source lkey va : Nat) : Bool :=
  e.source == source && e.lkey == lkey && e.vpage ≤ va / 4096 && va / 4096 < e.vpage + e.pages

/-- The physical address of a virtual address under an entry (R15). -/
def TlbEntry.phys (e : TlbEntry) (va : Nat) : Nat := e.frame + (va - e.vpage * 4096)

/-! ### Sources and units -/

/-- The source agent of a core's accesses (R19). -/
def sourceCore (core : Nat) : Nat := 4 * core

/-- The source agent of a cluster's engines. -/
def sourceCluster (cluster : Nat) : Nat := 4 * cluster + 1

/-- The source agent of an agent of an I/O die: a gateway or the expert directory (R10). -/
def sourceIo (iod agent : Nat) : Nat := 4 * (iod * 512 + agent) + 2

/-- The source agent of a host queue unit. R10 gives agent 0x000 to both I/O dies; the model holds one host queue unit for each
package, as IOD0's agent (log 106, DESIGN CHOICE). -/
def sourceHqu (pkg : Nat) : Nat := 4 * pkg + 3

/-- The package of a source agent. -/
def sourcePkg (source : Nat) : Nat :=
  match source % 4 with
  | 0 => source / 4 / 16 / 18 / 8
  | 1 => source / 4 / 18 / 8
  | 2 => source / 4 / 512 / 2
  | _ => source / 4

/-- The unit that walks for a source (R19): HBM-group units 0 to 7, then IOD0 and IOD1. The host queue unit's
accesses always walk at IOD0's unit (log 106, DESIGN CHOICE). -/
def unitOf (source va : Nat) : Nat :=
  match source % 4 with
  | 2 => 8 + source / 4 / 512 % 2
  | 3 => 8
  | _ =>
    (List.range 11).foldl (fun g i => g ^^^ bits va (23 + 3 * i) (21 + 3 * i)) (bits va 55 54)

/-- The endpoint identifier of a physical core (R10). -/
def coreEpid (core : Nat) : Nat :=
  let cl := core / 16
  let d := cl / 18
  d / 8 * 2 ^ 13 + d % 8 * 2 ^ 9 + cl % 18 * 16 + core % 16

/-- The endpoint identifier of an agent of an I/O die (R10). -/
def ioEpid (pkg iod agent : Nat) : Nat := pkg * 2 ^ 13 + (8 + iod) * 2 ^ 9 + agent

/-- SOURCE of a fault record (R27). The engines of a cluster have no endpoint identifier of their own in R10: their records name
core 0 of the cluster (log 107, DESIGN CHOICE). -/
def sourceEpid (source : Nat) : Nat :=
  match source % 4 with
  | 0 => coreEpid (source / 4)
  | 1 => coreEpid (source / 4 * 16)
  | 2 => ioEpid (source / 4 / 512 / 2) (source / 4 / 512 % 2) (source / 4 % 512)
  | _ => ioEpid (source / 4) 0 0x000

/-- The park of the page of an address at the unit that walks for a source (R26). -/
def State.parkOf (st : State) (source lkey va : Nat) : Option Park :=
  st.parks.find? fun k =>
    k.lkey == lkey && k.vpage == va / 4096 && k.pkg == sourcePkg source && k.unit == unitOf source va

/-! ### Translation at the source -/

/-- The outcome of a translation: the entry used, or why there is none. -/
inductive Trans where
  | ok (e : TlbEntry)
  | miss (m : Miss)
  deriving DecidableEq, Repr

/-- The root of a context (R34). -/
def State.rootOf (st : State) (lkey : Nat) : Nat :=
  match st.launch lkey with
  | some l => bits l.ptroot.toNat 59 12 * 4096
  | none => 0

/-- A bit of A or D of a leaf's word 0 set by an atomic at the word's home (R20): an owner's data are brought home, copies are
invalidated, and the atomic is recorded (R96). -/
def State.setLeafBit (st : State) (addr bit : Nat) : State :=
  let old := st.currentNat addr 8
  if nbit old bit then st
  else (st.writeLine (addr / 64) (cellsAt addr (toBytes 8 (old ||| 2 ^ bit))) 3 0 none none).noteAtomic (addr / 64)

/-- The compare of R20: whether a leaf's word 0 is unchanged in every bit but A. -/
def sameButA (a b : Nat) : Bool := (a ||| 0x40) == (b ||| 0x40)

/-- The level of the leaf that an entry holds (R13). -/
def TlbEntry.level (e : TlbEntry) : Nat := if e.pages ≤ 16 then 0 else if e.pages ≤ 512 then 1 else 2

/-- Whether an access writes (R20). -/
def Access.writes (a : Access) : Bool :=
  match a with
  | .store => true
  | .stc => true
  | .amo => true
  | .red => true
  | .engineWrite => true
  | .winWrite => true
  | _ => false

/-! ### The page tables of the launches -/

/-- The valid entries of a table, in memory or at an owner of their words: V is in the first byte of an entry, and a byte that
nothing has written reads as zero (R13, R74, log 3). -/
def State.tableEntries (st : State) (table size : Nat) : List Nat :=
  let inside (a : Nat) : Bool := table ≤ a && a < table + size && a % 16 == 0
  let listed := (st.mem.filter fun c => inside c.1).map fun c => c.1
  let owned := st.dir.flatMap fun d =>
    ((List.range 8).filter fun i => (d.2.state i == .m || d.2.state i == .tr) && inside (d.1 * 64 + 8 * i)).map fun i => d.1 * 64 + 8 * i
  (nubNat (listed ++ owned)).filter fun a => nbit (st.currentNat a 8) 0

/-- The tables that some tables of one level point to. -/
def State.tablesUnder (st : State) (tables : List Nat) (size : Nat) : List Nat :=
  nubNat ((tables.flatMap fun t => st.tableEntries t size).filterMap fun a =>
    let w0 := st.currentNat a 8
    if nbit w0 1 then some (pfnAddr w0) else none)

/-- The tables of every launch's page table with their sizes, the roots first (R13). -/
def State.pageTables (st : State) : List (Nat × Nat) :=
  let roots := nubNat (st.launches.map fun l => bits l.2.ptroot.toNat 59 12 * 4096)
  let l3 := st.tablesUnder roots 4096
  let l2 := st.tablesUnder l3 8192
  let l1 := st.tablesUnder l2 8192
  let l0 := st.tablesUnder l1 8192
  (roots.map fun a => (a, 4096)) ++ (l3 ++ l2 ++ l1 ++ l0).map fun a => (a, 8192)

/-- Whether some bytes of memory hold part of a page table: such a page is never moved automatically (R32). -/
def State.holdsTable (st : State) (a size : Nat) : Bool :=
  st.pageTables.any fun t => t.1 < a + size && a < t.1 + t.2

/-- The two words of every leaf of the launches' page tables that maps a byte of memory (R14). -/
def State.leavesOf (st : State) (a : Nat) : List (Nat × Nat) :=
  (st.pageTables.flatMap fun t => st.tableEntries t.1 t.2).filterMap fun e =>
    let w0 := st.currentNat e 8
    let size := pageBytes (bits w0 9 8)
    if nbit w0 1 = false ∧ pfnAddr w0 ≤ a ∧ a < pfnAddr w0 + size then some (w0, st.currentNat (e + 8) 8) else none

/-! ### Checks -/

/-- Why an access that has a translation fails (R18, R364). -/
def causePrivilege : Nat := 0x07

/-- Permission fault (R364). -/
def causePermission : Nat := 0x08

/-- Class violation (R364). -/
def causeClass : Nat := 0x09

/-- Remote range rejection (R364). -/
def causeRange : Nat := 0x0A

/-- Whether the class permits an access (R17). -/
def classPermits (cls : Nat) (acc : Access) : Bool :=
  match acc with
  | .fetch => cls ≤ 1
  | .load => true
  | .lds => true
  | .fill => true
  | .engineRead => true
  | .store => cls == 0 || cls == 2 || cls == 3 || cls == 5
  | .engineWrite => cls == 0 || cls == 2 || cls == 3 || cls == 5
  | .winWrite => cls == 0 || cls == 3
  | .stc => cls == 0 || cls == 2 || cls == 3
  | .amo => cls == 0 || cls == 2 || cls == 3 || cls == 5
  | .red => cls == 0 || cls == 2 || cls == 3 || cls == 4 || cls == 5
  | .spmap => true

/-- Whether an entry has the permission bits that an access needs (R18 step 5). -/
def TlbEntry.permits (e : TlbEntry) (acc : Access) : Bool :=
  match acc with
  | .fetch => e.x
  | .load => e.r
  | .lds => e.r
  | .fill => e.r
  | .engineRead => e.r
  | .amo => e.r && e.w
  | .red => e.r && e.w
  | .spmap => e.r
  | _ => e.w

/-- Steps 3 to 6 of R18: the cause of the first failure. -/
def TlbEntry.check (e : TlbEntry) (sv : Bool) (lkey : Nat) (acc : Access) : Option Nat :=
  if e.s && !sv then some causePrivilege
  else if e.cls == 0 && e.owner != lkey then some causePermission
  else if !e.permits acc then some causePermission
  else if !classPermits e.cls acc then some causeClass
  else none

/-! ### Translations -/

/-- Whether a source has an earlier request that was refused, or holds it back behind one (R30). -/
def State.refusedBefore (st : State) (source tag vpage : Nat) : Bool :=
  (st.refused.takeWhile fun r => !(r.source == source && r.tag == tag && r.vpage == vpage)).any fun r => r.source == source

/-- The translation of an address by a source (R19, R20): its cache, or a walk that sets A and fills the cache; an access that
writes, and that the entry permits, sets D where it is 0, or misses with cause 4 when the leaf has changed. While a page is
parked, an access that the cache does not serve parks behind it without a walk (R26); a fetch is never parked. `tag` is the number
of the access among those of its source, whose request is held back while an earlier one stands refused (R30); an access that never
parks has none. -/
def State.translate (st : State) (source lkey va : Nat) (acc : Access) (sv : Bool) (tag : Option Nat) : Trans × State :=
  let found : Trans × State :=
    match st.tlb.find? fun e => e.maps source lkey va with
    | some e => (.ok e, st)
    | none =>
      if tag.any fun t => st.refusedBefore source t (va / 4096) then (.miss ⟨0, 0, 0⟩, st)
      else
      match (if acc = .fetch then none else st.parkOf source lkey va) with
      | some k => (.miss ⟨k.cause, 0, k.entry⟩, st)
      | none =>
      match st.walk (st.rootOf lkey) va with
      | .miss m => (.miss m, st)
      | .leaf addr w0 w1 _ =>
        let e := tlbOf source lkey va addr w0 w1
        let st := st.setLeafBit addr 6
        (.ok { e with word := w0 ||| 0x40 }, { st with tlb := { e with word := w0 ||| 0x40 } :: st.tlb })
  match found with
  | (.miss m, st) => (.miss m, st)
  | (.ok e, st) =>
    if acc.writes && !e.d && (e.check sv lkey acc).isNone then
      if sameButA (st.currentNat e.leaf 8) e.word then
        let st := st.setLeafBit e.leaf 7
        (.ok { e with d := true }, { st with tlb := updateFirst (· == e) (fun x => { x with d := true }) st.tlb })
      else (.miss ⟨4, e.level, e.leaf⟩, { st with tlb := st.tlb.filter (· != e) })
    else (.ok e, st)

/-! ### Fault rings -/

/-- KIND of a fault record (R27). -/
def Access.faultKind (a : Access) : Nat :=
  match a with
  | .load => 0
  | .lds => 0
  | .fetch => 0
  | .store => 1
  | .amo => 2
  | .red => 2
  | .stc => 3
  | .engineRead => 4
  | .engineWrite => 5
  | .fill => 6
  | .spmap => 6
  | .winWrite => 7

/-- The accesses parked at a unit (R30). -/
def State.parkedAt (st : State) (p unit : Nat) : Nat :=
  (st.parks.filter fun k => k.pkg == p && k.unit == unit).foldl (fun n k => n + k.behind.length) 0

/-- A missing translation that its unit does not take now keeps its place in the order of its source's retries (R30). -/
def State.refuse (st : State) (source lkey va tag : Nat) : State :=
  let r : Refused :=
    { pkg := sourcePkg source, unit := unitOf source va, source := source, tag := tag, lkey := lkey, vpage := va / 4096 }
  if st.refused.contains r then st else { st with refused := st.refused ++ [r] }

/-- The places of an access among the refused requests of its source are given up. -/
def State.taken (st : State) (source tag : Nat) : State :=
  if st.refused.isEmpty then st
  else { st with refused := st.refused.filter fun r => !(r.source == source && r.tag == tag) }

/-- A PARKID that no unresolved park of a unit has, from a number on (R27). -/
def State.freeParkId (st : State) (p unit : Nat) : Nat → Nat → Nat
  | 0, n => n % 2 ^ 32
  | fuel + 1, n =>
    if st.parks.any fun k => k.pkg == p && k.unit == unit && k.id == n % 2 ^ 32 then st.freeParkId p unit fuel (n + 1) else n % 2 ^ 32

/-- An access parked at its unit (R26): behind an earlier park of the page, or with a new record; `tag` tells the accesses of a
source apart, and one that is tried again parks once. A unit that holds 4,096 of them takes no more: the request is refused, and
with it every later one of its source waits (R30). -/
def State.park (st : State) (source lkey va : Nat) (acc : Access) (m : Miss) (tag : Nat) : State :=
  let p := sourcePkg source
  let unit := unitOf source va
  match st.parkOf source lkey va with
  | some k =>
    if k.behind.contains (source, tag) then st
    else if 4096 ≤ st.parkedAt p unit ∨ st.refusedBefore source tag (va / 4096) = true then st.refuse source lkey va tag
    else
      ({ st with parks := updateFirst (· == k) (fun k => { k with behind := k.behind ++ [(source, tag)] }) st.parks }).taken
        source tag
  | none =>
    if 4096 ≤ st.parkedAt p unit ∨ st.refusedBefore source tag (va / 4096) = true then st.refuse source lkey va tag
    else
      let id := st.freeParkId p unit st.parks.length st.nextId
      let record : List Word :=
        [BitVec.ofNat 64 (acc.faultKind * 2 ^ 60 + va % 2 ^ 56),
         BitVec.ofNat 64 (m.level * 2 ^ 48 + m.cause * 2 ^ 40 + sourceEpid source * 2 ^ 16 + lkey % 2 ^ 16),
         BitVec.ofNat 64 m.addr, BitVec.ofNat 64 id]
      let st := { st with nextId := st.nextId + 1 }
      let k : Park :=
        { pkg := p, unit := unit, id := id, lkey := lkey, vpage := va / 4096, cause := m.cause, entry := m.addr,
          behind := [(source, tag)] }
      ({ st with parks := st.parks ++ [k] }.taken source tag).postRecord p unit true record

end Sys2Proof.Machine
end

