-- ==== Sys2Proof/Machine/Launches.lean ====
section
/-!
DEFINITION. Launches as the machine sees them: the fields of a launch packet (R155), virtual and physical numbering
(R12, R153, R370, R406), endpoint identifiers (R10, R11), and what a strand's launch allots (R176).
-/

namespace Sys2Proof.Machine

/-- A word of a launch packet. -/
def Launch.word (l : Launch) (i : Nat) : Nat := (l.packet.getD i 0).toNat

/-- The stages of a launch (R155). -/
def Launch.stages (l : Launch) : Nat := bits (l.word 0) 59 56 + 1

/-- Whether a launch may be pre-empted (R155). -/
def Launch.pree (l : Launch) : Bool := nbit (l.word 0) 55

/-- The v registers of each strand (R155). -/
def Launch.vregs (l : Launch) : Nat := 8 * (bits (l.word 0) 52 50 + 1)

/-- The accumulators of a launch (R155). -/
def Launch.accs (l : Launch) : Nat := bits (l.word 0) 33 28

/-- The operand slots of a launch (R155). -/
def Launch.slots (l : Launch) : Nat := bits (l.word 0) 27 20

/-- COREMASK (R155). -/
def Launch.hasCore (l : Launch) (c : Nat) : Bool := nbit (l.word 2) (22 + c)

/-- The launch of a strand. -/
def State.launchOf (st : State) (k : Nat) : Option Launch := st.launch (st.strand k).lkey

/-- The virtual cluster number, stage * 144 + die * 18 + cluster, of a physical cluster; the physical number within
its package where the launch has no such cluster. -/
def Launch.virtualOf (l : Launch) (cluster : Nat) : Nat :=
  match l.remap.find? fun e => e.2 == cluster with
  | some e => e.1
  | none => cluster % 144

/-- The stage of a physical cluster (R153). -/
def Launch.stageOf (l : Launch) (cluster : Nat) : Nat := l.virtualOf cluster / 144

/-- An endpoint identifier from its fields (R10). -/
def epidOf (pkg die cluster core : Nat) : Nat := pkg * 2 ^ 13 + die * 2 ^ 9 + cluster * 16 + core

/-- The endpoint identifier of a core in a launch's virtual numbering (R12, R153). -/
def Launch.epid (l : Launch) (core : Nat) : Nat :=
  let v := l.virtualOf (core / 16)
  epidOf (v / 144) (v / 18 % 8) (v % 18) (core % 16)

/-- KCOORD.EPID of a strand (R153). -/
def State.epid (st : State) (k : Nat) : Nat :=
  match st.launchOf k with
  | some l => l.epid (coreOf k)
  | none => coreEpid (coreOf k)

/-- KCOORD of a strand (R153). -/
def State.kcoord (st : State) (k : Nat) : Word :=
  let stage := match st.launchOf k with
    | some l => l.stageOf (clusterOf k)
    | none => 0
  BitVec.ofNat 64 (strandNo k * 2 ^ 28 + stage % 16 * 2 ^ 24 + st.epid k % 2 ^ 24)

/-- Whether an agent number of an I/O die is in the table of R10. -/
def agentExists (die agent : Nat) : Bool :=
  agent == 0 || agent == 1 || agent == 2 || (agent == 3 && die == 8) || (0x10 ≤ agent && agent ≤ 0x2F) || agent == 0x40

/-- Whether an endpoint identifier with bit 23 clear is reserved (R11). -/
def epidReserved (t : Nat) : Bool :=
  let die := bits t 12 9
  if die < 8 then 18 ≤ bits t 8 4
  else if die ≤ 9 then !agentExists die (bits t 8 0)
  else true

/-- What a target of a message names (R10, R300). -/
inductive Target where
  | core (core : Nat)
  | agent (pkg iod agent : Nat)
  | expert (name : Nat)
  | reserved
  | absent
  | stranger
  deriving DecidableEq, Repr

/-- The physical package of a virtual one: a stage's package is that of its clusters' mapping (R154, R406). -/
def Launch.package (l : Launch) (v : Nat) : Option Nat :=
  if v < l.stages then
    match l.remap.find? fun e => e.1 / 144 == v with
    | some e => some (e.2 / 144)
    | none => some (l.pkg + v)
  else none

/-- The agent that an identifier names in a launch's numbering, with the checks of R300 in order. -/
def Launch.resolve (l : Launch) (t : Nat) : Target :=
  if nbit t 23 then .expert (t % 2 ^ 23)
  else if epidReserved t then .reserved
  else
    match l.package (bits t 22 13) with
    | none => .absent
    | some p =>
      if 8 ≤ bits t 12 9 then .agent p (bits t 12 9 - 8) (bits t 8 0)
      else
        match tget? l.remap (bits t 22 13 * 144 + bits t 12 9 * 18 + bits t 8 4) with
        | some cl => if l.hasCore (bits t 3 0) then .core (cl * 16 + bits t 3 0) else .stranger
        | none => .stranger

/-- The bank of a core that a launch uses, counted over all cores. -/
def Launch.bankOn (l : Launch) (core : Nat) : Nat := core * 2 + l.bank

/-- The member cores of a launch in member order (R59, R155): stage, virtual die, cluster, core. -/
def Launch.members (l : Launch) : List Nat :=
  l.remap.flatMap fun e => ((List.range 16).filter l.hasCore).map fun c => e.2 * 16 + c

/-- Whether a core is a member of a launch. -/
def Launch.isMember (l : Launch) (core : Nat) : Bool :=
  l.hasCore (core % 16) && l.remap.any fun e => e.2 == core / 16

/-- The physical slot of a launch's slot number (R274). -/
def physSlot (k n : Nat) : Nat :=
  if bankNo k = 1 then 64 + n else n

/-- The physical accumulator of a launch's accumulator number (R274). -/
def physAcc (k n : Nat) : Nat :=
  if bankNo k = 1 then 16 + n else n

/-- The v registers allotted to a strand; all 64 where no launch allots any (R174, R176). -/
def State.vAllot (st : State) (k : Nat) : Nat := (st.launchOf k).elim 64 Launch.vregs

/-- The accumulators allotted to a strand. -/
def State.accAllot (st : State) (k : Nat) : Nat := (st.launchOf k).elim 32 Launch.accs

/-- The operand slots allotted to a strand. -/
def State.slotAllot (st : State) (k : Nat) : Nat := (st.launchOf k).elim 128 Launch.slots

/-- A region counter's key: launch key and region (R150). -/
def regionKey (lkey q : Nat) : Nat := lkey * 16 + q

/-- One more message sent in a region by a core (R150). -/
def State.countSent (st : State) (core lkey q : Nat) : State :=
  st.setCore core fun c => { c with sent := tset 0 c.sent (regionKey lkey q) ((tget 0 c.sent (regionKey lkey q) + 1) % 2 ^ 48) }

/-- One more message received in a region at a core (R150). -/
def State.countRecv (st : State) (core lkey q : Nat) : State :=
  st.setCore core fun c => { c with recv := tset 0 c.recv (regionKey lkey q) ((tget 0 c.recv (regionKey lkey q) + 1) % 2 ^ 48) }

/-- The core at which an agent's messages of a launch are counted: the first member core. -/
def State.countCore (st : State) (lkey : Nat) : Nat :=
  match st.launch lkey with
  | some l => l.members.headD 0
  | none => 0

/-- The step that takes a message at its target (R300, R321, R323, R329, R348, R388): other agents discard it. -/
def msgEvent (m : Msg) (t : Target) : Option Instr :=
  if m.brick.isSome then some (.brickMessageArrival m.id)
  else
    match t with
    | .core _ => some (.messageArrival m.id)
    | .expert _ => some (.tokenArrival m.id)
    | .agent _ _ a =>
      if a = 0 then some (.hquSubmitMessage m.id)
      else if 0x10 ≤ a ∧ a ≤ 0x1F then
        if m.chan = 1 then some (.scoringRequest m.id)
        else if m.chan = 0 then some (.combineContribution m.id)
        else some (.mergeContribution m.id)
      else none
    | _ => none

/-- The package of a message's target, where the identifier names one. -/
def Target.package (t : Target) : Option Nat :=
  match t with
  | .core c => some (pkgOf (8 * c))
  | .agent p _ _ => some p
  | _ => none

/-- Whether a message's target lies on a package that is declared down (R300). -/
def State.lostTarget (st : State) (t : Target) : Bool := t.package.any fun p => (st.pkg p).down

/-- A message put in flight, counted as sent in its region at `at_`; one to an agent that takes no messages, or to a package
that is declared down, is discarded and counted as received at once (R300). -/
def State.post (st : State) (m : Msg) (t : Target) (at_ : Nat) : State :=
  let (id, st) := st.fresh
  let m := { m with id := id, dst := match t with
    | .core c => some c
    | _ => none }
  let st := match m.q with
    | some q => st.countSent at_ m.lkey q
    | none => st
  match if st.lostTarget t then none else msgEvent m t with
  | some e => ({ st with msgs := st.msgs ++ [m] }).owe e
  | none => match m.q with
    | some q => st.countRecv at_ m.lkey q
    | none => st

end Sys2Proof.Machine
end

