-- ==== Sys2Proof/Machine/Traps.lean ====
section
/-!
DEFINITION. Taking a trap: the discarded chunk, the trap record, trap entry, machine checks and kills (R360 to R365).
-/

namespace Sys2Proof.Machine

/-- The cause codes of R364. -/
def causeIllegal : Nat := 0x01

/-- Illegal PC (R364). -/
def causeIllegalPc : Nat := 0x02

/-- Branch target (R364). -/
def causeTarget : Nat := 0x03

/-- Fetch fault (R364). -/
def causeFetch : Nat := 0x04

/-- Non-canonical address (R364). -/
def causeNonCanonical : Nat := 0x05

/-- Alignment (R364). -/
def causeAlignment : Nat := 0x06

/-- Pool bounds (R364). -/
def causeBounds : Nat := 0x0B

/-- Window conflict (R364). -/
def causeWindow : Nat := 0x0C

/-- Window straddle (R364). -/
def causeStraddle : Nat := 0x0D

/-- Unwaited read (R364). -/
def causeUnwaited : Nat := 0x0E

/-- Unallotted resource (R364). -/
def causeUnallotted : Nat := 0x0F

/-- Illegal endpoint (R364). -/
def causeEndpoint : Nat := 0x10

/-- Endpoint absent (R364). -/
def causeAbsent : Nat := 0x11

/-- No next stage (R364). -/
def causeNoStage : Nat := 0x12

/-- Ordered timestamp too low (R364). -/
def causeTimestamp : Nat := 0x13

/-- Malformed brick (R364). -/
def causeBrick : Nat := 0x14

/-- Unsupported host atomic (R364). -/
def causeHostAtomic : Nat := 0x15

/-- No lease (R364). -/
def causeNoLease : Nat := 0x16

/-- Slot not held (R364). -/
def causeSlot : Nat := 0x17

/-- Course handle (R364). -/
def causeHandle : Nat := 0x18

/-- Operand range (R364). -/
def causeOperand : Nat := 0x19

/-- Software trap (R364). -/
def causeSoftware : Nat := 0x1A

/-- Machine check (R364). -/
def causeMachine : Nat := 0x3F

/-- The number of a strand within its package, which is that of its slot in the trap area (R361). -/
def slotNumber (k : Nat) : Nat := k % (8 * 18 * 16 * 8)

/-- The virtual address of a strand's trap slot (R361). -/
def State.trapSlot (st : State) (k : Nat) : Nat := st.trapArea + 64 * slotNumber k

/-- The eight words of a trap record (R362). -/
def State.trapRecord (st : State) (k : Nat) (i : TrapInfo) : List Nat :=
  let t := st.strand k
  [t.lkey % 2 ^ 16 * 2 ^ 48 + strandNo k * 2 ^ 40 + (if i.sv then 2 ^ 24 else 0) + st.epid k % 2 ^ 24,
   i.cause * 2 ^ 56 + i.cspc.toNat % 2 ^ 56,
   i.fpc.toNat % 2 ^ 56,
   i.addr % 2 ^ 64,
   i.brpc.toNat % 2 ^ 56,
   i.time % 2 ^ 64,
   (t.regs.getS 1).toNat,
   0]

/-- The bytes of a trap record (R362). -/
def State.trapBytes (st : State) (k : Nat) (i : TrapInfo) : List Byte := (st.trapRecord k i).flatMap (toBytes 8)

/-- A trap record written to its slot: a store of the trap mechanism to a HOME page (R361), none when it fails. -/
def State.writeRecord (st : State) (k : Nat) (i : TrapInfo) : Option State :=
  let va := st.trapSlot k
  match st.translate (sourceCore (coreOf k)) (st.strand k).lkey va .store true none with
  | (.miss _, _) => none
  | (.ok e, st) =>
    match e.check true (st.strand k).lkey .store with
    | some _ => none
    | none =>
      let a := storageOf (e.phys va)
      if st.rangeAdmits (pkgOf k) (e.phys va) 2 = false ∨ st.regionAt (e.phys va) = .reserved then none
      else
        let bytes := st.trapBytes k i
        let st := st.writeThrough (a / 64) (rangeFrom (a / 8 % 8) (8 - a / 8 % 8)) e.cls e.owner none (some k)
        some (st.applyCells (cellsAt a bytes))

/-- The engine commands and jobs of a context of which an access is parked, or waits for its unit to take it: of a core's accesses,
those numbered below 2^64 are commands' (R28). -/
def State.parkedCmds (st : State) (lkey : Nat) : List Nat :=
  let tags := ((st.parks.filter fun p => p.lkey == lkey).flatMap fun p => p.behind) ++
    (st.refused.filter fun r => r.lkey == lkey).map fun r => (r.source, r.tag)
  nubNat ((tags.filter fun x => x.2 < 2 ^ 64 || x.1 % 4 != 0).map fun x => x.2)

/-- The step by which a source sends again what its full unit refused: KIND 8 is the first that names no access (R27, R30). -/
def Refused.resend (r : Refused) : Instr := .translationMiss r.source r.lkey (r.vpage * 4096) 8

/-- The parked accesses of a context are discarded at every unit (R28); the room that they leave goes to what was refused, which its
sources send again (R30). -/
def State.dropParks (st : State) (lkey : Nat) : State :=
  let st : State :=
    { st with
      parks := st.parks.filter fun p => p.lkey != lkey
      refused := st.refused.filter fun r => r.lkey != lkey }
  st.oweAll ((nubNat (st.refused.map fun r => r.source)).filterMap fun s => (st.refused.find? fun r => r.source == s).map Refused.resend)

/-- Whether a kill has cut off an engine command: one of its accesses was discarded (R28). -/
def State.isCut (st : State) (lkey cmd : Nat) : Bool := (st.launch lkey).any fun l => l.cut.contains cmd

/-- A strand's chunks that have not reached their commit point are discarded, the oldest with every later one. -/
def State.discardAll (st : State) (k : Nat) : State :=
  match (st.strand k).chunks.reverse.find? fun c => !c.committed with
  | some c => st.discard k c.id
  | none => st

/-- A launch is killed (R363): its strands stop, their chunks and its parked accesses are discarded, but for chunks past their
commit point, and the engine commands of which a parked access is discarded are cut off (R28); the end steps of R159 follow at
the wave that finds its commands finished. -/
def State.kill (st : State) (lkey : Nat) : State :=
  let ks := st.strandsOn fun k => (st.strand k).lkey == lkey && (st.strand k).run != .free
  let cut := st.parkedCmds lkey
  let st := st.each ks fun st k =>
    let st := ((st.discardAll k).setStrand k fun t => { t with run := .free, trap := none, sole := none, marks := [] }).releaseLease k
    if (st.die (dieOf k)).token = some k then (st.setDie (dieOf k) fun d => { d with token := none }).grantToken (dieOf k) else st
  (st.dropParks lkey).setLaunch lkey fun l => { l with killed := true, cut := nubNat (l.cut ++ cut) }

/-- A report of the security processor of a package (R363, R384). -/
def State.reportSecurity (st : State) (p : Nat) (r : SecurityReport) : State :=
  st.setPkg p fun g => { g with security := g.security ++ [r] }

/-- A machine check (R363): the strand goes back to the checkpoint of its oldest chunk that has not committed, the record is written
if it can be, the security processor has a report, and the launch is killed without entering a handler. The start of that chunk is
the chunk-start PC of the record. Whether a machine check disables its package, which is then declared down, is not given (R371;
log 121, DESIGN CHOICE). -/
def State.machineCheck (st : State) (k addr : Nat) (fpc : Word) (recorded : Bool) : State :=
  let st := st.discardAll k
  let t := st.strand k
  let i : TrapInfo :=
    { cause := causeMachine, addr := addr, time := st.time, fpc := fpc, cspc := t.pc, sv := t.sv, brpc := t.brpc }
  let st := if recorded then (st.writeRecord k i).getD st else st
  let st := (st.kill t.lkey).reportSecurity (pkgOf k) (.machineCheck k causeMachine addr)
  if Config.machineCheckDisables st.tick then st.owe (.packageDeclaredDown (pkgOf k)) else st

/-- The 64 bytes of a fetch line for a strand in a mode, none where a check of R18 fails or the address is an aperture
address (R40); the strand's live chunk has then translated through the entry (R21). -/
def State.fetchLine (st : State) (k : Nat) (sv : Bool) (pc : Nat) : Option (List Byte) × State :=
  let t := st.strand k
  if bits pc 55 48 = 0xFF then (none, st)
  else
    match st.translate (sourceCore (coreOf k)) t.lkey (pc / 64 * 64) .fetch true none with
    | (.miss _, st) => (none, st)
    | (.ok e, st) =>
      let a := storageOf (e.phys (pc / 64 * 64))
      if (e.check sv t.lkey .fetch).isSome ∨ st.rangeAdmits (pkgOf k) (e.phys (pc / 64 * 64)) 1 = false then (none, st)
      else
        (some (st.currentBytes a 64),
          st.setStrand k fun t => t.setLive fun c => { c with used := (e.vpage, e.pages) :: c.used })

/-- Whether a fetch line can be fetched by a strand in a mode. -/
def State.fetchable (st : State) (k : Nat) (sv : Bool) (pc : Nat) : Bool := (st.fetchLine k sv pc).1.isSome

/-- Trap entry (R361): the record is written, KEPC takes the chunk-start PC and the mode, the strand enters supervisor
mode with TF set, s1 takes the slot's address, and the strand goes on at the trap entry PC. A record that cannot be
written, or an entry that cannot be fetched, is a machine check (R363). -/
def State.enterTrap (st : State) (k : Nat) : State :=
  match (st.strand k).trap with
  | none => st
  | some i =>
    match st.writeRecord k i with
    | none => st.machineCheck k (st.trapSlot k) i.fpc false
    | some st =>
      if st.fetchable k true st.trapPc.toNat = false then st.machineCheck k (st.trapPc.toNat / 64 * 64) st.trapPc true
      else
        st.setStrand k fun t =>
          { t with
            trap := none, run := .running, sv := true, tf := true, pc := st.trapPc,
            kepc := BitVec.ofNat 64 ((if i.sv then 2 ^ 63 else 0) + i.cspc.toNat % 2 ^ 56),
            regs := t.regs.setS 1 (BitVec.ofNat 64 (st.trapSlot k)) }

/-- A trap of a strand in one of its chunks (R360): while TF is set it kills the launch (R363); else the chunk is
discarded, and trap entry follows once every earlier chunk of the strand has committed. -/
def State.raiseIn (st : State) (k id : Nat) (cause addr : Nat) (fpc : Word) : State :=
  let t := st.strand k
  if t.tf then st.kill t.lkey
  else
    let start := ((t.chunks.find? fun c => c.id == id).map fun c => c.startPc).getD t.pc
    let i : TrapInfo := { cause := cause, addr := addr, time := st.time, fpc := fpc, cspc := start, sv := t.sv, brpc := t.brpc }
    let st := (st.discard k id).setStrand k fun t => { t with trap := some i, run := .trapping }
    if (st.strand k).chunks.all fun c => c.committed then st.enterTrap k else st.owe (.trapEntry k)

/-- A trap at the acting strand's instruction (Trap of R186). -/
def State.raise (st : State) (cause addr : Nat) : State := st.raiseIn st.cur st.chunk.id cause addr st.me.pc

/-- A trap that reports another PC as the faulting one (R165, R365). -/
def State.raiseAt (st : State) (cause addr : Nat) (fpc : Word) : State := st.raiseIn st.cur st.chunk.id cause addr fpc

end Sys2Proof.Machine
end

