-- ==== Sys2Proof/Machine/Issue.lean ====
section
/-!
DEFINITION. How an instruction of a strand issues: the checks of R192 from the guard to the unwaited reads, in their
order, and then its own effect.
-/

namespace Sys2Proof.Machine

/-- Whether lane `i` of a guard is on (R173). -/
def State.laneOn (st : State) (g : Guard) (i : Nat) : Bool := (st.me.regs.getP g.p.toNat).getLsbD i != g.neg

/-- Whether a guard lets a scalar instruction execute (R173). -/
def State.scalarOn (st : State) (g : Guard) : Bool := st.laneOn g 0

/-- The active elements of a vector instruction in a type, in ascending order (R173, R254). -/
def State.activeIn (st : State) (g : Guard) (t : Nat) : List Nat := (List.range (elemCount t)).filter (st.laneOn g)

/-- What is checked before an instruction's own effect: the registers it reads or writes other than its guard (R179),
whether it needs supervisor mode, and a resource that the launch has not been allotted (R176). -/
structure Needs where
  regs : List Nat := []
  sup  : Bool := false
  lack : Option Nat := none
  deriving DecidableEq, Repr

/-- An instruction has retired and the strand goes on with the next slot (R97, R164). -/
def State.finish (st : State) : State := st.retire.advance

/-- Steps 4 to 7 of R192 and then an instruction's own effect: a pending guard register traps, an instruction guarded
off only counts (R173), a privileged one traps outside supervisor mode, then a resource that is not allotted, then the
first pending register. DESIGN CHOICE and unsafe (log 118): of several pending registers R179 does not say which one's number is
reported; the model reports the first in the order in which the instruction's meaning lists them. -/
def State.checked (st : State) (g : Guard) (on : Bool) (n : Needs) (body : State → State) : State :=
  if g.p ≠ 0 ∧ st.me.pending (regP g.p.toNat) = true then st.raise causeUnwaited g.p.toNat
  else if on = false then st.finish
  else if n.sup = true ∧ st.me.sv = false then st.raise causePrivilege 0
  else
    match n.lack with
    | some r => st.raise causeUnallotted r
    | none =>
      match n.regs.find? st.me.pending with
      | some r => st.raise causeUnwaited (regNumber r)
      | none => body st

/-- An instruction of the acting strand: its chunk is open, its checks are made, and its effect follows. -/
def State.issue (st : State) (g : Guard) (on : Bool) (n : Needs) (body : State → State) : Out :=
  if strandLimit ≤ st.cur then .fault .noSuchStrand else .next (st.openChunk.checked g on n body)

/-- A scalar instruction (R173). -/
def State.scalar (st : State) (g : Guard) (n : Needs) (body : State → State) : Out :=
  st.issue g (st.scalarOn g) n body

/-- A vector instruction in a type: with no active element it has no effect (R173, R254). -/
def State.vector (st : State) (g : Guard) (t : Nat) (n : Needs) (body : State → State) : Out :=
  st.issue g (!(st.activeIn g t).isEmpty) n body

end Sys2Proof.Machine
end

