-- ==== Sys2Proof/Machine/Operands.lean ====
section
/-!
DEFINITION. Operand forms: operand b of the scalar integer instructions (R168, R194), the memory operand (R169, R186),
the sources of vector instructions (R253, R257), and the register lists that the checks of R179 take.
-/

namespace Sys2Proof.Machine

/-- The 64-bit sign extension of IMM (R168). -/
def Ops.immWord (o : Ops) : Word := o.imm.signExtend 64

/-- Operand b of a scalar integer instruction (R194). -/
def State.operandB (st : State) (o : Ops) : Word := if o.iFlag then Ops.immWord o else st.s o.sb

/-- The registers of a scalar integer instruction: destination, SA, and SB with I = 0. -/
def intRegs (o : Ops) : List Nat :=
  [regS o.dst.toNat, regS o.sa.toNat] ++ (if o.iFlag then [] else [regS o.sb.toNat])

/-- The address that a memory operand forms, before its check (R169, R186). -/
def State.formed (st : State) (o : Ops) : Nat :=
  (st.s o.sa + st.s o.sb * BitVec.ofNat 64 (2 ^ o.scale) + Ops.immWord o).toNat

/-- Whether an address is canonical (R7). -/
def canonical (a : Nat) : Bool := a < 2 ^ 56

/-- The base and index registers of a memory operand. -/
def addrRegs (o : Ops) : List Nat := [regS o.sa.toNat, regS o.sb.toNat]

/-- The register number of a scalar operand of a vector instruction in its type (R257). -/
def scalarReg (t : Nat) (r : BitVec 6) : Nat := if intType t then regS r.toNat else regF r.toNat

/-- The value of a scalar operand of a vector instruction in its type (R257). -/
def State.scalarOperand (st : State) (t : Nat) (r : BitVec 6) : Nat :=
  (if intType t then (st.s r).toNat else (st.f r).toNat) % 2 ^ typeWidth t

/-- Element `i` of a vector register of the acting strand (R253). -/
def State.elem (st : State) (t : Nat) (r : BitVec 6) (i : Nat) : Nat := st.me.regs.getElem t r.toNat i

/-- An f register's operand in a floating-point type: its low bits (R202). -/
def State.fOperand (st : State) (t : Nat) (r : BitVec 6) : Nat := (st.f r).toNat % 2 ^ typeWidth t

/-- Elements written to a vector register in ascending order. -/
def State.writeElems (st : State) (t : Nat) (r : BitVec 6) (xs : List (Nat × Nat)) : State :=
  st.setRegs fun g => xs.foldl (fun g e => g.setElem t r.toNat e.1 e.2) g

/-- The first of some v registers that lies at or beyond the launch's allotted count (R176), in the order in which the instruction's
meaning lists them (log 55, DESIGN CHOICE). -/
def State.lackV (st : State) (rs : List (BitVec 6)) : Option Nat :=
  (rs.find? fun r => st.vAllot st.cur ≤ r.toNat).map fun r => r.toNat

end Sys2Proof.Machine
end

