-- ==== Sys2Proof/Machine/Control.lean ====
section
/-!
DEFINITION. Control transfer (R208), waiting, chunks and the end of a run (R209 to R214), control registers (R215 to
R218), the supervisor instructions (R219 to R221), and the steps that end a wait of a strand.
-/

namespace Sys2Proof.Machine

/-! ### Transfers -/

/-- The checks of a taken transfer at its target, in the order of R208, and the transfer: a PC that is not canonical, for a
register target a PC that names no slot, a fetch fault at the target, and, where `tgt` asks for it, the branch-target mask of
the line (R165). `sv` is the mode in which the target is fetched (R219). A fetch fault or a branch-target trap reports the
target as the faulting PC and the transfer's PC as BRPC (R365). -/
def State.transfer (st : State) (target : Nat) (sv isReg tgt taken : Bool) (done : State → State) : State :=
  if 2 ^ 56 ≤ target then st.raise causeNonCanonical target
  else if isReg && (bits target 5 3 != 0 || 5 ≤ target % 8) then st.raise causeIllegalPc target
  else
    let pc := BitVec.ofNat 64 target
    let moved := st.setMe fun t => { t with brpc := t.pc }
    match moved.fetchLine st.cur sv target with
    | (none, moved) => moved.raiseAt causeFetch target pc
    | (some bs, moved) =>
      if tgt && !nbit (fromBytes (bs.drop 60)) (target % 8) then moved.raiseAt causeTarget target pc
      else
        let st := if taken then moved else moved.setMe fun t => { t with brpc := st.me.brpc }
        done (st.setPc pc)

/-- A taken transfer by an offset in slots (R164, R208). Where SlotAdd leaves the canonical range it forms no address for the record, and
the trap gives the instruction's own PC (log 52, DESIGN CHOICE). -/
def State.jumpBy (st : State) (o : Ops) : State :=
  match slotAdd st.me.pc (Ops.immWord o).toInt with
  | none => st.raise causeNonCanonical st.me.pc.toNat
  | some t => st.transfer t.toNat st.me.sv false true true State.retire

/-- BR (R208). -/
def execBr (o : Ops) (st : State) : Out := st.scalar o.g {} fun st => st.jumpBy o

/-- J: PC bits 55:51, IMM[47:3] and IMM[2:0] (R208). -/
def execJ (o : Ops) (st : State) : Out :=
  st.scalar o.g {} fun st =>
    st.transfer (bits st.me.pc.toNat 63 51 * 2 ^ 51 + o.immBits 47 3 * 64 + o.immBits 2 0) st.me.sv false true true
      State.retire

/-- JR (R208). -/
def execJr (o : Ops) (st : State) : Out :=
  st.scalar o.g { regs := [regS o.sa.toNat] } fun st => st.transfer (st.s o.sa).toNat st.me.sv true true true State.retire

/-- CALL: the link, then the transfer (R208). A target or a link outside the canonical range traps with the instruction's own PC as
address (log 52, DESIGN CHOICE). -/
def execCall (o : Ops) (st : State) : Out :=
  st.scalar o.g { regs := [regS o.dst.toNat] } fun st =>
    match slotAdd st.me.pc (Ops.immWord o).toInt, slotAdd st.me.pc 1 with
    | some t, some link => (st.writeS o.dst link).transfer t.toNat st.me.sv false true true State.retire
    | _, _ => st.raise causeNonCanonical st.me.pc.toNat

/-- CALL.REG: the source is read before the link is written (R208). A link outside the canonical range traps with the instruction's own
PC as address (log 52, DESIGN CHOICE). -/
def execCallReg (o : Ops) (st : State) : Out :=
  st.scalar o.g { regs := [regS o.dst.toNat, regS o.sa.toNat] } fun st =>
    match slotAdd st.me.pc 1 with
    | some link => (st.writeS o.dst link).transfer (st.s o.sa).toNat st.me.sv true true true State.retire
    | none => st.raise causeNonCanonical st.me.pc.toNat

/-- RET has the effect of JR (R208). -/
def execRet (o : Ops) (st : State) : Out :=
  st.scalar o.g { regs := [regS o.sa.toNat] } fun st => st.transfer (st.s o.sa).toNat st.me.sv true true true State.retire

/-- LOOP: the counter falls by one, and the branch is taken while it is not zero (R208). -/
def execLoop (o : Ops) (st : State) : Out :=
  st.scalar o.g { regs := [regS o.dst.toNat] } fun st =>
    let x := st.s o.dst - 1
    let st := st.writeS o.dst x
    if x = 0 then st.finish else st.jumpBy o

/-! ### Waiting and the end of chunks and runs -/

/-- WAIT: a strand whose counters exceed a limit stalls; else the marks that the ld limit guarantees are removed
(R209). -/
def execWait (o : Ops) (st : State) : Out :=
  st.scalar o.g {} fun st =>
    if st.within .ld (o.immBits 5 0) && st.within .st (o.immBits 11 6) && st.within .cp (o.immBits 17 12) &&
        st.within .tl (o.immBits 23 18) then (st.clearMarks (o.immBits 5 0)).finish
    else st

/-- CHUNK (R210). -/
def execChunk (o : Ops) (st : State) : Out := st.scalar o.g {} fun st => st.finish.endChunk

/-- The end of a run or brick by DONE, SUSP or QWAIT (R211): its chunk ends, and at that chunk's apply the run does. -/
def State.endRun (st : State) : State :=
  ((st.hold .endRun).finish.setMe fun t => { t with run := .ending }).endChunk

/-- DONE stalls until ld is zero and then ends the run (R211). -/
def execDone (o : Ops) (st : State) : Out :=
  st.scalar o.g {} fun st => if st.me.count .ld = 0 then st.endRun else st

/-- YIELD: the strand issues nothing for n cycles, where n is IMM bits 15:0 (R213). -/
def execYield (o : Ops) (st : State) : Out :=
  st.scalar o.g {} fun st =>
    (st.finish.setMe fun t => { t with run := .yielding, wake := st.time + o.immBits 15 0 }).owe (.yieldExpiry st.cur)

/-- The wake-up of a strand that waits in a given way. -/
def State.resumeFrom (st : State) (k : Nat) (r : Run) : State :=
  if (st.strand k).run = r then st.setStrand k fun t => { t with run := .running } else st

/-- YIELD_EXPIRY: the strand issues again once its cycles have passed (R213). -/
def execYieldExpiry (k : Nat) (st : State) : Out :=
  if strandLimit ≤ k then .fault .noSuchStrand
  else if (st.strand k).run = .yielding ∧ st.time < (st.strand k).wake then .next (st.owe (.yieldExpiry k))
  else .next (st.resumeFrom k .yielding)

/-- TRAP (R214): the chunk before it ends and commits first, and the software trap is raised in a chunk that holds only
the TRAP. -/
def execTrap (o : Ops) (st : State) : Out :=
  st.scalar o.g {} fun st =>
    if st.chunk.count ≠ 0 then st.endChunk
    else if 1 < st.me.chunks.length then st
    else st.raise causeSoftware (o.immBits 15 0)

/-- INSTRUCTION_LIMIT_CHUNK_END: the live chunk ends once 512 instructions have retired in it (R97). -/
def execInstructionLimitChunkEnd (k : Nat) (st : State) : Out :=
  if strandLimit ≤ k then .fault .noSuchStrand
  else
    match (st.strand k).live with
    | some c => if 512 ≤ c.count then .next (st.seal k) else .next st
    | none => .next st

/-! ### Control registers -/

/-- The fields of a control register that software can write (R6, R216). -/
def writableBits (reg : Nat) : Word :=
  match reg with
  | 0x003 => 0x0FFFFFFFFFFFF000
  | 0x008 => 0x80FFFFFFFFFFFFFF
  | 0x010 => 0xFFFFFFFFFFFFFFFF
  | 0x011 => 0xFFFFFFFFFFFFFFFF
  | 0x018 => 0xFFFFFFFF
  | 0x019 => 1
  | _ => 0

/-- A write to a register that keeps its read-only bits (R6). -/
def merged (reg : Nat) (old new : Word) : Word := (old &&& ~~~writableBits reg) ||| (new &&& writableBits reg)

/-- A pool boundary register: BOUND in units of 4 KiB (R37). -/
def boundWord (off : Nat) : Word := BitVec.ofNat 64 (off / 4096 * 4096)

/-- The value of a control register for a strand, before its held writes (R216). -/
def State.controlAt (st : State) (k reg : Nat) : Word :=
  let t := st.strand k
  let b := st.bank (bankOf k)
  match reg with
  | 0x000 => 0x356
  | 0x001 => st.kcoord k
  | 0x002 => BitVec.ofNat 64 (t.lkey % 2 ^ 16)
  | 0x003 => ((st.launch t.lkey).map fun l => l.ptroot).getD 0
  | 0x004 => boundWord b.kbReg
  | 0x005 => boundWord b.kbSpad
  | 0x006 => boundWord b.kbL1
  | 0x007 => BitVec.ofNat 64 st.time
  | 0x008 => t.kepc
  | 0x010 => (st.core (coreOf k)).khdrop
  | 0x011 => (st.core (coreOf k)).ksquash
  | 0x018 => (st.pkg (pkgOf k)).kxdom.setWidth 64
  | 0x019 => if (st.pkg (pkgOf k)).khostemu then 1 else 0
  | _ => 0

/-- A control register as the acting strand reads it: held writes of its live chunk are seen (R215). -/
def State.control (st : State) (reg : Nat) : Word :=
  st.chunk.held.foldl (fun x h => match h with
    | .kwr r v => if r = reg then merged reg x v else x
    | _ => x) (st.controlAt st.cur reg)

/-- A control register written at the apply of its chunk (R215). -/
def State.setControl (st : State) (k reg : Nat) (v : Word) : State :=
  let new := merged reg (st.controlAt k reg) v
  match reg with
  | 0x003 => st.setLaunch (st.strand k).lkey fun l => { l with ptroot := new }
  | 0x008 => st.setStrand k fun t => { t with kepc := new }
  | 0x010 => st.setCore (coreOf k) fun c => { c with khdrop := new }
  | 0x011 => st.setCore (coreOf k) fun c => { c with ksquash := new }
  | 0x018 => st.setPkg (pkgOf k) fun g => { g with kxdom := new.setWidth 32 }
  | 0x019 => st.setPkg (pkgOf k) fun g => { g with khostemu := new.getLsbD 0 }
  | _ => st

/-- KRD (R215): KEPC only in supervisor mode (R216). -/
def execKrd (o : Ops) (st : State) : Out :=
  st.scalar o.g { regs := [regS o.dst.toNat], sup := o.immBits 11 0 == 0x008 } fun st =>
    (st.writeS o.dst (st.control (o.immBits 11 0))).finish

/-- Whether a KWR of a register needs supervisor mode (R216). -/
def kwrPrivileged (reg : Nat) : Bool :=
  reg == 0x003 || reg == 0x008 || reg == 0x010 || reg == 0x011 || reg == 0x018 || reg == 0x019

/-- KWR: held until its chunk's apply (R215). -/
def execKwr (o : Ops) (st : State) : Out :=
  st.scalar o.g { regs := [regS o.sa.toNat], sup := kwrPrivileged (o.immBits 11 0) } fun st =>
    (st.hold (.kwr (o.immBits 11 0) (st.s o.sa))).finish

/-! ### Supervisor instructions -/

/-- ERET: the PC and mode of KEPC; the trap flag is cleared (R219, R363). It is no taken transfer for BRPC. -/
def execEret (o : Ops) (st : State) : Out :=
  st.scalar o.g { sup := true } fun st =>
    let k := st.control 0x008
    st.transfer (k.toNat % 2 ^ 56) (k.getLsbD 63) true false false fun st =>
      (st.setMe fun t => { t with sv := k.getLsbD 63, tf := false }).retire

/-- INVP (R220): held until its chunk's commit, after which the strand issues nothing until it has completed. -/
def execInvp (o : Ops) (st : State) : Out :=
  let scope := o.modBits 58 57
  let regs := if scope = 0 then [regS o.sa.toNat, regS o.sb.toNat] else if scope = 1 then [regS o.sb.toNat] else []
  st.scalar o.g { regs := regs, sup := true } fun st =>
    let va := (st.s o.sa).toNat
    if scope = 0 ∧ ¬ canonical va then st.raise causeNonCanonical va
    else
      let n := o.immBits 35 0
      ((st.hold (.invp scope (o.modBit 56) va (st.s o.sb).toNat n)).finish.setMe fun t =>
        { t with run := .invp }).endChunk

/-- HALT: the strand stops at its PC, and its chunk stays live (R221). -/
def execHalt (o : Ops) (st : State) : Out :=
  st.scalar o.g { sup := true } fun st => st.setMe fun t => { t with run := .halted }

/-- HALT_RELEASE: the strand goes on at the slot after the HALT, or its launch is killed (R221). -/
def execHaltRelease (k : Nat) (resume : Bool) (st : State) : Out :=
  if strandLimit ≤ k then .fault .noSuchStrand
  else if (st.strand k).run ≠ .halted then .next st
  else if resume then
    .next (st.setStrand k fun t =>
      { t.setLive (fun c => { c with count := c.count + 1 }) with run := .running, pc := nextPc t.pc })
  else .next (st.kill (st.strand k).lkey)

end Sys2Proof.Machine
end

