-- ==== Sys2Proof/Machine/Access.lean ====
section
/-!
DEFINITION. Memory accesses of strands: where the bytes of an access lie, with the checks of R223 in their order, what
a chunk's version shows of them (R98), what they enter into signatures (R99), what is read at once and what is asked of
the homes, and how a missing translation parks an instruction (R26).
-/

namespace Sys2Proof.Machine

/-! ### Where an access goes -/

/-- The class number that stands for a pool byte outside every window. -/
def clsPool : Nat := 6

/-- A resolved access: the storage address and class of each byte, the window that holds it, if one does, the packages and
ports of the host memory that it reaches (R9), its words that are reached through a port that trained as PCIe only (R94) and
through host port 1 (R9, R22), and the window words that the access touches between its elements (R265). -/
structure Spot where
  locs : List (Nat × Nat)
  win  : Option (Nat × Nat) := none
  ports : List (Nat × Nat) := []
  pcie  : List Nat := []
  port1 : List Nat := []
  touch : List Nat := []
  deriving DecidableEq, Repr

/-- The fabric address by which an access reaches one of its storage addresses: through host port 1 local address bit 47 is set (R9,
R22). -/
def Spot.physAt (s : Spot) (a : Nat) : Nat := if s.port1.contains (a / 8) then a + 2 ^ 47 else a

/-- The outcome of resolving one element. -/
inductive Res where
  | ok (s : Spot)
  | trap (cause addr : Nat)
  | miss (page : Nat)
  deriving DecidableEq, Repr

/-- The parts of a range that lie in one 4 KiB page each. -/
def segments (va n : Nat) : List (Nat × Nat) :=
  (rangeFrom (va / 4096) ((va + n - 1) / 4096 + 1 - va / 4096)).map fun p =>
    let lo := max va (p * 4096)
    (lo, min (va + n) ((p + 1) * 4096) - lo)

/-- A chunk notes a translation that it has used (R21). -/
def State.noteUsed (st : State) (k id : Nat) (e : TlbEntry) : State :=
  st.setChunkOf k id fun c => if c.used.contains (e.vpage, e.pages) then c else { c with used := (e.vpage, e.pages) :: c.used }

/-- Who makes an access: the strand, its chunk, the mode in which the instruction issued (R18, R219), and the number that tells
the accesses of the source apart (R26). -/
structure Who where
  k   : Nat
  id  : Nat
  sv  : Bool
  tag : Nat
  deriving DecidableEq, Repr

/-- The number of a memory instruction among the accesses of its source: its chunk, and its number on ld or st or its place in
the version. -/
def MemOp.who (m : MemOp) (k id : Nat) : Who :=
  { k := k, id := id, sv := m.sv
    tag := id * 2 ^ 64 + match m.seq with
      | some q => 2 * q
      | none => 2 * m.at_ + 1 }

/-- The number by which an instruction that waits at issue for a translation is told apart from the other accesses of its core
(R26). -/
def State.issueTag (st : State) : Nat := st.chunk.id * 2 ^ 64 + 2 ^ 63 + st.chunk.count

/-- The translations of every page of a range; a page without one parks the access at its unit (R26, R223). -/
def State.translateAll (st : State) (w : Who) (va n : Nat) (acc : Access) : Option Nat × List (Nat × Nat × TlbEntry) × State :=
  let lkey := (st.strand w.k).lkey
  let source := sourceCore (coreOf w.k)
  (segments va n).foldl (fun (r : Option Nat × List (Nat × Nat × TlbEntry) × State) s =>
    match r.2.2.translate source lkey s.1 acc w.sv (some w.tag) with
    | (.miss m, st) => (some (r.1.getD (s.1 / 4096)), r.2.1, st.park source lkey s.1 acc m w.tag)
    | (.ok e, st) => (r.1, r.2.1 ++ [(s.1, s.2, e)], st.noteUsed w.k w.id e)) (none, [], st)

/-- Whether a class may hold a join: PRIV, HOME or SPAN (R212, R304). -/
def joinClass (cls : Nat) : Bool := cls == 0 || cls == 2 || cls == 3

/-- The first failed check of R18, steps 3 to 6, over the pages of a range, and the check of R304 on the class of a
join. -/
def checkSegs (sv : Bool) (lkey : Nat) (acc : Access) (join : Bool) (ss : List (Nat × Nat × TlbEntry)) :
    Option (Nat × Nat) :=
  ss.findSome? fun s =>
    match s.2.2.check sv lkey acc with
    | some c => some (c, s.1)
    | none => if join && !joinClass s.2.2.cls then some (causeClass, s.1) else none

/-- The words of an access that its pages reach through a port that trained as PCIe only (R94). -/
def State.pcieWords (st : State) (ss : List (Nat × Nat × TlbEntry)) : List Nat :=
  nubNat (ss.flatMap fun s =>
    if st.viaPcie (s.2.2.phys s.1) then wordsOf (storageOf (s.2.2.phys s.1)) s.2.1 else [])

/-- The words of an access that its pages reach through host port 1 (R9, R22). -/
def port1Words (ss : List (Nat × Nat × TlbEntry)) : List Nat :=
  nubNat (ss.flatMap fun s =>
    let a := s.2.2.phys s.1
    if isHost a && nbit a 47 then wordsOf (storageOf a) s.2.1 else [])

/-- An access to translated memory. -/
def State.resolveMemory (st : State) (w : Who) (va n : Nat) (acc : Access) (join : Bool) : Res × State :=
  match st.translateAll w va n acc with
  | (some page, _, st) => (.miss page, st)
  | (none, ss, st) =>
    match checkSegs w.sv (st.strand w.k).lkey acc join ss with
    | some (c, a) => (.trap c a, st)
    | none =>
      (.ok
        { locs := ss.flatMap fun s => (rangeFrom s.1 s.2.1).map fun a => (storageOf (s.2.2.phys a), s.2.2.cls)
          ports := ss.filterMap fun s =>
            let a := s.2.2.phys s.1
            if isHost a then some (pkgOfAddr a, bits a 47 47) else none
          pcie := st.pcieWords ss, port1 := port1Words ss }, st)

/-- The scratchpad bytes of a bank (R36). -/
def Bank.spad (b : Bank) : Nat := b.kbSpad - b.kbReg

/-- The end of the L1 region of a bank: that of a displaced one is cut (R36, R39). -/
def Bank.l1End (b : Bank) : Nat := if b.frozen then min b.kbL1 (2 ^ 18) else b.kbL1

/-- The first offset of the inbox (R43). -/
def Bank.inboxAt (b : Bank) : Nat := b.spad - 16384

/-- The words of a window that an access touches and that are not valid, among some pool words. -/
def State.invalidWords (st : State) (bank w : Nat) (ws : List Nat) : List Nat :=
  let b := st.bank bank
  match tget? b.windows w with
  | none => []
  | some x => ws.filter fun p => !x.valid.contains ((poolOff (p * 8) - b.kbReg - x.pool) / 8)

/-- The writes that an access of a chunk must see: those of the strand's earlier chunks and its own up to a point that
touch one of some words (R98). -/
def State.seen (st : State) (k id upto : Nat) (ws : List Nat) : List VWrite :=
  let cs := (st.strand k).chunks.reverse
  let before := (cs.takeWhile fun c => c.id != id).flatMap fun c => c.writes
  let own := ((cs.find? fun c => c.id == id).map fun c => c.writes.take upto).getD []
  (before ++ own).filter fun w => w.locs.any fun a => ws.contains (a / 8)

/-- Whether the version alone gives some bytes of a word: plain stores cover them and no atomic touches the word. -/
def covered (ws : List VWrite) (w : Nat) (bytes : List Nat) : Bool :=
  (ws.all fun x => x.new.isNone || !(x.locs.any fun a => a / 8 == w)) &&
    bytes.all fun a => ws.any fun x => x.locs.contains a

/-- The writes of a chunk up to a point (R98). -/
def State.ownWrites (st : State) (k id upto : Nat) : List VWrite := ((st.chunkOf k id).map fun c => c.writes.take upto).getD []

/-- Whether some writes write one of some bytes. -/
def writesAny (ws : List VWrite) (bytes : List Nat) : Bool := ws.any fun w => w.locs.any bytes.contains

/-- The words of a window access that must be filled first: for a load those that the version does not give, for a
store those of which `written` takes in a part only (R50). A stale load of a SPAN window of which its own chunk has stored no byte
reads the window alone (R227). -/
def State.mustFill (st : State) (k id upto bank w : Nat) (acc : Access) (locs written : List Nat) : List Nat :=
  let ws := nubNat (locs.map wordOf)
  let stale := acc == .lds && ((tget? (st.bank bank).windows w).any fun x => x.cls == 3) && !writesAny (st.ownWrites k id upto) locs
  let seen := if stale then [] else st.seen k id upto ws
  let need := ws.filter fun p =>
    if acc.writes then (written.filter fun a => wordOf a == p).length < 8
    else !covered seen p (locs.filter fun a => wordOf a == p)
  st.invalidWords bank w need

/-- A store into a window asks for D through the entries that its source holds, and needs no translation itself (R20, R49, log
103). -/
def State.noteWindowStore (st : State) (w : Who) (va n : Nat) : State :=
  let lkey := (st.strand w.k).lkey
  let source := sourceCore (coreOf w.k)
  st.each (segments va n) fun st s =>
    if st.tlb.any fun e => e.maps source lkey s.1 then (st.translate source lkey s.1 .store w.sv none).2 else st

/-- The pages of a range noted as used by a chunk, which has reached them through a window (R21, R49). -/
def State.notePages (st : State) (k id va n : Nat) : State :=
  let ps := (segments va n).map fun s => (s.1 / 4096, 1)
  st.setChunkOf k id fun c => { c with used := c.used ++ ps.filter fun p => !c.used.contains p }

/-- A window whose pages have the translations just found for them (R237). -/
def Window.retranslated (x : Window) (ps : List (Nat × Nat)) : Window :=
  { x with
    pages := ps.foldl (fun t p => tput t p.1 p.2) x.pages
    stale := x.stale.filter fun v => !(ps.any fun p => p.1 == v) }

/-- A window of a bank changed. -/
def Bank.setWindow (b : Bank) (w : Nat) (f : Window → Window) : Bank :=
  { b with windows := b.windows.map fun e => if e.1 = w then (e.1, f e.2) else e }

/-- A window access: a store into a read-only window is a class violation, as is a join where the window's class may hold none
(R212, R304), and words to be filled are translated and checked as loads (R51). An access to a page whose translation has been
dropped since it was last found is translated and checked so too, where it needs no fill (log 122, DESIGN CHOICE). `written` are the
bytes that a store writes. -/
def State.resolveWindow (st : State) (who : Who) (upto bank w va n : Nat) (acc : Access) (join : Bool) (locs written : List Nat) :
    Res × State :=
  match tget? (st.bank bank).windows w with
  | none => (.trap causeBounds va, st)
  | some x =>
    if (x.ro && acc.writes) || (join && !joinClass x.cls) then (.trap causeClass va, st)
    else
      let st := if acc.writes then st.noteWindowStore who va n else st
      let st := st.notePages who.k who.id va n
      let fills := st.mustFill who.k who.id upto bank w acc locs written
      let ok : Res := .ok { locs := locs.map fun a => (a, x.cls), win := some (bank, w), touch := fills }
      if fills.isEmpty && !((segments va n).any fun s => x.stale.contains (s.1 / 4096)) then (ok, st)
      else
        match st.translateAll who va n .fill with
        | (some page, _, st) => (.miss page, st)
        | (none, ss, st) =>
          match checkSegs who.sv (st.strand who.k).lkey .fill false ss with
          | some (c, a) => (.trap c a, st)
          | none =>
            let ps := ss.map fun s => (s.1 / 4096, s.2.2.phys (s.1 / 4096 * 4096))
            (ok, st.setBank bank fun b => b.setWindow w fun x => x.retranslated ps)

/-- What an aperture address selects (R40, R41). -/
structure Aperture where
  core : Nat
  bank : Nat
  own  : Bool
  off  : Nat
  deriving DecidableEq, Repr

/-- The core that an aperture address selects and its offset, none where a bit that must be zero is set, SEL is reserved or the
core is no member of the launch (R40, R41). -/
def State.apertureAt (st : State) (k va : Nat) : Option Aperture :=
  let sel := bits va 24 20
  let core := if sel = 0 then coreOf k else clusterOf k * 16 + (sel - 16)
  let member := core == coreOf k || ((st.launchOf k).map fun l => l.isMember core).getD false
  if bits va 47 25 ≠ 0 ∨ bits va 19 18 ≠ 0 ∨ (sel ≠ 0 ∧ sel < 16) ∨ member = false then none
  else some { core := core, bank := core * 2 + bankNo k, own := sel == 0, off := bits va 17 0 }

/-- The windows of the selected core that an aperture range touches, and whether one of them holds all of it (R49). -/
def State.apertureWindows (st : State) (x : Aperture) (n : Nat) : List (Nat × Window) × Bool :=
  let b := st.bank x.bank
  let wins := b.windows.filter fun e => e.2.pool < x.off + n && x.off < e.2.pool + e.2.len
  (wins, wins.all fun e => e.2.pool ≤ x.off && x.off + n ≤ e.2.pool + e.2.len)

/-- An aperture access (R40, R41) with the checks of R223 and R297 in their order: the windows of the selected core, the
bounds and the own inbox, then the window access. -/
def State.resolveAperture (st : State) (who : Who) (upto va n : Nat) (acc : Access) (written : Nat → List Nat) : Res × State :=
  match st.apertureAt who.k va with
  | none => (.trap causeBounds va, st)
  | some x =>
    let b := st.bank x.bank
    let (wins, whole) := st.apertureWindows x n
    if (acc == .amo || acc == .red) && !wins.isEmpty then (.trap causeWindow va, st)
    else if whole = false then (.trap causeStraddle va, st)
    else if b.spad < x.off + n ∨ (x.own = false ∧ b.inboxAt < x.off + n) then (.trap causeBounds va, st)
    else if acc.writes ∧ b.inboxAt < x.off + n then (.trap causeClass va, st)
    else
      let at_ (o : Nat) : Nat := poolKey x.core (b.kbReg + o)
      let locs := (rangeFrom x.off n).map at_
      match wins with
      | [] => (.ok { locs := locs.map fun a => (a, clsPool) }, st)
      | e :: _ =>
        st.resolveWindow who upto x.bank e.1 (e.2.base + (x.off - e.2.pool)) n acc false locs (written (at_ x.off))

/-- Whether a range lies partly in a window of a strand's bank, and the window that holds all of it (R49). -/
def State.windowHit (st : State) (k va n : Nat) : Option (Option (Nat × Window)) :=
  let b := st.bank (bankOf k)
  match b.windows.find? fun e => va < e.2.base + e.2.len && e.2.base < va + n with
  | none => none
  | some e => if e.2.base ≤ va && va + n ≤ e.2.base + e.2.len then some (some e) else some none

/-- One access resolved, with the checks of R223 and R297 in their order from the windows on. `written` gives the bytes that a
store into a window writes, from the storage address of the range's first byte. An aperture address holds no join or brick (R212,
R303, R304). -/
def State.resolveOne (st : State) (who : Who) (upto va n : Nat) (acc : Access) (join : Bool) (written : Nat → List Nat) :
    Res × State :=
  if 2 ^ 56 < va + n ∨ 2 ^ 56 ≤ va then (.trap causeNonCanonical va, st)
  else
    match st.windowHit who.k va n with
    | some none => (.trap (if acc == .amo || acc == .red then causeWindow else causeStraddle) va, st)
    | some (some e) =>
      if acc == .amo || acc == .red || acc == .stc then (.trap causeWindow va, st)
      else
        let at_ := st.windowPool (bankOf who.k) e.2
        st.resolveWindow who upto (bankOf who.k) e.1 va n acc join ((rangeFrom va n).map at_) (written (at_ va))
    | none =>
      if bits va 55 48 = 0xFF then
        if acc == .stc || join then (.trap causeClass va, st) else st.resolveAperture who upto va n acc written
      else if bits (va + n - 1) 55 48 = 0xFF then (.trap causeBounds va, st)
      else st.resolveMemory who va n acc join

/-- Whether the elements of an instruction form one access that touches a window (R49, R265). Of an access that runs from the last global
addresses into the aperture, each element is judged alone (log 27, DEDUCED). -/
def State.spanInWindow (st : State) (m : MemOp) (k first len : Nat) : Bool :=
  m.span && first + len ≤ 2 ^ 56 &&
    ((st.windowHit k first len).isSome ||
      (bits first 55 48 == 0xFF && (st.apertureAt k first).any fun x => !(st.apertureWindows x len).1.isEmpty))

/-- The elements of an instruction that form one access in a window: the access is resolved as a whole, so that every word
between the first element and the last is filled (R51, R265), and each element has its bytes of it. -/
def State.resolveSpan (st : State) (who : Who) (m : MemOp) (first len : Nat) : Res × List Spot × State :=
  let written (a : Nat) : List Nat := m.vas.flatMap fun va => rangeFrom (a + (va - first)) m.n
  match st.resolveOne who m.at_ first len m.access m.join written with
  | (.ok s, st) =>
    let spots := m.vas.map fun va => { s with locs := (s.locs.drop (va - first)).take m.n, touch := [] }
    (.ok s, (match spots with
      | x :: xs => { x with touch := s.touch } :: xs
      | [] => []), st)
  | (.trap c a, st) => (.trap c ((m.vas.find? fun va => a < va + m.n).getD first), [], st)
  | (.miss p, st) => (.miss p, [], st)

/-- Every element of an instruction resolved (R265): a missing translation parks the whole instruction, else the
lowest-numbered element that fails decides, else the elements' places. -/
def State.resolveAll (st : State) (k id : Nat) (m : MemOp) : Res × List Spot × State :=
  let who := m.who k id
  let first := m.vas.headD 0
  let len := m.vas.getLast?.getD 0 + m.n - first
  if st.spanInWindow m k first len then st.resolveSpan who m first len
  else
    m.vas.foldl (fun (r : Res × List Spot × State) va =>
      match r.2.2.resolveOne who m.at_ va m.n m.access m.join (fun a => rangeFrom a m.n) with
      | (.ok s, st) => (r.1, r.2.1 ++ [s], st)
      | (.miss p, st) => (match r.1 with
          | .miss q => .miss q
          | _ => .miss p, r.2.1, st)
      | (.trap c a, st) => (match r.1 with
          | .ok _ => .trap c (if m.vec then va else a)
          | x => x, r.2.1, st)) (.ok { locs := [] }, [], st)

/-! ### The version -/

/-- The new value of a word under an atomic of the version: an operation of R295, or an arrival at a join, which leaves
a COUNT of zero unchanged (R145). -/
def versionNew (op n old b e : Nat) : Nat :=
  if op = 16 then (if bits old 63 50 = 0 then old else old - 2 ^ 50) else atomicNew op n old b e

/-- One write of a version laid over bytes. -/
def VWrite.apply (w : VWrite) (t : Tab Byte) : Tab Byte :=
  match w.new with
  | none => (w.locs.zip w.data).foldl (fun t c => if (tget? t c.1).isSome then tput t c.1 c.2 else t) t
  | some (op, b, e) =>
    if w.locs.all fun a => (tget? t a).isSome then
      let old := fromBytes (w.locs.map fun a => tget 0 t a)
      (w.locs.zip (toBytes w.locs.length (versionNew op w.locs.length old b e))).foldl (fun t c => tput t c.1 c.2) t
    else t

/-- Writes laid over bytes in program order (R98). -/
def overlay (ws : List VWrite) (t : Tab Byte) : Tab Byte := ws.foldl (fun t w => w.apply t) t

/-- The lines of the version buffer that a list of writes takes (R62, R97). -/
def versionLines (ws : List VWrite) : List Nat := nubNat ((ws.flatMap fun w => w.locs).map fun a => a / 64)

/-- The lines that the bytes of a memory instruction touch, by virtual address. -/
def MemOp.lines (m : MemOp) : List Nat :=
  nubNat (m.vas.flatMap fun va => if m.n = 0 then [] else rangeFrom (va / 64) ((va + m.n - 1) / 64 + 1 - va / 64))

/-- The lines of a core's version buffer in use. A store that waits for its translation holds its lines from its issue (R97,
log 109). -/
def State.linesUsed (st : State) (core : Nat) : Nat :=
  (st.strands.filter fun e => coreOf e.1 == core).foldl (fun n e =>
    e.2.chunks.foldl (fun n c =>
      n + (versionLines c.writes).length +
        (nubNat ((c.parked.filter fun p => p.2.access.writes && p.2.stc.isNone).flatMap fun p => p.2.lines)).length) n) 0

/-- The writes of a memory instruction put where they stand in a chunk's version. -/
def Chunk.putWrites (c : Chunk) (at_ : Nat) (ws : List VWrite) : Chunk :=
  { c with writes := c.writes.take at_ ++ ws ++ c.writes.drop (at_ + ws.length) }

/-! ### Signatures -/

/-- A key entered into a read signature, its word into the log of the first 64 distinct words (R99, R101). -/
def Chunk.noteRead (c : Chunk) (key : Nat) : Chunk :=
  { c with
    rsig := c.rsig ||| sigOf key
    log := if c.log.contains key || 64 ≤ c.log.length then c.log else c.log ++ [key] }

/-- Words read by a chunk: their keys enter the read signature, and words of memory are to be confirmed (R79, R99). -/
def State.noteReads (st : State) (k id : Nat) (ws : List Nat) : State :=
  let keys := ws.map st.keyOf
  let mem := ws.filterMap fun w =>
    if isPool (w * 8) then
      match st.windowPhys (w * 8) with
      | some a => some (a / 8)
      | none => none
    else some w
  st.setChunkOf k id fun c =>
    { keys.foldl Chunk.noteRead c with confirms := nubNat (c.confirms ++ mem) }

/-! ### Requests to the homes -/

/-- Whether a core keeps copies in an L1 region for a bank (R45). -/
def State.hasL1 (st : State) (bank : Nat) : Bool := (st.bank bank).kbSpad < (st.bank bank).l1End

/-- The agent that asks for a word in a class: the holder of copies, or the core of a read that leaves no copy (R79). -/
def State.asker (st : State) (k cls w : Nat) : Agent :=
  if cls = 0 ∨ cls = 1 ∨ cls = 3 then st.holderOf k (w * 8) else .core (coreOf k)

/-- Read requests for words of memory, one for each span of consecutive words (R72). Those of a hint, which is no chunk's, have
been checked at issue (R56). -/
def State.askReads (st : State) (k id seq : Nat) (ws : List (Nat × Nat)) (pcie port1 : List Nat) : State :=
  let spans := (nubNat (ws.map fun w => lineOfWord w.1)).flatMap fun l => (wordSpans l (ws.map fun w => w.1)).map fun x => (l, x)
  st.each spans fun st x =>
    let cls := ((ws.find? fun w => x.2.contains w.1).map fun w => w.2).getD 3
    st.send
      { id := 0, kind := .read, home := homeOf (x.1 * 64), holder := st.asker k cls (x.1 * 8), line := x.1,
        words := x.2, strand := k, chunk := id, seq := seq, cls := cls, pcie := x.2.any pcie.contains, port1 := x.2.any port1.contains,
        admitted := id == 0 }

/-- The binding of a window, 0 where none is bound. -/
def State.bindOf (st : State) (bank w : Nat) : Nat := ((tget? (st.bank bank).windows w).map fun x => x.bind).getD 0

/-- The words of a window whose fill is already under way, under its present binding (R51, R235, R237). -/
def State.filling (st : State) (bank w : Nat) : List Nat :=
  st.net.flatMap fun p => if p.win == some (bank, w) && p.bind == st.bindOf bank w then p.pool else []

/-- The frame of a window word by the translation that the window holds, before its port is left out (R9). -/
def Window.frame (x : Window) (va : Nat) : Nat := tget 0 x.pages (va / 4096)

/-- Fill requests for pool words of a window, one for each line, whose copies are the core's that holds the window; a word whose
fill is under way shares it (R51). -/
def State.askFills (st : State) (k id bank w : Nat) (ws : List Nat) : State :=
  match tget? (st.bank bank).windows w with
  | none => st
  | some x =>
    let b := st.bank bank
    let va (p : Nat) : Nat := x.base + (poolOff (p * 8) - b.kbReg - x.pool)
    let todo := (ws.filter fun p => !(st.filling bank w).contains p).map fun p => (p, x.phys (va p) / 8)
    st.each (nubNat (todo.map fun e => lineOfWord e.2)) fun st l =>
      let here := todo.filter fun e => lineOfWord e.2 == l
      st.send
        { id := 0, kind := .read, home := homeOf (l * 64), holder := st.asker (4 * bank) x.cls (l * 8), line := l,
          words := here.map fun e => e.2, strand := k, chunk := id, cls := x.cls, win := some (bank, w),
          pool := here.map fun e => e.1, bind := x.bind, admitted := id == 0, pcie := here.any fun e => st.viaPcie (x.frame (va e.1))
          port1 := here.any fun e => nbit (x.frame (va e.1)) 47 }

/-! ### Loads -/

/-- An operation of a strand changed. -/
def State.setOp (st : State) (k seq : Nat) (f : OutOp → OutOp) : State :=
  st.setStrand k fun t => { t with ops := t.ops.map fun o => if o.counter == .ld && o.seq == seq then f o else o }

/-- The data of an operation are complete: its return is owed (R177). -/
def State.ready (st : State) (k seq : Nat) : State :=
  if (st.strand k).ops.any fun o => o.counter == .ld && o.seq == seq && o.need.isEmpty && !o.done then
    st.owe (.loadDataReturn k seq)
  else st

/-- A window noted as accessed by a chunk (R235). -/
def State.useWindow (st : State) (id bank w : Nat) : State :=
  st.setBank bank fun b => b.setWindow w fun x => if x.users.contains id then x else { x with users := id :: x.users }

/-- Where a word of a load comes from. -/
inductive Source where
  /-- The version gives every byte that is read. -/
  | version
  /-- It is at hand: a pool byte, a valid window word, or a local copy. -/
  | here (cells : Tab Byte)
  /-- A window word that must be filled (R51). -/
  | fill (bank w : Nat)
  /-- The home is asked. -/
  | home
  deriving DecidableEq, Repr

/-- Whether a chunk in sole-commit mode reads a window word that it does not yet hold at the home (R107). -/
def State.unheld (st : State) (k id w : Nat) : Bool :=
  let p := (st.windowPhys (w * 8)).getD 0 / 8
  (st.soleOf k id).isSome && !(st.entry (lineOfWord p)).sole.contains (p % 8, k)

/-- Whether a word lies in host memory, which an LD.ACQ.SY reads at its home or through its port (R123). -/
def State.hostWord (st : State) (w : Nat) : Bool :=
  if isPool (w * 8) then (st.windowPhys (w * 8)).any isHost else isHost (w * 8)

/-- Where a word of an element comes from (R49, R64, R70, R98); a chunk in sole-commit mode, an atomic and an acquire of host
memory go to the home (R106, R107, R123). -/
def State.sourceOf (st : State) (k id : Nat) (amo acquire : Bool) (seen : List VWrite) (s : Spot) (w cls : Nat) : Source :=
  if covered seen w ((s.locs.map fun l => l.1).filter fun a => wordOf a == w) then .version
  else
    let host := acquire && st.hostWord w
    match s.win with
    | some (bank, x) =>
      if (st.invalidWords bank x [w]).isEmpty && !st.unheld k id w && !host then .here (wordCells w st.mem.read) else .fill bank x
    | none =>
      if isPool (w * 8) then .here (wordCells w st.mem.read)
      else if amo || host || (st.soleOf k id).isSome then .home
      else
        match st.localByte k cls (w * 8) with
        | some _ => .here (wordCells w fun a => (st.localByte k cls a).getD 0)
        | none => .home

/-- The class of a word of an element. -/
def Spot.clsOf (s : Spot) (w : Nat) : Nat := ((s.locs.find? fun l => wordOf l.1 == w).map fun l => l.2).getD 3

/-- A watch entry for a stale load, or OVF where none is free (R109). The checkpoints of the later chunks that have begun since the
load issued hold it too: their rollback frees no entry of an earlier chunk (R230). -/
def State.watch (st : State) (k id w first count : Nat) (beside filled : Bool) : State :=
  let x : Watch := { word := w, first := first, count := count, st := .pending, chunk := id, beside := beside, filled := filled }
  st.setStrand k fun t =>
    let fits := t.watches.length < 32
    { t with
      watches := if fits then t.watches ++ [x] else t.watches
      ovf := t.ovf || !fits
      chunks := t.chunks.map fun c =>
        if id < c.id then { c with watches := if fits then c.watches ++ [x] else c.watches, ovf := c.ovf || !fits } else c }

/-- The stored span that supplies a word to a strand: its first word and count (R80). -/
def State.spanOf (st : State) (k w : Nat) : Nat × Nat :=
  let find (xs : List Span) := xs.findSome? fun x => if x.words.contains w then some (x.line * 8 + x.first, x.words.length) else none
  ((find (st.core (st.l1Of (bankOf k) (w * 8))).l1).orElse fun _ =>
    if isPeer (dieOf k) (w * 8) then find (st.die (dieOf k)).peer else none).getD (w, 1)

/-- Whether a stale load reads its local copy without protection: a word on a SPAN page of which the chunk's own version holds
no byte (R227). -/
def staleLoad (m : MemOp) (s : Spot) (own : List VWrite) : Bool :=
  m.access == .lds && (s.locs.all fun l => l.2 == 3) && !writesAny own (s.locs.map fun l => l.1)

/-- The watch entry of a stale load for a word, tied to the span that supplies it: a window word, a stored span, or the span that
a fill brings, held beside the entry where the core has no place for it (R80, R227). -/
def State.watchWord (st : State) (k id w : Nat) (inWindow : Bool) (src : Source) : State :=
  let here := match src with
    | .here _ => true
    | _ => false
  if inWindow then
    let p := (st.windowPhys (w * 8)).getD 0 / 8
    st.watch k id p p 1 false here
  else if here then
    let sp := st.spanOf k w
    st.watch k id w sp.1 sp.2 false true
  else st.watch k id w w 1 (!(st.hasL1 (bankOf k)) && !(isPeer (dieOf k) (w * 8))) false

/-- A window word that an LD.ACQ.SY reads in host memory is to be filled again (R123). -/
def State.refill (st : State) (m : MemOp) (spots : List Spot) : State :=
  if m.acquire = false then st
  else
    st.each spots fun st s => match s.win with
      | none => st
      | some (bank, w) =>
        let ws := (nubNat (s.locs.map fun l => wordOf l.1)).filter st.hostWord
        st.setBank bank fun b => b.setWindow w fun x =>
          { x with valid := x.valid.filter fun i =>
              x.dirty.contains i || !ws.any fun p => (poolOff (p * 8) - b.kbReg - x.pool) / 8 == i }

/-- The reading part of a memory instruction (R225, R227, R263, R264, R297): every word is entered or watched, words at
hand are read, the others are asked for, and the operation awaits them. A chunk in sole-commit mode asks the homes for every word
that its own version does not give (R107). -/
def State.gather (st : State) (k id : Nat) (m : MemOp) (seq : Nat) (spots : List Spot) : State :=
  let st := st.refill m spots
  let all := nubNat (spots.flatMap fun s => s.locs.map fun l => wordOf l.1)
  let earlier := st.seen k id m.at_ all
  let own := st.ownWrites k id m.at_
  let shown := if (st.soleOf k id).isSome then own.filter fun w => w.locs.any fun a => all.contains (wordOf a) else earlier
  let st := st.setOp k seq fun o => { o with locs := spots.map fun s => s.locs.map fun l => l.1, earlier := earlier, drop := m.drop }
  let asks := spots.flatMap fun s =>
    let stale := staleLoad m s own
    (nubNat (s.locs.map fun l => wordOf l.1)).map fun w =>
      (w, s, st.sourceOf k id (m.access == .amo) m.acquire (if stale then [] else shown) s w (s.clsOf w), stale)
  let got := asks.flatMap fun e => match e.2.2.1 with
    | .here cells => cells
    | .version => wordCells e.1 fun _ => 0
    | _ => []
  let need := asks.filterMap fun e => match e.2.2.1 with
    | .fill _ _ => some e.1
    | .home => some e.1
    | _ => none
  let dead := nubNat (asks.filterMap fun e => if m.ldl && (e.2.1.clsOf e.1 == 0 || e.2.1.clsOf e.1 == 3) then some e.1 else none)
  let st := st.each spots fun st s => match s.win with
    | some (bank, w) => st.useWindow id bank w
    | none => st
  let st := st.each asks fun st e =>
    if e.2.2.2 then st.watchWord k id e.1 e.2.1.win.isSome e.2.2.1 else st.noteReads k id [e.1]
  let st := st.setOp k seq fun o =>
    { o with
      buf := got.foldl (fun t c => tput t c.1 c.2) o.buf
      need := nubNat (o.need ++ need ++ spots.flatMap fun s => s.touch)
      mark := nubNat (o.mark ++ dead) }
  let home := asks.filterMap fun e => match e.2.2.1 with
    | .home => some (e.1, e.2.1.clsOf e.1)
    | _ => none
  let fills := (asks.filterMap fun e => match e.2.2.1 with
    | .fill bank w => some (e.1, bank, w)
    | _ => none) ++ spots.flatMap fun s => match s.win with
      | some (bank, w) => s.touch.map fun p => (p, bank, w)
      | none => []
  let st := st.askReads k id seq (home.foldl (fun l e => if l.any fun x => x.1 == e.1 then l else l ++ [e]) [])
    (spots.flatMap fun s => s.pcie) (spots.flatMap fun s => s.port1)
  let st := st.setOp k seq fun o => { o with binds := fills.foldl (fun t f => tput t f.1 (st.bindOf f.2.1 f.2.2)) o.binds }
  let wins := (spots.filterMap fun s => s.win).foldl (fun l b => if l.contains b then l else l ++ [b]) []
  let st := st.each wins fun st b =>
    st.askFills k id b.1 b.2 (nubNat ((fills.filter fun f => f.2 == b).map fun f => f.1))
  let st := if m.drop then st.setChunkOf k id fun c => { c with held := c.held ++ [.drop dead] } else st
  st.ready k seq

/-! ### Stores -/

/-- The writing part of a memory instruction (R98, R99, R226): its bytes or its atomic stand in the chunk's version,
its words enter the write signature, and window words written in part are filled (R50). A chunk in sole-commit mode
takes TW at once (R107), that of an ordered run whose pair is not yet the horizon too (log 111, DEDUCED). -/
def State.scatter (st : State) (k id : Nat) (m : MemOp) (spots : List Spot) : State :=
  let ws := (List.range spots.length).zip spots |>.map fun e =>
    { locs := e.2.locs.map fun l => l.1, data := m.data.getD e.1 [], new := m.new : VWrite }
  let fills := spots.filterMap fun s => s.win.map fun b => (b, s.touch)
  let words := nubNat (ws.flatMap fun w => w.locs.map wordOf)
  let keys := words.map st.keyOf
  let clsTab := spots.foldl (fun t s => s.locs.foldl (fun t l => tput t (wordOf l.1) l.2) t) ([] : Tab Nat)
  let vas := (m.vas.zip spots).foldl (fun t e => (nubNat (e.2.locs.map fun l => wordOf l.1)).foldl
    (fun t w => tput t w (e.1, m.pc)) t) ([] : Tab (Nat × Word))
  let st := st.setChunkOf k id fun c =>
    { c.putWrites m.at_ ws with
      wsig := keys.foldl (fun s x => s ||| sigOf x) c.wsig
      classes := clsTab.foldl (fun t e => tput t e.1 e.2) c.classes
      origin := vas.foldl (fun t e => if (tget? t e.1).isSome then t else tput t e.1 (e.2.1 % 2 ^ 56, e.2.2)) (c.origin)
      fills := c.fills ++ (fills.flatMap fun f => f.2.map fun p => (p, st.bindOf f.1.1 f.1.2)).filter fun f => !c.fills.contains f
      pcie := nubNat (c.pcie ++ spots.flatMap fun s => s.pcie)
      port1 := nubNat (c.port1 ++ spots.flatMap fun s => s.port1) }
  let st := st.each (spots.filterMap fun s => s.win) fun st b => st.useWindow id b.1 b.2
  let st := st.each fills fun st f => st.askFills k id f.1.1 f.1.2 f.2
  match st.soleOf k id, st.chunkOf k id with
  | some _, some c => st.askOwn k c ((st.ownWords c).filter fun w => !c.asked.contains w)
  | _, _ => st

/-- Whether a written byte lies at a home off the strand's die (R224). -/
def offDie (k : Nat) (spots : List Spot) : Bool :=
  spots.any fun s => s.locs.any fun l => l.1 < poolBase && homeOf l.1 != dieOf k

/-! ### An instruction performed -/

/-- A memory instruction whose elements are resolved: its course store is held (R309), or its reading and writing parts
take place. -/
def State.performAt (st : State) (k id : Nat) (m : MemOp) (spots : List Spot) : State :=
  match m.stc with
  | some h =>
    let a := ((spots.headD { locs := [] }).locs.headD (0, 0)).1
    st.setChunkOf k id fun c =>
      { c with held := c.held ++ [.stc h a m.n (fromBytes (m.data.headD [])) (m.seq.getD 0)] }
  | none =>
    let st := match m.access, m.seq with
      | .load, some q => st.gather k id m q spots
      | .lds, some q => st.gather k id m q spots
      | .amo, some q => st.gather k id m q spots
      | _, _ => st
    if m.access.writes then
      let st := st.scatter k id m spots
      match m.access, m.seq with
      | .amo, _ => st
      | _, some q => st.setChunkOf k id fun c => { c with held := c.held ++ [.ack q] }
      | _, none => st
    else st

/-- Whether an atomic reaches PCIe-only host memory in a form that no AtomicOp carries, while the package emulates no
host atomics (R94, R95). -/
def State.hostAtomicFails (st : State) (m : MemOp) (spots : List Spot) : Bool :=
  match m.new with
  | none => false
  | some (op, _, _) =>
    spots.any fun s => s.ports.any fun p =>
      (st.pkg p.1).pcieOnly.contains p.2 && !pcieAtomic op && !(st.pkg p.1).khostemu

/-- A page number that no page has: it marks an instruction that waits for an earlier chunk of its strand, or for the locks of a
chunk of its cluster. -/
def noPage : Nat := 2 ^ 60

/-- Whether an instruction reads a word to which an earlier chunk of its strand, not yet applied, holds an atomic: its
value is known only once that chunk has been applied (R98, R105). -/
def State.waitsForEarlier (st : State) (k id : Nat) (m : MemOp) (spots : List Spot) : Bool :=
  let ws := spots.flatMap fun s => s.locs.map fun l => wordOf l.1
  (m.access == .load || m.access == .lds || m.access == .amo) &&
    ((st.strand k).chunks.reverse.takeWhile fun c => c.id != id).any fun c =>
      c.writes.any fun w => w.new.isSome && w.locs.any fun a => ws.contains (wordOf a)

/-- Whether an instruction reads a pool word that a chunk past its commit point still locks: the other stores of that chunk have been
applied, and its release has not (R98, R102, R122). -/
def State.poolHeld (st : State) (k id : Nat) (m : MemOp) (spots : List Spot) : Bool :=
  let ws := spots.flatMap fun s => s.locs.map fun l => wordOf l.1
  (m.access == .load || m.access == .lds || m.access == .amo) &&
    ws.any fun w => isPool (w * 8) && (st.core (poolCore (w * 8))).poolLocks.any fun l =>
      l.1 == w && !(l.2.1 == k && l.2.2 == id) && (st.chunkOf l.2.1 l.2.2).any fun c => c.committed

/-- A memory instruction of a chunk: parked while a translation is missing (R26), a trap where a check fails, else
performed. -/
def State.perform (st : State) (k id : Nat) (m : MemOp) : State :=
  match st.resolveAll k id m with
  | (.miss page, _, st) => st.setChunkOf k id fun c => { c with parked := c.parked ++ [(page, m)] }
  | (.trap c a, _, st) => st.raiseIn k id c a m.pc
  | (.ok _, spots, st) =>
    let st := st.taken (sourceCore (coreOf k)) (m.who k id).tag
    if st.hostAtomicFails m spots then st.raiseIn k id causeHostAtomic (m.vas.headD 0) m.pc
    else if st.waitsForEarlier k id m spots || st.poolHeld k id m spots then
      st.setChunkOf k id fun c => { c with parked := c.parked ++ [(noPage, m)] }
    else st.performAt k id m spots

/-- A parked instruction of a chunk made again (R28). -/
def State.performAgain (st : State) (k id : Nat) (m : MemOp) : State :=
  (st.setChunkOf k id fun c => { c with parked := c.parked.filter fun p => p.2 != m }).perform k id m

end Sys2Proof.Machine
end

