-- ==== Sys2Proof/Machine/Memory.lean ====
section
/-!
DEFINITION. The memory access instructions (R222 to R238), the vector memory instructions (R263 to R265, R271), the
atomics (R294 to R297), the joins (R303, R304), and the returns of data and acknowledgements (R177).
-/

namespace Sys2Proof.Machine

/-! ### Issue -/

/-- Whether a memory access may not issue yet: an LD.ACQ.SY of the strand has not returned (R123). -/
def State.acquiring (st : State) : Bool := st.me.ops.any fun o => o.acquire && !o.done

/-- Whether the core's version buffer has room for the writes of an instruction (R62, R97). Where a translation is missing, the
lines are counted by their virtual addresses (log 109, DESIGN CHOICE). -/
def State.fitsVersion (st : State) (m : MemOp) : Bool :=
  match st.resolveAll st.cur st.chunk.id m with
  | (.ok _, spots, _) =>
    let have' := versionLines st.chunk.writes
    let new := (nubNat (spots.flatMap fun s => s.locs.map fun l => l.1 / 64)).filter fun l => !have'.contains l
    new.isEmpty || st.linesUsed (coreOf st.cur) + new.length ≤ 256
  | (.miss _, _, _) => st.linesUsed (coreOf st.cur) + m.lines.length ≤ 256
  | _ => true

/-- A store that needs lines of a full version buffer ends the chunk before itself, and then waits (R97). -/
def State.whenFits (st : State) (m : MemOp) (body : State → State) : State :=
  if st.fitsVersion m then body st
  else if st.chunk.count ≠ 0 then st.endChunk
  else st

/-- A reading instruction issued on ld: its registers are marked pending, and it is performed (R177, R179, R225). With
`ends` it is the last of its chunk. -/
def State.issueLoad (st : State) (regs : List Nat) (fin : Fin) (m : MemOp) (acquire ends : Bool) : State :=
  if st.counterFull .ld ∨ st.acquiring then st
  else
    let id := st.chunk.id
    let m := { m with seq := some st.me.issued, at_ := st.chunk.writes.length, acquire := acquire, sv := st.me.sv }
    let writes := m.access.writes && m.stc.isNone
    let st := (st.issueOp regs { counter := .ld, chunk := id, fin := fin, pc := m.pc, vas := m.vas, acquire := acquire }).finish
    let st := if writes then st.setChunkOf st.cur id fun c => { c with writes := c.writes ++ m.vas.map fun _ => {} } else st
    let st := if ends then st.endChunk else st
    st.perform st.cur id m

/-- Whether a writing instruction counts on st: its home is off the die, or is not known yet (R177, R224). A RED on a
RED page counts nowhere (R297). -/
def State.countsSt (st : State) (m : MemOp) : Bool :=
  match st.resolveAll st.cur st.chunk.id m with
  | (.ok _, spots, _) =>
    offDie st.cur spots && !(m.access == .red && spots.all fun s => s.locs.all fun l => l.2 == 4)
  | (.miss _, _, _) => true
  | (.trap _ _, _, _) => false

/-- An instruction that finds st full stalls until it falls (R177). Where every operation on it belongs to the live chunk, which
st could never leave, the chunk ends before the instruction (log 19, DESIGN CHOICE). -/
def State.stallSt (st : State) : State :=
  if st.me.count .st = 0 ∧ st.chunk.count ≠ 0 then st.endChunk else st

/-- A writing instruction issued: it takes its place in the chunk's version and is performed (R226). ST.REL.SY counts on st
wherever its bytes lie, in a window or a scratchpad too (R177, R188, R226; log 110, DEDUCED). -/
def State.issueStore (st : State) (m : MemOp) (sys : Bool) : State :=
  let m := { m with sv := st.me.sv }
  let counts := sys || st.countsSt m
  if st.acquiring then st
  else if counts ∧ st.counterFull .st then st.stallSt
  else
    st.whenFits m fun st =>
      let id := st.chunk.id
      let m := { m with seq := if counts then some st.me.issued else none, at_ := st.chunk.writes.length }
      let st := if counts then st.issueOp [] { counter := .st, chunk := id, pc := m.pc, vas := m.vas } else st
      let st := (st.finish).setChunkOf st.cur id fun c =>
        { c with writes := c.writes ++ m.vas.map (fun _ => {}), sysWait := c.sysWait || sys }
      let st := if sys then st.endChunk else st
      st.perform st.cur id m

/-! ### LD, ST, LDS, LDL -/

/-- The data register of a load. -/
def dataReg (o : Ops) (r : BitVec 6) : Nat := if o.fFlag then regF r.toNat else regS r.toNat

/-- The common form of the loads (R222, R223, R225): the address, the canonical check of its range, its alignment where the form
needs it, and the load. -/
def State.loadForm (st : State) (o : Ops) (aligned acq stale ldl drop : Bool) : Out :=
  st.scalar o.g { regs := addrRegs o ++ [dataReg o o.dst] } fun st =>
    let ea := st.formed o
    if ¬ canonical ea ∨ 2 ^ 56 < ea + o.nBytes then st.raise causeNonCanonical ea
    else if aligned && ea % o.nBytes != 0 then st.raise causeAlignment ea
    else
      st.issueLoad [dataReg o o.dst] (.scalar o.fFlag o.dst.toNat o.nBytes o.sxFlag)
        { access := if stale then .lds else .load, pc := st.me.pc, n := o.nBytes, vas := [ea], ldl := ldl, drop := drop } acq acq

/-- LD (R225). -/
def execLd (o : Ops) (st : State) : Out := st.loadForm o false false false false false

/-- LD.ACQ.SY: aligned, the last instruction of its chunk, and no later access issues before it returns (R123). -/
def execLdAcqSy (o : Ops) (st : State) : Out := st.loadForm o true true false false false

/-- LDS (R227). -/
def execLds (o : Ops) (st : State) : Out := st.loadForm o true false true false false

/-- LDL (R231). -/
def execLdl (o : Ops) (st : State) : Out := st.loadForm o false false false true false

/-- LDL.DROP (R55, R231). -/
def execLdlDrop (o : Ops) (st : State) : Out := st.loadForm o false false false true true

/-- The common form of the stores (R226). -/
def State.storeForm (st : State) (o : Ops) (sys : Bool) : Out :=
  st.scalar o.g { regs := addrRegs o ++ [dataReg o o.sc] } fun st =>
    let ea := st.formed o
    let x := if o.fFlag then st.f o.sc else st.s o.sc
    if ¬ canonical ea ∨ 2 ^ 56 < ea + o.nBytes then st.raise causeNonCanonical ea
    else if sys && ea % o.nBytes != 0 then st.raise causeAlignment ea
    else st.issueStore { access := .store, pc := st.me.pc, n := o.nBytes, vas := [ea], data := [toBytes o.nBytes x.toNat] } sys

/-- ST (R226). -/
def execSt (o : Ops) (st : State) : Out := st.storeForm o false

/-- ST.REL.SY: aligned, counted on st, the last instruction of its chunk, whose commit makes the waits of R122. -/
def execStRelSy (o : Ops) (st : State) : Out := st.storeForm o true

/-! ### Vector memory instructions -/

/-- The addresses of the consecutive elements of VLD and VST (R263). -/
def elementVas (ea t : Nat) (act : List Nat) : List Nat := act.map fun i => ea + i * (typeWidth t / 8)

/-- VLD: one load of the active elements into v[DST] (R263). -/
def execVld (o : Ops) (st : State) : Out :=
  let t := o.vType
  st.vector o.g t { regs := addrRegs o ++ [regV o.dst.toNat], lack := st.lackV [o.dst] } fun st =>
    let ea := st.formed o
    let act := st.activeIn o.g t
    if ¬ canonical ea then st.raise causeNonCanonical ea
    else
      st.issueLoad [regV o.dst.toNat] (.vector o.dst.toNat t act)
        { access := .load, pc := st.me.pc, n := typeWidth t / 8, vas := elementVas ea t act, span := true, vec := true } false false

/-- The bytes that the active elements of a vector register store. -/
def State.elementData (st : State) (t : Nat) (r : BitVec 6) (act : List Nat) : List (List Byte) :=
  act.map fun i => toBytes (typeWidth t / 8) (st.elem t r i)

/-- VST (R263). -/
def execVst (o : Ops) (st : State) : Out :=
  let t := o.vType
  st.vector o.g t { regs := addrRegs o ++ [regV o.sc.toNat], lack := st.lackV [o.sc] } fun st =>
    let ea := st.formed o
    let act := st.activeIn o.g t
    if ¬ canonical ea then st.raise causeNonCanonical ea
    else
      st.issueStore { access := .store, pc := st.me.pc, n := typeWidth t / 8, vas := elementVas ea t act,
                      data := st.elementData t o.sc act, span := true, vec := true } false

/-- The address of an element of a gather: the index is lane `i` of v[SB] read as s32 (R264). -/
def State.gatherVa (st : State) (o : Ops) (i : Nat) : Nat :=
  (st.s o.sa + (st.me.regs.getLane o.sb.toNat i).signExtend 64 * BitVec.ofNat 64 (2 ^ o.scale) + Ops.immWord o).toNat

/-- VGATH (R264). -/
def execVgath (o : Ops) (st : State) : Out :=
  let t := o.vType
  st.vector o.g t { regs := [regS o.sa.toNat, regV o.sb.toNat, regV o.dst.toNat], lack := st.lackV [o.sb, o.dst] } fun st =>
    let act := st.activeIn o.g t
    st.issueLoad [regV o.dst.toNat] (.vector o.dst.toNat t act)
      { access := .load, pc := st.me.pc, n := typeWidth t / 8, vas := act.map (st.gatherVa o), vec := true } false false

/-- VSCAT: elements are written in ascending order (R264). -/
def execVscat (o : Ops) (st : State) : Out :=
  let t := o.vType
  st.vector o.g t { regs := [regS o.sa.toNat, regV o.sb.toNat, regV o.sc.toNat], lack := st.lackV [o.sb, o.sc] } fun st =>
    let act := st.activeIn o.g t
    st.issueStore { access := .store, pc := st.me.pc, n := typeWidth t / 8, vas := act.map (st.gatherVa o), vec := true,
                    data := st.elementData t o.sc act } false

/-- The segment length of VDIST (R271). -/
def vdistLen (code : Nat) : Nat :=
  match code with
  | 0 => 32
  | 1 => 8
  | 2 => 16
  | _ => 24

/-- VDIST: the segments are read, and each active lane of v[DST] accumulates its distance (R271). It counts on ld, as R177 and R271 have
it; the table of R188 gives it no counter (log 136, DEDUCED). -/
def execVdist (o : Ops) (st : State) : Out :=
  let t := o.vType
  let len := vdistLen (o.modBits 53 52)
  st.issue o.g (!((List.range 32).filter (st.laneOn o.g)).isEmpty)
      { regs := [regS o.sa.toNat, regV o.sb.toNat, regV o.sc.toNat, regV o.dst.toNat],
        lack := st.lackV [o.sb, o.sc, o.dst] } fun st =>
    let act := (List.range 32).filter (st.laneOn o.g)
    let query := (List.range len).map fun j => st.elem t o.sc j
    st.issueLoad [regV o.dst.toNat] (.dist o.dst.toNat (o.modBits 55 54) t query act)
      { access := .load, pc := st.me.pc, n := len * typeWidth t / 8, vas := act.map (st.gatherVa o), vec := true } false false

/-! ### Atomics and joins -/

/-- The bytes of an atomic (R294). -/
def amoBytes (o : Ops) : Nat := if o.modBits 59 58 = 2 then 4 else 8

/-- AMO: the old value is read at its place of execution and returned, and the new value is held (R297). -/
def execAmo (o : Ops) (st : State) : Out :=
  st.scalar o.g { regs := addrRegs o ++ [regS o.sc.toNat, regS o.dst.toNat] } fun st =>
    let ea := st.formed o
    let n := amoBytes o
    let op := o.modBits 57 54
    let m : MemOp :=
      { access := .amo, pc := st.me.pc, n := n, vas := [ea],
        new := some (op, (st.s o.sc).toNat % 2 ^ (8 * n), (st.s o.dst).toNat % 2 ^ (8 * n)), sv := st.me.sv }
    if ¬ canonical ea then st.raise causeNonCanonical ea
    else if ea % n ≠ 0 then st.raise causeAlignment ea
    else
      st.whenFits m fun st =>
        st.issueLoad [regS o.dst.toNat] (.amo o.dst.toNat n op (st.s o.sc).toNat (st.s o.dst).toNat 0) m false false

/-- RED: read and write come together at apply (R297). -/
def execRed (o : Ops) (st : State) : Out :=
  st.scalar o.g { regs := addrRegs o ++ [regS o.sc.toNat] } fun st =>
    let ea := st.formed o
    let n := amoBytes o
    if ¬ canonical ea then st.raise causeNonCanonical ea
    else if ea % n ≠ 0 then st.raise causeAlignment ea
    else
      st.issueStore { access := .red, pc := st.me.pc, n := n, vas := [ea],
                      new := some (o.modBits 57 54, (st.s o.sc).toNat % 2 ^ (8 * n), 0) } false

end Sys2Proof.Machine
end

