-- ==== Sys2Proof/Machine/Home.lean ====
section
/-!
DEFINITION. The home slices and the holders of copies: the packets between them (R77 to R79, R85, R87), posted writes (R121),
and the snoops and accesses of the host (R91, R92, R96).
-/

namespace Sys2Proof.Machine

/-! ### Reads at the home -/

/-- The permission bit that a read needs at the target: M for a returning atomic, else R (R22). -/
def State.readBit (st : State) (p : Packet) : Nat :=
  match (st.strand p.strand).ops.find? fun o => o.counter == .ld && o.seq == p.seq && o.chunk == p.chunk with
  | some o => match o.fin with
    | .amo _ _ _ _ _ _ => 3
    | .jarr _ => 3
    | _ => 1
  | none => 1

/-- The words of a window fill that an operation awaits from it: those asked for under its binding (R51). -/
def OutOp.awaits (o : OutOp) (p : Packet) : List Nat := p.pool.filter fun q => o.need.contains q && tget 0 o.binds q == p.bind

/-- What waits for a window fill: strands and chunks, with the address and pc of the access (R51). -/
def State.fillWaiters (st : State) (p : Packet) : List (Nat × Nat × Nat × Word) :=
  st.strands.flatMap fun t => t.2.chunks.flatMap fun c =>
    let loads := (t.2.ops.filter fun o => o.counter == .ld && o.chunk == c.id && !(o.awaits p).isEmpty).map fun o =>
      (t.1, c.id, o.vas.headD 0, o.pc)
    let stores := (c.fills.filter fun f => p.pool.contains f.1 && f.2 == p.bind).map fun f =>
      let o := (tget? c.origin f.1).getD (0, c.startPc)
      (t.1, c.id, o.1, o.2)
    (loads ++ stores).take 1

/-- The strand of a rejected access traps (R24). -/
def State.rejectRead (st : State) (p : Packet) : State :=
  let st := st.dropPacket p.id
  if p.win.isSome then
    st.each (st.fillWaiters p) fun st w =>
      match st.chunkOf w.1 w.2.1 with
      | none => st
      | some _ => st.raiseIn w.1 w.2.1 causeRange w.2.2.1 w.2.2.2
  else
    match (st.strand p.strand).ops.find? fun o => o.counter == .ld && o.seq == p.seq && o.chunk == p.chunk with
    | some o => st.raiseIn p.strand p.chunk causeRange (o.vas.headD 0) o.pc
    | none =>
      if (st.chunkOf p.strand p.chunk).isSome then st.raiseIn p.strand p.chunk causeRange (p.line * 64) (st.strand p.strand).pc
      else st

/-- An access of a core that has been admitted to a range that is gone ends as a machine check (R375); a hint is dropped. -/
def State.loseAccess (st : State) (p : Packet) : State :=
  let op := (st.strand p.strand).ops.find? fun o => o.counter == .ld && o.seq == p.seq && o.chunk == p.chunk
  let origin := (st.chunkOf p.strand p.chunk).bind fun c => p.words.findSome? fun w => tget? c.origin w
  let who : Option (Nat × Word) :=
    if p.win.isSome then (st.fillWaiters p).head?.map fun w => (w.1, w.2.2.2)
    else if p.chunk = 0 then none
    else some (p.strand, match op, origin with
      | some o, _ => o.pc
      | none, some x => x.2
      | none, none => (st.strand p.strand).pc)
  let st := st.dropPacket p.id
  match who with
  | some (k, pc) => st.machineCheck k (p.line * 64) pc true
  | none => st

/-- A full directory store gives up an entry that nothing waits in (R76): its S words are invalidated at every holder and reader
mark, its M words recalled for write and its P words combined; it leaves once none of them is left. Lines that are resident in the
home's L2 have their entries beside it, and which they are is not given (log 123, DESIGN CHOICE). -/
def State.evictEntry (st : State) (home line : Nat) : State :=
  let mine := st.dir.filter fun e => homeOf (e.1 * 64) == home && !Config.inHomeSlice st.tick e.1
  if mine.length ≤ 524288 then st
  else
    let free := mine.filter fun (l, e) =>
      l != line && e.tw.isEmpty && e.locks.isEmpty && e.sole.isEmpty && e.split.isEmpty && e.posting.isEmpty && e.places.isEmpty &&
        (List.range 8).all fun i => e.state i != .tr && e.state i != .tc
    match free[Config.victimPick st.tick % free.length]? with
    | none => st
    | some (l, e) =>
      let away (i : Nat) : Bool := e.state i == .m || e.state i == .p
      let here := (List.range 8).filter fun i => !away i
      let hs := e.targets home here
      let marked := nubAgents ((e.marks.filter fun m => here.contains m.1).map fun m => Agent.core (coreOf m.2.1))
      let st := st.sendInvals home l (here.map fun i => l * 8 + i) (hs ++ marked.filter fun g => !hs.contains g) none
      let st := st.setEntry l fun e =>
        { (e.setStates here .u).dropHolders here none with marks := e.marks.filter fun m => !here.contains m.1 }
      if here.length = 8 then { st with dir := terase st.dir l } else st.bringWords l ((List.range 8).filter away) true

/-- A request at a home that must wait: it keeps its place in the order of arrival and is served again (R77). -/
def State.waitAtHome (st : State) (p : Packet) : State := (st.stampPacket p.id).owe (p.kind.event p.id)

/-- Reader marks without repeats. -/
def nubMarks : List (Nat × Nat × Nat) → List (Nat × Nat × Nat)
  | [] => []
  | x :: xs => x :: (nubMarks xs).filter (· != x)

/-! ### Conflicts -/

/-- What a chunk that asks for a word meets at another chunk that holds it (R103, R107): the older ticket waits for or
wounds the other; a chunk in sole-commit mode wounds any other. -/
def State.wounds (st : State) (p : Packet) (k2 id2 : Nat) : Bool :=
  match st.soleOf p.strand p.chunk, st.soleOf k2 id2 with
  | some a, some b => a.before b
  | some _, none => true
  | none, some _ => false
  | none, none =>
    match (st.chunkOf p.strand p.chunk).bind fun c => c.ticket, (st.chunkOf k2 id2).bind fun c => c.ticket with
    | some a, some b => a.before b
    | _, _ => false

/-- The chunks that hold a needed word and are wounded by a request. -/
def State.woundAll (st : State) (p : Packet) (idx : List Nat) : State :=
  let e := st.entry p.line
  let tw := (e.tw.filter fun t => idx.contains t.1 && t.2.1 != p.strand).map fun t => (t.2.1, t.2.2)
  let sole := (e.sole.filter fun t => idx.contains t.1 && t.2 != p.strand).filterMap fun t =>
    ((st.strand t.2).chunks.find? fun c => c.sole).map fun c => (t.2, c.id)
  st.each (tw ++ sole) fun st x => if st.wounds p x.1 x.2 then st.squash x.1 x.2 none else st

/-- Whether a request of a chunk in sole-commit mode meets a chunk in that mode with an older sole ticket: it is then squashed
(R107). -/
def State.yields (st : State) (p : Packet) (idx : List Nat) : Bool :=
  let e := st.entry p.line
  let holders := (e.tw.filter fun t => idx.contains t.1).map (fun t => t.2.1) ++ (e.sole.filter fun t => idx.contains t.1).map fun t => t.2
  match st.soleOf p.strand p.chunk with
  | none => false
  | some mine => holders.any fun k => k != p.strand && match (st.strand k).sole with
    | some t => t.before mine
    | none => false

/-! ### Requests -/

/-- The chunks for which a read at a home leaves reader marks: the reading chunk, and for a window fill of a RED word every chunk
that waits for it (R79). -/
def State.markers (st : State) (p : Packet) : List (Nat × Nat) :=
  if p.win.isSome then (st.fillWaiters p).map fun w => (w.1, w.2.1) else if p.chunk = 0 then [] else [(p.strand, p.chunk)]

/-- HOME_READ_REQUEST: a read of a span at its home (R77, R79, R81, R85), after what its holder sent before it. One to a range that is
gone is a machine check (R375). -/
def execHomeReadRequest (id : Nat) (st : State) : Out :=
  .next <|
    match st.packet id with
    | none => st
    | some p =>
      let idx := indexes p.words
      let alone := (st.soleOf p.strand p.chunk).isSome
      let bit := st.readBit p
      if p.admitted = false ∧ st.rangeAdmits p.sourcePackage p.target bit = false then st.rejectRead p
      else if st.regionAt p.target = .reserved then st.loseAccess p
      else
        let st := if alone then st.woundAll p idx else st
        let e := st.entry p.line
        if alone && st.yields p idx then st.squash p.strand p.chunk none
        else if st.queuedBefore p || st.behindData p || e.busy idx p.strand p.chunk (alone || idx.any fun i => e.state i == .p) then
          st.waitAtHome p
        else if idx.any fun i => e.state i == .m || e.state i == .p then (st.bringWords p.line idx false).waitAtHome p
        else if (p.cls == 5 || isHost (p.line * 64)) && st.needsHost p.line (bit == 3) p.pcie then
          (st.askHost p.line (bit == 3)).waitAtHome p
        else
          let st := st.evictEntry p.home p.line
          let cells := p.words.flatMap fun w => wordCells w st.homeByte
          let st := (st.dropPacket id).countAccess (p.line * 64)
          let marks := st.markers p
          let st := st.setEntry p.line fun e =>
            let e := if p.cls = 3 then
                (e.setStates (idx.filter fun i => e.state i == .u) .s).addHolder p.home p.holder idx
              else if p.cls = 0 ∨ p.cls = 1 then e
              else { e with marks := nubMarks (e.marks ++ marks.flatMap fun m => idx.map fun i => (i, m.1, m.2)) }
            if alone then
              { e with sole := e.sole ++ (idx.filter fun i => !e.sole.contains (i, p.strand)).map fun i => (i, p.strand) }
            else e
          st.send { p with kind := .fill, cells := cells, stamp := none }

/-- The permission bits that a chunk's writes of a word need at the target: M for an atomic, W for a store (R22). -/
def Chunk.writeBits (c : Chunk) (w : Nat) : List Nat :=
  let here := c.writes.filter fun x => x.locs.any fun a => wordOf a == w
  (if here.any fun x => x.new.isSome then [3] else []) ++ (if here.isEmpty || here.any fun x => x.new.isNone then [2] else [])

/-- A grant sent to a holder on its channel (R78): the chunk owns the line's words once it arrives. -/
def State.grantWords (st : State) (p : Packet) : State := st.send { p with kind := .grant, stamp := none }

/-- A reduction buffer is registered for the words of a RED line, which is a write through toward the words' reader marks
(R84, R106). -/
def State.register (st : State) (cl line : Nat) (idx : List Nat) (k : Nat) : State :=
  let home := homeOf (line * 64)
  let e := st.entry line
  let marked := nubAgents ((e.marks.filter fun m => idx.contains m.1 && m.2.1 != k).map fun m => Agent.core (coreOf m.2.1))
  let (n, st) := (st.sendInvals home line (idx.map fun i => line * 8 + i) marked (some k)).fresh
  st.setEntry line fun e =>
    let e := (e.setStates idx .p).addHolder home (.redbuf cl) idx
    { e with regs := (e.regs.filter fun r => !(r.1 == cl && idx.contains r.2.1)) ++ idx.map fun i => (cl, i, n) }

/-- HOME_OWNERSHIP_REQUEST: a gaining chunk asks for the words it wrote; they enter TW, and the grant goes out (R77, R102, R103);
for a RED line its cluster's buffer is registered (R106). A store that the target's permission table rejects traps (R24). The
same step applies the next piece of an engine write (R126). -/
def execHomeOwnershipRequest (id : Nat) (st : State) : Out :=
  .next <|
    match st.packet id with
    | none => st
    | some p =>
      if p.kind == .piece then st.applyPiece p
      else
      let idx := indexes p.words
      match st.chunkOf p.strand p.chunk with
      | none => st.dropPacket id
      | some c =>
        let refused := p.words.find? fun w => (c.writeBits w).any fun b => st.rangeAdmits (pkgOf p.strand) p.target b == false
        if p.admitted = false ∧ refused.isSome = true then
          let o := (refused.bind fun w => tget? c.origin w).getD (p.line * 64, (st.strand p.strand).pc)
          (st.dropPacket id).raiseIn p.strand p.chunk causeRange o.1 o.2
        else if st.regionAt p.target = .reserved then st.loseAccess p
        else
          let st := st.woundAll p idx
          let e := st.entry p.line
          if st.yields p idx then st.squash p.strand p.chunk none
          else if st.queuedBefore p || st.behindData p || e.busy idx p.strand p.chunk true then st.waitAtHome p
          else
            match p.holder with
            | .redbuf cl => (((st.dropPacket id).register cl p.line idx p.strand).grantWords p).evictEntry p.home p.line
            | _ =>
              if idx.any fun i => e.state i == .p || (e.state i == .m && e.owner i != some p.holder) then
                (st.bringWords p.line (idx.filter fun i => e.owner i != some p.holder || e.state i == .p) true).waitAtHome p
              else if (p.cls == 5 || isHost (p.line * 64)) && st.needsHost p.line true p.pcie then
                (st.askHost p.line true).waitAtHome p
              else
                let st := (st.dropPacket id).setEntry p.line fun e =>
                  { e with tw := e.tw ++ (idx.filter fun i => !e.tw.contains (i, p.strand, p.chunk)).map fun i => (i, p.strand, p.chunk) }
                (st.grantWords p).evictEntry p.home p.line

/-- A posted write reaches the host through its port, after those that its home die posted before it (R94, R121). -/
def State.deliverPosted (st : State) (p : Packet) : State :=
  if (st.net.takeWhile fun q => q.id != p.id).any fun q => q.kind == .posted && q.home == p.home then st.owe (.homeWriteBack p.id)
  else { st.dropPacket p.id with mem := st.mem.writeCells p.cells }

/-- HOME_WRITE_BACK: an owner's data arrive at the home, and serve as the answer of a recall that is outstanding (R77,
R78). The same step delivers a posted write (R121). -/
def execHomeWriteBack (id : Nat) (st : State) : Out :=
  .next <|
    match st.packet id with
    | none => st
    | some p =>
      if p.kind == .posted then st.deliverPosted p
      else
      let keeps := match p.kind with
        | .writeBack b => b
        | _ => false
      let e := st.entry p.line
      let mine := (indexes p.words).filter fun i => (e.state i == .m || e.state i == .tr) && e.owner i == some p.holder
      let cells := p.cells.filter fun c => mine.contains (wordOf c.1 % 8)
      let st := ((st.dropPacket id).applyCells cells).countAccess (p.line * 64)
      st.setEntry p.line fun e =>
        let e := { e with recalls := e.recalls.filter fun r => !mine.contains r.1 }
        if keeps then e.setStates mine .s else (e.setStates mine .u).dropHolders mine none

/-- RECALL_ANSWER: the owner's data, if it had any, reach the home, and the request that waits goes on (R77, R78). An answer to
another recall than the one that is outstanding has no effect (R75). -/
def execRecallAnswer (id : Nat) (st : State) : Out :=
  .next <|
    match st.packet id with
    | none => st
    | some p =>
      if st.behindData p then st.owe (.recallAnswer id)
      else
      let e := st.entry p.line
      let mine := (indexes p.words).filter fun i => e.state i == .tr && tget? e.recalls i == some p.tag
      let cells := p.cells.filter fun c => mine.contains (wordOf c.1 % 8)
      let st := (st.dropPacket id).applyCells cells
      st.setEntry p.line fun e =>
        let e := { e with recalls := e.recalls.filter fun r => !mine.contains r.1 }
        if p.seq = 1 then (e.setStates mine .u).dropHolders mine none else e.setStates mine .s

/-! ### Arrivals at holders -/

/-- INVALIDATION_ARRIVAL: overlapping spans are discarded in full, chunks whose read signature is hit are squashed, and
watch entries tied to a discarded span are struck (R72, R80, R104). -/
def execInvalidationArrival (id : Nat) (st : State) : Out :=
  .next <|
    match st.packet id with
    | none => st
    | some p =>
      if st.behind p then st.owe (.invalidationArrival id)
      else
        let ks := st.strandsOf p.holder
        let st := ((st.dropPacket id).dropSpans p.holder p.words).strike ks p.words
        st.squashHit ks p.words (if p.seq = 1 then some p.strand else none)

/-- Whether a core of an agent holds a copy of a word: a span of its L1 region, or a valid word of a SPAN window (R71). -/
def State.keepsCopy (st : State) (g : Agent) (w : Nat) : Bool :=
  (st.coresHolding g).any fun c =>
    ((st.core c).l1.any fun x => x.overlaps [w]) ||
      [2 * c, 2 * c + 1].any fun b => (st.bank b).windows.any fun e =>
        e.2.cls == 3 && e.2.valid.any fun i => e.2.phys (e.2.base + 8 * i) / 8 == w

/-- An owner's words go home: those of which a core of the owner keeps a copy stay recorded as its copies, the others leave (R77,
R87). -/
def State.sendHome (st : State) (g : Agent) (line : Nat) (ws : List Nat) (cells : Tab Byte) : State :=
  let (kept, gone) := ws.partition (st.keepsCopy g)
  st.each [(true, kept), (false, gone)] fun st x =>
    if x.2.isEmpty then st
    else st.send { id := 0, kind := .writeBack x.1, home := homeOf (line * 64), holder := g, line := line, words := x.2,
                   cells := cells.filter fun c => x.2.contains (wordOf c.1) }

/-- RECALL_ARRIVAL: the holder gives up what it owns of the words, keeps them clean after a recall for read, and drops
them after one for write, which squashes and strikes as an invalidation does (R50, R72, R87, R104). The other words of an owned span
that it discards go home with it. -/
def execRecallArrival (id : Nat) (st : State) : Out :=
  .next <|
    match st.packet id with
    | none => st
    | some p =>
      if st.behind p then st.owe (.recallArrival id)
      else
        let forWrite := match p.kind with
          | .recall b => b
          | _ => false
        let whole := st.wholeSpans p.holder p.words
        let cells := st.ownedCells p.holder p.words
        let rest := whole.filter fun w => !p.words.contains w
        let restCells := if forWrite then st.ownedCells p.holder rest else []
        let st := (st.dropPacket id).yieldWords p.holder (if forWrite then whole else p.words) forWrite
        let st := if forWrite then
            let ks := st.strandsOf p.holder
            ((st.dropSpans p.holder p.words).strike ks p.words).squashHit ks p.words none
          else st
        let st := if restCells.isEmpty then st else st.sendHome p.holder p.line rest restCells
        st.send { p with kind := .recallAns, cells := cells, seq := if forWrite then 1 else 0, stamp := none }

/-- Spans stored beside those already held: overlapping clean spans give way, words that are owned stay. -/
def storeSpans (xs new : List Span) : List Span :=
  let new := new.filter fun n => !(xs.any fun x => x.owned && x.overlaps n.words)
  (xs.filter fun x => !(new.any fun n => x.overlaps n.words)) ++ new

/-- The lines that the spans of a store take. -/
def linesOf (xs : List Span) : List Nat := nubNat (xs.map fun x => x.line)

/-- A store of spans that holds more lines than its room gives up one that may go: a line marked dead if there is one, else
whichever (R45, R54, R62). The answer names the line. -/
def victimOf (room : Nat) (stays : Nat → Bool) (pick : Nat) (xs : List Span) : Option Nat :=
  let lines := linesOf xs
  if lines.length ≤ room then none
  else
    let free := lines.filter fun l => !stays l
    match free.find? fun l => xs.any fun x => x.line == l && x.dead with
    | some l => some l
    | none => free[pick % free.length]?

/-- The lines that a die's peer store may hold: 512 MiB (R62). -/
def peerRoom : Nat := 2 ^ 23

/-- A die's peer store beyond its share gives up a line, which is not resident: M spans are written back, and the home keeps the die
for the words of which its cores hold copies (R62, R77, R87). -/
def State.peerRoomFor (st : State) (d line : Nat) : State :=
  match victimOf peerRoom (fun l => l == line || (tget? (st.die d).resident l).isSome) (Config.victimPick st.tick) (st.die d).peer with
  | none => st
  | some l =>
    let out := (st.die d).peer.filter fun x => x.line == l && x.owned
    let st := st.setDie d fun x => { x with peer := x.peer.filter fun y => y.line != l }
    st.each out fun st x => st.sendHome (.peer d) x.line x.words (cellsAt (x.line * 64 + x.first * 8) x.data)

/-- An L1 region beyond its room drops a line that is not pinned (R45, R60). -/
def State.l1RoomFor (st : State) (bank core line : Nat) : State :=
  let b := st.bank bank
  let stays (l : Nat) : Bool := l == line || ((st.core core).pins.any fun p => p.1 == l)
  match victimOf ((b.l1End - b.kbSpad) / 64) stays (Config.victimPick st.tick) (st.core core).l1 with
  | none => st
  | some l => st.setCore core fun c => { c with l1 := c.l1.filter fun x => x.line != l }

/-- A fill answer's words become copies of its holder (R64, R71): spans of the die's peer store for a line of another
package, and of the core's L1 region or the owning slice where the launch has one, pinned where the line's place there is
(R60). A fill that a drop of translations has overtaken leaves no copy (R83). -/
def State.storeFill (st : State) (p : Packet) : State :=
  if (p.cls ≠ 0 ∧ p.cls ≠ 1 ∧ p.cls ≠ 3) ∨ p.keep = false then st
  else
    let bank := bankOf p.strand
    let l1 := st.l1Of bank (p.line * 64)
    let st := if p.chunk = 0 ∧ p.seq = 2 then
        st.setCore l1 fun c => { c with pins := if c.pins.contains (p.line, (st.strand p.strand).lkey) then c.pins
          else c.pins ++ [(p.line, (st.strand p.strand).lkey)] }
      else st
    let pin := (((st.core l1).pins.find? fun x => x.1 == p.line).map fun x => x.2).getD 0
    let xs := spansOf p.line p.cls p.words p.cells
    let st := match p.holder with
      | .peer d => (st.setDie d fun x => { x with peer := storeSpans x.peer xs }).peerRoomFor d p.line
      | _ => st
    if st.hasL1 bank && !(p.chunk == 0 && p.seq == 1) then
      (st.setCore l1 fun c => { c with l1 := storeSpans c.l1 (xs.map fun x => { x with pinned := pin }) }).l1RoomFor bank l1 p.line
    else st

/-- Cells handed to operations that await some words. -/
def OutOp.supply (o : OutOp) (cells : Tab Byte) (ws : List Nat) : OutOp :=
  { o with
    buf := (cells.filter fun c => o.need.contains (wordOf c.1)).foldl (fun t c => tput t c.1 c.2) o.buf
    need := o.need.filter fun w => !ws.contains w }

/-- Watch entries whose span a fill brings are tied to it from now on (R80). -/
def State.fillWatches (st : State) (k : Nat) (ws : List Nat) : State :=
  if (st.strand k).watches.isEmpty then st
  else st.setStrand k fun t => t.mapWatches fun w => if ws.contains w.word then { w with filled := true } else w

/-- The cells of a fill at the pool words of its window. -/
def Packet.poolCells (p : Packet) : Tab Byte :=
  (p.words.zip p.pool).flatMap fun e => (List.range 8).map fun j => (e.2 * 8 + j, tget 0 p.cells (e.1 * 8 + j))

/-- A window fill: the words become valid, where the window is still bound as it was when the fill was asked for, and every
operation that has asked for them under that binding has them (R50, R51, R235, R237). -/
def State.fillWindow (st : State) (p : Packet) (bank w : Nat) : State :=
  let (all, st) : Tab Byte × State := match tget? (st.bank bank).windows w with
    | none => (p.poolCells, st)
    | some x =>
      if x.bind ≠ p.bind then (p.poolCells, st)
      else
        let b := st.bank bank
        let index (q : Nat) : Nat := (poolOff (q * 8) - b.kbReg - x.pool) / 8
        let pairs := (p.words.zip p.pool).filter fun e => !x.valid.contains (index e.2)
        let cells := p.poolCells.filter fun c => pairs.any fun e => e.2 == c.1 / 8
        let st := { st with mem := st.mem.writeCells cells }
        let st := st.setBank bank fun b =>
          { b with windows := tput b.windows w { x with valid := x.valid ++ pairs.map fun e => index e.2 } }
        (p.pool.flatMap fun q => wordCells q st.mem.read, st)
  let ks := st.strandsOn fun k => clusterOf k == bank / 2 / 16
  st.each ks fun st k =>
    let waiting := ((st.strand k).ops.filter fun o => !(o.awaits p).isEmpty).map fun o => o.seq
    let st := st.setStrand k fun t =>
      { t with
        ops := t.ops.map fun o => o.supply (all.filter fun c => (o.awaits p).contains (wordOf c.1)) (o.awaits p)
        chunks := t.chunks.map fun c => { c with fills := c.fills.filter fun f => !(p.pool.contains f.1 && f.2 == p.bind) } }
    st.each waiting fun st q => (st.fillWatches k p.words).ready k q

/-- FILL_ANSWER: words reach their holder, as window words that become valid, as a copy, or as the data of a read that
leaves none (R50, R51, R78). The same step takes an ownership grant, which travels on the same channel (R78). -/
def execFillAnswer (id : Nat) (st : State) : Out :=
  .next <|
    match st.packet id with
    | none => st
    | some p =>
      if st.behind p then st.owe (.fillAnswer id)
      else
        let st := st.dropPacket id
        if p.kind == .grant then st.setChunkOf p.strand p.chunk fun c => { c with toOwn := c.toOwn.erase p.line }
        else
        match p.win with
        | some (bank, w) => st.fillWindow p bank w
        | none =>
          let st := st.storeFill p
          if p.chunk = 0 then st
          else
            let st := if p.pcie && st.readBit p == 3 then
                st.setChunkOf p.strand p.chunk fun c => { c with amoRead := p.cells.foldl (fun t x => tput t x.1 x.2) c.amoRead }
              else st
            let st := st.setStrand p.strand fun t =>
              { t with ops := t.ops.map fun o =>
                  if o.counter == .ld && o.seq == p.seq && o.chunk == p.chunk then o.supply p.cells p.words else o }
            (st.fillWatches p.strand p.words).ready p.strand p.seq

/-! ### Confirmations -/

/-- CONFIRM_REQUEST: the home answers on the holder's channel, after every invalidation it sent before; a word that a
course locks, or of which an engine write has a piece left, holds the answer back (R79, R117, R126). -/
def execConfirmRequest (id : Nat) (st : State) : Out :=
  .next <|
    match st.packet id with
    | none => st
    | some p =>
      let held := p.words.any fun w =>
        (st.entry (lineOfWord w)).locks.any (fun l => l.1 == w % 8) || !(st.entry (lineOfWord w)).split.isEmpty
      if held then st.waitAtHome p
      else (st.dropPacket id).send { p with kind := .confirmAns, stamp := none }

/-- CONFIRM_ANSWER: the answer arrives; once every answer of a home is in, the pending watch entries that the chunk asked about and
whose words lie there are confirmed; where the strand's live chunk waits in a CHKW or WCLR, their keys enter its read signature
(R79, R110, R111). -/
def execConfirmAnswer (id : Nat) (st : State) : Out :=
  .next <|
    match st.packet id with
    | none => st
    | some p =>
      if st.behind p then st.owe (.confirmAnswer id)
      else
        let st := (st.dropPacket id).setChunkOf p.strand p.chunk fun c => { c with toConfirm := c.toConfirm.erase p.home }
        match st.chunkOf p.strand p.chunk with
        | none => st
        | some c =>
          if c.toConfirm.contains p.home then st
          else
            let hit (w : Watch) : Bool :=
              w.st == .pending && w.asked && w.by_ == p.chunk && homeOf (w.word * 8) == p.home && p.words.contains w.word
            let words := ((st.strand p.strand).watches.filter hit).map fun w => w.word
            let st := st.setStrand p.strand fun t => t.mapWatches fun w => if hit w then { w with st := .confirmed } else w
            match (st.strand p.strand).live with
            | some d => if d.checking then st.noteReads p.strand d.id words else st
            | none => st

/-! ### Reduction buffers -/

/-- The end of a buffer's registration for a word, sent after its partials: it carries the number of the registration that it
ends (R85, R86). -/
def State.endRegistration (st : State) (cl w : Nat) : State :=
  let n := (((st.entry (lineOfWord w)).regs.find? fun r => r.1 == cl && r.2.1 == w % 8).map fun r => r.2.2).getD 0
  st.send { id := 0, kind := .partialAns 0 0, home := homeOf (w * 8), holder := .redbuf cl, line := lineOfWord w, words := [w],
            seq := 1, tag := n }

/-- COMBINE_REQUEST: a reduction buffer sends its partials of the words and resets them; the last packet ends its
registration (R85). -/
def execCombineRequest (id : Nat) (st : State) : Out :=
  .next <|
    match st.packet id with
    | none => st
    | some p =>
      if st.behind p then st.owe (.combineRequest id)
      else
        match p.holder with
        | .redbuf c =>
          let mine := (st.cluster c).partials.filter fun q => p.words.contains (wordOf q.addr)
          let st := (st.dropPacket id).setCluster c fun x =>
            { x with partials := x.partials.filter fun q => !p.words.contains (wordOf q.addr) }
          let st := st.each mine fun st q =>
            match q.value with
            | none => st
            | some v => st.send
                { p with kind := .partialAns q.op q.n, cells := cellsAt q.addr (toBytes q.n v), stamp := none, seq := 0 }
          st.each p.words fun st w => st.endRegistration c w
        | _ => st.dropPacket id

/-- COMBINE_PARTIAL_ARRIVAL: a partial is applied to the home value in arrival order, those of one holder in the order in which
it sent them; its last packet ends the registration that it names, and with the last registration the word leaves TC (R85,
R86). -/
def execCombinePartialArrival (id : Nat) (st : State) : Out :=
  .next <|
    match st.packet id with
    | none => st
    | some p =>
      if st.behindData p then st.owe (.combinePartialArrival id)
      else
      let st := st.dropPacket id
      match p.kind, p.cells with
      | .partialAns op n, (a, _) :: _ =>
        let old := fromBytes (st.homeBytes a n)
        let v := fromBytes (p.cells.map fun c => c.2)
        st.applyCells (cellsAt a (toBytes n (atomicNew op n old v 0)))
      | _, _ =>
        st.setEntry p.line fun e =>
          let idx := indexes p.words
          let cl := match p.holder with
            | .redbuf c => c
            | _ => noStrand
          let e := { e with regs := e.regs.filter fun r => !(r.1 == cl && idx.contains r.2.1 && r.2.2 == p.tag) }
          let free := idx.filter fun i => !(e.regs.any fun r => r.2.1 == i)
          (e.setStates (free.filter fun i => e.state i == .tc || e.state i == .p) .u).dropHolders free none

/-! ### The host -/

/-- The strands of a package that read a host line are squashed by an invalidating snoop (R91, R104). -/
def State.snoopSquash (st : State) (line : Nat) : State :=
  let ws := rangeFrom (line * 8) 8
  st.squashHit (st.strandsOn fun _ => true) ws none

/-- The device's data of a line are forwarded to the host. -/
def State.forwardLine (st : State) (line : Nat) : State :=
  let bytes := (rangeFrom (line * 64) 64).map st.homeByte
  { st with mem := st.mem.writeBytes (line * 64) bytes }

/-- The line leaves the device cache. -/
def State.uncache (st : State) (line : Nat) : State :=
  (st.setMesi line .i).setPkg (pkgOfAddr (line * 64)) fun g => { g with cache := g.cache.filter fun c => c.1 / 64 != line }

/-- Whether a line of host memory is in use at its home: a chunk holds it in TW, or a write to it has pieces left. -/
def DirEntry.held (e : DirEntry) : Bool := !e.tw.isEmpty || !e.split.isEmpty || !e.posting.isEmpty

/-- The common form of the host's snoops (R91): a chunk that holds the line in TW, or a write that has pieces left, delays it, M data
are forwarded, and the line ends in the state of the table. -/
def State.hostSnoop (st : State) (i : Instr) (line : Nat) (next' : Mesi → Mesi) (inval : Bool) : State :=
  if (st.entry line).held then st.owe i
  else
    let now := st.mesiOf line
    let st := if now == .m then st.forwardLine line else st
    if inval then if now == .i then st else (st.uncache line).snoopSquash line
    else st.setMesi line (next' now)

/-- HOST_SNPDATA (R91). -/
def execHostSnpdata (pkg line : Nat) (st : State) : Out :=
  if packageLimit ≤ pkg then .fault .noSuchAgent
  else .next (st.hostSnoop (.hostSnpdata pkg line) line (fun x => if x == .i then .i else .s) false)

/-- HOST_SNPINV (R91). -/
def execHostSnpinv (pkg line : Nat) (st : State) : Out :=
  if packageLimit ≤ pkg then .fault .noSuchAgent
  else .next (st.hostSnoop (.hostSnpinv pkg line) line id true)

/-- HOST_SNPCUR (R91). -/
def execHostSnpcur (pkg line : Nat) (st : State) : Out :=
  if packageLimit ≤ pkg then .fault .noSuchAgent
  else .next (st.hostSnoop (.hostSnpcur pkg line) line id false)

/-- Whether the host may keep a copy of a line of device memory: its page is SYS with BIAS = 1, by a leaf of a page table or by a
translation that a source holds (R14, R92). -/
def State.hostBias (st : State) (a : Nat) : Bool :=
  (st.leavesOf a).any (fun w => leafClass w.1 == 5 && nbit w.1 13) ||
    st.tlb.any fun e => e.cls == 5 && e.frame ≤ a && a < e.frame + e.pages * 4096 && nbit e.word 13

/-- The launch that owns the PRIV page of a byte, or 0 (R14, R82). -/
def State.privOwner (st : State) (a : Nat) : Nat :=
  (((st.leavesOf a).find? fun w => leafClass w.1 == 0).map fun w => bits w.2 15 0).getD
    (((st.tlb.find? fun e => e.cls == 0 && e.frame ≤ a && a < e.frame + e.pages * 4096).map fun e => e.owner).getD 0)

/-- The class and the owner of a physical write outside any translation: copies at the sites of the owner of a PRIV page are told of
it (R82). -/
def State.physicalOwner (st : State) (a : Nat) : Nat × Nat :=
  let owner := st.privOwner a
  (if owner = 0 then 3 else 0, owner)

/-- Whether an address lies in a page whose move is in its final pass: a host request waits for its end (R90). -/
def State.inFinalPass (st : State) (a : Nat) : Bool :=
  (st.pkg (pkgOfAddr a)).moves.any fun m => 3 ≤ m.phase && m.old ≤ a && a < m.old + m.size

/-- The key by which a host access keeps its place in the order of arrival at a home: its address and size, and what it writes
(R77). -/
def hostKey (addr size : Nat) (data : Option (List Byte)) : List Nat :=
  match data with
  | none => [0, 0, addr, size]
  | some bs => [0, 1, addr, size, fromBytes bs]

/-- Whether a host access may be made: no word waits (R77, R117), earlier requests have been served (R77), and no word is owned
or updated elsewhere (R85, R92). -/
def State.hostReady (st : State) (a n : Nat) (writes : Bool) (key : List Nat) : Bool :=
  !st.inFinalPass a && (linesAt a n).all fun x =>
    let e := st.entry x.1
    !e.busy x.2 noStrand 0 writes && !st.placedAfter x.1 x.2 key && !(x.2.any fun i => e.state i == .m || e.state i == .p)

/-- What a host access that must wait does: it keeps its place, and its words are brought home once it is first (R77, R92). -/
def State.hostWait (st : State) (a n : Nat) (writes : Bool) (key : List Nat) : State :=
  st.each (linesAt a n) fun st x =>
    let st := st.takePlace x.1 x.2 key
    if (st.entry x.1).busy x.2 noStrand 0 writes || st.placedAfter x.1 x.2 key then st else st.bringWords x.1 x.2 writes

/-- HOST_CXL_MEM_READ: one access at the home, after the words that wait; on a SYS page with BIAS = 1 the home may record
the host as a holder (R92, R117). -/
def execHostCxlMemRead (pkg addr size : Nat) (caches : Bool) (st : State) : Out :=
  if packageLimit ≤ pkg then .fault .noSuchAgent
  else
    let a := pkg * 2 ^ 50 + addr
    let key := hostKey a size none
    match st.regionAt a with
    | .hbm | .tier _ =>
      if st.hostReady a size false key = false then
        .next ((st.hostWait a size false key).owe (.hostCxlMemRead pkg addr size caches))
      else
        let st := (st.each (linesAt a size) fun st x => st.countAccess (x.1 * 64)).leavePlaces key
        .next <| if caches && st.hostBias a then
          st.setPkg pkg fun g =>
            { g with hostCopies := nubNat (g.hostCopies ++ [a / 64]), hostShared := g.hostShared.filter (· != a / 64) }
        else st
    | _ => .next st

/-- A store of the host to its own memory: the host owns the line, so that no device cache holds it (R91), and bytes that the
device has not yet read change; the model's only source of such a store is this input (log 108, DESIGN CHOICE). -/
def State.hostStore (st : State) (a : Nat) (data : List Byte) : State :=
  let a := storageOf a
  let cells := (cellsAt a data).filter fun c => isHost c.1 && st.mesiOf (c.1 / 64) == .i
  { st with mem := st.mem.writeCells cells }

/-- HOST_CXL_MEM_WRITE: applied at the home as a write through, once the words are free; it counts a crossing when a
device atomic has executed on the line within 4,096 cycles (R92, R96). At an address of host memory it is the host's store to its
own memory. -/
def execHostCxlMemWrite (pkg addr : Nat) (data : List Byte) (st : State) : Out :=
  if packageLimit ≤ pkg then .fault .noSuchAgent
  else
    let a := pkg * 2 ^ 50 + addr
    let key := hostKey a data.length (some data)
    match st.regionAt a with
    | .hbm | .tier _ =>
      if st.hostReady a data.length true key = false then
        .next ((st.hostWait a data.length true key).owe (.hostCxlMemWrite pkg addr data))
      else
        let st := st.leavePlaces key
        .next <| st.each ((linesAt a data.length).map fun x => x.1) fun st l =>
          let cells := (cellsAt a data).filter fun c => c.1 / 64 == l
          let crossed := (st.dies.any fun d => match tget? d.2.atomics l with
            | some t => st.time < t + 4096
            | none => false)
          let st := if crossed then st.setPkg pkg fun g => { g with kxdom := g.kxdom + 1 } else st
          let owner := st.privOwner (l * 64)
          st.writeLine l cells (if owner = 0 then 3 else 0) owner none none
    | .host _ => .next (st.hostStore a data)
    | _ => .next st

/-- BACK_INVALIDATION_ANSWER: the host answers BISnpInv by giving up its copy of a device line, BISnpData by keeping at most a
shared one, with its data if it changed them (R92). Changed words are a write toward the copies and readers of the device (R93).
-/
def execBackInvalidationAnswer (pkg line : Nat) (data : List Byte) (st : State) : Out :=
  if packageLimit ≤ pkg then .fault .noSuchAgent
  else if (st.pkg pkg).snoops.contains line = false then .next st
  else
    let shares := (st.pkg pkg).snoopData.contains line
    let st := st.setPkg pkg fun g =>
      { g with
        snoops := g.snoops.filter (· != line), snoopData := g.snoopData.filter (· != line)
        hostCopies := if shares then g.hostCopies else g.hostCopies.filter (· != line)
        hostShared := if shares then nubNat (g.hostShared ++ [line]) else g.hostShared.filter (· != line) }
    let cells := if data.length = 64 then (cellsAt (line * 64) data).filter fun c => st.homeByte c.1 != c.2 else []
    .next (if cells.isEmpty then st
      else (st.writeThrough line (nubNat (cells.map fun c => wordOf c.1 % 8)) 5 0 none none).applyCells cells)

/-- The lines of host memory that a home die's L2 may hold: what the version buffers leave of 1 GiB (R62). -/
def hostRoom : Nat := 2 ^ 24 - 288 * 256

/-- A home die whose cache of host lines is full gives one up: a line in M is written to the host, any other leaves with no data
(R91, column Replacement). -/
def State.hostRoomFor (st : State) (line : Nat) : State :=
  let p := pkgOfAddr (line * 64)
  let mine := ((st.pkg p).mesi.filter fun x => homeOf (x.1 * 64) == homeOf (line * 64)).map fun x => x.1
  if mine.length ≤ hostRoom then st
  else
    let free := mine.filter fun l => l != line && !(st.entry l).held
    match free[Config.victimPick st.tick % free.length]? with
    | none => st
    | some l => (if st.mesiOf l == .m then st.forwardLine l else st).uncache l

/-- CXL_CACHE_GRANT: the host's answer to RdShared or RdOwn: the line's data and its state E or S (R91). -/
def execCxlCacheGrant (pkg line : Nat) (exclusive : Bool) (data : List Byte) (st : State) : Out :=
  if packageLimit ≤ pkg then .fault .noSuchAgent
  else if (st.pkg pkg).snoops.contains line = false then .next st
  else
    let st := st.setPkg pkg fun g =>
      { g with snoops := g.snoops.filter (· != line), snoopData := g.snoopData.filter (· != line) }
    let fresh := st.mesiOf line == .i
    let st := (st.setMesi line (if exclusive then .e else .s)).hostRoomFor line
    let bytes := if data.length = 64 then data else st.mem.readBytes (line * 64) 64
    .next (if fresh then st.setPkg pkg fun g =>
        { g with cache := (cellsAt (line * 64) bytes).foldl (fun t c => tset 0 t c.1 c.2) g.cache }
      else st)

end Sys2Proof.Machine
end

