-- ==== Sys2Proof/Machine/Windows.lean ====
section
/-!
DEFINITION. Mapped windows and their write-back (R47 to R53, R232, R234 to R237), last-use loads as they complete (R54,
R231), hints (R56 to R58, R233), stale loads' checks (R228, R229), fences (R238), joins (R303, R304), and the returns of
data and acknowledgements (R177).
-/

namespace Sys2Proof.Machine

/-! ### Write-back -/

/-- Window words snapshotted and queued for write-back, one write for each line (R52, R232); the words lose D. -/
def State.queueWrites (st : State) (bank w : Nat) (words : List Nat) (strand : Nat) : State :=
  match tget? (st.bank bank).windows w with
  | none => st
  | some x =>
    let mine := words.filter x.dirty.contains
    let lines := nubNat (mine.map fun i => (x.base + 8 * i) / 64)
    let t := st.strand strand
    let st := st.each lines fun st l =>
      let (id, st) := st.fresh
      let here := mine.filter fun i => (x.base + 8 * i) / 64 == l
      let cells := here.flatMap fun i => (List.range 8).map fun j =>
        (x.base + 8 * i + j, st.mem.read (st.windowPool bank x (x.base + 8 * i) + j))
      let q : WinWrite :=
        { window := w, va := l * 64, cells := cells, strand := strand, lkey := (st.bank bank).lkey, sv := t.sv, id := id,
          words := if x.cls = 3 then here.map fun i => x.phys (x.base + 8 * i) / 8 else [] }
      (st.setBank bank fun b => { b with winQueue := b.winQueue ++ [q] }).owe (.windowWriteBack (bank / 2))
    st.setBank bank fun b => b.setWindow w fun x => { x with dirty := x.dirty.filter fun i => !mine.contains i }

/-- Words of a window become I. -/
def State.clearWords (st : State) (bank w : Nat) (words : List Nat) : State :=
  st.setBank bank fun b => b.setWindow w fun x =>
    { x with valid := x.valid.filter (fun i => !words.contains i), dirty := x.dirty.filter fun i => !words.contains i }

/-- A queued write of a bank leaves its queue. -/
def State.popWrite (st : State) (bank id : Nat) : State :=
  st.setBank bank fun b => { b with winQueue := b.winQueue.filter fun q => q.id != id }

/-- Flushes whose writes have all been committed count down on cp (R52, R232). -/
def State.endFlushes (st : State) (bank : Nat) : State :=
  let b := st.bank bank
  let isDone (f : FlushWait) : Bool := f.writes.all fun id => !(b.winQueue.any fun q => q.id == id)
  let st := st.each (b.flushes.filter isDone) fun st f => st.setStrand f.strand fun t => t.complete .cp f.seq
  st.setBank bank fun b => { b with flushes := b.flushes.filter fun f => !isDone f }

/-- The translation of a queued write: a write that a drop of translations left uses the entry that was dropped (R21, R237). -/
def State.writeBackEntry (st : State) (bank : Nat) (q : WinWrite) : Trans × State :=
  match q.entry with
  | some e => (.ok e, st)
  | none => st.translate (sourceCore (bank / 2)) q.lkey q.va .winWrite q.sv (some q.id)

/-- The words of a SPAN line that a queued write brings home for the agent that owns them: they stay owned where the window has
stored to them again, stay as a clean copy where the window holds them, and else leave (R50, R52, R77). -/
def State.bringOwned (st : State) (bank line : Nat) (q : WinWrite) (mine : List Nat) (cells : Tab Byte) : State :=
  let held (ws : Window → List Nat) (i : Nat) : Bool := match tget? (st.bank bank).windows q.window with
    | some x => (ws x).any fun j => x.phys (x.base + 8 * j) / 8 == line * 8 + i
    | none => false
  let left := mine.filter fun i => !held Window.dirty i
  let keeps := left.filter (held Window.valid)
  let gone := left.filter fun i => !held Window.valid i
  ((st.applyCells cells).countAccess (line * 64)).setEntry line fun e =>
    ((e.setStates keeps .s).setStates gone .u).dropHolders gone none

/-- A translated and checked write of a window's queue made at its home: words that the core's agent owns go home as its data,
the others as a chunk of one store (R52, R114). The write leaves the queue once its last piece is applied. -/
def State.writeBackAt (st : State) (bank : Nat) (q : WinWrite) (e : TlbEntry) (again : Instr) : State :=
  let a := storageOf (e.phys q.va)
  let cells := q.cells.map fun c => (a + (c.1 - q.va), c.2)
  let owner := st.holderOf (4 * bank) a
  let ent := st.entry (a / 64)
  let idx := nubNat (cells.map fun c => wordOf c.1 % 8)
  let mine := if e.cls = 3 then idx.filter fun i => ent.state i == .m && ent.owner i == some owner else []
  let (own, rest) := cells.partition fun c => mine.contains (wordOf c.1 % 8)
  if ent.busy idx noStrand 0 true then st.owe again
  else
    match st.engineWrite rest e.cls e.owner false [q.id] with
    | none => (st.snoopCells rest false [q.id]).owe again
    | some st =>
      let st := if own.isEmpty then st else st.bringOwned bank (a / 64) q mine own
      if st.piecesLeft q.id then
        (st.setBank bank fun b => { b with winQueue := updateFirst (fun x => x.id == q.id) (fun x => { x with cells := [] }) b.winQueue }).owe again
      else (st.popWrite bank q.id).endFlushes bank

/-- WINDOW_WRITE_BACK: the oldest queued write of a core is translated and checked, and committed as a chunk of one
store; a failed check, the range check once where it arrives (R24), is a machine check that kills the launch (R52, R232), and a kill that has discarded the write's parked
access ends it (R28). -/
def State.writeBackBank (st : State) (bank : Nat) (again : Instr) : State :=
  match (st.bank bank).winQueue with
  | [] => st
  | q :: _ =>
    if st.isCut q.lkey q.id then (st.popWrite bank q.id).endFlushes bank
    else if q.cells.isEmpty then
      if st.piecesLeft q.id then st.owe again else (st.popWrite bank q.id).endFlushes bank
    else
    match st.writeBackEntry bank q with
    | (.miss m, st) =>
      if (st.launch q.lkey).any fun l => l.killed then (st.popWrite bank q.id).endFlushes bank
      else (st.park (sourceCore (bank / 2)) q.lkey q.va .winWrite m q.id).owe again
    | (.ok e, st) =>
      let st := st.taken (sourceCore (bank / 2)) q.id
      let a := e.phys q.va
      let src := pkgOfDie (dieOfCluster (bank / 2 / 16))
      if (e.check q.sv q.lkey .winWrite).isSome ∨
          (st.holdsPlace (storageOf a / 64) [q.id] = false ∧ st.rangeAdmits src a 2 = false) then
        ((st.popWrite bank q.id).endFlushes bank).machineCheck q.strand q.va (st.strand q.strand).pc true
      else st.writeBackAt bank q e again

/-- WINDOW_WRITE_BACK of a core (R52). -/
def execWindowWriteBack (core : Nat) (st : State) : Out :=
  if strandLimit ≤ 8 * core then .fault .noSuchAgent
  else if (st.bank (2 * core)).winQueue.isEmpty then .next (st.writeBackBank (2 * core + 1) (.windowWriteBack core))
  else .next (st.writeBackBank (2 * core) (.windowWriteBack core))

/-- Dead words leave their window: an M word is queued for write-back first, but for one that the drop of its chunk is to discard
(R50, R54, R55, R231). -/
def State.killWords (st : State) (k : Nat) (pool : List Nat) (drop : Bool) : State :=
  st.each pool fun st p =>
    let bank := bankAt (poolCore (p * 8)) (poolOff (p * 8))
    let b := st.bank bank
    match b.windowAt (poolOff (p * 8) - b.kbReg) with
    | none => st
    | some (w, x) =>
      let i := (poolOff (p * 8) - b.kbReg - x.pool) / 8
      if drop && x.dirty.contains i then st else (st.queueWrites bank w [i] k).clearWords bank w [i]

/-- Words marked dead as a last-use load completes (R54, R87, R231): window words leave, copies become the first to be
replaced, and an owned peer span is written back, but for one that is to be dropped. -/
def State.markDead (st : State) (k : Nat) (ws : List Nat) (drop : Bool) : State :=
  let st := st.killWords k (ws.filter fun w => isPool (w * 8)) drop
  let ws := ws.filter fun w => !isPool (w * 8)
  let dead (xs : List Span) := xs.map fun x => if x.overlaps ws then { x with dead := true } else x
  let st := st.each (nubNat (ws.map fun w => st.l1Of (bankOf k) (w * 8))) fun st c => st.setCore c fun x => { x with l1 := dead x.l1 }
  let d := dieOf k
  if drop then st.setDie d fun x => { x with peer := dead x.peer }
  else
    let owned := (st.die d).peer.filter fun x => x.owned && x.overlaps ws
    let st := st.each owned fun st x =>
      st.send { id := 0, kind := .writeBack true, home := homeOf (x.line * 64), holder := .peer d, line := x.line,
                words := x.words, cells := cellsAt (x.line * 64 + x.first * 8) x.data }
    st.setDie d fun x => { x with peer := (dead x.peer).map fun y => if y.overlaps ws then { y with owned := false } else y }

/-! ### SPMAP, SPUNMAP, SPFLUSH -/

/-- Whether two ranges share a number. -/
def rangesMeet (a n b m : Nat) : Bool := a < b + m && b < a + n

/-- The checks of SPMAP on the pages of its range in ascending order (R234): none where a translation is missing. A failed check
of R18 reports the first byte of the range in the page (log 112, DEDUCED). -/
def State.mapPages (st : State) (g len : Nat) (ro : Bool) : Option (Option (Nat × Nat) × List (Nat × Nat × TlbEntry)) × State :=
  let t := st.me
  let source := sourceCore (coreOf st.cur)
  (segments g len).foldl (fun (r : Option (Option (Nat × Nat) × List (Nat × Nat × TlbEntry)) × State) s =>
    match r.1 with
    | none => r
    | some (some _, _) => r
    | some (none, es) =>
      match r.2.translate source t.lkey s.1 .spmap t.sv (some st.issueTag) with
      | (.miss m, st) => (none, st.park source t.lkey s.1 .spmap m st.issueTag)
      | (.ok e, st) =>
        let st := st.noteUsed st.cur st.chunk.id e
        match e.check t.sv t.lkey .spmap with
        | some c => (some (some (c, s.1), es), st)
        | none =>
          if !ro && e.cls != 1 && e.cls != 4 && !e.w then (some (some (causePermission, s.1), es), st)
          else (some (none, es ++ [(s.1, s.2, e)]), st)) (some (none, []), st)

/-- SPMAP: a window is bound at execution; while a translation is missing the instruction waits (R234). A class violation reports
the first byte of the page (log 112, DEDUCED). -/
def execSpmap (o : Ops) (st : State) : Out :=
  st.scalar o.g { regs := [regS o.sa.toNat, regS o.sb.toNat, regS o.sc.toNat] } fun st =>
    let w := o.modBits 58 56
    let g := (st.s o.sa).toNat
    let p := (st.s o.sb).toNat
    let len := (st.s o.sc).toNat
    let b := st.bank (bankOf st.cur)
    if 2 ^ 56 ≤ g ∨ 2 ^ 56 ≤ (g + len + 2 ^ 64 - 1) % 2 ^ 64 then st.raise causeNonCanonical g
    else if g % 64 ≠ 0 ∨ p % 64 ≠ 0 ∨ len % 64 ≠ 0 then st.raise causeAlignment g
    else if len = 0 ∨ b.inboxAt < p + len then st.raise causeBounds p
    else if bits g 55 48 = 0xFF ∨ bits (g + len - 1) 55 48 = 0xFF ∨ (tget? b.windows w).isSome ∨
        (b.windows.any fun e => rangesMeet g len e.2.base e.2.len || rangesMeet p len e.2.pool e.2.len) = true then
      st.raise causeWindow g
    else
      match st.mapPages g len (o.modBit 59) with
      | (none, st) => st
      | (some (some (c, a), _), st) => st.raise c a
      | (some (none, es), st) =>
        let cls := (es.head?.map fun e => e.2.2.cls).getD 0
        let ok (c : Nat) : Bool := c == 0 || c == 1 || c == 3 || c == 4
        match es.find? fun e => !ok e.2.2.cls || e.2.2.cls != cls with
        | some e => st.raise causeClass (e.1 / 4096 * 4096)
        | none =>
          let st := st.taken (sourceCore (coreOf st.cur)) st.issueTag
          let (n, st) := st.fresh
          let x : Window :=
            { bind := n, base := g, pool := p, len := len, ro := o.modBit 59 || cls == 1 || cls == 4, cls := cls,
              pages := es.foldl (fun t e => tput t (e.1 / 4096) (e.2.2.phys (e.1 / 4096 * 4096))) [] }
          ((st.setBank (bankOf st.cur) fun b => { b with windows := tput b.windows w x }).setChunk fun c =>
            { c with maps := w :: c.maps }).finish

/-- SPUNMAP: acts at its chunk's apply (R235). -/
def execSpunmap (o : Ops) (st : State) : Out :=
  st.scalar o.g {} fun st => (st.hold (.unmap (o.modBits 58 56))).finish

/-- What SPUNMAP does at apply: the M words are queued, the chunks of other strands that have accessed the window are
squashed, and the binding is removed (R235). A later chunk of the same strand is not squashed: its stores to the window's words
then reach the pool only (log 113, DEDUCED). -/
def State.unmapNow (st : State) (k w : Nat) : State :=
  let bank := bankOf k
  match tget? (st.bank bank).windows w with
  | none => st
  | some x =>
    let st := st.queueWrites bank w x.dirty k
    let hit := (st.strandsOn fun j => coreOf j == coreOf k && j != k).flatMap fun j =>
      ((st.strand j).chunks.filter fun c => x.users.contains c.id).map fun c => (j, c.id)
    let st := st.each hit fun st h => st.squash h.1 h.2 none
    st.setBank bank fun b => { b with windows := terase b.windows w }

/-- SPFLUSH: an engine command counted on cp, whose snapshot is taken at its chunk's apply (R236). -/
def execSpflush (o : Ops) (st : State) : Out :=
  st.scalar o.g {} fun st =>
    if st.counterFull .cp then st
    else
      let id := st.chunk.id
      let seq := st.me.issued
      let (n, st) := st.fresh
      let st := st.issueOp [] { counter := .cp, chunk := id }
      let cmd : Cmd :=
        { id := n, strand := st.cur, seq := seq, chunk := id, lkey := st.me.lkey, sv := st.me.sv, mailbox := none,
          kind := .flush (o.modBits 58 56) }
      (({ st with cmds := tput st.cmds n cmd }.hold (.cmd n)).finish).endChunk

/-- What SPFLUSH does at apply: the M words are snapshotted and queued, and its count falls once they and every write
queued before have been committed (R52, R232, R236). -/
def State.flushNow (st : State) (c : Cmd) (w : Nat) : State :=
  let bank := bankOf c.strand
  let dirty := ((tget? (st.bank bank).windows w).map fun x => x.dirty).getD []
  let st := st.queueWrites bank w dirty c.strand
  let st := st.setBank bank fun b =>
    { b with flushes := b.flushes ++ [{ strand := c.strand, seq := c.seq
                                        writes := (b.winQueue.filter fun q => q.window == w).map fun q => q.id }] }
  ({ st with cmds := terase st.cmds c.id }).endFlushes bank

/-! ### Watch entries -/

/-- A CHKW or WCLR waits until every pending watch entry of its strand is resolved (R228): it asks about every one that has not been
asked about. While it waits, the keys of what is confirmed enter the chunk's read signature (R111). -/
def State.resolveWatches (st : State) (body : State → State) : State :=
  if st.me.watches.any fun w => w.st == .pending then
    (st.setChunk fun c => { c with checking := true }).askWatches st.cur st.chunk.id true
  else body (st.setChunk fun c => { c with checking := false })

/-- CHKW: once every pending entry is resolved, it branches if any is struck or OVF is set (R228). -/
def execChkw (o : Ops) (st : State) : Out :=
  st.scalar o.g {} fun st =>
    st.resolveWatches fun st =>
      if st.me.ovf || st.me.watches.any fun w => w.st == .struck then st.jumpBy o else st.finish

/-- WCLR: once every pending entry is resolved, every entry is freed and OVF cleared (R229). -/
def execWclr (o : Ops) (st : State) : Out :=
  st.scalar o.g {} fun st =>
    st.resolveWatches fun st => (st.setMe fun t => { t with watches := [], ovf := false }).finish

/-! ### Fences -/

/-- A fence ends its chunk, and the strand issues nothing until the chunk has committed and st is zero (R238); the commit
of a FENCE.SY makes the waits of R122. -/
def State.fenceForm (st : State) (o : Ops) (sys : Bool) : Out :=
  st.scalar o.g {} fun st =>
    ((st.finish.setChunk fun c => { c with fence := true, fenceSy := sys, sysWait := c.sysWait || sys }).setMe fun t =>
      { t with run := .fence }).endChunk

/-- FENCE (R238). -/
def execFence (o : Ops) (st : State) : Out := st.fenceForm o false

/-- FENCE.SY (R124, R238). -/
def execFenceSy (o : Ops) (st : State) : Out := st.fenceForm o true

/-- Whether something that an INVP (R21) or a FENCE.SY (R122) waits for is still there: a chunk, a queued window write, an engine
command, course stores of a package staged for a frame, a packet, or a line asked of the host. -/
def State.stillUses (st : State) (w : Nat × Nat) : Bool :=
  let x := w.1 % strandLimit
  match w.1 / strandLimit with
  | 0 => (st.chunkOf w.1 w.2).isSome
  | 1 => (st.bank x).winQueue.any fun q => q.id == w.2
  | 2 =>
    ((st.cluster x).tasks.any fun t => t.id == w.2) || ((st.cluster x).copies.any fun m => m.id == w.2) ||
      (st.pkg (pkgOfDie (dieOfCluster x))).nvme.any fun r => r.cmd == w.2 && r.cluster == x
  | 3 =>
    (st.stcs.any fun s => s.src == x && s.addr / 4096 == w.2) ||
      st.pkgs.any fun g => g.2.staging.any fun s => s.src == x && s.cells.any fun c => c.1 / 4096 == w.2
  | 4 => st.net.any fun p => p.id == w.2
  | _ => (st.pkg x).snoops.contains w.2

/-- What a FENCE.SY waits for once its chunk has been applied (R122, R124). -/
def State.fenceWaits (st : State) (k : Nat) : List (Nat × Nat) :=
  st.writesBefore.map (fun id => (4 * strandLimit, id)) ++
    ((st.pkg (pkgOf k)).snoops.filter fun l => !isHost (l * 64)).map fun l => (5 * strandLimit + pkgOf k, l)

/-- A strand that waits for a fence goes on once its chunks have committed, st is zero and the waits of a FENCE.SY are over. -/
def State.wakeFence (st : State) (k : Nat) : State :=
  let t := st.strand k
  if t.run == .fence && t.chunks.isEmpty && t.count .st == 0 then
    if t.await.any st.stillUses then st.owe (.storeAcknowledgement k (2 ^ 64))
    else (st.setStrand k fun t => { t with await := [] }).resumeFrom k .fence
  else st

/-! ### Joins -/

/-- JINIT: an 8-byte store of a join word (R303). -/
def execJinit (o : Ops) (st : State) : Out :=
  st.scalar o.g { regs := [regS o.sa.toNat, regS o.sb.toNat, regS o.sc.toNat] } fun st =>
    let j := (st.s o.sa).toNat
    let brick := (st.s o.sc).toNat
    let count := if o.sb = 0 then o.immBits 13 0 else (st.s o.sb).toNat
    if 16383 < count then st.raise causeOperand j
    else if j % 16 ≠ 0 ∨ brick % 64 ≠ 0 then st.raise causeAlignment j
    else
      st.issueStore { access := .store, pc := st.me.pc, n := 8, vas := [j], join := true,
                      data := [toBytes 8 (count * 2 ^ 50 + bits brick 55 6)] } false

/-- JARR: an arrival at a join, a returning atomic at its home (R304). -/
def execJarr (o : Ops) (st : State) : Out :=
  st.scalar o.g { regs := addrRegs o ++ [regS o.dst.toNat] } fun st =>
    let j := st.formed o
    let m : MemOp := { access := .amo, pc := st.me.pc, n := 8, vas := [j], new := some (16, 0, 0), join := true, sv := st.me.sv }
    if ¬ canonical j then st.raise causeNonCanonical j
    else if j % 16 ≠ 0 then st.raise causeAlignment j
    else st.whenFits m fun st => st.issueLoad [regS o.dst.toNat] (.jarr o.dst.toNat) m false false

/-! ### Hints -/

/-- A hint dropped for failing a check, counted in KHDROP.CHECK (R56, R57). -/
def State.dropCheck (st : State) : State :=
  st.setCore (coreOf st.cur) fun c => { c with khdrop := countField c.khdrop 63 32 }

/-- A hint dropped for lack of room, counted in KHDROP.ROOM (R56, R57). -/
def State.dropRoom (st : State) : State :=
  st.setCore (coreOf st.cur) fun c => { c with khdrop := countField c.khdrop 31 0 }

/-- A line of a hint that has passed its checks: its address in the mode of a global access, the physical address and the storage
address of its first byte, its class, whether it is reached through a PCIe-only port, and the window that holds it. -/
structure HintAt where
  va   : Nat
  phys : Nat
  a    : Nat
  cls  : Nat
  pcie : Bool
  win  : Option (Nat × Nat)
  deriving DecidableEq, Repr

/-- The checks of R18 for a hint, all of them made at issue, the range check of another package too (R56): a hint never parks. -/
def State.hintCheck (st : State) (va : Nat) (win : Option (Nat × Nat)) : Option HintAt × State :=
  match st.translate (sourceCore (coreOf st.cur)) st.me.lkey va .load st.me.sv none with
  | (.miss _, st) => (none, st)
  | (.ok e, st) =>
    let a := storageOf (e.phys va)
    if (e.check st.me.sv st.me.lkey .load).isSome ∨ st.rangeAdmits (pkgOf st.cur) (e.phys va) (Access.rangeBit .load) = false then (none, st)
    else (some { va := va, phys := e.phys va, a := a, cls := e.cls, pcie := st.viaPcie (e.phys va), win := win }, st)

/-- One line of a hint (R233): a line that fails a check is dropped and counted; one that no copy can be made of, or that
is an aperture address outside every window, does nothing. -/
def State.hintLine (st : State) (va : Nat) (body : State → HintAt → State) : State :=
  let act (st : State) (va : Nat) (win : Option (Nat × Nat)) : State :=
    match st.hintCheck va win with
    | (none, st) => st.dropCheck
    | (some h, st) => if h.cls = 2 ∨ h.cls = 5 then st else body st h
  if 2 ^ 56 ≤ va then st.dropCheck
  else if bits va 55 48 = 0xFF then
    match st.apertureAt st.cur va with
    | none => st.dropCheck
    | some x =>
      match (st.apertureWindows x 64).1 with
      | e :: _ => act st (e.2.base + (x.off - e.2.pool)) (some (x.bank, e.1))
      | [] => if (st.bank x.bank).spad < x.off + 64 ∨ (x.own = false ∧ (st.bank x.bank).inboxAt < x.off + 64) then st.dropCheck else st
  else act st va (((st.bank (bankOf st.cur)).windowOf va).map fun e => (bankOf st.cur, e.1))

/-- The number of lines of a hint and their addresses (R233). -/
def State.hintLines (st : State) (o : Ops) : List Nat :=
  let n := max 1 (min (st.s o.sc).toNat 65536)
  (List.range n).map fun k => st.formed o / 64 * 64 + 64 * k

/-- A line copied into the L1 region, or the invalid words of a window filled, by the translation just found (R233, R237). A line of
a window is filled, and counts as no lack of room, where the L1 region has no bytes: R56 would drop it there, and the pool that
holds the window has the room (log 124, DEDUCED). A RED line has no copy in L1 (log 28). -/
def State.prefetchL1 (st : State) (h : HintAt) : State :=
  match h.win with
  | some (bank, w) =>
    let st := st.setBank bank fun b => b.setWindow w fun x => x.retranslated [(h.va / 4096, h.phys - h.va % 4096)]
    match tget? (st.bank bank).windows w with
    | some x =>
      let ws := (List.range 8).map fun i => wordOf (st.windowPool bank x h.va) + i
      st.askFills st.cur 0 bank w (st.invalidWords bank w ws)
    | none => st
  | none =>
    if st.hasL1 (bankOf st.cur) = false then st.dropRoom
    else if h.cls = 4 then st
    else
      let ws := (rangeFrom (h.a / 8) 8).filter fun w => (st.localByte st.cur h.cls (w * 8)).isNone
      st.askReads st.cur 0 0 (ws.map fun w => (w, h.cls)) (if h.pcie then ws else []) []

/-- A line of another package copied into the die's peer store, or a line of host memory into its home slice (R91, R233); a home
slice holds the other lines of its own already. -/
def State.prefetchL2 (st : State) (h : HintAt) : State :=
  if h.cls = 4 then st
  else if isPeer (dieOf st.cur) h.a then
    let ws := (rangeFrom (h.a / 8) 8).filter fun w => (spanByte (st.die (dieOf st.cur)).peer (w * 8)).isNone
    st.askReads st.cur 0 1 (ws.map fun w => (w, h.cls)) (if h.pcie then ws else []) []
  else if isHost h.a && st.needsHost (h.a / 64) false h.pcie then st.askReads st.cur 0 1 [(h.a / 8, h.cls)] [] []
  else st

/-- PF (R233). -/
def execPf (o : Ops) (st : State) : Out :=
  st.scalar o.g { regs := addrRegs o ++ [regS o.sc.toNat] } fun st =>
    (st.each (st.hintLines o) fun st va =>
      st.hintLine va fun st h => if o.modBit 58 then st.prefetchL2 h else st.prefetchL1 h).finish

/-- The lines that a die's L2 may keep resident: 64 MiB (R58). -/
def residentLimit : Nat := 2 ^ 20

/-- The die whose L2 keeps a line resident for a strand (R58, R64). -/
def residentDie (k a : Nat) : Nat := if isPeer (dieOf k) a then dieOf k else homeOf a

/-- RES: a line is kept resident for this launch, beside the launches that hold it already, or the residency that this launch
holds ends (R58, R233). -/
def State.residency (st : State) (rel : Bool) (a : Nat) : State :=
  let d := residentDie st.cur a
  let line := a / 64
  let mine := st.me.lkey
  match tget? (st.die d).resident line with
  | some ls =>
    let ls := if rel then ls.filter (· != mine) else if ls.contains mine then ls else ls ++ [mine]
    st.setDie d fun x => { x with resident := if ls.isEmpty then terase x.resident line else tput x.resident line ls }
  | none =>
    if rel then st
    else if residentLimit ≤ (st.die d).resident.length then st.dropRoom
    else st.setDie d fun x => { x with resident := tput x.resident line [mine] }

/-- RES (R233). -/
def execRes (o : Ops) (st : State) : Out :=
  st.scalar o.g { regs := addrRegs o ++ [regS o.sc.toNat] } fun st =>
    (st.each (st.hintLines o) fun st va => st.hintLine va fun st h => st.residency (o.modBit 58) h.a).finish

/-! ### Committed stores to windows -/

/-- The strands of an agent other than the writer that have read some words: their chunks are squashed, and their watch
entries whose spans overlap the words are struck (R80, R104, R110). -/
def State.conflict (st : State) (k : Nat) (g : Agent) (ws : List Nat) : State :=
  let ks := (st.strandsOf g).filter (· != k)
  (st.strike ks ws).squashHit ks ws none

/-- Every copy of some words that an agent's cores hold beside the writer's own is given up at once: the agent serves its
cores in order (R71), and the clean spans of a die's peer store go too. The queued writes of the writer's own window keep their snapshots (R52). -/
def State.dropLocal (st : State) (g : Agent) (own spare : Option Nat) (ws : List Nat) : State :=
  let st := st.yieldWords g ws true spare
  let st := st.each (st.coresHolding g) fun st c =>
    let st := if own = some c then st else st.setCore c fun x => { x with l1 := x.l1.filter fun s => !s.overlaps ws }
    st.each [2 * c, 2 * c + 1] fun st b =>
      if (st.bank b).windows.isEmpty then st
      else st.setBank b fun x =>
        { x with windows := x.windows.map fun e =>
            if e.2.cls = 3 then
              (e.1, { e.2 with valid := e.2.valid.filter fun i => !ws.contains (e.2.phys (e.2.base + 8 * i) / 8) })
            else e }
  match g with
  | .peer d => st.setDie d fun x => { x with peer := x.peer.filter fun s => s.owned || !s.overlaps ws }
  | _ => st

/-- Words of a line come to be owned by an agent at a commit (R77). -/
def State.takeWords (st : State) (k line : Nat) (ws : List Nat) (g : Agent) : State :=
  (st.writeThrough line (indexes ws) 3 0 (some g) (some k)).setEntry line fun e => e.own (homeOf (line * 64)) g (indexes ws)

/-- Committed stores to words of a window: they become M (R50), and those of a SPAN window are owned (R53), whose words of memory
have then been written (R358). Words in a page whose translation has been dropped since hold no data of the new one and leave
(R237). -/
def State.applyWindow (st : State) (k bank w : Nat) (words : List Nat) : State :=
  match tget? (st.bank bank).windows w with
  | none => st
  | some x =>
    let index (p : Nat) : Nat := (poolOff (p * 8) - (st.bank bank).kbReg - x.pool) / 8
    let is := words.map index
    let phys := is.map fun i => x.phys (x.base + 8 * i) / 8
    let st := if x.cls = 3 then
        st.each (nubNat (phys.map lineOfWord)) fun st l =>
          let ws := phys.filter fun p => lineOfWord p == l
          let g := st.holderOf (4 * bank) (l * 64)
          ((st.takeWords k l ws g).dropLocal g none (some bank) ws).conflict k g ws
      else st
    let st := st.setBank bank fun b => b.setWindow w fun x => { x with valid := nubNat (is ++ x.valid), dirty := nubNat (is ++ x.dirty) }
    let old := is.filter fun i => x.stale.contains ((x.base + 8 * i) / 4096)
    let st := (st.queueWrites bank w old (4 * bank)).clearWords bank w old
    if x.cls = 3 then st.testWords phys else st

/-! ### Returns -/

/-- The bytes of an element of a completed operation, under the writes that it must see (R98). -/
def OutOp.bytes (o : OutOp) (locs : List Nat) : List Byte :=
  let t := overlay o.earlier o.buf
  locs.map fun a => tget 0 t a

/-- The number that an element of a completed operation holds. -/
def OutOp.value (o : OutOp) (i : Nat) : Nat := fromBytes (o.bytes (o.locs.getD i []))

/-- What the data of an operation write into a register file (R225, R263, R271, R297, R304). -/
def OutOp.writeTo (o : OutOp) (g : Regs) : Regs :=
  match o.fin with
  | .none => g
  | .scalar isF reg n sx =>
    let x : Word := BitVec.ofNat 64 (o.value 0)
    if isF then g.setF reg x
    else g.setS reg (if sx then ((BitVec.ofNat (8 * n) (o.value 0)).signExtend 64) else x)
  | .vector reg ty active =>
    ((List.range active.length).zip active).foldl (fun g e => g.setElem ty reg e.2 (o.value e.1)) g
  | .dist reg metric ty query active =>
    ((List.range active.length).zip active).foldl (fun g e =>
      let w := typeWidth ty / 8
      let bs := o.bytes (o.locs.getD e.1 [])
      let seg := (List.range query.length).map fun j => fromBytes ((bs.drop (j * w)).take w)
      g.setLane reg e.2 (BitVec.ofNat 32 (distance metric ty (g.getLane reg e.2).toNat query seg))) g
  | .amo reg _ _ _ _ _ => g.setS reg (BitVec.ofNat 64 (o.value 0))
  | .jarr reg => g.setS reg (BitVec.ofNat 64 (bits (o.value 0) 63 50))
  | .answer reg v => match v with
    | some x => g.setS reg x
    | none => g
  | .expert _ _ _ => g

/-- Whether an operation's data are complete and return by themselves: SUSP takes the join that it reads itself (R212). -/
def OutOp.complete (o : OutOp) : Bool :=
  match o.fin with
  | .answer _ v => v.isSome
  | .none => false
  | _ => o.need.isEmpty

/-- A word of a descriptor (R315). -/
def Expert.word (e : Expert) (i : Nat) : Nat := tget 0 e.words i

/-- An expert that is defined for a launch (R314). -/
def State.expertOf (st : State) (lkey name : Nat) : Option Expert :=
  match tget? st.experts name with
  | some e => if e.lkey = lkey then some e else none
  | none => none

/-- What EXRT returns when its request arrives at the serving directory: a word of the descriptor, 0 for a name not defined for the
launch (R338). -/
def State.descriptorWord (st : State) (lkey name i : Nat) : Word :=
  BitVec.ofNat 64 (((st.expertOf lkey name).map fun e => e.word i).getD 0)

/-- LOAD_DATA_RETURN: the data are written, into the registers and into the checkpoints of later chunks, and the count
falls in issue order (R177, R178); words read by a last-use load are then dead (R231). The request of an EXRT first arrives at the
serving directory, which gives the word as it then stands (R338). -/
def execLoadDataReturn (k seq : Nat) (st : State) : Out :=
  if strandLimit ≤ k then .fault .noSuchStrand
  else
    match (st.strand k).ops.find? fun o => o.counter == .ld && o.seq == seq && !o.done && o.complete with
    | none => .next st
    | some o =>
      match o.fin with
      | .expert reg name i =>
        let v := st.descriptorWord (st.strand k).lkey name i
        .next ((st.setOp k seq fun o => { o with fin := .answer reg (some v) }).owe (.loadDataReturn k seq))
      | _ =>
      let st := st.setStrand k fun t =>
        { t with
          regs := o.writeTo t.regs
          chunks := t.chunks.map fun c => if o.chunk < c.id then { c with regs := o.writeTo c.regs } else c }
      let st := st.setStrand k fun t => t.complete .ld seq
      .next (st.markDead k o.mark o.drop)

/-- STORE_ACKNOWLEDGEMENT: an operation on st completes, and the count falls in issue order (R177, R178). -/
def execStoreAcknowledgement (k seq : Nat) (st : State) : Out :=
  if strandLimit ≤ k then .fault .noSuchStrand
  else .next ((st.setStrand k fun t => t.complete .st seq).wakeFence k)

end Sys2Proof.Machine
end

