-- ==== Sys2Proof/Machine/Tile.lean ====
section
/-!
DEFINITION. The matrix array of a cluster: leases (R277, R278, R359), operand slots and accumulators (R273 to R276, R280),
the tile dependency table (R279), the tile commands (R281 to R284), and the subnormal assist (R249, R366).
-/

namespace Sys2Proof.Machine

/-! ### Leases -/

/-- The effective priority of a lease request (R359). -/
def LeaseReq.effective (r : LeaseReq) (now : Nat) : Nat := min 7 (r.pri + (now - r.since) / 8192)

/-- How far a strand lies behind the last holder in the round-robin of R277; `last` is that holder's number in the cluster
plus one. -/
def behindLast (last k : Nat) : Nat := (k % 128 + 128 - last) % 128

/-- Whether a lease request comes before another by the grant rule (R277, R359). -/
def LeaseReq.beats (now last : Nat) (a b : LeaseReq) : Bool :=
  b.effective now < a.effective now ||
    (a.effective now == b.effective now && behindLast last a.strand < behindLast last b.strand)

/-- The requests of an array that the grant rule may choose: those of strands that pre-emption has not frozen, whose requests stay
pending (R277, R278). -/
def State.openRequests (st : State) (cluster : Nat) : List LeaseReq :=
  (st.cluster cluster).requests.filter fun r => !(st.bank (bankOf r.strand)).frozen

/-- The request that the grant rule chooses. -/
def State.nextLease (st : State) (cluster : Nat) : Option LeaseReq :=
  (st.openRequests cluster).foldl (fun best r =>
    match best with
    | none => some r
    | some b => if r.beats st.time (st.cluster cluster).lastHolder b then some r else some b) none

/-- LEASE_GRANT: an array without a holder is leased by the grant rule; a term begins, and the count of the granted request starts
again (R277, R359; log 53). -/
def State.grantLease (st : State) (cluster : Nat) : State :=
  if (st.cluster cluster).holder.isSome then st
  else
    match st.nextLease cluster with
    | none => st
    | some r => st.setCluster cluster fun c =>
      { c with
        holder := some r.strand, term := 0, termFrom := st.time
        requests := c.requests.map fun x => if x.strand = r.strand then { x with since := st.time } else x }

/-- LEASE_GRANT of a cluster (R277). -/
def execLeaseGrant (cluster : Nat) (st : State) : Out :=
  if strandLimit ≤ 128 * cluster then .fault .noSuchAgent else .next (st.grantLease cluster)

/-- A term that is over, after 64 commands or 8,192 cycles: the lease passes by the grant rule if another request is pending, the
former holder keeping a pending request at its old priority, whose count runs from its grant (R359); else a new term begins (R277). -/
def State.endTerm (st : State) (cluster : Nat) : State :=
  let c := st.cluster cluster
  match c.holder with
  | none => st
  | some k =>
    if c.term < 64 ∧ st.time < c.termFrom + 8192 then st
    else if (st.openRequests cluster).any fun r => r.strand != k then
      (st.setCluster cluster fun c => { c with holder := none, lastHolder := k % 128 + 1 }).grantLease cluster
    else st.setCluster cluster fun c => { c with term := 0, termFrom := st.time }

/-- LEASE_TERM_EXPIRY (R277). -/
def execLeaseTermExpiry (cluster : Nat) (st : State) : Out :=
  if strandLimit ≤ 128 * cluster then .fault .noSuchAgent else .next (st.endTerm cluster)

/-- LEASE: the holder goes on; another strand enters a request, which a squash does not undo, and stalls until it is
granted (R278). -/
def execLease (o : Ops) (st : State) : Out :=
  st.scalar o.g {} fun st =>
    let c := st.cluster (clusterOf st.cur)
    if c.holder = some st.cur then st.finish
    else if c.requests.any fun r => r.strand == st.cur then st
    else
      (st.setCluster (clusterOf st.cur) fun c =>
        { c with requests := c.requests ++ [⟨st.cur, o.immBits 2 0, st.time⟩] }).owe (.leaseGrant (clusterOf st.cur))

/-- UNLEASE (R278). -/
def execUnlease (o : Ops) (st : State) : Out :=
  st.scalar o.g {} fun st => (st.releaseLease st.cur).finish

/-! ### Slots -/

/-- SLOT.REL at apply: each slot becomes Releasing (R275, R280). -/
def State.releaseSlots (st : State) (k first count : Nat) : State :=
  st.setCluster (clusterOf k) fun c =>
    ((rangeFrom (physSlot k first) count).foldl (fun c n =>
      c.setSlot n fun s => { s with releasing := true, relPins := c.namers n }) c).settleSlots

/-- The first slot of a range that the launch has not been allotted (R176). -/
def State.lackSlots (st : State) (first count : Nat) : Option Nat :=
  if st.slotAllot st.cur < first + count then some (max first (st.slotAllot st.cur)) else none

/-- SLOT.CLM: all slots of the range are claimed for the core, or none (R280). A Releasing slot refuses a claim (R275). -/
def execSlotClm (o : Ops) (st : State) : Out :=
  let first := o.immBits 6 0
  let count := o.immBits 15 8
  st.scalar o.g { regs := [regP o.dst.toNat], lack := st.lackSlots first count } fun st =>
    let c := st.cluster (clusterOf st.cur)
    let ns := rangeFrom (physSlot st.cur first) count
    let me := some (coreOf st.cur)
    if ns.all fun n => !(c.slot n).releasing && ((c.slot n).owner.isNone || (c.slot n).owner == me) then
      ((st.setCluster (clusterOf st.cur) fun c => ns.foldl (fun c n => c.setSlot n fun s => { s with owner := me }) c).writeP
        o.dst (BitVec.allOnes 32)).finish
    else (st.writeP o.dst 0).finish

/-- SLOT.REL: every slot must be held by the core; the release takes place at apply (R280). -/
def execSlotRel (o : Ops) (st : State) : Out :=
  let first := o.immBits 6 0
  let count := o.immBits 15 8
  st.scalar o.g { lack := st.lackSlots first count } fun st =>
    let c := st.cluster (clusterOf st.cur)
    match (rangeFrom first count).find? fun n => (c.slot (physSlot st.cur n)).owner != some (coreOf st.cur) with
    | some n => st.raise causeSlot n
    | none => (st.hold (.slotRel first count)).finish

/-! ### Issue of tile commands -/

/-- The first accumulator of some that the launch has not been allotted (R176). -/
def State.lackAccs (st : State) (as : List Nat) : Option Nat := as.find? fun a => st.accAllot st.cur ≤ a

/-- Whether the acting strand may hand tile commands to the array (R277): it traps without lease or request, and stalls
while its request is pending. A term that is over ends before the array accepts another command. -/
def State.leased (st : State) (body : State → State) : State :=
  let st := st.endTerm (clusterOf st.cur)
  let c := st.cluster (clusterOf st.cur)
  if c.holder = some st.cur then body st
  else if c.requests.any fun r => r.strand == st.cur then st
  else st.raise causeNoLease st.me.pc.toNat

/-- A tile command reserves its entry and is held until its chunk's apply, which it ends (R279). -/
def State.issueTask (st : State) (kind : TaskKind) (acc : Nat) (set : Bool) (scales : Word) : State :=
  let cl := clusterOf st.cur
  if st.counterFull .tl ∨ 32 ≤ (st.cluster cl).tasks.length then st
  else
    let (id, st) := st.fresh
    let t : Task :=
      { id := id, strand := st.cur, seq := st.me.issued, chunk := st.chunk.id, lkey := st.me.lkey, kind := kind, acc := acc,
        set := set, scales := scales, sv := st.me.sv }
    let st := st.setCluster cl fun c => { c with tasks := c.tasks ++ [t], term := c.term + 1 }
    let st := if (st.cluster cl).term = 64 then st.owe (.leaseTermExpiry cl) else st
    ((st.issueOp [] { counter := .tl, chunk := st.chunk.id }).hold (.task id)).finish.endChunk

/-- The common form of the MMA instructions (R281, R282): types, slots and their LAST bits. -/
def State.mmaForm (st : State) (o : Ops) (ta tb : Nat) (scaled : Bool) : Out :=
  let a := o.immBits 6 0
  let b := o.immBits 14 8
  let slots := if ta = 14 ∧ tb = 12 then [a, b, b + 1] else [a, b]
  let accs := if ta = 11 then [o.dst.toNat, o.dst.toNat + 1] else [o.dst.toNat]
  let lack := (st.lackAccs accs).orElse fun _ => slots.find? fun n => st.slotAllot st.cur ≤ n
  st.scalar o.g { regs := if scaled then [regF o.sc.toNat] else [], lack := lack } fun st =>
    st.leased fun st =>
      let c := st.cluster (clusterOf st.cur)
      match slots.find? fun n => (c.slot (physSlot st.cur n)).owner.isNone || (c.slot (physSlot st.cur n)).releasing with
      | some n => st.raise causeSlot n
      | none =>
        st.issueTask (.mma ta tb (physSlot st.cur a) (physSlot st.cur b) (o.modBit 58) (o.modBit 57))
          (physAcc st.cur o.dst.toNat) (o.modBit 59) (if scaled then st.f o.sc else 0)

/-- MMA.DD (R281). -/
def execMmaDd (o : Ops) (st : State) : Out := st.mmaForm o 11 11 false

/-- MMA.SS (R281). -/
def execMmaSs (o : Ops) (st : State) : Out := st.mmaForm o 10 10 false

/-- MMA.BB (R281). -/
def execMmaBb (o : Ops) (st : State) : Out := st.mmaForm o 9 9 true

/-- MMA.HH (R281). -/
def execMmaHh (o : Ops) (st : State) : Out := st.mmaForm o 8 8 true

/-- MMA.EE (R281). -/
def execMmaEe (o : Ops) (st : State) : Out := st.mmaForm o 12 12 true

/-- MMA.EF (R281). -/
def execMmaEf (o : Ops) (st : State) : Out := st.mmaForm o 12 13 true

/-- MMA.FF (R281). -/
def execMmaFf (o : Ops) (st : State) : Out := st.mmaForm o 13 13 true

/-- MMA.QQ (R281). -/
def execMmaQq (o : Ops) (st : State) : Out := st.mmaForm o 14 14 true

/-- MMA.QE: B lies in two slots (R281). -/
def execMmaQe (o : Ops) (st : State) : Out := st.mmaForm o 14 12 true

/-- MMA.II (R281). -/
def execMmaIi (o : Ops) (st : State) : Out := st.mmaForm o 0 0 false

/-- The bytes of an MMV weight row: K elements, and for q4 the scale bytes after the codes (R283). -/
def mmvRowBytes (ty k : Nat) : Nat := if ty = 14 then k / 2 + k / 32 else k * typeWidth ty / 8

/-- The outcome of checking the pages of MMV's rows. -/
inductive RowCheck where
  | ok (rows : List (List Nat))
  | trap (cause addr : Nat)
  | park (va : Nat)
  deriving DecidableEq, Repr

/-- The storage addresses of an engine's bytes in one range, with the checks of R18 for every page of it. `tag` is the number of
the access. -/
def State.engineRange (st : State) (cluster lkey : Nat) (sv : Bool) (va n : Nat) (acc : Access) (tag : Nat) : RowCheck × State :=
  let source := sourceCluster cluster
  (segments va n).foldl (fun (r : RowCheck × State) s =>
    match r.1 with
    | .ok rows =>
      match r.2.translate source lkey s.1 acc sv (some tag) with
      | (.miss m, st) => (.park s.1, st.park source lkey s.1 acc m tag)
      | (.ok e, st) =>
        match e.check sv lkey acc with
        | some c => (.trap c s.1, st)
        | none => (.ok (rows ++ [(rangeFrom s.1 s.2).map fun a => storageOf (e.phys a)]), st)
    | _ => r) (.ok [], st)

/-- The checks of MMV's 64 weight rows in order, from a row on (R283). An aperture address is no weight memory: it traps
with pool bounds (log 32). -/
def State.mmvRows (st : State) (cluster lkey : Nat) (sv : Bool) (base stride len first tag : Nat) : RowCheck × State :=
  (rangeFrom first (64 - first)).foldl (fun (r : RowCheck × State) n =>
    match r.1 with
    | .ok rows =>
      let va := base + n * stride
      if 2 ^ 56 < va + len then (.trap causeNonCanonical va, r.2)
      else if bits (va + len - 1) 55 48 = 0xFF then (.trap causeBounds va, r.2)
      else
        match r.2.engineRange cluster lkey sv va len .engineRead tag with
        | (.ok segs, st) => (.ok (rows ++ [segs.flatten]), st)
        | (x, st) => (x, st)
    | _ => r) (.ok [], st)

/-- MMV: the pages of the 64 rows are checked at issue as engine reads, and a missing translation makes it wait there; a
base or stride that is no multiple of 64 traps with alignment, a stride below the row's length with operand range
(R283, log 32). -/
def execMmv (o : Ops) (st : State) : Out :=
  let ty := o.vType
  let k := 64 * (o.immBits 10 8 + 1)
  let x := o.immBits 4 0
  let sw := if ty = 10 then [] else [regF o.sc.toNat]
  st.scalar o.g { regs := [regS o.sa.toNat, regS o.sb.toNat] ++ sw, lack := st.lackAccs [o.dst.toNat, x] } fun st =>
    st.leased fun st =>
      let base := (st.s o.sa).toNat
      let stride := (st.s o.sb).toNat
      if base % 64 ≠ 0 ∨ stride % 64 ≠ 0 then st.raise causeAlignment base
      else if stride < mmvRowBytes ty k then st.raise causeOperand base
      else
        match st.mmvRows (clusterOf st.cur) st.me.lkey st.me.sv base stride (mmvRowBytes ty k) 0
            st.issueTag with
        | (.trap c a, st) => st.raise c a
        | (.park _, st) => st
        | (.ok rows, st) =>
          let st := st.taken (sourceCluster (clusterOf st.cur)) st.issueTag
          let scale : Word := if ty = 10 then 0x3F800000 else st.f o.sc
          st.issueTask (.mmv ty (o.modBits 54 52 + 1) k (physAcc st.cur x) rows base stride) (physAcc st.cur o.dst.toNat) (o.modBit 55) scale

/-- ACC.ZERO (R284). -/
def execAccZero (o : Ops) (st : State) : Out :=
  let a := o.dst.toNat
  let n := o.immBits 5 0
  st.scalar o.g { lack := st.lackAccs (rangeFrom a n) } fun st =>
    st.leased fun st => st.issueTask (.zero n) (physAcc st.cur a) true 0

/-- The place of ACC.RD's destination: an aligned aperture range within a scratchpad and outside every window, else the
trap (R284). -/
def State.rdPlace (st : State) (d n : Nat) : Res :=
  if d % 64 ≠ 0 ∨ bits d 63 48 ≠ 0xFF then .trap causeBounds d
  else
    match st.resolveAperture { k := st.cur, id := st.chunk.id, sv := st.me.sv, tag := 0 } 0 d n .amo (fun _ => []) with
    | (.ok s, _) => .ok s
    | (.trap c a, _) => .trap (if c = causeWindow then causeWindow else causeBounds) a
    | (.miss p, _) => .miss p

/-- ACC.RD (R284). -/
def execAccRd (o : Ops) (st : State) : Out :=
  let count := o.immBits 13 8 + 1
  st.scalar o.g { regs := [regS o.sa.toNat], lack := st.lackAccs [o.dst.toNat] } fun st =>
    st.leased fun st =>
      match st.rdPlace (st.s o.sa).toNat (256 * count) with
      | .trap c a => st.raise c a
      | .miss _ => st
      | .ok s =>
        st.issueTask (.rd ((s.locs.headD (0, 0)).1) (o.immBits 5 0) count (o.modBit 59)) (physAcc st.cur o.dst.toNat) false 0

/-! ### Execution -/

/-- The place of a tile command in entry order is taken at its chunk's apply (R279). -/
def State.applyTask (st : State) (cluster id : Nat) : State :=
  let (n, st) := st.fresh
  (st.setCluster cluster fun c =>
    { c with tasks := (c.tasks.filter fun t => t.id != id) ++
        (c.tasks.filter fun t => t.id == id).map fun t => { t with applied := true, order := n } }).owe (.tileTaskIssue cluster)

/-- Whether an accumulator may be written by a task (R276). -/
def Acc.free (a : Acc) (overwrites : Bool) : Bool :=
  (a.st == .ready || (overwrites && a.st == .drained)) && a.reads == 0

/-- The slots that a task empties as it ends: those with LAST; LASTB of a QE task empties both slots of B (R275, R282). -/
def Task.lastSlots (t : Task) : List Nat :=
  match t.kind with
  | .mma ta tb sa sb la lb => (if la then [sa] else []) ++ (if lb then (if ta = 14 ∧ tb = 12 then [sb, sb + 1] else [sb]) else [])
  | _ => []

/-- Whether a task is ready (R276, R279): its slots Full, its accumulators in the state it needs, no earlier task that
waits names one of its slots or accumulators, and no copy read that was applied earlier is still to come. A slot that a task
awaiting its assist is still to empty counts as one not yet Full again, so that the assist costs time only (R249, R366;
DEDUCED, log 120). -/
def Cluster.taskReady (c : Cluster) (t : Task) : Bool :=
  let writesOver := match t.kind with
    | .zero _ => true
    | .rd _ _ _ _ => false
    | _ => t.set
  let before := c.tasks.filter fun u => u.applied && !u.started && u.order < t.order
  t.slots.all (fun n => (c.slot n).full && !(c.slot n).filling) && t.writes.all (fun a => (c.acc a).free writesOver) &&
    (match t.kind with
      | .mmv _ _ _ x _ _ _ => (c.acc x).st == .ready
      | .rd _ _ _ _ => (c.acc t.acc).st == .ready
      | _ => true) &&
    !(before.any fun u => u.slots.any t.slots.contains || u.accs.any t.accs.contains) &&
    !(c.tasks.any fun u => u.started && u.lastSlots.any t.slots.contains) &&
    !(c.copies.any fun m => m.applied && !m.started && m.order < t.order && m.accs.any t.writes.contains)

/-- Bytes written to pool bytes by an engine: one chunk holding one store, whose write signature reaches the cluster's
strands (R102, R114). -/
def State.poolWrite (st : State) (cells : Tab Byte) : State :=
  let st := { st with mem := st.mem.writeCells cells }
  let clusters := nubNat (cells.map fun c => poolCore c.1 / 16)
  st.squashHit (st.strandsOn fun k => clusters.contains (clusterOf k)) (nubNat (cells.map fun c => wordOf c.1)) none

/-- Whether a chunk that gains has locked one of some pool bytes: an engine's write of them waits (R102). -/
def State.poolLocked (st : State) (cells : Tab Byte) : Bool :=
  cells.any fun c => (st.core (poolCore c.1)).poolLocks.any fun x => x.1 == wordOf c.1

/-- A task that has finished: its accumulators are Ready, ACC.RD leaves its own Drained or Ready, LAST empties its slots, its
entry is freed, tl falls, and what may follow is owed (R275, R276, R279). -/
def State.endTask (st : State) (cluster : Nat) (t : Task) : State :=
  let st := st.setCluster cluster fun c =>
    let c := t.writes.foldl (fun c a => c.setAcc a fun x => { x with st := .ready }) c
    let c := match t.kind with
      | .rd _ _ _ last => c.readEnd [t.acc] last
      | _ => c
    let c := t.lastSlots.foldl (fun c n => c.setSlot n fun s => { s with full := false }) c
    let c := { c with tasks := c.tasks.filter fun u => u.id != t.id, assists := c.assists.filter fun i => i != t.id }
    c.settleSlots
  (st.setStrand t.strand fun s => s.complete .tl t.seq).oweAll [.tileTaskIssue cluster, .copyCommandStart cluster]

/-- A suspended MMV translates its remaining rows afresh as it is issued again: a missing translation parks it, and any other
failure kills its launch (R283); one of which a kill has discarded a parked access ends (R28). Another task is ready as it
stands. -/
def State.mmvAgain (st : State) (cluster : Nat) (t : Task) : Option Task × State :=
  match t.kind with
  | .mmv ty v k x [] base stride =>
    if st.isCut t.lkey t.id then (none, st.endTask cluster t)
    else
      match st.mmvRows cluster t.lkey t.sv base stride (mmvRowBytes ty k) t.cursor t.id with
      | (.ok rows, st) => (some { t with kind := .mmv ty v k x rows base stride }, st.taken (sourceCluster cluster) t.id)
      | (.park _, st) => (none, st.owe (.tileTaskIssue cluster))
      | (.trap _ _, st) => (none, (st.kill t.lkey).endTask cluster t)
  | _ => (some t, st)

/-- The lease of a displaced strand ends once no tile of a displaced launch executes on the array: its request goes, and the
array may be leased anew (R277, R293, R367). -/
def State.endDisplacedLease (st : State) (cluster : Nat) : State :=
  let c := st.cluster cluster
  let busy := c.tasks.any fun t => t.started && !c.assists.contains t.id && c.frozen.any fun f => f.lkey == t.lkey
  match c.holder with
  | none => st
  | some k =>
    if (st.bank (bankOf k)).frozen = false ∨ busy = true then st
    else
      (st.setCluster cluster fun c =>
        { c with requests := c.requests.filter fun r => r.strand != k, holder := none, lastHolder := k % 128 + 1 }).owe
        (.leaseGrant cluster)

/-- TILE_TASK_ISSUE: an idle array issues the earliest ready task in entry order (R279); what it writes becomes Busy, and
ACC.RD raises the read count (R276). A task that waits for its assist no longer occupies the array: it holds its accumulator alone
(R249). The lease of a displaced strand ends with the tile that was executing (R367). -/
def execTileTaskIssue (cluster : Nat) (st : State) : Out :=
  if strandLimit ≤ 128 * cluster then .fault .noSuchAgent
  else
    let st := st.endDisplacedLease cluster
    let c := st.cluster cluster
    if c.tasks.any fun t => t.started && !c.assists.contains t.id then .next st
    else
      match c.tasks.find? fun t => t.applied && c.taskReady t with
      | none => .next st
      | some t =>
        match st.mmvAgain cluster t with
        | (none, st) => .next st
        | (some t, st) =>
        let st := st.setCluster cluster fun c =>
          let c := t.writes.foldl (fun c a => c.setAcc a fun x => { x with st := .busy }) c
          { c with tasks := c.tasks.map fun u => if u.id = t.id then { t with started := true } else u }
        match t.kind with
        | .rd _ _ _ _ =>
          .next ((st.setCluster cluster fun c => c.setAcc t.acc fun x => { x with reads := x.reads + 1 }).owe
            (.accumulatorLastElementRead cluster t.id))
        | _ => .next (st.owe (.tileTaskComplete cluster))

/-- The number of an array operand's code: a subnormal bf16 is zero with its sign (R248). -/
def arrayNum (ty code : Nat) : Num := (fmtOf ty).value (if ty = 9 then flushBf16 code else code)

/-- Element `k` of a row of bytes: a q4 element lies in the nibble of R242. -/
def rowCode (ty : Nat) (bs : List Byte) (k : Nat) : Nat :=
  let w := typeWidth ty
  if w < 8 then (if k % 2 = 0 then bits (bs.getD (k / 2) 0).toNat 3 0 else bits (bs.getD (k / 2) 0).toNat 7 4)
  else fromBytes ((bs.drop (k * (w / 8))).take (w / 8))

/-- The numbers of a row of `n` elements with its scale bytes (R242, R273). -/
def rowNums (ty n : Nat) (bs scales : List Byte) : List Num :=
  (List.range n).map fun k =>
    if ty = 14 then q4Value (scales.getD (k / 32) 0).toNat (rowCode ty bs k) else arrayNum ty (rowCode ty bs k)

/-- The bytes of row `m` of a slot (R273). -/
def State.slotRow (st : State) (cluster slot m : Nat) : List Byte := st.mem.readBytes (slotKey cluster slot (512 * m)) 512

/-- The scale bytes of row `m` of a slot (R273). -/
def State.slotScales (st : State) (cluster slot m : Nat) : List Byte :=
  st.mem.readBytes (slotKey cluster slot (2 ^ 15 + 32 * m)) 32

/-- The elements of a row of a slot in a type (R273). -/
def rowLength (ty : Nat) : Nat := 4096 / typeWidth ty

/-- Element (m, n) of an accumulator, or of an FP64 pair (R274). -/
def State.accElem (st : State) (cluster acc m n : Nat) (wide : Bool) : Nat :=
  if wide then st.mem.readNat (accKey cluster acc (8 * (64 * m + n))) 8 else st.mem.readNat (accKey cluster acc (4 * (64 * m + n))) 4

/-- Element (m, n) of an accumulator written. -/
def State.setAccElem (st : State) (cluster acc m n : Nat) (wide : Bool) (x : Nat) : State :=
  let a := if wide then accKey cluster acc (8 * (64 * m + n)) else accKey cluster acc (4 * (64 * m + n))
  { st with mem := st.mem.writeBytes a (toBytes (if wide then 8 else 4) x) }

/-- Rows and columns of a tile in ascending order. -/
def tilePairs (rows cols : Nat) : List (Nat × Nat) := (List.range rows).flatMap fun m => (List.range cols).map fun n => (m, n)

/-- The result of an MMA (R250, R252, R282), element by element: the products of one cycle are summed exactly and added with one
rounding, and subnormal bf16 inputs count as zero. -/
def State.mmaResult (st : State) (cluster : Nat) (t : Task) (ta tb sa sb : Nat) : List (Nat × Nat × Nat) :=
  let wide := ta = 11
  let k := rowLength ta
  let bRow (n : Nat) : List Byte := if ta = 14 ∧ tb = 12 then st.slotRow cluster sb n ++ st.slotRow cluster (sb + 1) n else st.slotRow cluster sb n
  if ta = 0 then
    (tilePairs 64 64).map fun e =>
      let a := st.slotRow cluster sa e.1
      let b := bRow e.2
      let c : Int := if t.set then 0 else intOf 2 (st.accElem cluster t.acc e.1 e.2 false)
      let s := (List.range k).foldl (fun (s : Int) i => s + intOf 0 (rowCode 0 a i) * intOf 0 (rowCode 0 b i)) c
      (e.1, e.2, lowBits 32 s)
  else
    let scale := if ta = 10 ∨ ta = 11 then Num.fin ⟨false, 1, 0⟩
      else mulNum ((fmtOf 10).value (t.scales.toNat % 2 ^ 32)) ((fmtOf 10).value (t.scales.toNat / 2 ^ 32))
    let as := (List.range 64).map fun m => rowNums ta k (st.slotRow cluster sa m) (st.slotScales cluster sa m)
    let bs := (List.range 64).map fun n => rowNums tb k (bRow n) (st.slotScales cluster sb n)
    let f := fmtOf (if wide then 11 else 10)
    (tilePairs 64 64).map fun e =>
      let c := if t.set then 0 else st.accElem cluster t.acc e.1 e.2 wide
      let products := ((as.getD e.1 []).zip (bs.getD e.2 [])).map fun p => mulNum (mulNum p.1 p.2) scale
      (e.1, e.2, accumulate f (cyclesP ta) c products)

/-- The result of MMV for the bytes of one weight row and every vector (R283). -/
def State.mmvRow (st : State) (cluster : Nat) (t : Task) (ty v k x n : Nat) (bs : List Byte) : List (Nat × Nat × Nat) :=
  let ws := if ty = 14 then rowNums 14 k (bs.take (k / 2)) (bs.drop (k / 2)) else rowNums ty k bs []
  let sw := (fmtOf 10).value (t.scales.toNat % 2 ^ 32)
  (List.range v).map fun i =>
    let c := if t.set then 0 else st.accElem cluster t.acc i n false
    let xs := (List.range k).map fun j => (fmtOf 10).value (st.accElem cluster x (8 * i + j / 64) (j % 64) false)
    let products := (ws.zip xs).map fun p => mulNum (mulNum p.1 sw) p.2
    (i, n, accumulate (fmtOf 10) 64 c products)

/-- A task saved with a displaced context takes its place in the order of entry (R293). -/
def Frozen.save (f : Frozen) (t : Task) : Frozen :=
  { f with tasks := f.tasks.takeWhile (fun u => u.order < t.order) ++ t :: f.tasks.dropWhile (fun u => u.order < t.order) }

/-- A task whose elements are marked waits for its assist (R249); that of a launch which pre-emption has displaced meanwhile
is saved with its marks (R249, R293). -/
def State.awaitAssist (st : State) (cluster : Nat) (t : Task) : State :=
  if (st.cluster cluster).frozen.any fun f => f.lkey == t.lkey then
    (st.setCluster cluster fun c =>
      { c with
        tasks := c.tasks.filter fun u => u.id != t.id
        frozen := updateFirst (fun f => f.lkey == t.lkey) (fun f => f.save t) c.frozen }).owe
      (.tileTaskIssue cluster)
  else
    (st.setCluster cluster fun c =>
      { c with
        tasks := c.tasks.map fun u => if u.id = t.id then t else u
        assists := c.assists ++ [t.id] }).oweAll [.subnormalAssist cluster, .tileTaskIssue cluster]

/-- The results of a tile task are in the accumulator: it ends, or waits for the assist of its marked elements (R249). An element is
marked by the command's final result alone, not by what it held after an intermediate cycle of R250 (log 139, DEDUCED). -/
def State.putResults (st : State) (cluster : Nat) (t : Task) (wide isInt : Bool) (xs : List (Nat × Nat × Nat)) : State :=
  let st := st.each xs fun st x => st.setAccElem cluster t.acc x.1 x.2.1 wide x.2.2
  let marks := if isInt then [] else
    (xs.filter fun x => isSubnormal (fmtOf (if wide then 11 else 10)) x.2.2).map fun x => 64 * x.1 + x.2.1
  if marks.isEmpty then st.endTask cluster t else st.awaitAssist cluster { t with marked := marks }

/-- The bytes at the front of a row's storage addresses that lie in one atomic piece of memory: their address and number (R125,
R126). -/
def rowPiece (row : List Nat) : Nat × Nat :=
  match row with
  | [] => (0, 0)
  | a :: _ =>
    let n := (row.takeWhile fun b => a ≤ b && b / pieceSize a == a / pieceSize a).length
    (a, n)

/-- A task as a suspension saves it: an MMV gives up its translations, which its remaining rows make afresh (R283). -/
def Task.suspended (t : Task) : Task :=
  match t.kind with
  | .mmv ty v k x _ base stride => { t with started := false, kind := .mmv ty v k x [] base stride }
  | _ => t

/-- An MMV of a displaced launch is suspended after the weight row in progress and saved with its cursor (R283, R293). -/
def State.suspendMmv (st : State) (cluster : Nat) (t : Task) : State :=
  (st.setCluster cluster fun c =>
    { c with
      tasks := c.tasks.filter fun u => u.id != t.id
      frozen := updateFirst (fun f => f.lkey == t.lkey) (fun f => f.save t.suspended) c.frozen }).owe
    (.tileTaskIssue cluster)

/-- MMV reads its weights row by row as engine reads, each in its atomic pieces in ascending order; a piece whose words wait
is tried again. A row that is complete is applied to every vector (R114, R126, R283). Memory whose link has gone down kills the launch,
as another failure of its checks does (R283, R375; log 128, DEDUCED). -/
def State.mmvStep (st : State) (cluster : Nat) (t : Task) (ty v k x : Nat) (rows : List (List Nat)) (base stride : Nat) :
    State :=
  let put (st : State) (u : Task) : State :=
    st.setCluster cluster fun c => { c with tasks := c.tasks.map fun y => if y.id = t.id then u else y }
  match rows with
  | [] => st.endTask cluster t
  | row :: rest =>
    if t.data.length < row.length then
      let (a, n) := rowPiece (row.drop t.data.length)
      if st.regionAt a = .reserved then (st.kill t.lkey).endTask cluster t
      else
      match st.engineRead a n false [t.id] with
      | some (bs, st) => (put st { t with data := t.data ++ bs }).owe (.tileTaskComplete cluster)
      | none => (st.snoopFor a n false false [t.id]).owe (.tileTaskComplete cluster)
    else
      let xs := st.mmvRow cluster t ty v k x t.cursor t.data
      let st := st.each xs fun st e => st.setAccElem cluster t.acc e.1 e.2.1 false e.2.2
      let marks := (xs.filter fun e => isSubnormal (fmtOf 10) e.2.2).map fun e => 64 * e.1 + e.2.1
      let u := { t with cursor := t.cursor + 1, marked := t.marked ++ marks, kind := .mmv ty v k x rest base stride, data := [] }
      if rest.isEmpty then if u.marked.isEmpty then (put st u).endTask cluster u else st.awaitAssist cluster u
      else if (st.cluster cluster).frozen.any fun f => f.lkey == t.lkey then st.suspendMmv cluster u
      else (put st u).owe (.tileTaskComplete cluster)

/-- ACC.RD writes the raw bytes of its rows as engine writes of 64 bytes, one after another, and completes once they have committed
(R114, R284). The writes carry no order among themselves; they are made in ascending order (log 114, DESIGN CHOICE). -/
def State.rdStep (st : State) (cluster : Nat) (t : Task) (dest first count : Nat) : State :=
  if 4 * count ≤ t.cursor then st.endTask cluster t
  else
    let bs := st.mem.readBytes (accKey cluster t.acc (256 * first + 64 * t.cursor)) 64
    let cells := cellsAt (dest + 64 * t.cursor) bs
    if st.poolLocked cells then st.owe (.tileTaskComplete cluster)
    else
      ((st.poolWrite cells).setCluster cluster fun c =>
        { c with tasks := c.tasks.map fun y => if y.id = t.id then { t with cursor := t.cursor + 1 } else y }).owe
        (.tileTaskComplete cluster)

/-- TILE_TASK_COMPLETE: the executing task's results are written, its entry is freed and tl falls; subnormal results wait
for the assist (R249, R279). -/
def execTileTaskComplete (cluster : Nat) (st : State) : Out :=
  if strandLimit ≤ 128 * cluster then .fault .noSuchAgent
  else
    let c := st.cluster cluster
    match c.tasks.find? fun t => t.started && !c.assists.contains t.id with
    | none => .next st
    | some t =>
      match t.kind with
      | .mma ta tb sa sb _ _ => .next (st.putResults cluster t (ta == 11) (ta == 0) (st.mmaResult cluster t ta tb sa sb))
      | .mmv ty v k x rows base stride => .next (st.mmvStep cluster t ty v k x rows base stride)
      | .zero n =>
        .next (({ st with mem := (List.range (16384 * n)).foldl (fun m i => m.write (accKey cluster t.acc 0 + i) 0) st.mem }).endTask
          cluster t)
      | .rd dest first count _ => .next (if t.isRead then st.rdStep cluster t dest first count else st)

/-- Whether a task is a copy read of its accumulator. -/
def Task.isRd (t : Task) : Bool :=
  match t.kind with
  | .rd _ _ _ _ => true
  | _ => false

/-- The cores of a cluster that hold members of a launch, in ascending order. -/
def State.memberCores (st : State) (cluster lkey : Nat) : List Nat :=
  match st.launch lkey with
  | some l => (rangeFrom (16 * cluster) 16).filter l.isMember
  | none => rangeFrom (16 * cluster) 16

/-- Whether a strand of the lowest member core is free for an assist (R366). -/
def State.assistStrand (st : State) (cluster lkey : Nat) : Option Nat :=
  match st.memberCores cluster lkey with
  | [] => none
  | c :: _ =>
    let bank := ((st.launch lkey).map fun l => l.bankOn c).getD (2 * c)
    if (st.bank bank).frozen then none else (rangeFrom (4 * bank) 4).find? fun k => (st.strand k).run == .free

/-- SUBNORMAL_ASSIST: firmware recomputes the marked elements with gradual underflow, on the first free strand of the lowest
member core; the task then ends (R249, R366). What it writes is what the accumulator holds: the results were rounded with
gradual underflow. -/
def execSubnormalAssist (cluster : Nat) (st : State) : Out :=
  if strandLimit ≤ 128 * cluster then .fault .noSuchAgent
  else
    let c := st.cluster cluster
    let waiting := c.assists.filterMap fun id => c.tasks.find? fun t => t.id == id
    match waiting.find? fun t => (st.assistStrand cluster t.lkey).isSome with
    | some t =>
      let st := st.endTask cluster t
      .next (if (st.cluster cluster).assists.isEmpty then st else st.owe (.subnormalAssist cluster))
    | none => .next (if waiting.isEmpty then st else st.owe (.subnormalAssist cluster))

end Sys2Proof.Machine
end

