-- ==== Sys2Proof/Machine/Engine.lean ====
section
/-!
DEFINITION. The accesses of engine commands: their checks with the codes of R286 (R285), the ranges that are judged before
any write, atomic pieces of reads (R125, R126), byte-masked writes of one line (R114), and the mailbox word (R115, R286).
-/

namespace Sys2Proof.Machine

/-- Whose accesses an engine makes: the source agent, the launch key and mode of its command, the strand that issued it, whose
bank its aperture addresses name, and the number of the command, by which its parked accesses and its places at the homes are
known (R28, R77); 0 where an access is made and ends in one step. -/
structure EngCtx where
  source : Nat
  lkey   : Nat
  sv     : Bool
  strand : Nat
  cmd    : Nat := 0
  deriving DecidableEq, Repr

/-- The key of a command's places in the order of arrival at the homes (R77). -/
def EngCtx.key (x : EngCtx) : List Nat := if x.cmd = 0 then [] else [x.cmd]

/-- Where an engine access lies: its storage address, its page's class and owner, and whether it is made through a port that
trained as PCIe only (R94). -/
structure Place where
  a     : Nat
  cls   : Nat
  owner : Nat
  pcie  : Bool
  deriving DecidableEq, Repr

/-- What an engine access comes to: a value, the code that ends its command, or a wait; `lost` says that the kill of its
launch has discarded it (R28). -/
inductive Eng (α : Type) where
  | ok (x : α) (st : State)
  | code (c : Nat) (st : State)
  | wait (lost : Bool) (st : State)

/-- The code of a failed check of R18 (R286). -/
def codeOf (cause : Nat) : Nat :=
  if cause = causePrivilege then 2 else if cause = causePermission then 3 else if cause = causeClass then 4 else 5

/-- Whether a launch has been killed or has ended. -/
def State.gone (st : State) (lkey : Nat) : Bool :=
  match st.launch lkey with
  | some l => l.killed
  | none => true

/-- The bank and pool offset that an aperture address of an engine command selects (R40, R288). -/
def State.engineBank (st : State) (x : EngCtx) (va : Nat) : Nat × Bool :=
  let sel := bits va 24 20
  let core := if sel = 0 then coreOf x.strand else clusterOf x.strand * 16 + (sel - 16)
  let member := core == coreOf x.strand || ((st.launch x.lkey).map fun l => l.isMember core).getD false
  (core * 2 + bankNo x.strand, bits va 47 25 == 0 && bits va 19 18 == 0 && (sel == 0 || 16 ≤ sel) && member)

/-- The code of an aperture range: 11 where it breaks R41, 7 where it overlaps a bound window (R285, R288). -/
def State.apertureCode (st : State) (x : EngCtx) (va n : Nat) : Option Nat :=
  let (bank, ok) := st.engineBank x va
  let b := st.bank bank
  let off := bits va 17 0
  if bits va 55 48 ≠ 0xFF ∨ ok = false ∨ b.inboxAt < off + n then some 11
  else if b.windows.any fun e => rangesMeet off n e.2.pool e.2.len then some 7
  else none

/-- The code of a range that a command judges before any write (R285): 1 where it is not canonical or carries out of bit
55, 11 or 7 for an aperture range. -/
def State.rangeCode (st : State) (x : EngCtx) (va n : Nat) : Option Nat :=
  if n = 0 then none
  else if 2 ^ 56 < va + n then some 1
  else if bits va 55 48 = 0xFF ∨ bits (va + n - 1) 55 48 = 0xFF then st.apertureCode x va n
  else none

/-- Where an engine access that lies in one page goes, with steps 2 to 7 of R18 (R285): a missing translation parks it, unless a
kill has discarded an access of its command (R28); an access that waits at the home has been admitted (R24); memory of a port whose
link is down gives code 5 (R375). -/
def State.engineAt (st : State) (x : EngCtx) (va : Nat) (acc : Access) : Eng Place :=
  if x.cmd ≠ 0 ∧ st.isCut x.lkey x.cmd = true then .wait true (st.leavePlaces x.key)
  else
    match st.translate x.source x.lkey va acc x.sv (some x.cmd) with
    | (.miss m, st) =>
      if st.gone x.lkey then .wait true (st.leavePlaces x.key) else .wait false (st.park x.source x.lkey va acc m x.cmd)
    | (.ok e, st) =>
      let st := st.taken x.source x.cmd
      match e.check x.sv x.lkey acc with
      | some c => .code (codeOf c) (st.leavePlaces x.key)
      | none =>
        let a := storageOf (e.phys va)
        if (st.holdsPlace (a / 64) x.key = false ∧ st.rangeAdmits (sourcePkg x.source) (e.phys va) acc.rangeBit = false) ∨
            st.regionAt (e.phys va) = .reserved then
          .code 5 (st.leavePlaces x.key)
        else .ok { a := a, cls := e.cls, owner := e.owner, pcie := st.viaPcie (e.phys va) } st

/-- One atomic piece of an engine read of `n` bytes: its first bytes, at most one piece (R114, R126). -/
def State.engineLoad (st : State) (x : EngCtx) (va n : Nat) : Eng (List Byte) :=
  if bits va 55 48 = 0xFF then
    let bank := (st.engineBank x va).1
    .ok (st.mem.readBytes (poolKey (bank / 2) ((st.bank bank).kbReg + bits va 17 0)) (min n (64 - va % 64))) st
  else
    match st.engineAt x va .engineRead with
    | .code c st => .code c st
    | .wait l st => .wait l st
    | .ok p st =>
      let k := min n (pieceSize p.a - va % pieceSize p.a)
      match st.engineRead p.a k p.pcie x.key with
      | some (bs, st) => .ok bs st
      | none => .wait false (st.snoopFor p.a k false p.pcie x.key)

/-- An engine write of bytes that lie in one line (R114). `keep` marks the bytes that are written. -/
def State.engineStore (st : State) (x : EngCtx) (va : Nat) (bs : List Byte) (keep : Nat → Bool) : Eng Unit :=
  if bits va 55 48 = 0xFF then
    let bank := (st.engineBank x va).1
    let cells := (cellsAt (poolKey (bank / 2) ((st.bank bank).kbReg + bits va 17 0)) bs).filter fun c => keep c.1
    if st.poolLocked cells then .wait false st else .ok () (st.poolWrite cells)
  else
    match st.engineAt x va .engineWrite with
    | .code c st => .code c st
    | .wait l st => .wait l st
    | .ok p st =>
      let cells := (cellsAt p.a bs).filter fun c => keep c.1
      match st.engineWrite cells p.cls p.owner p.pcie x.key with
      | some st => .ok () st
      | none => .wait false (st.snoopCells cells p.pcie x.key)

/-- The completion word of a mailbox (R286). -/
def mailboxWord (status bytes code : Nat) : Nat := 2 ^ 63 + status % 2 ^ 11 * 2 ^ 48 + min bytes (2 ^ 32 - 1) * 2 ^ 16 + code

/-- The mailbox word of a command at an aperture address in a bound window: it is stored there as a chunk's store is at its commit
(R49, R53, R115; log 62). A read-only window is not writable. -/
def State.windowMailbox (st : State) (x : EngCtx) (va word : Nat) : Eng Unit :=
  let bank := (st.engineBank x va).1
  let off := bits va 17 0
  match (st.bank bank).windows.find? fun e => e.2.pool ≤ off && off + 8 ≤ e.2.pool + e.2.len && !e.2.ro with
  | none => .ok () st
  | some (w, y) =>
    let a := poolKey (bank / 2) ((st.bank bank).kbReg + off)
    let cells := cellsAt a (toBytes 8 word)
    let phys := y.phys (y.base + (off - y.pool))
    if st.poolLocked cells then .wait false st
    else if y.cls = 3 ∧ st.engineReady phys 8 true false x.key = false then .wait false (st.snoopFor phys 8 true false x.key)
    else .ok () (((st.poolWrite cells).applyWindow noStrand bank w [wordOf a]).leavePlaces x.key)

/-- The mailbox write of a command, once every piece of its writes is applied (R115): a mailbox that is no longer writable is not
written. -/
def State.putMailbox (st : State) (x : EngCtx) (mailbox : Option Nat) (word : Nat) : Eng Unit :=
  if st.piecesLeft x.cmd then .wait false st
  else
    match mailbox with
    | none => .ok () st
    | some a =>
      match st.rangeCode x a 8 with
      | some 7 => st.windowMailbox x a word
      | some _ => .ok () st
      | none =>
        match st.engineStore x a (toBytes 8 word) fun _ => true with
        | .code _ st => .ok () st
        | r => r

/-- A mailbox is checked at issue: 8-byte alignment, then an 8-byte store by R18; a missing translation makes the
instruction wait (R285). -/
def State.withMailbox (st : State) (mailbox : Option Nat) (body : State → State) : State :=
  let who : Who := { k := st.cur, id := st.chunk.id, sv := st.me.sv, tag := st.issueTag }
  match mailbox with
  | none => body st
  | some a =>
    if a % 8 ≠ 0 then st.raise causeAlignment a
    else if 2 ^ 56 ≤ a then st.raise causeNonCanonical a
    else if bits a 55 48 = 0xFF then
      match st.resolveAperture who 0 a 8 .store (rangeFrom · 8) with
      | (.trap c a, st) => st.raise c a
      | (.miss _, st) => st
      | (.ok _, st) => body (st.taken (sourceCore (coreOf st.cur)) who.tag)
    else
      match st.resolveMemory who a 8 .store false with
      | (.trap c a, st) => st.raise c a
      | (.miss _, st) => st
      | (.ok s, st) =>
        let st := st.taken (sourceCore (coreOf st.cur)) who.tag
        if st.rangeAdmits (pkgOf st.cur) (s.physAt ((s.locs.headD (0, 0)).1)) 2 then body st else st.raise causeRange a

/-! ### Whole ranges -/

/-- The bytes of a range of a job that have been read or written. -/
def State.jobBytes (st : State) (job i : Nat) : List Byte := tget [] (tget [] st.jobs job) i

/-- More bytes of a range of a job are read or written. -/
def State.addBytes (st : State) (job i : Nat) (bs : List Byte) : State :=
  { st with jobs := tput st.jobs job (tput (tget [] st.jobs job) i (st.jobBytes job i ++ bs)) }

/-- A job ends: what it has read is dropped, with its places at the homes and among the refused requests. -/
def State.endJob (st : State) (job : Nat) : State :=
  { st with jobs := terase st.jobs job, refused := st.refused.filter fun r => r.tag != job }.leavePlaces [job]

/-- The pages of a range of an access, each with the checks of R18 and its bytes. A range that is not canonical, or that lies in
the aperture, has code 1. -/
def State.pagesOf (st : State) (x : EngCtx) (va n : Nat) (acc : Access) : Eng (List (Place × Nat)) :=
  if 2 ^ 56 < va + n ∨ (n ≠ 0 ∧ bits (va + n - 1) 55 48 = 0xFF) then .code 1 st
  else if n = 0 then .ok [] st
  else
    (segments va n).foldl (fun (r : Eng (List (Place × Nat))) s =>
      match r with
      | .ok ps st =>
        match st.engineAt x s.1 acc with
        | .ok p st => .ok (ps ++ [(p, s.2)]) st
        | .code c st => .code c st
        | .wait l st => .wait l st
      | r => r) (.ok [] st)

/-- Range `i` of a job read in ascending atomic pieces, each at an instant of its own (R114, R126): the bytes once all have been
read, and before that one piece and a wait. -/
def State.readAll (st : State) (x : EngCtx) (i va n : Nat) : Eng (List Byte) :=
  let done := st.jobBytes x.cmd i
  if n ≤ done.length then .ok done st
  else if 2 ^ 56 < va + n ∨ bits (va + n - 1) 55 48 = 0xFF then .code 1 st
  else
    match st.engineLoad x (va + done.length) (n - done.length) with
    | .ok bs st => .wait false (st.addBytes x.cmd i bs)
    | r => r

/-- Range `i` of a job written in ascending engine writes of at most one line, each at an instant of its own (R114): it ends with
the last of them. -/
def State.writeAll (st : State) (x : EngCtx) (i va : Nat) (bs : List Byte) : Eng Unit :=
  let done := (st.jobBytes x.cmd i).length
  if bs.length ≤ done then .ok () st
  else if 2 ^ 56 < va + bs.length ∨ bits (va + bs.length - 1) 55 48 = 0xFF then .code 1 st
  else
    let now := (bs.drop done).take (64 - (va + done) % 64)
    match st.engineStore x (va + done) now fun _ => true with
    | .ok _ st =>
      let st := st.addBytes x.cmd i now
      if bs.length ≤ done + now.length then .ok () st else .wait false st
    | r => r

/-- A range of a job written whole before what follows it, which comes at an instant of its own. -/
def State.writeFirst (st : State) (x : EngCtx) (i va : Nat) (bs : List Byte) : Eng Unit :=
  if bs.length ≤ (st.jobBytes x.cmd i).length then .ok () st
  else
    match st.writeAll x i va bs with
    | .ok _ st => .wait false st
    | r => r

/-- The mailbox that an instruction names: s0 names none (R285). -/
def State.mailboxOf (st : State) (o : Ops) : Option Nat := if o.dst = 0 then none else some (st.s o.dst).toNat

end Sys2Proof.Machine
end

