-- ==== Sys2Proof/Machine/Copy.lean ====
section
/-!
DEFINITION. The copy engines of the clusters (R285 to R293): issue and start, layout records (R287), CPY.IN, CPY.OUT, CPY.M
and CPY.NV, and the NVMe queues that CPY.NV drives.
-/

namespace Sys2Proof.Machine

/-! ### Issue and start -/

/-- The context of a copy command's accesses. -/
def Cmd.ctx (c : Cmd) (cluster : Nat) : EngCtx :=
  { source := sourceCluster cluster, lkey := c.lkey, sv := c.sv, strand := c.strand, cmd := c.id }

/-- A CPY that finds the shadow register held, or others that stall for it, takes its place in issue order (R285). -/
def State.queueCopy (st : State) (cluster : Nat) : State :=
  let me := (st.cur, st.chunk.id)
  st.setCluster cluster fun c =>
    { c with copyQueue := if c.copyQueue.any fun q => q.1 == st.cur then c.copyQueue.map fun q => if q.1 = st.cur then me else q
                          else c.copyQueue ++ [me] }

/-- A copy command checks its mailbox, reserves the shadow register, stalling while it is held or an earlier CPY stalls for it, and
ends its chunk (R285). -/
def State.issueCopy (st : State) (o : Ops) (kind : CmdKind) : State :=
  st.withMailbox (st.mailboxOf o) fun st =>
    let cl := clusterOf st.cur
    if st.counterFull .cp then st
    else if (st.cluster cl).shadow.isSome ∨ ((st.cluster cl).copyQueue.head?.any fun q => q.1 != st.cur) = true then st.queueCopy cl
    else
      let (n, st) := st.fresh
      let cmd : Cmd :=
        { id := n, strand := st.cur, seq := st.me.issued, chunk := st.chunk.id, lkey := st.me.lkey, sv := st.me.sv,
          mailbox := st.mailboxOf o, kind := kind }
      let st := st.issueOp [] { counter := .cp, chunk := cmd.chunk }
      (((st.setCluster cl fun c =>
        { c with shadow := some cmd, copyQueue := c.copyQueue.filter fun q => q.1 != st.cur }).hold (.cmd n)).finish).endChunk

/-- CPY.IN: the slot must be held by the core and not be Releasing (R288). -/
def execCpyIn (o : Ops) (st : State) : Out :=
  let n := o.immBits 6 0
  st.scalar o.g { regs := [regS o.dst.toNat, regS o.sa.toNat], lack := st.lackSlots n 1 } fun st =>
    let s := (st.cluster (clusterOf st.cur)).slot (physSlot st.cur n)
    if s.owner ≠ some (coreOf st.cur) ∨ s.releasing = true then st.raise causeSlot n
    else st.issueCopy o (.cpyIn (physSlot st.cur n) (st.s o.sa).toNat)

/-- The type of CPY.OUT's accumulator (R289). -/
def accType (code : Nat) : Nat :=
  match code with
  | 0 => 10
  | 1 => 11
  | _ => 2

/-- CPY.OUT (R289). -/
def execCpyOut (o : Ops) (st : State) : Out :=
  let a := o.immBits 4 0
  let ty := accType (o.modBits 59 58)
  let accs := if ty = 11 then [a, a + 1] else [a]
  st.scalar o.g { regs := [regS o.dst.toNat, regS o.sa.toNat], lack := st.lackAccs accs } fun st =>
    st.issueCopy o (.cpyOut (physAcc st.cur a) ty (o.modBits 57 55) (o.modBit 54) (o.modBit 53) (st.s o.sa).toNat)

/-- CPY.M (R290). -/
def execCpyM (o : Ops) (st : State) : Out :=
  st.scalar o.g { regs := [regS o.dst.toNat, regS o.sa.toNat, regS o.sb.toNat, regS o.sc.toNat] } fun st =>
    st.issueCopy o (.cpyM (st.s o.sa).toNat (st.s o.sb).toNat (st.s o.sc).toNat)

/-- CPY.NV (R291). -/
def execCpyNv (o : Ops) (st : State) : Out :=
  st.scalar o.g { regs := [regS o.dst.toNat, regS o.sa.toNat] } fun st => st.issueCopy o (.cpyNv (st.s o.sa).toNat)

/-- The start of an engine command's generator (R246). A seed of zero is replaced by 1, as the rule says of a strand's generator; of a
command's it says nothing (log 137, DESIGN CHOICE). -/
def State.engineSeed (st : State) (k : Nat) : BitVec 32 :=
  seedQ (BitVec.ofNat 32 st.time ^^^ BitVec.ofNat 32 ((st.kcoord k).toNat % 2 ^ 30))

/-- A copy command at its chunk's apply: it is latched in the shadow and takes its place in the order (R279, R285). -/
def State.applyCopy (st : State) (k id : Nat) : State :=
  let cl := clusterOf k
  let q := st.engineSeed k
  let (n, st) := st.fresh
  (st.setCluster cl fun c =>
    { c with shadow := c.shadow.map fun m => if m.id = id then { m with applied := true, order := n, q := q } else m }).owe
    (.copyCommandStart cl)

/-- Whether a copy command may start (R275, R279): its slot is Empty, or its accumulators are Ready and every tile command
applied before it that writes them has completed. -/
def Cluster.copyReady (c : Cluster) (m : Cmd) : Bool :=
  (m.slots.all fun n => !(c.slot n).full && !(c.slot n).filling) &&
    (m.accs.all fun a => (c.acc a).st == .ready) &&
    !(c.tasks.any fun t => t.applied && t.order < m.order && t.writes.any m.accs.contains)

/-- Whether two copy commands name one slot or accumulator (R285). -/
def Cmd.shares (a b : Cmd) : Bool := a.slots.any b.slots.contains || a.accs.any b.accs.contains

/-- The first entry of a wait list that may start: no earlier entry shares a slot or accumulator with it (R285). -/
def Cluster.firstReady (c : Cluster) : List Cmd → List Cmd → Option Cmd
  | _, [] => none
  | before, m :: rest => if c.copyReady m && !(before.any m.shares) then some m else c.firstReady (before ++ [m]) rest

/-- A command becomes the active one: a CPY.IN's slot becomes Filling, and a CPY.OUT raises the read count (R275, R276). -/
def State.startCopy (st : State) (cluster : Nat) (m : Cmd) : State :=
  (st.setCluster cluster fun c =>
    let c := m.slots.foldl (fun c n => c.setSlot n fun s => { s with filling := true }) c
    let c := m.accs.foldl (fun c a => c.setAcc a fun x => { x with reads := x.reads + 1 }) c
    { c with active := some { m with started := true } }).owe (.copyCommandComplete cluster m.id)

/-- COPY_COMMAND_START: an idle engine starts the first entry of its wait list that is ready, else the command in the
shadow, which moves to the wait list of 8 entries if it must wait; while the list is full, the engine takes none (R285). -/
def execCopyCommandStart (cluster : Nat) (st : State) : Out :=
  if strandLimit ≤ 128 * cluster then .fault .noSuchAgent
  else
    let c := st.cluster cluster
    if c.active.isSome then .next st
    else
      match c.firstReady [] c.waiting with
      | some m =>
        .next ((st.setCluster cluster fun c => { c with waiting := c.waiting.filter fun x => x.id != m.id }).startCopy cluster m)
      | none =>
        match c.shadow with
        | none => .next st
        | some m =>
          if m.applied = false ∨ 8 ≤ c.waiting.length then .next st
          else if c.copyReady m && !(c.waiting.any m.shares) then
            .next ((st.setCluster cluster fun c => { c with shadow := none }).startCopy cluster m)
          else .next (st.setCluster cluster fun c => { c with shadow := none, waiting := c.waiting ++ [m] })

/-! ### The end of a command -/

/-- The active command of a cluster replaced. -/
def State.setActive (st : State) (cluster : Nat) (m : Cmd) : State := st.setCluster cluster fun c => { c with active := some m }

/-- A layout record (R287). -/
structure Layout where
  base   : Nat
  stride : Nat
  cols   : Nat
  rows   : Nat
  tr     : Bool
  ty     : Nat
  scale  : Nat
  deriving DecidableEq, Repr

/-- Word `i` of the record that a command has read. -/
def Cmd.word (m : Cmd) (i : Nat) : Nat := fromBytes ((rangeFrom (8 * i) 8).map fun j => tget 0 m.data j)

/-- The layout record of a command. -/
def Cmd.layout (m : Cmd) : Layout :=
  { base := m.word 0, stride := m.word 1, cols := bits (m.word 2) 30 20, rows := bits (m.word 2) 18 8, tr := nbit (m.word 2) 4,
    ty := bits (m.word 2) 3 0, scale := m.word 3 }

/-- The bytes of one element, 1 for q4. -/
def Layout.unit (l : Layout) : Nat := max 1 (typeWidth l.ty / 8)

/-- The bytes of one memory row of `n` elements. -/
def Layout.rowBytes (l : Layout) (n : Nat) : Nat := (n * typeWidth l.ty + 7) / 8

/-- Whether a copy command stands at a 64-byte boundary of its data: a CPY.IN by the address that it reads next, of a row or of its
scale bytes, a CPY.M with no part of a destination line read (R293). The writes of a CPY.OUT end at one, and a CPY.NV moves no data
itself. -/
def Cmd.atBoundary (m : Cmd) : Bool :=
  match m.kind with
  | .cpyIn _ _ =>
    let l := m.layout
    let nb := l.rowBytes l.cols
    !m.ready ||
      (if m.cursor < l.rows * nb then m.cursor % nb == 0 || (l.base + m.cursor / nb * l.stride + m.cursor % nb) % 64 == 0
       else m.cursor == l.rows * nb || (l.scale + (m.cursor - l.rows * nb)) % 64 == 0)
  | .cpyM _ _ _ => m.data.isEmpty
  | _ => true

/-- Whether a copy command stops for a pre-emption that has displaced its launch: at a 64-byte boundary, or with a parked access,
which is saved (R29, R293). -/
def State.copyStops (st : State) (cluster : Nat) (m : Cmd) : Bool :=
  ((st.cluster cluster).frozen.any fun f => f.lkey == m.lkey) &&
    (m.atBoundary || (st.parks.any fun p => p.behind.contains (sourceCluster cluster, m.id)) ||
      st.refused.any fun r => r.source == sourceCluster cluster && r.tag == m.id)

/-- A copy command goes on with its next piece; that of a displaced launch stops where it may (R293). -/
def State.nextPiece (st : State) (cluster : Nat) (m : Cmd) : State :=
  if st.copyStops cluster m then
    (st.setCluster cluster fun c =>
      { c with
        active := none
        frozen := updateFirst (fun f => f.lkey == m.lkey) (fun f => { f with copies := m :: f.copies }) c.frozen }).owe
      (.copyCommandStart cluster)
  else (st.setActive cluster m).owe (.copyCommandComplete cluster m.id)

/-- A copy command has issued its last data access: its slot is Full, or on an error Empty, and the engine takes the next command
while it finishes (R275, R285, R288). -/
def State.drainCopy (st : State) (cluster : Nat) (m : Cmd) (fine : Bool) : State :=
  (st.setCluster cluster fun c =>
    let c := m.slots.foldl (fun c n => c.setSlot n fun s => { s with filling := false, full := fine }) c
    { c with active := none, finishing := c.finishing ++ [m] }).oweAll [.copyCommandStart cluster, .tileTaskIssue cluster]

/-- A copy command has completed: cp falls, an accumulator that it has read without LAST is Ready, and what may follow is owed
(R276, R285). -/
def State.leaveCopy (st : State) (cluster : Nat) (m : Cmd) : State :=
  let st := st.setCluster cluster fun c =>
    let c := match m.kind with
      | .cpyOut _ _ _ _ last _ =>
        if m.cursor = 0 then c.readDone m.accs false else if last then c else c.readEnd m.accs false
      | _ => c
    { c with finishing := c.finishing.filter fun x => x.id != m.id }.settleSlots
  (st.setStrand m.strand fun t => t.complete .cp m.seq).oweAll [.copyCommandStart cluster, .tileTaskIssue cluster]

/-- A command whose data accesses are over writes its mailbox once its writes have committed, and completes (R115, R285). -/
def State.endCopy (st : State) (cluster : Nat) (m : Cmd) : State :=
  match st.putMailbox (m.ctx cluster) m.mailbox (mailboxWord m.status m.bytes m.code) with
  | .ok _ st => st.leaveCopy cluster m
  | .code _ st => st.leaveCopy cluster m
  | .wait true st => st.leaveCopy cluster m
  | .wait false st => st.owe (.copyCommandComplete cluster m.id)

/-- The data accesses of a command end with a code. -/
def State.codeCopy (st : State) (cluster : Nat) (m : Cmd) (code : Nat) : State :=
  let m := { m with code := code, ended := true }
  (st.drainCopy cluster m (code == 0)).endCopy cluster m

/-- What follows an access of a copy command. -/
def State.onAccess {α : Type} (cluster : Nat) (m : Cmd) (r : Eng α) (done : α → State → State) : State :=
  match r with
  | .ok x st => done x st
  | .code c st => st.codeCopy cluster m c
  | .wait true st => (st.drainCopy cluster m false).leaveCopy cluster m
  | .wait false st => st.nextPiece cluster m

/-- A 32-byte record or descriptor is read piece by piece when its command starts (R287, R291). -/
def State.latch (st : State) (cluster : Nat) (m : Cmd) (addr : Nat) (done : Cmd → State → State) : State :=
  let n := m.data.length
  if addr % 32 ≠ 0 then st.codeCopy cluster m 1
  else
    match st.rangeCode (m.ctx cluster) addr 32 with
    | some c => st.codeCopy cluster m c
    | none =>
      State.onAccess cluster m (st.engineLoad (m.ctx cluster) (addr + n) (32 - n)) fun bs st =>
        let m := { m with data := m.data ++ cellsAt n bs }
        if m.data.length < 32 then st.nextPiece cluster m else done m st

/-! ### Layout records -/

/-- Whether a layout record breaks no rule of R287. -/
def Cmd.soundLayout (m : Cmd) : Bool :=
  let l := m.layout
  let g := 256 / typeWidth l.ty
  bits (m.word 0) 63 56 == 0 && bits (m.word 1) 63 48 == 0 && bits (m.word 2) 63 31 == 0 && !nbit (m.word 2) 19 &&
    bits (m.word 2) 7 5 == 0 && bits (m.word 3) 63 56 == 0 && l.ty ≤ 14 && 1 ≤ l.cols && l.cols ≤ 1024 && 1 ≤ l.rows &&
    l.rows ≤ 1024 && (l.ty == 14 || l.scale == 0) && l.base % l.unit == 0 && l.stride % l.unit == 0 &&
    (if l.tr then l.base % 32 == 0 && l.stride % 32 == 0 && l.rows % g == 0 && l.cols % g == 0
     else l.ty != 14 || l.cols % 32 == 0)

/-- The code of a command of several ranges: code 1 where one of them is not canonical or carries, else that of the first range
that fails (R285, log 102). -/
def rangesCode (cs : List (Option Nat)) : Option Nat := if cs.contains (some 1) then some 1 else cs.findSome? id

/-- The code of `rows` memory rows of `n` bytes (R285). -/
def State.rowsCode (st : State) (x : EngCtx) (l : Layout) (rows n : Nat) : Option Nat :=
  rangesCode ((List.range rows).map fun i => st.rangeCode x (l.base + i * l.stride) n)

/-! ### CPY.IN -/

/-- An element of a slot written (R273). -/
def State.putSlotElem (st : State) (cluster slot w row k code : Nat) : State :=
  let a := slotKey cluster slot (512 * row + k * w / 8)
  if w < 8 then
    let old := (st.mem.read a).toNat
    let x := if k % 2 = 0 then bits old 7 4 * 16 + code % 16 else code % 16 * 16 + bits old 3 0
    { st with mem := st.mem.write a (BitVec.ofNat 8 x) }
  else { st with mem := st.mem.writeBytes a (toBytes (w / 8) code) }

/-- The bytes of one piece of memory row `i` from byte `off` on, put into the slot (R288). -/
def State.putPiece (st : State) (cluster slot : Nat) (l : Layout) (i off : Nat) (bs : List Byte) : State :=
  if l.tr then
    let w := typeWidth l.ty
    st.each (List.range (bs.length * 8 / w)) fun st e =>
      st.putSlotElem cluster slot w (off * 8 / w + e) i (rowCode l.ty bs e)
  else { st with mem := st.mem.writeBytes (slotKey cluster slot (512 * i + off)) bs }

/-- The slot rows that hold data, and the elements of data in each (R288). -/
def Layout.filled (l : Layout) : Nat × Nat := if l.tr then (l.cols, l.rows) else (l.rows, l.cols)

/-- The rest of a slot is zero; q4 scale bytes of rows without data are zero (R288). -/
def State.zeroRest (st : State) (cluster slot : Nat) (l : Layout) : State :=
  let (r, c) := l.filled
  let keep := l.rowBytes c
  let mem := (List.range (64 * 512)).foldl (fun (m : Memory) b =>
    if b / 512 < r ∧ b % 512 < keep then m else m.write (slotKey cluster slot b) 0) st.mem
  let mem := if l.ty = 14 then
      (rangeFrom (32 * r) (2048 - 32 * r)).foldl (fun (m : Memory) b => m.write (slotKey cluster slot (2 ^ 15 + b)) 0) mem
    else mem
  { st with mem := mem }

/-- The bytes that a CPY.IN writes into its slot (log 33). -/
def slotBytes (l : Layout) : Nat := if l.ty = 14 then 32768 + 2048 else 32768

/-- The next piece of a CPY.IN (R288). Of the scale bytes those of rows that hold data are read, 32 each, and their range alone is
judged at the start (R287; log 138, DEDUCED). -/
def State.cpyInStep (st : State) (cluster : Nat) (m : Cmd) (slot record : Nat) : State :=
  let x := m.ctx cluster
  if m.ready = false then
    st.latch cluster m record fun m st =>
      let l := m.layout
      let (r, c) := l.filled
      if m.soundLayout = false ∨ 64 < r ∨ rowLength l.ty < c then st.codeCopy cluster m 1
      else
        match rangesCode [st.rowsCode x l l.rows (l.rowBytes l.cols), if l.ty = 14 then st.rangeCode x l.scale (32 * r) else none] with
        | some code => st.codeCopy cluster m code
        | none => st.nextPiece cluster { m with ready := true }
  else
    let l := m.layout
    let nb := l.rowBytes l.cols
    let all := l.rows * nb
    let scales := if l.ty = 14 then 32 * l.filled.1 else 0
    if m.cursor < all then
      let i := m.cursor / nb
      let off := m.cursor % nb
      State.onAccess cluster m (st.engineLoad x (l.base + i * l.stride + off) (nb - off)) fun bs st =>
        (st.putPiece cluster slot l i off bs).nextPiece cluster
          { m with cursor := m.cursor + bs.length, bytes := m.bytes + bs.length }
    else if m.cursor < all + scales then
      let off := m.cursor - all
      State.onAccess cluster m (st.engineLoad x (l.scale + off) (scales - off)) fun bs st =>
        { st with mem := st.mem.writeBytes (slotKey cluster slot (2 ^ 15 + off)) bs }.nextPiece cluster
          { m with cursor := m.cursor + bs.length, bytes := m.bytes + bs.length }
    else (st.zeroRest cluster slot l).codeCopy cluster { m with bytes := slotBytes l } 0

/-! ### CPY.OUT -/

/-- Memory rows and columns of a CPY.OUT: element (m, n) goes to (m, n), or with TR to (n, m) (R289). -/
def Layout.written (l : Layout) : Nat × Nat := if l.tr then (l.cols, l.rows) else (l.rows, l.cols)

/-- The codes of an accumulator rectangle converted in ascending element order, with the generator after them (R246,
R289). -/
def State.outCodes (st : State) (cluster : Nat) (m : Cmd) (acc ty rm : Nat) (sat : Bool) : List Nat × BitVec 32 :=
  let l := m.layout
  let mode := rmodeOf rm
  (tilePairs l.rows l.cols).foldl (fun (r : List Nat × BitVec 32) e =>
    let x := st.accElem cluster acc e.1 e.2 (ty == 11)
    let q := if convertDraws mode then nextQ r.2 else r.2
    (r.1 ++ [convert l.ty ty mode sat (drawOf q) x], q)) ([], m.q)

/-- The converted bytes of a CPY.OUT in memory order: `512 * row` and the byte of the row, above the record. -/
def outCells (l : Layout) (codes : List Nat) : Tab Byte :=
  let (r, c) := l.written
  (tilePairs r c).flatMap fun e =>
    let at_ := if l.tr then l.cols * e.2 + e.1 else l.cols * e.1 + e.2
    cellsAt (4096 + 512 * e.1 + l.unit * e.2) (toBytes l.unit (codes.getD at_ 0))

/-- ACCUMULATOR_LAST_ELEMENT_READ: the elements of a CPY.OUT are read and converted, an ACC.RD has read its rows; the read
count falls, and a CPY.OUT with LAST leaves its accumulator Drained (R276, R289). -/
def execAccumulatorLastElementRead (cluster id : Nat) (st : State) : Out :=
  if strandLimit ≤ 128 * cluster then .fault .noSuchAgent
  else
    let c := st.cluster cluster
    match c.tasks.find? fun t => t.id == id && t.started && !t.isRead && t.isRd with
    | some t =>
      let mark (u : Task) : Task := if u.id = id then { u with isRead := true } else u
      .next ((st.setCluster cluster fun c => { c with tasks := c.tasks.map mark }.readDone [t.acc] false).owe
        (.tileTaskComplete cluster))
    | none =>
      match c.active with
      | none => .next st
      | some m =>
        match m.kind with
        | .cpyOut acc ty rm sat last _ =>
          if m.id ≠ id ∨ m.ready = false ∨ m.cursor ≠ 0 then .next st
          else
            let (codes, q) := st.outCodes cluster m acc ty rm sat
            let m := { m with cursor := 1, q := q, data := m.data ++ outCells m.layout codes }
            .next ((st.setCluster cluster fun c => c.readDone m.accs last).nextPiece cluster m)
        | _ => .next st

/-- The next piece of a CPY.OUT (R289): a byte-masked write in one line. The lines, which carry no order among themselves (R114, R129),
are written in ascending rows and within a row in ascending addresses (log 114, DESIGN CHOICE). -/
def State.cpyOutStep (st : State) (cluster : Nat) (m : Cmd) (ty : Nat) (sat : Bool) (record : Nat) : State :=
  let x := m.ctx cluster
  if m.ready = false then
    st.latch cluster m record fun m st =>
      let l := m.layout
      if m.soundLayout = false ∨ 64 < l.rows ∨ 64 < l.cols ∨ l.ty = 14 ∨ (sat && !satPermitted ty l.ty) = true then
        st.codeCopy cluster m 1
      else
        match st.rowsCode x l l.written.1 (l.rowBytes l.written.2) with
        | some code => st.codeCopy cluster m code
        | none => (st.setActive cluster { m with ready := true }).owe (.accumulatorLastElementRead cluster m.id)
  else if m.cursor = 0 then st.owe (.accumulatorLastElementRead cluster m.id)
  else
    let l := m.layout
    let nb := l.rowBytes l.written.2
    let at_ := m.cursor - 1
    if at_ < l.written.1 * nb then
      let i := at_ / nb
      let off := at_ % nb
      let va := l.base + i * l.stride + off
      let n := min (nb - off) (64 - va % 64)
      let bs := (rangeFrom (4096 + 512 * i + off) n).map fun a => tget 0 m.data a
      State.onAccess cluster m (st.engineStore x va bs fun _ => true) fun _ st =>
        st.nextPiece cluster { m with cursor := m.cursor + n, bytes := m.bytes + n }
    else st.codeCopy cluster m 0

/-! ### CPY.M -/

/-- Whether a storage address lies in the source of a CPY.M by another mapping of its frame (R290). -/
def State.aliased (st : State) (x : EngCtx) (src n a : Nat) : Bool :=
  (segments src n).any fun s =>
    match (st.translate x.source x.lkey s.1 .engineRead x.sv none).1 with
    | .ok e => let b := storageOf (e.phys s.1); b ≤ a && a < b + s.2
    | .miss _ => false

/-- The next piece of a CPY.M (R290): atomic pieces of the source are read until a destination line is complete, which is
then written. The destination lines, which carry no order among themselves, are written in ascending order (log 114, DESIGN
CHOICE). An aliased destination byte keeps its old value or takes the byte read: which is a free value. -/
def State.cpyMStep (st : State) (cluster : Nat) (m : Cmd) (src dst n : Nat) : State :=
  let x := m.ctx cluster
  if m.ready = false then
    if 2 ^ 40 < n then st.codeCopy cluster m 1
    else
      match rangesCode [st.rangeCode x src n, st.rangeCode x dst n] with
      | some code => st.codeCopy cluster m code
      | none =>
        if src < dst + n ∧ dst < src + n ∧ n ≠ 0 then st.codeCopy cluster m 6
        else st.nextPiece cluster { m with ready := true }
  else if n ≤ m.cursor then st.codeCopy cluster m 0
  else
    let line := min (n - m.cursor) (64 - (dst + m.cursor) % 64)
    let have' := m.data.length
    if have' < line then
      let va := src + m.cursor + have'
      State.onAccess cluster m (st.engineLoad x va (line - have')) fun bs st =>
        st.nextPiece cluster { m with data := m.data ++ cellsAt have' bs }
    else
      let bs := (List.range line).map fun i => tget 0 m.data i
      let mask (a : Nat) : Bool := !(st.aliased x src n a) || Config.aliasKeepsRead (st.tick * 2 ^ 64 + a)
      State.onAccess cluster m (st.engineStore x (dst + m.cursor) bs mask) fun _ st =>
        st.nextPiece cluster { m with cursor := m.cursor + line, bytes := m.bytes + line, data := [] }

/-! ### CPY.NV -/

/-- The offset of an NVMe queue table entry (R291). -/
def nvmeEntry (q : Nat) : Nat := 0x70000 + 64 * q

/-- A word of an NVMe queue table entry. -/
def State.nvmeWord (st : State) (p q w : Nat) : Nat := (st.reg p (nvmeEntry q + 8 * w)).toNat

/-- Whether an NVMe queue table entry counts as enabled (R291). -/
def State.nvmeEnabled (st : State) (p q : Nat) : Bool :=
  let w := st.nvmeWord p q
  bits (w 0) 63 47 == 0 && bits (w 0) 11 1 == 0 && bits (w 1) 63 47 == 0 && bits (w 1) 11 0 == 0 &&
    bits (w 2) 63 47 == 0 && bits (w 2) 1 0 == 0 && bits (w 3) 63 47 == 0 && bits (w 3) 1 0 == 0 &&
    bits (w 4) 63 37 == 0 && 1 ≤ bits (w 4) 15 0 && 1 ≤ bits (w 4) 31 16 && 9 ≤ bits (w 4) 36 32 && bits (w 4) 36 32 ≤ 16 &&
    bits (w 5) 31 16 == 0 && bits (w 5) 62 48 == 0 && 1 ≤ bits (w 5) 47 32 && nbit (w 5) 63 && bits (w 6) 35 0 == 0

/-- The fabric physical address of a byte of host memory of a package through a host port (R9). -/
def hostPhys (p port a : Nat) : Nat := p * 2 ^ 50 + 0x2000000000000 + port * 2 ^ 47 + a

/-- The first page of the peer-to-peer window that no outstanding Read has mapped (log 34). -/
def nvmeFree (rs : List NvRead) : Nat := rs.foldl (fun n r => max n (r.window + r.frames.length)) 0

/-- The submission entry of a Read (R292): opcode 0x02, NSID, the PRP entries, the starting LBA and the block count. -/
def nvmeSubmission (cid nsid lba blocks prp1 prp2 : Nat) : List Byte :=
  toBytes 4 (0x02 + cid * 2 ^ 16) ++ toBytes 4 nsid ++ toBytes 16 0 ++ toBytes 8 prp1 ++ toBytes 8 prp2 ++ toBytes 8 lba ++
    toBytes 4 (blocks - 1) ++ toBytes 12 0

/-- What CPY.NV checks of its descriptor and ranges before any submission, in the order that the fields need: the code, if
one fails (R291, R292). -/
def State.nvCode (st : State) (m : Cmd) (x : EngCtx) : Option Nat :=
  let p := sourcePkg x.source
  let q := bits (m.word 2) 37 32
  let lba := 2 ^ bits (st.nvmeWord p q 4) 36 32
  let nlb := bits (m.word 2) 31 0
  if bits (m.word 0) 63 56 ≠ 0 ∨ bits (m.word 2) 63 38 ≠ 0 ∨ bits (m.word 3) 63 32 ≠ 0 ∨ nlb = 0 then some 1
  else if st.nvmeEnabled p q = false then some 10
  else if m.word 0 % lba ≠ 0 then some 1
  else
    match st.rangeCode x (m.word 0) (nlb * lba) with
    | some c => some c
    | none => if bits (m.word 0) 55 48 = 0xFF then some 11 else none

/-- The frames of a destination range, page by page (R292): a page in host memory gives code 4. -/
def State.nvFrames (st : State) (x : EngCtx) (va n : Nat) : Eng (List Nat) :=
  (segments va n).foldl (fun (r : Eng (List Nat)) s =>
    match r with
    | .ok fs st =>
      match st.engineAt x s.1 .engineWrite with
      | .ok p st => if isHost p.a then .code 4 st else .ok (fs ++ [p.a]) st
      | .code c st => .code c st
      | .wait l st => .wait l st
    | r => r) (.ok [] st)

/-- A command identifier that no outstanding Read of a queue has, from a number on (R292). -/
def freeCid (rs : List NvRead) (q : Nat) : Nat → Nat → Nat
  | 0, n => n % 2 ^ 16
  | fuel + 1, n => if rs.any fun r => r.queue == q && r.cid == n % 2 ^ 16 then freeCid rs q fuel (n + 1) else n % 2 ^ 16

/-- The submission entry of the next Read of a command, its window pages, and the free number that names it (R292). -/
def State.nvEntry (st : State) (m : Cmd) (p q blocks : Nat) (frames : List Nat) : List Byte × NvRead :=
  let w := st.nvmeWord p q
  let lba := 2 ^ bits (w 4) 36 32
  let va := m.word 0 + m.cursor * lba
  let cid := freeCid (st.pkg p).nvme q (st.pkg p).nvme.length st.nextId
  let first := nvmeFree (st.pkg p).nvme
  let page (i : Nat) : Nat := w 6 + 4096 * (first + i)
  let prp2 := if frames.length < 2 then 0 else if frames.length = 2 then page 1 else Config.prpList st.tick
  (nvmeSubmission cid (bits (m.word 3) 31 0) (m.word 1 + m.cursor) blocks (page 0 + va % 4096) prp2,
    { cmd := m.id, cluster := 0, queue := q, cid := cid, window := first, frames := frames, bytes := blocks * lba, since := st.time,
      prps := (page 0 + va % 4096) :: (rangeFrom 1 (frames.length - 1)).map page })

/-- One Read submitted (R292): its window pages are mapped, its entry is written to the submission queue through the entry's host
port, and the tail doorbell is rung through that port. A port that trained as PCIe only carries both in order, so that the entry
stands in host memory when the doorbell arrives (log 115, DEDUCED); at another the entry is an engine write, which waits until the
line is free and the host has answered: the answer is then none. -/
def State.nvSubmit (st : State) (cluster : Nat) (m : Cmd) (blocks : Nat) (frames : List Nat) : Option State :=
  let p := pkgOfDie (dieOfCluster cluster)
  let q := bits (m.word 2) 37 32
  let w := st.nvmeWord p q
  let port := bits (w 0) 0 0
  let tail := bits (w 7) 15 0
  let (entry, r) := st.nvEntry m p q blocks frames
  let next' := if tail = bits (w 4) 15 0 then 0 else tail + 1
  let at_ := hostPhys p port (bits (w 0) 46 12 * 4096 + 64 * tail)
  let a := storageOf at_
  let pcie := st.viaPcie at_
  let sent : Option State :=
    if pcie then some { st with mem := st.mem.writeBytes a entry }
    else if st.engineReady a 64 true false [m.id] then some ((st.writeLine (a / 64) (cellsAt a entry) 5 0 none none).leavePlaces [m.id])
    else none
  sent.map fun st =>
    let st := { st with nextId := st.nextId + 1 }.setReg p (nvmeEntry q + 56) (BitVec.ofNat 64 (w 7 - tail + next'))
    st.setPkg p fun g =>
      { g with
        nvmeOut := g.nvmeOut ++ [(port * 2 ^ 47 + w 2, toBytes 4 next')]
        nvme := g.nvme ++ [{ r with cluster := cluster }] }

/-- The frames of the destination pages of a part of a CPY.NV, from those that its checks found (R292). -/
def Cmd.framesOf (m : Cmd) (at_ n : Nat) : List Nat :=
  let first := (m.word 0 + at_) / 4096 - m.word 0 / 4096
  (m.frames.drop first).take ((m.word 0 + at_ + n - 1) / 4096 + 1 - (m.word 0 + at_) / 4096)

/-- The next part of a CPY.NV (R291, R292): the descriptor, the checks of every destination page, then one Read after
another while at most 16 are outstanding and none has failed, and the end once every Read has completed. -/
def State.cpyNvStep (st : State) (cluster : Nat) (m : Cmd) (desc : Nat) : State :=
  let x := m.ctx cluster
  let p := sourcePkg x.source
  if m.data.length < 32 then st.latch cluster m desc fun m st => st.nextPiece cluster m
  else
    let q := bits (m.word 2) 37 32
    let lba := 2 ^ bits (st.nvmeWord p q 4) 36 32
    let nlb := bits (m.word 2) 31 0
    if m.ready = false then
      match st.nvCode m x with
      | some code => st.codeCopy cluster m code
      | none =>
        State.onAccess cluster m (st.nvFrames x (m.word 0) (nlb * lba)) fun fs st =>
          st.nextPiece cluster { m with ready := true, frames := fs }
    else
      let mine := (st.pkg p).nvme.filter fun r => r.cmd == m.id
      if m.cursor < nlb ∧ m.code = 0 then
        let full : Bool := bits (st.nvmeWord p q 4) 15 0 ≤ ((st.pkg p).nvme.filter fun r => r.queue == q).length
        if 16 ≤ mine.length ∨ (full && !mine.isEmpty) = true then st
        else if full then st.nextPiece cluster m
        else
          let blocks := min (nlb - m.cursor) (min (bits (st.nvmeWord p q 5) 15 0 + 1) (131072 / lba))
          match st.nvSubmit cluster m blocks (m.framesOf (m.cursor * lba) (blocks * lba)) with
          | some st => st.nextPiece cluster { m with cursor := m.cursor + blocks }
          | none =>
            let a := storageOf (hostPhys p (bits (st.nvmeWord p q 0) 0 0)
              (bits (st.nvmeWord p q 0) 46 12 * 4096 + 64 * bits (st.nvmeWord p q 7) 15 0))
            (st.snoopFor a 64 true false [m.id]).nextPiece cluster m
      else if mine.isEmpty then st.codeCopy cluster m m.code
      else st

/-- COPY_COMMAND_COMPLETE: the active command goes on to the end of its data accesses, and one that finishes writes its mailbox and
completes (R285, R286). -/
def execCopyCommandComplete (cluster id : Nat) (st : State) : Out :=
  if strandLimit ≤ 128 * cluster then .fault .noSuchAgent
  else
    match (st.cluster cluster).finishing.find? fun m => m.id == id with
    | some m => .next (st.endCopy cluster m)
    | none =>
      match (st.cluster cluster).active with
      | none => .next st
      | some m =>
        if m.id ≠ id then .next st
        else if m.ended then .next (st.codeCopy cluster m m.code)
        else
          match m.kind with
          | .cpyIn slot record => .next (st.cpyInStep cluster m slot record)
          | .cpyOut _ ty _ sat _ record => .next (st.cpyOutStep cluster m ty sat record)
          | .cpyM src dst n => .next (st.cpyMStep cluster m src dst n)
          | .cpyNv desc => .next (st.cpyNvStep cluster m desc)
          | _ => .next st

/-! ### The NVMe controller -/

/-- The command of a number changed, if it is a cluster's active one or has been frozen. -/
def State.changeActive (st : State) (cluster id : Nat) (f : Cmd → Cmd) : State :=
  let g (m : Cmd) : Cmd := if m.id = id then f m else m
  st.setCluster cluster fun c =>
    { c with active := c.active.map g, frozen := c.frozen.map fun x => { x with copies := x.copies.map g } }

/-- A Read whose bytes have all arrived and whose completion entry has come is complete: its blocks count, and its window
pages are free again (R292). -/
def State.readComplete (st : State) (p : Nat) (r : NvRead) : State :=
  if r.fine ∧ r.bytes ≤ r.landed then
    let st := st.setPkg p fun g => { g with nvme := g.nvme.filter fun x => !(x.queue == r.queue && x.cid == r.cid) }
    (st.changeActive r.cluster r.cmd fun m => { m with bytes := m.bytes + r.bytes }).owe (.copyCommandComplete r.cluster r.cmd)
  else
    st.setPkg p fun g => { g with nvme := g.nvme.map fun x => if x.queue = r.queue ∧ x.cid = r.cid then r else x }

/-- An entry of a completion queue consumed: the head and the phase move, and the head doorbell is rung (R291, R292). -/
def State.consumeEntry (st : State) (p queue : Nat) : State :=
  let w := st.nvmeWord p queue
  let head := bits (w 7) 31 16
  let wraps := head == bits (w 4) 31 16
  let next' := if wraps then 0 else head + 1
  let phase := if nbit (w 7) 32 != wraps then 2 ^ 32 else 0
  let st := st.setReg p (nvmeEntry queue + 56) (BitVec.ofNat 64 (bits (w 7) 15 0 + next' * 2 ^ 16 + phase))
  st.setPkg p fun g => { g with nvmeOut := g.nvmeOut ++ [(bits (w 0) 0 0 * 2 ^ 47 + w 3, toBytes 4 next')] }

/-- NVME_COMPLETION_ENTRY: the engine consumes each entry of an enabled queue and moves the head doorbell, also that of a Read whose
command has ended by its timeout; a nonzero status, SCT in bits 10:8 and SC in bits 7:0, stops further submission (R292). -/
def execNvmeCompletionEntry (pkg queue cid status : Nat) (st : State) : Out :=
  if packageLimit ≤ pkg then .fault .noSuchAgent
  else
    match (st.pkg pkg).nvme.find? fun r => r.queue == queue && r.cid == cid && !r.fine with
    | none => .next (if queue < 64 ∧ st.nvmeEnabled pkg queue = true then st.consumeEntry pkg queue else st)
    | some r =>
      let st := st.consumeEntry pkg queue
      if status % 2 ^ 11 = 0 then .next (st.readComplete pkg { r with fine := true })
      else
        let st := st.setPkg pkg fun g => { g with nvme := g.nvme.filter fun x => !(x.queue == queue && x.cid == cid) }
        .next ((st.changeActive r.cluster r.cmd fun m =>
          if m.code = 0 then { m with code := 8, status := status % 2 ^ 11 } else m).owe (.copyCommandComplete r.cluster r.cmd))

/-- The periods of 700 MHz in a millisecond (R2). -/
def cyclesPerMs : Nat := 700000

/-- NVME_TIMEOUT: an outstanding Read older than the timeout ends its command with code 9 (R292). -/
def execNvmeTimeout (pkg queue cid : Nat) (st : State) : Out :=
  if packageLimit ≤ pkg then .fault .noSuchAgent
  else
    match (st.pkg pkg).nvme.find? fun r => r.queue == queue && r.cid == cid with
    | none => .next st
    | some r =>
      if st.time < r.since + cyclesPerMs * bits (st.nvmeWord pkg queue 5) 47 32 then .next st
      else
        let st := st.setPkg pkg fun g => { g with nvme := g.nvme.filter fun x => x.cmd != r.cmd }
        .next ((st.changeActive r.cluster r.cmd fun m => { m with code := 9, status := 0, ended := true }).owe
          (.copyCommandComplete r.cluster r.cmd))

/-- The storage address that a window offset reaches through an outstanding Read: pages after the first begin at their
frame. -/
def NvRead.place (r : NvRead) (offset : Nat) : Option Nat :=
  let i := offset / 4096 - r.window
  if offset / 4096 < r.window then none
  else
    match r.frames[i]? with
    | none => none
    | some f => some (f / 4096 * 4096 + offset % 4096)

/-- NVME_CONTROLLER_WRITE: a controller's write to the peer-to-peer window arrives as engine writes, line by line, or is
discarded where no outstanding Read has mapped the page (R291, R292). -/
def execNvmeControllerWrite (pkg offset : Nat) (data : List Byte) (st : State) : Out :=
  if packageLimit ≤ pkg then .fault .noSuchAgent
  else if data.isEmpty then .next st
  else
    let n := min data.length (64 - offset % 64)
    let rest (st : State) : State :=
      if n < data.length then st.owe (.nvmeControllerWrite pkg (offset + n) (data.drop n)) else st
    match (st.pkg pkg).nvme.find? fun r => (r.place offset).isSome with
    | none => .next (rest st)
    | some r =>
      let a := (r.place offset).getD 0
      let owner := st.privOwner a
      match st.engineWrite (cellsAt a (data.take n)) (if owner = 0 then 3 else 0) owner false [r.cmd] with
      | none => .next ((st.snoopCells (cellsAt a (data.take n)) false [r.cmd]).owe (.nvmeControllerWrite pkg offset data))
      | some st => .next (rest (st.readComplete pkg { r with landed := r.landed + n }))

/-- NVME_QUEUE_ENTRY_WRITE: a word of an entry is written; a write that sets EN resets the tail, the head and the phase;
word 7 ignores writes (R291). -/
def execNvmeQueueEntryWrite (pkg queue word value : Nat) (st : State) : Out :=
  if packageLimit ≤ pkg ∨ 64 ≤ queue then .fault .noSuchAgent
  else if 7 ≤ word then .next st
  else
    let st := st.setReg pkg (nvmeEntry queue + 8 * word) (BitVec.ofNat 64 value)
    .next (if word = 5 ∧ nbit value 63 = true then st.setReg pkg (nvmeEntry queue + 56) (BitVec.ofNat 64 (2 ^ 32)) else st)

end Sys2Proof.Machine
end

