-- ==== Sys2Proof/Machine/Courses.lean ====
section
/-!
DEFINITION. Courses (R307 to R313): the course tables of the source packages, staging at the destinations, prepare and
locks (R116, R117), decision and publication (R118, R119).
-/

namespace Sys2Proof.Machine

/-! ### The course table -/

/-- A course of a source package. -/
def State.course (st : State) (p num : Nat) : Course := tget {} (st.pkg p).courses num

/-- The state with a course changed. -/
def State.setCourse (st : State) (p num : Nat) (f : Course → Course) : State :=
  st.setPkg p fun g => { g with courses := tset {} g.courses num (f (tget {} g.courses num)) }

/-- A handle: generation and number (R307). -/
def handleOf (gen num : Nat) : Nat := gen * 2 ^ 8 + num

/-- Whether a handle has the form of R307. -/
def handleFormed (h : Nat) : Bool := h < 2 ^ 24

/-- Whether a handle names a course in one of some states for a launch (R307). -/
def State.names (st : State) (p lkey h : Nat) (ok : CourseState → Bool) : Bool :=
  let c := st.course p (h % 256)
  handleFormed h && ok c.st && c.gen == bits h 23 8 && c.lkey == lkey

/-- A free course number reserved for a launch, with its new generation, none where all 256 are taken (R308). -/
def State.reserveCourse (st : State) (p lkey : Nat) : Option Nat × State :=
  let free := (List.range 256).filter fun n => (st.course p n).st == .closed
  match free[Config.coursePick st.tick % free.length]? with
  | none => (none, st)
  | some n => (some n, st.setCourse p n fun c => { gen := (c.gen + 1) % 2 ^ 16, st := .reserved, lkey := lkey })

/-- An operation on ld that an agent answers; its return, or the arrival of its request, may be owed at once. -/
def State.issueAgent (st : State) (o : Ops) (fin : Fin) (owed : Bool) : State :=
  let seq := st.me.issued
  (st.issueOp [regS o.dst.toNat] { counter := .ld, chunk := st.chunk.id, fin := fin, pc := st.me.pc }).finish
    |> fun st => if owed then st.owe (.loadDataReturn st.cur seq) else st

/-- An operation on ld whose answer an agent gives: it is known at once, or comes later. -/
def State.issueAnswer (st : State) (o : Ops) (value : Option Word) : State :=
  st.issueAgent o (.answer o.dst.toNat value) value.isSome

/-- The answer of an agent arrives: the return of its operation is owed (R177). -/
def State.answer (st : State) (k seq : Nat) (v : Word) : State :=
  (st.setOp k seq fun o => match o.fin with
    | .answer r _ => { o with fin := .answer r (some v) }
    | _ => o).owe (.loadDataReturn k seq)

/-- CBEGIN: a number is reserved at issue and its handle returned, all ones where none is free (R308). -/
def execCbegin (o : Ops) (st : State) : Out :=
  st.scalar o.g { regs := [regS o.dst.toNat] } fun st =>
    if st.counterFull .ld then st
    else
      match st.reserveCourse (pkgOf st.cur) st.me.lkey with
      | (none, st) => st.issueAnswer o (some (BitVec.allOnes 64))
      | (some n, st) =>
        let h := handleOf (st.course (pkgOf st.cur) n).gen n
        (st.hold (.cbegin n)).issueAnswer o (some (BitVec.ofNat 64 h))

/-- STC: the handle, the address and its page are checked at issue, and the store is held until apply (R309). -/
def execStc (o : Ops) (st : State) : Out :=
  st.scalar o.g { regs := addrRegs o ++ [regS o.sc.toNat, regS o.dst.toNat] } fun st =>
    let ea := st.formed o
    let h := (st.s o.dst).toNat
    if ¬ canonical ea then st.raise causeNonCanonical ea
    else if handleFormed h = false then st.raise causeHandle h
    else if ea % o.nBytes ≠ 0 then st.raise causeAlignment ea
    else if st.counterFull .st ∨ st.acquiring then st
    else
      let id := st.chunk.id
      let m : MemOp :=
        { access := .stc, pc := st.me.pc, n := o.nBytes, vas := [ea], data := [toBytes o.nBytes (st.s o.sc).toNat],
          seq := some st.me.issued, at_ := st.chunk.writes.length, stc := some h, sv := st.me.sv }
      ((st.issueOp [] { counter := .st, chunk := id, pc := m.pc, vas := [ea] }).finish).perform st.cur id m

/-- LAY: an engine command that counts on ld; the status comes when every destination has acknowledged (R310). -/
def execLay (o : Ops) (st : State) : Out :=
  st.scalar o.g { regs := [regS o.sa.toNat, regS o.dst.toNat] } fun st =>
    let h := (st.s o.sa).toNat
    if handleFormed h = false then st.raise causeHandle h
    else if st.counterFull .ld then st
    else ((st.hold (.lay h st.me.issued)).issueAnswer o none).endChunk

/-- ABANDON: an engine command with no counter (R311). -/
def execAbandon (o : Ops) (st : State) : Out :=
  st.scalar o.g { regs := [regS o.sa.toNat] } fun st =>
    let h := (st.s o.sa).toNat
    if handleFormed h = false then st.raise causeHandle h else (st.hold (.abandon h)).finish.endChunk

/-- STATE of CSTAT (R312). -/
def CourseState.code (c : CourseState) : Nat :=
  match c with
  | .opened => 1
  | .preparing => 2
  | .deciding => 3
  | _ => 0

/-- CSTAT: the state at the source course table at execution; a malformed handle gives 0 (R312). -/
def execCstat (o : Ops) (st : State) : Out :=
  st.scalar o.g { regs := [regS o.sa.toNat, regS o.dst.toNat] } fun st =>
    let h := (st.s o.sa).toNat
    if st.counterFull .ld then st
    else
      let c := st.course (pkgOf st.cur) (h % 256)
      let x := if st.names (pkgOf st.cur) st.me.lkey h (fun s => s.code != 0) then min c.count (2 ^ 32 - 1) * 2 ^ 16 + c.st.code else 0
      st.issueAnswer o (some (BitVec.ofNat 64 x))

/-! ### Decisions -/

/-- A course is over: its number is free again, and its status goes to the LAY or to the expert's directory (R310, R332). -/
def State.endCourse (st : State) (src num : Nat) : State :=
  let c := st.course src num
  let st := st.setCourse src num fun c => { gen := c.gen }
  let st := match c.lay with
    | some (k, seq) => st.answer k seq (BitVec.ofNat 64 c.verdict)
    | none => st
  match c.expert with
  | some name => st.owe (.exupdCourseStatus name c.verdict)
  | none => st

/-- Whether a step is the report of a destination on a course. -/
def isReport (src num : Nat) (i : Instr) : Bool :=
  match i with
  | .courseReadyReport s n _ _ => s == src && n == num
  | _ => false

/-- The source decides: 0 success, 2 to 4 the failures of R310, 5 abandoned; every destination is told (R310, R311), and reports
still on the way are of a generation that is over. A package that is declared down acknowledges nothing, and is not waited for
(log 46). -/
def State.decideCourse (st : State) (src num verdict : Nat) : State :=
  let dests := ((st.course src num).dests.map fun d => d.1).filter st.answers
  let st : State := { st with due := st.due.filter fun i => !isReport src num i }
  let st := st.setCourse src num fun c => { c with st := .deciding, verdict := verdict, acks := dests }
  if dests.isEmpty then st.endCourse src num else st.oweAll (dests.map fun d => .courseDecision d src num)

/-- CBEGIN's course opens at its chunk's apply (R308). -/
def State.openCourse (st : State) (p num : Nat) : State :=
  st.setCourse p num fun c => if c.st == .reserved then { c with st := .opened } else c

/-- A course store sent to the staging buffer of the package that homes its word (R116, R309). -/
def State.sendStc (st : State) (src num addr n value strand seq : Nat) : State :=
  let dst := pkgOfAddr addr
  let (id, st) := st.fresh
  let gen := (st.course src num).gen
  let st := st.setCourse src num fun c => { c with count := c.count + 1, dests := tput c.dests dst (tget 0 c.dests dst + 1) }
  let m : StcMsg := { id := id, src := src, num := num, gen := gen, addr := addr, n := n, value := value, strand := strand, seq := seq }
  { st with stcs := st.stcs ++ [m] }.owe (.stcStagingArrival dst id)

/-- A course store at its chunk's apply: with the course not open it is discarded, and acknowledged (R116, R309). -/
def State.applyStc (st : State) (k handle addr n value seq : Nat) : State :=
  if st.names (pkgOf k) (st.strand k).lkey handle (· == .opened) then st.sendStc (pkgOf k) (handle % 256) addr n value k seq
  else st.owe (.storeAcknowledgement k seq)

/-- The prepare phase of a course begins (R310): with no course store it succeeds at once, with a rejected one it fails. -/
def State.prepareCourse (st : State) (src num : Nat) : State :=
  let c := st.course src num
  let st := st.setCourse src num fun c => { c with st := .preparing, since := st.time }
  if c.rejected then st.decideCourse src num 4
  else if c.dests.isEmpty then st.decideCourse src num 0
  else (st.oweAll (c.dests.map fun d => .coursePrepare d.1 src num)).owe (.courseTimeout src num)

/-- LAY at its chunk's apply: status 1 where the course is not open (R310). -/
def State.applyLay (st : State) (k handle seq : Nat) : State :=
  if st.names (pkgOf k) (st.strand k).lkey handle (· == .opened) then
    (st.setCourse (pkgOf k) (handle % 256) fun c => { c with lay := some (k, seq) }).prepareCourse (pkgOf k) (handle % 256)
  else st.answer k seq 1

/-- ABANDON at its chunk's apply (R311). -/
def State.applyAbandon (st : State) (k handle : Nat) : State :=
  if st.names (pkgOf k) (st.strand k).lkey handle (· == .opened) then st.decideCourse (pkgOf k) (handle % 256) 5 else st

/-- The courses that a launch left open are abandoned when its gang exits (R119, R313). -/
def State.abandonAll (st : State) (lkey : Nat) : State :=
  st.each st.pkgs fun st g =>
    st.each g.2.courses fun st c =>
      if c.2.lkey = lkey ∧ c.2.st = .opened then st.decideCourse g.1 c.1 5 else st

/-- Whether a LAY of a launch is outstanding, which holds the launch open (R313). -/
def State.laying (st : State) (lkey : Nat) : Bool :=
  st.pkgs.any fun g => g.2.courses.any fun c => c.2.lkey == lkey && c.2.lay.isSome

/-! ### The destinations -/

/-- The staged stores of a course at a destination, none held yet where there is no record. -/
def Pkg.stagingOf (g : Pkg) (src num : Nat) : Staging :=
  (g.staging.find? fun s => s.src == src && s.num == num).getD { src := src, num := num }

/-- The staged stores of a course at a destination replaced. -/
def State.setStaging (st : State) (p : Nat) (s : Staging) : State :=
  st.setPkg p fun g => { g with staging := (g.staging.filter fun x => !(x.src == s.src && x.num == s.num)) ++ [s] }

/-- The lines of staged data. -/
def Staging.lines (s : Staging) : List Nat := nubNat (s.cells.map fun c => c.1 / 64)

/-- The words of staged data. -/
def Staging.words (s : Staging) : List Nat := nubNat (s.cells.map fun c => wordOf c.1)

/-- STC_STAGING_ARRIVAL: a course store is checked against the permission table, acknowledged, and staged or marked as
overflow; the stores of one course are staged in the order of their applies (R24, R309). -/
def execStcStagingArrival (pkg id : Nat) (st : State) : Out :=
  if packageLimit ≤ pkg then .fault .noSuchAgent
  else
    match st.stcs.find? fun m => m.id == id with
    | none => .next st
    | some m =>
      if st.answers pkg = false then .next { st with stcs := st.stcs.filter fun x => x.id != id }
      else if st.stcs.any fun x => x.src == m.src && x.num == m.num && pkgOfAddr x.addr == pkg && x.id < id then
        .next (st.owe (.stcStagingArrival pkg id))
      else
        let st := { st with stcs := st.stcs.filter fun x => x.id != id }
        let st := if m.strand < strandLimit then st.owe (.storeAcknowledgement m.strand m.seq) else st
        let c := st.course m.src m.num
        if c.gen ≠ m.gen ∨ (c.st ≠ .opened ∧ c.st ≠ .preparing) then .next st
        else if st.rangeAdmits m.src m.addr 3 = false then
          let st := st.setCourse m.src m.num fun c => { c with rejected := true }
          .next (if c.st == .preparing then st.decideCourse m.src m.num 4 else st)
        else
          let g := st.pkg pkg
          let s := g.stagingOf m.src m.num
          let used := g.staging.foldl (fun n x => n + x.lines.length) 0
          let fits := s.lines.contains (m.addr / 64) || used < 1048576
          let cells := if fits then (cellsAt m.addr (toBytes m.n m.value)).foldl (fun t x => tput t x.1 x.2) s.cells else s.cells
          .next (st.setStaging pkg { s with cells := cells, arrived := s.arrived + 1, overflow := s.overflow || !fits })

/-- The key of the place that a course takes in the order of arrival for a word that it waits for (R310). -/
def courseKey (src num w : Nat) : List Nat := [1, src * 256 + num, w]

/-- The words of a course that may be locked now are locked (R117): one that another course has locked, that a chunk has gained and
not yet applied, that a piece of a write has yet to reach (R126), or that a chunk in sole-commit mode holds (R107), is waited for in
the order of arrival (R310). -/
def State.lockWords (st : State) (src num : Nat) (ws : List Nat) : State :=
  st.each ws fun st w =>
    let e := st.entry (lineOfWord w)
    let i := w % 8
    let key := courseKey src num w
    if e.locks.contains (i, src * 256 + num) then st
    else if (e.locks.any fun l => l.1 == i) || (e.tw.any fun t => t.1 == i) || (e.sole.any fun t => t.1 == i) ||
        e.split.contains i || e.posting.contains i || st.placedAfter (lineOfWord w) [i] key then
      st.takePlace (lineOfWord w) [i] key
    else
      (if e.places.any fun x => x.1 == key then st.leavePlaces key else st).setEntry (lineOfWord w) fun e =>
        { e with locks := e.locks ++ [(i, src * 256 + num)] }

/-- Whether a course holds the lock of a word. -/
def State.hasLock (st : State) (src num w : Nat) : Bool := (st.entry (lineOfWord w)).locks.contains (w % 8, src * 256 + num)

/-- COURSE_PREPARE: once the announced course stores are staged, a destination locks the words and reports ready, or reports
overflow (R310). -/
def execCoursePrepare (pkg src num : Nat) (st : State) : Out :=
  if packageLimit ≤ pkg ∨ packageLimit ≤ src then .fault .noSuchAgent
  else
    let c := st.course src num
    if c.st ≠ .preparing ∨ st.answers pkg = false then .next st
    else
      let s := (st.pkg pkg).stagingOf src num
      if s.locked then .next st
      else if s.arrived < tget 0 c.dests pkg then .next (st.owe (.coursePrepare pkg src num))
      else if s.overflow then .next ((st.setStaging pkg { s with locked := true }).owe (.courseReadyReport src num pkg 2))
      else
        let st := (st.setStaging pkg { s with prepare := true }).lockWords src num s.words
        if s.words.all (st.hasLock src num) then
          .next ((st.setStaging pkg { s with prepare := true, locked := true }).owe (.courseReadyReport src num pkg 0))
        else .next (st.owe (.coursePrepare pkg src num))

/-- The periods of 100 µs (R2, R310). -/
def courseLimit : Nat := 70000

/-- COURSE_READY_REPORT: the source decides success once every destination has reported ready within the course timeout, failure at
the first overflow; with a destination that is declared down before the decision, or a report that comes later, the course times
out (R310). -/
def execCourseReadyReport (src num dst status : Nat) (st : State) : Out :=
  if packageLimit ≤ src then .fault .noSuchAgent
  else if (st.course src num).st ≠ .preparing then .next st
  else if (st.course src num).since + courseLimit ≤ st.time then .next (st.decideCourse src num 3)
  else if status ≠ 0 then .next (st.decideCourse src num 2)
  else
    let st := st.setCourse src num fun c => { c with reports := tput c.reports dst 1 }
    let c := st.course src num
    .next (if c.dests.all fun d => (tget? c.reports d.1).isSome && st.answers d.1 then st.decideCourse src num 0 else st)

/-- COURSE_TIMEOUT: a course that is not decided 100 µs after LAY's apply fails (R310). -/
def execCourseTimeout (src num : Nat) (st : State) : Out :=
  if packageLimit ≤ src then .fault .noSuchAgent
  else
    let c := st.course src num
    if c.st ≠ .preparing then .next st
    else if st.time < c.since + courseLimit then .next (st.owe (.courseTimeout src num))
    else .next (st.decideCourse src num 3)

/-- A directory entry without the locks of a course. -/
def DirEntry.unlock (e : DirEntry) (key : Nat) : DirEntry := { e with locks := e.locks.filter fun l => l.2 != key }

/-- The locks of a course at a destination are released (R118, R119). -/
def State.unlock (st : State) (pkg src num : Nat) : State :=
  let key := src * 256 + num
  { st with dir := st.dir.filterMap fun (l, e) =>
      if pkgOfAddr (l * 64) = pkg ∧ e.unlock key = {} then none
      else some (l, if pkgOfAddr (l * 64) = pkg then e.unlock key else e) }

/-- The lines of staged data of which the publication has not gained every word yet: one is owned or updated elsewhere, or the host
holds a copy (R118). -/
def State.ungained (st : State) (s : Staging) : List (Nat × List Nat) :=
  (s.lines.map fun l => (l, indexes (s.words.filter fun w => lineOfWord w == l))).filter fun x =>
    (x.2.any fun i => let y := (st.entry x.1).state i; y != .u && y != .s) || st.needsHost x.1 true false

/-- COURSE_DECISION: on success the destination gains its staged words, which are recalled from their owners, and publishes them as
one committed chunk; the record is gone and the locks are released (R118, R119). -/
def execCourseDecision (pkg src num : Nat) (st : State) : Out :=
  if packageLimit ≤ pkg ∨ packageLimit ≤ src then .fault .noSuchAgent
  else if st.answers pkg = false then .next st
  else
    let s := (st.pkg pkg).stagingOf src num
    let wanted := st.ungained s
    if (st.course src num).verdict = 0 ∧ wanted ≠ [] then
      .next ((st.each wanted fun st x =>
        let st := st.bringWords x.1 x.2 true
        if st.needsHost x.1 true false then st.askHost x.1 true else st).owe (.courseDecision pkg src num))
    else
      let st := (st.unlock pkg src num).each s.words fun st w =>
        if (st.entry (lineOfWord w)).places.any fun x => x.1 == courseKey src num w then st.leavePlaces (courseKey src num w) else st
      let st := if (st.course src num).verdict = 0 then
          st.each s.lines fun st l =>
            let owner := st.privOwner (l * 64)
            st.writeLine l (s.cells.filter fun c => c.1 / 64 == l) (if owner = 0 then 3 else 0) owner none none
        else st
      .next ((st.setPkg pkg fun g =>
        { g with staging := g.staging.filter fun x => !(x.src == src && x.num == num) }).owe (.courseDecisionAck src num pkg))

/-- COURSE_DECISION_ACK: with the last acknowledgement the number is free and the status returns (R310). -/
def execCourseDecisionAck (src num dst : Nat) (st : State) : Out :=
  if packageLimit ≤ src then .fault .noSuchAgent
  else if (st.course src num).st ≠ .deciding then .next st
  else
    let st := st.setCourse src num fun c => { c with acks := c.acks.filter (· != dst) }
    .next (if (st.course src num).acks.isEmpty then st.endCourse src num else st)

end Sys2Proof.Machine
end

