-- ==== Sys2Proof/Machine/Messages.lean ====
section
/-!
DEFINITION. What a run sends and leaves: bricks (R143, R144, R211, R212, R306), messages (R298 to R301), the handler table
(R139, R302) and regions (R305).
-/

namespace Sys2Proof.Machine

/-! ### Bricks -/

/-- Word 0 of a brick that a strand writes (R143, R144). -/
def State.brickHead (st : State) (k : Nat) (res : Word) : Nat :=
  let e := st.epid k
  let t := st.strand k
  bits e 11 9 * 2 ^ 61 + bits e 8 4 * 2 ^ 56 + bits res.toNat 55 6 * 2 ^ 6 + (if t.info.ord then 32 else 0) +
    (if t.sv then 16 else 0) + bits res.toNat 2 0

/-- Word 7 of a brick: PRI, STATE, CHAN and LINK (R143, R144). -/
def brickTail (pri state chan join : Nat) : Nat := pri * 2 ^ 61 + state * 2 ^ 58 + chan * 2 ^ 52 + bits join 55 4

/-- The eight words of a brick that the acting strand writes: for an ordered run, the s4 word holds its timestamp
(R144). -/
def State.brickWords (st : State) (res : Word) (state join : Nat) : List (List Byte) :=
  let t := st.me
  let saved (i : Nat) : Nat := if i = 4 ∧ t.info.ord = true then t.info.ts else (t.regs.getS i).toNat
  (toBytes 8 (st.brickHead st.cur res) :: (rangeFrom 1 6).map fun i => toBytes 8 (saved i)) ++
    [toBytes 8 (brickTail t.info.pri state t.info.chan join)]

/-- The registers that a brick saves. -/
def brickRegs : List Nat := (rangeFrom 1 6).map regS

/-- A brick or join is looked up at issue: a missing translation makes the instruction wait, with one park for the page;
a failed check, or a class other than PRIV, HOME and SPAN, of a page or of a bound window, traps (R212). -/
def State.withPlace (st : State) (va n : Nat) (acc : Access) (body : Spot → State → State) : State :=
  let who : Who := { k := st.cur, id := st.chunk.id, sv := st.me.sv, tag := st.issueTag }
  match st.resolveOne who st.chunk.writes.length va n acc true (fun a => rangeFrom a n) with
  | (.trap c a, t) => t.raise c a
  | (.miss _, t) => t
  | (.ok s, t) => body s (t.taken (sourceCore (coreOf t.cur)) who.tag)

/-- The package that homes a resolved place. -/
def State.packageOf (st : State) (s : Spot) : Nat :=
  let a := (s.locs.headD (0, 0)).1
  pkgOfAddr (if isPool a then (st.windowPhys a).getD 0 else a)

/-- Whether a package is that of a stage of a strand's launch (R144, R212). -/
def State.isStage (st : State) (k p : Nat) : Bool :=
  match st.launchOf k with
  | some l => (List.range l.stages).any fun v => l.package v == some p
  | none => p == pkgOf k

/-- The brick's stores, which belong to the suspending chunk, and the end of the run (R211, R212). -/
def State.writeBrick (st : State) (brick : Nat) (words : List (List Byte)) (h : Option Held) : State :=
  let id := st.chunk.id
  let m : MemOp :=
    { access := .store, pc := st.me.pc, n := 8, vas := (List.range 8).map fun i => brick + 8 * i, data := words, join := true,
      at_ := st.chunk.writes.length, sv := st.me.sv }
  let st := st.setChunk fun c => { c with writes := c.writes ++ m.vas.map fun _ => {} }
  let waits := match h with
    | some (.enqueue _ _) => false
    | _ => true
  let st := st.hold (.suspend brick waits)
  let st := match h with
    | some h => st.hold h
    | none => st
  (st.endRun).perform st.cur id m

/-- The join read that a SUSP has under way. -/
def State.joinRead (st : State) : Option OutOp :=
  st.me.ops.find? fun o => o.counter == .ld && o.fin == .none && o.chunk == st.chunk.id && o.pc == st.me.pc

/-- A SUSP reads its join, as a load of its own chunk: the instruction waits for the data, which no counter's return
writes (R146, R212). -/
def State.readJoin (st : State) (join : Nat) (body : Nat → State → State) : State :=
  match st.joinRead with
  | some o =>
    if o.need.isEmpty && !o.locs.isEmpty then
      body (bits (o.value 0) 63 50) (st.setMe fun t => { t with ops := t.ops.filter fun x => !(x.counter == .ld && x.seq == o.seq) })
    else st
  | none =>
    let m : MemOp :=
      { access := .load, pc := st.me.pc, n := 8, vas := [join], join := true, seq := some st.me.issued,
        at_ := st.chunk.writes.length, sv := st.me.sv }
    (st.issueOp [] { counter := .ld, chunk := st.chunk.id, pc := m.pc, vas := [join] }).perform st.cur st.chunk.id m

/-- Whether the brick's line has room in the version buffer (R97). -/
def State.brickFits (st : State) (brick : Nat) (body : State → State) : State :=
  st.whenFits
    { access := .store, pc := st.me.pc, n := 8, vas := (List.range 8).map fun i => brick + 8 * i, join := true, sv := st.me.sv } body

/-- The common form of SUSP and SUSP.MSG: the stall for ld, the checks of R212 in their order, the read of the join, and
the brick. A resume PC outside the canonical range traps with the instruction's own PC as address (log 52, DESIGN CHOICE). -/
def State.suspend (st : State) (o : Ops) (msg : Bool) : Out :=
  st.scalar o.g { regs := [regS o.sa.toNat, regS o.sb.toNat] ++ brickRegs } fun st =>
    let brick := (st.s o.sa).toNat
    let join := (st.s o.sb).toNat
    let finish (cnt : Option Nat) (st : State) : State :=
      match slotAdd st.me.pc (Ops.immWord o).toInt with
      | none => st.raise causeNonCanonical st.me.pc.toNat
      | some res =>
        let waits := msg || (match cnt with
          | some n => n != 0
          | none => false)
        st.writeBrick brick (st.brickWords res (if waits then 1 else 2) join)
          (if waits then none else some (.enqueue brick st.me.info.pri))
    if st.joinRead.isNone ∧ st.me.count .ld ≠ 0 then st
    else if brick % 64 ≠ 0 ∨ join % 16 ≠ 0 then st.raise causeAlignment brick
    else
      st.withPlace brick 64 .store fun spot st =>
        let homed (st : State) (body : State → State) : State :=
          if st.isStage st.cur (st.packageOf spot) = false then st.raise causeClass brick else st.brickFits brick body
        if join = 0 then homed st (finish none)
        else
          st.withPlace join 8 .load fun _ st =>
            homed st fun st => st.readJoin join fun cnt st => finish (some cnt) st

/-- SUSP (R212). -/
def execSusp (o : Ops) (st : State) : Out := st.suspend o false

/-- SUSP.MSG: the brick waits for a message that names it (R147, R212). -/
def execSuspMsg (o : Ops) (st : State) : Out := st.suspend o true

/-- QWAIT: a brick in STATE 4, enqueued when its region is declared quiescent (R152, R306). A resume PC outside the canonical range
traps with the instruction's own PC as address (log 52, DESIGN CHOICE). -/
def execQwait (o : Ops) (st : State) : Out :=
  st.scalar o.g { regs := regS o.sa.toNat :: brickRegs } fun st =>
    let brick := (st.s o.sa).toNat
    if st.me.count .ld ≠ 0 then st
    else if brick % 64 ≠ 0 then st.raise causeAlignment brick
    else
      st.withPlace brick 64 .store fun spot st =>
        if st.isStage st.cur (st.packageOf spot) = false then st.raise causeClass brick
        else
          st.brickFits brick fun st =>
            match slotAdd st.me.pc (Ops.immWord o).toInt with
            | none => st.raise causeNonCanonical st.me.pc.toNat
            | some res => st.writeBrick brick (st.brickWords res 4 0) (some (.qwait brick (o.modBits 51 48)))

/-! ### Messages -/

/-- The payload of a message: byte j is byte j mod 4 of lane j div 4 (R300). -/
def State.payload (st : State) (r : BitVec 6) (len : Nat) : List Byte :=
  (List.range len).map fun j => (st.me.regs.getLane r.toNat (j / 4)).extractLsb' (8 * (j % 4)) 8

/-- The trap of the first target that fails a check of R300, with its address. -/
def State.badTarget (st : State) (ts : List Nat) : Option (Nat × Nat) :=
  ts.findSome? fun t =>
    match st.launchOf st.cur with
    | none => if nbit t 23 then none else if epidReserved t then some (causeEndpoint, t) else some (causeAbsent, t)
    | some l =>
      match l.resolve t with
      | .reserved => some (causeEndpoint, t)
      | .absent => some (causeAbsent, t)
      | .stranger => some (causeEndpoint, t)
      | _ => none

/-- The timestamp of an ordered message (R108, R301), none where it is too low. -/
def State.ordered (st : State) (t : Nat) : Option Nat :=
  if st.me.ordered then some (max t (st.me.info.ts + 1))
  else if t < ((st.launchOf st.cur).map fun l => l.horizon.1).getD 0 then none
  else some t

/-- The registers of a message form other than its targets: the timestamp and the payload. -/
def messageRegs (o : Ops) : List Nat :=
  (if o.modBit 58 then [regS o.dst.toNat] else []) ++ (if o.immBits 14 8 = 0 then [] else [regV o.sc.toNat])

/-- The v register of a payload that the launch has not been allotted (R176). -/
def State.messageLack (st : State) (o : Ops) : Option Nat := if o.immBits 14 8 = 0 then none else st.lackV [o.sc]

/-- Messages to targets held until the commit point, once every check has passed (R300). `bad` is a check that an earlier
rule makes of the form itself. -/
def State.sendTo (st : State) (o : Ops) (bad : Option (Nat × Nat)) (ts : List Nat) : State :=
  match bad.orElse fun _ => st.badTarget ts with
  | some (c, a) => st.raise c a
  | none =>
    let len := o.immBits 14 8
    let payload := st.payload o.sc len
    let go (time : Option Nat) : State :=
      let st := ts.foldl (fun (st : State) t => st.hold (.msg t (o.immBits 5 0) payload len (o.modBits 51 48) time)) st
      if o.modBit 59 then st.finish.endChunk else st.finish
    if ts ≠ [] ∧ o.modBit 58 = true then
      let t := (st.s o.dst).toNat
      match st.ordered t with
      | some x => go (some x)
      | none => st.raise causeTimestamp t
    else go none

/-- SEND: one message, to an endpoint, an expert name or a brick (R299); the timestamp of an ordered one is judged in every form
(R300, R301). -/
def execSend (o : Ops) (st : State) : Out :=
  st.scalar o.g { regs := regS o.sa.toNat :: messageRegs o, lack := st.messageLack o } fun st =>
    let t := (st.s o.sa).toNat
    if o.modBit 57 then
      if t % 64 ≠ 0 then st.raise causeAlignment t
      else if o.modBit 58 = true ∧ st.ordered (st.s o.dst).toNat = none then st.raise causeTimestamp (st.s o.dst).toNat
      else
        let st := (st.hold (.brickMsg t (o.modBits 51 48))).finish
        if o.modBit 59 then st.endChunk else st
    else st.sendTo o none [t % 2 ^ 24]

/-- The targets of SENDM in ascending bit order: the base with one field replaced, none where the bit names no value of
the field (R299). -/
def sendmTargets (kind base mask : Nat) : List (Nat ⊕ Nat) :=
  ((List.range 64).filter (nbit mask)).map fun i =>
    match kind with
    | 0 =>
      let p := bits base 22 13 + i
      if 1023 < p then .inr base else .inl (base - bits base 22 13 * 2 ^ 13 + p * 2 ^ 13)
    | 1 => if 15 < i then .inr base else .inl (base - bits base 3 0 + i)
    | _ => if 17 < i then .inr base else .inl (base - bits base 8 4 * 16 + i * 16)

/-- The targets of a SENDM up to the first bit that names none, and the trap of that bit; its address is the base
(log 30). -/
def sendmSplit (xs : List (Nat ⊕ Nat)) : List Nat × Option (Nat × Nat) :=
  match xs with
  | [] => ([], none)
  | .inl t :: rest =>
    let r := sendmSplit rest
    (t :: r.1, r.2)
  | .inr b :: _ => ([], some (causeEndpoint, b))

/-- SENDM: one message for each bit of the mask, in ascending order; a zero mask has no further effect (R299). -/
def execSendm (o : Ops) (st : State) : Out :=
  st.scalar o.g { regs := regS o.sa.toNat :: regS o.sb.toNat :: messageRegs o, lack := st.messageLack o } fun st =>
    let base := (st.s o.sa).toNat % 2 ^ 24
    let mask := (st.s o.sb).toNat
    if mask = 0 then st.finish
    else if nbit base 23 then st.raise causeEndpoint base
    else
      let r := sendmSplit (sendmTargets (o.modBits 56 55) base mask)
      st.sendTo o ((st.badTarget r.1).orElse fun _ => r.2) r.1

/-- SEND.NX: the same die, cluster and core at the next stage (R154, R299). From the last stage it traps before the other
checks of its target (log 31). -/
def execSendNx (o : Ops) (st : State) : Out :=
  st.scalar o.g { regs := messageRegs o, lack := st.messageLack o } fun st =>
    let stages := ((st.launchOf st.cur).map fun l => l.stages).getD 1
    let e := st.epid st.cur
    let stage := ((st.launchOf st.cur).map fun l => l.stageOf (clusterOf st.cur)).getD 0
    let bad := if stages ≤ stage + 1 then some (causeNoStage, st.me.pc.toNat) else none
    st.sendTo o bad [(e + 2 ^ 13) % 2 ^ 23]

/-! ### The handler table and regions -/

/-- HSET: the value's reserved bits, then its SV, are judged at issue; the entry is written at apply (R302). -/
def execHset (o : Ops) (st : State) : Out :=
  st.scalar o.g { regs := [regS o.sa.toNat] } fun st =>
    let x := st.s o.sa
    if bits x.toNat 57 56 ≠ 0 then st.raise causeIllegal st.me.pc.toNat
    else if nbit x.toNat 58 ∧ st.me.sv = false then st.raise causePrivilege 0
    else (st.hold (.hset (o.immBits 5 0) x)).finish

/-- HMASK (R302). -/
def execHmask (o : Ops) (st : State) : Out :=
  st.scalar o.g { regs := [regS o.sa.toNat] } fun st => (st.hold (.hmask (st.s o.sa) true)).finish

/-- HUNMASK (R302). -/
def execHunmask (o : Ops) (st : State) : Out :=
  st.scalar o.g { regs := [regS o.sa.toNat] } fun st => (st.hold (.hmask (st.s o.sa) false)).finish

/-- QOPEN: counted at apply, when the region enters the run's set (R305). -/
def execQopen (o : Ops) (st : State) : Out :=
  st.scalar o.g {} fun st => (st.hold (.qopen (o.modBits 51 48))).finish

/-! ### At apply -/

/-- A message of a strand's chunk is sent at its apply (R106, R300). -/
def State.sendHeld (st : State) (k target chan : Nat) (payload : List Byte) (len q : Nat) (ts : Option Nat) : State :=
  match st.launchOf k with
  | none => st
  | some l =>
    st.post
      { id := 0, lkey := l.lkey, src := coreOf k, srcId := l.epid (coreOf k), target := target, dst := none, chan := chan,
        payload := payload, len := len, q := some q, ts := ts.getD st.time, ord := ts.isSome } (l.resolve target) (coreOf k)

/-- A message that names a brick is sent (R147, R300). -/
def State.sendBrick (st : State) (k addr q : Nat) : State :=
  match st.launchOf k with
  | none => st
  | some l =>
    st.post
      { id := 0, lkey := l.lkey, src := coreOf k, srcId := l.epid (coreOf k), target := 0, dst := none, brick := some addr,
        chan := 0, payload := [], len := 0, q := some q, ts := st.time, ord := false } .absent (coreOf k)

/-- The handler table of the bank of a strand changed in one entry. -/
def State.setHandler (st : State) (k chan : Nat) (x : Word) : State :=
  st.setBank (bankOf k) fun b => { b with handlers := tset 0 b.handlers chan x }

/-- MASK set or cleared in the entries of a mask (R302). -/
def State.maskHandlers (st : State) (k : Nat) (mask : Word) (on : Bool) : State :=
  st.each ((List.range 64).filter (nbit mask.toNat)) fun st c =>
    let x := tget 0 (st.bank (bankOf k)).handlers c
    st.setHandler k c (if on then x ||| ((1 : Word) <<< 59) else x &&& ~~~((1 : Word) <<< 59))

/-- QOPEN at apply: a region that is neither in the set nor that of the run's message enters the set, and one message is
counted as sent in it (R305). -/
def State.openRegion (st : State) (k q : Nat) : State :=
  let t := st.strand k
  if t.info.qset.contains q ∨ t.info.region = some q then st
  else (st.setStrand k fun t => { t with info := { t.info with qset := t.info.qset ++ [q] } }).countSent (coreOf k) t.lkey q

end Sys2Proof.Machine
end

