-- ==== Sys2Proof/Machine/Experts.lean ====
section
/-!
DEFINITION. The expert directories (R314 to R319, R323 to R327, R330 to R345, R402, R403): descriptors, token routing, the
spill ring, replica copies, joins and updates. The events of an expert are processed one at a time in their order of arrival, and
each acts on the descriptor as one step (R318), once its own accesses to memory, each a step of its own, are made (log 36).
-/

namespace Sys2Proof.Machine

/-! ### Words -/

/-- The words of some bytes. -/
def wordsIn (bs : List Byte) : List Nat := (List.range (bs.length / 8)).map fun i => fromBytes ((bs.drop (8 * i)).take 8)

/-- The bytes of some words. -/
def bytesOf (ws : List Nat) : List Byte := ws.flatMap (toBytes 8)

/-! ### Descriptors -/

/-- A field of a descriptor word replaced. -/
def Expert.setField (e : Expert) (i hi lo v : Nat) : Expert :=
  let w := e.word i
  { e with words := tset 0 e.words i (w - bits w hi lo * 2 ^ lo + v % 2 ^ (hi + 1 - lo) * 2 ^ lo) }

/-- VERSION (R316). -/
def Expert.version (e : Expert) : Nat := bits (e.word 2) 63 32

/-- STEP (R316). -/
def Expert.stepNo (e : Expert) : Nat := bits (e.word 2) 31 16

/-- UPD (R316). -/
def Expert.updating (e : Expert) : Bool := nbit (e.word 2) 2

/-- CLOSED (R316). -/
def Expert.closed (e : Expert) : Bool := nbit (e.word 2) 1

/-- STARVED (R316). -/
def Expert.starved (e : Expert) : Bool := nbit (e.word 2) 0

/-- COMP (R316). -/
def Expert.compresses (e : Expert) : Bool := nbit (e.word 0) 61

/-- ROUTEQ (R316). -/
def Expert.routeQ (e : Expert) : Nat := bits (e.word 0) 51 48

/-- OWNER (R316). -/
def Expert.owner (e : Expert) : Nat := bits (e.word 0) 47 24

/-- SPTAIL less SPHEAD (R316). -/
def Expert.spilled (e : Expert) : Nat := (bits (e.word 5) 31 0 + 2 ^ 32 - bits (e.word 5) 63 32) % 2 ^ 32

/-- MEMBER (R316). -/
def Expert.member (e : Expert) : Nat := bits (e.word 6) 63 32

/-- CONTRIB (R316). -/
def Expert.contrib (e : Expert) : Nat := bits (e.word 6) 31 0

/-- ARRN (R316). -/
def Expert.arrivals (e : Expert) : Nat := bits (e.word 11) 45 40

/-- STATE of a replica entry: 0 free, 1 warming, 2 active, 3 draining (R317). -/
def Expert.state (e : Expert) (i : Nat) : Nat := bits (e.word (16 + 2 * i)) 63 62

/-- EP of a replica entry (R317). -/
def Expert.ep (e : Expert) (i : Nat) : Nat := bits (e.word (16 + 2 * i)) 23 0

/-- RCHAN of a replica entry (R317). -/
def Expert.rchan (e : Expert) (i : Nat) : Nat := bits (e.word (16 + 2 * i)) 61 56

/-- CAP of a replica entry (R317). -/
def Expert.cap (e : Expert) (i : Nat) : Nat := bits (e.word (16 + 2 * i)) 55 40

/-- USED of a replica entry (R317). -/
def Expert.used (e : Expert) (i : Nat) : Nat := bits (e.word (16 + 2 * i)) 39 24

/-- BUF of a replica entry (R317). -/
def Expert.buf (e : Expert) (i : Nat) : Nat := bits (e.word (17 + 2 * i)) 55 0

/-- A replica entry's state set. -/
def Expert.setState (e : Expert) (i s : Nat) : Expert := e.setField (16 + 2 * i) 63 62 s

/-- The replica entries in one state, ascending. -/
def Expert.inState (e : Expert) (s : Nat) : List Nat := (List.range 32).filter fun i => e.state i == s

/-- The state with an expert changed, if it is defined. -/
def State.setExpert (st : State) (name : Nat) (f : Expert → Expert) : State :=
  match tget? st.experts name with
  | some e => { st with experts := tput st.experts name (f e) }
  | none => st

/-- The number of a job of a directory's own for an expert: the copy of replica entry `k`, with 32 the routing of the ring, and
with 33 the end of a load window. -/
def dirJob (name k : Nat) : Nat := 2 ^ 96 + 64 * name + k

/-- The context of the accesses of an expert's serving directory, agent 0x001 of its I/O die (R10, R314), in some job. -/
def Expert.ctx (e : Expert) (name job : Nat) : EngCtx :=
  { source := sourceIo (2 * e.pkg + name % 2) 1, lkey := e.lkey, sv := false, strand := 0, cmd := job }

/-- The virtual package of a physical one where it is a stage of the launch, else the physical number (R140). -/
def State.vpackage (st : State) (lkey p : Nat) : Nat :=
  match st.launch lkey with
  | some l => ((List.range l.stages).find? fun v => l.package v == some p).getD p
  | none => p

/-- A message from an agent of an I/O die to an endpoint of a launch, counted as sent in a region. -/
def State.postFrom (st : State) (lkey pkg iod agent target chan : Nat) (payload : List Byte) (q : Nat) : State :=
  match st.launch lkey with
  | none => st
  | some l =>
    st.post
      { id := 0, lkey := lkey, src := strandLimit + 2 * pkg + iod, srcId := epidOf (st.vpackage lkey pkg) (8 + iod) 0 0 + agent,
        target := target, dst := none, chan := chan, payload := payload, len := payload.length, q := some q, ts := st.time,
        ord := false } (l.resolve target) (st.countCore lkey)

/-- A message from an expert's serving directory, agent 0x001 (R140, R402). -/
def State.fromDirectory (st : State) (name target chan : Nat) (payload : List Byte) (q : Nat) : State :=
  match tget? st.experts name with
  | none => st
  | some e => st.postFrom e.lkey e.pkg (name % 2) 1 target chan payload q

/-- An event sent to the owner (R327). -/
def State.expertEvent (st : State) (name kind : Nat) : State :=
  match tget? st.experts name with
  | none => st
  | some e =>
    st.fromDirectory name e.owner (bits (e.word 0) 59 54)
      (bytesOf [kind * 2 ^ 56 + name, e.version * 2 ^ 32 + e.stepNo]) e.routeQ

/-! ### Events -/

/-- The step that takes up an event of an expert. -/
def ExEvent.step (name : Nat) : ExEvent → Instr
  | .token msg => .tokenArrival msg
  | .command cmd => .contributionArrival name cmd
  | .window _ => .replicaCopyComplete name 33
  | .copied i _ => .replicaCopyComplete name i
  | .joined cmd => .contributionArrival name cmd
  | .course _ status => .exupdCourseStatus name status
  | .spill => .replicaCopyComplete name 32

/-- The event of an expert that is being processed (R318). -/
def State.eventOf (st : State) (name : Nat) : Option ExEvent := (tget? st.experts name).bind fun e => e.queue.head?

/-- The event that is being processed goes on later. -/
def State.eventAgain (st : State) (name : Nat) : State :=
  match st.eventOf name with
  | some v => st.owe (v.step name)
  | none => st

/-- The event that is being processed ends, and the next one is taken up (R318). -/
def State.endEvent (st : State) (name : Nat) : State :=
  (st.setExpert name fun e => { e with queue := e.queue.tail }).eventAgain name

/-- Events that follow at once the one that is being processed. -/
def State.insertEvents (st : State) (name : Nat) (vs : List ExEvent) : State :=
  st.setExpert name fun e => { e with queue := e.queue.take 1 ++ vs ++ e.queue.drop 1 }

/-- An event has arrived: it takes its place behind those before it (R318). -/
def State.joinQueue (st : State) (name : Nat) (v : ExEvent) : State :=
  st.setExpert name fun e => if e.queue.contains v then e else { e with queue := e.queue ++ [v] }

/-- An event that arrives within the step of another agent. -/
def State.queueEvent (st : State) (name : Nat) (v : ExEvent) : State :=
  let st := st.joinQueue name v
  if st.eventOf name = some v then st.owe (v.step name) else st

/-! ### Pins and replica copies -/

/-- Whether a buffer may be pinned at the directory that homes it (R317): it is not pinned, and fewer than 4,096 are. -/
def State.pinFree (st : State) (a : Nat) : Bool :=
  let pins := (st.pkg (pkgOfAddr a)).pins
  pins.length < 4096 && !(pins.any fun p => p.1 == a)

/-- A replica's pin released (R319). -/
def State.unpin (st : State) (name i : Nat) : State :=
  { st with pkgs := st.pkgs.map fun g => (g.1, { g.2 with pins := g.2.pins.filter fun p => p.2 != 32 * name + i }) }

/-- A replica entry becomes free (R319): its copy ends, and an EXUPD that waited for it goes on (R332). -/
def State.freeReplica (st : State) (name i : Nat) : State :=
  let st := ((st.unpin name i).setExpert name fun e =>
    { (e.setState i 0) with
      copying := e.copying.filter (· != i)
      grows := e.grows.filter fun g => g.1 != i
      queue := e.queue.take 1 ++ (e.queue.drop 1).filter fun v => match v with
        | .copied j _ => j != i
        | _ => true }).endJob (dirJob name i)
  match (tget? st.experts name).bind fun e => e.upd with
  | some id => st.owe (.contributionArrival name id)
  | none => st

/-- The copies of warming replicas begin when no update is in progress (R319, R332). -/
def State.beginCopies (st : State) (name : Nat) : State :=
  match tget? st.experts name with
  | none => st
  | some e =>
    if e.updating then st
    else
      let new := (e.inState 1).filter fun i => !e.copying.contains i
      (st.setExpert name fun e => { e with copying := e.copying ++ new }).oweAll (new.map fun i => .replicaCopyComplete name i)

/-- What the search for an entry to grow comes to. -/
inductive Grow where
  | entry (i a : Nat)
  | none
  | code (c : Nat)
  | wait (lost : Bool)
  deriving DecidableEq, Repr

/-- The first of some entries whose buffer pin can be taken, with the buffer's address (R317, R319); `named` says that a failed
check of a buffer is reported (R340). -/
def State.findGrow (st : State) (name job : Nat) (named : Bool) : List Nat → Grow × State
  | [] => (.none, st)
  | i :: rest =>
    match tget? st.experts name with
    | none => (.none, st)
    | some e =>
      match st.engineAt (e.ctx name job) (e.buf i) .engineWrite with
      | .wait l st => (.wait l, st)
      | .code c st => if named then (.code c, st) else st.findGrow name job named rest
      | .ok p st => if st.pinFree p.a then (.entry i p.a, st) else st.findGrow name job named rest

/-- An entry grows: its pin is taken, it is warming, and its copy begins (R319). -/
def State.takeGrow (st : State) (name i a : Nat) (cmd : Option Nat) : State :=
  let st := st.setPkg (pkgOfAddr a) fun g => { g with pins := g.pins ++ [(a, 32 * name + i)] }
  (st.setExpert name fun e =>
    { (e.setState i 1) with grows := match cmd with
        | some c => e.grows ++ [(i, c)]
        | none => e.grows }).beginCopies name

/-- The free entries that can serve, ascending (R317). -/
def Expert.growable (e : Expert) : List Nat := (e.inState 0).filter fun i => e.ep i != 0

/-- What the directory does where a token or the ring finds no replica active: where none is warming either, it is to grow an
entry, or to send a starvation event (R324). -/
inductive Lack where
  | nothing
  | starved
  | grow (i a : Nat)
  deriving DecidableEq, Repr

/-- What the directory is to do where no replica is active (R324); the descriptor is as before. -/
def State.lackOf (st : State) (name job : Nat) : Eng Lack :=
  match tget? st.experts name with
  | none => .ok .nothing st
  | some e =>
    if (e.inState 2).isEmpty && (e.inState 1).isEmpty then
      match st.findGrow name job false e.growable with
      | (.entry i a, st) => .ok (.grow i a) st
      | (.wait l, st) => .wait l st
      | (_, st) => .ok (if e.starved then .nothing else .starved) st
    else .ok .nothing st

/-- The directory grows, or sends its starvation event (R324). -/
def State.meetLack (st : State) (name : Nat) : Lack → State
  | .nothing => st
  | .starved => (st.setExpert name fun e => e.setField 2 0 0 1).expertEvent name 1
  | .grow i a => st.takeGrow name i a none

/-! ### Deliveries -/

/-- Word 4 of a delivery or notice (R323). -/
def deliveryWord (version notice second rslot name : Nat) : Nat :=
  version * 2 ^ 32 + notice * 2 ^ 29 + second * 2 ^ 28 + rslot * 2 ^ 23 + name

/-- A token record delivered to a replica (R323, R324). -/
def State.deliver (st : State) (name i : Nat) (record : List Nat) (second q : Nat) : State :=
  match tget? st.experts name with
  | none => st
  | some e =>
    let ws := [record.getD 0 0, record.getD 1 0, record.getD 2 0, record.getD 3 0,
      deliveryWord e.version 0 second i name, record.getD 5 0, record.getD 6 0, record.getD 7 0]
    let st := st.setExpert name fun e =>
      let e := e.setField (16 + 2 * i) 39 24 (min 65535 (e.used i + 1))
      let e := e.setField 6 63 32 (if nbit e.member i then e.member else e.member + 2 ^ i)
      { e with window := tset 0 e.window i (tget 0 e.window i + 1) }
    st.fromDirectory name (e.ep i) (e.rchan i) (bytesOf ws) q

/-- The region of an arriving message written into a token record (R323). -/
def withRegion (record : List Nat) (q : Nat) : List Nat :=
  let w := record.getD 2 0
  record.set 2 (w - bits w 38 35 * 2 ^ 35 + q % 16 * 2 ^ 35)

/-- The member of a list with the least value, the lowest on a tie. -/
def leastBy (f : Nat → Nat) : List Nat → Option Nat
  | [] => none
  | x :: xs =>
    match leastBy f xs with
    | some y => if f y < f x then some y else some x
    | none => some x

/-- DROP bit SLOT set in a combine record by an atomic OR at its home (R96, R324). A record that fails a check is not written. -/
def State.setDrop (st : State) (x : EngCtx) (comb slot : Nat) : Eng Unit :=
  match st.pagesOf x (comb + 9) 1 .amo with
  | .code _ st => .ok () st
  | .wait l st => .wait l st
  | .ok ps st =>
    match ps with
    | (p, _) :: _ =>
      if st.engineReady p.a 1 true p.pcie x.key then
        let st := (st.settle (p.a / 64) [wordOf p.a % 8] true).leavePlaces x.key
        .ok () ((st.writeLine (p.a / 64) [(p.a, st.homeByte p.a ||| (1 <<< slot))] p.cls p.owner none none p.pcie).noteAtomic (p.a / 64))
      else .wait false (st.snoopFor p.a 1 true p.pcie x.key)
    | [] => .ok () st

/-! ### Tunnels -/

/-- A word of the route entry of a domain (R380). -/
def State.routeWord (st : State) (p d i : Nat) : Word := st.reg p (0x120000 + 64 * d + 8 * i)

/-- Whether the Gixis and Ethernet ports of a package serve: they are trained at service level 3 (R384). At level 0, which the table
does not describe, the package is as at level 3 (log 89). -/
def Pkg.trained (g : Pkg) : Bool := g.level != 1 && g.level != 2

/-- The exit of a domain's route (R380): its package, its gateway and its port; an entry with a nonzero reserved bit counts as
V = 0, and an exit whose ports are not trained carries nothing yet (R384). -/
def State.exitOf (st : State) (p d : Nat) : Option (Nat × Nat × Nat) :=
  let w (i : Nat) : Nat := (st.routeWord p d i).toNat
  let w0 := w 0
  if nbit w0 63 && bits w0 62 42 == 0 && bits w0 31 20 == 0 && bits w0 15 3 == 0 && bits (w 3) 63 48 == 0 &&
      bits (w 6) 63 16 == 0 && w 7 == 0 && (st.pkg (bits w0 41 32)).trained then
    some (bits w0 41 32, 16 * (bits w0 2 0 / 4) + bits w0 19 16, bits w0 2 0)
  else none

/-- The exit package of a domain's route (R380). -/
def State.routeOf (st : State) (p d : Nat) : Option Nat := (st.exitOf p d).map fun x => x.1

/-- A package's tunnel to a domain. -/
def State.tunnel (st : State) (p d : Nat) : Tunnel := tget {} (st.pkg p).tunnels d

/-- A package's tunnel changed. -/
def State.setTunnel (st : State) (p d : Nat) (f : Tunnel → Tunnel) : State :=
  st.setPkg p fun g => { g with tunnels := tset {} g.tunnels d (f (tget {} g.tunnels d)) }

/-- Some bytes cut or filled with zeros to a length. -/
def exactly (n : Nat) (bs : List Byte) : List Byte := (bs ++ List.replicate n 0).take n

/-- The flits of an item (R380): a flit that crosses is one, and another item has at least one. -/
def TunnelItem.flits (x : TunnelItem) : List (List Byte) :=
  if x.flit then [exactly 256 x.bytes]
  else
    match Config.itemFlits x.bytes with
    | [] => [exactly 256 []]
    | f :: fs => (f :: fs).map (exactly 256)

/-- A datagram of some flits, made by the route entry of a package (R380). -/
def State.datagram (st : State) (p d seq : Nat) (fs : List (List Byte)) (count : Option (Nat × Nat)) : Datagram :=
  { seq := seq, port := bits (st.routeWord p d 0).toNat 2 0,
    bytes := exactly 16 (Config.tunnelHeaderBytes (Config.ownDomain % 64) d seq fs.length) ++ fs.flatMap id
    dest := [st.routeWord p d 1, st.routeWord p d 2], hop := bits (st.routeWord p d 3).toNat 47 0
    source := [st.routeWord p d 4, st.routeWord p d 5], sport := bits (st.routeWord p d 6).toNat 15 0, count := count }

/-- The datagrams that carry an item from a sequence number on: each has up to eight flits, and the last one counts the item (R380;
log 35). -/
def State.datagrams (st : State) (p d seq : Nat) (x : TunnelItem) : List Datagram :=
  let fs := x.flits
  let n := (fs.length + 7) / 8
  (List.range n).map fun i =>
    st.datagram p d ((seq + i) % 2 ^ 32) ((fs.drop (8 * i)).take 8) (if i + 1 = n then x.count else none)

/-- An item sent toward another domain: in datagrams of the exit package's tunnel, by the port and with the addresses of the route
entry, or held at its gateway while no route is valid (R380). -/
def State.toDomain (st : State) (p d : Nat) (x : TunnelItem) : State :=
  match st.routeOf p d with
  | some e =>
    let ds := st.datagrams p d (st.tunnel e d).next x
    st.setTunnel e d fun t =>
      { t with next := (t.next + ds.length) % 2 ^ 32, store := t.store ++ ds, out := t.out ++ ds }
  | none => st.setTunnel p d fun t => { t with held := t.held ++ [x] }

/-- The traffic held at a gateway for a domain goes out in order once there is a route (R380). -/
def State.releaseHeld (st : State) (p d : Nat) : State :=
  if (st.routeOf p d).isSome then
    let held := (st.tunnel p d).held
    (st.setTunnel p d fun t => { t with held := [] }).each held fun st x => st.toDomain p d x
  else st

/-- The domain that homes the combine record of a slot, where its token came from another domain (R329, log 35). -/
def State.domainOf (st : State) (lkey record slot : Nat) : Option Nat :=
  (st.foreign.find? fun f => f.1 == lkey && f.2.1 == record && f.2.2.1 == slot).map fun f => f.2.2.2

/-- A token dropped (R324): the DROP bit of its slot is set at the home of its combine record, in another domain through the
tunnel. -/
def State.dropToken (st : State) (x : EngCtx) (record : List Nat) : Eng Unit :=
  let comb := record.getD 1 0 % 2 ^ 56
  let slot := bits (record.getD 2 0) 34 32
  match st.domainOf x.lkey comb slot with
  | some d =>
    .ok () ({ st with foreign := st.foreign.filter fun f => !(f.1 == x.lkey && f.2.1 == comb && f.2.2.1 == slot) }.toDomain
      (sourcePkg x.source) d { bytes := bytesOf [2 ^ 56 + slot, comb] })
  | none => st.setDrop x comb slot

/-- A token record routed (R324): the accesses come first, and the descriptor changes once they are made. -/
def State.routeToken (st : State) (name job : Nat) (record : List Nat) (q : Nat) : Eng Unit :=
  match tget? st.experts name with
  | none => .ok () st
  | some e =>
    let x := e.ctx name job
    match leastBy (fun i => tget 0 e.window i) ((e.inState 2).filter fun i => e.used i < e.cap i) with
    | some i => .ok () (st.deliver name i record 0 q)
    | none =>
      match st.lackOf name job with
      | .code c st => .code c st
      | .wait l st => .wait l st
      | .ok lack st =>
        let size := 2 ^ bits (e.word 4) 63 59
        let drop (st : State) : Eng Unit :=
          match st.dropToken x record with
          | .ok _ st =>
            let st := (st.meetLack name lack).setExpert name fun e =>
              { (e.setField 8 31 0 (min (2 ^ 32 - 1) (bits (e.word 8) 31 0 + 1))) with dropped := true }
            .ok () (if e.dropped then st else st.expertEvent name 3)
          | r => r
        if e.spilled < size then
          let tail := bits (e.word 5) 31 0
          match st.writeAll x 0 (bits (e.word 4) 55 0 + 64 * (tail % size)) (bytesOf record) with
          | .ok _ st =>
            .ok () ((st.meetLack name lack).setExpert name fun e =>
              { ((e.setField 5 31 0 (tail + 1)).setField 8 63 32 (min (2 ^ 32 - 1) (bits (e.word 8) 63 32 + 1))) with
                appended := true })
          | .code _ st => drop st
          | .wait l st => .wait l st
        else drop st

/-- The oldest entry of the spill ring routed while a replica is active (R326), by the job `job`: whether one was routed. A step
that is closed or being updated routes none (log 37). -/
def State.routeEntry (st : State) (name job : Nat) : Eng Bool :=
  match tget? st.experts name with
  | none => .ok false st
  | some e =>
    if e.spilled = 0 then .ok false st
    else if e.closed ∨ e.updating then .ok false (st.setExpert name fun e => { e with spillDue := true })
    else
      match leastBy e.used (e.inState 2) with
      | none =>
        match st.lackOf name job with
        | .ok lack st => .ok false (st.meetLack name lack)
        | .code _ st => .ok false st
        | .wait l st => .wait l st
      | some i =>
        let head := bits (e.word 5) 63 32
        match st.readAll (e.ctx name job) 0 (bits (e.word 4) 55 0 + 64 * (head % 2 ^ bits (e.word 4) 63 59)) 64 with
        | .wait l st => .wait l st
        | .code _ st => .ok false st
        | .ok bs st =>
          let st := (st.endJob job).setExpert name fun e =>
            let e := e.setField 5 63 32 (head + 1)
            if e.spilled = 0 then e.setField 2 0 0 0 else e
          .ok true (st.deliver name i (wordsIn bs) 1 e.routeQ)

/-- A message taken out of flight and counted as received in its region. -/
def State.receive (st : State) (m : Msg) : State :=
  let st := { st with msgs := st.msgs.filter fun x => x.id != m.id }
  match m.q with
  | some q => st.countRecv (st.countCore m.lkey) m.lkey q
  | none => st

/-- The event of a token record (R324): one that meets a closed step or an update is held. -/
def State.runToken (st : State) (name : Nat) (e : Expert) (m : Msg) : State :=
  let leave (st : State) : State := ((st.receive m).endJob m.id).endEvent name
  if e.closed || e.updating then
    (st.setExpert name fun e => { e with heldTok := e.heldTok ++ [m.id] }).endEvent name
  else
    match st.routeToken name m.id (withRegion (wordsIn m.payload) (m.q.getD 0)) (m.q.getD 0) with
    | .wait false st => st.eventAgain name
    | .ok _ st => leave st
    | .code _ st => leave st
    | .wait true st => leave st

/-! ### EX commands -/

/-- The context of an EX command's own accesses: its serving directory, in the mode of its issuer (R334). -/
def Cmd.exCtx (c : Cmd) (pkg name : Nat) : EngCtx :=
  { source := sourceIo (2 * pkg + name % 2) 1, lkey := c.lkey, sv := c.sv, strand := c.strand, cmd := c.id }

/-- The package that issued a command. -/
def Cmd.pkg (c : Cmd) : Nat := pkgOf c.strand

/-- A command goes on later. -/
def State.again (st : State) (c : Cmd) (name : Nat) : State := { st with cmds := tput st.cmds c.id c }.owe (.contributionArrival name c.id)

/-- A command leaves: cp falls. -/
def State.leaveEx (st : State) (c : Cmd) : State :=
  ({ st with cmds := terase st.cmds c.id }.endJob c.id).setStrand c.strand fun t => t.complete .cp c.seq

/-- A command completes with its mailbox write (R334, R335). -/
def State.endEx (st : State) (c : Cmd) (name code value layst : Nat) : State :=
  let c := { c with code := code, bytes := value, status := layst, ended := true }
  match st.putMailbox (c.exCtx c.pkg name) c.mailbox (mailboxWord layst value code) with
  | .ok _ st => st.leaveEx c
  | .code _ st => st.leaveEx c
  | .wait true st => st.leaveEx c
  | .wait false st => st.again c name

/-- The EXGROW that waits for a replica entry, where one does, leaves without a mailbox write: a kill has cut off its copy (R28), or
the replica's package is lost, for which no code is given (log 127). -/
def State.dropGrow (st : State) (name i : Nat) : State :=
  match (tget? st.experts name).bind fun e => (e.grows.find? fun g => g.1 == i).bind fun g => tget? st.cmds g.2 with
  | some c => st.leaveEx c
  | none => st

/-- What follows an access of an EX command: a failed check ends it with its code (R334). -/
def State.onEx {α : Type} (c : Cmd) (name : Nat) (r : Eng α) (done : α → State → State) : State :=
  match r with
  | .ok x st => done x st
  | .code k st => st.endEx c name k 0 0
  | .wait true st => st.leaveEx c
  | .wait false st => st.again c name

/-- The mask of the template fields of a header word (R316). -/
def headerMask (i : Nat) : Nat :=
  match i with
  | 0 => 3 * 2 ^ 61 + (2 ^ 60 - 2 ^ 54) + (2 ^ 52 - 2 ^ 24) + (2 ^ 23 - 1)
  | 1 => 2 ^ 56 - 1
  | 3 => 2 ^ 64 - 2 ^ 32
  | 4 => (2 ^ 64 - 2 ^ 59) + (2 ^ 56 - 1)
  | 7 => 2 ^ 56 - 1
  | _ => 0

/-- The mask of the template fields of a replica entry's words (R317). -/
def entryMask (i : Nat) : Nat := if i % 2 = 0 then (2 ^ 62 - 2 ^ 40) + (2 ^ 24 - 1) else 2 ^ 56 - 1

/-- Whether a template has no bit set outside its template fields (R315). -/
def templateClean (ws : List Nat) : Bool :=
  (List.range 80).all fun i =>
    let m := if i < 16 then headerMask i else entryMask i
    ws.getD i 0 &&& m == ws.getD i 0

/-- Whether an endpoint names a member core of a launch. -/
def State.memberEp (st : State) (lkey ep : Nat) : Bool :=
  match st.launch lkey with
  | some l => match l.resolve ep with
    | .core _ => true
    | _ => false
  | none => false

/-- The layout record of an expert (R287, R316), none where it breaks a rule. -/
def expertLayout (bs : List Byte) : Option Layout :=
  let m : Cmd := { id := 0, strand := 0, seq := 0, chunk := 0, lkey := 0, sv := false, mailbox := none, kind := .cpyNv 0,
                   data := cellsAt 0 bs }
  let l := m.layout
  if m.soundLayout && !l.tr && (l.ty == 8 || l.ty == 9 || l.ty == 10 || l.ty == 12 || l.ty == 13) then some l else none

/-- WSIZE (R316). -/
def Layout.wsize (l : Layout) : Nat := (l.rows * l.stride + 63) / 64 * 64

/-- The layout record of an expert, read as range 0 of a job of its directory. -/
def State.layoutOf (st : State) (name job : Nat) : Eng Layout :=
  match tget? st.experts name with
  | none => .code 1 st
  | some e =>
    match st.readAll (e.ctx name job) 0 (bits (e.word 1) 55 0) 32 with
    | .ok bs st => match expertLayout bs with
      | some l => .ok l st
      | none => .code 1 st
    | .code c st => .code c st
    | .wait l st => .wait l st

/-- What EXDEF finds in a template beyond its memory (R315, R316, R337). -/
def State.templateFits (st : State) (c : Cmd) (name : Nat) (ws : List Nat) : Bool :=
  let w0 := ws.getD 0 0
  let owner := bits w0 47 24
  let stage := (st.launch c.lkey).bind fun l => l.package (bits owner 22 13)
  let splog := bits (ws.getD 4 0) 63 59
  templateClean ws && bits w0 22 0 == name && stage == some c.pkg && st.memberEp c.lkey owner && 4 ≤ splog && splog ≤ 20 &&
    bits (ws.getD 4 0) 55 0 % 64 == 0 && ws.getD 1 0 % 32 == 0 &&
    (!nbit w0 62 || bits (ws.getD 3 0) 47 32 < bits (ws.getD 3 0) 63 48) &&
    (List.range 32).all fun i =>
      let ep := bits (ws.getD (16 + 2 * i) 0) 23 0
      ep == 0 || (st.memberEp c.lkey ep && bits (ws.getD (16 + 2 * i) 0) 55 40 != 0 && ws.getD (17 + 2 * i) 0 % 64 == 0)

/-- The buffers of a template's usable entries. -/
def templateBufs (ws : List Nat) : List Nat :=
  ((List.range 32).filter fun i => bits (ws.getD (16 + 2 * i) 0) 23 0 != 0).map fun i => ws.getD (17 + 2 * i) 0

/-- Whether every page of the buffers is of class PRIV, HOME or SPAN (R317). -/
def State.bufsFit (st : State) (x : EngCtx) (n : Nat) (bufs : List Nat) : Eng Bool :=
  bufs.foldl (fun (r : Eng Bool) b =>
    match r with
    | .ok ok st =>
      match st.pagesOf x b n .engineRead with
      | .ok ps st => .ok (ok && ps.all fun p => p.1.cls == 0 || p.1.cls == 2 || p.1.cls == 3) st
      | .code c st => .code c st
      | .wait l st => .wait l st
    | r => r) (.ok true st)

/-- EXDEF at the directory (R337). -/
def State.runExdef (st : State) (c : Cmd) (name template : Nat) : State :=
  let x := c.exCtx c.pkg name
  if (tget? st.experts name).isSome then st.endEx c name 16 0 0
  else if template % 64 ≠ 0 then st.endEx c name 1 0 0
  else
    State.onEx c name (st.readAll x 0 template 640) fun bs st =>
      let ws := wordsIn bs
      if st.templateFits c name ws = false then st.endEx c name 1 0 0
      else
        State.onEx c name (st.readAll x 1 (ws.getD 1 0) 32) fun lb st =>
          match expertLayout lb with
          | none => st.endEx c name 1 0 0
          | some l =>
            let ring := 64 * 2 ^ bits (ws.getD 4 0) 63 59
            State.onEx c name (st.pagesOf x (bits (ws.getD 4 0) 55 0) ring .engineRead) fun ps st =>
              if ps.any fun p => pkgOfAddr p.1.a != c.pkg || st.regionAt p.1.a != .hbm then st.endEx c name 1 0 0
              else
                State.onEx c name (st.bufsFit x l.wsize (templateBufs ws)) fun fits st =>
                  if fits = false then st.endEx c name 1 0 0
                  else if 1048576 ≤ st.experts.length then st.endEx c name 20 0 0
                  else
                    let words := ((List.range 80).zip ws).foldl (fun t e => tset 0 t e.1 e.2) ([] : Tab Nat)
                    let e : Expert := { lkey := c.lkey, pkg := c.pkg, words := tset 0 words 0 (ws.getD 0 0 + 2 ^ 63) }
                    ({ st with experts := tput st.experts name e }).endEx c name 0 0 0

/-- EXLOAD at the directory (R320, R339): it waits for the requests that were admitted on the old table. -/
def State.runExload (st : State) (c : Cmd) (desc table : Nat) : State :=
  let x := c.exCtx c.pkg 0
  let busy := st.msgs.any fun m => m.brick.isNone && m.dst == some table && m.chan == 1 &&
    match (st.launch m.lkey).map fun (l : Launch) => l.resolve m.target with
    | some (Target.agent p _ _) => p == c.pkg
    | _ => false
  if busy then st.again c 0
  else if desc % 32 ≠ 0 then st.endEx c 0 1 0 0
  else
    State.onEx c 0 (st.readAll x 0 desc 32) fun bs st =>
      let ws := wordsIn bs
      let d := bits (ws.getD 1 0) 15 0
      let e := bits (ws.getD 1 0) 47 32
      if d % 32 ≠ 0 ∨ d < 32 ∨ 16384 < d ∨ e = 0 then st.endEx c 0 1 0 0
      else
        let others := (st.pkg c.pkg).gates.filter fun g => g.1 != table
        let used := others.foldl (fun n g => n + g.2.e * g.2.d * 2 + g.2.e * 8) 0
        if 2 ^ 25 < used + e * d * 2 + e * 8 then st.endEx c 0 20 0 0
        else
          State.onEx c 0 (st.readAll x 1 (bits (ws.getD 0 0) 55 0) (e * d * 2)) fun rows st =>
            State.onEx c 0 (st.readAll x 2 (bits (ws.getD 2 0) 55 0) (e * 8)) fun names st =>
              let g : Gate := { d := d, e := e, rows := rows, names := (wordsIn names).map fun w => BitVec.ofNat 64 w }
              (st.setPkg c.pkg fun p => { p with gates := tput p.gates table g }).endEx c 0 0 0 0

/-- A command that ends with its own event (R318). -/
def State.endExEvent (st : State) (c : Cmd) (name code value : Nat) : State := (st.endEvent name).endEx c name code value 0

/-- EXGROW at the directory (R340): its mailbox is written when the replica becomes active. -/
def State.runExgrow (st : State) (c : Cmd) (name entry : Nat) (e : Expert) : State :=
  if entry ≠ 32 ∧ (e.state entry ≠ 0 ∨ e.ep entry = 0) then st.endExEvent c name 19 0
  else
    match st.findGrow name c.id true (if entry = 32 then e.growable else [entry]) with
    | (.entry i a, st) =>
      let st := st.takeGrow name i a (some c.id)
      ({ st with cmds := tput st.cmds c.id { c with started := true, cursor := i } }).endEvent name
    | (.none, st) => st.endExEvent c name 20 0
    | (.code k, st) => st.endExEvent c name k 0
    | (.wait true, st) => (st.leaveEx c).endEvent name
    | (.wait false, st) => st.eventAgain name

/-- A replica retires: it drains, and a notice goes to its endpoint (R319, R402). -/
def State.retireReplica (st : State) (name i : Nat) : State :=
  match tget? st.experts name with
  | none => st
  | some e =>
    (st.setExpert name fun e => e.setState i 3).fromDirectory name (e.ep i) (e.rchan i)
      (bytesOf [0, 0, 0, 0, deliveryWord e.version 1 0 i name, 0, 0, 0]) e.routeQ

/-- EXRETIRE at the directory (R341). -/
def State.runExretire (st : State) (c : Cmd) (name entry : Nat) (e : Expert) : State :=
  if e.state entry ≠ 2 then st.endExEvent c name 19 0 else (st.retireReplica name entry).endExEvent c name 0 0

/-- The closing test of R331: with `notify` the owner is told. -/
def State.closeTest (st : State) (name : Nat) (notify : Bool) : State :=
  match tget? st.experts name with
  | none => st
  | some e =>
    if e.contrib = e.member ∧ e.closed = false then
      let st := st.setExpert name fun e => e.setField 2 1 1 1
      if notify then st.expertEvent name 2 else st
    else st

/-- An arrival entered in ARRLOG, ARRN and CONTRIB (R331). -/
def Expert.arrived (e : Expert) (i : Nat) : Expert :=
  let j := e.arrivals
  let w := 9 + j / 12
  let lo := 5 * (j % 12)
  let e := e.setField w (lo + 4) lo i
  let e := e.setField 11 45 40 (j + 1)
  e.setField 6 31 0 (if nbit e.contrib i then e.contrib else e.contrib + 2 ^ i)

/-- FP32 elements of some bytes. -/
def floatsIn (bs : List Byte) : List Nat := (List.range (bs.length / 4)).map fun i => fromBytes ((bs.drop (4 * i)).take 4)

/-- The number of an FP32 code. -/
def f32Num (x : Nat) : Num := (fmtOf 10).value x

/-- A number rounded to FP32 (R331). -/
def toF32 (x : Num) : Nat := rne (fmtOf 10) x

/-- A finite power of 2 as a number. -/
def pow2Num (e : Int) : Num := .fin ⟨false, 1, e⟩

/-- E of a block (R333): the least with max |v| at most 448 × 2^(E − 127), 254 where there is none. -/
def blockScale (vs : List Num) : Nat :=
  let fits (e : Nat) : Bool := vs.all fun v =>
    let bound := mulNum (.fin ⟨false, 448, 0⟩) (pow2Num ((e : Int) - 127))
    v.absolute.lt bound || v.absolute.eqv bound
  ((List.range 255).find? fits).getD 254

/-- GRADIENT_COMPRESSION of one block (R333): the numbers joined and the new residuals. -/
def compressBlock (gs rs : List Nat) : List Num × List Nat :=
  let vs := (gs.zip rs).map fun p => toF32 (addNum (f32Num p.1) (f32Num p.2))
  let k : Int := (blockScale (vs.map f32Num) : Int) - 127
  let qs := vs.map fun v => (fmtOf 12).value (roundNum (fmtOf 12) .rne 0 true (mulNum (f32Num v) (pow2Num (-k))))
  let back := qs.map fun q => mulNum q (pow2Num k)
  (back, (vs.zip back).map fun p => toF32 (addNum (f32Num p.1) p.2.negate))

/-- A contribution compressed in blocks of 32 elements. -/
def compressAll : Nat → List Nat → List Nat → List Num × List Nat
  | 0, _, _ => ([], [])
  | fuel + 1, gs, rs =>
    if gs.isEmpty then ([], [])
    else
      let n := min 32 gs.length
      let pad (xs : List Nat) : List Nat := xs.take n ++ List.replicate (32 - n) 0
      let b := compressBlock (pad gs) (pad rs)
      let r := compressAll fuel (gs.drop 32) (rs.drop 32)
      (b.1.take n ++ r.1, b.2.take n ++ r.2)

/-- The elements that a contribution joins, as FP32 codes and as numbers, and the new residuals where it is compressed (R331,
R333). -/
def Expert.contribution (e : Expert) (g r : List Byte) : List (Nat × Num) × List Nat :=
  let gs := floatsIn g
  if e.compresses then
    let b := compressAll gs.length gs (floatsIn r)
    (b.1.map fun v => (toF32 v, v), b.2)
  else (gs.map fun x => (x, f32Num x), [])

/-- GRAD after an addition (R331): the first arrival is taken exactly, each later one rounded once for each element. -/
def joined (first : Bool) (old : List Nat) (gs : List (Nat × Num)) : List Byte :=
  (if first then gs.map fun p => p.1 else (old.zip gs).map fun p => toF32 (addNum (f32Num p.1) p.2.2)).flatMap (toBytes 4)

/-- An EXJOIN whose accesses fail: nothing is added, and ARRLOG, ARRN and CONTRIB are unchanged (R342). -/
def State.failJoin (st : State) (c : Cmd) (name entry code : Nat) : State :=
  (st.setExpert name fun e => { e with joins := e.joins.filter (· != entry) }).endEx c name code 0 0

/-- What follows an access of a contribution on its way. -/
def State.onJoin {α : Type} (c : Cmd) (name entry : Nat) (r : Eng α) (done : α → State → State) : State :=
  match r with
  | .ok x st => done x st
  | .code k st => st.failJoin c name entry k
  | .wait true st => (st.setExpert name fun e => { e with joins := e.joins.filter (· != entry) }).leaveEx c
  | .wait false st => st.again c name

/-- A contribution on its way to the directory: every page of the gradient and of GRAD is checked (R342), the gradient is read, and
with COMP = 1 it is compressed and its residual written (R333); it then arrives (R331). -/
def State.sendContribution (st : State) (c : Cmd) (name grad entry : Nat) (e : Expert) : State :=
  let x := c.exCtx e.pkg name
  let own := e.ctx name c.id
  let arrive (st : State) : State := ({ st with cmds := tput st.cmds c.id { c with cursor := 1 } }).queueEvent name (.joined c.id)
  State.onJoin c name entry (st.layoutOf name c.id) fun l st =>
    let n := 4 * (l.rows * l.cols)
    let res := e.buf entry + l.wsize
    State.onJoin c name entry (st.pagesOf x grad n .engineRead) fun _ st =>
      State.onJoin c name entry (st.pagesOf own (bits (e.word 7) 55 0) n .engineWrite) fun _ st =>
        State.onJoin c name entry (st.readAll x 1 grad n) fun g st =>
          if e.compresses then
            State.onJoin c name entry (st.readAll own 2 res n) fun r st =>
              State.onJoin c name entry (st.writeFirst own 3 res ((e.contribution g r).2.flatMap (toBytes 4))) fun _ st => arrive st
          else arrive st

/-- The event of a contribution's arrival: it is added to GRAD and logged, and the join may close (R331, R342, R403). -/
def State.addContribution (st : State) (c : Cmd) (name entry : Nat) (hand : Bool) (e : Expert) : State :=
  let own := e.ctx name c.id
  let at_ := bits (e.word 7) 55 0
  let first := e.arrivals == 0
  let gs := (e.contribution (st.jobBytes c.id 1) (st.jobBytes c.id 2)).1
  let written : Eng Unit :=
    match (if first then .ok [] st else st.readAll own 4 at_ (4 * gs.length)) with
    | .ok old st => st.writeAll own 5 at_ (joined first (floatsIn old) gs)
    | .code k st => .code k st
    | .wait l st => .wait l st
  match written with
  | .code k st => (st.endEvent name).failJoin c name entry k
  | .wait true st => (st.endEvent name).leaveEx c
  | .wait false st => st.eventAgain name
  | .ok _ st =>
    if st.piecesLeft c.id then st.eventAgain name
    else
    let st := st.setExpert name fun e => { (e.arrived entry) with joins := e.joins.filter (· != entry) }
    let st := if hand then st.freeReplica name entry else st
    (st.closeTest name true).endExEvent c name 0 0

/-- EXJOIN as it reaches the directory (R342): a contribution is then under way. -/
def State.runExjoin (st : State) (c : Cmd) (name entry : Nat) (hand : Bool) (e : Expert) : State :=
  let member := nbit e.member entry
  let had := nbit e.contrib entry || e.joins.contains entry
  if c.issuer ≠ e.ep entry then st.endExEvent c name 18 0
  else if hand ∧ e.state entry ≠ 3 then st.endExEvent c name 19 0
  else if hand ∧ (member = false ∨ had = true) then (st.freeReplica name entry).endExEvent c name 0 0
  else if hand = false ∧ e.state entry ≠ 2 ∧ e.state entry ≠ 3 then st.endExEvent c name 19 0
  else if hand = false ∧ had = true then st.endExEvent c name 21 0
  else if hand = false ∧ member = false then st.endExEvent c name 19 0
  else ((st.setExpert name fun e => { e with joins := e.joins ++ [entry] }).endEvent name).again { c with started := true } name

/-- The update course of an expert (R332): once no copy has begun and not ended, the master is staged into the buffer of
every active replica and the course is laid. A failure is an event of its own. -/
def State.layUpdate (st : State) (c : Cmd) (name : Nat) (e : Expert) : State :=
  let x := e.ctx name c.id
  let on {α : Type} (r : Eng α) (done : α → State → State) : State :=
    match r with
    | .ok x st => done x st
    | .code k st => st.queueEvent name (.course k 0)
    | .wait true st => st.leaveEx c
    | .wait false st => st.again c name
  if e.copying ≠ [] ∨ c.cursor = 1 then st
  else
    on (st.layoutOf name c.id) fun l st =>
      on (st.readAll x 1 l.base l.wsize) fun bs st =>
        let dests := (e.inState 2).foldl (fun (r : Eng (List (Nat × List Byte))) i =>
          match r with
          | .ok xs st =>
            match st.pagesOf x (e.buf i) l.wsize .stc with
            | .ok ps st =>
              let cells := ps.foldl (fun (r : Nat × List (Nat × List Byte)) p =>
                (r.1 + p.2, r.2 ++ [(p.1.a, (bs.drop r.1).take p.2)])) (0, [])
              .ok (xs ++ cells.2) st
            | .code k st => .code k st
            | .wait l st => .wait l st
          | r => r) (.ok [] st)
        on dests fun ds st =>
          match st.reserveCourse e.pkg e.lkey with
          | (none, st) => st.queueEvent name (.course 24 0)
          | (some num, st) =>
            let st := st.openCourse e.pkg num
            let st := st.each ds fun st d =>
              st.each (List.range (d.2.length / 64)) fun st i =>
                st.sendStc e.pkg num (d.1 + 64 * i) 64 (fromBytes ((d.2.drop (64 * i)).take 64)) strandLimit 0
            let st := (st.setCourse e.pkg num fun k => { k with expert := some name }).prepareCourse e.pkg num
            { st with cmds := tput st.cmds c.id { c with cursor := 1 } }

/-- EXUPD as it reaches the directory (R343). -/
def State.runExupd (st : State) (c : Cmd) (name : Nat) (e : Expert) : State :=
  if c.issuer ≠ e.owner then st.endExEvent c name 18 0
  else if e.updating then st.endExEvent c name 22 0
  else if e.closed = false ∧ e.contrib ≠ e.member then st.endExEvent c name 22 0
  else
    let st := st.closeTest name false
    let st := st.setExpert name fun e => { (e.setField 2 2 2 1) with upd := some c.id }
    (st.endEvent name).again { c with started := true } name

/-- EXSPILL at the directory (R344): VALUE holds the entries routed. -/
def State.runExspill (st : State) (c : Cmd) (name : Nat) : State :=
  match st.routeEntry name c.id with
  | .ok true st => ({ st with cmds := tput st.cmds c.id { c with bytes := c.bytes + 1 } }).eventAgain name
  | .ok false st => st.endExEvent c name 0 c.bytes
  | .code _ st => st.endExEvent c name 0 c.bytes
  | .wait true st => (st.endEvent name).leaveEx c
  | .wait false st => st.eventAgain name

/-- The event of an EX command that names an expert (R334). -/
def State.runCommand (st : State) (c : Cmd) (name : Nat) (e : Expert) : State :=
  match c.kind with
  | .exgrow _ entry => st.runExgrow c name entry e
  | .exretire _ entry => st.runExretire c name entry e
  | .exjoin _ _ entry hand => st.runExjoin c name entry hand e
  | .exupd _ => st.runExupd c name e
  | .exspill _ => st.runExspill c name
  | _ => st.endEvent name

/-! ### The other events -/

/-- The event of a replica copy's end (R319, R340): the replica becomes active and the spill ring is routed (R326), or the entry
becomes free. An EXUPD that waited for it goes on (R332). -/
def State.runCopied (st : State) (name i code : Nat) (e : Expert) : State :=
  if e.state i ≠ 1 ∨ e.copying.contains i = false then st.endEvent name
  else
    let cmd := (e.grows.find? fun g => g.1 == i).bind fun g => tget? st.cmds g.2
    if code ≠ 0 then
      let st := (st.freeReplica name i).endEvent name
      match cmd with
      | some c => st.endEx c name code 0 0
      | none => st
    else
      let st := (st.endJob (dirJob name i)).setExpert name fun e =>
        { (e.setState i 2) with copying := e.copying.filter (· != i), grows := e.grows.filter fun g => g.1 != i }
      let st := (st.insertEvents name [.spill]).endEvent name
      let st := match e.upd with
        | some id => st.owe (.contributionArrival name id)
        | none => st
      match cmd with
      | some c => st.endEx c name 0 i 0
      | none => st

/-- The event of the end of an EXUPD: on success the version and step advance, the step's records are cleared, and the ring, where a
trigger came in the closed step, and the held tokens are routed; otherwise the step stays closed (R332, R343). -/
def State.runCourse (st : State) (name code status : Nat) (e : Expert) : State :=
  match e.upd.bind fun id => tget? st.cmds id with
  | none => st.endEvent name
  | some c =>
    let st := st.setExpert name fun e => { (e.setField 2 2 2 0) with upd := none }
    if code ≠ 0 then ((st.beginCopies name).endEvent name).endEx c name code 0 status
    else
      let st := st.setExpert name fun e =>
        let e := e.setField 2 63 32 (e.version + 1)
        let e := (e.setField 2 31 16 (e.stepNo + 1)).setField 2 1 1 0
        let words := [6, 9, 10, 11].foldl (fun t i => terase t i) e.words
        let e := { e with words := words, dropped := false, heldTok := [], spillDue := false }
        (List.range 32).foldl (fun e i => e.setField (16 + 2 * i) 39 24 0) e
      let st := st.insertEvents name ((if e.spillDue then [.spill] else []) ++ e.heldTok.map .token)
      ((st.beginCopies name).endEvent name).endEx c name 0 ((tget? st.experts name).elim 0 Expert.version) 0

/-- The event of the end of a load window with the deliveries `d` (R325). -/
def State.runWindow (st : State) (name : Nat) (d : Tab Nat) (e : Expert) : State :=
  let total := d.foldl (fun n x => n + x.2) 0
  let active := e.inState 2
  if active ≠ [] ∧ bits (e.word 3) 63 48 * active.length < total then
    match st.findGrow name (dirJob name 33) false e.growable with
    | (.entry i a, st) => (st.takeGrow name i a none).endEvent name
    | (.wait false, st) => st.eventAgain name
    | (_, st) => st.endEvent name
  else if 2 ≤ active.length ∧ total < bits (e.word 3) 47 32 * active.length then
    match leastBy (fun i => tget 0 d i) active.reverse with
    | some i => (st.retireReplica name i).endEvent name
    | none => st.endEvent name
  else st.endEvent name

/-- The event of the ring's routing, entry by entry (R326). -/
def State.runSpill (st : State) (name : Nat) : State :=
  match st.routeEntry name (dirJob name 32) with
  | .ok true st => st.eventAgain name
  | .wait false st => st.eventAgain name
  | .ok false st => st.endEvent name
  | .code _ st => st.endEvent name
  | .wait true st => st.endEvent name

/-- The event of an expert that is being processed (R318). -/
def State.runEvent (st : State) (name : Nat) : State :=
  match tget? st.experts name with
  | none => st
  | some e =>
    match e.queue.head? with
    | none => st
    | some (.token msg) =>
      match st.msgs.find? fun m => m.id == msg with
      | some m => st.runToken name e m
      | none => st.endEvent name
    | some (.command id) =>
      match tget? st.cmds id with
      | some c => st.runCommand c name e
      | none => st.endEvent name
    | some (.joined id) =>
      match tget? st.cmds id with
      | some c =>
        match c.kind with
        | .exjoin _ _ entry hand => st.addContribution c name entry hand e
        | _ => st.endEvent name
      | none => st.endEvent name
    | some (.window d) => st.runWindow name d e
    | some (.copied i code) => st.runCopied name i code e
    | some (.course code status) => st.runCourse name code status e
    | some .spill => st.runSpill name

/-- An event arrives, and is processed where no other is (R318). -/
def State.arrive (st : State) (name : Nat) (v : ExEvent) : State :=
  let st := st.joinQueue name v
  if st.eventOf name = some v then st.runEvent name else st

/-- TOKEN_ARRIVAL: a token record reaches the serving directory (R323, R324): one that names no expert of its launch sets a
DROP bit, and every other is an event of its expert (R318). -/
def execTokenArrival (msg : Nat) (st : State) : Out :=
  .next <|
    match st.msgs.find? fun m => m.id == msg with
    | none => st
    | some m =>
      let name := m.target % 2 ^ 23
      let record := withRegion (wordsIn m.payload) (m.q.getD 0)
      if m.len ≠ 64 then st.receive m
      else
        match st.expertOf m.lkey name with
        | none =>
          let pkg := ((st.launch m.lkey).map fun l => l.pkg).getD 0
          let x : EngCtx := { source := sourceIo (2 * pkg + name % 2) 1, lkey := m.lkey, sv := false, strand := 0, cmd := msg }
          match st.dropToken x record with
          | .wait false st => st.owe (.tokenArrival msg)
          | .wait true st => st.receive m
          | .ok _ st => st.receive m
          | .code _ st => st.receive m
        | some e => if e.heldTok.contains msg then st else st.arrive name (.token msg)

/-- An EX command at its serving directory (R334, R335): one that names an expert is an event of it, and goes on after that
until its mailbox is written. -/
def State.runEx (st : State) (c : Cmd) : State :=
  let named (name : Nat) (goOn : Expert → State) : State :=
    if c.ended then st.endEx c name c.code c.bytes c.status
    else
      match st.expertOf c.lkey name with
      | none => st.endEx c name 17 0 0
      | some e => if c.started then goOn e else st.arrive name (.command c.id)
  match c.kind with
  | .exdef name template => if c.ended then st.endEx c name c.code c.bytes c.status else st.runExdef c name template
  | .exload desc table => if c.ended then st.endEx c 0 c.code c.bytes c.status else st.runExload c desc table
  | .exgrow name _ => named name fun _ => st
  | .exretire name _ => named name fun _ => st
  | .exjoin name grad entry _ =>
    named name fun e => if c.cursor = 0 then st.sendContribution c name grad entry e else st.arrive name (.joined c.id)
  | .exupd name => named name fun e => if e.upd = some c.id then st.layUpdate c name e else st
  | .exspill name => named name fun _ => st
  | _ => st

/-- CONTRIBUTION_ARRIVAL: a command reaches its serving directory, or goes on there; the contribution of an EXJOIN is added
(R318, R331). -/
def execContributionArrival (name cmd : Nat) (st : State) : Out :=
  if 2 ^ 23 ≤ name then .fault .noSuchAgent
  else
    match tget? st.cmds cmd with
    | none => .next st
    | some c => if c.applied then .next (st.runEx c) else .next st

/-- One access of a replica copy (R319, R340): the master is read, the buffer written, and with COMP = 1 its residual zeroed. Once
every write is committed the copy ends; a failed check ends it with its code. Where a kill has discarded an access of it, it ends
at once with the EXGROW that began it (R28). -/
def State.copyReplica (st : State) (name i : Nat) (e : Expert) : State :=
  let x := e.ctx name (dirJob name i)
  let copied : Eng Unit :=
    match st.layoutOf name x.cmd with
    | .ok l st =>
      match st.readAll x 1 l.base l.wsize with
      | .ok bs st =>
        match st.writeFirst x 2 (e.buf i) bs with
        | .ok _ st =>
          if e.compresses then st.writeFirst x 3 (e.buf i + l.wsize) (List.replicate (4 * (l.rows * l.cols)) 0) else .ok () st
        | r => r
      | .code k st => .code k st
      | .wait l st => .wait l st
    | .code k st => .code k st
    | .wait l st => .wait l st
  match copied with
  | .wait true st => (st.dropGrow name i).freeReplica name i
  | .wait false st => st.owe (.replicaCopyComplete name i)
  | .code k st => st.arrive name (.copied i k)
  | .ok _ st => if st.piecesLeft x.cmd then st.owe (.replicaCopyComplete name i) else st.arrive name (.copied i 0)

/-- REPLICA_COPY_COMPLETE: a warming replica's copy of the master goes on, and its end is an event of its expert (R318, R319).
Entry 32 takes up the routing of the spill ring (R326), and entry 33 the end of a load window (R325). -/
def execReplicaCopyComplete (name entry : Nat) (st : State) : Out :=
  if 2 ^ 23 ≤ name then .fault .noSuchAgent
  else
    match tget? st.experts name with
    | none => .next st
    | some e =>
      match e.queue.head? with
      | some v =>
        if v.step name = .replicaCopyComplete name entry then .next (st.runEvent name)
        else if e.state entry ≠ 1 ∨ e.copying.contains entry = false then .next st
        else if e.queue.any fun v => v.step name = .replicaCopyComplete name entry then .next st
        else .next (st.copyReplica name entry e)
      | none =>
        if e.state entry ≠ 1 ∨ e.copying.contains entry = false then .next st else .next (st.copyReplica name entry e)

/-- EXUPD_COURSE_STATUS: the course of an EXUPD ends, which is an event of its expert (R318, R332, R343). -/
def execExupdCourseStatus (name status : Nat) (st : State) : Out :=
  if 2 ^ 23 ≤ name then .fault .noSuchAgent
  else
    match tget? st.experts name with
    | none => .next st
    | some e =>
      match e.queue.find? fun v => match v with
        | .course _ _ => true
        | _ => false with
      | some v => if st.eventOf name = some v then .next (st.runEvent name) else .next st
      | none =>
        if e.upd.isNone ∨ e.updating = false then .next st
        else .next (st.arrive name (.course (if status = 0 then 0 else 23) status))

/-- LOAD_WINDOW_END: at the end of a load window every expert of a package begins to count anew, and with AUTO = 1 grows or
retires by its deliveries (R325). -/
def execLoadWindowEnd (pkg : Nat) (st : State) : Out :=
  if packageLimit ≤ pkg then .fault .noSuchAgent
  else
    .next <| st.each (st.experts.filter fun e => e.2.pkg == pkg) fun st e =>
      let st := st.setExpert e.1 fun e => { e with window := [] }
      if nbit (e.2.word 0) 62 then st.arrive e.1 (.window e.2.window) else st

/-! ### The EX instructions -/

/-- Whether a register value is an expert name as an endpoint identifier (R334). -/
def isName (x : Nat) : Bool := nbit x 23 && x < 2 ^ 24

/-- An EX command issued: its mailbox is checked, it counts on cp, and it ends its chunk (R334). -/
def State.issueEx (st : State) (o : Ops) (kind : CmdKind) : State :=
  st.withMailbox (st.mailboxOf o) fun st =>
    if st.counterFull .cp then st
    else
      let (n, st) := st.fresh
      let cmd : Cmd :=
        { id := n, strand := st.cur, seq := st.me.issued, chunk := st.chunk.id, lkey := st.me.lkey, sv := st.me.sv,
          mailbox := st.mailboxOf o, kind := kind, issuer := st.epid st.cur }
      let st := st.issueOp [] { counter := .cp, chunk := cmd.chunk }
      ((({ st with cmds := tput st.cmds n cmd }).hold (.cmd n)).finish).endChunk

/-- The common form of the EX commands that name an expert (R334). -/
def State.exForm (st : State) (o : Ops) (regs : List Nat) (kind : Nat → State → CmdKind) : Out :=
  st.scalar o.g { regs := regS o.dst.toNat :: regS o.sa.toNat :: regs } fun st =>
    let a := (st.s o.sa).toNat
    if isName a = false then st.raise causeEndpoint a else st.issueEx o (kind (a % 2 ^ 23) st)

/-- EXDEF (R337). -/
def execExdef (o : Ops) (st : State) : Out :=
  st.exForm o [regS o.sb.toNat] fun name st => .exdef name (st.s o.sb).toNat

/-- EXRT: a request for a descriptor word goes to the serving directory (R338). -/
def execExrt (o : Ops) (st : State) : Out :=
  st.scalar o.g { regs := [regS o.dst.toNat, regS o.sa.toNat] } fun st =>
    let a := (st.s o.sa).toNat
    if isName a = false then st.raise causeEndpoint a
    else if st.counterFull .ld then st
    else st.issueAgent o (.expert o.dst.toNat (a % 2 ^ 23) (o.immBits 6 0)) true

/-- EXLOAD (R339). -/
def execExload (o : Ops) (st : State) : Out :=
  st.scalar o.g { regs := [regS o.dst.toNat, regS o.sa.toNat] } fun st =>
    st.issueEx o (.exload (st.s o.sa).toNat (o.immBits 3 0))

/-- EXGROW (R340). -/
def execExgrow (o : Ops) (st : State) : Out := st.exForm o [] fun name _ => .exgrow name (o.immBits 5 0)

/-- EXRETIRE (R341). -/
def execExretire (o : Ops) (st : State) : Out := st.exForm o [] fun name _ => .exretire name (o.immBits 4 0)

/-- EXJOIN.CONTRIB (R342). -/
def execExjoinContrib (o : Ops) (st : State) : Out :=
  st.exForm o [regS o.sb.toNat] fun name st => .exjoin name (st.s o.sb).toNat (o.immBits 4 0) false

/-- EXJOIN.HAND (R342). -/
def execExjoinHand (o : Ops) (st : State) : Out :=
  st.exForm o [regS o.sb.toNat] fun name st => .exjoin name (st.s o.sb).toNat (o.immBits 4 0) true

/-- EXUPD (R343). -/
def execExupd (o : Ops) (st : State) : Out := st.exForm o [] fun name _ => .exupd name

/-- EXSPILL (R344). -/
def execExspill (o : Ops) (st : State) : Out := st.exForm o [] fun name _ => .exspill name

/-- An EX command at its chunk's apply: it is sent to its serving directory (R334). -/
def State.applyEx (st : State) (id : Nat) : State :=
  match tget? st.cmds id with
  | none => st
  | some c =>
    let name := match c.kind with
      | .exdef n _ => n
      | .exgrow n _ => n
      | .exretire n _ => n
      | .exjoin n _ _ _ => n
      | .exupd n => n
      | .exspill n => n
      | _ => 0
    ({ st with cmds := tput st.cmds id { c with applied := true } }).owe (.contributionArrival name id)

/-- The experts of a launch that ends (R345): names removed, pins released, held tokens and the directory's own
jobs discarded. -/
def State.endExperts (st : State) (lkey : Nat) : State :=
  let mine := st.experts.filter fun e => e.2.lkey == lkey
  let st := st.each mine fun st e => st.each (List.range 34) fun st i => (st.unpin e.1 i).endJob (dirJob e.1 i)
  let toks := mine.flatMap fun e => e.2.heldTok ++ e.2.queue.flatMap fun v => match v with
    | .token m => [m]
    | _ => []
  { st with
    experts := st.experts.filter fun e => e.2.lkey != lkey
    msgs := st.msgs.filter fun m => !toks.contains m.id
    foreign := st.foreign.filter fun f => f.1 != lkey }

end Sys2Proof.Machine
end

