-- ==== Sys2Proof/Machine/Gateways.lean ====
section
/-!
DEFINITION. The edge gateways: gate scoring (R320 to R322), combining (R328, R329), merging (R387 to R390), and what they
hand to the tunnels of other domains (R380). A gateway's number counts the dies of its package: 16 * die + agent - 0x10. Each of
its accesses is a step of its own (R114, R126, log 36).
-/

namespace Sys2Proof.Machine

/-- The physical package and number of the gateway that a message names (R10). -/
def State.gatewayOf (st : State) (m : Msg) : Option (Nat × Nat) :=
  match (st.launch m.lkey).map fun (l : Launch) => l.resolve m.target with
  | some (Target.agent p iod a) => some (p, 16 * iod + a % 16)
  | _ => none

/-- The context of a gateway's accesses for a launch, in some job: that of a sender in user mode (R388, log 38). -/
def gatewayCtx (p g lkey job : Nat) : EngCtx :=
  { source := sourceIo (2 * p + g / 16) (0x10 + g % 16), lkey := lkey, sv := false, strand := 0, cmd := job }

/-- A message from a gateway, counted as sent in a region. -/
def State.fromGateway (st : State) (lkey p g target chan : Nat) (payload : List Byte) (q : Nat) : State :=
  st.postFrom lkey p (g / 16) (0x10 + g % 16) target chan payload q

/-- A message that its gateway is done with, counted as received; its job ends. -/
def State.finishMsg (st : State) (m : Msg) : State := (st.receive m).endJob m.id

/-- A message named by its number that its gateway is done with. -/
def State.receiveId (st : State) (id : Nat) : State :=
  match st.msgs.find? fun m => m.id == id with
  | some m => st.finishMsg m
  | none => st

/-- Whether an earlier message of the same sender to the same gateway is refused and not yet taken (R44, R388). -/
def State.heldBack (st : State) (m : Msg) : Bool :=
  (st.msgs.takeWhile fun x => x.id != m.id).any fun x =>
    x.held && x.lkey == m.lkey && x.src == m.src && x.target == m.target && x.brick.isNone

/-- A contribution that its gateway refuses, or has refused and takes (R388). -/
def State.markHeld (st : State) (id : Nat) (held : Bool) : State :=
  { st with msgs := updateFirst (fun x => x.id == id) (fun x => { x with held := held }) st.msgs }

/-! ### Gate scoring -/

/-- The fields of a scoring request (R321). -/
structure Request where
  xbase   : Nat
  xstride : Nat
  ntok    : Nat
  cbase   : Nat
  tbase   : Nat
  d       : Nat
  q       : Nat
  renorm  : Bool
  k       : Nat
  table   : Nat
  obase   : Nat
  deriving DecidableEq, Repr

/-- The request in a payload. -/
def requestIn (bs : List Byte) : Request :=
  let ws := wordsIn bs
  let w (i : Nat) : Nat := ws.getD i 0
  { xbase := bits (w 0) 55 0, xstride := bits (w 1) 63 32, ntok := bits (w 1) 31 0, cbase := bits (w 2) 55 0,
    tbase := bits (w 3) 63 32, d := bits (w 3) 30 16, q := bits (w 3) 11 8, renorm := nbit (w 3) 7, k := bits (w 3) 6 4 + 1,
    table := bits (w 3) 3 0, obase := bits (w 4) 55 0 }

/-- The request as it stands for token `t`: an address that leaves the canonical range is not wrapped (R7, R321). -/
def Request.token (r : Request) (t : Nat) : Request :=
  { r with
    xbase := r.xbase + t * r.xstride, cbase := r.cbase + 64 * t, tbase := (r.tbase + t) % 2 ^ 32, obase := r.obase + 4 * t * r.d }

/-- The bf16 numbers of some bytes. -/
def bf16sIn (bs : List Byte) : List Num :=
  (List.range (bs.length / 2)).map fun i => (fmtOf 9).value (fromBytes ((bs.drop (2 * i)).take 2))

/-- The scores of a token vector: an exact dot product with each row, rounded once (R322). -/
def Gate.scores (g : Gate) (x : List Num) : List Nat :=
  (List.range g.e).map fun e =>
    let row := bf16sIn ((g.rows.drop (2 * g.d * e)).take (2 * g.d))
    toF32 (sumNum ((x.zip row).map fun p => mulNum p.1 p.2))

/-- The order of selection (R322): descending scores, NaN last, ties by the lower number. -/
def scoreBefore (a b : Nat × Nat) : Bool :=
  let x := f32Num a.2
  let y := f32Num b.2
  if x.isNan && y.isNan then a.1 < b.1
  else if x.isNan then false
  else if y.isNan then true
  else y.lt x || (x.eqv y && a.1 < b.1)

/-- An expert put in its place among those selected. -/
def scoreInsert (x : Nat × Nat) : List (Nat × Nat) → List (Nat × Nat)
  | [] => [x]
  | y :: ys => if scoreBefore x y then x :: y :: ys else y :: scoreInsert x ys

/-- The k selected experts with their scores (R322). -/
def selectScores (k : Nat) (zs : List Nat) : List (Nat × Nat) :=
  ((List.range zs.length).zip zs).foldl (fun r x => (scoreInsert x r).take k) []

/-- Round(2^(a - b), f32, RNE) with the difference exact (R322, R389). -/
def exp2Diff (a b : Nat) : Nat :=
  match addNum (f32Num a) (f32Num b).negate with
  | .nan => (fmtOf 10).quietNan
  | .inf neg => if neg then 0 else (fmtOf 10).infCode false
  | .fin x => exp2Exact 10 (a * 2 ^ 32 + b) x

/-- A fold (R322): the first term is taken exactly, each later one is added with one rounding. -/
def foldF32 : List Nat → Nat
  | [] => 0
  | x :: xs => xs.foldl (fun s y => toF32 (addNum (f32Num s) (f32Num y))) x

/-- The weights of the selected scores (R322). -/
def weights (zs : List Nat) : List Nat :=
  let us := zs.map fun z => exp2Diff z (zs.getD 0 0)
  let s := foldF32 us
  us.map fun u => toF32 (divNum (f32Num u) (f32Num s))

/-- A combine record as the scorer writes it (R328). -/
def combineRecord (r : Request) (ws doms : List Nat) : List Byte :=
  let pair (a : Nat) : Nat := ws.getD (2 * a + 1) 0 * 2 ^ 32 + ws.getD (2 * a) 0
  let dom := ((List.range doms.length).zip doms).foldl (fun n x => n + x.2 * 2 ^ (8 * x.1)) 0
  bytesOf [r.obase, r.d * 2 ^ 32 + (if r.renorm then 2 ^ 24 else 0) + (2 ^ r.k - 1), pair 0, pair 1, pair 2, pair 3, dom, r.tbase]

/-- A token record (R323). -/
def tokenRecord (r : Request) (slot w : Nat) : List Byte := bytesOf [r.xbase, r.cbase, slot * 2 ^ 32 + r.tbase, w, 0, 0, 0, 0]

/-- A token record sent: to the serving directory of its name in the own domain, or through the tunnel to another domain,
where the name and the region go before the record (R322, log 35). -/
def State.sendToken (st : State) (lkey p g q entry : Nat) (bs : List Byte) : State :=
  let name := entry % 2 ^ 23
  let d := bits entry 28 23
  if d = Config.ownDomain % 64 then st.fromGateway lkey p g (2 ^ 23 + name) 0 bs q
  else
    (st.countSent (st.countCore lkey) lkey q).toDomain p d
      { bytes := toBytes 8 (q % 16 * 2 ^ 24 + 2 ^ 23 + name) ++ bs, count := some (lkey, q) }

/-- Whether an EXLOAD of a table has applied on a package and has not yet completed (R339). -/
def State.loading (st : State) (p table : Nat) : Bool :=
  st.cmds.any fun c => c.2.applied && !c.2.ended && c.2.pkg == p &&
    match c.2.kind with
    | .exload _ t => t == table
    | _ => false

/-- One token of an admitted request: its scores, its combine record and, once that is committed, its token records (R322). A
request whose read or write fails a check, or whose output row would begin past the canonical range (R7), ends there (log 38). -/
def State.scoreToken (st : State) (m : Msg) (p g : Nat) (t : Gate) (r : Request) : Eng Unit :=
  let x := gatewayCtx p g m.lkey m.id
  if 2 ^ 56 ≤ r.obase then .code 1 st
  else
  match st.readAll x 0 r.xbase (2 * r.d) with
  | .code c st => .code c st
  | .wait l st => .wait l st
  | .ok bs st =>
    let sel := selectScores r.k (t.scores (bf16sIn bs))
    let ws := weights (sel.map fun e => e.2)
    let names := sel.map fun e => (t.names.getD e.1 0).toNat
    match st.writeFirst x 1 r.cbase (combineRecord r ws (names.map fun n => bits n 28 23)) with
    | .code c st => .code c st
    | .wait l st => .wait l st
    | .ok _ st =>
      if st.piecesLeft m.id then .wait false st
      else
        .ok () ((st.endJob m.id).each (List.range r.k) fun st i =>
          st.sendToken m.lkey p g r.q (names.getD i 0) (tokenRecord r i (ws.getD i 0)))

/-- SCORING_REQUEST: a request is judged and admitted on its table, and its tokens are scored in order, one at a step; it is
counted as received once every token record is sent (R321, R322, R339). `dst` holds how many tokens of an admitted request are
done. -/
def execScoringRequest (msg : Nat) (st : State) : Out :=
  .next <|
    match st.msgs.find? fun m => m.id == msg with
    | none => st
    | some m =>
      match st.gatewayOf m with
      | none => st.receive m
      | some (p, g) =>
        let r := requestIn m.payload
        let again (m : Msg) (st : State) : State :=
          { st with msgs := updateFirst (fun x => x.id == msg) (fun _ => m) st.msgs }.owe (.scoringRequest msg)
        if st.heldBack m then st.owe (.scoringRequest msg)
        else if m.len ≠ 40 then st.receive m
        else if m.dst.isNone ∧ st.loading p r.table = true then st.owe (.scoringRequest msg)
        else
          match tget? (st.pkg p).gates r.table with
          | none => st.receive m
          | some t =>
            let done := m.dst.getD 0
            let m := { m with dst := some done }
            if t.e < r.k ∨ r.d ≠ t.d then st.receive m
            else if r.ntok = 0 then st.receive m
            else
              match st.scoreToken m p g t (r.token done) with
              | .ok _ st => if done + 1 = r.ntok then st.receive m else again { m with dst := some (done + 1) } st
              | .code _ st => st.finishMsg m
              | .wait true st => st.finishMsg m
              | .wait false st => again m st

/-! ### Combining -/

/-- The state with the combines of a package changed. -/
def State.setCombines (st : State) (p : Nat) (f : List Combine → List Combine) : State :=
  st.setPkg p fun g => { g with combines := f g.combines }

/-- Whether two records name one combine. -/
def Combine.same (a b : Combine) : Bool :=
  a.gateway == b.gateway && a.record == b.record && a.lkey == b.lkey && a.domain == b.domain

/-- A combine leaves, and its contributions are counted as received. -/
def State.endCombine (st : State) (p : Nat) (c : Combine) : State :=
  let st := if c.domain.isNone then st
    else { st with foreign := st.foreign.filter fun f => !(f.1 == c.lkey && f.2.1 == c.record && (tget? c.rows f.2.2.1).isSome) }
  (((st.setCombines p fun cs => cs.filter fun x => !x.same c).endJob c.job).each c.msgs State.receiveId)

/-- The slots of a byte. -/
def slotsIn (n : Nat) : List Nat := (List.range 8).filter (nbit n)

/-- The weight of each slot of a combine record (R328). -/
def weightIn (ws : List Nat) (i : Nat) : Nat :=
  let w := ws.getD (2 + i / 2) 0
  if i % 2 = 0 then bits w 31 0 else bits w 63 32

/-- The coefficients of the live slots (R329). -/
def coefficients (ws live : List Nat) : List (Nat × Nat) :=
  if nbit (ws.getD 1 0) 24 then
    let s := f32Num (foldF32 (live.map (weightIn ws)))
    live.map fun i => (i, toF32 (divNum (f32Num (weightIn ws i)) s))
  else live.map fun i => (i, weightIn ws i)

/-- A domain's partial row (R329). -/
def partialRow (n : Nat) (rows : List (Nat × List Nat)) : List Nat :=
  (List.range n).map fun j => foldF32 (rows.map fun r => toF32 (mulNum (f32Num r.1) (f32Num (r.2.getD j 0))))

/-- Some rows read in order, as the ranges of a job from `i` on. -/
def State.readRows (st : State) (x : EngCtx) (n i : Nat) (as : List Nat) : Eng (List (List Byte)) :=
  ((List.range as.length).zip as).foldl (fun (r : Eng (List (List Byte))) a =>
    match r with
    | .ok rows st =>
      match st.readAll x (i + a.1) a.2 n with
      | .ok bs st => .ok (rows ++ [bs]) st
      | .code c st => .code c st
      | .wait l st => .wait l st
    | r => r) (.ok [] st)

/-- The combine record as a gateway reads it (R329): in another domain its bytes are free, since the spec does not say how it is
read there (log 35). -/
def State.readRecord (st : State) (x : EngCtx) (c : Combine) : Eng (List Byte) :=
  match c.domain with
  | none => st.readAll x 0 c.record 64
  | some d =>
    let got := st.jobBytes c.job 0
    if 64 ≤ got.length then .ok got st
    else
      let bs := (List.range 64).map fun i => (Config.remoteRecord st.tick d c.record).getD i 0
      .ok bs (st.addBytes c.job 0 bs)

/-- The live slots of a combine record (R329). -/
def liveSlots (ws : List Nat) : List Nat := slotsIn (bits (ws.getD 1 0) 7 0 - (bits (ws.getD 1 0) 7 0 &&& bits (ws.getD 1 0) 15 8))

/-- The domain of a slot of a combine record (R328). -/
def slotDomain (ws : List Nat) (i : Nat) : Nat := bits (ws.getD 6 0) (8 * i + 5) (8 * i)

/-- The domains with live slots, ascending. -/
def liveDomains (ws : List Nat) : List Nat := (List.range 64).filter fun d => (liveSlots ws).any fun i => slotDomain ws i == d

/-- A combine looked at (R329): the record is read; once every live slot of the own domain has arrived their partial row is formed
under it. An exit gateway sends that row to the domain of the record; the combining gateway folds the partial rows of every domain
with live slots, ascending, writes OUT, and then FIN as a release. A failed check ends it without FIN (log 38). -/
def State.tryCombine (st : State) (p : Nat) (c : Combine) : State :=
  let x := gatewayCtx p c.gateway c.lkey c.job
  let again (st : State) : State := st.owe (.combineRecordRecheck p c.gateway)
  let on {α : Type} (r : Eng α) (done : α → State → State) : State :=
    match r with
    | .ok y st => done y st
    | .code _ st => st.endCombine p c
    | .wait true st => st.endCombine p c
    | .wait false st => again st
  on (st.readRecord x c) fun bs st =>
    let ws := wordsIn bs
    let w1 := ws.getD 1 0
    let d := bits w1 47 32
    let here := Config.ownDomain % 64
    let mine := (liveSlots ws).filter fun i => slotDomain ws i == here
    if mine.any fun i => (tget? c.rows i).isNone then st.endJob c.job
    else if mine ≠ [] ∧ (tget? c.parts here).isNone then
      on (st.readRows x (4 * d) 1 (mine.map fun i => tget 0 c.rows i)) fun rows st =>
        let cs := (coefficients ws (liveSlots ws)).filter fun e => mine.contains e.1
        let row := partialRow d ((cs.map fun e => e.2).zip (rows.map floatsIn))
        match c.domain with
        | some other =>
          (st.toDomain p other { bytes := bytesOf [2 ^ 57 + c.number, c.record] ++ row.flatMap (toBytes 4) }).endCombine p c
        | none => again (st.setCombines p fun cs => cs.map fun y => if y.same c then { y with parts := tput y.parts here row } else y)
    else if c.domain.isSome ∨ (liveDomains ws).any (fun e => (tget? c.parts e).isNone) = true then st.endJob c.job
    else
      let out := (List.range d).map fun j => foldF32 ((liveDomains ws).map fun e => (tget [] c.parts e).getD j 0)
      on (st.writeFirst x 9 (bits (ws.getD 0 0) 55 0) (out.flatMap (toBytes 4))) fun _ st =>
        if st.piecesLeft c.job then again st
        else
          on (st.writeAll x 10 (c.record + 8) (toBytes 8 (if nbit w1 25 then w1 else w1 + 2 ^ 25))) fun _ st => st.endCombine p c

/-- What a message brings joins the combine of its record, which is then looked at (R329). -/
def State.joinCombine (st : State) (p : Nat) (key : Combine) (f : Combine → Combine) : State :=
  match (st.pkg p).combines.find? fun c => c.same key with
  | some old =>
    let new := f old
    (st.setCombines p fun cs => cs.map fun c => if c.same key then new else c).tryCombine p new
  | none =>
    let (n, st) := st.fresh
    let new := f { key with job := n }
    (st.setCombines p fun cs => cs ++ [new]).tryCombine p new

/-- The home package and the page class of a record, as the gateway `g` of a package translates it (R329, R387). -/
def State.recordPage (st : State) (m : Msg) (p g record : Nat) : Eng (Nat × Nat) :=
  match st.pagesOf (gatewayCtx p g m.lkey m.id) record 64 .engineRead with
  | .ok ps st => .ok ((ps.head?.map fun x => (pkgOfAddr x.1.a, x.1.cls)).getD (p, 2)) st
  | .code c st => .code c st
  | .wait l st => .wait l st

/-- COMBINE_CONTRIBUTION: a contribution goes on to the combining gateway, the same number on the record's home package, or where
its record is homed in another domain to the exit gateway of the route to it, and joins the combine of its record there (R329).
What the tunnel brings for a combine record of this domain comes on channel 64, which no message has: a partial row, or a drop. -/
def execCombineContribution (msg : Nat) (st : State) : Out :=
  .next <|
    match st.msgs.find? fun m => m.id == msg with
    | none => st
    | some m =>
      match st.gatewayOf m with
      | none => st.receive m
      | some (p0, g) =>
        let p := m.dst.getD p0
        let ws := wordsIn m.payload
        let again (st : State) : State := st.owe (.combineContribution msg)
        let on {α : Type} (r : Eng α) (done : α → State → State) : State :=
          match r with
          | .ok y st => done y st
          | .code _ st => st.finishMsg m
          | .wait true st => st.finishMsg m
          | .wait false st => again st
        let hop (home : Nat) (st : State) : State :=
          again { st with msgs := updateFirst (fun x => x.id == msg) (fun x => { x with dst := some home }) st.msgs }
        if st.heldBack m then again st
        else if m.chan = 64 then
          let record := bits (ws.getD 1 0) 55 0
          if nbit (ws.getD 0 0) 56 then
            on (st.setDrop (gatewayCtx p g m.lkey msg) record (ws.getD 0 0 % 8)) fun _ st => st.finishMsg m
          else
            on (st.recordPage m p g record) fun at' st =>
              if at'.1 ≠ p then hop at'.1 st
              else
                (st.finishMsg m).joinCombine p { gateway := g, record := record, lkey := m.lkey } fun c =>
                  { c with parts := tput c.parts m.srcId (floatsIn (m.payload.drop 16)) }
        else if m.len ≠ 24 then st.receive m
        else
          let record := bits (ws.getD 0 0) 55 0
          let slot := bits (ws.getD 2 0) 2 0
          let enter (c : Combine) : Combine :=
            { c with
              rows := if (tget? c.rows slot).isSome then c.rows else tput c.rows slot (bits (ws.getD 1 0) 55 0)
              msgs := if c.msgs.contains msg then c.msgs else c.msgs ++ [msg] }
          match st.domainOf m.lkey record slot with
          | some d =>
            match st.exitOf p0 d with
            | none => again st
            | some (pe, ge, _) =>
              st.joinCombine pe { gateway := ge, record := record, lkey := m.lkey, domain := some d, number := g } enter
          | none =>
            on (st.recordPage m p g record) fun at' st =>
              if at'.1 ≠ p then hop at'.1 st
              else st.joinCombine p { gateway := g, record := record, lkey := m.lkey } enter

/-- COMBINE_RECORD_RECHECK: a waiting gateway reads its combine records again (R329). -/
def execCombineRecordRecheck (pkg gateway : Nat) (st : State) : Out :=
  if packageLimit ≤ pkg ∨ 32 ≤ gateway then .fault .noSuchAgent
  else .next (st.each ((st.pkg pkg).combines.filter fun c => c.gateway == gateway) fun st c => st.tryCombine pkg c)

/-- What a datagram of another domain brings for an agent of this one (R322, R324, R329; log 35): a token record goes to the serving
directory of its name, a partial row or a drop to the gateway of its combine record. -/
def State.takeItem (st : State) (p iod d lkey : Nat) (bs : List Byte) : State :=
  let w0 := (wordsIn bs).getD 0 0
  if bits w0 57 56 = 0 then
    let record := (bs.drop 8).take 64
    let ws := wordsIn record
    let key : Nat × Nat × Nat × Nat := (lkey, ws.getD 1 0 % 2 ^ 56, bits (ws.getD 2 0) 34 32, d)
    let st : State := { st with foreign := st.foreign ++ [key] }
    st.postFrom lkey p iod 0x10 (2 ^ 23 + w0 % 2 ^ 23) 0 record (bits w0 27 24)
  else
    let (n, st) := st.fresh
    let target := epidOf (st.vpackage lkey p) (8 + w0 % 32 / 16) 0 0 + 0x10 + w0 % 16
    let m : Msg :=
      { id := n, lkey := lkey, src := strandLimit + 2 * p + iod, srcId := d, target := target, dst := none, chan := 64, payload := bs,
        len := bs.length, q := none, ts := st.time, ord := false }
    let st : State := { st with msgs := st.msgs ++ [m] }
    st.owe (.combineContribution n)

/-! ### Merging -/

/-- The state with the arrival sets of a package changed. -/
def State.setMerges (st : State) (p : Nat) (f : List Merge → List Merge) : State :=
  st.setPkg p fun g => { g with merges := f g.merges }

/-- A triple (R387): m, s and the vector, as FP32 codes. -/
structure Triple where
  m : Nat
  s : Nat
  v : List Nat
  deriving DecidableEq, Repr

/-- The triple of a row. -/
def tripleIn (bs : List Byte) : Triple :=
  { m := fromBytes (bs.take 4), s := fromBytes ((bs.drop 4).take 4), v := floatsIn (bs.drop 64) }

/-- Bytes 8 to 63 of a triple row are ignored; those of OUT are written as zero (log 38). -/
def Triple.bytes (t : Triple) : List Byte := toBytes 4 t.m ++ toBytes 4 t.s ++ List.replicate 56 0 ++ t.v.flatMap (toBytes 4)

/-- Whether an FP32 code is minus infinity. -/
def isNegInf (x : Nat) : Bool := x == (fmtOf 10).infCode true

/-- Merge of two triples (R389): equal infinities have the difference 0. -/
def mergeTriples (a b : Triple) : Triple :=
  let f := fmtOf 10
  if (f32Num a.m).isNan || (f32Num b.m).isNan then { m := f.quietNan, s := f.quietNan, v := a.v.map fun _ => f.quietNan }
  else if isNegInf b.m then a
  else if isNegInf a.m then b
  else
    let m := minMaxNum true 10 a.m b.m
    let scale (x : Nat) : Num := if x = m then .fin ⟨false, 1, 0⟩ else f32Num (exp2Diff x m)
    let both (x y : Nat) : Nat := toF32 (addNum (mulNum (f32Num x) (scale a.m)) (mulNum (f32Num y) (scale b.m)))
    { m := m, s := both a.s b.s, v := (a.v.zip b.v).map fun p => both p.1 p.2 }

/-- The identity triple. -/
def identityTriple (d : Nat) : Triple := { m := (fmtOf 10).infCode true, s := 0, v := List.replicate d 0 }

/-- Whether a merge record may be used (R387): no reserved bit set, and D in its range. -/
def recordSound (ws : List Nat) : Bool :=
  let w1 := ws.getD 1 0
  let w4 := ws.getD 4 0
  bits (ws.getD 0 0) 63 56 == 0 && bits w1 63 48 == 0 && bits w1 31 26 == 0 && bits w1 24 0 == 0 && bits w4 63 41 == 0 &&
    bits w4 39 36 == 0 && bits w4 31 30 == 0 && ws.getD 5 0 == 0 && ws.getD 6 0 == 0 && ws.getD 7 0 == 0 &&
    1 ≤ bits w1 47 32 && bits w1 47 32 ≤ 16384

/-- Whether a merge record may lie on a page of a class: PRIV, HOME or SPAN (R387; log 135). -/
def mergeClass (cls : Nat) : Bool := cls == 0 || cls == 2 || cls == 3

/-- The notice of a merge and the receipt of its contributions, with which its arrival set goes (R389). -/
def State.endMerge (st : State) (p : Nat) (m : Merge) (ws : List Nat) : State :=
  let w4 := ws.getD 4 0
  let st := st.setMerges p fun ms => ms.filter fun x => !(x.gateway == m.gateway && x.record == m.record && x.lkey == m.lkey)
  let st :=
    if nbit w4 40 then
      st.fromGateway m.lkey p m.gateway (bits w4 23 0) (bits w4 29 24) (bytesOf [m.record]) (bits w4 35 32)
    else st
  (st.each m.msgs State.receiveId)

/-- A complete arrival set is merged (R389): the rows are folded in slot order, OUT is written, then ARR, then FIN, each once the
write before it is committed. A failed check abandons the merge. -/
def State.runMerge (st : State) (p : Nat) (m : Merge) (ws : List Nat) (msg : Nat) : State :=
  let x := gatewayCtx p m.gateway m.lkey msg
  let d := bits (ws.getD 1 0) 47 32
  let slots := (List.range 64).filter (nbit (ws.getD 2 0))
  let again (st : State) : State := st.owe (.mergeContribution msg)
  let on {α : Type} (r : Eng α) (done : α → State → State) : State :=
    match r with
    | .ok y st => done y st
    | .code _ st => st.endMerge p m ws
    | .wait true st => st.endMerge p m []
    | .wait false st => again st
  on (st.readRows x (64 + 4 * d) 1 (slots.map fun i => tget 0 m.rows i)) fun rows st =>
    let out := (rows.map tripleIn).foldl mergeTriples (identityTriple d)
    on (st.writeFirst x 65 (bits (ws.getD 0 0) 55 0) out.bytes) fun _ st =>
      if st.piecesLeft msg then again st
      else
        on (st.writeFirst x 66 (m.record + 24) (toBytes 8 (slots.foldl (fun n i => n + 2 ^ i) 0))) fun _ st =>
          on (st.writeAll x 67 (m.record + 8) (toBytes 8 (ws.getD 1 0 + 2 ^ 25))) fun _ st => st.endMerge p m ws

/-- A contribution checked against its record, which has been read (R388), and entered; one that would open a 65th arrival set is
refused and offered again. -/
def State.joinMerge (st : State) (m : Msg) (p g record row slot : Nat) (ws : List Nat) : State :=
  let is (s : Merge) : Bool := s.gateway == g && s.record == record && s.lkey == m.lkey
  let sets := (st.pkg p).merges
  let old := sets.find? is
  if recordSound ws = false ∨ nbit (ws.getD 1 0) 25 = true ∨ nbit (ws.getD 2 0) slot = false ∨
      (old.any fun s => (tget? s.rows slot).isSome) = true then st.finishMsg m
  else
    match st.pagesOf (gatewayCtx p g m.lkey m.id) row (64 + 4 * bits (ws.getD 1 0) 47 32) .engineRead with
    | .code _ st => st.finishMsg m
    | .wait true st => st.finishMsg m
    | .wait false st => st.owe (.mergeContribution m.id)
    | .ok _ st =>
      if old.isNone ∧ 64 ≤ (sets.filter fun s => s.gateway == g).length then (st.markHeld m.id true).owe (.mergeContribution m.id)
      else
        let st := st.markHeld m.id false
        let s : Merge := old.getD { gateway := g, record := record, lkey := m.lkey }
        let s := { s with rows := tput s.rows slot row, msgs := s.msgs ++ [m.id] }
        let full := ((List.range 64).filter (nbit (ws.getD 2 0))).all fun i => (tget? s.rows i).isSome
        let s := { s with last := if full then some m.id else none }
        let st := st.setMerges p fun ms => (ms.filter fun x => !is x) ++ [s]
        if full then st.runMerge p s ws m.id else st.endJob m.id

/-- MERGE_CONTRIBUTION: a contribution to an edge gateway on channel 2 is checked, enters the arrival set of its record, and
completes the merge when the set equals EXP; on a channel above 2 it is discarded (R388, R389). -/
def execMergeContribution (msg : Nat) (st : State) : Out :=
  .next <|
    match st.msgs.find? fun m => m.id == msg with
    | none => st
    | some m =>
      match st.gatewayOf m with
      | none => st.receive m
      | some (p, g) =>
        let in' := wordsIn m.payload
        let w (i : Nat) : Nat := in'.getD i 0
        if st.heldBack m then st.owe (.mergeContribution msg)
        else if m.chan ≠ 2 ∨ m.len ≠ 24 ∨ 2 ^ 56 ≤ w 0 ∨ 2 ^ 56 ≤ w 1 ∨ 64 ≤ w 2 ∨ w 0 % 64 ≠ 0 ∨ w 1 % 64 ≠ 0 then st.receive m
        else
          let set := (st.pkg p).merges.find? fun s => s.msgs.contains msg
          if set.any fun s => s.last ≠ some msg then st
          else
            match st.readAll (gatewayCtx p g m.lkey msg) 0 (w 0) 64 with
            | .code _ st => st.finishMsg m
            | .wait true st => st.finishMsg m
            | .wait false st => st.owe (.mergeContribution msg)
            | .ok bs st =>
              match set with
              | some s => st.runMerge p s (wordsIn bs) msg
              | none =>
                match st.recordPage m p g (w 0) with
                | .ok at' st =>
                  if at'.1 ≠ p ∨ mergeClass at'.2 = false then st.finishMsg m else st.joinMerge m p g (w 0) (w 1) (w 2) (wordsIn bs)
                | .code _ st => st.finishMsg m
                | .wait _ st => st.owe (.mergeContribution msg)

end Sys2Proof.Machine
end

