-- ==== Sys2Proof/Machine/Apply.lean ====
section
/-!
DEFINITION. The commit point and the apply of a chunk (R98, R102 to R108, R112): its stores at their homes, in windows and in
pools (R50, R77, R82, R87), its reductions (R84), its discards and snapshots (R55), what it sends and starts (R106, R114),
the end of its run (R211), and what agents do to bricks (R146, R147, R405). Then trap entry and the commit token.
-/

namespace Sys2Proof.Machine

/-! ### Translations dropped -/

/-- Whether an INVP covers the translations of some pages of a context (R220). -/
def invpCovers (scope va key n lkey vpage pages : Nat) : Bool :=
  match scope with
  | 0 => (key == 0 || lkey == key) && va / 4096 < vpage + pages && vpage < va / 4096 + n
  | 1 => key != 0 && lkey == key
  | _ => true

/-- The fills of some words of a window that are in flight under a binding go on under a number of their own, with what waits for
them: they fill no window (R237). -/
def State.rebindFills (st : State) (bank w bind : Nat) (pool : Nat → Bool) : State :=
  let filled (p : Packet) : Bool := p.win == some (bank, w) && p.bind == bind && p.pool.any pool
  let hit := (st.net.filter filled).flatMap fun p => p.pool
  if hit.isEmpty then st
  else
    let (n, st) := st.fresh
    let cluster := bank / 2 / 16
    let st : State := { st with net := st.net.map fun p => if filled p then { p with bind := n } else p }
    st.each (st.strandsOn fun k => clusterOf k == cluster) fun st k => st.setStrand k fun t =>
      { t with
        ops := t.ops.map fun o => { o with binds := o.binds.map fun b => if hit.contains b.1 && b.2 == bind then (b.1, n) else b }
        chunks := t.chunks.map fun c => { c with fills := c.fills.map fun f => if hit.contains f.1 && f.2 == bind then (f.1, n) else f } }

/-- Chunks that have stored to a window word in a page whose translation is dropped, and have not reached their commit point, are
squashed: such a word would come to be owned through the dropped entry (R21, R237; log 122, DESIGN CHOICE). -/
def State.squashStores (st : State) (bank : Nat) (hit : Nat → Bool) : State :=
  let b := st.bank bank
  let inside (a : Nat) : Bool := poolCore a == bank / 2 && match b.windowAt (poolOff a - b.kbReg) with
    | some (_, x) => hit ((x.base + (poolOff a - b.kbReg - x.pool)) / 4096)
    | none => false
  let cluster := bank / 2 / 16
  st.each (st.strandsOn fun k => clusterOf k == cluster) fun st k =>
    match (st.strand k).chunks.reverse.find? fun c => !c.committed && c.writes.any fun w => w.locs.any fun a => isPool a && inside a with
    | some c => st.squash k c.id none
    | none => st

/-- The window words in pages whose translations are dropped (R237): the M ones are queued for write-back through the entry
that is dropped, all leave, and a fill of one that is in flight fills nothing, but gives its data to those that already wait for it.
The pages are to be translated afresh. Writes of the pages that are queued already go out through that entry too. -/
def State.dropWindows (st : State) (bank : Nat) (hit : Nat → Bool) : State :=
  let st := st.squashStores bank hit
  let b := st.bank bank
  let st := st.each b.windows fun st w =>
    let inside (i : Nat) : Bool := hit ((w.2.base + 8 * i) / 4096)
    let st := (st.queueWrites bank w.1 (w.2.dirty.filter inside) (4 * bank)).clearWords bank w.1 (w.2.valid.filter inside)
    let st := st.setBank bank fun x => x.setWindow w.1 fun y => { y with stale := nubNat (y.stale ++ (y.pages.map fun p => p.1).filter hit) }
    let pool (q : Nat) : Bool := inside ((poolOff (q * 8) - b.kbReg - w.2.pool) / 8)
    st.rebindFills bank w.1 w.2.bind pool
  let source := sourceCore (bank / 2)
  st.each ((st.bank bank).winQueue.filter fun q => hit (q.va / 4096) && q.entry.isNone) fun st q =>
    if st.tlb.any fun e => e.maps source q.lkey q.va then
      match st.translate source q.lkey q.va .winWrite q.sv none with
      | (.ok e, st) =>
        st.setBank bank fun b => { b with winQueue := updateFirst (· == q) (fun q => { q with entry := some e }) b.winQueue }
      | (.miss _, st) => st
    else st

/-- What holds addresses of the frames of dropped translations and must be gone before their drop is complete (R21): tile and copy
commands, course stores that are staged or in flight, and pieces and posts of writes. A suspended MMV holds none (R283). -/
def State.framesHeld (st : State) (inScope : Nat → Bool) (framed : Nat → Bool) : List (Nat × Nat) :=
  let clusters := st.clusters.filter fun c => inScope (pkgOfDie (dieOfCluster c.1))
  let tasks := clusters.flatMap fun c =>
    (c.2.tasks.filter fun t => match t.kind with
      | .mmv _ _ _ _ rows _ _ => rows.any fun r => r.any framed
      | _ => false).map fun t => (2 * strandLimit + c.1, t.id)
  let copies := clusters.flatMap fun c => (c.2.copies.filter fun m => m.frames.any framed).map fun m => (2 * strandLimit + c.1, m.id)
  let reads := (st.pkgs.filter fun p => inScope p.1).flatMap fun p =>
    (p.2.nvme.filter fun r => r.frames.any framed).map fun r => (2 * strandLimit + r.cluster, r.cmd)
  let flying := (st.stcs.filter fun s => inScope s.src && framed s.addr).map fun s => (3 * strandLimit + s.src, s.addr / 4096)
  let staged := st.pkgs.flatMap fun p => (p.2.staging.filter fun s => inScope s.src).flatMap fun s =>
    (nubNat ((s.cells.filter fun c => framed c.1).map fun c => c.1 / 4096)).map fun f => (3 * strandLimit + s.src, f)
  let writes := (st.net.filter fun p => (p.kind == .piece || p.kind == .posted) && framed (p.line * 64)).map fun p =>
    (4 * strandLimit, p.id)
  tasks ++ copies ++ reads ++ flying ++ staged ++ writes

/-- Whether a translation maps to a storage address of memory. -/
def TlbEntry.frames (e : TlbEntry) (a : Nat) : Bool := storageOf e.frame ≤ a && a < storageOf e.frame + e.pages * 4096

/-- Translations dropped at the sources of some packages (R21): RO copies made through them go, and those in flight leave no copy
(R83), and so do the words of windows in their pages, after write-back where they are M (R237). What an earlier drop has left in use
counts as well. The answer names what must be gone before the drop is complete: chunks, window writes, and what holds addresses of
the pages. -/
def State.dropTranslations (st : State) (inScope : Nat → Bool) (hit : Nat → Nat → Nat → Bool) : List (Nat × Nat) × State :=
  let banks := st.banks.filter fun b => inScope (pkgOf (4 * b.1)) && !(b.2.windows.isEmpty && b.2.winQueue.isEmpty)
  let st := st.each banks fun st b => st.dropWindows b.1 fun page => hit b.2.lkey page 1
  let writes := banks.flatMap fun b =>
    ((st.bank b.1).winQueue.filter fun q => hit q.lkey (q.va / 4096) 1).map fun q => (strandLimit + b.1, q.id)
  let drops (e : TlbEntry) : Bool := inScope (sourcePkg e.source) && hit e.lkey e.vpage e.pages
  let gone := st.tlb.filter drops
  let held := gone ++ st.dropped.filter drops
  let framed (a : Nat) : Bool := held.any fun e => e.frames a
  let ro (line : Nat) : Bool := gone.any fun e => e.cls == 1 && e.frames (line * 64)
  let keep (xs : List Span) : List Span := xs.filter fun x => !(x.cls == 1 && ro x.line)
  let late (p : Packet) : Bool :=
    (p.kind == .read || p.kind == .fill) && p.win.isNone && p.cls == 1 && inScope p.sourcePackage && ro p.line
  let st : State :=
    { st with
      tlb := st.tlb.filter fun e => !drops e
      dropped := (st.dropped ++ gone).filter fun e => !(st.framesHeld (fun _ => true) e.frames).isEmpty
      cores := st.cores.map fun c =>
        if inScope (pkgOfDie (dieOfCluster (c.1 / 16))) then (c.1, { c.2 with l1 := keep c.2.l1 }) else c
      dies := st.dies.map fun d => if inScope (pkgOfDie d.1) then (d.1, { d.2 with peer := keep d.2.peer }) else d
      net := st.net.map fun p => if late p then { p with keep := false } else p }
  let chunks := (st.strands.filter fun e => inScope (pkgOf e.1)).flatMap fun e =>
    (e.2.chunks.filter fun c => c.used.any fun u => hit e.2.lkey u.1 u.2).map fun c => (e.1, c.id)
  (chunks ++ writes ++ st.framesHeld inScope framed, st)

/-- INVP at its chunk's apply (R220). -/
def State.applyInvp (st : State) (k scope : Nat) (domain : Bool) (va key n : Nat) : State :=
  let r := st.dropTranslations (fun p => domain || p == pkgOf k) (invpCovers scope va key n)
  (r.2.setStrand k fun t => { t with await := r.1 }).owe (.invpCompletion k)

/-- INVP_COMPLETION (R21): the strand goes on once every chunk, write and command that used a dropped entry is gone. -/
def execInvpCompletion (k : Nat) (st : State) : Out :=
  if strandLimit ≤ k then .fault .noSuchStrand
  else if (st.strand k).run ≠ .invp ∨ (st.strand k).chunks.isEmpty = false then .next st
  else
    let left := (st.strand k).await.filter st.stillUses
    if left.isEmpty then .next ((st.setStrand k fun t => { t with await := [] }).resumeFrom k .invp)
    else .next ((st.setStrand k fun t => { t with await := left }).owe (.invpCompletion k))

/-! ### Who may run next -/

/-- The selection logic of a core is to look for a candidate (R141). -/
def State.wakeCore (st : State) (core : Nat) : State :=
  if st.due.contains (.handlerSelection core) then st else st.owe (.handlerSelection core)

/-- The member cores of a launch on a package look for a candidate (R141, R148). -/
def State.wakeCores (st : State) (lkey pkg : Nat) : State :=
  match st.launch lkey with
  | none => st
  | some l => st.each (l.members.filter fun c => pkgOfDie (dieOfCluster (c / 16)) == pkg) State.wakeCore

/-- A brick put on the queue of its recorded cluster on a package (R144, R148). A cluster that is not the launch's is replaced
by one that is, whichever (log 39). -/
def State.enqueueBrick (st : State) (lkey addr pri pkg die cl : Nat) : State :=
  match st.launch lkey with
  | none => st
  | some l =>
    let stage := (List.range l.stages).find? fun v => l.package v == some pkg
    let mine := (l.remap.map fun e => e.2).filter fun c => pkgOfDie (dieOfCluster c) == pkg
    match (stage.bind fun v => tget? l.remap (v * 144 + die * 18 + cl)).orElse fun _ =>
        mine[Config.clusterPick st.tick % mine.length]? with
    | none => st
    | some c =>
      let q : QBrick := { lkey := lkey, addr := addr, pri := pri, since := st.time }
      (st.setCluster c fun x => { x with bricks := x.bricks ++ [q] }).wakeCores lkey pkg

/-! ### What agents do to bricks -/

/-- The context of an agent's access to a brick of a launch, in some job: the agent is the host queue unit of a package (R405,
log 39). -/
def brickCtx (lkey pkg job : Nat) : EngCtx := { source := sourceHqu pkg, lkey := lkey, sv := false, strand := 0, cmd := job }

/-- Whether words 0 and 7 of a brick's line may be read and swapped now. A swap at the apply of a join's arrival is part of that
apply (R146): it comes before what chunks that gain the words have yet to store, and it waits only for a course's locks, another
strand's sole holds, and the pieces of an engine write. -/
def State.brickReady (st : State) (p : Place) (n k : Nat) (atApply writes : Bool) (key : List Nat) : Bool :=
  let e := st.entry (p.a / 64)
  let idx := nubNat ((wordsOf p.a n).map (· % 8))
  if atApply then
    !(e.locks.any fun l => idx.contains l.1) && !(e.sole.any fun t => idx.contains t.1 && t.2 != k) && !(e.split.any idx.contains)
  else st.engineReady p.a n writes p.pcie key

/-- A brick made runnable: its words 0 and 7 are read, and where its state is the awaited one its word 7 is swapped, as an atomic at
its home, and it is queued (R146, R147, R152, R405). `kind` is 0 for a message, 1 for the arrival that zeroed its join, 2 for a
declaration. `k` is the strand that arrives. An address that is not canonical or that lies in the aperture drops the act, as a failed
check does (R18, R40, R405), and so does the loss of the brick's home (R300). -/
def State.swapBrick (st : State) (k lkey pkg job addr kind link : Nat) : Eng Unit :=
  let x := brickCtx lkey pkg job
  if 2 ^ 56 ≤ addr ∨ bits addr 55 48 = 0xFF then .code 1 st
  else
  match st.engineAt x addr .engineRead with
  | .code c st => .code c st
  | .wait l st => .wait l st
  | .ok p st =>
    if (st.pkg (pkgOfAddr p.a)).down then .code 5 (st.leavePlaces x.key)
    else if st.brickReady p 64 k (kind == 1) false x.key = false then .wait false (st.snoopFor p.a 64 false p.pcie x.key)
    else
      let w0 := st.currentNat p.a 8
      let w7 := st.currentNat (p.a + 56) 8
      let state := bits w7 60 58
      let found := if kind = 2 then state == 4 else state == 1 && (kind == 0 || bits w7 51 0 == link)
      if found = false then .ok () (st.leavePlaces x.key)
      else
        match st.engineAt x (addr + 56) .engineWrite with
        | .code c st => .code c st
        | .wait l st => .wait l st
        | .ok q st =>
          if st.brickReady q 8 k (kind == 1) true x.key = false then .wait false (st.snoopFor q.a 8 true q.pcie x.key)
          else
            let line := q.a / 64
            let st := st.writeLine line (cellsAt q.a (toBytes 8 (w7 - state * 2 ^ 58 + 2 ^ 59))) q.cls q.owner none none q.pcie
            let st := ((st.noteAtomic line).leavePlaces x.key).setLaunch lkey fun l =>
              { l with waits := l.waits.filter (· != addr), lost := l.lost.filter (· != addr) }
            .ok () (st.enqueueBrick lkey addr (bits w7 63 61) (pkgOfAddr p.a) (bits w0 63 61) (bits w0 60 56))

/-- A brick that an act has left unresumed, for its access failed otherwise than by a missing translation, is counted among those
abandoned (R405). An address that names no brick, for it is not canonical or lies in the aperture, is not. -/
def State.leaveBrick (st : State) (lkey addr : Nat) : State :=
  if 2 ^ 56 ≤ addr ∨ bits addr 55 48 = 0xFF then st
  else st.setLaunch lkey fun l => { l with lost := addr :: l.lost.filter (· != addr) }

/-- An act of an agent on a brick, at the instant of the caller's step: where it must wait it goes on as a message between agents,
counted in no region (R405). -/
def State.actOnBrick (st : State) (k lkey pkg addr kind link : Nat) : State :=
  let (id, st) := st.fresh
  match st.swapBrick k lkey pkg id addr kind link with
  | .ok _ st => st
  | .code _ st => st.leaveBrick lkey addr
  | .wait true st => st
  | .wait false st =>
    let m : Msg :=
      { id := id, lkey := lkey, src := pkg, srcId := 0, target := 0, dst := some link, brick := some addr, chan := kind, payload := [],
        len := 0, q := none, ts := st.time, ord := false }
    let st : State := { st with msgs := st.msgs ++ [m] }
    st.owe (.brickMessageArrival id)

/-- BRICK_MESSAGE_ARRIVAL: a message that names a brick takes effect or is discarded, and is counted as received (R147); a
swap for a join or a declaration that waits for a page is made by the same step (R405). -/
def execBrickMessageArrival (msg : Nat) (st : State) : Out :=
  .next <|
    match st.msgs.find? fun m => m.id == msg with
    | none => st
    | some m =>
      let pkg := if m.dst.isNone then pkgOf (8 * m.src) else m.src
      match m.brick with
      | none => st
      | some addr =>
        match st.swapBrick noStrand m.lkey pkg msg addr m.chan (m.dst.getD 0) with
        | .ok _ st => st.receive m
        | .code _ st => (st.leaveBrick m.lkey addr).receive m
        | .wait true st => st.receive m
        | .wait false st => st.owe (.brickMessageArrival msg)

/-! ### Stores -/

/-- The new bytes of a chunk: its writes in program order over the current values, and the joins that it zeroes (R98, R105,
R145). Updates of RED lines are left out, and so are arrivals at a join whose COUNT is zero, which store nothing (R145, R304). -/
def State.newCells (st : State) (c : Chunk) : Tab Byte × List (Nat × Nat) :=
  c.writes.foldl (fun (r : Tab Byte × List (Nat × Nat)) w =>
    match w.new with
    | none => ((w.locs.zip w.data).foldl (fun t x => tput t x.1 x.2) r.1, r.2)
    | some (op, b, e) =>
      let a := w.locs.headD 0
      if tget 3 c.classes (wordOf a) = 4 then r
      else
        let now (x : Nat) : Byte := (tget? r.1 x).getD (if isPool x then st.mem.read x else st.currentByte x)
        let n := w.locs.length
        let old := fromBytes (w.locs.map now)
        let new := versionNew op n old b e
        if op == 16 && bits old 63 50 == 0 then r
        else
        let zeroed := op == 16 && bits old 63 50 == 1 && bits old 49 0 != 0
        ((w.locs.zip (toBytes n new)).foldl (fun t x => tput t x.1 x.2) r.1,
          if zeroed then r.2 ++ [(wordOf a, bits old 49 0 * 64)] else r.2)) ([], [])

/-- Bytes of cells put into the spans that hold them. -/
def updateSpans (cells : Tab Byte) (xs : List Span) : List Span := xs.map fun x => x.update cells

/-- The stores of a chunk to words of a SPAN line of another package: its die's peer store owns them (R64, R77, R87), which may take
another line's room (R62). -/
def State.applyPeer (st : State) (k line : Nat) (cells : Tab Byte) (ws : List Nat) : State :=
  let d := dieOf k
  let g := Agent.peer d
  let full := ws.flatMap fun w => wordCells w fun a => (tget? cells a).getD (st.currentByte a)
  let own := st.l1Of (bankOf k) (line * 64)
  let st := ((st.takeWords k line ws g).dropLocal g (some own) none ws).conflict k g ws
  let st := st.setCore own fun x => { x with l1 := updateSpans cells x.l1 }
  let st := st.setDie d fun x => { x with peer := x.peer ++ (spansOf line 3 ws full).map fun s => { s with owned := true } }
  (st.peerRoomFor d line).testWords ws

/-- The stores of a chunk to memory words of one line, applied at their home or owned by the die's peer store (R77, R81, R82); those
of host memory go out word by word (R121, R126). The writing core keeps its updated copies; where it keeps those of SPAN words, the
home records it. -/
def State.applyLine (st : State) (k line : Nat) (cells : Tab Byte) (cls : Nat) (pcie : Bool) (atomics : List Nat) : State :=
  let ws := nubNat (cells.map fun c => wordOf c.1)
  if cls = 3 ∧ isPeer (dieOf k) (line * 64) = true then st.applyPeer k line cells ws
  else
    let own := st.l1Of (bankOf k) (line * 64)
    let g := Agent.core own
    let lkey := (st.strand k).lkey
    let held := ws.filter fun w => (st.entry line).state (w % 8) == .m
    let cells := cells ++ held.flatMap fun w => (wordCells w st.currentByte).filter fun c => !(cells.any fun x => x.1 == c.1)
    let kept := if cls = 3 then ws.filter fun w => (st.core own).l1.any fun x => x.overlaps [w] else []
    let rest := ws.filter fun w => !kept.contains w
    let st := st.setCore own fun x => { x with l1 := updateSpans cells x.l1 }
    let st := if cls = 0 then st.setDie (dieOf k) fun x => { x with peer := updateSpans cells x.peer } else st
    let st := if kept.isEmpty then st else st.writeThrough line (indexes kept) cls lkey (some g) (some k)
    let st := if rest.isEmpty then st else st.writeThrough line (indexes rest) cls lkey none (some k)
    let st := if cls = 3 then (st.dropLocal g (some own) none ws).conflict k g ws else st
    (if isHost (line * 64) then st.putHostCells line cells pcie k cls lkey atomics else st.applyCells cells).countAccess (line * 64)

/-- The bytes that a chunk has not stored of the SPAN window words that it stores in part and that are no longer valid: ownership
is granted with data (R50, R77). A word of another class has been filled at the store's execution, and its pool bytes are its value
(R50). -/
def State.grantedCells (st : State) (cells : Tab Byte) : Tab Byte :=
  (nubNat (cells.map fun c => wordOf c.1)).flatMap fun p =>
    let bank := bankAt (poolCore (p * 8)) (poolOff (p * 8))
    match (st.bank bank).windowAt (poolOff (p * 8) - (st.bank bank).kbReg) with
    | none => []
    | some (w, x) =>
      let missing := (rangeFrom 0 8).filter fun i => !(cells.any fun c => c.1 == p * 8 + i)
      if x.cls ≠ 3 ∨ (st.invalidWords bank w [p]).isEmpty then []
      else missing.map fun i => (p * 8 + i, st.currentByte ((st.windowPhys (p * 8)).getD 0 / 8 * 8 + i))

/-- The stores of a chunk to pool bytes: they are written, and the words in windows become M. -/
def State.applyPool (st : State) (k : Nat) (cells : Tab Byte) : State :=
  let st := { st with mem := st.mem.writeCells (cells ++ st.grantedCells cells) }
  let places := (nubNat (cells.map fun c => wordOf c.1)).filterMap fun p =>
    let bank := bankAt (poolCore (p * 8)) (poolOff (p * 8))
    ((st.bank bank).windowAt (poolOff (p * 8) - (st.bank bank).kbReg)).map fun e => (bank, e.1, p)
  st.each (nubNat (places.map fun x => x.1 * 8 + x.2.1)) fun st key =>
    st.applyWindow k (key / 8) (key % 8) ((places.filter fun x => x.1 * 8 + x.2.1 == key).map fun x => x.2.2)

/-- A chunk that stored to pool bytes delivers its write signature to the other strands of its launch on the cluster
(R102). -/
def State.deliverSignature (st : State) (k : Nat) (c : Chunk) : State :=
  if c.writes.any fun w => w.locs.any isPool then
    st.each (st.strandsOn fun j => clusterOf j == clusterOf k && j != k) fun st j =>
      if (st.strand j).lkey ≠ (st.strand k).lkey then st
      else
        match (st.strand j).chunks.reverse.find? fun d => !d.committed && sigMeets c.wsig d.rsig with
        | some d => st.squash j d.id none
        | none => st
  else st

/-! ### Reductions -/

/-- A partial sent to its home, as in a combine (R84). -/
def State.sendPartial (st : State) (cl : Nat) (p : Partial) : State :=
  match p.value with
  | none => st
  | some v =>
    st.send { id := 0, kind := .partialAns p.op p.n, home := homeOf p.addr, holder := .redbuf cl, line := p.addr / 64,
              words := [wordOf p.addr], cells := cellsAt p.addr (toBytes p.n v) }

/-- The lines that a reduction buffer keeps (R71). -/
def redLines : Nat := 512

/-- A full reduction buffer gives up a line: its partials are sent home, and after them the end of each word's registration
(R86). -/
def State.redRoom (st : State) (cl line : Nat) : State :=
  let lines := nubNat ((st.cluster cl).partials.map fun p => p.addr / 64)
  if lines.contains line ∨ lines.length < redLines then st
  else
    match lines[Config.victimPick st.tick % lines.length]? with
    | none => st
    | some l =>
      let mine := (st.cluster cl).partials.filter fun p => p.addr / 64 == l
      let st := st.setCluster cl fun c => { c with partials := c.partials.filter fun p => p.addr / 64 != l }
      let st := st.each mine fun st p => st.sendPartial cl p
      st.each (nubNat (mine.map fun p => wordOf p.addr)) fun st w => st.endRegistration cl w

/-- A reduction applied in its cluster's buffer, which is registered at the home (R84, R106); a partial of another operation or
size is first sent home. -/
def State.applyRed (st : State) (k a n op v : Nat) : State :=
  let cl := clusterOf k
  let op' := if op = 1 then 0 else op
  let v' := if op = 1 then (2 ^ (8 * n) - v) % 2 ^ (8 * n) else v
  let w := wordOf a
  let st := st.redRoom cl (a / 64)
  let other := (st.cluster cl).partials.filter fun p => wordOf p.addr == w && (p.op != op' || p.n != n)
  let st := st.each other fun st p => st.sendPartial cl p
  let st := st.setCluster cl fun c =>
    { c with partials := c.partials.filter fun p => !(wordOf p.addr == w && (p.op != op' || p.n != n)) }
  let st := if st.registered cl w then st else st.register cl (a / 64) [w % 8] k
  st.setCluster cl fun c =>
    match c.partials.find? fun p => p.addr == a with
    | some p =>
      let new := match p.value with
        | some old => atomicNew op' n old v' 0
        | none => v'
      { c with partials := updateFirst (fun q => q.addr == a) (fun q => { q with value := some new }) c.partials }
    | none =>
      let new := if op' = 12 then v' else atomicNew op' n (reduceIdentity op' n) v' 0
      { c with partials := c.partials ++ [{ addr := a, n := n, op := op', value := some new }] }

/-- The atomics of a chunk are recorded at the dies where they execute (R96). -/
def State.recordAtomics (st : State) (c : Chunk) : State :=
  let lines := nubNat ((c.writes.filter fun w => w.new.isSome).flatMap fun w =>
    (w.locs.filter fun a => a < poolBase && tget 3 c.classes (wordOf a) != 4).map fun a => a / 64)
  st.each lines State.noteAtomic

/-- The words of host memory behind a PCIe-only port on which a chunk's atomics act by AtomicOps (R94, R297). Firmware performs those
of other operations, while KHOSTEMU allows them, by a read and a write (R95). -/
def Chunk.atomicOps (c : Chunk) : List Nat :=
  nubNat (c.writes.flatMap fun w => match w.new with
    | some (op, _, _) => if pcieAtomic op then (w.locs.map wordOf).filter c.pcie.contains else []
    | none => [])

/-- The stores of a chunk applied, without the words that its LDL.DROP instructions discard (R55, R102); an arrival that zeroes its
join swaps the brick at the same instant (R146). -/
def State.applyStores (st : State) (k : Nat) (c : Chunk) : State :=
  let dropped := c.held.flatMap fun h => match h with
    | .drop ws => ws
    | _ => []
  let (all, joins) := st.newCells c
  let cells := all.filter fun x => !dropped.contains (wordOf x.1)
  let memory := cells.filter fun x => x.1 < poolBase
  let st := st.each (nubNat (memory.map fun x => x.1 / 64)) fun st l =>
    let here := memory.filter fun x => x.1 / 64 == l
    st.applyLine k l here (tget 3 c.classes (wordOf (here.headD (0, 0)).1)) (here.any fun x => c.pcie.contains (wordOf x.1)) c.atomicOps
  let st := st.applyPool k (cells.filter fun x => isPool x.1)
  let st := st.each c.writes fun st w =>
    match w.new with
    | some (op, b, _) =>
      if tget 3 c.classes (wordOf (w.locs.headD 0)) = 4 then st.applyRed k (w.locs.headD 0) w.locs.length op b else st
    | none => st
  st.each joins fun st j =>
    st.actOnBrick k (st.strand k).lkey (pkgOfAddr (j.1 * 8)) j.2 1 (((tget? c.origin j.1).map fun o => bits o.1 55 4).getD 0)

/-! ### Discards -/

/-- The discards of an LDL.DROP (R55): M window words become I and owned peer spans are dropped, neither written back, and with an
owned span every copy that the die's cores hold of its words. -/
def State.applyDrop (st : State) (k : Nat) (ws : List Nat) : State :=
  let pools := ws.filter fun w => isPool (w * 8)
  let st := st.each pools fun st p =>
    let bank := bankAt (poolCore (p * 8)) (poolOff (p * 8))
    match (st.bank bank).windowAt (poolOff (p * 8) - (st.bank bank).kbReg) with
    | none => st
    | some (w, x) =>
      let i := (poolOff (p * 8) - (st.bank bank).kbReg - x.pool) / 8
      let word := x.phys (x.base + 8 * i) / 8
      let st := if x.cls = 3 ∧ x.dirty.contains i = true then
          let g := st.holderOf (4 * bank) (word * 8)
          st.setEntry (lineOfWord word) fun e =>
            if e.owner (word % 8) = some g then (e.setStates [word % 8] .u).dropHolders [word % 8] none else e
        else st
      st.clearWords bank w [i]
  let mem := ws.filter fun w => !isPool (w * 8)
  let g := Agent.peer (dieOf k)
  let owned := mem.filter fun w => (st.die (dieOf k)).peer.any fun x => x.owned && x.overlaps [w]
  let st := st.each owned fun st w => st.setEntry (lineOfWord w) fun e =>
    if e.owner (w % 8) = some g then (e.setStates [w % 8] .u).dropHolders [w % 8] none else e
  let st := st.setDie (dieOf k) fun x => { x with peer := splitOwned owned true x.peer }
  if owned.isEmpty then st else st.dropSpans g owned

/-! ### The end of a run -/

/-- The end of a run or brick at its last chunk's apply (R138, R150, R211, R305): its message leaves its channel's count and
its inbox entry is freed, it is counted as received in its region and in each region of its set, its operations are detached,
its lease passes on, and the strand is free. -/
def State.endRunNow (st : State) (k : Nat) : State :=
  let t := st.strand k
  let st := match t.info.entry with
    | some e => st.setBank (bankOf k) fun b =>
        { b with inbox := b.inbox.filter (· != e), msgs := b.msgs.filter fun m => !(m.started && m.entry == e) }
    | none => st
  let qs := match t.info.region with
    | some q => q :: t.info.qset
    | none => t.info.qset
  let st := st.each qs fun st q => st.countRecv (coreOf k) t.lkey q
  let st := st.setStrand k fun t =>
    { t with
      run := .free, info := {}, tf := false, sv := false, marks := [], watches := [], ovf := false, trap := none, await := []
      ops := (t.ops.filter fun o => o.counter != .ld).map fun o => { o with detached := true } }
  (st.releaseLease k).wakeCore (coreOf k)

/-! ### The apply -/

/-- The order in which the held effects of one chunk are applied: discards, then snapshots (R55), then registers, courses
(R116), messages, the end of the run and what it enqueues, commands, and acknowledgements. -/
def Held.rank (h : Held) : Nat :=
  match h with
  | .drop _ => 0
  | .unmap _ => 1
  | .kwr _ _ => 2
  | .hset _ _ => 2
  | .hmask _ _ => 2
  | .cbegin _ => 3
  | .lay _ _ => 4
  | .abandon _ => 4
  | .stc _ _ _ _ _ => 5
  | .qopen _ => 6
  | .msg _ _ _ _ _ _ => 6
  | .brickMsg _ _ => 6
  | .slotRel _ _ => 7
  | .cmd _ => 7
  | .task _ => 7
  | .suspend _ _ => 7
  | .endRun => 8
  | .enqueue _ _ => 9
  | .qwait _ _ => 9
  | .invp _ _ _ _ _ => 10
  | .ack _ => 11

/-- An engine command starts (R106, R114). -/
def State.applyCmd (st : State) (k id : Nat) : State :=
  match tget? st.cmds id with
  | some c => match c.kind with
    | .flush w => st.flushNow c w
    | _ => st.applyEx id
  | none => st.applyCopy k id

/-- The package that homes a brick which a chunk has written. -/
def State.brickPackage (st : State) (k : Nat) (c : Chunk) (addr : Nat) : Nat :=
  match c.origin.find? fun o => o.2.1 == addr % 2 ^ 56 with
  | some o =>
    let a := o.1 * 8
    pkgOfAddr (if isPool a then (st.windowPhys a).getD (pkgOf k * 2 ^ 50) else a)
  | none => pkgOf k

/-- One held effect takes place. -/
def State.applyHeld (st : State) (k lkey : Nat) (c : Chunk) (h : Held) : State :=
  match h with
  | .drop ws => st.applyDrop k ws
  | .unmap w => st.unmapNow k w
  | .kwr reg v => st.setControl k reg v
  | .hset chan x => (st.setHandler k chan x).wakeCore (coreOf k)
  | .hmask mask on => (st.maskHandlers k mask on).wakeCore (coreOf k)
  | .cbegin num => st.openCourse (pkgOf k) num
  | .lay handle seq => st.applyLay k handle seq
  | .abandon handle => st.applyAbandon k handle
  | .stc handle addr n value seq => st.applyStc k handle addr n value seq
  | .qopen q => st.openRegion k q
  | .msg target chan payload len q ts => st.sendHeld k target chan payload len q ts
  | .brickMsg addr q => st.sendBrick k addr q
  | .slotRel first count => (st.releaseSlots k first count).owe (.copyCommandStart (clusterOf k))
  | .cmd id => st.applyCmd k id
  | .task id => st.applyTask (clusterOf k) id
  | .endRun => st.endRunNow k
  | .enqueue addr pri =>
    let e := ((st.launch lkey).map fun l => l.epid (coreOf k)).getD (coreEpid (coreOf k))
    st.enqueueBrick lkey addr pri (st.brickPackage k c addr) (bits e 11 9) (bits e 8 4)
  | .suspend addr waits =>
    let i := (st.strand k).info
    st.setLaunch lkey fun l =>
      { l with
        waits := l.waits.filter (· != addr) ++ if waits then [addr] else []
        lost := l.lost.filter (· != addr)
        suspended := l.suspended.filter (fun s => s.1 != addr) ++ if i.ord then [(addr, i.ts, i.ep)] else [] }
  | .qwait addr q => st.setLaunch lkey fun l => { l with quiet := l.quiet ++ [(addr, q, 0)] }
  | .invp scope domain va key n => st.applyInvp k scope domain va key n
  | .ack seq => st.owe (.storeAcknowledgement k seq)

/-- What a committed chunk held is given back: words in TW, marks, pool locks and window uses; the squash count returns to 0,
and where the chunk ran in sole-commit mode its holds and sole ticket go and the die's token passes on (R79, R102, R107). A
FENCE.SY then makes the waits of R122. -/
def State.retireChunk (st : State) (k : Nat) (c : Chunk) : State :=
  let st := st.releaseChunk k c.id
  let st := st.setStrand k fun t =>
    { t with chunks := t.chunks.filter (fun d => d.id != c.id), squashes := 0, sole := if c.sole then none else t.sole }
  let st : State := { st with banks := st.banks.map fun b =>
    if (b.2.windows.any fun w => w.2.users.contains c.id) = true then
      (b.1, { b.2 with windows := b.2.windows.map fun w => (w.1, { w.2 with users := w.2.users.filter (· != c.id) }) })
    else b }
  let st := if c.fenceSy then st.setStrand k fun t => { t with await := st.fenceWaits k } else st
  if c.sole ∧ (st.die (dieOf k)).token = some k then
    (st.setDie (dieOf k) fun d => { d with token := none }).grantToken (dieOf k)
  else st

/-- What waits for a strand's earlier chunks goes on: instructions of the strand that read an atomic's word, instructions of its
cluster that read a pool word which the chunk locked, a fence, a trap, and the next chunk's commit. -/
def State.afterCommit (st : State) (k : Nat) : State :=
  let ks := k :: st.strandsOn fun j => clusterOf j == clusterOf k && j != k
  let waiting := ks.flatMap fun j => (st.strand j).chunks.reverse.flatMap fun c =>
    (c.parked.filter fun p => p.1 == noPage).map fun p => (j, c.id, p.2)
  let st := st.each waiting fun st w =>
    if (st.chunkOf w.1 w.2.1).any fun c => c.parked.any fun m => m.2 == w.2.2 then st.performAgain w.1 w.2.1 w.2.2 else st
  let st := st.wakeFence k
  let t := st.strand k
  match t.chunks.getLast? with
  | some c => if c.sealed && !st.due.contains (.commitPoint k) then st.owe (.commitPoint k) else st
  | none => if t.run == .trapping && !st.due.contains (.trapEntry k) then st.owe (.trapEntry k) else st

/-- The apply of a chunk past its commit point (R102): its stores, then what it held. -/
def State.applyChunk (st : State) (k : Nat) (c : Chunk) : State :=
  let lkey := (st.strand k).lkey
  let st := st.applyStores k c
  let st := st.each (List.range 12) fun st r =>
    st.each (c.held.filter fun h => h.rank == r) fun st h => st.applyHeld k lkey c h
  (st.retireChunk k c).afterCommit k

/-- The waits of a chunk that ends with ST.REL.SY are looked at: once they are over its release is performed (R122). -/
def State.finishRelease (st : State) (k : Nat) (c : Chunk) : State :=
  let writes := c.writesOut.filter fun id => st.net.any fun p => p.id == id
  let snoops := c.snoopsOut.filter (st.pkg (pkgOf k)).snoops.contains
  if writes.isEmpty && snoops.isEmpty then st.applyChunk k c
  else (st.setChunkOf k c.id fun d => { d with writesOut := writes, snoopsOut := snoops }).owe (.commitPoint k)

/-- The commit point of a chunk that has gained everything (R102): it delivers its signature and is applied. One that ends with
ST.REL.SY first applies its earlier stores, and its release waits for what R122 names. -/
def State.commit (st : State) (k : Nat) (c : Chunk) : State :=
  let st := (st.recordAtomics c).deliverSignature k c
  if c.sysWait && !c.fenceSy then
    let snoops := (st.pkg (pkgOf k)).snoops.filter fun l => !isHost (l * 64)
    let st := st.applyStores k { c with writes := c.writes.dropLast }
    let d : Chunk :=
      { c with writes := c.writes.drop (c.writes.length - 1), committed := true, writesOut := st.writesBefore, snoopsOut := snoops }
    (st.setChunkOf k c.id fun _ => d).finishRelease k d
  else st.applyChunk k c

/-- Whether every access of a chunk has been made and has its data (R98, R177). -/
def State.performed (st : State) (k : Nat) (c : Chunk) : Bool :=
  c.parked.isEmpty && c.fills.isEmpty &&
    (st.strand k).ops.all fun o => !(o.chunk == c.id && o.counter == .ld) || o.done || (match o.fin with
      | .answer _ _ => true
      | .expert _ _ _ => true
      | _ => o.need.isEmpty && (!o.locs.isEmpty || o.vas.isEmpty))

/-- Whether an ordered run may gain: it is, or has once been, the horizon (R108). -/
def State.atHorizon (st : State) (k : Nat) : Bool :=
  let t := st.strand k
  !t.ordered || t.info.wasHorizon || ((st.launchOf k).map fun l => l.horizon) == some (t.info.ts, t.info.ep)

/-- Whether an invalidation or a recall for write that a home has already sent to a chunk's core, and that would squash the chunk,
has not yet arrived: the grants and answers that a commit point needs come behind it (R78, R102, R105, log 99). -/
def State.overtaken (st : State) (k : Nat) (c : Chunk) : Bool :=
  st.net.any fun p =>
    (p.kind == .inval && !(p.seq == 1 && p.strand == k) || p.kind == .recall true) && p.words.any (sigHits c.rsig) &&
      (st.coresOf p.holder).contains (coreOf k)

/-- A chunk without its arrivals at joins whose COUNT is zero: they store nothing, and their words are not gained (R145, R304). -/
def State.pruneJoins (st : State) (c : Chunk) : Chunk :=
  let idle (n : Nat) (w : VWrite) : Bool := match w.new with
    | some (16, _, _) =>
      let cells := (st.newCells { c with writes := c.writes.take n }).1
      bits (fromBytes (w.locs.map fun a => (tget? cells a).getD (st.currentByte a))) 63 50 == 0
    | _ => false
  { c with writes := ((List.range c.writes.length).zip c.writes).filterMap fun x => if idle x.1 x.2 then none else some x.2 }

/-- Whether a write of the same home die is on its way to a PCIe-only port on which a chunk's AtomicOp is to execute, behind which it
travels (R94, R121). -/
def State.atomicsWait (st : State) (c : Chunk) : Bool :=
  c.atomicOps.any fun w => st.net.any fun p => p.kind == .posted && p.home == homeOf (w * 8)

/-- Whether the host has written what a chunk's atomic read through a PCIe-only port: a write between the read and the apply
squashes the chunk (R94, R297). -/
def State.atomicStale (st : State) (c : Chunk) : Bool := c.amoRead.any fun x => c.atomicOps.contains (wordOf x.1) && st.homeByte x.1 != x.2

/-- A chunk that gains, once every grant, answer and resolution is in: a registration that a combine has ended since is sent again
(R106), its pool words are locked, and it commits (R102). An AtomicOp of the chunk executes at the host with the commit (R94). -/
def State.tryCommit (st : State) (k : Nat) (c : Chunk) : State :=
  if !(st.unregistered k c).isEmpty then (st.askRegister k c).owe (.commitPoint k)
  else if st.atomicsWait c then st.owe (.commitPoint k)
  else if st.atomicStale c then st.squash k c.id none
  else
    match st.lockPool k c with
    | (true, st) => match st.chunkOf k c.id with
      | some c => st.commit k c
      | none => st
    | (false, st) => if (st.chunkOf k c.id).isSome then st.owe (.commitPoint k) else st

/-- COMMIT_POINT: the oldest chunk of a strand, once it is sealed, gains; when every grant, lock, answer and resolution is in
and no other strand holds the die's token, it commits and is applied (R102, R107, R108, R112); past its commit point, a
release goes on once the waits of R122 are over. -/
def execCommitPoint (k : Nat) (st : State) : Out :=
  if strandLimit ≤ k then .fault .noSuchStrand
  else
    .next <|
      match (st.strand k).chunks.getLast? with
      | none => st
      | some c =>
        if c.committed then st.finishRelease k c
        else if c.sealed = false then st
        else if st.performed k c = false ∨ st.atHorizon k = false then st.owe (.commitPoint k)
        else
          let st := if (st.strand k).ordered then st.setStrand k fun t => { t with info := { t.info with wasHorizon := true } } else st
          let st := if c.gaining then st
            else
              let c := st.pruneJoins c
              (st.setChunkOf k c.id fun _ => c).gain k c
          match st.chunkOf k c.id with
          | none => st
          | some c =>
            let st := if (st.strand k).watches.any fun w => w.st == .pending && !w.asked && w.chunk == c.id then st.askWatches k c.id false else st
            let token := match (st.die (dieOf k)).token with
              | some j => j != k
              | none => false
            let pending := (st.strand k).watches.any fun w => w.st == .pending && w.chunk == c.id
            let asks := (st.chunkOf k c.id).any fun c => !c.toOwn.isEmpty || !c.toConfirm.isEmpty
            if asks || pending || token || st.overtaken k c then st.owe (.commitPoint k)
            else st.tryCommit k c

/-- SOLE_COMMIT_TOKEN_GRANT (R107). -/
def execSoleCommitTokenGrant (die : Nat) (st : State) : Out :=
  if 8 * packageLimit ≤ die then .fault .noSuchAgent else .next (st.grantToken die)

/-- TRAP_ENTRY: once every earlier chunk of the strand has committed, its trap record is written and it enters the handler
(R360, R361). -/
def execTrapEntry (k : Nat) (st : State) : Out :=
  if strandLimit ≤ k then .fault .noSuchStrand
  else if (st.strand k).run = .trapping ∧ ((st.strand k).chunks.all fun c => c.committed) = true then .next (st.enterTrap k)
  else .next st

end Sys2Proof.Machine
end

