-- ==== Sys2Proof/Machine/Mtu.lean ====
section
/-!
DEFINITION. The memory-side translation units: walks for missing translations (R19, R26, R30), the end of a park (R28, R399,
R400), the access counters and their dump (R31, R33), page moves and changes of bias (R32, R89, R90), and the writes of the
fault ring's and the candidate ring's registers (R397, R398).
-/

namespace Sys2Proof.Machine

/-- The kind of access that a code of a fault record names (R27). -/
def accessOfKind (kind : Nat) : Option Access :=
  match kind with
  | 0 => some .load
  | 1 => some .store
  | 2 => some .amo
  | 3 => some .stc
  | 4 => some .engineRead
  | 5 => some .engineWrite
  | 6 => some .fill
  | 7 => some .winWrite
  | _ => none

/-! ### The end of a park -/

/-- The memory instructions of a package's chunks that wait for a page at no park, with strand and chunk. -/
def State.unparked (st : State) (p : Nat) : List (Nat × Nat × MemOp) :=
  (st.strands.filter fun e => pkgOf e.1 == p).flatMap fun e =>
    e.2.chunks.flatMap fun c =>
      (c.parked.filter fun m =>
        m.1 != noPage && (st.parkOf (sourceCore (coreOf e.1)) e.2.lkey (m.1 * 4096)).isNone).map fun m => (e.1, c.id, m.2)

/-- The accesses of chunks of a package that wait for a page at no park are made again: those of a park that has ended, and then
those that a full unit refused, in the order of their sources' retries (R28, R30). -/
def State.retryParked (st : State) (p : Nat) : State :=
  let all := st.unparked p
  let is (r : Refused) (e : Nat × Nat × MemOp) : Bool := r.source == sourceCore (coreOf e.1) && r.tag == (e.2.2.who e.1 e.2.1).tag
  let fresh := all.filter fun e => !(st.refused.any fun r => is r e)
  let again := st.refused.flatMap fun r => all.filter (is r)
  st.each (fresh ++ again) fun st e =>
    if ((st.chunkOf e.1 e.2.1).map fun c => c.parked.any fun m => m.2 == e.2.2) = some true then st.performAgain e.1 e.2.1 e.2.2 else st

/-- The cores of a package at which bricks wait for a refused request look for a candidate again (R30, R160). -/
def State.wakeRefused (st : State) (p : Nat) : State :=
  st.each (nubNat ((st.refused.filter fun r => r.pkg == p).map fun r => r.lkey)) fun st lkey => st.wakeCores lkey p

/-- TRANSLATION_MISS: the unit walks for the source and returns the leaf, or parks the access (R19, R26). An aperture or
non-canonical address is not translated (R40, R18). A code that R27 reserves names no access: the source then sends again what its
unit has refused (R30). -/
def execTranslationMiss (source lkey va kind : Nat) (st : State) : Out :=
  if packageLimit ≤ sourcePkg source then .fault .noSuchAgent
  else
    match accessOfKind kind with
    | none => .next ((st.retryParked (sourcePkg source)).wakeRefused (sourcePkg source))
    | some acc =>
      if 2 ^ 56 ≤ va ∨ bits va 55 48 = 0xFF ∨ (st.launch lkey).isNone then .next st
      else
        match st.translate source lkey va acc true (some 0) with
        | (.ok _, st) => .next st
        | (.miss m, st) => .next (st.park source lkey va acc m 0)

/-- A park ends: every access parked on its page is walked for again, and then completes, parks anew or fails a later step
(R28, R400). Engines that wait for the page try again by themselves, and cores that wait for a brick's page make another
selection. -/
def State.endPark (st : State) (k : Park) : State :=
  ((State.retryParked { st with parks := st.parks.filter (· != k) } k.pkg).wakeCores k.lkey k.pkg).wakeRefused k.pkg

/-- MTU_RESUME: a PARKID that names no park of the unit has no effect (R28). -/
def execMtuResume (pkg unit parkId : Nat) (st : State) : Out :=
  if packageLimit ≤ pkg ∨ 10 ≤ unit then .fault .noSuchAgent
  else
    match st.parks.find? fun k => k.pkg == pkg && k.unit == unit && k.id == parkId % 2 ^ 32 with
    | some k => .next (st.endPark k)
    | none => .next st

/-- MTU_KILL: the context's parked accesses are discarded at every unit of the domain, and its launch is killed (R28, R363). -/
def execMtuKill (pkg unit lkey : Nat) (st : State) : Out :=
  if packageLimit ≤ pkg ∨ 10 ≤ unit then .fault .noSuchAgent else .next (st.kill (lkey % 2 ^ 16))

/-! ### Counters -/

/-- The counters of a unit that belong to attached memory, in the order of a dump: the unit's ports follow one another, each
from its own index 0 (R33). -/
def State.countersOf (st : State) (p unit : Nat) : List (Nat × Nat) :=
  if unit < 8 then [(0, 2 ^ 20)]
  else
    let first := if unit = 8 then 0 else 3
    (List.range 3).map fun k => (k * 2 ^ 28, tget 0 (st.pkg p).tiers (first + k) / 2 ^ 16)

/-- The block of a counter (R33). -/
def blockOf (unit index : Nat) : Nat :=
  if unit < 8 then index * 8 + unit
  else (0x1000000000000 + (index / 2 ^ 28 + if unit = 8 then 0 else 3) * 2 ^ 44) / 2 ^ 16 + index % 2 ^ 28

/-- Blocks become candidates as a threshold, the free space or the counters change (R32, R33). -/
def State.scanCandidates (st : State) (p unit : Nat) : State :=
  let key (i : Nat) : Nat := counterKey unit i
  let wanted (i : Nat) : Bool :=
    (st.candidateKind p unit (tget 0 (st.pkg p).counters (key i))).isSome && !(st.pkg p).posted.contains (key i)
  let idle := (st.candidateKind p unit 0).isSome
  let some' := (st.pkg p).counters.filterMap fun c => if c.1 / 2 ^ 30 = unit ∧ wanted (c.1 % 2 ^ 30) = true then some (c.1 % 2 ^ 30) else none
  let all := if idle then ((st.countersOf p unit).flatMap fun r => rangeFrom r.1 r.2).filter wanted else some'
  st.each all fun st i =>
    let value := tget 0 (st.pkg p).counters (key i)
    match st.candidateKind p unit value with
    | some kind => st.becomeCandidate p unit i (blockOf unit i) kind value
    | none => st

/-- COUNTER_HALVING: each counter of the unit is halved, rounding down, and blocks may be posted again (R31, R33). -/
def execCounterHalving (pkg unit : Nat) (st : State) : Out :=
  if packageLimit ≤ pkg ∨ 10 ≤ unit then .fault .noSuchAgent
  else
    let st := st.setPkg pkg fun g =>
      { g with
        counters := (g.counters.map fun c => if c.1 / 2 ^ 30 = unit then (c.1, c.2 / 2) else c).filter fun c => c.2 != 0
        posted := g.posted.filter fun k => k / 2 ^ 30 != unit }
    .next (st.scanCandidates pkg unit)

/-- The lines of a range of memory that a write of its bytes may change, or that some agent holds. -/
def State.linesOf (st : State) (base len : Nat) (cells : Tab Byte) : List Nat :=
  let inside (l : Nat) : Bool := base / 64 ≤ l && l * 64 < base + len
  nubNat ((st.dir.map fun d => d.1) ++ (st.mem.map fun c => c.1 / 64) ++ cells.map fun c => c.1 / 64) |>.filter inside

/-- Cells of a line written by a unit outside any translation. -/
def State.writePhysLine (st : State) (line : Nat) (cells : Tab Byte) : State :=
  let (cls, owner) := st.physicalOwner (line * 64)
  st.writeLine line cells cls owner none none

/-- A range of lines written by an engine: the given cells, zeros elsewhere. A line that is zero already and that no agent
holds does not change. -/
def State.writeRange (st : State) (base len : Nat) (cells : Tab Byte) : State :=
  st.each (st.linesOf base len cells) fun st l => st.writePhysLine l ((rangeFrom (l * 64) 64).map fun a => (a, tget 0 cells a))

/-- The registers of a unit's dump (R33): CDUMP and CDSTAT. -/
def cdumpAt (unit : Nat) : Nat := unitBlock unit + 0x80

/-- CDUMP: a dump of the unit's counters begins, unless one is in progress; an area outside HBM names none (R33). -/
def execCdump (pkg unit value : Nat) (st : State) : Out :=
  if packageLimit ≤ pkg ∨ 10 ≤ unit then .fault .noSuchAgent
  else
    let stat := (st.stored pkg (cdumpAt unit + 8)).toNat
    let area := bits value 49 6 * 64
    let len := (st.countersOf pkg unit).foldl (fun n r => n + 2 * r.2) 0
    if nbit stat 0 ∨ 2 ^ 39 < area + len then .next st
    else
      .next (((st.setReg pkg (cdumpAt unit) (BitVec.ofNat 64 area)).setReg pkg (cdumpAt unit + 8) (BitVec.ofNat 64 (stat + 1))).owe
        (.counterDumpDone pkg unit))

/-- The bytes of a dump that are not zero, from the area's base upward. -/
def State.dumpCells (st : State) (p unit area : Nat) : Tab Byte :=
  let ranges := st.countersOf p unit
  let starts := ranges.foldl (fun (r : Nat × List (Nat × Nat × Nat)) x => (r.1 + x.2, r.2 ++ [(r.1, x.1, x.2)])) (0, [])
  (st.pkg p).counters.flatMap fun c =>
    if c.1 / 2 ^ 30 ≠ unit then []
    else
      match starts.2.find? fun s => s.2.1 ≤ c.1 % 2 ^ 30 && c.1 % 2 ^ 30 < s.2.1 + s.2.2 with
      | some (at_, first, _) => cellsAt (area + 2 * (at_ + (c.1 % 2 ^ 30 - first))) (toBytes 2 c.2)
      | none => []

/-- COUNTER_DUMP_DONE: the counters are in memory, BUSY clears and the number of dumps advances (R33); the dump waits while a
word of its area does. -/
def execCounterDumpDone (pkg unit : Nat) (st : State) : Out :=
  if packageLimit ≤ pkg ∨ 10 ≤ unit then .fault .noSuchAgent
  else
    let stat := (st.reg pkg (cdumpAt unit + 8)).toNat
    if nbit stat 0 = false then .next st
    else
      let area := pkg * 2 ^ 50 + (st.stored pkg (cdumpAt unit)).toNat
      let len := (st.countersOf pkg unit).foldl (fun n r => n + 2 * r.2) 0
      let cells := st.dumpCells pkg unit area
      if (st.linesOf area len cells).all (fun l => st.engineReady (l * 64) 64 true) then
        let done := bits (bits stat 63 32 + 1) 31 0
        .next ((st.writeRange area len cells).setReg pkg (cdumpAt unit + 8) (BitVec.ofNat 64 (done * 2 ^ 32)))
      else
        .next (((st.linesOf area len cells).foldl (fun st l => st.snoopFor (l * 64) 64) st).owe (.counterDumpDone pkg unit))

/-! ### Page moves -/

/-- The entries of a leaf: the sixteen of its group for a page of 64 KiB (R16). -/
def Move.entries (m : Move) : List Nat := if m.size = 2 ^ 16 then (List.range 16).map fun i => m.leaf + 16 * i else [m.leaf]

/-- Word 0 of each entry of a move's leaf changed, as a write at its home. -/
def State.rewriteLeaf (st : State) (m : Move) (f : Nat → Nat) : State :=
  st.each m.entries fun st a => st.writePhysLine (a / 64) (cellsAt a (toBytes 8 (f (st.currentNat a 8))))

/-- Whether the translation of some pages of a context was made through a move's leaf (R33). -/
def State.throughLeaf (st : State) (m : Move) (lkey vpage pages : Nat) : Bool :=
  st.tlb.any fun e => e.leaf == m.leaf && e.lkey == lkey && e.vpage < vpage + pages && vpage < e.vpage + e.pages

/-- The first frame of a free-frame stack that is aligned to its page and lies in the tier; the entries taken on the way
are gone (R33). DESIGN CHOICE and unsafe (log 117): R33 does not say whether the 8-byte entries are local or fabric physical
addresses; the model reads them as local addresses of the unit's package. -/
def State.takeFrame (st : State) (p unit tier sz : Nat) : Nat → Option Nat × State
  | 0 => (none, st)
  | fuel + 1 =>
    let at_ := unitBlock unit + 0x90 + 16 * (3 * tier + sz)
    let count := bits (st.reg p (at_ + 8)).toNat 31 0
    if count = 0 then (none, st)
    else
      let f := st.currentNat (p * 2 ^ 50 + bits (st.reg p at_).toNat 49 3 * 8 + 8 * (count - 1)) 8
      let st := st.setReg p (at_ + 8) (BitVec.ofNat 64 (count - 1))
      let inTier := match regionOf (st.pkg p) f, regionOf (st.pkg p) (f + pageBytes sz - 1) with
        | .hbm, .hbm => tier == 0
        | .tier a, .tier b => tier == 1 && a == b
        | _, _ => false
      if f % pageBytes sz == 0 && inTier then (some (p * 2 ^ 50 + f), st) else st.takeFrame p unit tier sz fuel

/-- The state with a move of a package changed. -/
def State.setMove (st : State) (p : Nat) (m : Move) (f : Move → Move) : State :=
  let same (x : Move) : Bool := x.unit == m.unit && x.leaf == m.leaf && x.block == m.block && x.phase == m.phase
  st.setPkg p fun g => { g with moves := updateFirst same f g.moves }

/-- The state without a move, whose candidate, if it has one, is posted with an outcome (R33). -/
def State.closeMove (st : State) (p : Nat) (m : Move) (outcome sz : Nat) : State :=
  let st := st.setPkg p fun g =>
    { g with moves := g.moves.filter fun x => !(x.unit == m.unit && x.leaf == m.leaf && x.block == m.block && x.phase == m.phase) }
  if m.kind = 0 then st
  else
    let unit := ((counterOf (m.block * 2 ^ 16)).map fun c => c.1).getD m.unit
    st.postCandidate p unit m.block sz outcome m.kind m.value m.new

/-- The job of a unit's migration engine, among those of its package. -/
def moveJob (p unit : Nat) : Nat := 2 ^ 98 + p * 2 ^ 64 + 2 ^ 62 + unit

/-- The lines that the first step of a move copies: those of the page, and those of the new frame, that are not zero or that some
agent holds. Any other reads as zero in both. -/
def State.linesToCopy (st : State) (m : Move) : List Nat :=
  nubNat (st.linesOf m.old m.size [] ++ (st.linesOf m.new m.size []).map fun l => l - m.new / 64 + m.old / 64)

/-- The first step of a move begins (R89): every line is to be copied; a change of bias copies nothing, and one from host bias
recalls what the host holds (R90). -/
def State.beginMove (st : State) (p : Nat) (m : Move) : State :=
  let st := if m.bias then st.snoopFor m.old m.size else st.setMove p m fun x => { x with todo := st.linesToCopy m }
  st.owe (.moveFinalPass p m.unit)

/-- The next access of the copy of a line, the first of those still to be copied (R89, R114): an atomic piece is read, and once all
have been, the line is written as a chunk of one store. The line's mark is cleared as its first piece is read. -/
def State.copyLine (st : State) (p : Nat) (m : Move) (l : Nat) : State :=
  let job := moveJob p m.unit
  let done := st.jobBytes job 0
  if done.length < 64 then
    let a := l * 64 + done.length
    let n := pieceSize a
    match st.engineRead a n false [job] with
    | none => st.snoopFor a n false false [job]
    | some (bs, st) => (st.addBytes job 0 bs).setMove p m fun x =>
        { x with marked := if done.isEmpty then x.marked.filter (· != l) else x.marked }
  else
    let a := l * 64 - m.old + m.new
    let (cls, owner) := st.physicalOwner a
    match st.engineWrite (cellsAt a done) cls owner false [job] with
    | none => st.snoopCells (cellsAt a done) false [job]
    | some st => ({ st with jobs := terase st.jobs job }).setMove p m fun x => { x with todo := x.todo.drop 1 }

/-- Whether a unit is moving a page. -/
def State.moving (st : State) (p unit : Nat) : Bool := (st.pkg p).moves.any fun m => m.unit == unit && m.phase != 0

/-- A pending automatic move begins, or is refused: a pinned page, a page of 1 GiB, one that the unit does not own and one that
holds page tables are never moved (R32, R33). -/
def State.beginAuto (st : State) (p : Nat) (m : Move) : State :=
  let w0 := st.currentNat m.leaf 8
  let sz := bits w0 9 8
  let old := pfnAddr w0
  let owned := pkgOfAddr old == p && ((counterOf (localOf old)).map fun c => c.1) == some m.unit
  if nbit w0 0 = false ∨ nbit w0 1 = true ∨ sz = 3 ∨ owned = false ∨ nbit (st.currentNat (m.leaf + 8) 8) 16 = true ∨
      st.holdsTable old (pageBytes sz) = true then
    st.closeMove p m 3 sz
  else
    let tier := if m.kind = 1 then 0 else 1
    let count := bits (st.reg p (unitBlock m.unit + 0x98 + 16 * (3 * tier + sz))).toNat 31 0
    match st.takeFrame p m.unit tier sz (count + 1) with
    | (none, st) => st.closeMove p m 2 sz
    | (some f, st) =>
      let m' : Move := { m with old := old, new := f, size := pageBytes sz, phase := 1 }
      (st.setMove p m fun _ => m').beginMove p m'

/-- PAGE_MOVE: the engine of a unit takes up a candidate of its list, once the move before has ended; `frame` is then 0. A
frame asks for a move of the leaf's page to it, and the page's own frame for a change of BIAS of a SYS page (R89, R90). -/
def execPageMove (pkg unit leaf frame : Nat) (st : State) : Out :=
  if packageLimit ≤ pkg ∨ 10 ≤ unit then .fault .noSuchAgent
  else if frame = 0 then
    match (st.pkg pkg).moves.find? fun m => m.unit == unit && m.leaf == leaf && m.phase == 0 with
    | none => .next st
    | some m => if st.moving pkg unit then .next (st.owe (.pageMove pkg unit leaf 0)) else .next (st.beginAuto pkg m)
  else
    let w0 := st.currentNat leaf 8
    let sz := bits w0 9 8
    let old := pfnAddr w0
    let owned := pkgOfAddr old == pkg && ((counterOf (localOf old)).map fun c => c.1) == some unit
    let isLeaf := nbit w0 0 && !nbit w0 1 && sz != 3 && !nbit w0 14
    let bias := frame == old
    let target := match st.regionAt frame, st.regionAt (frame + pageBytes sz - 1) with
      | .hbm, .hbm => true
      | .tier a, .tier b => a == b
      | _, _ => false
    if isLeaf && owned && !st.moving pkg unit && st.answers (pkgOfAddr frame) && frame % pageBytes sz == 0 && target &&
        (!bias || leafClass w0 == 5) then
      let m : Move := { unit := unit, leaf := leaf, old := old, new := frame, size := pageBytes sz, bias := bias, phase := 1 }
      .next ((st.setPkg pkg fun g => { g with moves := g.moves ++ [m] }).beginMove pkg m)
    else .next st

/-- The directory entries of a page. -/
def State.entriesIn (st : State) (base size : Nat) : List Nat :=
  (st.dir.filter fun d => base / 64 ≤ d.1 && d.1 * 64 < base + size).map fun d => d.1

/-- A course store that is staged or in flight for an address of a moved page goes to the page's new frame (R21, log 43). -/
def Move.redirect (m : Move) (a : Nat) : Nat := if m.old ≤ a ∧ a < m.old + m.size then a - m.old + m.new else a

/-- The reverse map after a move: the new first frame's word names the leaf, and the old one is cleared (R33). -/
def State.moveReverse (st : State) (p : Nat) (m : Move) : State :=
  let put (st : State) (frame : Nat) (w : Nat) : State :=
    match counterOf (localOf frame) with
    | none => st
    | some (unit, index) =>
      let q := pkgOfAddr frame
      let base := bits (st.reg q (unitBlock unit + 0xF0)).toNat 49 3 * 8
      let a := q * 2 ^ 50 + base + 8 * (16 * index + localOf frame / 4096 % 16)
      st.writePhysLine (a / 64) (cellsAt a (toBytes 8 w))
  if m.kind = 0 ∧ (st.reverseOf p (localOf m.old / 2 ^ 16)).isNone then st
  else put (put st m.new (m.leaf + 1)) m.old 0

/-- Every word of a move's page is brought to U at its home (R89). -/
def State.settlePage (st : State) (m : Move) : State :=
  st.each (st.entriesIn m.old m.size) fun st l =>
    let (cls, owner) := st.physicalOwner (l * 64)
    (st.settle l (List.range 8) true).writeThrough l (List.range 8) cls owner none none

/-- The end of the final pass (R89), once every marked line is copied: the leaf names the new frame, or has its other BIAS, with MIG
clear, and the accesses that the move parked are resumed. -/
def State.finishMove (st : State) (p : Nat) (m : Move) : State :=
  let st := if m.bias then st
    else
      { (st.moveReverse p m) with
        stcs := st.stcs.map fun s => { s with addr := m.redirect s.addr }
        pkgs := (st.moveReverse p m).pkgs.map fun g =>
          (g.1, { g.2 with staging := g.2.staging.map fun s => { s with cells := s.cells.map fun c => (m.redirect c.1, c.2) } }) }
  let st := st.rewriteLeaf m fun w =>
    if m.bias then (if nbit w 13 then w - 2 ^ 13 else w + 2 ^ 13) - (if nbit w 14 then 2 ^ 14 else 0)
    else w % 2 ^ 14 + bits w 15 15 * 2 ^ 15 + m.new / 4096 * 2 ^ 16
  let st := (st.dropTranslations (fun _ => true) (st.throughLeaf m)).2
  let sz := bits (st.currentNat m.leaf 8) 9 8
  let st := st.closeMove p m 1 sz
  st.each (st.parks.filter fun k => k.cause == 3 && m.entries.contains k.entry) fun st k => st.endPark k

/-- The chunks that the first INVP of a final pass waits for while they are parked by the move itself are squashed, so that
the pass ends (R89, log 44). -/
def State.squashParked (st : State) (m : Move) (left : List (Nat × Nat)) : State :=
  st.each left fun st w =>
    match if w.1 < strandLimit then st.chunkOf w.1 w.2 else none with
    | none => st
    | some c =>
      let lkey := (st.strand w.1).lkey
      if c.parked.any fun e => st.parks.any fun k => k.cause == 3 && m.entries.contains k.entry && k.lkey == lkey && k.vpage == e.1
      then st.squash w.1 w.2 none
      else st

/-- Whether data of a page are on their way to its home: write-backs, recall answers, partials and pieces of writes (R89). -/
def State.dataComing (st : State) (base size : Nat) : Bool :=
  st.net.any fun p => base ≤ p.line * 64 && p.line * 64 < base + size &&
    match p.kind with
    | .writeBack _ => true
    | .recallAns => true
    | .partialAns _ _ => true
    | .piece => true
    | _ => false

/-- The next pass of a move: the lines marked until now are to be copied; a change of bias copies none (R89, R90). -/
def Move.pass (m : Move) (phase : Nat) : Move := { m with phase := phase, todo := if m.bias then [] else m.marked }

/-- MOVE_FINAL_PASS: a move goes on. A line of the pass is copied; once every line has been, the marked lines are copied again; then,
while no word of the page is locked by a course, MIG is set and the first INVP runs. When that is complete, the page's words are
free and no data of the page are on their way, they come to U, the lines still marked are copied, and the move ends (R89). -/
def execMoveFinalPass (pkg unit : Nat) (st : State) : Out :=
  if packageLimit ≤ pkg ∨ 10 ≤ unit then .fault .noSuchAgent
  else
    match (st.pkg pkg).moves.find? fun m => m.unit == unit && m.phase != 0 with
    | none => .next st
    | some m =>
      let again : Instr := .moveFinalPass pkg unit
      match m.todo with
      | l :: _ => .next ((st.copyLine pkg m l).owe again)
      | [] =>
      if m.phase = 1 then .next ((st.setMove pkg m fun x => x.pass 2).owe again)
      else if m.phase = 2 then
        if (st.entriesIn m.old m.size).any fun l => !(st.entry l).locks.isEmpty then .next (st.owe again)
        else
          let r := st.dropTranslations (fun _ => true) (st.throughLeaf m)
          let st := (r.2.rewriteLeaf m fun w => if nbit w 14 then w else w + 2 ^ 14).snoopFor m.old m.size
          .next ((st.setMove pkg m fun x => { x with phase := 3, await := r.1 }).owe again)
      else if m.phase = 4 then
        if st.piecesLeft (moveJob pkg unit) then .next (st.owe again)
        else if m.marked.isEmpty || m.bias then .next (st.finishMove pkg m)
        else .next ((st.setMove pkg m fun x => x.pass 4).owe again)
      else
        let left := m.await.filter st.stillUses
        if left.isEmpty = false then
          .next (((st.squashParked m left).setMove pkg m fun x => { x with await := left }).owe again)
        else if (st.entriesIn m.old m.size).all (fun l => st.engineReady (l * 64) 64 true) &&
            !st.dataComing m.old m.size && !((st.pkg pkg).hostCopies.any fun l => m.old ≤ l * 64 && l * 64 < m.old + m.size) then
          .next (((st.settlePage m).setMove pkg m fun x => x.pass 4).owe again)
        else .next ((st.snoopFor m.old m.size).owe again)

/-! ### Ring registers -/

/-- The RW fields of a ring's register, by its place: base, control, tail and head (R33, R397). -/
def ringField (place low value : Nat) : Nat :=
  match place with
  | 0 => bits value 49 low * 2 ^ low
  | 8 => nbitValue value 31 + bits value 26 16 * 2 ^ 16 + bits value 3 0
  | _ => bits value 31 0
where
  /-- A bit of a value at its place. -/
  nbitValue (v n : Nat) : Nat := if nbit v n then 2 ^ n else 0

/-- The offset of a ring's base register in its unit's block, and the bytes of its records (R33, R397). -/
def ringShape (fault : Bool) : Nat × Nat := if fault then (0x00, 32) else (0x58, 16)

/-- The oldest record that a unit holds for a ring is written at its home, as a write of an engine: while its words must wait the
step is made again. The tail advances with the write, and a record that advances it from the head causes a message (R398). While
the ring is absent or full the unit holds its records (R27, R397). -/
def State.flushRing (st : State) (p unit : Nat) (fault : Bool) : State :=
  match ((st.pkg p).ringHeld fault).find? fun h => h.unit == unit with
  | none => st
  | some h =>
    let (at_, size) := ringShape fault
    let blk := unitBlock unit + at_
    let (b, c) := h.ring.getD (st.reg p blk, st.reg p (blk + 8))
    let base := bits b.toNat 49 0
    let log := bits c.toNat 3 0
    let tail := (st.reg p (blk + 16)).toNat
    let head := (st.reg p (blk + 24)).toNat
    if st.ringPresent p base log size = false ∨ (tail + 2 ^ 32 - head) % 2 ^ 32 = 2 ^ log then st
    else
      let a := p * 2 ^ 50 + base + size * (tail % 2 ^ log)
      let cells := cellsAt a (h.words.flatMap fun (w : Word) => toBytes 8 w.toNat)
      let (cls, owner) := st.physicalOwner a
      let key := [2, p, unit, at_]
      match st.engineWrite cells cls owner false key with
      | none => (st.snoopCells cells false key).owe (ringStep p unit fault)
      | some st =>
        let st := st.setReg p (blk + 16) (BitVec.ofNat 64 ((tail + 1) % 2 ^ 32))
        let st := st.setPkg p fun g => g.setRingHeld fault fun hs => hs.erase h
        let st := if nbit c.toNat 31 && tail == head then st.sendMsix p (bits c.toNat 26 16) else st
        if ((st.pkg p).ringHeld fault).any fun h => h.unit == unit then st.owe (ringStep p unit fault) else st

/-- A write of a ring's base or control register while its tail differs from its head applies to later records only: those held
for the ring as it stands keep it (R397). -/
def State.keepRing (st : State) (p unit : Nat) (fault : Bool) : State :=
  let (at_, size) := ringShape fault
  let blk := unitBlock unit + at_
  let b := st.reg p blk
  let c := st.reg p (blk + 8)
  if st.reg p (blk + 16) = st.reg p (blk + 24) ∨ st.ringPresent p (bits b.toNat 49 0) (bits c.toNat 3 0) size = false then st
  else st.setPkg p fun g => g.setRingHeld fault fun hs => hs.map fun h =>
    if h.unit = unit ∧ h.ring.isNone = true then { h with ring := some (b, c) } else h

/-- A write of a register of a ring by its place, base, control, tail or head: the tail is read-only. The unit then writes what it
holds (R27, R33, R397, R398). -/
def State.ringRegister (st : State) (p unit : Nat) (fault : Bool) (place low value : Nat) : State :=
  let st := if place = 0 ∨ place = 8 then st.keepRing p unit fault else st
  let st := if place = 0x10 then st
    else st.setReg p (unitBlock unit + (ringShape fault).1 + place) (BitVec.ofNat 64 (ringField place low value))
  st.flushRing p unit fault

/-- FAULT_RING_WRITE: FRBASE, FRCTL or FRHEAD is written, and the unit writes the oldest record that it holds; FRTAIL is
read-only, and its write is the unit's own step (R397, R398). -/
def execFaultRingWrite (pkg unit offset value : Nat) (st : State) : Out :=
  if packageLimit ≤ pkg ∨ 10 ≤ unit then .fault .noSuchAgent
  else if offset = 0 ∨ offset = 8 ∨ offset = 0x10 ∨ offset = 0x18 then .next (st.ringRegister pkg unit true offset 5 value)
  else .next st

/-- CANDIDATE_RING_WRITE: CRBASE, CRCTL or CRHEAD is written, and the unit writes the oldest record that it holds; CRTAIL is
read-only, and its write is the unit's own step (R33). -/
def execCandidateRingWrite (pkg unit offset value : Nat) (st : State) : Out :=
  if packageLimit ≤ pkg ∨ 10 ≤ unit then .fault .noSuchAgent
  else if offset = 0x58 ∨ offset = 0x60 ∨ offset = 0x68 ∨ offset = 0x70 then
    .next (st.ringRegister pkg unit false (offset - 0x58) 4 value)
  else .next st

end Sys2Proof.Machine
end

