-- ==== Sys2Proof/Machine/Hash.lean ====
section
/-!
DEFINITION. SHAKE256 with 64 bytes of output (R381). The spec names the algorithm and does not define it: the permutation, the
rate of 136 bytes and the padding are those of FIPS 202 (log 133, PRESUMED).
-/

namespace Sys2Proof.Machine

/-- A lane of 64 bits turned left. -/
def turnLane (x n : Nat) : Nat := (x <<< n ||| x >>> (64 - n)) % 2 ^ 64

/-- The turns of the 25 lanes, lane x + 5y at x + 5y. -/
def laneTurns : List Nat :=
  [0, 1, 62, 28, 27, 36, 44, 6, 55, 20, 3, 10, 43, 25, 39, 41, 45, 15, 21, 8, 18, 2, 61, 56, 14]

/-- The constants of the 24 rounds. -/
def roundConstants : List Nat :=
  [0x0000000000000001, 0x0000000000008082, 0x800000000000808A, 0x8000000080008000, 0x000000000000808B, 0x0000000080000001,
   0x8000000080008081, 0x8000000000008009, 0x000000000000008A, 0x0000000000000088, 0x0000000080008009, 0x000000008000000A] ++
  [0x000000008000808B, 0x800000000000008B, 0x8000000000008089, 0x8000000000008003, 0x8000000000008002, 0x8000000000000080,
   0x000000000000800A, 0x800000008000000A, 0x8000000080008081, 0x8000000000008080, 0x0000000080000001, 0x8000000080008008]

/-- Every lane is changed by the parities of two columns. -/
def thetaStep (a : List Nat) : List Nat :=
  let c := (List.range 5).map fun x => (List.range 5).foldl (fun n y => n ^^^ a.getD (x + 5 * y) 0) 0
  let d := (List.range 5).map fun x => c.getD ((x + 4) % 5) 0 ^^^ turnLane (c.getD ((x + 1) % 5) 0) 1
  (List.range 25).map fun i => a.getD i 0 ^^^ d.getD (i % 5) 0

/-- The lanes are turned and moved. -/
def rhoPiStep (a : List Nat) : List Nat :=
  (List.range 25).map fun i =>
    let j := (i % 5 + 3 * (i / 5)) % 5 + 5 * (i % 5)
    turnLane (a.getD j 0) (laneTurns.getD j 0)

/-- Every lane is changed by its two neighbours in its row, and the first one by the round's constant. -/
def chiIotaStep (rc : Nat) (b : List Nat) : List Nat :=
  (List.range 25).map fun i =>
    let at' (k : Nat) : Nat := b.getD ((i % 5 + k) % 5 + 5 * (i / 5)) 0
    at' 0 ^^^ ((2 ^ 64 - 1 - at' 1) &&& at' 2) ^^^ (if i = 0 then rc else 0)

/-- The permutation of the 25 lanes. -/
def keccakF (a : List Nat) : List Nat := roundConstants.foldl (fun a rc => chiIotaStep rc (rhoPiStep (thetaStep a))) a

/-- A block of 136 bytes taken in. -/
def absorb (a : List Nat) (block : List Byte) : List Nat :=
  keccakF ((List.range 25).map fun i => a.getD i 0 ^^^ fromBytes ((block.drop (8 * i)).take 8))

/-- The padding after `n` bytes: the suffix 1111 of an extendable output, a 1, and a last 1 at the end of the block. -/
def shakePad (n : Nat) : List Byte :=
  let r := 136 - n % 136
  if r = 1 then [0x9F] else [0x1F] ++ List.replicate (r - 2) 0 ++ [0x80]

/-- SHAKE256 of some bytes, with 64 bytes of output (R381). -/
def shake256 (bs : List Byte) : List Byte :=
  let padded := bs ++ shakePad bs.length
  let a := (List.range (padded.length / 136)).foldl (fun a i => absorb a ((padded.drop (136 * i)).take 136)) (List.replicate 25 0)
  (a.take 8).flatMap (toBytes 8)

end Sys2Proof.Machine
end

