-- ==== Sys2Proof/Machine/Fetch.lean ====
section
/-!
DEFINITION. Fetching an instruction: lines and line words (R161 to R163), the checks of R192 up to decoding, and the
strand's next instruction.
-/

namespace Sys2Proof.Machine

/-- The line word of a fetch line (R161). -/
def lineWord (bs : List Byte) : Nat := fromBytes (bs.drop 60)

/-- The word of a slot (R161). -/
def slotWord (bs : List Byte) (s : Nat) : BitVec 96 := BitVec.ofNat 96 (fromBytes ((bs.drop (12 * s)).take 12))

/-- The exclusive-or of the bits of a number of at most 30 bits. -/
def oddBits (x : Nat) : Bool := (List.range 30).foldl (fun p i => p != nbit x i) false

/-- The PAR field that a line's 480 instruction bits need (R162, R163). -/
def parityOf (bs : List Byte) : Nat :=
  let line := fromBytes (bs.take 60)
  (List.range 16).foldl (fun p j => if oddBits (line / 2 ^ (30 * j) % 2 ^ 30) then p + 2 ^ j else p) 0

/-- Whether a line's parity matches (R163). -/
def parityHolds (bs : List Byte) : Bool := bits (lineWord bs) 31 16 == parityOf bs

/-- Whether PAIR bit j of a line word is set (R162). -/
def pairBit (lw j : Nat) : Bool := j < 4 && nbit lw (5 + j)

/-- Whether a line word is legal: bits 15:9 zero, and no adjacent PAIR bits (R166). -/
def lineWordLegal (lw : Nat) : Bool :=
  bits lw 15 9 == 0 && (List.range 3).all fun j => !(pairBit lw j && pairBit lw (j + 1))

/-- Whether an opcode may stand in a couple as its scalar half (R166). -/
def coupleScalar (opc : Nat) : Bool := 0x01 ≤ opc && opc ≤ 0x2A

/-- Whether an opcode may stand in a couple as its vector half: class 01 (R166). -/
def coupleVector (opc : Nat) : Bool := 0x40 ≤ opc && opc ≤ 0x7F

/-- Whether two words may form a couple (R166). -/
def coupleLegal (a b : BitVec 96) : Bool :=
  (coupleScalar (opcodeOf a) && coupleVector (opcodeOf b)) || (coupleVector (opcodeOf a) && coupleScalar (opcodeOf b))

/-- The instruction of a slot of a line, none where one of the fates of R191 is the illegal-instruction trap. -/
def instrAt (bs : List Byte) (s : Nat) : Option Instr :=
  let lw := lineWord bs
  if lineWordLegal lw = false ∨ (pairBit lw s && !coupleLegal (slotWord bs s) (slotWord bs (s + 1))) then none
  else
    match decode (slotWord bs s) with
    | .instr i => some i
    | .reject _ => none

/-- What a fetch gives: an instruction to run, or a state in which the strand has trapped. -/
inductive Fetched where
  | run (i : Instr) (st : State)
  | stop (st : State)

/-- A line that has been fetched is not fetched once more (R163). -/
def State.fetched (st : State) : State := if st.me.refetch = none then st else st.setMe fun t => { t with refetch := none }

/-- The acting strand's next instruction, with the checks of R192 before the guard: the PC (R165), the fetch (R18), parity
(R163), and the decode fates (R191). A line whose parity does not match is discarded and fetched once more by the strand's next
step; a second mismatch is a machine check (R163). A fetch fault of a sequential fetch reports the line's first slot (R365). -/
def State.fetch (st : State) : Fetched :=
  let st := st.openChunk
  let pc := st.me.pc.toNat
  if 2 ^ 56 ≤ pc then .stop (st.raise causeNonCanonical pc)
  else if bits pc 5 3 ≠ 0 ∨ 5 ≤ pc % 8 then .stop (st.raise causeIllegalPc pc)
  else
    match st.fetchLine st.cur st.me.sv pc with
    | (none, st) => .stop (st.raiseAt causeFetch (pc / 64 * 64) (BitVec.ofNat 64 (pc / 64 * 64)))
    | (some bs, st) =>
      if parityHolds bs = false then
        if st.me.refetch = some (pc / 64) then .stop (st.fetched.machineCheck st.cur (pc / 64 * 64) st.me.pc true)
        else .stop (st.setMe fun t => { t with refetch := some (pc / 64) })
      else
        let st := st.fetched
        match instrAt bs (pc % 8) with
        | some i => .run i st
        | none => .stop (st.raise causeIllegal pc)

/-- Whether the acting strand issues nothing: it does not run, or its bank is frozen by a pre-emption (R367). -/
def State.stopped (st : State) : Bool := st.me.run != .running || (st.bank (bankOf st.cur)).frozen

/-- The 64 bytes of a line that holds one word in a slot, zeros elsewhere, and a line word with its parity. -/
def lineBytes (w slot : Nat) : List Byte :=
  let body := toBytes 60 (w % 2 ^ 96 * 2 ^ (96 * slot))
  body ++ toBytes 4 (parityOf body * 2 ^ 16)

end Sys2Proof.Machine
end

