-- ==== Sys2Proof/Machine/Runs.lean ====
section
/-!
DEFINITION. Messages as they arrive (R43, R44, R138), the selection of runs and bricks and how they start (R139 to R141, R144,
R148, R149, R165, R405), quiescence waves (R108, R151, R152), and the end of a launch with its completion word (R159, R352,
R356).
-/

namespace Sys2Proof.Machine

/-! ### Arrival -/

/-- Whether an earlier message of the same sender to the same core has not yet entered its inbox (R44). -/
def State.sentBefore (st : State) (m : Msg) : Bool :=
  (st.msgs.takeWhile fun x => x.id != m.id).any fun x =>
    x.lkey == m.lkey && x.src == m.src && x.dst == m.dst && x.brick.isNone

/-- MESSAGE_ARRIVAL: a message takes a free inbox entry of its core, and its channel's count rises; while no entry is free, or
the launch is displaced there, it is refused and offered again (R43, R44, R138, R367). -/
def execMessageArrival (msg : Nat) (st : State) : Out :=
  .next <|
    match st.msgs.find? fun m => m.id == msg with
    | none => st
    | some m =>
      match st.launch m.lkey, m.dst with
      | some l, some core =>
        let core := match l.resolve m.target with
          | .core c => c
          | _ => core
        let bank := l.bankOn core
        let b := st.bank bank
        let free := (List.range 256).filter fun e => !b.inbox.contains e
        if st.sentBefore m || free.isEmpty || b.frozen || b.lkey != m.lkey then st.owe (.messageArrival msg)
        else
          let e := (free[Config.inboxPick st.tick % free.length]?).getD 0
          let a := poolKey core (b.kbReg + b.inboxAt + 64 * e)
          let x : InMsg := { chan := m.chan, entry := e, len := m.len, sender := m.srcId, ts := m.ts, q := m.q, ord := m.ord }
          let st : State :=
            { st with
              mem := st.mem.writeBytes a (m.payload.take 64 ++ List.replicate (64 - m.payload.length) 0)
              msgs := st.msgs.filter fun y => y.id != msg }
          (st.setBank bank fun b =>
            { b with
              inbox := e :: b.inbox, msgs := b.msgs ++ [x]
              chanTime := if b.msgs.any fun y => y.chan == m.chan then b.chanTime else tput b.chanTime m.chan st.time }).wakeCore core
      | _, _ => { st with msgs := st.msgs.filter fun y => y.id != msg }

/-! ### How a run starts -/

/-- A strand begins at a PC with some s registers and every other scalar, floating-point and predicate register zero (R140,
R144, R246). -/
def State.beginRun (st : State) (k lkey pc : Nat) (sv : Bool) (ss : List Nat) (info : RunInfo) : State :=
  let regs (t : Strand) : Regs :=
    ((rangeFrom 1 ss.length).zip ss).foldl (fun g e => g.setS e.1 (BitVec.ofNat 64 e.2)) { v := t.regs.v }
  let st := st.setStrand k fun t =>
    { t with
      regs := regs t, pc := BitVec.ofNat 64 pc, run := .running, info := info, sv := sv, tf := false, brpc := 0, marks := []
      watches := [], ovf := false, squashes := 0, sole := none, trap := none, lkey := lkey, await := [] }
  let seed : BitVec 32 := BitVec.ofNat 32 (ss.getD 3 0) ^^^ BitVec.ofNat 32 ((st.kcoord k).toNat % 2 ^ 30)
  let st := st.setStrand k fun t => { t with q := seedQ seed }
  let cur := st.cur
  { ({ st with cur := k }.openChunk) with cur := cur }

/-- The live chunk of a strand. -/
def State.liveId (st : State) (k : Nat) : Nat := ((st.strand k).live.map fun c => c.id).getD 0

/-- The checks at the start of a run or of a launch: the PC names a slot, its line can be fetched, and the slot's TGT bit is
set, which is looked at before the line's parity (R165, R192). Of a packet's ENTRY that names no slot R165 says nothing: its start run
traps as a handler's does (log 130, DESIGN CHOICE). -/
def State.checkStart (st : State) (k pc : Nat) (sv : Bool) : State :=
  let at_ : Word := BitVec.ofNat 64 pc
  if bits pc 5 3 ≠ 0 ∨ 5 ≤ pc % 8 then st.raiseIn k (st.liveId k) causeIllegalPc pc at_
  else
    match st.fetchLine k sv pc with
    | (none, st) => st.raiseIn k (st.liveId k) causeFetch pc at_
    | (some bs, st) =>
      if !nbit (lineWord bs) (pc % 8) then st.raiseIn k (st.liveId k) causeTarget pc at_ else st

/-- The aperture address of a pool offset of the own core (R40). -/
def apertureOf (off : Nat) : Nat := 0xFF * 2 ^ 48 + off

/-- A run started by a message, which stays counted on its channel until the run ends (R138, R140). -/
def State.startMessage (st : State) (k bank : Nat) (h : Nat) (m : InMsg) : State :=
  let b := st.bank bank
  let st := st.setBank bank fun b =>
    { b with
      msgs := updateFirst (fun x => x.entry == m.entry) (fun x => { x with started := true }) b.msgs
      chanTime := tput b.chanTime m.chan st.time }
  let info : RunInfo :=
    { chan := m.chan, entry := some m.entry, region := m.q, ord := m.ord, ts := m.ts, pri := bits h 63 61,
      ep := pairPlace (((st.launch b.lkey).map fun l => l.epid (coreOf k)).getD 0) m.sender }
  let pc := bits h 55 0
  (st.beginRun k b.lkey pc (nbit h 58) [apertureOf (b.inboxAt + 64 * m.entry), m.len, m.sender, m.ts] info).checkStart k pc
    (nbit h 58)

/-- A brick taken from the queue of a cluster. -/
def State.unqueue (st : State) (cluster : Nat) (q : QBrick) : State :=
  st.setCluster cluster fun c => { c with bricks := c.bricks.erase q }

/-- The job of the accesses by which a core takes a queued brick. -/
def QBrick.job (q : QBrick) : Nat := 2 ^ 97 + q.addr * 2 ^ 16 + q.lkey

/-- Whether the page of a queued brick is missing: it waits for the end of its park, and other candidates are selected meanwhile
(R160, R405). -/
def State.brickParked (st : State) (q : QBrick) : Bool :=
  (st.parks.any fun k => k.behind.any fun b => b.2 == q.job) || st.refused.any fun r => r.tag == q.job

/-- A brick resumed (R144, R148, R149, R405): it is read and its STATE becomes 3. One that is malformed traps; one that cannot
be read is removed and counted. DESIGN CHOICE and unsafe (log 116): of the run that traps on a malformed brick R149 gives the
cause, the trap address and the faulting PC only; the model begins it with zero registers and the brick's SV, ORD, PRI and
CHAN as they stand. -/
def State.resumeBrick (st : State) (k core cluster : Nat) (q : QBrick) : State :=
  let x : EngCtx := { source := sourceCore core, lkey := q.lkey, sv := false, strand := k, cmd := q.job }
  let taken (st : State) : State := (st.endJob q.job).unqueue cluster q
  let lost (st : State) : State := (taken st).leaveBrick q.lkey q.addr
  match st.readAll x 0 q.addr 64 with
  | .code _ st => lost st
  | .wait true st => lost st
  | .wait false st => st
  | .ok bs st =>
    let ws := wordsIn bs
    let w0 := ws.getD 0 0
    let w7 := ws.getD 7 0
    let pc := bits w0 55 6 * 64 + w0 % 8
    let sv := nbit w0 4
    let rec' := ((st.launch q.lkey).map fun l => l.suspended).getD [] |>.find? fun s => s.1 == q.addr
    let info : RunInfo :=
      { chan := bits w7 57 52, ord := nbit w0 5, ts := if nbit w0 5 then ws.getD 4 0 else 0, pri := bits w7 63 61,
        brick := some q.addr
        ep := (rec'.map fun s => s.2.2).getD (pairPlace (((st.launch q.lkey).map fun l => l.epid core).getD 0) 0) }
    if nbit w0 3 ∨ 5 ≤ w0 % 8 ∨ 18 ≤ bits w0 60 56 ∨ 5 ≤ bits w7 60 58 then
      let st := (taken st).beginRun k q.lkey pc sv [] info
      st.raiseIn k (st.liveId k) causeBrick q.addr (BitVec.ofNat 64 pc)
    else
      match st.writeAll x 1 (q.addr + 56) (toBytes 8 (w7 - bits w7 60 58 * 2 ^ 58 + 3 * 2 ^ 58)) with
      | .code _ st => lost st
      | .wait true st => lost st
      | .wait false st => st
      | .ok _ st =>
        let st := (taken st).setLaunch q.lkey fun l =>
          { l with suspended := l.suspended.filter fun s => s.1 != q.addr }
        st.beginRun k q.lkey pc sv ((rangeFrom 1 6).map fun i => ws.getD i 0) info

/-! ### Selection -/

/-- Effective priority (R141, R148). -/
def State.aged (st : State) (base since : Nat) : Nat := min 7 (base + (st.time - since) / 4096)

/-- What a selection may choose (R141). -/
structure Candidate where
  prio  : Nat
  since : Nat
  chan  : Option Nat
  deriving DecidableEq, Repr

/-- The order of selection: effective priority, then the longest wait, then bricks, then the lowest channel (R141). -/
def Candidate.beats (a b : Candidate) : Bool :=
  if a.prio ≠ b.prio then b.prio < a.prio
  else if a.since ≠ b.since then a.since < b.since
  else match a.chan, b.chan with
    | none, _ => true
    | some _, none => false
    | some x, some y => x < y

/-- The best of some candidates. -/
def bestOf : List Candidate → Option Candidate
  | [] => none
  | a :: rest =>
    match bestOf rest with
    | some b => if a.beats b then some a else some b
    | none => some a

/-- The head of a launch's brick queue on a cluster (R148): the highest effective priority, then the oldest, of those whose page is
not missing. -/
def State.brickHead? (st : State) (cluster lkey : Nat) : Option QBrick :=
  ((st.cluster cluster).bricks.filter fun q => q.lkey == lkey && !st.brickParked q).foldl (fun (best : Option QBrick) q =>
    match best with
    | none => some q
    | some b =>
      let x := st.aged q.pri q.since
      let y := st.aged b.pri b.since
      if y < x || (x == y && q.since < b.since) then some q else some b) none

/-- The channels of a bank that are valid, unmasked and runnable (R139, R141). -/
def State.channels (st : State) (bank : Nat) : List Candidate :=
  let b := st.bank bank
  (List.range 64).filterMap fun c =>
    let h := (tget 0 b.handlers c).toNat
    if nbit h 60 && !nbit h 59 && b.msgs.any fun m => m.chan == c && !m.started then
      some { prio := st.aged (bits h 63 61) (tget 0 b.chanTime c), since := tget 0 b.chanTime c, chan := some c }
    else none

/-- The distance of two clusters in the 3 × 6 mesh of their die (R148, log 40). -/
def meshDistance (a b : Nat) : Nat :=
  let gap (x y : Nat) : Nat := max x y - min x y
  gap (a % 18 / 6) (b % 18 / 6) + gap (a % 6) (b % 6)

/-- The sibling clusters of a core's cluster in the order in which they are searched (R148). -/
def siblings (cluster : Nat) : List Nat :=
  let die := cluster / 18
  let here := (List.range 8).flatMap fun d => (rangeFrom (die * 18) 18).filter fun c => c != cluster && meshDistance c cluster == d
  here ++ (rangeFrom 1 7).flatMap fun i => rangeFrom ((die / 8 * 8 + (die % 8 + i) % 8) * 18) 18

/-- The brick that a core steals: the head of the first sibling queue of its launch that has one (R148). -/
def State.stealable (st : State) (l : Launch) (cluster : Nat) : Option (Nat × QBrick) :=
  (siblings cluster).findSome? fun c =>
    if l.remap.any fun e => e.2 == c then (st.brickHead? c l.lkey).map fun q => (c, q) else none

/-- A free strand of a bank starts what the bank's selection chooses; none where there is nothing to start (R141, R148). -/
def State.selectOn (st : State) (core bank : Nat) : Option State :=
  let b := st.bank bank
  let free := (rangeFrom (4 * bank) 4).filter fun k => (st.strand k).run == .free
  match st.launch b.lkey, free[Config.strandPick st.tick % free.length]? with
  | some l, some k =>
    if b.frozen || l.killed || l.ended || !l.started then none
    else
      let cluster := core / 16
      let head := st.brickHead? cluster l.lkey
      let bricks := match head with
        | some q => [{ prio := st.aged q.pri q.since, since := q.since, chan := none : Candidate }]
        | none => []
      match bestOf (bricks ++ st.channels bank), head with
      | some { chan := some c, .. }, _ =>
        (b.msgs.find? fun m => m.chan == c && !m.started).map fun m => st.startMessage k bank (tget 0 b.handlers c).toNat m
      | some _, some q => some (st.resumeBrick k core cluster q)
      | _, _ =>
        if ((st.cluster cluster).bricks.any fun q => q.lkey == l.lkey) = true then none
        else (st.stealable l cluster).map fun x => st.resumeBrick k core x.1 x.2
  | _, _ => none

/-- Whether a core's next free strand is due to a subnormal assist, which ranks above every channel and brick (R366). -/
def State.assistFirst (st : State) (core : Nat) : Bool :=
  let c := st.cluster (core / 16)
  match c.assists with
  | [] => false
  | id :: _ =>
    match c.tasks.find? fun t => t.id == id with
    | some t => (st.memberCores (core / 16) t.lkey).headD core == core
    | none => false

/-- HANDLER_SELECTION: one selection of a core, and another one while there is something to choose (R141). -/
def execHandlerSelection (core : Nat) (st : State) : Out :=
  if strandLimit ≤ 8 * core then .fault .noSuchAgent
  else if st.assistFirst core then .next (st.wakeCore core)
  else
    match (st.selectOn core (2 * core + 1)).orElse fun _ => st.selectOn core (2 * core) with
    | some st => .next (st.wakeCore core)
    | none => .next st

/-! ### Completion words -/

/-- A descriptor word of a queue (R346, R374): word 0 is bits 63:0. -/
def State.queueWord (st : State) (p q i : Nat) : Nat := (st.reg p (16 * q + 8 * i)).toNat

/-- Whether a package has answers to back-invalidations, posted writes or pieces of writes outstanding: the waits of R122 before
a completion word (R352). -/
def State.releasePending (st : State) (p : Nat) : Bool :=
  ((st.pkg p).snoops.any fun x => !isHost (x * 64)) ||
    st.net.any fun x => (x.kind == .piece || x.kind == .posted) && x.home / 8 == p

/-- A word of local physical memory of a package written by its host queue unit, as a system-scope release (R122, R352). -/
def State.putPhysical (st : State) (p l v : Nat) : Eng Unit :=
  let f := p * 2 ^ 50 + l
  let cells := cellsAt (storageOf f) (toBytes 8 v)
  let key := [1, p, l]
  let (cls, owner) := st.physicalOwner f
  if st.releasePending p = true then .wait false st
  else
    match st.engineWrite cells cls owner (st.viaPcie f) key with
    | some st => .ok () st
    | none => .wait false (st.snoopCells cells (st.viaPcie f) key)

/-- Cycles of a microsecond. -/
def cyclesPerUs : Nat := 700

/-- An event of a queue that an interrupt reports: a message for a vector becomes pending, unless one is (R356). -/
def State.pendMsixFor (st : State) (p q vec : Nat) : State :=
  let coal := bits (st.queueWord p q 1) 49 34
  if coal = 0 ∨ (tget? (st.pkg p).msixPend q).isSome = true then st
  else
    (st.setPkg p fun g =>
      { g with msixPend := tput g.msixPend q (st.time + coal * cyclesPerUs), msixVec := tset 0 g.msixVec q vec }).owe
      (.msixCoalesceExpiry p q)

/-- The interrupt of a completion word of a queue (R346, R356). -/
def State.pendMsix (st : State) (p q : Nat) : State := st.pendMsixFor p q (bits (st.queueWord p q 1) 60 50)

/-- The completion word (R352). -/
def completionWord (node bricks code : Nat) : Nat := 2 ^ 63 + node % 2 ^ 12 * 2 ^ 48 + min bricks (2 ^ 32 - 1) * 2 ^ 16 + code

/-- A completion word written for a queue, with its interrupt (R352, R356). -/
def State.writeCompletion (st : State) (p q compl word : Nat) : Eng Unit :=
  match st.putPhysical p compl word with
  | .ok _ st => .ok () (st.pendMsix p q)
  | r => r

/-- The completion word of an entry of a queue has been written: where no entry has been taken since, the next one may follow with
SER (R346). An entry is known by its launch's key, or by its graph. -/
def State.entryDone (st : State) (p q entry : Nat) : State :=
  st.setPkg p fun g => { g with lastEntry := if tget? g.lastEntry q = some entry then terase g.lastEntry q else g.lastEntry }

/-- The number of a graph among the entries of a queue. -/
def graphEntry (id : Nat) : Nat := 2 ^ 16 + id

/-! ### The end of a launch -/

/-- Whether an engine command of a launch is outstanding, its window writes, detached operations and acts on bricks included
(R159, R211). -/
def State.outstanding (st : State) (lkey : Nat) : Bool :=
  (st.cmds.any fun c => c.2.lkey == lkey) ||
    (st.clusters.any fun c => (c.2.tasks.any fun t => t.lkey == lkey) || (c.2.copies.any fun m => m.lkey == lkey) ||
      c.2.frozen.any fun f => f.lkey == lkey) ||
    (st.banks.any fun b => b.2.lkey == lkey && (!b.2.winQueue.isEmpty || !b.2.flushes.isEmpty)) ||
    (st.strands.any fun s => s.2.lkey == lkey && s.2.ops.any fun o => !o.done) ||
    st.laying lkey || st.msgs.any fun m => m.lkey == lkey && m.q.isNone

/-- The sums of a region's counters over every core (R151). -/
def State.totals (st : State) (lkey q : Nat) : Nat × Nat :=
  let key := regionKey lkey q
  st.cores.foldl (fun n c => ((n.1 + tget 0 c.2.sent key) % 2 ^ 48, (n.2 + tget 0 c.2.recv key) % 2 ^ 48)) (0, 0)

/-- Whether a launch may end at this wave (R159, R363). A brick in STATE 4 whose declaration is still to come holds the
launch, since R152 has it enqueued at that declaration (R134; log 41); a quiescence-wait node of a graph does not (R354). -/
def State.mayEnd (st : State) (l : Launch) (totals : Tab (Nat × Nat)) : Bool :=
  (l.started || l.killed) && !(st.strands.any fun s => s.2.lkey == l.lkey && s.2.run != .free) && !st.outstanding l.lkey &&
    (l.killed ||
      (!(st.banks.any fun b => b.2.lkey == l.lkey && !b.2.msgs.isEmpty) &&
        !(st.clusters.any fun c => c.2.bricks.any fun q => q.lkey == l.lkey) &&
        (l.quiet.all fun e => 2 ^ 60 ≤ e.1) && totals.all fun t => t.2.1 == t.2.2))

/-- The first steps of an end (R53, R119, R345, R390): windows are written back as by SPUNMAP, open courses abandoned, experts,
combines and merges gone, and what a kill left is discarded. -/
def State.beginEnd (st : State) (l : Launch) : State :=
  let banks := st.banks.filter fun b => b.2.lkey == l.lkey
  let st := st.each banks fun st b =>
    let st := st.each b.2.windows fun st w => st.queueWrites b.1 w.1 w.2.dirty (4 * b.1)
    st.setBank b.1 fun x => { x with windows := [], msgs := [] }
  let st := (st.abandonAll l.lkey).endExperts l.lkey
  let st : State :=
    { st with
      pkgs := st.pkgs.map fun p =>
        (p.1, { p.2 with
          combines := p.2.combines.filter fun c => c.lkey != l.lkey
          merges := p.2.merges.filter fun m => m.lkey != l.lkey })
      msgs := st.msgs.filter fun m => m.lkey != l.lkey
      clusters := st.clusters.map fun c => (c.1, { c.2 with bricks := c.2.bricks.filter fun q => q.lkey != l.lkey }) }
  st.setLaunch l.lkey fun l => { l with ended := true }

/-- The slots and accumulators of a launch on its clusters (R274). -/
def Launch.holds (l : Launch) (isAcc : Bool) (n : Nat) : Bool :=
  let first := if l.bank = 0 then 0 else if isAcc then 16 else 64
  let count := if isAcc then l.accs else l.slots
  first ≤ n && n < first + count

/-- The allotment of a launch is released, with its leases, pins and residency (R58, R60, R157, R275, R277), and displaced launches
and waiting queues go on (R351, R369). -/
def State.releaseLaunch (st : State) (l : Launch) : State :=
  let st := st.each (st.strandsOn fun k => (st.strand k).lkey == l.lkey) State.releaseLease
  let mine (c : Nat) : Bool := l.remap.any fun e => e.2 == c
  let resident (t : Tab (List Nat)) : Tab (List Nat) :=
    (t.map fun e => (e.1, e.2.filter (· != l.lkey))).filter fun e => !e.2.isEmpty
  let counts (t : Tab Nat) : Tab Nat := t.filter fun e => e.1 / 16 != l.lkey
  let st : State :=
    { st with
      banks := st.banks.filter fun b => b.2.lkey != l.lkey
      strands := st.strands.filter fun s => s.2.lkey != l.lkey
      cores := st.cores.map fun c =>
        (c.1, { c.2 with
          l1 := if l.isMember c.1 then c.2.l1.map fun x => if x.pinned = l.lkey then { x with pinned := 0 } else x else c.2.l1
          pins := c.2.pins.filter fun e => e.2 != l.lkey
          sent := counts c.2.sent, recv := counts c.2.recv })
      dies := st.dies.map fun d => (d.1, { d.2 with resident := resident d.2.resident })
      clusters := st.clusters.map fun c =>
        if mine c.1 then
          (c.1, { c.2 with
            slots := c.2.slots.filter fun s => !l.holds false s.1
            accs := c.2.accs.filter fun a => !l.holds true a.1 })
        else c
      jobs := st.jobs.filter fun j => !(2 ^ 97 ≤ j.1 && j.1 < 2 ^ 98 && j.1 % 2 ^ 16 == l.lkey)
      foreign := st.foreign.filter fun e => e.1 != l.lkey
      launches := terase st.launches l.lkey }
  let st := st.dropParks l.lkey
  let st := if l.bank = 1 then
      st.each ((l.remap.map fun e => e.2).filter fun c => !(st.cluster c).frozen.isEmpty) fun st c => st.owe (.launchResume c c)
    else st
  st.each (st.pkgs.map fun p => p.1) fun st p =>
    let graphs := (st.pkg p).graphs.map fun g => g.queue
    st.each (nubNat ((st.pkg p).mapped ++ graphs)) fun st q =>
      if st.due.contains (.admission p q) then st else st.owe (.admission p q)

/-- The number of bricks abandoned at a launch's end: those left unresumed, and those that wait and whose STATE is still 1 or 4, or
can no longer be read (R159, R405). A brick is a line that SUSP or QWAIT has written, counted once by its virtual address (log 126). -/
def State.bricksLeft (st : State) (l : Launch) : Nat :=
  let waiting := l.waits.filter fun a =>
    match st.walk (st.rootOf l.lkey) a with
    | .miss _ => true
    | .leaf addr w0 w1 _ =>
      let state := bits (st.currentNat (storageOf ((tlbOf 0 l.lkey a addr w0 w1).phys a) + 56) 8) 60 58
      state == 1 || state == 4
  (nubNat (l.lost ++ waiting)).length

/-- The last steps of an end: the completion word, the release, and a graph's node (R159, R352, R354). -/
def State.finishEnd (st : State) (l : Launch) : State :=
  if st.outstanding l.lkey then st
  else
    let code := if l.killed then 3 else 0
    match st.writeCompletion l.pkg l.queue (bits (l.word 6) 49 0) (completionWord 0 (st.bricksLeft l) code) with
    | .code _ st => st
    | .wait _ st => st
    | .ok _ st =>
      let st := if l.graph.isNone then st.entryDone l.pkg l.queue l.lkey else st
      let st := st.releaseLaunch l
      match l.graph with
      | some (g, node) =>
        let st := st.setPkg l.pkg fun p =>
          { p with graphs := p.graphs.map fun x =>
              if x.id = g then
                { x with finished := node :: x.finished, failed := if code = 0 then x.failed else x.failed.orElse fun _ => some node }
              else x }
        st.owe (.graphNodeComplete l.pkg g node)
      | none => st

/-! ### Waves -/

/-- The order of pairs of timestamp and endpoint (R108). -/
def pairBefore (a b : Nat × Nat) : Bool := a.1 < b.1 || (a.1 == b.1 && a.2 < b.2)

/-- The unfinished ordered runs of a launch and its ordered messages in flight, each with its timestamp and its place among those of
one timestamp (R108, R301). -/
def State.orderedPairs (st : State) (lkey : Nat) : List (Nat × Nat) :=
  let runs := (st.strands.filter fun s => s.2.lkey == lkey && s.2.ordered).map fun s => (s.2.info.ts, s.2.info.ep)
  let flying := (st.msgs.filter fun m => m.lkey == lkey && m.ord).map fun m => (m.ts, pairPlace m.target m.srcId)
  let entered := (st.banks.filter fun b => b.2.lkey == lkey).flatMap fun b =>
    (b.2.msgs.filter fun m => m.ord && !m.started).map fun m =>
      (m.ts, pairPlace (((st.launch lkey).map fun l => l.epid (b.1 / 2)).getD 0) m.sender)
  let bricks := (((st.launch lkey).map fun l => l.suspended).getD []).map fun s => (s.2.1, s.2.2)
  runs ++ flying ++ entered ++ bricks

/-- The horizon at a wave: the least pair, never below the one before (R108). -/
def State.newHorizon (st : State) (l : Launch) : Nat × Nat :=
  match st.orderedPairs l.lkey with
  | [] => l.horizon
  | x :: xs =>
    let m := xs.foldl (fun a b => if pairBefore b a then b else a) x
    if pairBefore m l.horizon then l.horizon else m

/-- The declarations of a wave for a launch: the wave's regions with equal and unchanged totals (R151). -/
def declared (l : Launch) (totals : Tab (Nat × Nat)) : List Nat :=
  (totals.filter fun t => t.2.1 == t.2.2 && l.prevOk && tget (0, 0) l.prev t.1 == t.2).map fun t => t.1

/-- What a declaration releases: bricks in STATE 4 and a graph's wait nodes whose earlier wave began after them, and the second
pass of an expert's spill ring (R152, R326, R354). -/
def State.declare (st : State) (l : Launch) (qs : List Nat) : State :=
  let go := l.quiet.filter fun e => qs.contains e.2.1 && 1 ≤ e.2.2
  let stay := (l.quiet.filter fun e => !(qs.contains e.2.1 && 1 ≤ e.2.2)).map fun e => (e.1, e.2.1, e.2.2 + 1)
  let st := st.setLaunch l.lkey fun l => { l with quiet := stay }
  let st := st.each go fun st e =>
    if 2 ^ 60 ≤ e.1 then st.owe (.graphNodeComplete l.pkg ((e.1 - 2 ^ 60) / 4096) ((e.1 - 2 ^ 60) % 4096))
    else st.actOnBrick noStrand l.lkey l.pkg e.1 2 0
  st.each (st.experts.filter fun e => e.2.lkey == l.lkey && e.2.appended && qs.contains e.2.routeQ) fun st e =>
    (st.setExpert e.1 fun x => { x with appended := false }).queueEvent e.1 .spill

/-- One launch at the end of a wave. -/
def State.waveOf (st : State) (l : Launch) : State :=
  if l.ended then st.finishEnd l
  else
    let totals : Tab (Nat × Nat) := (List.range 16).map fun q => (q, st.totals l.lkey q)
    let st := st.declare l (declared l totals)
    let st := st.setLaunch l.lkey fun x => { x with prev := totals, prevOk := true, horizon := st.newHorizon l }
    if st.mayEnd l totals then
      let st := st.beginEnd l
      match st.launch l.lkey with
      | some l => st.finishEnd l
      | none => st
    else st

/-- QUIESCENCE_WAVE: the totals of every region of every launch, with declarations, horizons, and the ends of launches (R108,
R151, R152, R159). -/
def execQuiescenceWave (st : State) : Out :=
  .next (st.each (st.launches.map fun l => l.1) fun st key =>
    match st.launch key with
    | some l => if l.started || l.killed then st.waveOf l else st
    | none => st)

end Sys2Proof.Machine
end

