-- ==== Sys2Proof/Machine/Sched.lean ====
section
/-!
DEFINITION. The host queue unit: work queues and doorbells (R346 to R348), the mapping of queues to slots (R349), launch packets
and their admission (R37, R38, R59 to R61, R155 to R158, R351, R406), the start runs (R158), graphs of launches (R353 to R355),
interrupts (R356), and the watch table (R357, R358).
-/

namespace Sys2Proof.Machine

/-! ### Queues -/

/-- The queues of a package (R346). -/
def queueLimit : Nat := 16384

/-- The ring base of a queue (R346). -/
def State.queueBase (st : State) (p q : Nat) : Nat := bits (st.queueWord p q 0) 49 7 * 128

/-- The entries of a queue's ring (R346). -/
def State.queueSize (st : State) (p q : Nat) : Nat := 2 ^ bits (st.queueWord p q 1) 27 24

/-- PRI of a queue (R346). -/
def State.queuePri (st : State) (p q : Nat) : Nat := bits (st.queueWord p q 1) 33 32

/-- KIND of a queue: its entries are graph records (R346). -/
def State.queueGraphs (st : State) (p q : Nat) : Bool := nbit (st.queueWord p q 1) 30

/-- SER of a queue (R346). -/
def State.queueSer (st : State) (p q : Nat) : Bool := nbit (st.queueWord p q 1) 29

/-- PREM of a queue (R346). -/
def State.queuePrem (st : State) (p q : Nat) : Bool := nbit (st.queueWord p q 1) 28

/-- Whether a queue counts as enabled (R346). -/
def State.queueOn (st : State) (p q : Nat) : Bool :=
  let size := bits (st.queueWord p q 1) 27 24
  nbit (st.queueWord p q 1) 31 && 4 ≤ size && !(st.queuePrem p q && st.queuePri p q < 3) &&
    regionOf (st.pkg p) (st.queueBase p q) != .reserved

/-- HEAD of a queue (R346). -/
def State.queueHead (st : State) (p q : Nat) : Nat := tget 0 (st.pkg p).heads q

/-- TAIL of a queue (R347). -/
def State.queueTail (st : State) (p q : Nat) : Nat := tget 0 (st.pkg p).tails q

/-- Whether a queue has work (R347). -/
def State.hasWork (st : State) (p q : Nat) : Bool := st.queueOn p q && st.queueTail p q != st.queueHead p q

/-- A mapped queue with work looks at its head entry. -/
def State.wakeQueue (st : State) (p q : Nat) : State :=
  let e : Instr := if st.queueGraphs p q then .graphAdmission p q else .admission p q
  if (st.pkg p).mapped.contains q && st.hasWork p q && !st.due.contains e then st.owe e else st

/-- A doorbell write (R347): a TAIL that claims more entries than the ring holds is ignored. -/
def State.ringDoorbell (st : State) (p q tail : Nat) : State :=
  let t := tail % 2 ^ 16
  if st.queueSize p q < (t + 2 ^ 16 - st.queueHead p q) % 2 ^ 16 then st
  else (st.setPkg p fun g => { g with tails := tset 0 g.tails q t }).wakeQueue p q

/-- DOORBELL (R347). -/
def execDoorbell (pkg queue tail : Nat) (st : State) : Out :=
  if packageLimit ≤ pkg ∨ queueLimit ≤ queue then .fault .noSuchAgent else .next (st.ringDoorbell pkg queue tail)

/-! ### Physical accesses of the host queue unit -/

/-- The job of a package's host queue unit with a number of its own: a queue's head entry, a graph's node, or a launch's payload. -/
def hquJob (p n : Nat) : Nat := 2 ^ 98 + p * 2 ^ 64 + n

/-- The number of a graph's node among the jobs of the unit. -/
def nodeJob (p g node : Nat) : Nat := hquJob p (2 ^ 40 + g * 4096 + node)

/-- The job of the entry of a queue, or of the packet of a launch node. -/
def entryJob (p q : Nat) (graph : Option (Nat × Nat)) : Nat :=
  match graph with
  | some (g, node) => nodeJob p g node
  | none => hquJob p q

/-- Range `i` of a job, in a package's local physical memory, read at its homes in ascending atomic pieces, each at an instant of
its own (R126, R346, R353): the bytes once all have been read, and before that one piece and a wait. -/
def State.readPhysical (st : State) (p job i l n : Nat) : Eng (List Byte) :=
  let done := st.jobBytes job i
  if n ≤ done.length then .ok done st
  else
    let f := p * 2 ^ 50 + l + done.length
    let k := min (n - done.length) (pieceSize f - f % pieceSize f)
    match st.engineRead (storageOf f) k (st.viaPcie f) [job] with
    | some (bs, st) => .wait false (st.addBytes job i bs)
    | none => .wait false (st.snoopFor (storageOf f) k false (st.viaPcie f) [job])

/-- Range `i` of a job written to local physical memory, in ascending engine writes of at most one line, each at an instant of its
own; it ends once their pieces are applied (R114, R126). -/
def State.writePhysical (st : State) (p job i l : Nat) (bs : List Byte) : Eng Unit :=
  let done := (st.jobBytes job i).length
  if bs.length ≤ done then if st.piecesLeft job then .wait false st else .ok () st
  else
    let f := p * 2 ^ 50 + l + done
    let now := (bs.drop done).take (64 - f % 64)
    let cells := cellsAt (storageOf f) now
    let (cls, owner) := st.physicalOwner f
    match st.engineWrite cells cls owner (st.viaPcie f) [job] with
    | some st => .wait false (st.addBytes job i now)
    | none => .wait false (st.snoopCells cells (st.viaPcie f) [job])

/-! ### Submission by a message -/

/-- The queue that a message to a host queue unit names (R348). -/
def Msg.queue (m : Msg) : Nat := bits (fromBytes (m.payload.take 8)) 13 0

/-- Whether the packet of another message is being copied to the tail of a queue: the tail moves only once it is there (R347,
R348). -/
def State.copiesOther (st : State) (p q msg : Nat) : Bool :=
  st.msgs.any fun m => m.id != msg && m.queue == q && !(st.jobBytes m.id 0).isEmpty &&
    match (st.launch m.lkey).map fun (l : Launch) => l.resolve m.target with
    | some (Target.agent p' _ a) => p' == p && a == 0
    | _ => false

/-- A message to the host queue unit of a package (R348). Packets for one queue are copied one after another. -/
def State.submit (st : State) (p : Nat) (m : Msg) : State :=
  let q := m.queue
  let a := bits (fromBytes ((m.payload.drop 8).take 8)) 49 0
  if m.chan ≠ 0 ∨ m.len ≠ 16 ∨ st.queueOn p q = false ∨ st.queueGraphs p q = true ∨ a % 128 ≠ 0 ∨
      regionOf (st.pkg p) a = .reserved then st.receive m
  else if (st.queueTail p q + 2 ^ 16 - st.queueHead p q) % 2 ^ 16 = st.queueSize p q ∨ st.copiesOther p q m.id then
    st.owe (.hquSubmitMessage m.id)
  else
    let again : Instr := .hquSubmitMessage m.id
    match st.readPhysical p m.id 0 a 128 with
    | .code _ st => st.owe again
    | .wait _ st => st.owe again
    | .ok bs st =>
      match st.writePhysical p m.id 1 (st.queueBase p q + 128 * (st.queueTail p q % st.queueSize p q)) bs with
      | .code _ st => st.owe again
      | .wait _ st => st.owe again
      | .ok _ st => ((st.endJob m.id).receive m).ringDoorbell p q (st.queueTail p q + 1)

/-- HQU_SUBMIT_MESSAGE: a packet is copied to a queue's ring; while the ring is full the message is offered again, and one
that names no packet or queue is discarded and counted as received (R348). -/
def execHquSubmitMessage (msg : Nat) (st : State) : Out :=
  .next <|
    match st.msgs.find? fun m => m.id == msg with
    | none => st
    | some m =>
      match (st.launch m.lkey).map fun (l : Launch) => l.resolve m.target with
      | some (Target.agent p _ _) => st.submit p m
      | _ => st.receive m

/-! ### Slots -/

/-- The order of the levels in a quantum, highest first (R349). -/
def levelOrder (t : Nat) : List Nat :=
  match t % 16 with
  | 5 => [2, 3, 1, 0]
  | 10 => [1, 3, 2, 0]
  | 15 => [0, 3, 2, 1]
  | _ => [3, 2, 1, 0]

/-- The queues of a level with work, from the level's round-robin pointer on and wrapping (R349). -/
def State.waitingQueues (st : State) (p level : Nat) : List Nat :=
  let qs := (List.range queueLimit).filter fun q => st.hasWork p q && st.queuePri p q == level
  let from' := tget 0 (st.pkg p).pointers level
  (qs.filter fun q => from' ≤ q) ++ qs.filter fun q => q < from'

/-- One level mapped: queues take the slots that are left, and the pointer moves past the last one (R349). -/
def State.mapLevel (st : State) (p level : Nat) : State :=
  let room := 2048 - (st.pkg p).mapped.length
  let qs := (st.waitingQueues p level).take room
  st.setPkg p fun g =>
    { g with
      mapped := g.mapped ++ qs
      pointers := match qs.getLast? with
        | some q => tset 0 g.pointers level (q + 1)
        | none => g.pointers }

/-- QUANTUM_REMAP: every slot is mapped anew, and each mapped queue looks at its head entry (R349, R350). -/
def execQuantumRemap (pkg : Nat) (st : State) : Out :=
  if packageLimit ≤ pkg then .fault .noSuchAgent
  else
    let t := (st.pkg pkg).quantum
    let st := st.setPkg pkg fun g => { g with mapped := [] }
    let st := st.each (levelOrder t) fun st level => st.mapLevel pkg level
    let st := st.setPkg pkg fun g => { g with quantum := t + 1 }
    .next (st.each (st.pkg pkg).mapped fun st q => st.wakeQueue pkg q)

/-! ### Launch packets -/

/-- INIT of a packet (R155). -/
def Launch.init (l : Launch) : Bool := nbit (l.word 0) 54

/-- FUSE of a packet (R155). -/
def Launch.fuse (l : Launch) : Bool := nbit (l.word 0) 53

/-- The scratchpad of a launch in bytes (R155). -/
def Launch.spadBytes (l : Launch) : Nat := bits (l.word 0) 49 42 * 4096

/-- The L1 region of a launch in bytes (R155). -/
def Launch.l1Bytes (l : Launch) : Nat := bits (l.word 0) 41 34 * 4096

/-- The bytes of the v registers of a core's four strands (R38). -/
def Launch.regBytes (l : Launch) : Nat := (bits (l.word 0) 52 50 + 1) * 4096

/-- ENTRY (R155). -/
def Launch.entry (l : Launch) : Nat := bits (l.word 3) 55 0

/-- PAYLOAD (R155). -/
def Launch.payload (l : Launch) : Nat := bits (l.word 4) 55 0

/-- PLEN (R155). -/
def Launch.plen (l : Launch) : Nat := bits (l.word 5) 17 0

/-- COMPL (R155). -/
def Launch.compl (l : Launch) : Nat := bits (l.word 6) 49 0

/-- The numbers of the set bits of a field. -/
def maskBits (x n : Nat) : List Nat := (List.range n).filter (nbit x)

/-- The placement of a packet's stages, dies and clusters from its admitting package on (R406). -/
def Launch.place (l : Launch) : Tab Nat :=
  (List.range l.stages).flatMap fun s =>
    (maskBits (bits (l.word 2) 45 38) 8).flatMap fun d =>
      (maskBits (bits (l.word 2) 63 46) 18).map fun c => (s * 144 + d * 18 + c, ((l.pkg + s) * 8 + d) * 18 + c)

/-- A footprint entry (R59): base, lines, DIST, STAGE. -/
structure Footprint where
  base  : Nat
  lines : Nat
  dist  : Nat
  stage : Nat
  deriving DecidableEq, Repr

/-- The footprint entries of a packet that are in use (R59). -/
def Launch.footprints (l : Launch) : List Footprint :=
  ((List.range 4).map fun i =>
    let w0 := l.word (8 + 2 * i)
    let w1 := l.word (9 + 2 * i)
    { base := bits w0 55 0, lines := bits w1 19 0, dist := bits w1 33 32, stage := bits w1 37 34 : Footprint }).filter fun f =>
      f.lines != 0

/-- Whether a packet has a nonzero reserved bit, or a malformed footprint entry (R59, R155). -/
def Launch.malformed (l : Launch) : Bool :=
  bits (l.word 0) 63 60 != 0 || bits (l.word 0) 19 0 != 0 || bits (l.word 1) 63 60 != 0 || bits (l.word 1) 11 0 != 0 ||
    bits (l.word 2) 21 0 != 0 || bits (l.word 3) 63 56 != 0 || bits (l.word 4) 63 56 != 0 || bits (l.word 5) 63 18 != 0 ||
    bits (l.word 6) 63 50 != 0 || bits (l.word 7) 63 16 != 0 ||
    (List.range 4).any fun i =>
      let w0 := l.word (8 + 2 * i)
      let w1 := l.word (9 + 2 * i)
      bits w0 63 56 != 0 || bits w0 5 0 != 0 || bits w1 63 38 != 0 || bits w1 31 20 != 0 || bits w1 33 32 == 3

/-- The first line and the line count of what a member receives of a footprint entry (R59): `i` of `n` members, at a stage. -/
def Footprint.share (f : Footprint) (i n stage : Nat) : Nat × Nat :=
  match f.dist with
  | 0 => (f.base / 64, f.lines)
  | 1 => (f.base / 64 + i * f.lines / n, (i + 1) * f.lines / n - i * f.lines / n)
  | _ => if stage = f.stage then (f.base / 64, f.lines) else (0, 0)

/-- A range of lines without another, as ranges. -/
def rangeMinus (x y : Nat × Nat) : List (Nat × Nat) :=
  let (a, n) := x
  let (b, m) := y
  if m = 0 ∨ b + m ≤ a ∨ a + n ≤ b then [x]
  else [(a, b - a), (b + m, a + n - (b + m))].filter fun r => r.2 != 0

/-- Disjoint ranges that cover the same lines. -/
def disjointRanges (xs : List (Nat × Nat)) : List (Nat × Nat) :=
  xs.foldl (fun done x => done ++ done.foldl (fun parts y => parts.flatMap fun p => rangeMinus p y) [x]) []

/-- The lines of a range, or those of one slice of a fused L1: with bits 9:6 of the address equal to it (R46). -/
def linesIn (r : Nat × Nat) (slice : Option Nat) : Nat :=
  match slice with
  | none => r.2
  | some s => (r.1 + r.2 + 15 - s) / 16 - (r.1 + 15 - s) / 16

/-- The ranges that each member receives, with its core, in member order (R59). -/
def Launch.shares (l : Launch) : List (Nat × List (Nat × Nat)) :=
  let ms := l.members
  ((List.range ms.length).zip ms).map fun e =>
    (e.2, (l.footprints.map fun f => f.share e.1 ms.length (l.stageOf (e.2 / 16))).filter fun r => r.2 != 0)

/-- Whether the pinned lines of each core, or of each slice, take at most half of its L1 region (R60). -/
def Launch.footprintFits (l : Launch) : Bool :=
  let half := l.l1Bytes / 2 / 64
  let count (rs : List (Nat × Nat)) (slice : Option Nat) : Nat := (disjointRanges rs).foldl (fun n r => n + linesIn r slice) 0
  l.footprints.isEmpty ||
    if l.fuse then
      l.remap.all fun e =>
        let rs := (l.shares.filter fun s => s.1 / 16 == e.2).flatMap fun s => s.2
        (List.range 16).all fun c => count rs (some c) ≤ half
    else l.shares.all fun s => count s.2 none ≤ half

/-- Whether COMPL can be written (R155, R156). -/
def State.complSound (st : State) (p compl : Nat) : Bool := compl % 8 == 0 && regionOf (st.pkg p) compl != .reserved

/-- Whether a packet that is well formed is refused before its allotment is reserved (R38, R156, R406). -/
def State.refuses (st : State) (l : Launch) : Bool :=
  bits (l.word 2) 63 46 == 0 || bits (l.word 2) 45 38 == 0 || bits (l.word 2) 37 22 == 0 || l.spadBytes < 2 ^ 14 ||
    2 ^ 18 < l.regBytes + l.spadBytes || 2 ^ 19 < l.regBytes + l.spadBytes + l.l1Bytes ||
    (l.fuse && bits (l.word 2) 37 22 != 2 ^ 16 - 1) || 32 < l.accs || 128 < l.slots ||
    (l.pree && (64 < l.slots || 16 < l.accs)) || l.spadBytes - 2 ^ 14 < l.plen || (l.plen != 0 && !l.init) ||
    !l.footprintFits || l.lkey == 0 || (st.launch l.lkey).isSome ||
    !((List.range l.stages).all fun s => l.pkg + s < packageLimit && st.answers (l.pkg + s))

/-! ### Admission -/

/-- The launches other than pre-empting ones that hold a bank of a cluster. -/
def State.holdersOfCluster (st : State) (c : Nat) : List Nat :=
  nubNat ((rangeFrom (16 * c) 16).filterMap fun core =>
    let k := (st.bank (2 * core)).lkey
    if k = 0 then none else some k)

/-- Whether a cluster's die is in service, its shadow banks are free and nothing displaced waits there (R384). -/
def State.unshadowed (st : State) (c : Nat) : Bool :=
  ((st.pkg (pkgOfDie (dieOfCluster c))).level != 1 || dieOfCluster c % 8 == 0) &&
  (rangeFrom (16 * c) 16).all (fun core => (st.bank (2 * core + 1)).lkey == 0) && (st.cluster c).frozen.isEmpty

/-- Whether a launch's allotment is free on a cluster (R351): its cores, and its slots and accumulators, which are the
physical ones of the same numbers (R274). -/
def State.clusterFree (st : State) (l : Launch) (c : Nat) : Bool :=
  st.unshadowed c &&
    ((rangeFrom (16 * c) 16).all fun core => !l.hasCore (core % 16) || (st.bank (2 * core)).lkey == 0) &&
    (st.holdersOfCluster c).all fun k =>
      match st.launch k with
      | some x => (x.slots == 0 || l.slots == 0) && (x.accs == 0 || l.accs == 0) && !l.fuse
      | none => true

/-- Whether a cluster can be taken by pre-emption: it is free, or held only by launches with PREE (R351). -/
def State.takable (st : State) (c : Nat) : Bool :=
  st.unshadowed c && (st.holdersOfCluster c).all fun k => ((st.launch k).map fun x => x.pree).getD true

/-- Whether a pre-empting launch fits the upper half of each pool (R39, R274, R351; log 45). -/
def Launch.fitsHalf (l : Launch) : Bool := l.regBytes + l.spadBytes + l.l1Bytes ≤ 2 ^ 18 && l.slots ≤ 64 && l.accs ≤ 16

/-- The pool bytes, scale areas and accumulators that an admission clears (R158, R274). -/
def Launch.clears (l : Launch) (members : List Nat) (lo hi a : Nat) : Bool :=
  if isPool a then lo ≤ poolOff a && poolOff a < hi && members.contains (poolCore a)
  else if slotBase ≤ a ∧ a < accBase then
    let n := (a - slotBase) / 2 ^ 16
    2 ^ 15 ≤ (a - slotBase) % 2 ^ 16 && l.holds false (n % 128) && l.remap.any fun e => e.2 == n / 128
  else if accBase ≤ a then
    let n := (a - accBase) / 2 ^ 14
    l.holds true (n % 32) && l.remap.any fun e => e.2 == n / 32
  else false

/-- The allotment of a launch reserved on every member at once (R37, R39, R157, R158, R274): boundaries, strands without a run,
an empty handler table and no window, a scratchpad of zeros, unclaimed slots and ready accumulators of zeros. Copies of PRIV
lines on the launch's sites are dropped, since a site learns of writes only from its admission on (R82). -/
def State.reserve (st : State) (l : Launch) : State :=
  let off := if l.bank = 0 then 0 else 2 ^ 18
  let kbReg := off + l.regBytes
  let kbSpad := kbReg + l.spadBytes
  let members := l.members
  let sites := nubNat (l.remap.map fun e => e.2 / 18)
  let mine (c : Nat) : Bool := l.remap.any fun e => e.2 == c
  let st : State :=
    { st with
      launches := tput st.launches l.lkey l
      mem := st.mem.filter fun c => !l.clears members kbReg kbSpad c.1
      dies := st.dies.map fun d => if sites.contains d.1 then (d.1, { d.2 with peer := d.2.peer.filter fun x => x.cls != 0 }) else d
      clusters := st.clusters.map fun c =>
        if mine c.1 then
          (c.1, { c.2 with slots := c.2.slots.filter fun s => !l.holds false s.1, accs := c.2.accs.filter fun a => !l.holds true a.1 })
        else c }
  st.each members fun st core =>
    let bank := l.bankOn core
    let st := st.setCore core fun c => { c with l1 := if l.bank = 0 then [] else c.l1.filter fun x => x.cls != 0 }
    let st := st.setBank bank fun _ =>
      { lkey := l.lkey, kbReg := kbReg, kbSpad := kbSpad, kbL1 := kbSpad + l.l1Bytes, fused := l.fuse }
    st.each (rangeFrom (4 * bank) 4) fun st k => st.setStrand k fun _ => { lkey := l.lkey }

/-- What an attempt to admit a packet comes to: a refusal, with the code of its completion word unless COMPL cannot be
written, a wait, or a reserved allotment. -/
inductive Admit where
  | refused (code : Option Nat)
  | waits
  | taken (st : State)

/-- The least context number that no launch has (R370). -/
def State.freeContext (st : State) : Option Nat :=
  (List.range 64).find? fun n => !(st.launches.any fun l => l.2.context == n)

/-- The wait nodes of a graph that wait for a launch node (R354). -/
def Graph.waitersOf (g : Graph) (node : Nat) : List Nat :=
  g.running.filter fun i =>
    let w (j : Nat) : Nat := ((g.nodes.getD i []).getD j 0).toNat
    bits (w 0) 63 60 == 4 && bits (w 2) 11 0 == node

/-- The quiescence entries that a launch of a graph node begins with (R354). -/
def State.graphQuiet (st : State) (p : Nat) (graph : Option (Nat × Nat)) : List (Nat × Nat × Nat) :=
  match graph with
  | none => []
  | some (g, node) =>
    match (st.pkg p).graphs.find? fun x => x.id == g with
    | none => []
    | some x => (x.waitersOf node).map fun i => (2 ^ 60 + g * 4096 + i, bits (((x.nodes.getD i []).getD 3 0).toNat) 51 48, 0)

/-- An attempt to admit the packet of a queue (R156, R351): it takes free clusters, or on a queue with PREM clusters held
only by launches that may be pre-empted. -/
def State.tryAdmit (st : State) (p q : Nat) (graph : Option (Nat × Nat)) (ws : List Word) : Admit :=
  let l : Launch :=
    { lkey := bits ((ws.getD 7 0).toNat) 15 0, ptroot := ws.getD 1 0, packet := ws, pkg := p, queue := q, context := 0, graph := graph,
      quiet := st.graphQuiet p graph }
  let l := { l with remap := l.place }
  if st.complSound p l.compl = false then .refused none
  else if l.malformed then .refused (some 1)
  else if st.refuses l then .refused (some 2)
  else
    match st.freeContext with
    | none => .waits
    | some n =>
      let l := { l with context := n }
      if l.remap.all fun e => st.clusterFree l e.2 then .taken (st.reserve l)
      else if st.queuePrem p q && l.fitsHalf && l.remap.all fun e => st.takable e.2 then
        let held := (l.remap.map fun e => e.2).filter fun c => !(st.holdersOfCluster c).isEmpty
        .taken ((st.reserve { l with bank := 1 }).oweAll (held.map fun c => .preemption c l.lkey))
      else .waits

/-- HEAD of a queue advances past an entry (R346, R351). -/
def State.advanceHead (st : State) (p q : Nat) : State :=
  (st.setPkg p fun g => { g with heads := tset 0 g.heads q ((st.queueHead p q + 1) % 2 ^ 16) }).wakeQueue p q

/-- The entry of a graph node, or of a queue, has been dealt with: a queue's HEAD advances, and an entry that was admitted
keeps a queue with SER waiting until its completion word is written; that of one that was refused is (R346). -/
def State.entryTaken (st : State) (p q : Nat) (graph : Option (Nat × Nat)) (admitted : Option Nat) : State :=
  match graph with
  | some _ => st
  | none =>
    (st.setPkg p fun g =>
      { g with
        lastEntry := match admitted with
          | some entry => tput g.lastEntry q entry
          | none => terase g.lastEntry q }).advanceHead p q

/-- Whether a queue with SER waits for the completion word of its previous entry (R346). -/
def State.serWaits (st : State) (p q : Nat) : Bool := st.queueSer p q && (tget? (st.pkg p).lastEntry q).isSome

/-- A launch node whose packet was refused fails its graph (R354). -/
def State.failNode (st : State) (p : Nat) (graph : Option (Nat × Nat)) : State :=
  match graph with
  | none => st
  | some (g, node) =>
    (st.setPkg p fun x =>
      { x with graphs := x.graphs.map fun y =>
          if y.id = g then { y with finished := node :: y.finished, failed := y.failed.orElse fun _ => some node } else y }).owe
      (.graphNodeComplete p g node)

/-- A packet refused: its completion word is written with a code, unless COMPL cannot be written (R351, R352). -/
def State.refusePacket (st : State) (p q compl : Nat) (graph : Option (Nat × Nat)) (code : Option Nat) : Eng Unit :=
  let gone (st : State) : State := ((st.failNode p graph).endJob (entryJob p q graph)).entryTaken p q graph none
  match code with
  | none => .ok () (gone st)
  | some c =>
    match st.writeCompletion p q compl (completionWord 0 0 c) with
    | .ok _ st => .ok () (gone st)
    | r => r

/-- A member asks for one line of its footprint (R60): a line that fails a check as a hint is skipped and counted, and a line of
another class than PRIV, RO and SPAN is skipped. -/
def State.loadLine (st : State) (l : Launch) (core line : Nat) : State :=
  let k := 4 * l.bankOn core
  let drop (st : State) : State := st.setCore core fun c => { c with khdrop := countField c.khdrop 63 32 }
  let va := line * 64
  if 2 ^ 56 ≤ va ∨ bits va 55 48 = 0xFF then drop st
  else
    match st.translate (sourceCore core) l.lkey va .load true none with
    | (.miss _, st) => drop st
    | (.ok e, st) =>
      let p := e.phys va
      let a := storageOf p
      if (e.check false l.lkey .load).isSome ∨ st.rangeAdmits (pkgOf k) p 1 = false then drop st
      else if e.cls ≠ 0 ∧ e.cls ≠ 1 ∧ e.cls ≠ 3 then st
      else
        st.send
          { id := 0, kind := .read, home := homeOf a, holder := st.asker k e.cls (a / 8), line := a / 64,
            words := rangeFrom (a / 8) 8, strand := k, chunk := 0, seq := 2, cls := e.cls, admitted := true, pcie := st.viaPcie p
            port1 := nbit p 47 }

/-- The reads of a launch's footprint lines are sent; each pins the place that it fills (R60). -/
def State.loadFootprint (st : State) (l : Launch) : State :=
  st.each l.shares fun st s => st.each (s.2.flatMap fun r => rangeFrom r.1 r.2) fun st line => st.loadLine l s.1 line

/-- A reserved launch reads its payload in its own context (R156, R158): the read waits for a missing translation, refuses the
packet where a check fails, and else puts the bytes at offset 0 of every member's scratchpad; then the footprint is loaded. -/
def State.loadPayload (st : State) (l : Launch) : State :=
  let again : Instr := .admission l.pkg l.queue
  if l.killed then
    ((st.endJob (hquJob l.pkg (2 ^ 32 + l.lkey))).setLaunch l.lkey fun l => { l with loading := false }).entryTaken l.pkg l.queue
      l.graph (some l.lkey)
  else
    let job := hquJob l.pkg (2 ^ 32 + l.lkey)
    let x : EngCtx := { source := sourceHqu l.pkg, lkey := l.lkey, sv := false, strand := 0, cmd := job }
    match (if l.plen = 0 then .ok [] st else st.readAll x 0 l.payload l.plen) with
    | .wait _ st => st.owe again
    | .code _ st =>
      match st.refusePacket l.pkg l.queue l.compl l.graph (some 2) with
      | .ok _ st => (st.endJob job).releaseLaunch l
      | .code _ st => st.owe again
      | .wait _ st => st.owe again
    | .ok bs st =>
      let mem := l.members.foldl (fun (m : Memory) core => m.writeBytes (poolKey core (st.bank (l.bankOn core)).kbReg) bs) st.mem
      let st : State := { st with mem := mem }
      let st := ((st.endJob job).loadFootprint l).setLaunch l.lkey fun l => { l with loading := false }
      (st.entryTaken l.pkg l.queue l.graph (some l.lkey)).owe (.launchDispatch l.lkey)

/-- The words of a range of bytes. -/
def wordsOfBytes (bs : List Byte) : List Word :=
  (List.range (bs.length / 8)).map fun i => BitVec.ofNat 64 (fromBytes ((bs.drop (8 * i)).take 8))

/-- The packet at a local physical address is admitted, refused, or waits. -/
def State.admitPacket (st : State) (p q at_ : Nat) (graph : Option (Nat × Nat)) : State :=
  let again : Instr := .admission p q
  let job := entryJob p q graph
  match st.readPhysical p job 0 at_ 128 with
  | .code _ st => st.owe again
  | .wait _ st => st.owe again
  | .ok bs st =>
    let ws := wordsOfBytes bs
    let lkey := bits ((ws.getD 7 0).toNat) 15 0
    match st.tryAdmit p q graph ws with
    | .waits => st.endJob job
    | .refused code =>
      match st.refusePacket p q (bits ((ws.getD 6 0).toNat) 49 0) graph code with
      | .ok _ st => st
      | .code _ st => st.owe again
      | .wait _ st => st.owe again
    | .taken st =>
      let st := st.endJob job
      match st.launch lkey with
      | some l => st.loadPayload l
      | none => st

/-- The launch nodes of a queue's graphs that have started and whose packets are still to be admitted; a node's failure stops none
that has started (R354). -/
def State.nodesToAdmit (st : State) (p q : Nat) : List (Nat × Nat × Nat) :=
  ((st.pkg p).graphs.filter fun g => g.queue == q).flatMap fun g =>
    (g.running.filter fun i =>
      bits (((g.nodes.getD i []).getD 0 0).toNat) 63 60 == 1 && !g.finished.contains i &&
        !(st.launches.any fun l => l.2.graph == some (g.id, i) && l.2.pkg == p)).map fun i =>
      (g.id, i, bits (((g.nodes.getD i []).getD 1 0).toNat) 49 0)

/-- ADMISSION: the launches of a queue that still read their payloads go on; then the launch nodes of the queue's graphs and,
while the queue is mapped, its head entry are admitted, refused, or wait (R347, R351, R354). -/
def execAdmission (pkg queue : Nat) (st : State) : Out :=
  if packageLimit ≤ pkg ∨ queueLimit ≤ queue then .fault .noSuchAgent
  else
    let loading := (st.launches.filter fun l => l.2.pkg == pkg && l.2.queue == queue && l.2.loading).map fun l => l.2
    let st := st.each loading fun st l => st.loadPayload l
    let st := st.each (st.nodesToAdmit pkg queue) fun st n =>
      if n.2.2 % 64 ≠ 0 ∨ regionOf (st.pkg pkg) n.2.2 = .reserved then st.failNode pkg (some (n.1, n.2.1))
      else st.admitPacket pkg queue n.2.2 (some (n.1, n.2.1))
    .next <|
      if st.queueGraphs pkg queue then st.wakeQueue pkg queue
      else if (st.pkg pkg).mapped.contains queue = false ∨ st.hasWork pkg queue = false ∨ loading.any (fun l => l.graph.isNone) = true ∨
          st.serWaits pkg queue = true then st.endJob (entryJob pkg queue none)
      else
        st.admitPacket pkg queue (st.queueBase pkg queue + 128 * (st.queueHead pkg queue % st.queueSize pkg queue)) none

/-- The endpoint identifier of the host queue unit of a launch's admitting package in its virtual numbering (R10, R158). -/
def hquEpid : Nat := epidOf 0 8 0 0

/-- LAUNCH_DISPATCH: once every footprint line is loaded or skipped, and each cluster that it takes has stopped its displaced
launch, strand 0 of every member starts at ENTRY (R61, R158, R367). -/
def execLaunchDispatch (lkey : Nat) (st : State) : Out :=
  .next <|
    match st.launch lkey with
    | none => st
    | some l =>
      let fetching := st.net.any fun p => p.chunk == 0 && p.seq == 2 && (st.strand p.strand).lkey == lkey
      let stopping := l.bank == 1 && l.remap.any fun e =>
        (rangeFrom (16 * e.2) 16).any fun core => (st.bank (2 * core)).lkey != 0 && !(st.bank (2 * core)).frozen
      if l.started || l.loading || l.killed then st
      else if fetching || stopping then st.owe (.launchDispatch lkey)
      else
        let st := st.setLaunch lkey fun l => { l with started := true }
        let now := st.time
        st.each l.members fun st core =>
          let k := 4 * l.bankOn core
          (st.beginRun k lkey l.entry false [apertureOf 0, l.plen, hquEpid, now] { ep := l.epid core }).checkStart k l.entry false

/-! ### Graphs -/

/-- A word of a graph's node (R353). -/
def Graph.word (g : Graph) (node i : Nat) : Nat := ((g.nodes.getD node []).getD i 0).toNat

/-- TYPE of a node (R353). -/
def Graph.kind (g : Graph) (node : Nat) : Nat := bits (g.word node 0) 63 60

/-- The successors that a word lists (R353). -/
def successors (w : Nat) : List Nat :=
  (List.range 4).filterMap fun i =>
    let s := bits w (16 * i + 15) (16 * i)
    if s = 0xFFFF then none else some s

/-- Whether the nodes of a graph break no rule of R353. -/
def Graph.sound (g : Graph) : Bool :=
  let n := g.nodes.length
  let all := (List.range n).flatMap fun i => successors (g.word i 4) ++ successors (g.word i 5)
  (List.range n).all fun i =>
    let kind := g.kind i
    1 ≤ kind && kind ≤ 5 && bits (g.word i 0) 47 0 == 0 && bits (g.word i 1) 63 50 == 0 && bits (g.word i 2) 63 50 == 0 &&
      bits (g.word i 3) 63 52 == 0 && bits (g.word i 3) 47 40 == 0 && g.word i 6 == 0 && g.word i 7 == 0 &&
      (kind == 3 || g.word i 5 == 2 ^ 64 - 1) && (kind != 3 || g.word i 1 % 8 == 0) &&
      (kind != 4 || (bits (g.word i 2) 49 12 == 0 && g.word i 2 < n && g.kind (g.word i 2) == 1)) &&
      (successors (g.word i 4) ++ successors (g.word i 5)).all (fun s => s < n) && bits (g.word i 0) 59 48 == all.count i

/-- A graph of a package. -/
def State.graph (st : State) (p id : Nat) : Option Graph := (st.pkg p).graphs.find? fun g => g.id == id

/-- The state with a graph changed. -/
def State.setGraph (st : State) (p id : Nat) (f : Graph → Graph) : State :=
  st.setPkg p fun g => { g with graphs := g.graphs.map fun x => if x.id = id then f x else x }

/-- The predicate word of a conditional node is read as by an LD.ACQ.SY, at its home or through its host port, and recorded; while
the word must wait, the node is running and reads it later (R123, R355). -/
def State.readPredicate (st : State) (p : Nat) (g : Graph) (node : Nat) : Bool × State :=
  let f := p * 2 ^ 50 + bits (g.word node 1) 49 0
  let job := nodeJob p g.id node
  match st.engineRead (storageOf f) 8 (st.viaPcie f) [job] with
  | some (bs, st) => (true, st.setGraph p g.id fun x => { x with preds := tset 0 x.preds node (fromBytes bs) })
  | none => (false, st.snoopFor (storageOf f) 8 false (st.viaPcie f) [job])

/-- A node starts (R354): a launch waits for admission, a copy goes on piece by piece, a conditional node reads its predicate, a
quiescence wait waits for the declaration, and the others complete at once. -/
def State.startNode (st : State) (p : Nat) (g : Graph) (node : Nat) : State × List (Nat × Bool) :=
  let run := st.setGraph p g.id fun x => { x with running := x.running ++ [node] }
  match g.kind node with
  | 1 => (run.owe (.admission p g.queue), [])
  | 2 => (run.owe (.graphNodeComplete p g.id node), [])
  | 3 =>
    match run.readPredicate p g node with
    | (true, st) => (st, [(node, true)])
    | (false, st) => (st.owe (.graphNodeComplete p g.id node), [])
  | 4 =>
    let lnode := bits (g.word node 2) 11 0
    if g.done.contains lnode then (st, [(node, true)])
    else
      match st.launches.find? fun l => l.2.graph == some (g.id, lnode) && l.2.pkg == p with
      | some l =>
        (run.setLaunch l.1 fun l => { l with quiet := l.quiet ++ [(2 ^ 60 + g.id * 4096 + node, bits (g.word node 3) 51 48, 0)] }, [])
      | none => (run, [])
  | 5 => (st.pendMsixFor p g.queue (bits (g.word node 3) 10 0), [(node, true)])
  | _ => (st, [(node, true)])

/-- Nodes that complete (true) or are skipped (false) in turn: each counts down its successors, a completion makes them live,
and a node whose counter reaches zero starts or is skipped; after a failure no node starts (R354, R355). -/
def State.runGraph (st : State) (p id : Nat) : Nat → List (Nat × Bool) → State
  | 0, _ => st
  | _, [] => st
  | fuel + 1, (node, completed) :: rest =>
    match st.graph p id with
    | none => st
    | some g =>
      if g.done.contains node then st.runGraph p id fuel rest
      else
        let pred := tget 0 g.preds node != 0
        let ts := successors (g.word node 4)
        let fs := successors (g.word node 5)
        let live := if completed = false then [] else if g.kind node = 3 then (if pred then ts else fs) else ts
        let g := { g with
          running := g.running.filter (· != node), done := node :: g.done
          counts := (ts ++ fs).foldl (fun t s => tset 0 t s (tget 0 t s - 1)) g.counts
          live := g.live ++ live }
        let st := st.setGraph p id fun _ => g
        if g.failed.isSome then st.runGraph p id fuel rest
        else
          let waits := (g.waitersOf node).map fun i => (i, true)
          let zero := (nubNat (ts ++ fs)).filter fun s => tget 0 g.counts s == 0
          let skipped := (zero.filter fun s => !g.live.contains s).map fun s => (s, false)
          let r := (zero.filter fun s => g.live.contains s).foldl (fun (r : State × List (Nat × Bool)) s =>
            match r.1.graph p id with
            | some g =>
              let x := r.1.startNode p g s
              (x.1, r.2 ++ x.2)
            | none => r) (st, [])
          r.1.runGraph p id fuel (rest ++ waits ++ skipped ++ r.2)

/-- A graph that has ended writes its completion word, and its queue goes on: a failed one once the nodes that have started have
finished, but for quiescence waits whose launch never starts (R352, R354). -/
def State.closeGraph (st : State) (p id node : Nat) : State :=
  match st.graph p id with
  | none => st
  | some g =>
    let finished := match g.failed with
      | some _ => g.running.all fun i => g.kind i == 4 && !g.running.contains (bits (g.word i 2) 11 0)
      | none => g.done.length == g.nodes.length
    if finished then
      let word := match g.failed with
        | some n => completionWord n 0 4
        | none => completionWord 0 0 0
      match st.writeCompletion p g.queue g.compl word with
      | .code _ st => st.owe (.graphNodeComplete p id node)
      | .wait _ st => st.owe (.graphNodeComplete p id node)
      | .ok _ st =>
        let st := (st.setPkg p fun x => { x with graphs := x.graphs.filter fun y => y.id != id }).entryDone p g.queue (graphEntry id)
        st.wakeQueue p g.queue
    else st

/-- The fuel of a graph's run: each node completes or is skipped once. -/
def Graph.fuel (g : Graph) : Nat := 8 * g.nodes.length + 8

/-- GRAPH_ADMISSION: the head entry of a mapped queue of graph records is taken and validated, and its nodes without a
predecessor start; a record that breaks a rule completes with code 1 (R353). -/
def execGraphAdmission (pkg queue : Nat) (st : State) : Out :=
  if packageLimit ≤ pkg ∨ queueLimit ≤ queue then .fault .noSuchAgent
  else if (st.pkg pkg).mapped.contains queue = false ∨ st.hasWork pkg queue = false ∨ st.queueGraphs pkg queue = false ∨
      st.serWaits pkg queue = true then .next st
  else
    let again : Instr := .graphAdmission pkg queue
    let at_ := st.queueBase pkg queue + 128 * (st.queueHead pkg queue % st.queueSize pkg queue)
    let job := entryJob pkg queue none
    match st.readPhysical pkg job 0 at_ 128 with
    | .code _ st => .next (st.owe again)
    | .wait _ st => .next (st.owe again)
    | .ok bs st =>
      let w (i : Nat) : Nat := fromBytes ((bs.drop (8 * i)).take 8)
      let compl := bits (w 2) 49 0
      let n := bits (w 1) 11 0
      let bad := bits (w 0) 63 50 != 0 || w 0 % 64 != 0 || bits (w 1) 63 12 != 0 || n == 0 || bits (w 2) 63 50 != 0 ||
        (rangeFrom 3 13).any (fun i => w i != 0) || regionOf (st.pkg pkg) (w 0 % 2 ^ 50) == .reserved
      let refuse (st : State) : State :=
        match st.refusePacket pkg queue compl none (if st.complSound pkg compl then some 1 else none) with
        | .ok _ st => st
        | .code _ st => st.owe again
        | .wait _ st => st.owe again
      if bad || !st.complSound pkg compl then .next (refuse st)
      else
        match st.readPhysical pkg job 1 (w 0) (64 * n) with
        | .code _ st => .next (st.owe again)
        | .wait _ st => .next (st.owe again)
        | .ok ns st =>
          let (id, st) := st.fresh
          let g : Graph :=
            { id := id, queue := queue, compl := compl, counts := [], live := []
              nodes := (List.range n).map fun i => wordsOfBytes ((ns.drop (64 * i)).take 64) }
          if g.sound = false then .next (refuse st)
          else
            let npred (i : Nat) : Nat := bits (g.word i 0) 59 48
            let first := (List.range n).filter fun i => npred i == 0
            let g := { g with counts := (List.range n).foldl (fun t i => tset 0 t i (npred i)) [], live := first }
            let st := ((st.endJob job).setPkg pkg fun x => { x with graphs := x.graphs ++ [g] }).entryTaken pkg queue none (some (graphEntry id))
            let r := first.foldl (fun (r : State × List (Nat × Bool)) i =>
              match r.1.graph pkg id with
              | some g =>
                let x := r.1.startNode pkg g i
                (x.1, r.2 ++ x.2)
              | none => r) (st, [])
            .next ((r.1.runGraph pkg id g.fuel r.2).closeGraph pkg id (first.headD 0))

/-- What a piece of a copy node comes to. -/
inductive CopyStep where
  | more (st : State)
  | done (st : State)
  | failed (st : State)

/-- The next piece of a copy node (R290, R354): atomic pieces of the source until a destination line is complete, which is then
written; ranges that overlap, and reserved ones, fail the node. A destination byte that is also a source byte by the other host
port keeps its value or takes the byte read. -/
def State.copyNode (st : State) (p : Nat) (g : Graph) (node : Nat) : CopyStep :=
  let src := bits (g.word node 1) 49 0
  let dst := bits (g.word node 2) 49 0
  let n := bits (g.word node 3) 39 0
  let placed (a : Nat) : Bool := regionOf (st.pkg p) a != .reserved
  let moved := tget 0 g.moved node
  let have' := tget [] g.part node
  let job := nodeJob p g.id node
  if n = 0 ∨ n ≤ moved then if st.piecesLeft job then .more st else .done st
  else if (src < dst + n ∧ dst < src + n) ∨ (placed src && placed (src + n - 1) && placed dst && placed (dst + n - 1)) = false then
    .failed st
  else
    let line := min (n - moved) (64 - (dst + moved) % 64)
    if have'.length < line then
      let a := src + moved + have'.length
      let k := min (line - have'.length) (pieceSize (p * 2 ^ 50 + a) - a % pieceSize (p * 2 ^ 50 + a))
      if placed a = false then .failed st
      else
        let f := p * 2 ^ 50 + a
        match st.engineRead (storageOf f) k (st.viaPcie f) [job] with
        | none => .more (st.snoopFor (storageOf f) k false (st.viaPcie f) [job])
        | some (bs, st) => .more (st.setGraph p g.id fun x => { x with part := tset [] x.part node (have' ++ bs) })
    else
      let from' := storageOf (p * 2 ^ 50 + src)
      let at_ := storageOf (p * 2 ^ 50 + dst + moved)
      let both (a : Nat) : Bool := from' ≤ a && a < from' + n && Config.aliasKeepsRead (st.tick * 2 ^ 64 + a) == false
      let bs := (List.range line).map fun i => if both (at_ + i) then st.homeByte (at_ + i) else have'.getD i 0
      if placed (dst + moved) = false then .failed st
      else
        let f := p * 2 ^ 50 + dst + moved
        let (cls, owner) := st.physicalOwner f
        match st.engineWrite (cellsAt at_ bs) cls owner (st.viaPcie f) [job] with
        | none => .more (st.snoopCells (cellsAt at_ bs) (st.viaPcie f) [job])
        | some st =>
          .more (st.setGraph p g.id fun x => { x with moved := tset 0 x.moved node (moved + line), part := tset [] x.part node [] })

/-- Whether the step that completes a running node is due (R354). -/
def State.nodeDue (st : State) (p : Nat) (g : Graph) (node : Nat) : Bool :=
  match g.kind node with
  | 1 => g.finished.contains node
  | 4 =>
    let lnode := bits (g.word node 2) 11 0
    g.done.contains lnode ||
      match st.launches.find? fun l => l.2.graph == some (g.id, lnode) && l.2.pkg == p with
      | some l => !(l.2.quiet.any fun e => e.1 == 2 ^ 60 + g.id * 4096 + node)
      | none => false
  | _ => true

/-- GRAPH_NODE_COMPLETE: a running node completes, a copy node goes on with its next piece, or a conditional one reads its predicate;
what follows starts, and a graph that has ended writes its completion word (R354, R355). -/
def execGraphNodeComplete (pkg graph node : Nat) (st : State) : Out :=
  if packageLimit ≤ pkg then .fault .noSuchAgent
  else
    match st.graph pkg graph with
    | none => .next st
    | some g =>
      if g.running.contains node = false then .next (st.closeGraph pkg graph node)
      else if st.nodeDue pkg g node = false then .next st
      else
        let finish (st : State) : State := (st.runGraph pkg graph g.fuel [(node, true)]).closeGraph pkg graph node
        if g.kind node = 2 then
          match st.copyNode pkg g node with
          | .more st => .next (st.owe (.graphNodeComplete pkg graph node))
          | .done st => .next (finish st)
          | .failed st => .next (finish (st.setGraph pkg graph fun x => { x with failed := x.failed.orElse fun _ => some node }))
        else if g.kind node = 3 then
          match st.readPredicate pkg g node with
          | (true, st) => .next (finish st)
          | (false, st) => .next (st.owe (.graphNodeComplete pkg graph node))
        else .next (finish st)

/-! ### Interrupts and the watch table -/

/-- MSIX_COALESCE_EXPIRY: at the end of a queue's coalescing window its pending message is sent, behind the writes of completion
words that travel to a port of the package (R94, R356). -/
def execMsixCoalesceExpiry (pkg queue : Nat) (st : State) : Out :=
  if packageLimit ≤ pkg ∨ queueLimit ≤ queue then .fault .noSuchAgent
  else
    match tget? (st.pkg pkg).msixPend queue with
    | none => .next st
    | some t =>
      if st.time < t ∨ (st.net.any fun x => x.kind == .posted && x.home / 8 == pkg) = true then
        .next (st.owe (.msixCoalesceExpiry pkg queue))
      else
        let vec := tget 0 (st.pkg pkg).msixVec queue
        .next ((st.setPkg pkg fun g =>
          { g with msixPend := terase g.msixPend queue, msixVec := tset 0 g.msixVec queue 0 }).sendMsix pkg vec)

/-- WATCH_ENTRY_WRITE: a word of an entry is written, and a write that arms it reads the watched word at once (R357, R358). -/
def execWatchEntryWrite (pkg entry word value : Nat) (st : State) : Out :=
  if packageLimit ≤ pkg ∨ 4096 ≤ entry then .fault .noSuchAgent
  else
    let off := 0x60000 + 16 * entry
    match word with
    | 0 => .next ((st.setReg pkg off (BitVec.ofNat 64 (value / 8 * 8))).testWatch pkg off)
    | 1 => .next (st.setReg pkg (off + 8) (BitVec.ofNat 64 value))
    | _ => .next st

end Sys2Proof.Machine
end

