-- ==== Sys2Proof/Machine/Preempt.lean ====
section
/-!
DEFINITION. Pre-emption of a cluster (R39, R293, R367), the spill of a displaced context (R368), and its resumption in place or
on another cluster (R369, R370).
-/

namespace Sys2Proof.Machine

/-! ### Displacement -/

/-- The ordinary banks of a cluster that a launch holds: those that a pre-emption displaces. -/
def State.displacedBanks (st : State) (c : Nat) : List Nat :=
  ((rangeFrom (16 * c) 16).map fun core => 2 * core).filter fun b => (st.bank b).lkey != 0

/-- A displaced strand stops: its chunks that have not passed their commit point are discarded and it goes back to its checkpoint
(R104, R180, R367), so that a trap whose entry has not come yet is raised anew; a commit token that it holds passes on (log 47). -/
def State.stopStrand (st : State) (k : Nat) : State :=
  let held := (st.die (dieOf k)).token == some k
  let st := if held then st.setDie (dieOf k) fun d => { d with token := none } else st
  match (st.strand k).chunks.reverse.find? fun c => !c.committed with
  | some c =>
    (st.discard k c.id).setStrand k fun t => { t with run := if t.sole.isSome then .token else .running, trap := none }
  | none =>
    if held = true ∨ (st.strand k).run = .trapping then
      st.setStrand k fun t => { t with run := if t.sole.isSome then .token else .running, trap := none }
    else st

/-- The L1 region of a displaced bank is cut to end at 256 KiB (R39): the lines beyond are dropped, and of pinned ones as many stay
as fit below. Which lines lie beyond is not given: no line that is not pinned stays, and those pinned first do (log 129, DESIGN
CHOICE). -/
def State.cutL1 (st : State) (bank : Nat) : State :=
  let b := st.bank bank
  if b.kbL1 ≤ 2 ^ 18 then st
  else
    st.setCore (bank / 2) fun c =>
      let stay := ((c.pins.filter fun p => p.2 == b.lkey).take ((b.l1End - b.kbSpad) / 64)).map fun p => p.1
      { c with
        l1 := c.l1.filter fun x => x.owned || (x.pinned != 0 && (x.pinned != b.lkey || stay.contains x.line))
        pins := c.pins.filter fun p => p.2 != b.lkey || stay.contains p.1 }

/-- A task as it is frozen (R283, R293): one that awaits its assist, or has not started, is saved as it stands, and an executing MMV
between two weight rows is suspended at its cursor. Another executing task runs on, an MMV to the end of its row. -/
def Task.freeze (assists : List Nat) (t : Task) : Option Task :=
  if !t.applied then none
  else if !t.started || assists.contains t.id then some t
  else
    match t.kind with
    | .mmv _ _ _ _ _ _ _ => if t.data.isEmpty then some t.suspended else none
    | _ => none

/-- The copy commands of a cluster that have not started, in the order in which a resumption restores them: waiting, in the shadow
register (R293). -/
def Cluster.copyOrder (c : Cluster) : List Cmd := c.waiting ++ c.shadow.toList

/-- What a displaced launch has on a cluster's array and copy engine is frozen (R293, R367). The active copy command goes on to the
place where it stops. -/
def Cluster.freeze (c : Cluster) (lkey : Nat) : Cluster :=
  let tasks := (c.tasks.filter fun t => t.lkey == lkey).filterMap (Task.freeze c.assists)
  let keep (m : Cmd) : Bool := m.lkey != lkey
  let ids := tasks.map fun t => t.id
  { c with
    frozen := c.frozen ++ [{ lkey := lkey, tasks := tasks, copies := c.copyOrder.filter fun m => m.lkey == lkey && m.applied }]
    tasks := c.tasks.filter fun t => !ids.contains t.id
    assists := c.assists.filter fun i => !ids.contains i
    waiting := c.waiting.filter keep
    shadow := c.shadow.filter keep }

/-- The active copy command of a displaced launch stops at once where it may (R29, R293). -/
def State.stopActive (st : State) (cluster : Nat) : State :=
  match (st.cluster cluster).active with
  | some m => if st.copyStops cluster m then st.nextPiece cluster m else st
  | none => st

/-- Whether a signal of the host queue unit pre-empts a cluster: it is held by launches with PREE alone, nothing is displaced
there already, and it comes for a launch whose shadow banks are there, or for a snapshot by system software (R351, R370). -/
def State.preempts (st : State) (c lkey : Nat) : Bool :=
  let held := st.holdersOfCluster c
  !held.isEmpty && (held.all fun k => (st.launch k).any Launch.pree) && (st.cluster c).frozen.isEmpty &&
    (lkey == 0 || (st.launch lkey).any fun l => l.bank == 1 && l.remap.any fun e => e.2 == c)

/-- PREEMPTION: the displaced launches' strands stop, their leases end, at once or after the tile that executes, while their pending
requests stay, their tasks and copy commands are frozen, and the spill engine begins (R39, R277, R278, R293, R367). -/
def execPreemption (cluster lkey : Nat) (st : State) : Out :=
  if strandLimit ≤ 128 * cluster then .fault .noSuchAgent
  else if st.preempts cluster lkey = false then .next st
  else
    let banks := st.displacedBanks cluster
    let held := st.holdersOfCluster cluster
    let st := st.each banks fun st b => st.setBank b fun x => { x with frozen := true }
    let st := st.each banks fun st b => (st.each (rangeFrom (4 * b) 4) State.stopStrand).cutL1 b
    let st := st.grantToken (dieOfCluster cluster)
    let st := ((st.setCluster cluster fun c => held.foldl Cluster.freeze c).stopActive cluster).endDisplacedLease cluster
    .next (st.oweAll [.leaseGrant cluster, .tileTaskIssue cluster, .copyCommandStart cluster, .spillComplete cluster])

/-! ### Resumption -/

/-- What a resumption restores of a frozen task: a suspended MMV takes its result accumulator up again (R283). -/
def Cluster.thaw (c : Cluster) : Cluster :=
  let tasks := c.frozen.flatMap fun f => f.tasks
  let copies := c.frozen.flatMap fun f => f.copies
  let rest := copies.filter fun m => !m.started
  let suspended := tasks.filter fun t => !t.started && match t.kind with
    | .mmv _ _ _ _ rows _ _ => rows.isEmpty
    | _ => false
  let c := suspended.foldl (fun c t => t.writes.foldl (fun c a => c.setAcc a fun x => { x with st := .ready }) c) c
  { c with
    frozen := []
    tasks := tasks ++ c.tasks
    assists := (tasks.filter fun t => t.started).map (fun t => t.id) ++ c.assists
    active := c.active.orElse fun _ => (copies.find? fun m => m.started)
    waiting := c.waiting ++ rest.take 8
    shadow := if rest.length ≤ 8 then c.shadow else c.shadow.orElse fun _ => rest.getLast? }

/-- The displaced launches of a cluster go on there: what was frozen is restored in its order, and the strands issue again
(R293, R369). -/
def State.thaw (st : State) (cluster : Nat) : State :=
  if (st.cluster cluster).active.isSome ∧ ((st.cluster cluster).frozen.any fun f => f.copies.any fun m => m.started) then
    st.owe (.launchResume cluster cluster)
  else
    let st := st.setCluster cluster Cluster.thaw
    let st := st.each (st.displacedBanks cluster) fun st b => st.setBank b fun x => { x with frozen := false }
    let c := st.cluster cluster
    let st : State := { st with due := st.due.filter fun i => i != .spillComplete cluster }
    let st := st.oweAll
      ([Instr.leaseGrant cluster, .tileTaskIssue cluster, .copyCommandStart cluster] ++
        (c.active.toList.map fun m => Instr.copyCommandComplete cluster m.id) ++
        (if c.assists.isEmpty then [] else [Instr.subnormalAssist cluster]))
    (st.each (rangeFrom (16 * cluster) 16) State.wakeCore).grantToken (dieOfCluster cluster)

/-- Whether no launch holds a shadow bank of a cluster. -/
def State.shadowFree (st : State) (c : Nat) : Bool :=
  (rangeFrom (16 * c) 16).all fun core => (st.bank (2 * core + 1)).lkey == 0

/-- SPILL_COMPLETE: the image of a displaced context is finished (R368); a cluster pre-empted for no launch then resumes in place
(R370). -/
def execSpillComplete (cluster : Nat) (st : State) : Out :=
  if strandLimit ≤ 128 * cluster then .fault .noSuchAgent
  else if (st.cluster cluster).frozen.isEmpty then .next st
  else
    let st := st.setCluster cluster fun c => { c with frozen := c.frozen.map fun f => { f with spilled := true } }
    .next (if st.shadowFree cluster then st.owe (.launchResume cluster cluster) else st)

/-! ### Another cluster -/

/-- The move of a displaced context from a cluster to another. -/
structure Shift where
  old : Nat
  new : Nat
  deriving DecidableEq, Repr

/-- A strand of an ordinary bank after the move. -/
def Shift.strand (m : Shift) (k : Nat) : Nat := if clusterOf k = m.old ∧ bankNo k = 0 then 128 * m.new + k % 128 else k

/-- A core after the move. -/
def Shift.core (m : Shift) (c : Nat) : Nat := if c / 16 = m.old then 16 * m.new + c % 16 else c

/-- A storage address of a displaced context after the move: the lower pool halves, the slots below 64 and the accumulators
below 16 (R274, R368). -/
def Shift.addr (m : Shift) (a : Nat) : Nat :=
  if isPool a then if poolCore a / 16 = m.old ∧ poolOff a < 2 ^ 18 then poolKey (m.core (poolCore a)) (poolOff a) else a
  else if slotBase ≤ a ∧ a < accBase then
    let n := (a - slotBase) / 2 ^ 16
    if n / 128 = m.old ∧ n % 128 < 64 then slotKey m.new (n % 128) ((a - slotBase) % 2 ^ 16) else a
  else if accBase ≤ a then
    let n := (a - accBase) / 2 ^ 14
    if n / 32 = m.old ∧ n % 32 < 16 then accKey m.new (n % 32) ((a - accBase) % 2 ^ 14) else a
  else a

/-- A task after the move. -/
def Shift.task (m : Shift) (t : Task) : Task :=
  { t with
    strand := m.strand t.strand
    kind := match t.kind with
      | .rd dest first count last => .rd (m.addr dest) first count last
      | k => k }

/-- A copy command after the move. -/
def Shift.cmd (m : Shift) (x : Cmd) : Cmd := { x with strand := m.strand x.strand }

/-- Whether something of the displaced strands of a cluster is still under way outside the cluster: a move waits for it
(log 48). So it does for tasks that still execute and copies that have not yet stopped or completed (R293). -/
def State.unsettled (st : State) (m : Shift) (lkeys : List Nat) : Bool :=
  let mine (k : Nat) : Bool := m.strand k != k && lkeys.contains (st.strand k).lkey
  let c := st.cluster m.old
  (c.tasks.any fun t => lkeys.contains t.lkey) || ((c.active.toList ++ c.finishing).any fun x => lkeys.contains x.lkey) ||
  (st.strands.any fun e => mine e.1 && !e.2.chunks.isEmpty) ||
  (st.due.any fun i => match i with
    | .storeAcknowledgement k _ => mine k
    | _ => false) ||
  (st.net.any fun p => mine p.strand || match p.holder with
    | .core c => c / 16 == m.old
    | _ => false) ||
  (st.stcs.any fun x => mine x.strand) ||
  (st.strands.any fun e => mine e.1 && e.2.run == .invp) ||
  ((st.displacedBanks m.old).any fun b => !(st.bank b).winQueue.isEmpty || !(st.bank b).flushes.isEmpty) ||
  (st.cluster m.old).partials.any (fun p => p.reg) ||
  (st.cluster m.old).frozen.any (fun f => f.copies.any fun x => st.pkgs.any fun g => g.2.nvme.any fun r => r.cmd == x.id)

/-- The dirty words of a displaced core's SPAN windows are owned from the new core: their home records it (R71, R370). Its clean
words are filled again. -/
def State.moveWindows (st : State) (m : Shift) (bank : Nat) : State :=
  let spans := (st.bank bank).windows.filter fun w => w.2.cls == 3
  let words := nubNat (spans.flatMap fun w => w.2.dirty.map fun i => w.2.phys (w.2.base + 8 * i) / 8)
  let core := m.core (bank / 2)
  let st := st.each words fun st w =>
    st.setEntry (lineOfWord w) fun e =>
      if e.state (w % 8) = .m then
        (e.dropHolders [w % 8] none).addHolder (homeOf (w * 8)) (st.holderOf (8 * core) (w * 8)) [w % 8]
      else e
  st.setBank bank fun b =>
    { b with windows := b.windows.map fun w =>
        (w.1, { w.2 with users := [], valid := if w.2.cls = 3 then w.2.valid.filter w.2.dirty.contains else w.2.valid }) }

/-- The displaced contexts of a cluster loaded on another (R368 to R370): registers, pools, windows, slots, accumulators, frozen
commands, lease requests and bricks take the new cluster's numbers, and the routers' entries name it. The L1 regions there begin
empty, and copies of PRIV lines on the die are dropped, since a site learns of writes only from now on (R82). The old
cluster's translations go, with the copies of RO lines made through them (R21, R83). -/
def State.shift (st : State) (m : Shift) : State :=
  let lkeys := st.holdersOfCluster m.old
  let banks := st.displacedBanks m.old
  let st := st.each banks fun st b => st.moveWindows m b
  let old := st.cluster m.old
  let low (a : Nat) : Bool := m.addr a != a
  let moved := (st.mem.filter fun c => low c.1).map fun c => (m.addr c.1, c.2)
  let mem := Memory.writeCells (st.mem.filter fun c => !low c.1) moved
  let mineAt (t : Tab Nat) : Tab Nat := t.filter fun e => lkeys.contains (e.1 / 16)
  let counts := (rangeFrom (16 * m.old) 16).map fun c => (c, mineAt (st.core c).sent, mineAt (st.core c).recv)
  let gone (e : TlbEntry) : Bool :=
    lkeys.contains e.lkey && (e.source == sourceCluster m.old || (e.source % 4 == 0 && e.source / 64 == m.old))
  let stays (x : Span) : Bool := !(x.cls == 1 && st.tlb.any fun e => gone e && e.cls == 1 && e.frames (x.line * 64))
  let st : State :=
    { st with
      mem := mem
      cur := m.strand st.cur
      strands := st.strands.foldl (fun t e => tset {} t (m.strand e.1) { e.2 with sole := e.2.sole.map fun x => { x with strand := m.strand x.strand } }) []
      banks := st.banks.foldl (fun t e => tset {} t (m.strand (4 * e.1) / 4) e.2) []
      cmds := st.cmds.map fun e => (e.1, m.cmd e.2)
      tlb := st.tlb.filter fun e => !gone e
      msgs := st.msgs.map fun x => if lkeys.contains x.lkey then { x with dst := x.dst.map m.core, src := m.core x.src } else x
      launches := st.launches.map fun l =>
        if lkeys.contains l.1 then
          (l.1, { l.2 with remap := l.2.remap.map fun e => if e.2 = m.old then (e.1, m.new) else e })
        else l
      pkgs := st.pkgs.map fun g =>
        (g.1, { g.2 with courses := g.2.courses.map fun c => (c.1, { c.2 with lay := c.2.lay.map fun x => (m.strand x.1, x.2) }) }) }
  let st := st.each counts fun st x =>
    let c := (st.core x.1)
    let st := st.setCore x.1 fun _ =>
      { c with
        sent := c.sent.filter fun e => !lkeys.contains (e.1 / 16), recv := c.recv.filter fun e => !lkeys.contains (e.1 / 16)
        l1 := c.l1.filter fun s => !lkeys.contains s.pinned && stays s
        pins := c.pins.filter fun p => !lkeys.contains p.2 }
    st.setCore (m.core x.1) fun y =>
      { y with
        l1 := [], pins := c.pins.filter fun p => lkeys.contains p.2
        sent := x.2.1.foldl (fun t e => tset 0 t e.1 e.2) y.sent, recv := x.2.2.foldl (fun t e => tset 0 t e.1 e.2) y.recv }
  let st := st.setCluster m.old fun c =>
    { c with
      slots := c.slots.filter fun s => 64 ≤ s.1, accs := c.accs.filter fun a => 16 ≤ a.1, frozen := []
      bricks := c.bricks.filter fun q => !lkeys.contains q.lkey
      requests := c.requests.filter fun r => m.strand r.strand == r.strand }
  let st := st.setDie (dieOfCluster m.old) fun d => { d with peer := d.peer.filter stays }
  let st := st.setDie (dieOfCluster m.new) fun d => { d with peer := d.peer.filter fun x => x.cls != 0 }
  let owner (s : Slot) : Slot := { s with owner := s.owner.map m.core }
  st.setCluster m.new fun c =>
    { c with
      slots := (old.slots.filter fun s => s.1 < 64).foldl (fun t s => tset {} t s.1 (owner s.2)) c.slots
      accs := (old.accs.filter fun a => a.1 < 16).foldl (fun t a => tset {} t a.1 a.2) c.accs
      bricks := c.bricks ++ old.bricks.filter fun q => lkeys.contains q.lkey
      requests := c.requests ++ (old.requests.filter fun r => m.strand r.strand != r.strand).map fun r =>
        { r with strand := m.strand r.strand }
      frozen := old.frozen.map fun f => { f with tasks := f.tasks.map m.task, copies := f.copies.map m.cmd } }

/-- LAUNCH_RESUME: the displaced launches of a cluster resume in place once its shadow banks are free, or on another cluster that
is free for their allotment, which takes a finished image (R369, R370). -/
def execLaunchResume (cluster target : Nat) (st : State) : Out :=
  if strandLimit ≤ 128 * cluster ∨ strandLimit ≤ 128 * target then .fault .noSuchAgent
  else if (st.cluster cluster).frozen.isEmpty then .next st
  else if cluster = target then .next (if st.shadowFree cluster then st.thaw cluster else st)
  else
    let ls := (st.holdersOfCluster cluster).filterMap st.launch
    let m : Shift := ⟨cluster, target⟩
    if !((st.cluster cluster).frozen.all fun f => f.spilled) || !(ls.all fun l => st.clusterFree l target) ||
        !st.answers (pkgOfDie (dieOfCluster target)) then .next st
    else if st.unsettled m (ls.map fun l => l.lkey) then .next (st.owe (.launchResume cluster target))
    else .next ((st.shift m).thaw target)

end Sys2Proof.Machine
end

