-- ==== Sys2Proof/Machine/Recovery.lean ====
section
/-!
DEFINITION. The loss of a package (R88, R310, R319, R371, R379), the changes of its second-tier links (R375), its power, ageing
and security (R381 to R383).
-/

namespace Sys2Proof.Machine

/-! ### The loss of a package -/

/-- The destination package of a flit (R376). -/
def flitDst (f : List Byte) : Nat := bits (fromBytes (f.take 2)) 9 0

/-- The package of an agent. -/
def Agent.package (g : Agent) : Nat :=
  match g with
  | .core c => pkgOfDie (dieOfCluster (c / 16))
  | .redbuf c => pkgOfDie (dieOfCluster c)
  | .peer d => pkgOfDie d

/-- The state of a word once the holders of a package are dropped (R88): an owned word, or one whose recall is outstanding, has
its home value; partials that the package held are lost, and a word of which no buffer of another package has a partial is no longer
combined. -/
def DirEntry.stateWithout (e : DirEntry) (p i : Nat) : WState :=
  let left := e.holders.filter fun h => h.mask.contains i && h.agent.package != p
  let due := if e.regs.any fun r => r.2.1 == i && pkgOfDie (dieOfCluster r.1) != p then e.state i else .u
  match e.state i with
  | .m => if (e.owner i).any fun g => g.package == p then .u else .m
  | .tr => if (e.owner i).any fun g => g.package == p then .u else .tr
  | .s => if left.isEmpty then .u else .s
  | .p => due
  | .tc => due
  | .u => .u

/-- Whether a place in the order of arrival at a home is that of a package's host queue unit or translation units (R77). -/
def hquPlace (p : Nat) (key : List Nat) : Bool :=
  match key with
  | [1, q, _] => q == p
  | [k] => hquJob p 0 ≤ k && k < hquJob (p + 1) 0
  | [2, q, _, _] => q == p
  | _ => false

/-- An entry without the holders, gaining chunks, marks, sole holds, course locks and places of a package (R88). -/
def DirEntry.lose (e : DirEntry) (p : Nat) : DirEntry :=
  let ws := (List.range 8).foldl (fun t i => tset .u t i (e.stateWithout p i)) []
  let freed := (List.range 8).filter fun i => (e.state i == .p || e.state i == .tc) && tget WState.u ws i == .u
  { e with
    ws := ws
    holders := e.holders.filter fun h => h.agent.package != p
    tw := e.tw.filter fun t => pkgOf t.2.1 != p
    marks := e.marks.filter fun t => pkgOf t.2.1 != p
    sole := e.sole.filter fun t => pkgOf t.2 != p
    locks := e.locks.filter fun l => l.2 / 256 != p
    owned := e.owned.filter fun o => o.2.package != p
    recalls := e.recalls.filter fun r => tget WState.u ws r.1 == WState.tr
    regs := e.regs.filter fun r => pkgOfDie (dieOfCluster r.1) != p
    places := e.places.filter fun l => !hquPlace p l.1 }.dropHolders freed none

/-- Whether a packet is from, to or for a package. A piece of a write, or a posted one, is at its home already. -/
def Packet.touches (x : Packet) (p : Nat) : Bool :=
  pkgOfDie x.home == p ||
    (x.kind != .piece && x.kind != .posted &&
      (x.sourcePackage == p || (x.strand < strandLimit && x.strand != 0 && pkgOf x.strand == p)))

/-- The replica entries of an expert whose endpoint lies on a package (R319). -/
def State.replicasOn (st : State) (e : Expert) (p : Nat) : List Nat :=
  (List.range 32).filter fun i =>
    e.state i != 0 && (st.launch e.lkey).any fun l => (l.resolve (e.ep i)).package == some p

/-- The replicas of an expert on a lost package become free, their MEMBER and CONTRIB bits are cleared, and where one was set the
closing test is made (R319, R331). -/
def State.loseReplicas (st : State) (p name : Nat) : State :=
  match tget? st.experts name with
  | none => st
  | some e =>
    match st.replicasOn e p with
    | [] => st
    | is =>
      let cleared := is.any fun i => nbit e.member i || nbit e.contrib i
      let st := st.each is fun st i => ((st.dropGrow name i).freeReplica name i).setExpert name fun e =>
        (e.setField 6 (32 + i) (32 + i) 0).setField 6 i i 0
      if cleared then st.closeTest name true else st

/-- The courses that wait for a lost package's acknowledgement go on without it (R310, log 46). -/
def State.loseCourses (st : State) (p : Nat) : State :=
  st.each st.pkgs fun st g =>
    st.each g.2.courses fun st c =>
      if c.2.st = .deciding ∧ c.2.acks.contains p then
        let st := st.setCourse g.1 c.1 fun c => { c with acks := c.acks.filter (· != p) }
        if (st.course g.1 c.1).acks.isEmpty then st.endCourse g.1 c.1 else st
      else st

/-- The messages in flight to a lost package are discarded and counted as received (R300); one that names a brick goes to the
brick's home, and its own step finds that lost. -/
def State.loseMessages (st : State) : State :=
  st.each (st.msgs.filter fun m => m.brick.isNone) fun st m =>
    match (st.launch m.lkey).map fun (l : Launch) => l.resolve m.target with
    | some t => if st.lostTarget t then (st.endJob m.id).receive m else st
    | none => st

/-- The jobs of the engines, directories and host queue unit of a package. -/
def State.jobsOn (st : State) (p : Nat) : List Nat :=
  (st.jobs.filter fun j => hquJob p 0 ≤ j.1 && j.1 < hquJob (p + 1) 0).map (fun j => j.1) ++
  ((st.cmds.filter fun c => pkgOf c.2.strand == p).map fun c => c.1) ++
    ((st.clusters.filter fun c => pkgOf (128 * c.1) == p).flatMap fun c => c.2.tasks.map fun t => t.id) ++
    (st.experts.filter fun e => e.2.pkg == p).flatMap fun e => (List.range 64).map (dirJob e.1)

/-- PACKAGE_DECLARED_DOWN: what the package held is gone, every home drops its holders, courses and messages go on without it, and
flits stored for it are dropped (R88, R300, R310, R319, R371, R379). -/
def execPackageDeclaredDown (pkg : Nat) (st : State) : Out :=
  if packageLimit ≤ pkg then .fault .noSuchAgent
  else if (st.pkg pkg).down then .next st
  else
    let far (k : Nat) : Bool := k != pkg
    let st := st.each (st.jobsOn pkg) State.endJob
    let st : State :=
      { st with
        strands := st.strands.filter fun e => far (pkgOf e.1)
        banks := st.banks.filter fun e => far (pkgOf (4 * e.1))
        cores := st.cores.filter fun e => far (pkgOf (8 * e.1))
        clusters := st.clusters.filter fun e => far (pkgOf (128 * e.1))
        dies := st.dies.filter fun e => far (pkgOfDie e.1)
        dir := st.dir.filterMap fun e =>
          if far (pkgOfAddr (e.1 * 64)) then
            let x := e.2.lose pkg
            if x = {} then none else some (e.1, x)
          else none
        mem := st.mem.filter fun c => poolBase ≤ c.1 || far (pkgOfAddr c.1) || isHost c.1
        net := st.net.filter fun p => !p.touches pkg
        tlb := st.tlb.filter fun e => far (sourcePkg e.source)
        parks := st.parks.filter fun k => far k.pkg
        refused := st.refused.filter fun r => far r.pkg
        cmds := st.cmds.filter fun e => far (pkgOf e.2.strand)
        stcs := st.stcs.filter fun m => far m.src && far (pkgOfAddr m.addr)
        experts := st.experts.filter fun e => far e.2.pkg
        pkgs := (st.pkgs.map fun g =>
          (g.1, { g.2 with
            e2e := g.2.e2e.filterMap fun (e : Nat × E2e) =>
              if far (e.1 / 16) then some e else (if ({ e.2 with store := [] } : E2e) = {} then none else some (e.1, { e.2 with store := [] }))
            unsent := g.2.unsent.filter fun f => far (flitDst f)
            staging := g.2.staging.filter fun s => far s.src })) }
    let st := st.setPkg pkg fun _ => { down := true }
    let st := st.loseMessages.loseCourses pkg
    .next (st.each st.experts fun st e => st.loseReplicas pkg e.1)

/-! ### Second-tier links -/

/-- Whether a line lies in the range of a second-tier port of a package (R9). -/
def inTier (pkg port line : Nat) : Bool :=
  let l := localOf (line * 64)
  pkgOfAddr (line * 64) == pkg && 0x1000000000000 + port * 2 ^ 44 ≤ l && l < 0x1000000000000 + (port + 1) * 2 ^ 44

/-- SECOND_TIER_LINK_DOWN: the port's whole range becomes reserved; accesses of cores that were admitted to it are machine checks
(R375). Engines find the range reserved when they make their accesses. -/
def execSecondTierLinkDown (pkg port : Nat) (st : State) : Out :=
  if packageLimit ≤ pkg ∨ 6 ≤ port then .fault .noSuchAgent
  else
    let st := st.setPkg pkg fun g => { g with tiers := terase g.tiers port }
    let hit := st.net.filter fun p => inTier pkg port p.line && (p.kind == .read || p.kind == .own) && p.strand < strandLimit
    .next (st.each hit fun st p => if (st.packet p.id).isSome then st.loseAccess p else st)

/-- SECOND_TIER_LINK_UP: the capacity of the expander appears in the port's range from its base (R375). -/
def execSecondTierLinkUp (pkg port capacity : Nat) (st : State) : Out :=
  if packageLimit ≤ pkg ∨ 6 ≤ port then .fault .noSuchAgent
  else .next (st.setPkg pkg fun g => { g with tiers := tset 0 g.tiers port (min capacity (2 ^ 44)) })

/-! ### Power and ageing -/

/-- POWER_EPOCH: a budget written in the last epoch takes effect, and the largest issue gap is reported (R382). -/
def execPowerEpoch (pkg : Nat) (st : State) : Out :=
  if packageLimit ≤ pkg then .fault .noSuchAgent
  else .next (st.setPkg pkg fun g => { g with budget := g.nextBudget, gap := Config.issueGap st.tick % 256 })

/-- AGEING_REFRESH: the predicted end of life of each of the ten dies, saturating at 16 bits (R383). -/
def execAgeingRefresh (pkg : Nat) (months : List Nat) (st : State) : Out :=
  if packageLimit ≤ pkg then .fault .noSuchAgent
  else
    .next (st.setPkg pkg fun g =>
      { g with eol := (List.range 10).foldl (fun t d => tset 0 t d (min (months.getD d (tget 0 g.eol d)) 65535)) g.eol })

/-! ### Security -/

/-- A measurement, which starts at zero (R381). -/
def Pkg.measure (g : Pkg) (i : Nat) : List Byte := tget (List.replicate 64 0) g.measures i

/-- FIRMWARE_VERIFY: an image whose signature over its digest verifies is measured and runs; another is not run (R381). -/
def execFirmwareVerify (pkg : Nat) (image signature : List Byte) (st : State) : Out :=
  if packageLimit ≤ pkg then .fault .noSuchAgent
  else
    let digest := shake256 image
    if Config.signatureValid digest signature = false then .next st
    else
      let i := Config.measureOf image % Config.measureCount
      .next (st.setPkg pkg fun g =>
        { g with measures := tput g.measures i (shake256 (g.measure i ++ digest)), booted := g.booted ++ [digest] })

/-- The bytes that the device identity key signs. -/
def reportBytes (nonce : List Byte) (measures : List (List Byte)) (level : Nat) : List Byte :=
  nonce ++ measures.flatMap id ++ toBytes 1 level

/-- Every measurement of a package, those that no image has extended among them (R381). -/
def Pkg.measurements (g : Pkg) : List (List Byte) := (List.range Config.measureCount).map g.measure

/-- ATTESTATION_REQUEST: a report with the requester's 32-byte nonce, every measurement and the service level, signed with the
device identity key (R381). -/
def execAttestationRequest (pkg : Nat) (nonce : List Byte) (st : State) : Out :=
  if packageLimit ≤ pkg then .fault .noSuchAgent
  else if nonce.length ≠ 32 then .next st
  else
    .next (st.setPkg pkg fun g =>
      { g with report := some { nonce := nonce, measures := g.measurements, level := g.level,
                                signature := Config.attestationSignature (reportBytes nonce g.measurements g.level) } })

end Sys2Proof.Machine
end

