-- ==== Sys2Proof/Machine/Fabric.lean ====
section
/-!
DEFINITION. The registers of the host function (R374), Gixis links and their flits (R376 to R378), end-to-end delivery (R379),
the Ethernet tunnel (R380) and bring-up (R384). Memory traffic and messages between packages are the packets and messages of State; the flits of
this file carry what the spec lays out of a flit, and their payload has no meaning here (log 49).
-/

namespace Sys2Proof.Machine

/-! ### Registers -/

/-- The registers of the host function that have no behaviour of their own: the mask of the RW fields of each, 0 for every other
offset (R23, R33, R346, R374). -/
def rwMask (off : Nat) : Nat :=
  if off < 0x40000 then if off % 16 = 0 then 2 ^ 50 - 2 ^ 7 else 2 ^ 61 - 2 ^ 24
  else if 0x80000 ≤ off ∧ off < 0x80000 + 10 * 0x1000 then
    let r := off % 0x1000
    if r = 0x40 then 1 + (2 ^ 48 - 2 ^ 16)
    else if r = 0x48 ∨ r = 0x50 then 2 ^ 32 - 1
    else if r = 0x78 then 2 ^ 30 - 1
    else if r = 0xF0 then 2 ^ 50 - 2 ^ 3
    else if 0x90 ≤ r ∧ r < 0xF0 then if r % 16 = 0 then 2 ^ 50 - 2 ^ 3 else 2 ^ 32 - 1
    else 0
  else if 0x100000 ≤ off ∧ off < 0x120000 then 2 ^ 64 - 1
  else 0

/-- A register's word with `size` of its bytes from `off` on replaced. -/
def patched (old off size value : Nat) : Nat :=
  let lo := off % 8 * 8
  let w := size * 8
  old - old / 2 ^ lo % 2 ^ w * 2 ^ lo + value % 2 ^ w * 2 ^ lo

/-- The fields of a mask taken from one word, the rest from another. -/
def maskedWord (mask old new : Nat) : Nat := (old &&& (2 ^ 64 - 1 - mask)) ||| (new &&& mask)

/-- What follows the write of a register: a queue that has work may be mapped (R347), and a unit's thresholds may make blocks
candidates (R33). -/
def State.registerWritten (st : State) (pkg off : Nat) : State :=
  if off < 0x40000 then st.wakeQueue pkg (off / 16)
  else
    let r := off % 0x1000
    if 0x80000 ≤ off ∧ off < 0x90000 ∧ (r = 0x40 ∨ r = 0x48 ∨ r = 0x50) then st.scanCandidates pkg (off / 0x1000 - 0x80) else st

/-- REGISTER_WRITE: an aligned write of 1, 2, 4 or 8 bytes to a register with no behaviour of its own changes its RW fields; a
budget outside 1,000 to 3,400 is ignored, and one inside takes effect at the next epoch (R374, R382). -/
def execRegisterWrite (pkg offset size value : Nat) (st : State) : Out :=
  if packageLimit ≤ pkg then .fault .noSuchAgent
  else if ¬ (size = 1 ∨ size = 2 ∨ size = 4 ∨ size = 8) ∨ offset % size ≠ 0 then .next st
  else
    let off := offset / 8 * 8
    if off = statusAt then
      let b := bits (patched ((st.pkg pkg).nextBudget * 2 ^ 32) offset size value) 47 32
      .next (if 1000 ≤ b ∧ b ≤ 3400 then st.setPkg pkg fun g => { g with nextBudget := b } else st)
    else if rwMask off = 0 then .next st
    else
      let old := (st.stored pkg off).toNat
      .next ((st.setReg pkg off (BitVec.ofNat 64 (maskedWord (rwMask off) old (patched old offset size value)))).registerWritten
        pkg off)

/-! ### Flits -/

/-- The Gixis ports of a package. -/
def gixisPorts : Nat := 32

/-- The source package of a flit (R376). -/
def flitSrc (f : List Byte) : Nat := bits (fromBytes ((f.drop 2).take 2)) 9 0

/-- The virtual channel of a flit (R376). -/
def flitVc (f : List Byte) : Nat := bits (fromBytes ((f.drop 4).take 1)) 3 0

/-- The kind of a flit (R376). -/
def flitKind (f : List Byte) : Nat := bits (fromBytes ((f.drop 4).take 1)) 7 4

/-- The payload of a flit (R376). -/
def flitPayload (f : List Byte) : List Byte := (f.drop 12).take 232

/-- The end-to-end sequence number of a flit (R376, R379). -/
def flitNumber (f : List Byte) : Nat := fromBytes ((f.drop 8).take 4)

/-- The sequence number of a flit on its link (R376). -/
def flitSeq (f : List Byte) : Nat := fromBytes ((f.drop 244).take 2)

/-- The acknowledged sequence number of a flit (R376). -/
def flitAck (f : List Byte) : Nat := fromBytes ((f.drop 246).take 2)

/-- Whether a flit has its 256 bytes and its CRC-64 over bytes 0 to 247 (R376). -/
def flitSound (f : List Byte) : Bool :=
  f.length == 256 && fromBytes (f.drop 248) == (Config.crc64 (f.take 248)).toNat

/-- A flit with the sequence numbers of a link and its CRC (R376). -/
def relinked (f : List Byte) (seq ack : Nat) : List Byte :=
  let body := f.take 244 ++ toBytes 2 seq ++ toBytes 2 ack
  body ++ toBytes 8 (Config.crc64 body).toNat

/-- A flit with the source package and end-to-end number of the package that originates it (R379). -/
def originated (f : List Byte) (src n : Nat) : List Byte :=
  f.take 2 ++ toBytes 2 src ++ (f.drop 4).take 4 ++ toBytes 4 n ++ f.drop 12

/-- Whether number `a` comes before number `b` in a count modulo `m`. -/
def serialBefore (m a b : Nat) : Bool := a % m != b % m && (b % m + m - a % m) % m < m / 2

/-- A port of a package. -/
def Pkg.link (g : Pkg) (i : Nat) : Link := tget {} g.links i

/-- The state with a port changed. -/
def State.setLink (st : State) (p i : Nat) (f : Link → Link) : State :=
  st.setPkg p fun g => { g with links := tset {} g.links i (f (g.link i)) }

/-- The port by which a package sends its next flit: one whose link is not declared down and whose replay buffer of 4,096 flits
has room (R377). Before the ports are trained there is none (R384). -/
def State.pickPort (st : State) (p : Nat) : Option Nat :=
  let open' := (List.range gixisPorts).filter fun i =>
    (st.pkg p).trained && ((st.pkg p).link i).up && ((st.pkg p).link i).replay.length < 4096
  open'[Config.routePort st.tick % open'.length]?

/-- A flit sent by a port: it is kept in the replay buffer, and held there while the ends of the link disagree (R377, R378). -/
def State.sendBy (st : State) (p i : Nat) (f : List Byte) : State :=
  st.setLink p i fun l =>
    let f := relinked f l.next ((l.expect + 2 ^ 16 - 1) % 2 ^ 16)
    { l with
      next := (l.next + 1) % 2 ^ 16, replay := l.replay ++ [(l.next, f)]
      out := if l.training then l.out else l.out ++ [f] }

/-- A flit sent by some port. While none has room, or flits before it wait for that, it waits its turn (R377, R379). -/
def State.sendFlit (st : State) (p : Nat) (f : List Byte) : State :=
  match st.pickPort p, (st.pkg p).unsent with
  | some i, [] => st.sendBy p i f
  | _, _ => st.setPkg p fun g => { g with unsent := g.unsent ++ [f] }

/-- The flits of a package that wait for room at a port are sent, in order, as far as there is room. -/
def State.sendUnsent (st : State) (p : Nat) : State :=
  (List.range (st.pkg p).unsent.length).foldl (fun st _ =>
    match st.pickPort p, (st.pkg p).unsent with
    | some i, f :: fs => (st.setPkg p fun g => { g with unsent := fs }).sendBy p i f
    | _, _ => st) st

/-! ### End-to-end delivery -/

/-- The record of a package toward and from another on a virtual channel. -/
def Pkg.peer (g : Pkg) (other vc : Nat) : E2e := tget {} g.e2e (other * 16 + vc)

/-- The state with such a record changed. -/
def State.setPeer (st : State) (p other vc : Nat) (f : E2e → E2e) : State :=
  st.setPkg p fun g => { g with e2e := tset {} g.e2e (other * 16 + vc) (f (g.peer other vc)) }

/-- Whether a package's end-to-end store of 65,536 flits has room for some more (R379). -/
def Pkg.storeRoom (g : Pkg) (n : Nat) : Bool := g.e2e.foldl (fun k e => k + e.2.store.length) 0 + n ≤ 65536

/-- A flit that a package originates: it is numbered, kept until it is acknowledged, and sent (R379). -/
def State.originate (st : State) (p : Nat) (f : List Byte) : State :=
  let dst := flitDst f
  let vc := flitVc f
  let n := ((st.pkg p).peer dst vc).next
  let f := originated f p n
  (st.setPeer p dst vc fun e => { e with next := (n + 1) % 2 ^ 32, store := e.store ++ [(n, f)] }).sendFlit p f

/-- A flit with which a destination answers a source on a virtual channel (R376, R379). Its kind and the form of its payload are
free; it has no end-to-end number and is not stored (log 131, DESIGN CHOICE). -/
def controlFlit (p src vc code : Nat) : List Byte :=
  exactly 256 (toBytes 2 src ++ toBytes 2 p ++ toBytes 1 (Config.controlKind % 16 * 16 + vc % 16) ++ List.replicate 7 0 ++
    exactly 232 (Config.controlPayload code))

/-- The acknowledgement of the highest number accepted in order from a source on a virtual channel goes out as a flit (R379). -/
def State.acknowledge (st : State) (p src vc : Nat) : State :=
  let n := (((st.pkg p).peer src vc).expect + 2 ^ 32 - 1) % 2 ^ 32
  (st.setPeer p src vc fun e => { e with unacked := 0 }).sendFlit p (controlFlit p src vc (2 * n))

/-- The step that such a flit stands for at the source: the acknowledgement of a stored number, or the request for one. A number
that is stored no more has been acknowledged. -/
def State.controlStep (st : State) (p : Nat) (f : List Byte) : Option Instr :=
  let dst := flitSrc f
  let vc := flitVc f
  let is (code : Nat) : Bool := flitPayload f == exactly 232 (Config.controlPayload code)
  let ns := ((st.pkg p).peer dst vc).store.map fun x => x.1
  match ns.find? fun n => is (2 * n), ns.find? fun n => is (2 * n + 1) with
  | some n, _ => some (.e2eAckArrival p dst vc n)
  | none, some n => some (.e2eResendRequest p dst vc n)
  | none, none => none

/-- A flit accepted at its destination is delivered there, and one that is for another domain goes on through the tunnel (R379). -/
def State.flitArrived (st : State) (p : Nat) (f : List Byte) : State :=
  match Config.flitDomain f with
  | some d =>
    if d % 64 = Config.ownDomain % 64 then st.setPkg p fun g => { g with arrived := g.arrived ++ [f] }
    else st.toDomain p (d % 64) { bytes := f, flit := true }
  | none => st.setPkg p fun g => { g with arrived := g.arrived ++ [f] }

/-- A flit at its destination: it is accepted if its number is the next one; a lower one is a duplicate, and a higher one makes
the destination ask for the first missing number (R379). An answer of another destination is taken as its step. -/
def State.deliverFlit (st : State) (p : Nat) (f : List Byte) : State :=
  if flitKind f = Config.controlKind % 16 then
    match st.controlStep p f with
    | some i => st.owe i
    | none => st
  else
  let src := flitSrc f
  let vc := flitVc f
  let e := (st.pkg p).peer src vc
  let n := flitNumber f
  if n = e.expect then
    let st := (st.setPeer p src vc fun e => { e with expect := (n + 1) % 2 ^ 32, unacked := e.unacked + 1 }).flitArrived p f
    if 256 ≤ e.unacked + 1 then st.acknowledge p src vc else st
  else if serialBefore (2 ^ 32) n e.expect then st
  else st.sendFlit p (controlFlit p src vc (2 * e.expect + 1))

/-- E2E_ACK_ARRIVAL: the source frees the flits up to the acknowledged number (R379). -/
def execE2eAckArrival (pkg dst vc seq : Nat) (st : State) : Out :=
  if packageLimit ≤ pkg ∨ packageLimit ≤ dst ∨ 16 ≤ vc then .fault .noSuchAgent
  else .next (st.setPeer pkg dst vc fun e => { e with store := e.store.filter fun x => serialBefore (2 ^ 32) seq x.1 })

/-- E2E_ACK_TIMER: every 4 µs a destination acknowledges what it has accepted and not yet acknowledged (R379). -/
def execE2eAckTimer (pkg : Nat) (st : State) : Out :=
  if packageLimit ≤ pkg then .fault .noSuchAgent
  else .next (st.each ((st.pkg pkg).e2e.filter fun e => e.2.unacked != 0) fun st e => st.acknowledge pkg (e.1 / 16) (e.1 % 16))

/-- E2E_RESEND_REQUEST: the source sends its stored flits again from the first missing number on, oldest first (R379). -/
def execE2eResendRequest (pkg dst vc seq : Nat) (st : State) : Out :=
  if packageLimit ≤ pkg ∨ packageLimit ≤ dst ∨ 16 ≤ vc then .fault .noSuchAgent
  else
    let again := ((st.pkg pkg).peer dst vc).store.filter fun x => !serialBefore (2 ^ 32) x.1 seq
    .next (st.each again fun st x => st.sendFlit pkg x.2)

/-! ### Links -/

/-- A flit that a link has accepted: it is delivered at its destination, and sent on elsewhere with its end-to-end number
unchanged (R379). -/
def State.takeFlit (st : State) (p : Nat) (f : List Byte) : State :=
  if flitDst f = p then st.deliverFlit p f else st.sendFlit p f

/-- GIXIS_FLIT_RECEIVE: a flit with a CRC error, and every later one, is discarded until the replay that the receiver asks for; a
flit already accepted is discarded; the acknowledged number frees the replay buffer, which takes the flits that wait for room (R377).
A flit that is to be sent on while no port has room is asked for again. Ports that are not trained carry nothing (R384). -/
def execGixisFlitReceive (pkg port : Nat) (flit : List Byte) (st : State) : Out :=
  if packageLimit ≤ pkg ∨ gixisPorts ≤ port then .fault .noSuchAgent
  else
    let l := (st.pkg pkg).link port
    if (st.pkg pkg).trained = false ∨ l.up = false ∨ l.training = true then .next st
    else if flitSound flit = false then .next (st.setLink pkg port fun l => { l with nak := true })
    else
      let st := (st.setLink pkg port fun l =>
        { l with replay := l.replay.filter fun x => serialBefore (2 ^ 16) (flitAck flit) x.1 }).sendUnsent pkg
      if flitSeq flit = l.expect then
        if flitDst flit ≠ pkg ∧ (st.pickPort pkg).isNone = true then .next (st.setLink pkg port fun l => { l with nak := true })
        else
          .next ((st.setLink pkg port fun l => { l with expect := (l.expect + 1) % 2 ^ 16, nak := false }).takeFlit pkg flit)
      else if serialBefore (2 ^ 16) (flitSeq flit) l.expect then .next st
      else .next (st.setLink pkg port fun l => { l with nak := true })

/-- The stored flits of a port from a sequence number on are put on the wire unchanged (R377). -/
def State.replay (st : State) (p i seq : Nat) : State :=
  st.setLink p i fun l => { l with out := l.out ++ (l.replay.filter fun x => !serialBefore (2 ^ 16) x.1 seq).map fun x => x.2 }

/-- GIXIS_REPLAY_REQUEST (R377): a link that is down or whose ends disagree carries nothing. -/
def execGixisReplayRequest (pkg port seq : Nat) (st : State) : Out :=
  if packageLimit ≤ pkg ∨ gixisPorts ≤ port then .fault .noSuchAgent
  else if (st.pkg pkg).trained ∧ ((st.pkg pkg).link port).up ∧ ((st.pkg pkg).link port).training = false then
    .next (st.replay pkg port seq)
  else .next st

/-- A link is declared down: every source sends again, over its new routes, what is stored and not acknowledged, oldest first
(R378, R379); a package whose links are all down is declared down (R371). -/
def State.linkDown (st : State) (p i : Nat) : State :=
  let st := st.setLink p i fun l => { l with up := false, training := false, replay := [] }
  let st := st.each st.pkgs fun st g =>
    st.each (g.2.e2e.flatMap fun e => e.2.store) fun st x => st.sendFlit g.1 x.2
  if (List.range gixisPorts).all fun j => !((st.pkg p).link j).up then st.owe (.packageDeclaredDown p) else st

/-- An attempt to retrain has failed: after the third the link is declared down (R378). -/
def State.retrainFailed (st : State) (p i : Nat) : State :=
  if 3 ≤ ((st.pkg p).link i).retrains + 1 then st.linkDown p i
  else st.setLink p i fun l => { l with retrains := l.retrains + 1 }

/-- LINK_RETRAIN: the ends compare their views of width, lane map and speed; a link whose ends agree enters service, and its held
flits go out; one whose ends differ enters the disagree state, and is declared down when they still differ after three
attempts (R378). -/
def execLinkRetrain (pkg port width lanes speed peerWidth peerLanes peerSpeed : Nat) (st : State) : Out :=
  if packageLimit ≤ pkg ∨ gixisPorts ≤ port then .fault .noSuchAgent
  else
    let l := (st.pkg pkg).link port
    if (st.pkg pkg).trained = false ∨ l.up = false then .next st
    else if width = peerWidth ∧ lanes = peerLanes ∧ speed = peerSpeed then
      let st := st.setLink pkg port fun l => { l with training := false, width := width, retrains := 0 }
      .next (match l.replay with
        | [] => st
        | x :: _ => if l.training then st.replay pkg port x.1 else st)
    else if l.training then .next (st.retrainFailed pkg port)
    else .next (st.setLink pkg port fun l => { l with training := true, retrains := 0 })

/-- LINK_RETRAIN_TIMEOUT: an attempt to retrain has not ended within 5 ms (R378). -/
def execLinkRetrainTimeout (pkg port : Nat) (st : State) : Out :=
  if packageLimit ≤ pkg ∨ gixisPorts ≤ port then .fault .noSuchAgent
  else if (st.pkg pkg).trained ∧ ((st.pkg pkg).link port).up ∧ ((st.pkg pkg).link port).training then
    .next (st.retrainFailed pkg port)
  else .next st

/-! ### The tunnel -/

/-- The datagrams that another domain has acknowledged leave the store, and their messages count as received (R150, R380). -/
def State.tunnelAcked (st : State) (p d : Nat) (seqs : List Nat) : State :=
  let gone := (st.tunnel p d).store.filter fun x => seqs.contains x.seq
  let st := st.setTunnel p d fun t => { t with store := t.store.filter fun x => !seqs.contains x.seq }
  st.each gone fun st x =>
    match x.count with
    | some (lkey, q) => st.countRecv (st.countCore lkey) lkey q
    | none => st

/-- The flits of a datagram after its 16-byte header (R380). -/
def datagramFlits (bs : List Byte) (n : Nat) : List (List Byte) :=
  (List.range n).map fun i => (bs.drop (16 + 256 * i)).take 256

/-- A flit that a datagram brought (R379, R380): a part of an item waits for the rest, an item goes to its agent (R322, R329), and the
entry gateway is the source in this domain of a flit for a package. -/
def State.takeTunnelFlit (st : State) (p port d : Nat) (f : List Byte) : State :=
  let whole := (st.tunnel p d).parts ++ f
  if Config.tunnelPart f then st.setTunnel p d fun t => { t with parts := whole }
  else
    let st := st.setTunnel p d fun t => { t with parts := [] }
    match Config.tunnelItem whole with
    | some x => st.takeItem p (port / 4) d x.1 x.2
    | none => if flitDst f = p then st.flitArrived p f else st.originate p f

/-- TUNNEL_DATAGRAM_RECEIVE: a datagram that is the next of its domain is accepted and acknowledged, and its flits are taken; a
duplicate is acknowledged again and discarded, and another is discarded (R379, R380). While the end-to-end store has no room the
datagram is not accepted. -/
def execTunnelDatagramReceive (pkg port : Nat) (datagram : List Byte) (st : State) : Out :=
  if packageLimit ≤ pkg ∨ 8 ≤ port then .fault .noSuchAgent
  else if (st.pkg pkg).trained = false then .next st
  else
    let h := Config.tunnelHeader (datagram.take 16)
    let d := h.1 % 64
    if h.2.1 ≠ Config.ownDomain then .next st
    else
      let st := st.tunnelAcked pkg d (Config.tunnelAcks datagram)
      let n := h.2.2.2
      let seq := h.2.2.1 % 2 ^ 32
      let acked (st : State) : State := st.setTunnel pkg d fun t => { t with acks := t.acks ++ [seq] }
      if n = 0 ∨ 8 < n ∨ datagram.length ≠ 16 + 256 * n then .next st
      else if serialBefore (2 ^ 32) seq (st.tunnel pkg d).expect then .next (acked st)
      else if seq ≠ (st.tunnel pkg d).expect ∨ (st.pkg pkg).storeRoom n = false then .next st
      else
        let st := acked (st.setTunnel pkg d fun t => { t with expect := (t.expect + 1) % 2 ^ 32 })
        .next (st.each (datagramFlits datagram n) fun st f => st.takeTunnelFlit pkg port d f)

/-- TUNNEL_RETRANSMIT_TIMEOUT: a datagram that has not been acknowledged within 100 µs is sent again unchanged (R380). -/
def execTunnelRetransmitTimeout (pkg domain seq : Nat) (st : State) : Out :=
  if packageLimit ≤ pkg ∨ 64 ≤ domain then .fault .noSuchAgent
  else if (st.pkg pkg).trained = false then .next st
  else
    match (st.tunnel pkg domain).store.find? fun x => x.seq == seq with
    | some x => .next (st.setTunnel pkg domain fun t => { t with out := t.out ++ [x] })
    | none => .next st

/-- TUNNEL_ROUTE_ENTRY_WRITE: a word of a route entry is written, and once the entry is valid the traffic held for its domain goes
out in order (R380). -/
def execTunnelRouteEntryWrite (pkg domain word value : Nat) (st : State) : Out :=
  if packageLimit ≤ pkg ∨ 64 ≤ domain then .fault .noSuchAgent
  else if 8 ≤ word then .next st
  else
    .next ((st.setReg pkg (0x120000 + 64 * domain + 8 * word) (BitVec.ofNat 64 value)).releaseHeld pkg domain)

/-! ### Bring-up -/

/-- What system firmware sets at bring-up for every package alike (R361): the trap area, a 64-byte aligned range below the aperture,
and the trap entry PC. Both are free values (log 134, DESIGN CHOICE). -/
def State.setTrapPlaces (st : State) : State :=
  { st with
    trapArea := Config.trapArea % (0xFF * 2 ^ 48 - 2 ^ 24) / 64 * 64
    trapPc := BitVec.ofNat 64 (Config.trapPc % (0xFF * 2 ^ 48) / 64 * 64 + Config.trapPc % 5) }

/-- A host port trains: as CXL where the host offers it, else as PCIe (R372). -/
def State.trainHostPort (st : State) (p port : Nat) : State :=
  st.setPkg p fun g =>
    { g with pcieOnly := g.pcieOnly.filter (· != port) ++ (if Config.hostOffersCxl st.tick port then [] else [port]) }

/-- The Gixis and Ethernet ports of a package are trained: what waits for them goes out. -/
def State.portsTrained (st : State) (p : Nat) : State :=
  let st := st.sendUnsent p
  st.each (st.pkgs.flatMap fun g => g.2.tunnels.map fun t => (g.1, t.1)) fun st x => st.releaseHeld x.1 x.2

/-- A level reached (R384): at level 1 the first host port trains and firmware sets the trap places (log 134), at level 2 the other
host port trains, and at level 3 the Gixis and Ethernet ports are trained and the domain's time base is set, unless a package of the
domain has set it (R218). -/
def State.levelReached (st : State) (p level : Nat) : State :=
  match level with
  | 1 => (st.trainHostPort p 0).setTrapPlaces
  | 2 => st.trainHostPort p 1
  | _ =>
    let first := st.pkgs.all fun g => g.1 == p || g.2.level != 3
    let st := st.portsTrained p
    if first then { st with time := 0 } else st

/-- BRING_UP_LEVEL: the package reaches the next service level if its self-test passes; otherwise it keeps the level it has, and the
security processor reports the failure. A spare takes the logical number of a package that was declared down (R371, R384). -/
def execBringUpLevel (pkg : Nat) (selfTest : Bool) (st : State) : Out :=
  if packageLimit ≤ pkg then .fault .noSuchAgent
  else
    let old := (st.pkg pkg).level
    if selfTest = false then .next (if 3 ≤ old then st else st.reportSecurity pkg (.selfTest (old + 1)))
    else
      let st := st.setPkg pkg fun g => { g with level := min 3 (old + 1), down := false }
      .next (if 3 ≤ old then st else st.levelReached pkg (old + 1))

end Sys2Proof.Machine
end

