-- ==== Sys2Proof/Machine/Scalar.lean ====
section
/-!
DEFINITION. The scalar integer instructions (R194 to R201) and the scalar floating-point instructions (R202 to R207).
-/

namespace Sys2Proof.Machine

/-- The common form of the scalar integer instructions (R194): both operands are read, then s[DST] is written. -/
def State.intOp (st : State) (o : Ops) (f : Word → Word → Word) : Out :=
  st.scalar o.g { regs := intRegs o } fun st => (st.writeS o.dst (f (st.s o.sa) (st.operandB o))).finish

/-- The common form of the unary integer instructions (R194). -/
def State.intUnary (st : State) (o : Ops) (f : Word → Word) : Out :=
  st.scalar o.g { regs := [regS o.dst.toNat, regS o.sa.toNat] } fun st => (st.writeS o.dst (f (st.s o.sa))).finish

/-- The common form of FADD to FMAX (R202, R203): operands from the low bits, the result zero-extended (R174). -/
def State.fpOp (st : State) (o : Ops) (f : Nat → Nat → Nat) : Out :=
  st.scalar o.g { regs := [regF o.dst.toNat, regF o.sa.toNat, regF o.sb.toNat] } fun st =>
    (st.writeF o.dst (BitVec.ofNat 64 (f (st.fOperand o.fType o.sa) (st.fOperand o.fType o.sb)))).finish

/-- ADD (R195). -/
def execAdd (o : Ops) (st : State) : Out := st.intOp o fun a b => a + b

/-- SUB (R195). -/
def execSub (o : Ops) (st : State) : Out := st.intOp o fun a b => a - b

/-- MUL (R195). -/
def execMul (o : Ops) (st : State) : Out := st.intOp o fun a b => a * b

/-- MULH (R195). -/
def execMulh (o : Ops) (st : State) : Out := st.intOp o fun a b => mulHigh o.xFlag a b

/-- DIV (R195, R196). -/
def execDiv (o : Ops) (st : State) : Out := st.intOp o fun a b => quotient o.xFlag a b

/-- REM (R195, R196). -/
def execRem (o : Ops) (st : State) : Out := st.intOp o fun a b => remainder o.xFlag a b

/-- AND (R195). -/
def execAnd (o : Ops) (st : State) : Out := st.intOp o fun a b => a &&& b

/-- OR (R195). -/
def execOr (o : Ops) (st : State) : Out := st.intOp o fun a b => a ||| b

/-- XOR (R195). -/
def execXor (o : Ops) (st : State) : Out := st.intOp o fun a b => a ^^^ b

/-- ANDN (R195). -/
def execAndn (o : Ops) (st : State) : Out := st.intOp o fun a b => a &&& ~~~b

/-- SHL (R195). -/
def execShl (o : Ops) (st : State) : Out := st.intOp o fun a b => a <<< shiftCount b

/-- SHR (R195). -/
def execShr (o : Ops) (st : State) : Out := st.intOp o fun a b => a >>> shiftCount b

/-- SRA (R195). -/
def execSra (o : Ops) (st : State) : Out := st.intOp o fun a b => a.sshiftRight (shiftCount b)

/-- ROT (R195). -/
def execRot (o : Ops) (st : State) : Out := st.intOp o fun a b => rotateLeft a (shiftCount b)

/-- CLZ (R195). -/
def execClz (o : Ops) (st : State) : Out := st.intUnary o fun a => BitVec.ofNat 64 (leadingZeros a)

/-- CTZ (R195). -/
def execCtz (o : Ops) (st : State) : Out := st.intUnary o fun a => BitVec.ofNat 64 (trailingZeros a)

/-- POPC (R195). -/
def execPopc (o : Ops) (st : State) : Out := st.intUnary o fun a => BitVec.ofNat 64 (countOnes a)

/-- MIN (R195). -/
def execMin (o : Ops) (st : State) : Out := st.intOp o fun a b => if a.sle b then a else b

/-- MAX (R195). -/
def execMax (o : Ops) (st : State) : Out := st.intOp o fun a b => if a.sle b then b else a

/-- MINZ (R195). -/
def execMinz (o : Ops) (st : State) : Out := st.intOp o fun a b => if a.ule b then a else b

/-- MAXZ (R195). -/
def execMaxz (o : Ops) (st : State) : Out := st.intOp o fun a b => if a.ule b then b else a

/-- CMP: p[DST] is all ones when the condition holds, else 0 (R197). -/
def execCmp (o : Ops) (st : State) : Out :=
  st.scalar o.g { regs := [regP o.dst.toNat, regS o.sa.toNat] ++ (if o.iFlag then [] else [regS o.sb.toNat]) } fun st =>
    (st.writeP o.dst (predOf (cmpHolds (o.modBits 57 54) (st.s o.sa) (st.operandB o)))).finish

/-- SEL: a when bit 0 of p[SC] is 1, else b (R198). -/
def execSel (o : Ops) (st : State) : Out :=
  st.scalar o.g { regs := intRegs o ++ [regP o.sc.toNat] } fun st =>
    (st.writeS o.dst (if (st.me.regs.getP o.sc.toNat).getLsbD 0 then st.s o.sa else st.operandB o)).finish

/-- MOVI: IMM64 into s[DST] (R201). -/
def execMovi (g : Guard) (dst : BitVec 6) (imm : Word) (st : State) : Out :=
  st.scalar g { regs := [regS dst.toNat] } fun st => (st.writeS dst imm).finish

/-- LEA: the effective address, with its non-canonical trap and no access (R200). -/
def execLea (o : Ops) (st : State) : Out :=
  st.scalar o.g { regs := [regS o.dst.toNat] ++ addrRegs o } fun st =>
    if canonical (st.formed o) then (st.writeS o.dst (BitVec.ofNat 64 (st.formed o))).finish
    else st.raise causeNonCanonical (st.formed o)

/-- BFX (R199). -/
def execBfx (o : Ops) (st : State) : Out := st.intOp o fun a b => extractField o.xFlag a b

/-- BFI: the value of s[SC] is inserted (R199). -/
def execBfi (o : Ops) (st : State) : Out :=
  st.scalar o.g { regs := intRegs o ++ [regS o.sc.toNat] } fun st =>
    (st.writeS o.dst (insertField (st.s o.sa) (st.operandB o) (st.s o.sc))).finish

/-- NOP (R201). -/
def execNop (o : Ops) (st : State) : Out := st.scalar o.g {} fun st => st.finish

/-- FADD (R203). -/
def execFadd (o : Ops) (st : State) : Out := st.fpOp o fun a b => fpElement .add o.fType a b 0

/-- FSUB (R203). -/
def execFsub (o : Ops) (st : State) : Out := st.fpOp o fun a b => fpElement .sub o.fType a b 0

/-- FMUL (R203). -/
def execFmul (o : Ops) (st : State) : Out := st.fpOp o fun a b => fpElement .mul o.fType a b 0

/-- FFMA: a times b plus c with one rounding; c from f[SC] (R203). -/
def execFfma (o : Ops) (st : State) : Out :=
  st.scalar o.g { regs := [regF o.dst.toNat, regF o.sa.toNat, regF o.sb.toNat, regF o.sc.toNat] } fun st =>
    let t := o.fType
    (st.writeF o.dst (BitVec.ofNat 64
      (fpElement .fma t (st.fOperand t o.sa) (st.fOperand t o.sb) (st.fOperand t o.sc)))).finish

/-- FDIV (R203). -/
def execFdiv (o : Ops) (st : State) : Out :=
  st.fpOp o fun a b => let f := fmtOf o.fType; rne f (divNum (f.value a) (f.value b))

/-- FSQRT (R203). -/
def execFsqrt (o : Ops) (st : State) : Out :=
  st.scalar o.g { regs := [regF o.dst.toNat, regF o.sa.toNat] } fun st =>
    let f := fmtOf o.fType
    (st.writeF o.dst (BitVec.ofNat 64 (rne f (sqrtNum (f.value (st.fOperand o.fType o.sa)))))).finish

/-- FMIN: minimumNumber (R204). -/
def execFmin (o : Ops) (st : State) : Out := st.fpOp o fun a b => fpElement .min o.fType a b 0

/-- FMAX: maximumNumber (R204). -/
def execFmax (o : Ops) (st : State) : Out := st.fpOp o fun a b => fpElement .max o.fType a b 0

/-- FCMP: p[DST] is all ones when the condition holds, else 0 (R205). -/
def execFcmp (o : Ops) (st : State) : Out :=
  st.scalar o.g { regs := [regP o.dst.toNat, regF o.sa.toNat, regF o.sb.toNat] } fun st =>
    let f := fmtOf o.fType
    (st.writeP o.dst (predOf (fcmpHolds o.fCond (f.value (st.fOperand o.fType o.sa))
      (f.value (st.fOperand o.fType o.sb))))).finish

/-- The generator of stochastic rounding advances when an element is drawn for (R246). -/
def State.stepQ (st : State) (draws : Bool) : State :=
  if draws then st.setMe fun t => { t with q := nextQ t.q } else st

/-- FCVT (R206): an integer result fills its s register, s32 sign-extended and z32 zero-extended; SR draws once. -/
def execFcvt (o : Ops) (st : State) : Out :=
  let dstR := if scalarFp o.fType then regF o.dst.toNat else regS o.dst.toNat
  let srcR := if scalarFp o.fSType then regF o.sa.toNat else regS o.sa.toNat
  st.scalar o.g { regs := [dstR, srcR] } fun st =>
    let mode := rmodeOf o.fCond
    let x := (if scalarFp o.fSType then (st.f o.sa).toNat else (st.s o.sa).toNat) % 2 ^ typeWidth o.fSType
    let st := st.stepQ (convertDraws mode)
    let r := convert o.fType o.fSType mode (o.modBit 59) (drawOf st.me.q) x
    (if scalarFp o.fType then st.writeF o.dst (BitVec.ofNat 64 r)
     else st.writeS o.dst (BitVec.ofInt 64 (intOf o.fType r))).finish

/-- FMOV: 64 bits copied unchanged, in the direction DIR (R207). -/
def execFmov (o : Ops) (st : State) : Out :=
  let dstR := if o.fCond = 2 then regS o.dst.toNat else regF o.dst.toNat
  let srcR := if o.fCond = 1 then regS o.sa.toNat else regF o.sa.toNat
  st.scalar o.g { regs := [dstR, srcR] } fun st =>
    let x := if o.fCond = 1 then st.s o.sa else st.f o.sa
    (if o.fCond = 2 then st.writeS o.dst x else st.writeF o.dst x).finish

end Sys2Proof.Machine
end

