-- ==== Sys2Proof/Machine/Vector.lean ====
section
/-!
DEFINITION. The vector instructions that touch no memory (R253 to R262, R266 to R270, R272) and the pair (R171, R172).
-/

namespace Sys2Proof.Machine

/-- Operand b of a vector instruction for element `i`: the broadcast scalar or the element of v[SB] (R257). -/
def State.vecB (st : State) (o : Ops) (i : Nat) : Nat :=
  if o.bs then st.scalarOperand o.vType o.sb else st.elem o.vType o.sb i

/-- The registers of the arithmetic form (R257). -/
def arithRegs (o : Ops) : List Nat :=
  [regV o.dst.toNat, regV o.sa.toNat, if o.bs then scalarReg o.vType o.sb else regV o.sb.toNat]

/-- The v registers that the arithmetic form names (R176, R257). -/
def arithV (o : Ops) : List (BitVec 6) := [o.dst, o.sa] ++ (if o.bs then [] else [o.sb])

/-- The common form of VADD to VSHR (R257): sources are read before anything is written (R254). -/
def State.vecOp (st : State) (o : Ops) (op : ElemOp) : Out :=
  st.vector o.g o.vType { regs := arithRegs o, lack := st.lackV (arithV o) } fun st =>
    (st.writeElems o.vType o.dst ((st.activeIn o.g o.vType).map fun i =>
      (i, element op o.vType (st.elem o.vType o.sa i) (st.vecB o i) 0))).finish

/-- The unary form: VABS and VNEG (R257). -/
def State.vecUnary (st : State) (o : Ops) (f : Nat → Nat) : Out :=
  st.vector o.g o.vType { regs := [regV o.dst.toNat, regV o.sa.toNat], lack := st.lackV [o.dst, o.sa] } fun st =>
    (st.writeElems o.vType o.dst ((st.activeIn o.g o.vType).map fun i => (i, f (st.elem o.vType o.sa i)))).finish

/-- VADD (R257). -/
def execVadd (o : Ops) (st : State) : Out := st.vecOp o .add

/-- VSUB (R257). -/
def execVsub (o : Ops) (st : State) : Out := st.vecOp o .sub

/-- VMUL (R257). -/
def execVmul (o : Ops) (st : State) : Out := st.vecOp o .mul

/-- VFMA: a times b plus c, c from v[SC] (R257). -/
def execVfma (o : Ops) (st : State) : Out :=
  st.vector o.g o.vType { regs := arithRegs o ++ [regV o.sc.toNat], lack := st.lackV (arithV o ++ [o.sc]) } fun st =>
    (st.writeElems o.vType o.dst ((st.activeIn o.g o.vType).map fun i =>
      (i, element .fma o.vType (st.elem o.vType o.sa i) (st.vecB o i) (st.elem o.vType o.sc i)))).finish

/-- VMIN (R257). -/
def execVmin (o : Ops) (st : State) : Out := st.vecOp o .min

/-- VMAX (R257). -/
def execVmax (o : Ops) (st : State) : Out := st.vecOp o .max

/-- VABS (R257). -/
def execVabs (o : Ops) (st : State) : Out := st.vecUnary o fun a => element .abs o.vType a 0 0

/-- VNEG (R257). -/
def execVneg (o : Ops) (st : State) : Out := st.vecUnary o fun a => element .neg o.vType a 0 0

/-- VAND (R257). -/
def execVand (o : Ops) (st : State) : Out := st.vecOp o .and

/-- VOR (R257). -/
def execVor (o : Ops) (st : State) : Out := st.vecOp o .or

/-- VXOR (R257). -/
def execVxor (o : Ops) (st : State) : Out := st.vecOp o .xor

/-- VSHL (R257). -/
def execVshl (o : Ops) (st : State) : Out := st.vecOp o .shl

/-- VSHR (R257). -/
def execVshr (o : Ops) (st : State) : Out := st.vecOp o .shr

/-- A predicate whose bit i is set for each listed i. -/
def maskOf (is : List Nat) : Lane := is.foldl (fun m i => m ||| (1 <<< i)) 0

/-- VCMP: bit i of p[DST] is 1 when element i is active and the condition holds; every other bit is 0 (R260). -/
def execVcmp (o : Ops) (st : State) : Out :=
  let t := o.vType
  st.vector o.g t
    { regs := [regP o.dst.toNat, regV o.sa.toNat, if o.bs then scalarReg t o.sb else regV o.sb.toNat]
      lack := st.lackV ([o.sa] ++ (if o.bs then [] else [o.sb])) } fun st =>
    (st.writeP o.dst (maskOf ((st.activeIn o.g t).filter fun i =>
      elementHolds t (o.modBits 54 51) (st.elem t o.sa i) (st.vecB o i)))).finish

/-- VSEL: a where bit i of p[SC] is 1, else b; bits are copied unchanged (R261). -/
def execVsel (o : Ops) (st : State) : Out :=
  let t := o.vType
  st.vector o.g t
    { regs := [regV o.dst.toNat, regV o.sa.toNat, regV o.sb.toNat, regP o.sc.toNat]
      lack := st.lackV [o.dst, o.sa, o.sb] } fun st =>
    let p := st.me.regs.getP o.sc.toNat
    (st.writeElems t o.dst ((st.activeIn o.g t).map fun i =>
      (i, if p.getLsbD i then st.elem t o.sa i else st.elem t o.sb i))).finish

/-- The element that pairs with element `i` on one side of a conversion (R262): when exactly one type is 64-bit,
element i of the wide side pairs with lane 16 * HI + i of the narrow side. -/
def cvtIndex (t other : Nat) (hi : Bool) (i : Nat) : Nat :=
  if !wideType t && wideType other && hi then 16 + i else i

/-- The elements that a conversion takes: 16 when either type is 64-bit (R262). -/
def cvtType (dst src : Nat) : Nat := if wideType src then src else dst

/-- VCVT (R262): the active elements are converted in ascending order, and SR draws once for each (R246). -/
def execVcvt (o : Ops) (st : State) : Out :=
  let dst := o.vType
  let src := o.modBits 55 52
  let mode := rmodeOf (o.modBits 51 49)
  let hi := o.immBits 0 0 == 1
  st.vector o.g (cvtType dst src) { regs := [regV o.dst.toNat, regV o.sa.toNat], lack := st.lackV [o.dst, o.sa] } fun st =>
    let act := st.activeIn o.g (cvtType dst src)
    let step (acc : BitVec 32 × List (Nat × Nat)) (i : Nat) : BitVec 32 × List (Nat × Nat) :=
      let x := st.elem src o.sa (cvtIndex src dst hi i)
      let q := if convertDraws mode then nextQ acc.1 else acc.1
      (q, acc.2 ++ [(cvtIndex dst src hi i, convert dst src mode (o.modBit 48) (drawOf q) x)])
    let r := act.foldl step (st.me.q, [])
    ((st.setMe fun t => { t with q := r.1 }).writeElems dst o.dst r.2).finish

/-- VBCAST: the low bits of a scalar register to every active element (R266). -/
def execVbcast (o : Ops) (st : State) : Out :=
  let t := o.vType
  st.vector o.g t { regs := [regV o.dst.toNat, scalarReg t o.sa], lack := st.lackV [o.dst] } fun st =>
    (st.writeElems t o.dst ((st.activeIn o.g t).map fun i => (i, st.scalarOperand t o.sa))).finish

/-- VPERM: element k of v[SA], with k the low bits of lane i of v[SB] (R267). -/
def execVperm (o : Ops) (st : State) : Out :=
  let t := o.vType
  st.vector o.g t
    { regs := [regV o.dst.toNat, regV o.sa.toNat, regV o.sb.toNat], lack := st.lackV [o.dst, o.sa, o.sb] } fun st =>
    (st.writeElems t o.dst ((st.activeIn o.g t).map fun i =>
      (i, st.elem t o.sa ((st.me.regs.getLane o.sb.toNat i).toNat % elemCount t)))).finish

/-- The common form of the reductions (R269): inactive elements contribute the identity. -/
def State.reduce (st : State) (o : Ops) (op : RedOp) : Out :=
  let t := o.vType
  st.vector o.g t { regs := [scalarReg t o.dst, regV o.sa.toNat], lack := st.lackV [o.sa] } fun st =>
    let xs := (List.range (elemCount t)).map fun i => if st.laneOn o.g i then some (st.elem t o.sa i) else none
    (if intType t then st.writeS o.dst (BitVec.ofNat 64 (intReduce op t xs))
     else st.writeF o.dst (BitVec.ofNat 64 (fpReduce op t xs))).finish

/-- VREDSUM (R269). -/
def execVredsum (o : Ops) (st : State) : Out := st.reduce o .sum

/-- VREDMAX (R269). -/
def execVredmax (o : Ops) (st : State) : Out := st.reduce o .max

/-- VREDMIN (R269). -/
def execVredmin (o : Ops) (st : State) : Out := st.reduce o .min

/-- VEXP2 (R270). -/
def execVexp2 (o : Ops) (st : State) : Out := st.vecUnary o fun a => special .exp2 o.vType a

/-- VRCP (R270). -/
def execVrcp (o : Ops) (st : State) : Out := st.vecUnary o fun a => special .rcp o.vType a

/-- VRSQ (R270). -/
def execVrsq (o : Ops) (st : State) : Out := st.vecUnary o fun a => special .rsq o.vType a

/-- VMOVS: one element to or from a scalar register, when its lane is on (R268). -/
def execVmovs (o : Ops) (st : State) : Out :=
  let t := o.vType
  let k := o.immBits 4 0
  let v := if o.bs then o.dst else o.sa
  let r := if o.bs then o.sa else o.dst
  st.issue o.g (st.laneOn o.g k) { regs := [regV v.toNat, scalarReg t r], lack := st.lackV [v] } fun st =>
    (if o.bs then st.writeElems t o.dst [(k, st.scalarOperand t o.sa)]
     else if intType t then st.writeS o.dst (BitVec.ofInt 64 (intOf t (st.elem t o.sa k)))
     else st.writeF o.dst (BitVec.ofNat 64 (st.elem t o.sa k))).finish

/-- VTOPK: the best k of the list in lanes 0 to k - 1 and the active candidates (R272). -/
def execVtopk (o : Ops) (st : State) : Out :=
  let t := o.vType
  let k := o.immBits 5 0
  let ids := o.dst + 1
  st.vector o.g t
    { regs := [regV o.dst.toNat, regV ids.toNat, regV o.sa.toNat, regV o.sb.toNat]
      lack := st.lackV [o.dst, ids, o.sa, o.sb] } fun st =>
    let old := (List.range k).map fun i => TopEntry.mk (st.elem t o.dst i) (st.elem 6 ids i) false i
    let new := (st.activeIn o.g t).map fun i => TopEntry.mk (st.elem t o.sa i) (st.elem 6 o.sb i) true i
    let best := topSelect t o.bs k (old ++ new)
    let st := st.writeElems t o.dst ((List.range k).zip (best.map fun e => e.key))
    (st.writeElems 6 ids ((List.range k).zip (best.map fun e => e.id))).finish

/-- The result of a pair's scalar half (R172), none for NOP. -/
def pairScalarResult (op : Nat) (a b : Word) : Option Word :=
  match op with
  | 0x01 => some (a + b)
  | 0x02 => some (a - b)
  | 0x03 => some (a * b)
  | 0x07 => some (a &&& b)
  | 0x08 => some (a ||| b)
  | 0x09 => some (a ^^^ b)
  | 0x0A => some (a &&& ~~~b)
  | 0x0B => some (a <<< shiftCount b)
  | 0x0C => some (a >>> shiftCount b)
  | 0x0D => some (a.sshiftRight (shiftCount b))
  | 0x12 => some (if a.sle b then a else b)
  | 0x13 => some (if a.sle b then b else a)
  | 0x14 => some (if a.ule b then a else b)
  | 0x15 => some (if a.ule b then b else a)
  | _ => none

/-- The operation of a pair's vector half (R172). -/
def pairVectorOp (op : Nat) : ElemOp :=
  match op with
  | 0 => .add
  | 1 => .sub
  | 2 => .mul
  | 3 => .fma
  | 4 => .min
  | 5 => .max
  | 6 => .abs
  | 7 => .neg
  | 8 => .and
  | 9 => .or
  | 10 => .xor
  | 11 => .shl
  | _ => .shr

/-- Operand b of a pair's scalar half (R171). -/
def State.pairB (st : State) (p : PairOps) : Word := if p.si then p.simm.signExtend 64 else st.s p.ssb

/-- PAIR: both halves read all their sources before either writes; the scalar half obeys bit 0 of the guard, the
vector half its lanes, and the pair counts as one instruction (R172). DESIGN CHOICE and unsafe (log 119): R172 does not say whether
the pending or unallotted registers of a half that is guarded off still trap; the model checks the half that is on only. -/
def execPair (p : PairOps) (st : State) : Out :=
  let t := p.vtype.toNat
  let scalarOn := st.scalarOn p.g
  let vectorOn := !(st.activeIn p.g t).isEmpty
  let vop := pairVectorOp p.vop.toNat
  let unary := vop == .abs || vop == .neg
  let vregs := [p.vdst, p.vsa] ++ (if unary then [] else [p.vsb]) ++ (if vop == .fma then [p.vsc] else [])
  let sregs := if p.sop = 0x1C then [] else
    [regS p.sdst.toNat, regS p.ssa.toNat] ++ (if p.si then [] else [regS p.ssb.toNat])
  st.issue p.g (scalarOn || vectorOn)
    { regs := (if scalarOn then sregs else []) ++ (if vectorOn then vregs.map fun r => regV r.toNat else [])
      lack := if vectorOn then st.lackV vregs else none } fun st =>
    let r := pairScalarResult p.sop.toNat (st.s p.ssa) (st.pairB p)
    let xs := (st.activeIn p.g t).map fun i =>
      (i, element vop t (st.elem t p.vsa i) (st.elem t p.vsb i) (st.elem t p.vsc i))
    let st := match r with
      | some x => if scalarOn then st.writeS p.sdst x else st
      | none => st
    (st.writeElems t p.vdst xs).finish

end Sys2Proof.Machine
end

