-- ==== Sys2Proof/Machine/Dispatch.lean ====
section
/-!
DEFINITION. What each instruction and each step of another agent does: one arm for each constructor.
-/

namespace Sys2Proof.Machine

def exec (i : Instr) (s : State) : Host.Outcome State Fault Refusal :=
  match i with
  | .add o => Sys2Proof.Machine.execAdd o s
  | .sub o => Sys2Proof.Machine.execSub o s
  | .mul o => Sys2Proof.Machine.execMul o s
  | .mulh o => Sys2Proof.Machine.execMulh o s
  | .div o => Sys2Proof.Machine.execDiv o s
  | .rem o => Sys2Proof.Machine.execRem o s
  | .and o => Sys2Proof.Machine.execAnd o s
  | .or o => Sys2Proof.Machine.execOr o s
  | .xor o => Sys2Proof.Machine.execXor o s
  | .andn o => Sys2Proof.Machine.execAndn o s
  | .shl o => Sys2Proof.Machine.execShl o s
  | .shr o => Sys2Proof.Machine.execShr o s
  | .sra o => Sys2Proof.Machine.execSra o s
  | .rot o => Sys2Proof.Machine.execRot o s
  | .clz o => Sys2Proof.Machine.execClz o s
  | .ctz o => Sys2Proof.Machine.execCtz o s
  | .popc o => Sys2Proof.Machine.execPopc o s
  | .min o => Sys2Proof.Machine.execMin o s
  | .max o => Sys2Proof.Machine.execMax o s
  | .minz o => Sys2Proof.Machine.execMinz o s
  | .maxz o => Sys2Proof.Machine.execMaxz o s
  | .cmp o => Sys2Proof.Machine.execCmp o s
  | .sel o => Sys2Proof.Machine.execSel o s
  | .movi g dst imm => Sys2Proof.Machine.execMovi g dst imm s
  | .lea o => Sys2Proof.Machine.execLea o s
  | .bfx o => Sys2Proof.Machine.execBfx o s
  | .bfi o => Sys2Proof.Machine.execBfi o s
  | .nop o => Sys2Proof.Machine.execNop o s
  | .fadd o => Sys2Proof.Machine.execFadd o s
  | .fsub o => Sys2Proof.Machine.execFsub o s
  | .fmul o => Sys2Proof.Machine.execFmul o s
  | .ffma o => Sys2Proof.Machine.execFfma o s
  | .fdiv o => Sys2Proof.Machine.execFdiv o s
  | .fsqrt o => Sys2Proof.Machine.execFsqrt o s
  | .fmin o => Sys2Proof.Machine.execFmin o s
  | .fmax o => Sys2Proof.Machine.execFmax o s
  | .fcmp o => Sys2Proof.Machine.execFcmp o s
  | .fcvt o => Sys2Proof.Machine.execFcvt o s
  | .fmov o => Sys2Proof.Machine.execFmov o s
  | .br o => Sys2Proof.Machine.execBr o s
  | .j o => Sys2Proof.Machine.execJ o s
  | .jr o => Sys2Proof.Machine.execJr o s
  | .call o => Sys2Proof.Machine.execCall o s
  | .callReg o => Sys2Proof.Machine.execCallReg o s
  | .ret o => Sys2Proof.Machine.execRet o s
  | .loop o => Sys2Proof.Machine.execLoop o s
  | .wait o => Sys2Proof.Machine.execWait o s
  | .chunk o => Sys2Proof.Machine.execChunk o s
  | .susp o => Sys2Proof.Machine.execSusp o s
  | .suspMsg o => Sys2Proof.Machine.execSuspMsg o s
  | .done o => Sys2Proof.Machine.execDone o s
  | .yield o => Sys2Proof.Machine.execYield o s
  | .yieldExpiry strand => Sys2Proof.Machine.execYieldExpiry strand s
  | .trap o => Sys2Proof.Machine.execTrap o s
  | .krd o => Sys2Proof.Machine.execKrd o s
  | .kwr o => Sys2Proof.Machine.execKwr o s
  | .eret o => Sys2Proof.Machine.execEret o s
  | .invp o => Sys2Proof.Machine.execInvp o s
  | .invpCompletion strand => Sys2Proof.Machine.execInvpCompletion strand s
  | .halt o => Sys2Proof.Machine.execHalt o s
  | .haltRelease strand resume => Sys2Proof.Machine.execHaltRelease strand resume s
  | .pair p => Sys2Proof.Machine.execPair p s
  | .vadd o => Sys2Proof.Machine.execVadd o s
  | .vsub o => Sys2Proof.Machine.execVsub o s
  | .vmul o => Sys2Proof.Machine.execVmul o s
  | .vfma o => Sys2Proof.Machine.execVfma o s
  | .vmin o => Sys2Proof.Machine.execVmin o s
  | .vmax o => Sys2Proof.Machine.execVmax o s
  | .vabs o => Sys2Proof.Machine.execVabs o s
  | .vneg o => Sys2Proof.Machine.execVneg o s
  | .vand o => Sys2Proof.Machine.execVand o s
  | .vor o => Sys2Proof.Machine.execVor o s
  | .vxor o => Sys2Proof.Machine.execVxor o s
  | .vshl o => Sys2Proof.Machine.execVshl o s
  | .vshr o => Sys2Proof.Machine.execVshr o s
  | .vcmp o => Sys2Proof.Machine.execVcmp o s
  | .vsel o => Sys2Proof.Machine.execVsel o s
  | .vcvt o => Sys2Proof.Machine.execVcvt o s
  | .vld o => Sys2Proof.Machine.execVld o s
  | .vst o => Sys2Proof.Machine.execVst o s
  | .vgath o => Sys2Proof.Machine.execVgath o s
  | .vscat o => Sys2Proof.Machine.execVscat o s
  | .vbcast o => Sys2Proof.Machine.execVbcast o s
  | .vperm o => Sys2Proof.Machine.execVperm o s
  | .vredsum o => Sys2Proof.Machine.execVredsum o s
  | .vredmax o => Sys2Proof.Machine.execVredmax o s
  | .vredmin o => Sys2Proof.Machine.execVredmin o s
  | .vexp2 o => Sys2Proof.Machine.execVexp2 o s
  | .vrcp o => Sys2Proof.Machine.execVrcp o s
  | .vrsq o => Sys2Proof.Machine.execVrsq o s
  | .vmovs o => Sys2Proof.Machine.execVmovs o s
  | .vdist o => Sys2Proof.Machine.execVdist o s
  | .vtopk o => Sys2Proof.Machine.execVtopk o s
  | .ld o => Sys2Proof.Machine.execLd o s
  | .ldAcqSy o => Sys2Proof.Machine.execLdAcqSy o s
  | .st o => Sys2Proof.Machine.execSt o s
  | .stRelSy o => Sys2Proof.Machine.execStRelSy o s
  | .lds o => Sys2Proof.Machine.execLds o s
  | .chkw o => Sys2Proof.Machine.execChkw o s
  | .wclr o => Sys2Proof.Machine.execWclr o s
  | .ldl o => Sys2Proof.Machine.execLdl o s
  | .ldlDrop o => Sys2Proof.Machine.execLdlDrop o s
  | .pf o => Sys2Proof.Machine.execPf o s
  | .res o => Sys2Proof.Machine.execRes o s
  | .spmap o => Sys2Proof.Machine.execSpmap o s
  | .spunmap o => Sys2Proof.Machine.execSpunmap o s
  | .spflush o => Sys2Proof.Machine.execSpflush o s
  | .fence o => Sys2Proof.Machine.execFence o s
  | .fenceSy o => Sys2Proof.Machine.execFenceSy o s
  | .lease o => Sys2Proof.Machine.execLease o s
  | .unlease o => Sys2Proof.Machine.execUnlease o s
  | .slotClm o => Sys2Proof.Machine.execSlotClm o s
  | .slotRel o => Sys2Proof.Machine.execSlotRel o s
  | .cpyIn o => Sys2Proof.Machine.execCpyIn o s
  | .cpyOut o => Sys2Proof.Machine.execCpyOut o s
  | .cpyM o => Sys2Proof.Machine.execCpyM o s
  | .cpyNv o => Sys2Proof.Machine.execCpyNv o s
  | .mmaDd o => Sys2Proof.Machine.execMmaDd o s
  | .mmaSs o => Sys2Proof.Machine.execMmaSs o s
  | .mmaBb o => Sys2Proof.Machine.execMmaBb o s
  | .mmaHh o => Sys2Proof.Machine.execMmaHh o s
  | .mmaEe o => Sys2Proof.Machine.execMmaEe o s
  | .mmaEf o => Sys2Proof.Machine.execMmaEf o s
  | .mmaFf o => Sys2Proof.Machine.execMmaFf o s
  | .mmaQq o => Sys2Proof.Machine.execMmaQq o s
  | .mmaQe o => Sys2Proof.Machine.execMmaQe o s
  | .mmaIi o => Sys2Proof.Machine.execMmaIi o s
  | .mmv o => Sys2Proof.Machine.execMmv o s
  | .accZero o => Sys2Proof.Machine.execAccZero o s
  | .accRd o => Sys2Proof.Machine.execAccRd o s
  | .amo o => Sys2Proof.Machine.execAmo o s
  | .red o => Sys2Proof.Machine.execRed o s
  | .send o => Sys2Proof.Machine.execSend o s
  | .sendm o => Sys2Proof.Machine.execSendm o s
  | .sendNx o => Sys2Proof.Machine.execSendNx o s
  | .hset o => Sys2Proof.Machine.execHset o s
  | .hmask o => Sys2Proof.Machine.execHmask o s
  | .hunmask o => Sys2Proof.Machine.execHunmask o s
  | .jinit o => Sys2Proof.Machine.execJinit o s
  | .jarr o => Sys2Proof.Machine.execJarr o s
  | .qopen o => Sys2Proof.Machine.execQopen o s
  | .qwait o => Sys2Proof.Machine.execQwait o s
  | .cbegin o => Sys2Proof.Machine.execCbegin o s
  | .stc o => Sys2Proof.Machine.execStc o s
  | .lay o => Sys2Proof.Machine.execLay o s
  | .abandon o => Sys2Proof.Machine.execAbandon o s
  | .cstat o => Sys2Proof.Machine.execCstat o s
  | .exdef o => Sys2Proof.Machine.execExdef o s
  | .exrt o => Sys2Proof.Machine.execExrt o s
  | .exload o => Sys2Proof.Machine.execExload o s
  | .exgrow o => Sys2Proof.Machine.execExgrow o s
  | .exretire o => Sys2Proof.Machine.execExretire o s
  | .exjoinContrib o => Sys2Proof.Machine.execExjoinContrib o s
  | .exjoinHand o => Sys2Proof.Machine.execExjoinHand o s
  | .exupd o => Sys2Proof.Machine.execExupd o s
  | .exspill o => Sys2Proof.Machine.execExspill o s
  | .instructionLimitChunkEnd strand => Sys2Proof.Machine.execInstructionLimitChunkEnd strand s
  | .commitPoint strand => Sys2Proof.Machine.execCommitPoint strand s
  | .soleCommitTokenGrant die => Sys2Proof.Machine.execSoleCommitTokenGrant die s
  | .loadDataReturn strand seq => Sys2Proof.Machine.execLoadDataReturn strand seq s
  | .storeAcknowledgement strand seq => Sys2Proof.Machine.execStoreAcknowledgement strand seq s
  | .translationMiss source lkey va kind => Sys2Proof.Machine.execTranslationMiss source lkey va kind s
  | .mtuResume pkg unit parkId => Sys2Proof.Machine.execMtuResume pkg unit parkId s
  | .mtuKill pkg unit lkey => Sys2Proof.Machine.execMtuKill pkg unit lkey s
  | .counterHalving pkg unit => Sys2Proof.Machine.execCounterHalving pkg unit s
  | .cdump pkg unit value => Sys2Proof.Machine.execCdump pkg unit value s
  | .counterDumpDone pkg unit => Sys2Proof.Machine.execCounterDumpDone pkg unit s
  | .pageMove pkg unit leaf frame => Sys2Proof.Machine.execPageMove pkg unit leaf frame s
  | .moveFinalPass pkg unit => Sys2Proof.Machine.execMoveFinalPass pkg unit s
  | .homeReadRequest packet => Sys2Proof.Machine.execHomeReadRequest packet s
  | .homeOwnershipRequest packet => Sys2Proof.Machine.execHomeOwnershipRequest packet s
  | .homeWriteBack packet => Sys2Proof.Machine.execHomeWriteBack packet s
  | .recallAnswer packet => Sys2Proof.Machine.execRecallAnswer packet s
  | .invalidationArrival packet => Sys2Proof.Machine.execInvalidationArrival packet s
  | .recallArrival packet => Sys2Proof.Machine.execRecallArrival packet s
  | .fillAnswer packet => Sys2Proof.Machine.execFillAnswer packet s
  | .confirmRequest packet => Sys2Proof.Machine.execConfirmRequest packet s
  | .confirmAnswer packet => Sys2Proof.Machine.execConfirmAnswer packet s
  | .combineRequest packet => Sys2Proof.Machine.execCombineRequest packet s
  | .combinePartialArrival packet => Sys2Proof.Machine.execCombinePartialArrival packet s
  | .windowWriteBack core => Sys2Proof.Machine.execWindowWriteBack core s
  | .hostSnpdata pkg line => Sys2Proof.Machine.execHostSnpdata pkg line s
  | .hostSnpinv pkg line => Sys2Proof.Machine.execHostSnpinv pkg line s
  | .hostSnpcur pkg line => Sys2Proof.Machine.execHostSnpcur pkg line s
  | .hostCxlMemRead pkg addr size caches => Sys2Proof.Machine.execHostCxlMemRead pkg addr size caches s
  | .hostCxlMemWrite pkg addr data => Sys2Proof.Machine.execHostCxlMemWrite pkg addr data s
  | .backInvalidationAnswer pkg line data => Sys2Proof.Machine.execBackInvalidationAnswer pkg line data s
  | .cxlCacheGrant pkg line exclusive data => Sys2Proof.Machine.execCxlCacheGrant pkg line exclusive data s
  | .messageArrival msg => Sys2Proof.Machine.execMessageArrival msg s
  | .handlerSelection core => Sys2Proof.Machine.execHandlerSelection core s
  | .brickMessageArrival msg => Sys2Proof.Machine.execBrickMessageArrival msg s
  | .quiescenceWave => Sys2Proof.Machine.execQuiescenceWave s
  | .doorbell pkg queue tail => Sys2Proof.Machine.execDoorbell pkg queue tail s
  | .hquSubmitMessage msg => Sys2Proof.Machine.execHquSubmitMessage msg s
  | .quantumRemap pkg => Sys2Proof.Machine.execQuantumRemap pkg s
  | .admission pkg queue => Sys2Proof.Machine.execAdmission pkg queue s
  | .launchDispatch lkey => Sys2Proof.Machine.execLaunchDispatch lkey s
  | .graphAdmission pkg queue => Sys2Proof.Machine.execGraphAdmission pkg queue s
  | .graphNodeComplete pkg graph node => Sys2Proof.Machine.execGraphNodeComplete pkg graph node s
  | .msixCoalesceExpiry pkg queue => Sys2Proof.Machine.execMsixCoalesceExpiry pkg queue s
  | .watchEntryWrite pkg entry word value => Sys2Proof.Machine.execWatchEntryWrite pkg entry word value s
  | .leaseGrant cluster => Sys2Proof.Machine.execLeaseGrant cluster s
  | .leaseTermExpiry cluster => Sys2Proof.Machine.execLeaseTermExpiry cluster s
  | .tileTaskIssue cluster => Sys2Proof.Machine.execTileTaskIssue cluster s
  | .tileTaskComplete cluster => Sys2Proof.Machine.execTileTaskComplete cluster s
  | .subnormalAssist cluster => Sys2Proof.Machine.execSubnormalAssist cluster s
  | .copyCommandStart cluster => Sys2Proof.Machine.execCopyCommandStart cluster s
  | .copyCommandComplete cluster cmd => Sys2Proof.Machine.execCopyCommandComplete cluster cmd s
  | .nvmeCompletionEntry pkg queue cid status => Sys2Proof.Machine.execNvmeCompletionEntry pkg queue cid status s
  | .nvmeTimeout pkg queue cid => Sys2Proof.Machine.execNvmeTimeout pkg queue cid s
  | .nvmeControllerWrite pkg offset data => Sys2Proof.Machine.execNvmeControllerWrite pkg offset data s
  | .nvmeQueueEntryWrite pkg queue word value => Sys2Proof.Machine.execNvmeQueueEntryWrite pkg queue word value s
  | .stcStagingArrival pkg stc => Sys2Proof.Machine.execStcStagingArrival pkg stc s
  | .coursePrepare pkg src num => Sys2Proof.Machine.execCoursePrepare pkg src num s
  | .courseReadyReport src num dst status => Sys2Proof.Machine.execCourseReadyReport src num dst status s
  | .courseTimeout src num => Sys2Proof.Machine.execCourseTimeout src num s
  | .courseDecision pkg src num => Sys2Proof.Machine.execCourseDecision pkg src num s
  | .courseDecisionAck src num dst => Sys2Proof.Machine.execCourseDecisionAck src num dst s
  | .scoringRequest msg => Sys2Proof.Machine.execScoringRequest msg s
  | .tokenArrival msg => Sys2Proof.Machine.execTokenArrival msg s
  | .loadWindowEnd pkg => Sys2Proof.Machine.execLoadWindowEnd pkg s
  | .replicaCopyComplete name entry => Sys2Proof.Machine.execReplicaCopyComplete name entry s
  | .contributionArrival name cmd => Sys2Proof.Machine.execContributionArrival name cmd s
  | .exupdCourseStatus name status => Sys2Proof.Machine.execExupdCourseStatus name status s
  | .combineContribution msg => Sys2Proof.Machine.execCombineContribution msg s
  | .combineRecordRecheck pkg gateway => Sys2Proof.Machine.execCombineRecordRecheck pkg gateway s
  | .mergeContribution msg => Sys2Proof.Machine.execMergeContribution msg s
  | .trapEntry strand => Sys2Proof.Machine.execTrapEntry strand s
  | .preemption cluster lkey => Sys2Proof.Machine.execPreemption cluster lkey s
  | .spillComplete cluster => Sys2Proof.Machine.execSpillComplete cluster s
  | .launchResume cluster target => Sys2Proof.Machine.execLaunchResume cluster target s
  | .packageDeclaredDown pkg => Sys2Proof.Machine.execPackageDeclaredDown pkg s
  | .gixisFlitReceive pkg port flit => Sys2Proof.Machine.execGixisFlitReceive pkg port flit s
  | .gixisReplayRequest pkg port seq => Sys2Proof.Machine.execGixisReplayRequest pkg port seq s
  | .linkRetrain pkg port width lanes speed peerWidth peerLanes peerSpeed => Sys2Proof.Machine.execLinkRetrain pkg port width lanes speed peerWidth peerLanes peerSpeed s
  | .linkRetrainTimeout pkg port => Sys2Proof.Machine.execLinkRetrainTimeout pkg port s
  | .e2eAckArrival pkg dst vc seq => Sys2Proof.Machine.execE2eAckArrival pkg dst vc seq s
  | .e2eAckTimer pkg => Sys2Proof.Machine.execE2eAckTimer pkg s
  | .e2eResendRequest pkg dst vc seq => Sys2Proof.Machine.execE2eResendRequest pkg dst vc seq s
  | .tunnelDatagramReceive pkg port datagram => Sys2Proof.Machine.execTunnelDatagramReceive pkg port datagram s
  | .tunnelRetransmitTimeout pkg domain seq => Sys2Proof.Machine.execTunnelRetransmitTimeout pkg domain seq s
  | .secondTierLinkDown pkg port => Sys2Proof.Machine.execSecondTierLinkDown pkg port s
  | .powerEpoch pkg => Sys2Proof.Machine.execPowerEpoch pkg s
  | .ageingRefresh pkg months => Sys2Proof.Machine.execAgeingRefresh pkg months s
  | .firmwareVerify pkg image signature => Sys2Proof.Machine.execFirmwareVerify pkg image signature s
  | .attestationRequest pkg nonce => Sys2Proof.Machine.execAttestationRequest pkg nonce s
  | .bringUpLevel pkg selfTest => Sys2Proof.Machine.execBringUpLevel pkg selfTest s
  | .registerWrite pkg offset size value => Sys2Proof.Machine.execRegisterWrite pkg offset size value s
  | .faultRingWrite pkg unit offset value => Sys2Proof.Machine.execFaultRingWrite pkg unit offset value s
  | .candidateRingWrite pkg unit offset value => Sys2Proof.Machine.execCandidateRingWrite pkg unit offset value s
  | .tunnelRouteEntryWrite pkg domain word value => Sys2Proof.Machine.execTunnelRouteEntryWrite pkg domain word value s
  | .accumulatorLastElementRead cluster cmd => Sys2Proof.Machine.execAccumulatorLastElementRead cluster cmd s
  | .secondTierLinkUp pkg port capacity => Sys2Proof.Machine.execSecondTierLinkUp pkg port capacity s

end Sys2Proof.Machine
end

