-- ==== Sys2Proof/Machine/Step.lean ====
section
/-!
DEFINITION. One step of the machine: who moves, the fetch of a strand's next instruction, and exec. What each part does
stands in the files that it calls.
-/

namespace Sys2Proof.Machine

/-- The clock and the counter of free values move on: the model keeps no timing, and the time that a step takes is free
(log 6). -/
def State.tickOn (s : State) : State := { s with tick := s.tick + 1, time := s.time + Config.cycles s.tick }

/-- Whether the live chunk of the acting strand has reached its 512 instructions (R97). -/
def State.atLimit (s : State) : Bool :=
  match s.me.live with
  | some c => 512 ≤ c.count
  | none => false

/-- The acting strand moves: its chunk ends at the instruction limit, a strand that does not run waits, and else its next
instruction is fetched and executed. -/
def State.runStrand (s : State) : Out :=
  if strandLimit ≤ s.cur then .fault .noSuchStrand
  else if s.atLimit then exec (.instructionLimitChunkEnd s.cur) s
  else if s.stopped then .next s
  else
    match s.fetch with
    | .stop t => .next t
    | .run i t => exec i t

/-- A step of the outside world: one of the steps of other agents, never an instruction of a strand. -/
def State.takeInput (s : State) (i : Instr) : Out := if (encode i).isSome then .next s else exec i s

/-- One step: the choice at the head of `turns` moves; where there is none, the oldest owed step, or the strand that
acts (log 4). -/
def step (s : State) : Out :=
  let t := s.tickOn
  match s.turns with
  | .strand k :: rest => State.runStrand { t with turns := rest, cur := k }
  | .due n :: rest =>
    match s.due[n]? with
    | some i => exec i { t with turns := rest, due := s.due.eraseIdx n }
    | none => .next { t with turns := rest }
  | .input i :: rest => State.takeInput { t with turns := rest } i
  | [] =>
    match s.due with
    | i :: rest => exec i { t with due := rest }
    | [] => t.runStrand

/-- The frame where withFetchWord places its line: the first page of the strand's own package. -/
def State.placeFrame (s : State) : Nat := pkgOf s.cur * 2 ^ 50

/-- A state in which the acting strand runs, its PC names a slot of a page that it may fetch, and that slot holds a word:
the load of a program stands outside the machine (log 7). -/
def State.withFetchWord (s : State) (_nbits w : Nat) : State :=
  let k := s.cur
  let pc := s.me.pc.toNat
  let pc := if bits pc 5 3 = 0 ∧ pc % 8 < 5 ∧ pc < 2 ^ 56 - 64 ∧ bits pc 55 48 ≠ 0xFF then pc else 0
  let e : TlbEntry :=
    { source := sourceCore (coreOf k), lkey := s.me.lkey, vpage := pc / 4096, pages := 1, frame := s.placeFrame, leaf := 0,
      cls := 1, s := false, r := true, w := false, x := true, d := true, word := 0, owner := 0 }
  let a := s.placeFrame + pc / 64 * 64 % 4096
  let t := s.setMe fun t =>
    { t.setLive (fun c => { c with count := min c.count 511 }) with pc := BitVec.ofNat 64 pc, run := .running }
  { t with
    turns := [], due := [], tlb := e :: t.tlb, dir := terase t.dir (a / 64)
    banks := (t.setBank (bankOf k) fun b => { b with frozen := false }).banks
    mem := t.mem.writeBytes a (lineBytes w (pc % 8)) }

end Sys2Proof.Machine
end

