-- ==== Sys2Proof/Safety.lean ====
section
/-!
DEFINITION. What counts as a safe run, and the words in which claims say what a step does: when an instruction may take
its own effect, what it changes, and that it changes nothing else. The machine never stops on data: an open value is a
free value of Config (log 9), and a fault is raised only for a number that names no agent of the domain.
-/

namespace Sys2Proof.Machine

/-! ### Safe runs -/

/-- A step goes on. -/
def SafeStep (s : State) : Prop := ∃ t, step s = .next t

/-- A run of `n` steps goes on to its end. -/
def SafeRun (n : Nat) (s : State) : Prop := ∃ t, core.run n s = .next t

/-- The byte-addressed memories are in canonical form. -/
def State.sound (s : State) : Prop := s.mem.wf = true

/-- Whether an outcome is a next state that meets a test. -/
def nextHas (r : Out) (p : State → Bool) : Bool :=
  match r with
  | .next s => p s
  | _ => false

/-! ### When an instruction takes its own effect (R192) -/

/-- The acting strand exists, and its guard register is no pending register. -/
def State.guardRead (s : State) (g : Guard) : Prop :=
  s.cur < strandLimit ∧ (g.p = 0 ∨ s.me.pending (regP g.p.toNat) = false)

/-- None of the registers is pending (R179). -/
def State.waited (s : State) (rs : List Nat) : Prop := ∀ r ∈ rs, s.me.pending r = false

/-- A scalar instruction under a guard that is on, with no pending register among those it names. -/
def State.issues (s : State) (g : Guard) (rs : List Nat) : Prop :=
  s.guardRead g ∧ s.scalarOn g = true ∧ s.waited rs

/-- A vector instruction in a type with an active element, with no pending register, whose v registers are allotted
(R173, R176, R179). -/
def State.issuesV (s : State) (g : Guard) (t : Nat) (rs : List Nat) (vs : List (BitVec 6)) : Prop :=
  s.guardRead g ∧ s.activeIn g t ≠ [] ∧ s.waited rs ∧ ∀ v ∈ vs, v.toNat < s.vAllot s.cur

/-! ### What an instruction changes -/

/-- The acting strand has gone on by one instruction, which its live chunk counts (R97, R164); apart from its registers
and its generator, nothing of the state has changed but the number that a new chunk takes. -/
structure Retired (s t : State) : Prop where
  pc     : t.me.pc = nextPc s.me.pc
  chunk  : t.chunk = { s.openChunk.chunk with count := s.openChunk.chunk.count + 1 }
  earlier : t.me.chunks.drop 1 = s.openChunk.me.chunks.drop 1
  strand : t.me = { s.me with regs := t.me.regs, q := t.me.q, pc := t.me.pc, chunks := t.me.chunks }
  others : ∀ k, k ≠ s.cur → t.strand k = s.strand k
  rest   : t = { s with strands := t.strands, nextId := t.nextId }

/-- The registers of the acting strand before and after are the same but for s[r], which holds `x`; s0 holds zero and
takes no write (R174, R175). -/
structure OnlyS (g h : Regs) (r : BitVec 6) (x : Word) : Prop where
  s : ∀ i, h.getS i = if i = r.toNat ∧ i ≠ 0 then x else g.getS i
  f : ∀ i, h.getF i = g.getF i
  p : ∀ i, h.getP i = g.getP i
  v : ∀ i j, h.getLane i j = g.getLane i j

/-- The same for f[r]. -/
structure OnlyF (g h : Regs) (r : BitVec 6) (x : Word) : Prop where
  s : ∀ i, h.getS i = g.getS i
  f : ∀ i, h.getF i = if i = r.toNat then x else g.getF i
  p : ∀ i, h.getP i = g.getP i
  v : ∀ i j, h.getLane i j = g.getLane i j

/-- The same for p[r]; p0 holds all ones and takes no write (R174, R175). -/
structure OnlyP (g h : Regs) (r : BitVec 6) (x : Lane) : Prop where
  s : ∀ i, h.getS i = g.getS i
  f : ∀ i, h.getF i = g.getF i
  p : ∀ i, h.getP i = if i = r.toNat ∧ i ≠ 0 then x else g.getP i
  v : ∀ i j, h.getLane i j = g.getLane i j

/-- The registers are the same but for v[r] in a type: element i holds the low bits of `x i` where that is some value, and
is unchanged where it is none; a narrow element that is written leaves zeros above it in its lane (R253, R254). -/
structure OnlyV (g h : Regs) (t : Nat) (r : BitVec 6) (x : Nat → Option Nat) : Prop where
  s : ∀ i, h.getS i = g.getS i
  f : ∀ i, h.getF i = g.getF i
  p : ∀ i, h.getP i = g.getP i
  v : ∀ j i, j ≠ r.toNat → i < 32 → h.getLane j i = g.getLane j i
  elem : ∀ i, i < elemCount t →
    h.getElem t r.toNat i = (match x i with | some y => y % 2 ^ typeWidth t | none => g.getElem t r.toNat i)
  high : ∀ i, i < 32 → wideType t = false → x i ≠ none → (h.getLane r.toNat i).toNat < 2 ^ typeWidth t
  keep : ∀ i, i < 32 → wideType t = false → x i = none → h.getLane r.toNat i = g.getLane r.toNat i

/-- An instruction that only computes: it retires, its strand's generator is unchanged, and its registers are as said. -/
def Computes (i : Instr) (s : State) (regs : Regs → Regs → Prop) : Prop :=
  ∃ t, exec i s = .next t ∧ Retired s t ∧ t.me.q = s.me.q ∧ regs s.me.regs t.me.regs

/-- It writes s[r]. -/
def GivesS (i : Instr) (s : State) (r : BitVec 6) (x : Word) : Prop := Computes i s fun g h => OnlyS g h r x

/-- It writes f[r]. -/
def GivesF (i : Instr) (s : State) (r : BitVec 6) (x : Word) : Prop := Computes i s fun g h => OnlyF g h r x

/-- It writes p[r]. -/
def GivesP (i : Instr) (s : State) (r : BitVec 6) (x : Lane) : Prop := Computes i s fun g h => OnlyP g h r x

/-- It writes the elements of v[r] that are on. -/
def GivesV (i : Instr) (s : State) (t : Nat) (r : BitVec 6) (x : Nat → Option Nat) : Prop :=
  Computes i s fun g h => OnlyV g h t r x

/-! ### Chunks, transfers and traps -/

/-- The acting strand has run one more instruction of its live chunk, which goes on; outside the strand nothing has
changed but the number that a new chunk takes. -/
structure Ran (s t : State) : Prop where
  live    : t.me.live.isSome = true
  count   : t.chunk.count = s.openChunk.chunk.count + 1
  earlier : t.me.chunks.drop 1 = s.openChunk.me.chunks.drop 1
  others  : ∀ k, k ≠ s.cur → t.strand k = s.strand k
  rest    : t = { s with strands := t.strands, nextId := t.nextId }

/-- The live chunk of the acting strand has ended as `c` describes it, with its ticket (R102, R103, R108), and its commit
is owed; outside the strand nothing has changed but the number that a new chunk takes and the step owed. -/
structure Ended (s t : State) (c : Chunk) : Prop where
  chunks : t.me.chunks = { c with sealed := true, ticket := some ⟨if t.me.ordered then t.me.info.ts else s.time, s.cur⟩ } ::
    s.openChunk.me.chunks.drop 1
  owed   : t.due.contains (.commitPoint s.cur) = true
  due    : t.due = s.due ∨ t.due = s.due ++ [.commitPoint s.cur]
  others : ∀ k, k ≠ s.cur → t.strand k = s.strand k
  rest   : t = { s with strands := t.strands, nextId := t.nextId, due := t.due }

/-- The acting strand can fetch the line of a target in a mode: the address is no aperture address, its core holds the
translation, every check of R18 passes; with `tgt` the slot is marked as a branch target (R165, R208). -/
structure Enters (s : State) (sv : Bool) (target : Nat) (tgt : Bool) (e : TlbEntry) : Prop where
  canonical : target < 2 ^ 56
  memory    : bits target 55 48 ≠ 0xFF
  held      : s.tlb.find? (fun e => e.maps (sourceCore (coreOf s.cur)) s.me.lkey (target / 64 * 64)) = some e
  checks    : e.check sv s.me.lkey .fetch = none
  admitted  : s.rangeAdmits (pkgOf s.cur) (e.phys (target / 64 * 64)) 1 = true
  marked    : tgt = true → nbit (fromBytes ((s.currentBytes (storageOf (e.phys (target / 64 * 64))) 64).drop 60)) (target % 8) = true

/-- An instruction transfers to a target: the pc is the target, BRPC the transfer's pc, the registers are as said, and
the chunk goes on (R208). -/
def Transfers (i : Instr) (s : State) (target : Nat) (regs : Regs → Regs → Prop) : Prop :=
  ∃ t, exec i s = .next t ∧ Ran s t ∧ regs s.me.regs t.me.regs ∧
    t.me = { s.me with regs := t.me.regs, chunks := t.me.chunks, pc := BitVec.ofNat 64 target, brpc := s.me.pc }

/-- An instruction raises a trap at its own pc, with a cause and a trap address (R360, R364). -/
def Traps (i : Instr) (s : State) (cause addr : Nat) : Prop := exec i s = .next (s.openChunk.raise cause addr)

/-! ### Memory accesses -/

/-- No window of the acting strand's bank meets a range: by global addresses, nor, where the range lies in the aperture, by the
scratchpad offsets that it selects (R40, R49). -/
def State.clearOfWindows (s : State) (va n : Nat) : Prop :=
  s.windowHit s.cur va n = none ∧
    (bits va 55 48 = 0xFF → ∀ x ∈ (s.bank (bankOf s.cur)).windows, rangesMeet x.2.pool x.2.len (va - 0xFF * 2 ^ 48) n = false)

/-- An access of the acting strand finds its bytes at the storage addresses `locs`, with every check passed: no window of
its bank meets it, and either it lies in memory, where its core holds for every page a translation that passes the checks of
R18 (and has D set, where the access writes), or it lies in the strand's own scratchpad (R40, R41), in no window. A join lies
in memory of class PRIV, HOME or SPAN (R304). -/
def State.lies (s : State) (acc : Access) (join : Bool) (va n : Nat) (locs : List Nat) : Prop :=
  let b := s.bank (bankOf s.cur)
  let off := va - 0xFF * 2 ^ 48
  0 < n ∧ va + n ≤ 2 ^ 56 ∧ s.clearOfWindows va n ∧
  ((bits va 55 48 ≠ 0xFF ∧ bits (va + n - 1) 55 48 ≠ 0xFF ∧ ∃ e : Nat → TlbEntry,
      (∀ a, va ≤ a → a < va + n →
        s.tlb.find? (fun x => x.maps (sourceCore (coreOf s.cur)) s.me.lkey a) = some (e (a / 4096)) ∧
        (e (a / 4096)).check s.me.sv s.me.lkey acc = none ∧
        (acc.writes = true → (e (a / 4096)).d = true) ∧
        (join = true → (e (a / 4096)).cls = 0 ∨ (e (a / 4096)).cls = 2 ∨ (e (a / 4096)).cls = 3)) ∧
      locs = (rangeFrom va n).map fun a => storageOf ((e (a / 4096)).phys a)) ∨
   (0xFF * 2 ^ 48 ≤ va ∧ off + n ≤ 2 ^ 18 ∧ off + n ≤ b.spad ∧ (acc.writes = true → off + n ≤ b.inboxAt) ∧ join = false ∧
      locs = (rangeFrom off n).map fun o => poolKey (bankOf s.cur / 2) (b.kbReg + o)))

/-- No chunk of the acting strand before its live one holds an atomic that is not yet applied (R98). -/
def State.plainBefore (s : State) : Prop := ∀ c ∈ s.openChunk.me.chunks.drop 1, ∀ w ∈ c.writes, w.new = none

/-- The acting strand's memory accesses may issue: no counter is at 62, no LD.ACQ.SY is awaited (R123, R177), and earlier
chunks hold no atomic; no release past its commit point still locks a pool word of its core (R102, R122). -/
def State.mayAccess (s : State) : Prop :=
  s.openChunk.counterFull .ld = false ∧ s.openChunk.counterFull .st = false ∧ s.acquiring = false ∧ s.plainBefore ∧
    ∀ l ∈ (s.core (coreOf s.cur)).poolLocks, ((s.chunkOf l.2.1 l.2.2).any fun c => c.committed) = false

/-- A memory instruction has issued: its strand goes on with its registers as they were, its live chunk counts one more
instruction and its version has gained some writes; memory and the other strands are unchanged (R98, R226). -/
structure Accessed (s t : State) (writes : List VWrite) (ends : Bool) : Prop where
  pc     : t.me.pc = nextPc s.me.pc
  regs   : t.me.regs = s.me.regs
  chunk  : ∃ c, t.me.chunks.head? = some c ∧ c.id = s.openChunk.chunk.id ∧ c.count = s.openChunk.chunk.count + 1 ∧
    c.writes = s.openChunk.chunk.writes ++ writes ∧ c.sealed = ends
  others : ∀ k, k ≠ s.cur → t.strand k = s.strand k
  mem    : t.mem = s.mem

/-- Its operation is the newest on ld, with the places of its bytes and what its completion writes; its destination is
pending, with the operation's number on ld (R177, R179). -/
structure Awaits (s t : State) (reg : Nat) (fin : Fin) (vas : List Nat) (locs : List (List Nat)) : Prop where
  issued : t.me.issued = s.me.issued + 1 ∧ t.me.ldIssued = s.me.ldIssued + 1
  marks  : t.me.marks = s.me.marks ++ (if reg = 0 ∨ reg = 64 then [] else [⟨reg, s.me.ldIssued⟩])
  op     : t.me.ops.length = s.me.ops.length + 1 ∧ ∃ o, t.me.ops.getLast? = some o ∧ o.counter = .ld ∧ o.seq = s.me.issued ∧
    o.chunk = s.openChunk.chunk.id ∧ o.done = false ∧ o.fin = fin ∧ o.vas = vas ∧ o.locs = locs

/-- A reading instruction issues, and nothing else has happened. -/
def Loads (i : Instr) (s : State) (reg : Nat) (fin : Fin) (vas : List Nat) (locs : List (List Nat)) (ends : Bool) : Prop :=
  ∃ t, exec i s = .next t ∧ Accessed s t [] ends ∧ Awaits s t reg fin vas locs

/-- A writing instruction issues: the chunk's version holds its writes, and memory holds none of them yet. -/
def Stores (i : Instr) (s : State) (writes : List VWrite) (ends : Bool) : Prop :=
  ∃ t, exec i s = .next t ∧ Accessed s t writes ends

/-! ### Commit -/

/-- A chunk is the only one of its strand and may commit: it is sealed and has not passed its commit point, its accesses are made,
it has gained every grant and answer, no watch entry that it made is pending, no strand holds the die's token, no other chunk has
locked a pool word that it writes, no instruction of its cluster waits for it, and no wait of R122 applies (R102, R107). -/
structure State.mayCommit (s : State) (k : Nat) (c : Chunk) : Prop where
  strand  : k < strandLimit
  only    : (s.strand k).chunks = [c]
  isSealed : c.sealed = true ∧ c.committed = false
  gained  : c.gaining = true ∧ c.toOwn = [] ∧ c.toConfirm = []
  made    : s.performed k c = true
  plain   : (s.strand k).ordered = false ∧ c.sysWait = false
  watches : ∀ w ∈ (s.strand k).watches, w.chunk = c.id → w.st ≠ .pending
  token   : (s.die (dieOf k)).token = none
  inOrder : s.overtaken k c = false
  locks   : ∀ x ∈ c.poolWords, ∀ y ∈ (s.core x.1).poolLocks, y.1 = x.2 → y.2 = (k, c.id)
  alone   : ∀ e ∈ s.strands, clusterOf e.1 = clusterOf k → ∀ d ∈ e.2.chunks, ∀ p ∈ d.parked, p.1 ≠ noPage

/-- The M words of a window of a bank have been snapshotted and wait at the end of its queue: each byte of each of them stands in a
write of its line with the value that the pool held, no other byte stands in one, and the write-back of the core is owed (R52, R232). -/
def State.snapshotted (s t : State) (bank w : Nat) (x : Window) : Prop :=
  ∃ qs, (t.bank bank).winQueue = (s.bank bank).winQueue ++ qs ∧
    (∀ q ∈ qs, q.window = w ∧ q.va % 64 = 0 ∧ q.lkey = (s.bank bank).lkey ∧
      ∀ y ∈ q.cells, ∃ i ∈ x.dirty, ∃ j, j < 8 ∧ y.1 = x.base + 8 * i + j) ∧
    (∀ i ∈ x.dirty, ∀ j, j < 8 → ∃ q ∈ qs, q.va = (x.base + 8 * i) / 64 * 64 ∧
      tget? q.cells (x.base + 8 * i + j) = some (s.mem.read (s.windowPool bank x (x.base + 8 * i) + j))) ∧
    (x.dirty ≠ [] → t.due.contains (.windowWriteBack (bank / 2)) = true)

/-- The commit point of a chunk that stored nothing and holds one effect. -/
def Commits (s : State) (k : Nat) (c : Chunk) (h : Held) (after : State → Prop) : Prop :=
  s.mayCommit k c → c.writes = [] → c.held = [h] →
    ∃ t, exec (.commitPoint k) s = .next t ∧ (t.strand k).chunks = [] ∧ after t

/-- An instruction holds effects until its commit point and retires, ending its chunk where it says so: no register, no
memory and no other strand changes (AtCommit of R186). -/
def Holds (i : Instr) (s : State) (hs : List Held) (ends : Bool) : Prop :=
  ∃ t c, exec i s = .next t ∧ t.me.pc = nextPc s.me.pc ∧ t.me.regs = s.me.regs ∧ t.mem = s.mem ∧
    (∀ k, k ≠ s.cur → t.strand k = s.strand k) ∧ t.me.chunks.head? = some c ∧ c.id = s.openChunk.chunk.id ∧
    c.count = s.openChunk.chunk.count + 1 ∧ c.sealed = ends ∧ c.held = s.openChunk.chunk.held ++ hs

/-- A command is held until its commit point, counted on cp or tl by the operation that the instruction issues, which retires
and ends its chunk where it says so (R177, R285). -/
def Commands (i : Instr) (s : State) (counter : Counter) (h : Held) (ends : Bool) (after : State → Prop) : Prop :=
  ∃ t c, exec i s = .next t ∧ t.me.pc = nextPc s.me.pc ∧ t.me.regs = s.me.regs ∧ t.mem = s.mem ∧
    (∀ k, k ≠ s.cur → t.strand k = s.strand k) ∧ t.me.chunks.head? = some c ∧ c.id = s.openChunk.chunk.id ∧
    c.count = s.openChunk.chunk.count + 1 ∧ c.sealed = ends ∧ c.held = s.openChunk.chunk.held ++ [h] ∧
    (∃ o, t.me.ops = s.me.ops ++ [o] ∧ o.counter = counter ∧ o.seq = s.me.issued ∧ o.chunk = c.id ∧ o.done = false) ∧ after t

/-! ### Memory at its home -/

/-- No counter value makes the block of an address a candidate of migration (R33), and the address is not in host memory:
an access to it leaves no trace in memory but its own. -/
def State.plainHome (s : State) (a : Nat) : Prop :=
  isHost a = false ∧ ∀ u i, counterOf (localOf a) = some (u, i) → ∀ v, v ≤ 65535 → s.candidateKind (pkgOfAddr a) u v = none

/-- No word of a line waits, is owned elsewhere, has partials, or has a piece of a write or a write of the host's agent still to come
(R74, R94, R126). -/
def State.idleLine (s : State) (line : Nat) : Prop :=
  (s.entry line).tw = [] ∧ (s.entry line).sole = [] ∧ (s.entry line).locks = [] ∧ (s.entry line).split = [] ∧
    (s.entry line).posting = [] ∧ ∀ i, (s.entry line).state i = .u ∨ (s.entry line).state i = .s

/-- A packet is in flight after a step, and its own step is owed. -/
def State.carries (t : State) (kind : PKind) (p : Packet → Prop) : Prop :=
  ∃ q ∈ t.net, q.kind = kind ∧ t.due.contains (q.kind.event q.id) = true ∧ p q

/-- An access of an engine or of the host, known by its key, has no earlier request or access for a line before it (R77). -/
def State.firstAt (s : State) (line : Nat) (key : List Nat) : Prop := s.placedAfter line (rangeFrom 0 8) key = false

/-- An agent of the machine may access bytes of one page for a launch: they lie in memory at `a` through an entry that its
source holds and that passes the checks of R18 (with D set, where the access writes), their package answers, no word of
their lines waits, is owned elsewhere or is held by the host, no earlier access of their lines waits, and no kill has cut the
agent's job (R28). -/
structure State.agentMay (s : State) (x : EngCtx) (acc : Access) (va n a : Nat) (e : TlbEntry) : Prop where
  range    : 0 < n ∧ va + n ≤ 2 ^ 56 ∧ bits va 55 48 ≠ 0xFF ∧ bits (va + n - 1) 55 48 ≠ 0xFF ∧ va / 4096 = (va + n - 1) / 4096
  held     : s.tlb.find? (fun e => e.maps x.source x.lkey va) = some e
  place    : a = storageOf (e.phys va) ∧ a % 4096 = va % 4096
  checks   : e.check x.sv x.lkey acc = none ∧ (acc.writes = true → e.d = true)
  admitted : s.rangeAdmits (sourcePkg x.source) (e.phys va) acc.rangeBit = true ∧ s.regionAt (e.phys va) ≠ .reserved
  answers  : (s.pkg (pkgOfAddr a)).down = false ∧ (s.pkg (pkgOfAddr a)).hostCopies = []
  idle     : ∀ l, a / 64 ≤ l → l ≤ (a + n - 1) / 64 → s.idleLine l ∧ s.plainHome (l * 64) ∧ s.firstAt l x.key
  goesOn   : s.isCut x.lkey x.cmd = false

/-- A range of memory that an agent of the machine may access at its home now, under the key of its accesses: its package answers,
the host holds no copy, no word of its lines waits or is owned elsewhere, and no earlier access of them waits. -/
def State.plainRange (s : State) (key : List Nat) (a n : Nat) : Prop :=
  0 < n ∧ (s.pkg (pkgOfAddr a)).down = false ∧ (s.pkg (pkgOfAddr a)).hostCopies = [] ∧
    ∀ l, a / 64 ≤ l → l ≤ (a + n - 1) / 64 →
      s.idleLine l ∧ s.plainHome (l * 64) ∧ s.firstAt l key ∧ pkgOfAddr (l * 64) = pkgOfAddr a

/-- An engine write of bytes to one line of memory that is not the host's has been made: the bytes of its first 32-byte piece are
at their home, those after it travel as a packet of pieces, and nothing else of memory has changed (R114, R125, R126). -/
def State.wrote (s t : State) (a : Nat) (bs : List Byte) : Prop :=
  (∀ x, t.mem.read x = if a ≤ x ∧ x < a + bs.length ∧ x / 32 = a / 32 then bs.getD (x - a) 0 else s.mem.read x) ∧
    ((a + bs.length - 1) / 32 ≠ a / 32 →
      t.carries .piece fun q => q.cells = (cellsAt a bs).filter fun c => decide (c.1 / 32 ≠ a / 32))

/-! ### Engines -/

/-- The mailbox that an instruction names may be written: s0 names none; another names an aligned word of memory through a
translation that the core holds, with the checks of a store passed and D set, or of the strand's own scratchpad outside every
window (R285). -/
def State.mailboxFits (s : State) (o : Ops) : Prop :=
  let a := (s.s o.dst).toNat
  let b := s.bank (bankOf s.cur)
  let off := a - 0xFF * 2 ^ 48
  o.dst = 0 ∨ (a % 8 = 0 ∧
    ((a < 0xFF * 2 ^ 48 ∧ ∃ e, s.tlb.find? (fun e => e.maps (sourceCore (coreOf s.cur)) s.me.lkey a) = some e ∧
        e.check s.me.sv s.me.lkey .store = none ∧ e.d = true ∧ s.rangeAdmits (pkgOf s.cur) (e.phys a) 2 = true) ∨
     (0xFF * 2 ^ 48 ≤ a ∧ off + 8 ≤ 2 ^ 18 ∧ off + 8 ≤ b.spad ∧ off + 8 ≤ b.inboxAt ∧
        ∀ x ∈ b.windows, rangesMeet x.2.pool x.2.len off 8 = false)))

/-- An instruction acts on its cluster at issue and retires: its registers, memory, the other strands and the other clusters
are unchanged. -/
def Acts (i : Instr) (s : State) (after : State → Prop) : Prop :=
  ∃ t, exec i s = .next t ∧ t.me.pc = nextPc s.me.pc ∧ t.me.regs = s.me.regs ∧ t.mem = s.mem ∧
    (∀ k, k ≠ s.cur → t.strand k = s.strand k) ∧ (∀ j, j ≠ clusterOf s.cur → t.cluster j = s.cluster j) ∧ after t

/-- Some translation lets an agent of the machine access bytes of one page at `a` now. -/
def State.placed (s : State) (x : EngCtx) (acc : Access) (va n a : Nat) : Prop := ∃ e, s.agentMay x acc va n a e

/-- A step reads the next atomic piece of range `r` of an agent's job, which lies from `va` on, and is owed again; memory is unchanged
(R114, R126). -/
def State.readsOn (s : State) (i : Instr) (x : EngCtx) (r va n : Nat) : Prop :=
  let done := s.jobBytes x.cmd r
  let k := min (n - done.length) (32 - (va + done.length) % 32)
  done.length < n → va + n ≤ 0xFF * 2 ^ 48 → ∀ a, s.placed x .engineRead (va + done.length) k a →
    ∃ t, exec i s = .next t ∧ t.mem = s.mem ∧ t.jobBytes x.cmd r = done ++ (rangeFrom a k).map s.mem.read ∧
      t.due.contains i = true

/-- A step writes the next part of some bytes, range `r` of an agent's job, which lies in one line, and is owed again (R114). -/
def State.writesOn (s : State) (i : Instr) (x : EngCtx) (r va : Nat) (bs : List Byte) : Prop :=
  let done := s.jobBytes x.cmd r
  let k := min (bs.length - done.length) (64 - (va + done.length) % 64)
  done.length < bs.length → va + bs.length ≤ 0xFF * 2 ^ 48 → ∀ a, s.placed x .engineWrite (va + done.length) k a →
    ∃ t, exec i s = .next t ∧ s.wrote t a ((bs.drop done.length).take k) ∧
      t.jobBytes x.cmd r = done ++ (bs.drop done.length).take k ∧ t.due.contains i = true

/-- Range `r` of an agent's job has been read, or written, in full. -/
def State.complete (s : State) (x : EngCtx) (r n : Nat) : Prop := n ≤ (s.jobBytes x.cmd r).length

/-- A message to a member core is in flight after a step, and its arrival is owed. -/
def State.posted (t : State) (lkey target core chan : Nat) (payload : List Byte) : Prop :=
  ∃ q ∈ t.msgs, q.lkey = lkey ∧ q.target = target ∧ q.dst = some core ∧ q.chan = chan ∧ q.payload = payload ∧
    t.due.contains (.messageArrival q.id) = true

end Sys2Proof.Machine
end

