-- ==== Sys2Proof/Certificates/Slice0/Obligations.lean ====
section
/-!
DEFINITION. The statements for the provers: what the rules of spec/ say that the machine does.
-/

open Sys2Proof Sys2Proof.Machine

/-! ### Encoding, reset and the step -/

/-- For every well-formed instruction that has a word, at every value of its guard, its register fields, its MOD and
its IMM that the encoding admits: decoding the word gives exactly that instruction. No bit of an encoding is dropped,
and the words of two instructions are never taken for each other. (R167, R170, R171, R187, R188, R189, R190, R191) -/
def Obligations.DecodeOfEncode : Prop :=
  ∀ (i : Instr) (w : BitVec 96), i.wellFormed = true → encode i = some w → decode w = .instr i

/-- For every 96-bit word that the decoder accepts, the instruction it gives is well-formed, has a word, and that word
is the one decoded: each instruction has one word, and the decoder looks at every bit. A word whose opcode is reserved
in the map of its class is no instruction. (R167, R170, R171, R187, R188, R189, R190, R191) -/
def Obligations.EncodeOfDecode : Prop :=
  ∀ (w : BitVec 96),
    (∀ i, decode w = .instr i → i.wellFormed = true ∧ encode i = some w) ∧
    (opcodeOf w ∈ [0x00, 0x1D, 0x1E, 0x1F, 0x3F, 0x7F, 0x81, 0xBF, 0xFA, 0xFF] → decode w = .reject .reservedOpcode)

/-- Twelve words, written out field by field from the formats and the opcode map, decode to the instructions they
stand for: ADD s7, s5, s6; CMP.LT p1, s7, 64; FDIV.F32 f3, f1, f2; LOOP s4, -5; WAIT 0, 63, 63, 63; VCMP.LT.F32 p2,
v0, v1; LD.W s5, [s1 + s21·8 + 48]; RED.FMAX.W; SLOT.CLM p1, 0, 2; HSET 3, s5; CBEGIN s10; EXUPD s9, s3. (R167, R187,
R188, R189, R190) -/
def Obligations.DecodedWords : Prop :=
  let r (dst sa sb sc : BitVec 6) (md : BitVec 12) (imm : BitVec 48) : Ops := ⟨⟨false, 0⟩, dst, sa, sb, sc, md, imm⟩
  decode 0x0101C5180000000000000000#96 = .instr (.add (r 7 5 6 0 0 0)) ∧
  decode 0x160047000880000000000040#96 = .instr (.cmp (r 1 7 0 0 0x880 64)) ∧
  decode 0x2400C1080580000000000000#96 = .instr (.fdiv (r 3 1 2 0 0x580 0)) ∧
  decode 0x310100000000FFFFFFFFFFFB#96 = .instr (.loop (r 4 0 0 0 0 0xFFFFFFFFFFFB)) ∧
  decode 0x320000000000000000FFFFC0#96 = .instr (.wait (r 0 0 0 0 0 0xFFFFC0)) ∧
  decode 0x4D0080040A10000000000000#96 = .instr (.vcmp (r 2 0 1 0 0xA10 0)) ∧
  decode 0xC00141540803000000000030#96 = .instr (.ld (r 5 1 21 0 0x803 48)) ∧
  decode 0xE20002005AC0000000000000#96 = .instr (.red (r 0 2 0 5 0xAC0 0)) ∧
  decode 0xCE0040000000000000000200#96 = .instr (.slotClm (r 1 0 0 0 0 0x200)) ∧
  decode 0xE60005000000000000000003#96 = .instr (.hset (r 0 5 0 0 0 3)) ∧
  decode 0xED0280000000000000000000#96 = .instr (.cbegin (r 10 0 0 0 0 0)) ∧
  decode 0xF80243000000000000000000#96 = .instr (.exupd (r 9 3 0 0 0 0))

/-- In the state after reset no strand has a run, a chunk, an operation or a pending register, and is in user mode; no
launch, translation, packet or message exists; no step is owed; memory is in canonical form and reads as the model's
value of an unwritten byte; and s0 reads zero and p0 reads ones. That registers which the spec gives no reset value
read 0, and that an unwritten byte reads 0, are the model's own choices (log 2, log 3). (R142, R174, R177, R19) -/
def Obligations.ResetValues : Prop :=
  State.reset.sound ∧ State.reset.due = [] ∧ State.reset.launches = [] ∧ State.reset.tlb = [] ∧ State.reset.net = [] ∧
    State.reset.msgs = [] ∧ State.reset.cmds = [] ∧
    ∀ k a, (State.reset.strand k).run = .free ∧ (State.reset.strand k).chunks = [] ∧ (State.reset.strand k).ops = [] ∧
      (State.reset.strand k).marks = [] ∧ (State.reset.strand k).sv = false ∧ (State.reset.strand k).tf = false ∧
      (State.reset.strand k).regs.getS 0 = 0 ∧ (State.reset.strand k).regs.getP 0 = 0xFFFFFFFF#32 ∧
      State.reset.mem.read a = unwritten

/-- A strand moves when it heads the turns, or when nothing is owed and no turn is chosen and it is the strand that
acts. Where it runs, its chunk is not full, its pc is canonical and names a slot of a line, its line can be fetched,
the line's parity holds, its line word is legal and a couple that begins at the slot is legal: if the word of the slot
decodes to an instruction, the step is that instruction's execution, in the state whose clock has moved on, with the
chunk open, the translation noted as used and no line noted for a second fetch. Where a step is owed and no turn is
chosen, the step is the execution of the oldest owed one; a step of the outside world that heads the turns is
executed. Who moves next, in turns, owed steps and the strand that acts, is the model's choice (log 4, DESIGN CHOICE),
and so is that the line fetched has the current bytes of memory (log 12, DEDUCED). (R161, R163, R164, R165, R166, R191, R192, R18) -/
def Obligations.StepRunsDecoded : Prop :=
  ∀ (s : State) (rest : List Turn) (i : Instr),
    (∀ (k : Nat) (e : TlbEntry) (t : State), k < strandLimit →
      (s.turns = .strand k :: rest ∧ t = { s.tickOn with turns := rest, cur := k } ∨
        s.turns = [] ∧ s.due = [] ∧ k = s.cur ∧ t = s.tickOn) →
      let pc := t.me.pc.toNat
      let line := t.currentBytes (storageOf (e.phys (pc / 64 * 64))) 64
      t.atLimit = false → t.stopped = false → Enters t t.me.sv pc false e → pc / 8 % 8 = 0 → pc % 8 < 5 →
      parityHolds line = true → lineWordLegal (lineWord line) = true →
      (pairBit (lineWord line) (pc % 8) = true → coupleLegal (slotWord line (pc % 8)) (slotWord line (pc % 8 + 1)) = true) →
      decode (slotWord line (pc % 8)) = .instr i →
      step s = exec i (t.openChunk.setChunk fun c => { c with used := (e.vpage, e.pages) :: c.used }).fetched) ∧
    (∀ due, s.turns = [] → s.due = i :: due → step s = exec i { s.tickOn with due := due }) ∧
    (s.turns = .input i :: rest → encode i = none → step s = exec i { s.tickOn with turns := rest })

/-- For every state in which the acting strand moves and runs: a pc at or above 2^56 raises the trap non-canonical
address; a canonical one with a nonzero bit 5:3 or a slot of 5 to 7 raises the trap illegal PC, each with the pc as
its address; where its line can be fetched, a line whose parity does not hold is discarded and fetched once more by
the strand's next step, and if it is that second fetch it is a machine check at the line's address, and one whose
parity holds raises the trap illegal instruction, with the pc as its address, when the line word is illegal, when an
illegal couple begins at the slot, or when the word decodes to no instruction. A strand whose live chunk has 512
instructions takes the step that ends the chunk and fetches nothing. (R161, R163, R165, R166, R191, R192, R97, R364)
-/
def Obligations.FetchIsChecked : Prop :=
  ∀ (s : State) (e : TlbEntry), s.turns = [] → s.due = [] → s.cur < strandLimit →
    let t := s.tickOn
    let pc := t.me.pc.toNat
    let a := storageOf (e.phys (pc / 64 * 64))
    let line := t.currentBytes a 64
    let u := t.openChunk.setChunk fun c => { c with used := (e.vpage, e.pages) :: c.used }
    (t.atLimit = true → step s = exec (.instructionLimitChunkEnd s.cur) t) ∧
    (t.atLimit = false → t.stopped = false →
      (2 ^ 56 ≤ pc → step s = .next (t.openChunk.raise 0x05 pc)) ∧
      (pc < 2 ^ 56 → (pc / 8 % 8 ≠ 0 ∨ 5 ≤ pc % 8) → step s = .next (t.openChunk.raise 0x02 pc)) ∧
      (Enters t t.me.sv pc false e → pc / 8 % 8 = 0 → pc % 8 < 5 →
        (parityHolds line = false → t.me.refetch ≠ some (pc / 64) →
          step s = .next (u.setMe fun x => { x with refetch := some (pc / 64) })) ∧
        (parityHolds line = false → t.me.refetch = some (pc / 64) →
          step s = .next (u.fetched.machineCheck s.cur (pc / 64 * 64) t.me.pc true)) ∧
        (parityHolds line = true →
          (lineWordLegal (lineWord line) = false ∨
            (pairBit (lineWord line) (pc % 8) = true ∧ coupleLegal (slotWord line (pc % 8)) (slotWord line (pc % 8 + 1)) = false) ∨
            ∃ r, decode (slotWord line (pc % 8)) = .reject r) →
          step s = .next (u.fetched.raise 0x01 pc))))

/-- For every state whose memories are in canonical form (storage addresses strictly rising, and no entry that holds
what an unlisted byte reads as), if a step answers a next state, the memories of that state are in canonical form:
over every instruction, every trap and every step of the other agents. (R9, R36, R273, R274) -/
def Obligations.MemoryCanonicalKept : Prop :=
  ∀ (s t : State), s.sound → step s = .next t → t.sound

/-! ### Scalar instructions -/

/-- For every state in which a scalar integer instruction may issue (its guard is on, none of its registers is
pending), ADD, SUB, MUL, MULH, AND, OR, XOR and ANDN answer a next state in which s[DST] holds the result of the table
on 64-bit patterns (a write of s0 is discarded), the pc is the next slot, the live chunk counts one more instruction,
and no other register, strand, byte of memory or part of the state has changed. (R195) -/
def Obligations.IntegerSumsProductsLogic : Prop :=
  ∀ (o : Ops) (s : State), s.issues o.g (intRegs o) →
    let a := s.s o.sa
    let b := s.operandB o
    GivesS (.add o) s o.dst (BitVec.ofNat 64 (a.toNat + b.toNat)) ∧
    GivesS (.sub o) s o.dst (BitVec.ofInt 64 (a.toNat - b.toNat)) ∧
    GivesS (.mul o) s o.dst (BitVec.ofNat 64 (a.toNat * b.toNat)) ∧
    GivesS (.mulh o) s o.dst
      (if o.modBit 58 then BitVec.ofNat 64 (a.toNat * b.toNat / 2 ^ 64) else BitVec.ofInt 64 (a.toInt * b.toInt / 2 ^ 64)) ∧
    GivesS (.and o) s o.dst (a &&& b) ∧
    GivesS (.or o) s o.dst (a ||| b) ∧
    GivesS (.xor o) s o.dst (a ^^^ b) ∧
    GivesS (.andn o) s o.dst (a &&& ~~~b)

/-- For every state in which the instruction may issue, DIV writes q mod 2^64 and REM writes m mod 2^64 to s[DST],
with q and m as in the pseudocode: signed, -1 and the dividend for a zero divisor, -2^63 and 0 for the overflow, else
the quotient truncated toward zero and the dividend less its product with the divisor; unsigned, 2^64 - 1 and the
dividend for a zero divisor, else quotient and remainder of the integers. Nothing else changes but the pc and the
count of the chunk. (R196) -/
def Obligations.DivisionRoundsTowardZero : Prop :=
  ∀ (o : Ops) (s : State), s.issues o.g (intRegs o) →
    let a := s.s o.sa
    let b := s.operandB o
    let q : Int :=
      if o.modBit 58 then (if b = 0 then 2 ^ 64 - 1 else a.toNat / b.toNat)
      else if b = 0 then -1
      else if a.toInt = -2 ^ 63 ∧ b.toInt = -1 then -2 ^ 63
      else a.toInt.tdiv b.toInt
    let m : Int :=
      if o.modBit 58 then (if b = 0 then a.toNat else a.toNat % b.toNat)
      else if b = 0 then a.toInt
      else if a.toInt = -2 ^ 63 ∧ b.toInt = -1 then 0
      else a.toInt - q * b.toInt
    GivesS (.div o) s o.dst (BitVec.ofInt 64 q) ∧ GivesS (.rem o) s o.dst (BitVec.ofInt 64 m)

/-- For every state in which the instruction may issue, with n the low six bits of b: SHL writes (a times 2^n) mod
2^64, SHR the pattern a divided by 2^n, SRA the signed integer a divided by 2^n and rounded down, and ROT the pattern
a rotated left by n places. Nothing else changes but the pc and the count of the chunk. (R195) -/
def Obligations.ShiftsUseSixBits : Prop :=
  ∀ (o : Ops) (s : State), s.issues o.g (intRegs o) →
    let a := s.s o.sa
    let n := (s.operandB o).toNat % 64
    GivesS (.shl o) s o.dst (BitVec.ofNat 64 (a.toNat * 2 ^ n)) ∧
    GivesS (.shr o) s o.dst (BitVec.ofNat 64 (a.toNat / 2 ^ n)) ∧
    GivesS (.sra o) s o.dst (BitVec.ofInt 64 (a.toInt / 2 ^ n)) ∧
    GivesS (.rot o) s o.dst (BitVec.ofNat 64 (a.toNat * 2 ^ n + a.toNat / 2 ^ (64 - n)))

/-- For every state in which the instruction may issue, CLZ and CTZ write the number of zero bits above the highest
and below the lowest one bit of a (64 when a is 0), POPC the number of one bits, MIN and MAX the lesser and the
greater of the signed integers, and MINZ and MAXZ those of the unsigned ones. Nothing else changes but the pc and the
count of the chunk. (R195) -/
def Obligations.BitCountsAndExtremes : Prop :=
  ∀ (o : Ops) (s : State),
    let a := s.s o.sa
    let b := s.operandB o
    (s.issues o.g [regS o.dst.toNat, regS o.sa.toNat] →
      (∃ c : Nat, c ≤ 64 ∧ (∀ i, 64 - c ≤ i → a.getLsbD i = false) ∧ (c < 64 → a.getLsbD (63 - c) = true) ∧
        GivesS (.clz o) s o.dst (BitVec.ofNat 64 c)) ∧
      (∃ c : Nat, c ≤ 64 ∧ (∀ i, i < c → a.getLsbD i = false) ∧ (c < 64 → a.getLsbD c = true) ∧
        GivesS (.ctz o) s o.dst (BitVec.ofNat 64 c)) ∧
      GivesS (.popc o) s o.dst (BitVec.ofNat 64 ((List.range 64).filter a.getLsbD).length)) ∧
    (s.issues o.g (intRegs o) →
      GivesS (.min o) s o.dst (BitVec.ofInt 64 (min a.toInt b.toInt)) ∧
      GivesS (.max o) s o.dst (BitVec.ofInt 64 (max a.toInt b.toInt)) ∧
      GivesS (.minz o) s o.dst (BitVec.ofNat 64 (min a.toNat b.toNat)) ∧
      GivesS (.maxz o) s o.dst (BitVec.ofNat 64 (max a.toNat b.toNat)))

/-- For every state in which the instruction may issue, a legal CMP writes 0xFFFFFFFF to p[DST] when the condition of
its code holds between a and b and 0 when it does not (a write of p0 is discarded), and SEL writes a to s[DST] when
bit 0 of p[SC] is 1, else b. Nothing else changes but the pc and the count of the chunk. (R197, R198) -/
def Obligations.CompareAndSelect : Prop :=
  ∀ (o : Ops) (s : State),
    let a := s.s o.sa
    let b := s.operandB o
    ((Instr.cmp o).wellFormed = true →
      s.issues o.g ([regP o.dst.toNat, regS o.sa.toNat] ++ (if o.iFlag then [] else [regS o.sb.toNat])) →
      let code := o.modBits 57 54
      let holds : Prop :=
        (code = 0 ∧ a = b) ∨ (code = 1 ∧ a ≠ b) ∨ (code = 2 ∧ a.toInt < b.toInt) ∨ (code = 3 ∧ a.toInt ≤ b.toInt) ∨
        (code = 4 ∧ a.toInt > b.toInt) ∨ (code = 5 ∧ a.toInt ≥ b.toInt) ∨ (code = 6 ∧ a.toNat < b.toNat) ∨
        (code = 7 ∧ a.toNat ≤ b.toNat) ∨ (code = 8 ∧ a.toNat > b.toNat) ∨ (code = 9 ∧ a.toNat ≥ b.toNat)
      (holds → GivesP (.cmp o) s o.dst 0xFFFFFFFF) ∧ (¬holds → GivesP (.cmp o) s o.dst 0)) ∧
    (s.issues o.g (intRegs o ++ [regP o.sc.toNat]) →
      GivesS (.sel o) s o.dst (if (s.me.regs.getP o.sc.toNat).getLsbD 0 then a else b))

/-- For every state in which the instruction may issue, with pos = b[5:0] and len the lesser of b[12:6] and 64: BFX
writes the field f of a, whose bits above a[63] read as zero, with bits len and up set when X is 1, len is not 0 and
f[len-1] is 1; bit i of BFI's result is bit i - pos of s[SC] where i lies in the field, and bit i of a elsewhere.
Nothing else changes but the pc and the count of the chunk. (R199) -/
def Obligations.BitFieldsByPositionAndLength : Prop :=
  ∀ (o : Ops) (s : State),
    let a := s.s o.sa
    let b := s.operandB o
    let pos := b.toNat % 64
    let len := min (b.toNat / 64 % 128) 64
    (s.issues o.g (intRegs o) →
      ∃ r : Word, GivesS (.bfx o) s o.dst r ∧
        ∀ i, i < 64 → r.getLsbD i =
          (if i < len then a.getLsbD (pos + i) else o.modBit 58 && decide (0 < len) && a.getLsbD (pos + len - 1))) ∧
    (s.issues o.g (intRegs o ++ [regS o.sc.toNat]) →
      ∃ r : Word, GivesS (.bfi o) s o.dst r ∧
        ∀ i, i < 64 → r.getLsbD i = (if pos ≤ i ∧ i < pos + len then (s.s o.sc).getLsbD (i - pos) else a.getLsbD i))

/-- For every state in which the instruction may issue: MOVI writes IMM64 to s[DST]; LEA writes (s[SA] + s[SB] times
2^SCALE + IMM) mod 2^64 when that is canonical, and raises the trap non-canonical address with that address when it is
not; NOP leaves every register as it was. (R200, R201) -/
def Obligations.MoviLeaNop : Prop :=
  ∀ (o : Ops) (g : Guard) (dst : BitVec 6) (imm : Word) (s : State),
    (s.issues g [regS dst.toNat] → GivesS (.movi g dst imm) s dst imm) ∧
    (s.issues o.g ([regS o.dst.toNat] ++ addrRegs o) →
      let ea := ((s.s o.sa).toNat + (s.s o.sb).toNat * 2 ^ o.scale + (o.imm.signExtend 64).toNat) % 2 ^ 64
      (ea < 2 ^ 56 → GivesS (.lea o) s o.dst (BitVec.ofNat 64 ea)) ∧
      (2 ^ 56 ≤ ea → exec (.lea o) s = .next (s.openChunk.raise 0x05 ea))) ∧
    (s.issues o.g [] → Computes (.nop o) s fun g h => h = g)

/-- For every state in which the instruction may issue, with x, y and z the values that the low bits of f[SA], f[SB]
and f[SC] stand for in TYPE: f[DST] takes the code of TYPE nearest, ties to even, to x + y, x - y, x times y, x times
y + z, x divided by y or the root of x, zero-extended. Nothing else changes but the pc and the count of the chunk.
(R202, R203) -/
def Obligations.FloatArithmeticRoundsOnce : Prop :=
  ∀ (o : Ops) (s : State),
    let f := fmtOf o.fType
    let val (r : BitVec 6) : Machine.Num := f.value ((s.f r).toNat % 2 ^ typeWidth o.fType)
    let two := [regF o.dst.toNat, regF o.sa.toNat, regF o.sb.toNat]
    let code (x : Machine.Num) : Word := BitVec.ofNat 64 (roundNum f .rne 0 false x)
    (s.issues o.g two →
      GivesF (.fadd o) s o.dst (code (addNum (val o.sa) (val o.sb))) ∧
      GivesF (.fsub o) s o.dst (code (addNum (val o.sa) (val o.sb).negate)) ∧
      GivesF (.fmul o) s o.dst (code (mulNum (val o.sa) (val o.sb))) ∧
      GivesF (.fdiv o) s o.dst (code (divNum (val o.sa) (val o.sb)))) ∧
    (s.issues o.g (two ++ [regF o.sc.toNat]) →
      GivesF (.ffma o) s o.dst (code (addNum (mulNum (val o.sa) (val o.sb)) (val o.sc)))) ∧
    (s.issues o.g [regF o.dst.toNat, regF o.sa.toNat] → GivesF (.fsqrt o) s o.dst (code (sqrtNum (val o.sa))))

/-- For every state in which the instruction may issue, with a and b the low bits of f[SA] and f[SB] in TYPE: FMIN and
FMAX write some code r with: the canonical quiet NaN if both are NaN, the other operand if one is NaN; else one of the
operands, of which neither is less (for FMIN) or greater (for FMAX) than r; and where the operands are equal but of
different sign, FMIN's r is negative and FMAX's is not. Nothing else changes but the pc and the count of the chunk.
(R204) -/
def Obligations.FloatExtremesPreferNumbers : Prop :=
  ∀ (o : Ops) (s : State), s.issues o.g [regF o.dst.toNat, regF o.sa.toNat, regF o.sb.toNat] → 8 ≤ o.fType ∧ o.fType ≤ 11 →
    let f := fmtOf o.fType
    let a := (s.f o.sa).toNat % 2 ^ typeWidth o.fType
    let b := (s.f o.sb).toNat % 2 ^ typeWidth o.fType
    let x := f.value a
    let y := f.value b
    ∃ lo hi : Nat, GivesF (.fmin o) s o.dst (BitVec.ofNat 64 lo) ∧ GivesF (.fmax o) s o.dst (BitVec.ofNat 64 hi) ∧
      (x.isNan = true → y.isNan = true → lo = f.quietNan ∧ hi = f.quietNan) ∧
      (x.isNan = true → y.isNan = false → lo = b ∧ hi = b) ∧
      (x.isNan = false → y.isNan = true → lo = a ∧ hi = a) ∧
      (x.isNan = false → y.isNan = false →
        (lo = a ∨ lo = b) ∧ x.lt (f.value lo) = false ∧ y.lt (f.value lo) = false ∧
        (hi = a ∨ hi = b) ∧ (f.value hi).lt x = false ∧ (f.value hi).lt y = false ∧
        (x.eqv y = true → x.sign ≠ y.sign → (f.value lo).sign = true ∧ (f.value hi).sign = false))

/-- For every state in which the instruction may issue, a legal FCMP writes 0xFFFFFFFF to p[DST] when the condition of
its code holds between the values of TYPE, else 0, and with a NaN operand only NE and UN hold; FMOV with DIR 0 copies
f[SA] to f[DST], with DIR 1 s[SA] to f[DST] and with DIR 2 f[SA] to s[DST], all 64 bits unchanged. Nothing else
changes but the pc and the count of the chunk. (R205, R207) -/
def Obligations.FloatCompareAndMove : Prop :=
  ∀ (o : Ops) (s : State),
    let f := fmtOf o.fType
    let x := f.value ((s.f o.sa).toNat % 2 ^ typeWidth o.fType)
    let y := f.value ((s.f o.sb).toNat % 2 ^ typeWidth o.fType)
    let c := o.modBits 50 48
    (s.issues o.g [regP o.dst.toNat, regF o.sa.toNat, regF o.sb.toNat] → c < 7 →
      let holds : Prop :=
        if x.isNan = true ∨ y.isNan = true then c = 1 ∨ c = 6
        else
          (c = 0 ∧ x.eqv y = true) ∨ (c = 1 ∧ x.eqv y = false) ∨ (c = 2 ∧ x.lt y = true) ∨
          (c = 3 ∧ (x.lt y = true ∨ x.eqv y = true)) ∨ (c = 4 ∧ y.lt x = true) ∨ (c = 5 ∧ (y.lt x = true ∨ x.eqv y = true))
      (holds → GivesP (.fcmp o) s o.dst 0xFFFFFFFF) ∧ (¬holds → GivesP (.fcmp o) s o.dst 0)) ∧
    (c = 0 → s.issues o.g [regF o.dst.toNat, regF o.sa.toNat] → GivesF (.fmov o) s o.dst (s.f o.sa)) ∧
    (c = 1 → s.issues o.g [regF o.dst.toNat, regS o.sa.toNat] → GivesF (.fmov o) s o.dst (s.s o.sa)) ∧
    (c = 2 → s.issues o.g [regS o.dst.toNat, regF o.sa.toNat] → GivesS (.fmov o) s o.dst (s.f o.sa))

/-- For every state in which a legal FCVT may issue: the register of its destination type takes the result of R206,
computed from the value of the source register in its type; an integer result fills its register as 64 bits, clamped
to the range of its type and 0 for a NaN; the generator of the strand advances once when the mode is SR, and else
stays; nothing else changes but the pc and the count of the chunk. (R206, R246) -/
def Obligations.FloatConversion : Prop :=
  ∀ (o : Ops) (s : State), (Instr.fcvt o).wellFormed = true →
    let fpDst : Bool := 8 ≤ o.fType
    let fpSrc : Bool := 8 ≤ o.fSType
    s.issues o.g [if fpDst then regF o.dst.toNat else regS o.dst.toNat, if fpSrc then regF o.sa.toNat else regS o.sa.toNat] →
    let mode := rmodeOf (o.modBits 50 48)
    let raw := (if fpSrc then (s.f o.sa).toNat else (s.s o.sa).toNat) % 2 ^ typeWidth o.fSType
    let x : Machine.Num := if fpSrc then (fmtOf o.fSType).value raw else exactOfInt (intOf o.fSType raw)
    let q := if mode = .sr then nextQ s.me.q else s.me.q
    let g := q.toNat % 65536
    ∃ t, exec (.fcvt o) s = .next t ∧ Retired s t ∧ t.me.q = q ∧
      if fpDst then
        OnlyF s.me.regs t.me.regs o.dst (BitVec.ofNat 64 (roundNum (fmtOf o.fType) mode g (o.modBit 59) x))
      else
        OnlyS s.me.regs t.me.regs o.dst (BitVec.ofInt 64
          (match x with
            | .nan => 0
            | .inf neg => if neg then intMin o.fType else intMax o.fType
            | .fin e => max (intMin o.fType) (min (roundToInt mode g e) (intMax o.fType))))

/-! ### Control, chunks and traps -/

/-- For every state in which the instruction may issue and its target can be entered (canonical, for a register target
a slot of a line, fetchable, and marked as a branch target): BR and CALL go to the slot IMM slots after the pc, J to
the region's line and slot in IMM, JR, RET and CALL.REG to the PC in s[SA] as it was before the link was written,
LOOP, when s[DST] less 1 is not zero, to the slot IMM slots after the pc; the pc becomes the target and BRPC the
transfer's pc; CALL and CALL.REG write the next slot's PC to s[DST], LOOP the counter less 1, and no other register
changes; the chunk goes on, counting one more instruction, and nothing outside the strand changes. A LOOP whose
counter becomes zero falls through to the next slot. (R208, R164, R165) -/
def Obligations.TransfersReachTheirTargets : Prop :=
  ∀ (o : Ops) (s : State) (e : TlbEntry),
    let target (i : Word) : Option Word := slotAdd s.me.pc (i.toInt)
    let off := o.imm.signExtend 64
    let reg := (s.s o.sa).toNat
    let region := s.me.pc.toNat / 2 ^ 51 % 2 ^ 13 * 2 ^ 51 + o.imm.toNat / 8 * 64 + o.imm.toNat % 8
    (∀ x, target off = some x → Enters s s.me.sv x.toNat true e →
      (s.issues o.g [] → Transfers (.br o) s x.toNat (fun g h => h = g)) ∧
      (s.issues o.g [regS o.dst.toNat] → ∀ link, slotAdd s.me.pc 1 = some link →
        Transfers (.call o) s x.toNat (fun g h => OnlyS g h o.dst link)) ∧
      (s.issues o.g [regS o.dst.toNat] → s.s o.dst - 1 ≠ 0 →
        Transfers (.loop o) s x.toNat (fun g h => OnlyS g h o.dst (s.s o.dst - 1)))) ∧
    (s.issues o.g [] → Enters s s.me.sv region true e → Transfers (.j o) s region (fun g h => h = g)) ∧
    (reg / 8 % 8 = 0 → reg % 8 < 5 → Enters s s.me.sv reg true e →
      (s.issues o.g [regS o.sa.toNat] →
        Transfers (.jr o) s reg (fun g h => h = g) ∧ Transfers (.ret o) s reg (fun g h => h = g)) ∧
      (s.issues o.g [regS o.dst.toNat, regS o.sa.toNat] → ∀ link, slotAdd s.me.pc 1 = some link →
        Transfers (.callReg o) s reg (fun g h => OnlyS g h o.dst link))) ∧
    (s.issues o.g [regS o.dst.toNat] → s.s o.dst = 1 → GivesS (.loop o) s o.dst 0)

/-- For every state in which JR, RET or CALL.REG may issue: a target in s[SA] at or above 2^56 raises the trap
non-canonical address with that address; one below it with a nonzero bit 5:3 or a slot of 5 to 7 raises the trap
illegal PC with that address. JR and RET have the same effect. (R208, R165, R164) -/
def Obligations.RegisterTargetsAreChecked : Prop :=
  ∀ (o : Ops) (s : State) (link : Word),
    let reg := (s.s o.sa).toNat
    (s.issues o.g [regS o.sa.toNat] →
      (2 ^ 56 ≤ reg → Traps (.jr o) s 0x05 reg ∧ Traps (.ret o) s 0x05 reg) ∧
      (reg < 2 ^ 56 → (reg / 8 % 8 ≠ 0 ∨ 5 ≤ reg % 8) → Traps (.jr o) s 0x02 reg ∧ Traps (.ret o) s 0x02 reg)) ∧
    (s.issues o.g [regS o.dst.toNat, regS o.sa.toNat] → slotAdd s.me.pc 1 = some link →
      (2 ^ 56 ≤ reg → exec (.callReg o) s = .next ((s.openChunk.writeS o.dst link).raise 0x05 reg)) ∧
      (reg < 2 ^ 56 → (reg / 8 % 8 ≠ 0 ∨ 5 ≤ reg % 8) →
        exec (.callReg o) s = .next ((s.openChunk.writeS o.dst link).raise 0x02 reg)))

/-- For every instruction of class 00 or class 11, with the guard that its word holds: where the guard register is not
pending and the guard is off, the instruction answers a next state in which the pc is the next slot and the live chunk
counts one more instruction, and no register and nothing else has changed. For every instruction of class 01 and the
pair the same holds where no lane of the guard is on. (R173, R192) -/
def Obligations.GuardedOffOnlyCounts : Prop :=
  ∀ (i : Instr) (w : BitVec 96) (s : State), encode i = some w → s.guardRead (guardOf w) →
    (if 0x40 ≤ opcodeOf w ∧ opcodeOf w ≤ 0x80 then ∀ n, n < 32 → s.laneOn (guardOf w) n = false
      else s.scalarOn (guardOf w) = false) →
    Computes i s fun g h => h = g

/-- For every instruction that has a word and every state in which the guard register that the word names is pending,
the instruction raises the trap unwaited read with the register's number. (R179, R192, R364) -/
def Obligations.PendingGuardTraps : Prop :=
  ∀ (i : Instr) (w : BitVec 96) (s : State), encode i = some w → s.cur < strandLimit → (guardOf w).p ≠ 0 →
    s.me.pending (64 + (guardOf w).p.toNat) = true → Traps i s 0x0E (guardOf w).p.toNat

/-- For every state in which the guard of the instruction is on and a register that the instruction reads or writes is
pending, the instruction raises the trap unwaited read with the number, within its file, of such a register: shown for
the two-operand integer forms, MOVI, the two-operand floating-point forms, LD, ST, AMO, KRD, JR and LOOP. (R179, R192,
R364) -/
def Obligations.UnwaitedRegistersTrap : Prop :=
  ∀ (o : Ops) (s : State),
    let traps (i : Instr) (rs : List Nat) : Prop :=
      s.guardRead o.g → s.scalarOn o.g = true → ¬ s.waited rs →
        ∃ r ∈ rs, s.me.pending r = true ∧ Traps i s 0x0E (if r < 32 then r else if r < 64 then r - 32 else r - 64)
    let data (r : BitVec 6) : Nat := if o.modBit 56 then 32 + r.toNat else r.toNat
    (∀ i ∈ [Instr.add o, .sub o, .mul o, .mulh o, .div o, .rem o, .and o, .or o, .xor o, .andn o, .shl o, .shr o, .sra o, .rot o,
        .min o, .max o, .minz o, .maxz o, .bfx o],
      traps i ([o.dst.toNat, o.sa.toNat] ++ if o.modBit 59 then [] else [o.sb.toNat])) ∧
    (∀ imm, traps (.movi o.g o.dst imm) [o.dst.toNat]) ∧
    (o.dst.toNat < 16 → o.sa.toNat < 16 → o.sb.toNat < 16 →
      ∀ i ∈ [Instr.fadd o, .fsub o, .fmul o, .fdiv o, .fmin o, .fmax o],
        traps i [32 + o.dst.toNat, 32 + o.sa.toNat, 32 + o.sb.toNat]) ∧
    traps (.ld o) [o.sa.toNat, o.sb.toNat, data o.dst] ∧
    traps (.st o) [o.sa.toNat, o.sb.toNat, data o.sc] ∧
    traps (.amo o) [o.sa.toNat, o.sb.toNat, o.sc.toNat, o.dst.toNat] ∧
    (o.imm.toNat % 2 ^ 12 ≠ 0x008 → traps (.krd o) [o.dst.toNat]) ∧
    traps (.jr o) [o.sa.toNat] ∧
    traps (.loop o) [o.dst.toNat]

/-- For every state in user mode in which the guard is on: ERET, INVP and HALT, KWR of KPTROOT, KEPC, KHDROP, KSQUASH,
KXDOM or KHOSTEMU, and KRD of KEPC raise the trap privilege violation with address 0, whatever registers are pending.
(R216, R219, R220, R221, R192) -/
def Obligations.UserModeCannotRunSupervisorInstructions : Prop :=
  ∀ (o : Ops) (s : State), s.guardRead o.g → s.scalarOn o.g = true → s.me.sv = false →
    Traps (.eret o) s 0x07 0 ∧ Traps (.invp o) s 0x07 0 ∧ Traps (.halt o) s 0x07 0 ∧
    (o.imm.toNat % 2 ^ 12 ∈ [0x003, 0x008, 0x010, 0x011, 0x018, 0x019] → Traps (.kwr o) s 0x07 0) ∧
    (o.imm.toNat % 2 ^ 12 = 0x008 → Traps (.krd o) s 0x07 0)

/-- For every state in which the instruction may issue, with its chunk open: WAIT whose limits hold goes on and
removes exactly the marks of operations that its ld limit guarantees complete, and one whose limits do not hold leaves
the strand where it is; CHUNK retires and ends the chunk; FENCE and FENCE.SY retire, end the chunk and stop the
strand; DONE stops at its pc while ld is not zero, and else retires, ends the chunk and the run; YIELD retires, and
the strand stops until n cycles from now, n being IMM bits 15:0, with the step YIELD_EXPIRY owed. No register changes.
(R209, R210, R211, R213, R238, R178) -/
def Obligations.WaitingAndEndingChunks : Prop :=
  ∀ (o : Ops) (s : State), s.issues o.g [] →
    let m := s.openChunk
    let c := m.chunk
    let lim (i : Nat) : Nat := o.imm.toNat / 64 ^ i % 64
    let holds := ∀ p ∈ [(Counter.ld, lim 0), (.st, lim 1), (.cp, lim 2), (.tl, lim 3)], p.2 = 63 ∨ m.me.count p.1 ≤ p.2
    (holds → ∃ t, exec (.wait o) s = .next t ∧ Ran s t ∧
      t.me = { s.me with pc := nextPc s.me.pc, chunks := t.me.chunks, marks := t.me.marks } ∧
      ∀ r, t.me.marks.contains r = (s.me.marks.contains r && (lim 0 == 63 || decide (s.me.ldIssued ≤ r.seq + lim 0)))) ∧
    (¬holds → exec (.wait o) s = .next m) ∧
    (∃ t, exec (.chunk o) s = .next t ∧ Ended s t { c with count := c.count + 1 } ∧
      t.me = { s.me with pc := nextPc s.me.pc, chunks := t.me.chunks }) ∧
    (∃ t, exec (.fence o) s = .next t ∧ Ended s t { c with count := c.count + 1, fence := true, fenceSy := false } ∧
      t.me = { s.me with pc := nextPc s.me.pc, chunks := t.me.chunks, run := .fence }) ∧
    (∃ t, exec (.fenceSy o) s = .next t ∧
      Ended s t { c with count := c.count + 1, fence := true, fenceSy := true, sysWait := true } ∧
      t.me = { s.me with pc := nextPc s.me.pc, chunks := t.me.chunks, run := .fence }) ∧
    (m.me.count .ld ≠ 0 → exec (.done o) s = .next m) ∧
    (m.me.count .ld = 0 → ∃ t, exec (.done o) s = .next t ∧
      Ended s t { c with count := c.count + 1, held := c.held ++ [.endRun] } ∧
      t.me = { s.me with pc := nextPc s.me.pc, chunks := t.me.chunks, run := .ending }) ∧
    (∃ t, exec (.yield o) s = .next t ∧
      t.me = { s.me with
        pc := nextPc s.me.pc, chunks := t.me.chunks, run := .yielding, wake := s.time + o.imm.toNat % 2 ^ 16 } ∧
      t.chunk.count = c.count + 1 ∧ t.due = s.due ++ [.yieldExpiry s.cur] ∧
      t = { s with strands := t.strands, nextId := t.nextId, due := t.due })

/-- For every strand k of the domain: YIELD_EXPIRY makes a strand whose YIELD's cycles have passed run, and is owed
again while they have not; HALT_RELEASE with resume makes a halted strand run at the slot after the HALT, which its
chunk then counts, and without resume it kills the strand's launch, on which alone it then acts; that both leave a
strand that does not so wait as it is, is the model's choice (log 94, DESIGN CHOICE); a live
chunk that has counted 512 instructions ends at INSTRUCTION_LIMIT_CHUNK_END with its commit owed, and one that has
counted fewer goes on. (R213, R221, R97) -/
def Obligations.StrandWakeUps : Prop :=
  ∀ (k : Nat) (s : State), k < strandLimit →
    ((s.strand k).run = .yielding → s.time < (s.strand k).wake → exec (.yieldExpiry k) s = .next (s.owe (.yieldExpiry k))) ∧
    ((s.strand k).run = .yielding → (s.strand k).wake ≤ s.time → ∃ t, exec (.yieldExpiry k) s = .next t ∧
      t.strand k = { s.strand k with run := .running } ∧ (∀ j, j ≠ k → t.strand j = s.strand j) ∧
      t = { s with strands := t.strands }) ∧
    ((s.strand k).run ≠ .yielding → exec (.yieldExpiry k) s = .next s) ∧
    ((s.strand k).run = .halted → ∃ t, exec (.haltRelease k true) s = .next t ∧
      t.strand k = { s.strand k with
        run := .running, pc := nextPc (s.strand k).pc, chunks := (t.strand k).chunks } ∧
      (∀ c, (s.strand k).live = some c → (t.strand k).live = some { c with count := c.count + 1 }) ∧
      (∀ j, j ≠ k → t.strand j = s.strand j) ∧ t = { s with strands := t.strands }) ∧
    ((s.strand k).run = .halted → exec (.haltRelease k false) s = .next (s.kill (s.strand k).lkey)) ∧
    ((s.strand k).run ≠ .halted → ∀ r, exec (.haltRelease k r) s = .next s) ∧
    (∀ c, (s.strand k).live = some c → 512 ≤ c.count → ∃ t, exec (.instructionLimitChunkEnd k) s = .next t ∧
      (t.strand k).live = none ∧ t.due.contains (.commitPoint k) = true ∧
      (∀ d, d ∈ (t.strand k).chunks.head? → d.id = c.id ∧ d.writes = c.writes ∧ d.held = c.held ∧ d.count = c.count) ∧
      (t.strand k).regs = (s.strand k).regs ∧ (t.strand k).pc = (s.strand k).pc ∧
      (∀ j, j ≠ k → t.strand j = s.strand j) ∧ t = { s with strands := t.strands, due := t.due }) ∧
    (∀ c, (s.strand k).live = some c → c.count < 512 → exec (.instructionLimitChunkEnd k) s = .next s)

/-- For every state in which TRAP may issue: where its chunk already counts instructions, the chunk ends and the pc
stays at the TRAP; where an earlier chunk has not committed, the strand stays at the TRAP; else the trap software trap
is raised with the 16-bit code as its address. (R214) -/
def Obligations.SoftwareTrapStandsAlone : Prop :=
  ∀ (o : Ops) (s : State), s.issues o.g [] →
    let m := s.openChunk
    (m.chunk.count ≠ 0 → ∃ t, exec (.trap o) s = .next t ∧ Ended s t m.chunk ∧ t.me.pc = s.me.pc ∧ t.me.regs = s.me.regs) ∧
    (m.chunk.count = 0 → 1 < m.me.chunks.length → exec (.trap o) s = .next m) ∧
    (m.chunk.count = 0 → m.me.chunks.length ≤ 1 → Traps (.trap o) s 0x1A (o.imm.toNat % 2 ^ 16))

/-- For every state of a strand with TF clear whose live chunk c stands before at least one earlier chunk with another
number that has not passed its commit point: raising a trap leaves the strand waiting, with the record's cause,
address, time, faulting pc, chunk-start pc, mode and BRPC noted, the registers, pc, mode, marks and watch entries of
c's checkpoint (an entry about which c had asked is again one about which nothing has been asked), no operation of c on
a counter, and only the earlier chunks; trap entry is owed. While TF is set, the trap kills the launch. (R360, R363,
R180) -/
def Obligations.TrapsDiscardTheChunk : Prop :=
  ∀ (s : State) (cause addr : Nat) (c : Chunk) (cs : List Chunk),
    s.me.chunks = c :: cs → c.sealed = false → (∀ d ∈ cs, d.id ≠ c.id) →
    (s.me.tf = true → s.raise cause addr = s.kill s.me.lkey) ∧
    (s.me.tf = false → (∃ d ∈ cs, d.committed = false) →
      let t := s.raise cause addr
      t.me.run = .trapping ∧
      t.me.trap = some
        { cause := cause, addr := addr, time := s.time, fpc := s.me.pc, cspc := c.startPc, sv := s.me.sv, brpc := s.me.brpc } ∧
      t.me.regs = c.regs ∧ t.me.pc = c.startPc ∧ t.me.marks = c.marks ∧ t.me.sv = c.sv ∧ t.me.q = c.q ∧
      (let back := ({ s.me with watches := c.watches, chunks := cs } : Strand).forgetAsked c.id
       t.me.watches = back.watches ∧ t.me.chunks = back.chunks) ∧ t.me.ovf = c.ovf ∧ (∀ p ∈ t.me.ops, p.chunk ≠ c.id) ∧
      t.due = s.due ++ [.trapEntry s.cur])

/-- For every strand k of the domain that waits with a trap and no chunk, whose record can be written and whose trap
entry pc can be fetched: TRAP_ENTRY answers a state, reached from the one with the record written, in which KEPC holds
the chunk-start pc in bits 55:0 and the mode at the trap in bit 63, the strand is in supervisor mode with TF set, s1
holds the address of its own slot, which is the trap area's base plus 64 times the strand's number within its package,
every other register is unchanged, and the strand runs at the trap entry pc. Where the core holds a translation of the
slot to memory that may be written, the record written holds eight words there, the lowest byte of each first: the
launch key, strand, mode and endpoint; the cause and the chunk-start pc; the faulting pc; the trap address; BRPC; the
time of the trap; s1 as it was; and zero; and no other byte of memory has changed. (R361, R362, R217) -/
def Obligations.TrapEntryEntersTheHandler : Prop :=
  ∀ (k : Nat) (s m : State) (i : TrapInfo), k < strandLimit → (s.strand k).run = .trapping → (s.strand k).trap = some i →
    (s.strand k).chunks = [] →
    s.writeRecord k i = some m → m.fetchable k true m.trapPc.toNat = true →
    (let slot := s.trapArea + 64 * (k % 18432)
     let t := s.strand k
     let words : List Nat :=
       [t.lkey % 2 ^ 16 * 2 ^ 48 + k % 4 * 2 ^ 40 + (if i.sv then 2 ^ 24 else 0) + s.epid k % 2 ^ 24,
        i.cause * 2 ^ 56 + i.cspc.toNat % 2 ^ 56, i.fpc.toNat % 2 ^ 56, i.addr % 2 ^ 64, i.brpc.toNat % 2 ^ 56, i.time % 2 ^ 64,
        (t.regs.getS 1).toNat, 0]
     ∀ e, s.tlb.find? (fun x => x.maps (sourceCore (coreOf k)) t.lkey slot) = some e → e.d = true →
       let a := storageOf (e.phys slot)
       (∀ j, j < 64 → isHost (a + j) = false) →
       ∀ b, m.mem.read b = if a ≤ b ∧ b < a + 64 then (words.flatMap (toBytes 8)).getD (b - a) 0 else s.mem.read b) ∧
    ∃ t, exec (.trapEntry k) s = .next t ∧
      (t.strand k).kepc.toNat = (if i.sv then 2 ^ 63 else 0) + i.cspc.toNat % 2 ^ 56 ∧
      (t.strand k).sv = true ∧ (t.strand k).tf = true ∧ (t.strand k).trap = none ∧ (t.strand k).run = .running ∧
      (t.strand k).pc = m.trapPc ∧
      OnlyS (m.strand k).regs (t.strand k).regs 1 (BitVec.ofNat 64 (m.trapArea + 64 * (k % 18432))) ∧
      (∀ j, j ≠ k → t.strand j = m.strand j) ∧ t = { m with strands := t.strands }

/-- For every state in which the instruction may issue in a mode that it allows: KRD writes to s[DST] the value of the
control register, which is 0x356 for KATOM, the domain time for KTIME, KEPC for KEPC, KHDROP and KSQUASH of the core,
as the held KWRs of the live chunk leave it; KWR adds its write to what the chunk holds, and changes no register and
nothing else. At the commit point of a chunk that holds a KWR the register takes the written value in its writable
fields (KPTROOT bits 59:12, KEPC bits 63 and 55:0, all of KHDROP and KSQUASH, KXDOM bits 31:0, KHOSTEMU bit 0) and
keeps its other bits, and every other control register of the strand is unchanged; a KWR of a register without such a
field changes nothing. (R215, R216, R6) -/
def Obligations.ControlRegistersReadAndWrite : Prop :=
  (∀ (s : State) (k : Nat) (c : Chunk) (r : Nat) (v : Word), (r = 0x003 → (s.launchOf k).isSome = true) →
    Commits s k c (.kwr r v) fun t =>
      let mask : Word :=
        if r = 0x003 then 0x0FFFFFFFFFFFF000
        else if r = 0x008 then 0x80FFFFFFFFFFFFFF
        else if r = 0x010 ∨ r = 0x011 then 0xFFFFFFFFFFFFFFFF
        else if r = 0x018 then 0xFFFFFFFF
        else if r = 0x019 then 1
        else 0
      ∀ q, t.controlAt k q = if q = r then (s.controlAt k r &&& ~~~mask) ||| (v &&& mask) else s.controlAt k q) ∧
  ∀ (o : Ops) (s : State),
    let r := o.imm.toNat % 2 ^ 12
    let free := ∀ v, Held.kwr r v ∉ s.openChunk.chunk.held
    (s.issues o.g [regS o.dst.toNat] → (r = 0x008 → s.me.sv = true) →
      GivesS (.krd o) s o.dst (s.openChunk.control r) ∧
      (free → (r = 0x000 → GivesS (.krd o) s o.dst 0x356) ∧
        (r = 0x002 → GivesS (.krd o) s o.dst (BitVec.ofNat 64 (s.me.lkey % 2 ^ 16))) ∧
        (r = 0x007 → GivesS (.krd o) s o.dst (BitVec.ofNat 64 s.time)) ∧
        (r = 0x008 → GivesS (.krd o) s o.dst s.me.kepc) ∧
        (r = 0x010 → GivesS (.krd o) s o.dst (s.core (coreOf s.cur)).khdrop) ∧
        (r = 0x011 → GivesS (.krd o) s o.dst (s.core (coreOf s.cur)).ksquash))) ∧
    (s.issues o.g [regS o.sa.toNat] → (r ∈ [0x003, 0x008, 0x010, 0x011, 0x018, 0x019] → s.me.sv = true) →
      ∃ t, exec (.kwr o) s = .next t ∧ Ran s t ∧ t.chunk.held = s.openChunk.chunk.held ++ [.kwr r (s.s o.sa)] ∧
        t.me = { s.me with pc := nextPc s.me.pc, chunks := t.me.chunks })

/-- For every state in supervisor mode in which the instruction may issue: ERET, where KEPC as the chunk sees it names
a slot that can be fetched in the mode of KEPC, sets the pc to KEPC.PC and the mode to KEPC.SV, clears TF (R363) and
changes no register and not BRPC: that BRPC stays is the model's choice (log 16, DEDUCED); INVP retires, adds its scope, range, address, key and count to what the chunk holds, ends
the chunk and stops the strand, and a PAGE address that is not canonical traps instead; HALT stops the strand at its
own pc with its chunk live. (R219, R220, R221) -/
def Obligations.SupervisorInstructions : Prop :=
  ∀ (o : Ops) (s : State) (e : TlbEntry), s.me.sv = true →
    let m := s.openChunk
    let k := m.control 0x008
    let target := k.toNat % 2 ^ 56
    (s.issues o.g [] → target / 8 % 8 = 0 → target % 8 < 5 → Enters s (k.getLsbD 63) target false e →
      ∃ t, exec (.eret o) s = .next t ∧ Ran s t ∧
        t.me = { s.me with pc := BitVec.ofNat 64 target, sv := k.getLsbD 63, tf := false, chunks := t.me.chunks }) ∧
    (let scope := o.md.toNat / 2 ^ 9 % 4
     let va := (s.s o.sa).toNat
     s.issues o.g (if scope = 0 then [regS o.sa.toNat, regS o.sb.toNat] else if scope = 1 then [regS o.sb.toNat] else []) →
      (scope = 0 → 2 ^ 56 ≤ va → Traps (.invp o) s 0x05 va) ∧
      (scope ≠ 0 ∨ va < 2 ^ 56 →
        ∃ t, exec (.invp o) s = .next t ∧
          Ended s t { m.chunk with
            count := m.chunk.count + 1
            held := m.chunk.held ++ [.invp scope (o.modBit 56) va (s.s o.sb).toNat (o.imm.toNat % 2 ^ 36)] } ∧
          t.me = { s.me with pc := nextPc s.me.pc, run := .invp, chunks := t.me.chunks })) ∧
    (s.issues o.g [] → ∃ t, exec (.halt o) s = .next t ∧ t.me = { s.me with run := .halted, chunks := m.me.chunks } ∧
      t = { m with strands := t.strands } ∧ ∀ j, j ≠ s.cur → t.strand j = s.strand j)

/-! ### Vector instructions -/

/-- For every state in which the instruction may issue (an active element, no pending register, every v register
allotted) and every element type: each active element of v[DST] takes the result of R257 on the elements of v[SA] and
of v[SB] or the broadcast scalar, modulo 2^w for an integer type (the logic operations on the bits, a shift by the low
bits of b, VSHR filling with the sign of a signed type) and rounded once to nearest even for a floating-point type;
inactive elements, all other registers and everything else but the pc and the count of the chunk are unchanged. (R257,
R253, R254, R259) -/
def Obligations.VectorArithmeticByElement : Prop :=
  ∀ (o : Ops) (s : State), o.vType ≠ 15 →
    let t := o.vType
    let w := typeWidth t
    let f := fmtOf t
    let rs := [regV o.dst.toNat, regV o.sa.toNat, if o.bs then scalarReg t o.sb else regV o.sb.toNat]
    let vs := [o.dst, o.sa] ++ (if o.bs then [] else [o.sb])
    let a (i : Nat) := s.elem t o.sa i
    let b (i : Nat) := if o.bs then s.scalarOperand t o.sb else s.elem t o.sb i
    let c (i : Nat) := s.elem t o.sc i
    let wrap (x : Int) : Nat := (x % 2 ^ w).toNat
    let round (x : Machine.Num) : Nat := roundNum f .rne 0 false x
    let gives (i : Instr) (x : Nat → Nat) : Prop := GivesV i s t o.dst fun k => if s.laneOn o.g k then some (x k) else none
    (s.issuesV o.g t rs vs →
      (intType t = true →
        gives (.vadd o) (fun i => wrap (intOf t (a i) + intOf t (b i))) ∧
        gives (.vsub o) (fun i => wrap (intOf t (a i) - intOf t (b i))) ∧
        gives (.vmul o) (fun i => wrap (intOf t (a i) * intOf t (b i))) ∧
        gives (.vmin o) (fun i => wrap (min (intOf t (a i)) (intOf t (b i)))) ∧
        gives (.vmax o) (fun i => wrap (max (intOf t (a i)) (intOf t (b i)))) ∧
        gives (.vand o) (fun i => a i &&& b i) ∧
        gives (.vor o) (fun i => a i ||| b i) ∧
        gives (.vxor o) (fun i => a i ^^^ b i) ∧
        gives (.vshl o) (fun i => a i * 2 ^ (b i % w)) ∧
        gives (.vshr o) (fun i => wrap (intOf t (a i) / 2 ^ (b i % w)))) ∧
      (intType t = false →
        gives (.vadd o) (fun i => round (addNum (f.value (a i)) (f.value (b i)))) ∧
        gives (.vsub o) (fun i => round (addNum (f.value (a i)) (f.value (b i)).negate)) ∧
        gives (.vmul o) (fun i => round (mulNum (f.value (a i)) (f.value (b i)))) ∧
        gives (.vmin o) (fun i => minMaxNum false t (a i) (b i)) ∧
        gives (.vmax o) (fun i => minMaxNum true t (a i) (b i)))) ∧
    (s.issuesV o.g t (rs ++ [regV o.sc.toNat]) (vs ++ [o.sc]) →
      (intType t = true → gives (.vfma o) (fun i => wrap (intOf t (a i) * intOf t (b i) + intOf t (c i)))) ∧
      (intType t = false →
        gives (.vfma o) (fun i => round (addNum (mulNum (f.value (a i)) (f.value (b i))) (f.value (c i))))))

/-- For every state in which the instruction may issue and every element type that the form allows, VABS, VNEG, VRCP,
VRSQ and VEXP2 answer a next state in which each active element of v[DST] takes a result of the element of v[SA]: for
an integer type VABS the magnitude and VNEG the negation, modulo 2^w; for a floating-point type VABS and VNEG clear or
invert the sign, a NaN giving the canonical quiet NaN; VRCP and VRSQ round 1 divided by the element, and by its root,
to nearest even; VEXP2 gives the canonical quiet NaN for a NaN, the infinity for +infinity, +0 for -infinity, and for
every finite element whose value is an integer n, zeros of both signs among them, the code nearest to 2^n, ties to
even. The code of VEXP2 for a finite element that is no integer is not stated here (Config.exp2Rounded, log 9).
Inactive elements, other registers and everything else but the pc and the count of the chunk are unchanged. (R257,
R270, R259) -/
def Obligations.VectorUnaryAndSpecial : Prop :=
  ∀ (o : Ops) (s : State), o.vType ≠ 15 → s.issuesV o.g o.vType [regV o.dst.toNat, regV o.sa.toNat] [o.dst, o.sa] →
    let t := o.vType
    let w := typeWidth t
    let f := fmtOf t
    let a (i : Nat) := s.elem t o.sa i
    let gives (i : Instr) (x : Nat → Nat) : Prop := GivesV i s t o.dst fun k => if s.laneOn o.g k then some (x k) else none
    let isInteger (x : Exact) (n : Nat) : Prop := if 0 ≤ x.e then n = x.m * 2 ^ x.e.toNat else x.m = n * 2 ^ (-x.e).toNat
    (intType t = true →
      gives (.vabs o) (fun i => ((intOf t (a i)).natAbs : Nat)) ∧
      gives (.vneg o) (fun i => (-(intOf t (a i)) % 2 ^ w).toNat)) ∧
    (intType t = false →
      gives (.vabs o) (fun i => if (f.value (a i)).isNan then f.quietNan else a i % 2 ^ (f.width - 1)) ∧
      gives (.vneg o) (fun i => if (f.value (a i)).isNan then f.quietNan else a i ^^^ 2 ^ (f.width - 1))) ∧
    (scalarFp t = true →
      gives (.vrcp o) (fun i => roundNum f .rne 0 false (divNum (.fin ⟨false, 1, 0⟩) (f.value (a i)))) ∧
      gives (.vrsq o) (fun i => roundNum f .rne 0 false (rsqrtNum (f.value (a i)))) ∧
      ∃ x : Nat → Nat, gives (.vexp2 o) x ∧ ∀ i,
        (f.value (a i) = .nan → x i = f.quietNan) ∧
        (f.value (a i) = .inf false → x i = f.infCode false) ∧
        (f.value (a i) = .inf true → x i = 0) ∧
        (∀ y n, f.value (a i) = .fin y → isInteger y n →
          x i = roundNum f .rne 0 false (.fin ⟨false, 1, if y.neg then -n else n⟩)))

/-- For every state in which the instruction may issue: bit i of the predicate that VCMP writes is 1 exactly when
element i is active and the condition of its code holds between the elements (for a floating-point type with only NE
and UN holding for a NaN), and every other bit is 0; VSEL takes the element of v[SA] where bit i of p[SC] is 1 and
else that of v[SB]; VPERM takes the element of v[SA] whose number is lane i of v[SB] modulo the number of elements;
VBCAST takes the low bits of the scalar register. Inactive elements, other registers and everything else but the pc
and the count of the chunk are unchanged. (R260, R261, R266, R267) -/
def Obligations.VectorCompareSelectPermute : Prop :=
  ∀ (o : Ops) (s : State), o.vType ≠ 15 →
    let t := o.vType
    let f := fmtOf t
    let a (i : Nat) := s.elem t o.sa i
    let b (i : Nat) := if o.bs then s.scalarOperand t o.sb else s.elem t o.sb i
    let code := o.md.toNat / 2 ^ 3 % 16
    let p := s.me.regs.getP o.sc.toNat
    let gives (i : Instr) (x : Nat → Nat) : Prop := GivesV i s t o.dst fun k => if s.laneOn o.g k then some (x k) else none
    let holds (x y : Int) : Bool :=
      (code == 0 && x == y) || (code == 1 && x != y) || (code == 2 && x < y) || (code == 3 && x ≤ y) || (code == 4 && y < x) ||
      (code == 5 && y ≤ x)
    let fholds (x y : Machine.Num) : Bool :=
      if x.isNan || y.isNan then code == 1 || code == 6
      else (code == 0 && x.eqv y) || (code == 1 && !x.eqv y) || (code == 2 && x.lt y) || (code == 3 && (x.lt y || x.eqv y)) ||
        (code == 4 && y.lt x) || (code == 5 && (y.lt x || x.eqv y))
    (s.issuesV o.g t [regP o.dst.toNat, regV o.sa.toNat, if o.bs then scalarReg t o.sb else regV o.sb.toNat]
        ([o.sa] ++ (if o.bs then [] else [o.sb])) →
      ∃ m : Lane, GivesP (.vcmp o) s o.dst m ∧
        (intType t = true → code ≤ 5 → ∀ i, m.getLsbD i =
          (decide (i < elemCount t) && s.laneOn o.g i && holds (intOf t (a i)) (intOf t (b i)))) ∧
        (scalarFp t = true → code ≤ 6 → ∀ i, m.getLsbD i =
          (decide (i < elemCount t) && s.laneOn o.g i && fholds (f.value (a i)) (f.value (b i))))) ∧
    (s.issuesV o.g t [regV o.dst.toNat, regV o.sa.toNat, regV o.sb.toNat, regP o.sc.toNat] [o.dst, o.sa, o.sb] →
      gives (.vsel o) (fun i => if p.getLsbD i then s.elem t o.sa i else s.elem t o.sb i)) ∧
    (s.issuesV o.g t [regV o.dst.toNat, regV o.sa.toNat, regV o.sb.toNat] [o.dst, o.sa, o.sb] →
      gives (.vperm o) (fun i => s.elem t o.sa ((s.me.regs.getLane o.sb.toNat i).toNat % elemCount t))) ∧
    (s.issuesV o.g t [regV o.dst.toNat, scalarReg t o.sa] [o.dst] → gives (.vbcast o) (fun _ => s.scalarOperand t o.sa))

/-- For every state in which VCVT may issue and element types other than 15: for each active i of the conversion (16
elements when either type is 64-bit), element idx(i) of v[DST] in the destination type takes the conversion of the
paired element of v[SA], where a narrow side that faces a 64-bit side uses lane 16 * HI + i; with SR the generator is
advanced once, in ascending order, for each active element, and the element uses the low 16 bits of the advanced
state; every other element of v[DST], every other register and everything else but the pc and the count of the chunk
are unchanged. (R262, R246, R206) -/
def Obligations.VectorConversion : Prop :=
  ∀ (o : Ops) (s : State),
    let dst := o.vType
    let src := o.modBits 55 52
    let ct := if wideType src then src else dst
    dst ≠ 15 → src ≠ 15 → s.issuesV o.g ct [regV o.dst.toNat, regV o.sa.toNat] [o.dst, o.sa] →
    let mode := rmodeOf (o.modBits 51 49)
    let hi := if o.imm.toNat % 2 = 1 then 16 else 0
    let into (i : Nat) : Nat := if wideType dst = false ∧ wideType src = true then hi + i else i
    let from' (i : Nat) : Nat := if wideType src = false ∧ wideType dst = true then hi + i else i
    let x (i : Nat) := s.elem src o.sa (from' i)
    let act := s.activeIn o.g ct
    let drawn (i : Nat) : Nat := if mode = .sr then (act.filter fun j => decide (j ≤ i)).length else 0
    let q (i : Nat) : BitVec 32 := Nat.repeat nextQ (drawn i) s.me.q
    ∃ t, exec (.vcvt o) s = .next t ∧ Retired s t ∧
      t.me.q = Nat.repeat nextQ (if mode = .sr then act.length else 0) s.me.q ∧
      (∀ i, t.me.regs.getS i = s.me.regs.getS i) ∧ (∀ i, t.me.regs.getF i = s.me.regs.getF i) ∧
      (∀ i, t.me.regs.getP i = s.me.regs.getP i) ∧
      (∀ j i, j ≠ o.dst.toNat → i < 32 → t.me.regs.getLane j i = s.me.regs.getLane j i) ∧
      (∀ i ∈ act, t.elem dst o.dst (into i) =
        convert dst src mode (o.modBit 48) ((q i).toNat % 65536) (x i) % 2 ^ typeWidth dst) ∧
      (∀ j, j < elemCount dst → (∀ i ∈ act, into i ≠ j) → t.elem dst o.dst j = s.elem dst o.dst j)

/-- For every state in which the instruction may issue: for an integer type VREDSUM writes the exact sum of the active
elements modulo 2^64 to s[DST], and VREDMAX and VREDMIN the greatest and least of them, extended to 64 bits; for a
floating-point type they write the result of the tree of R251 over the row, with the identity in inactive places, to
f[DST]; VMOVS of a lane that is on copies a scalar's low bits to element k of v[DST], or element k of v[SA], extended
for an integer type, to the scalar register. Nothing else changes but the pc and the count of the chunk. (R268, R269,
R251) -/
def Obligations.VectorReductionsAndMoves : Prop :=
  ∀ (o : Ops) (s : State), o.vType ≠ 15 →
    let t := o.vType
    let xs := (s.activeIn o.g t).map fun i => intOf t (s.elem t o.sa i)
    let row := (List.range (elemCount t)).map fun i => if s.laneOn o.g i then some (s.elem t o.sa i) else none
    let k := o.imm.toNat % 32
    (s.issuesV o.g t [scalarReg t o.dst, regV o.sa.toNat] [o.sa] →
      (intType t = true →
        GivesS (.vredsum o) s o.dst (BitVec.ofInt 64 xs.sum) ∧
        (∃ x ∈ xs, (∀ y ∈ xs, y ≤ x) ∧ GivesS (.vredmax o) s o.dst (BitVec.ofInt 64 x)) ∧
        (∃ x ∈ xs, (∀ y ∈ xs, x ≤ y) ∧ GivesS (.vredmin o) s o.dst (BitVec.ofInt 64 x))) ∧
      (intType t = false →
        GivesF (.vredsum o) s o.dst (BitVec.ofNat 64 (fpReduce .sum t row)) ∧
        GivesF (.vredmax o) s o.dst (BitVec.ofNat 64 (fpReduce .max t row)) ∧
        GivesF (.vredmin o) s o.dst (BitVec.ofNat 64 (fpReduce .min t row)))) ∧
    (s.guardRead o.g → s.laneOn o.g k = true → k < elemCount t →
      (o.bs = true → s.waited [regV o.dst.toNat, scalarReg t o.sa] → o.dst.toNat < s.vAllot s.cur →
        GivesV (.vmovs o) s t o.dst fun i => if i = k then some (s.scalarOperand t o.sa) else none) ∧
      (o.bs = false → s.waited [regV o.sa.toNat, scalarReg t o.dst] → o.sa.toNat < s.vAllot s.cur →
        (intType t = true → GivesS (.vmovs o) s o.dst (BitVec.ofInt 64 (intOf t (s.elem t o.sa k)))) ∧
        (intType t = false → GivesF (.vmovs o) s o.dst (BitVec.ofNat 64 (s.elem t o.sa k)))))

/-- For every state in which the instruction may issue: VTOPK writes to lanes 0 to k - 1 of v[DST] and of the next
register the keys and the identifiers of the first k, in the order of R272, of the list's k entries and the active
candidates, when k is at most 32 and the key type has 32 bits; a well-formed PAIR, of any scalar operation with any
vector operation that R172 allows and in any type that the full form accepts, writes to s[SDST] the result of its
scalar operation when bit 0 of the guard is on (NOP writes nothing) and to the active elements of v[VDST] those of its
vector operation, all from the old sources; a half that is off writes nothing. Every other register and everything
else but the pc and the count of the chunk are unchanged. That only the registers of a half that is on must be
allotted and not pending is the model's choice (log 119). (R171, R172, R272) -/
def Obligations.BestListAndPair : Prop :=
  (∀ (o : Ops) (s : State),
    let t := o.vType
    let k := o.imm.toNat % 64
    let ids := o.dst + 1
    typeWidth t = 32 → wideType t = false → k ≤ 32 → o.dst.toNat < 63 →
    s.issuesV o.g t [regV o.dst.toNat, regV ids.toNat, regV o.sa.toNat, regV o.sb.toNat] [o.dst, ids, o.sa, o.sb] →
    let old := (List.range k).map fun i =>
      TopEntry.mk (s.elem t o.dst i) (s.me.regs.getLane ids.toNat i).toNat false i
    let new := (s.activeIn o.g t).map fun i => TopEntry.mk (s.elem t o.sa i) (s.me.regs.getLane o.sb.toNat i).toNat true i
    let best := topSelect t o.bs k (old ++ new)
    best.length = k ∧
    Computes (.vtopk o) s fun g h =>
      (∀ i, h.getS i = g.getS i) ∧ (∀ i, h.getF i = g.getF i) ∧ (∀ i, h.getP i = g.getP i) ∧
      (∀ j i, i < 32 → (j ≠ o.dst.toNat ∧ j ≠ ids.toNat ∨ k ≤ i) → h.getLane j i = g.getLane j i) ∧
      ∀ i, (hi : i < best.length) → h.getLane o.dst.toNat i = BitVec.ofNat 32 best[i].key ∧
        h.getLane ids.toNat i = BitVec.ofNat 32 best[i].id) ∧
  (∀ (p : PairOps) (s : State), (Instr.pair p).wellFormed = true → s.guardRead p.g →
    let t := p.vtype.toNat
    let sop := p.sop.toNat
    let vop := p.vop.toNat
    let w := typeWidth t
    let f := fmtOf t
    let a := s.s p.ssa
    let b := if p.si then p.simm.signExtend 64 else s.s p.ssb
    let n := b.toNat % 64
    let scalar : Word :=
      if sop = 0x01 then BitVec.ofNat 64 (a.toNat + b.toNat)
      else if sop = 0x02 then BitVec.ofInt 64 (a.toNat - b.toNat)
      else if sop = 0x03 then BitVec.ofNat 64 (a.toNat * b.toNat)
      else if sop = 0x07 then a &&& b
      else if sop = 0x08 then a ||| b
      else if sop = 0x09 then a ^^^ b
      else if sop = 0x0A then a &&& ~~~b
      else if sop = 0x0B then BitVec.ofNat 64 (a.toNat * 2 ^ n)
      else if sop = 0x0C then BitVec.ofNat 64 (a.toNat / 2 ^ n)
      else if sop = 0x0D then BitVec.ofInt 64 (a.toInt / 2 ^ n)
      else if sop = 0x12 then BitVec.ofInt 64 (min a.toInt b.toInt)
      else if sop = 0x13 then BitVec.ofInt 64 (max a.toInt b.toInt)
      else if sop = 0x14 then BitVec.ofNat 64 (min a.toNat b.toNat)
      else BitVec.ofNat 64 (max a.toNat b.toNat)
    let x (i : Nat) := s.elem t p.vsa i
    let y (i : Nat) := s.elem t p.vsb i
    let z (i : Nat) := s.elem t p.vsc i
    let wrap (k : Int) : Nat := (k % 2 ^ w).toNat
    let round (k : Machine.Num) : Nat := roundNum f .rne 0 false k
    let vector (i : Nat) : Nat :=
      if intType t then
        if vop = 0 then wrap (intOf t (x i) + intOf t (y i))
        else if vop = 1 then wrap (intOf t (x i) - intOf t (y i))
        else if vop = 2 then wrap (intOf t (x i) * intOf t (y i))
        else if vop = 3 then wrap (intOf t (x i) * intOf t (y i) + intOf t (z i))
        else if vop = 4 then wrap (min (intOf t (x i)) (intOf t (y i)))
        else if vop = 5 then wrap (max (intOf t (x i)) (intOf t (y i)))
        else if vop = 6 then ((intOf t (x i)).natAbs : Nat)
        else if vop = 7 then wrap (-(intOf t (x i)))
        else if vop = 8 then x i &&& y i
        else if vop = 9 then x i ||| y i
        else if vop = 10 then x i ^^^ y i
        else if vop = 11 then x i * 2 ^ (y i % w)
        else wrap (intOf t (x i) / 2 ^ (y i % w))
      else
        if vop = 0 then round (addNum (f.value (x i)) (f.value (y i)))
        else if vop = 1 then round (addNum (f.value (x i)) (f.value (y i)).negate)
        else if vop = 2 then round (mulNum (f.value (x i)) (f.value (y i)))
        else if vop = 3 then round (addNum (mulNum (f.value (x i)) (f.value (y i))) (f.value (z i)))
        else if vop = 4 then minMaxNum false t (x i) (y i)
        else if vop = 5 then minMaxNum true t (x i) (y i)
        else if vop = 6 then (if (f.value (x i)).isNan then f.quietNan else x i % 2 ^ (f.width - 1))
        else (if (f.value (x i)).isNan then f.quietNan else x i ^^^ 2 ^ (f.width - 1))
    let srs := if sop = 0x1C then [] else [regS p.sdst.toNat, regS p.ssa.toNat] ++ (if p.si then [] else [regS p.ssb.toNat])
    let vs := [p.vdst, p.vsa] ++ (if vop = 6 ∨ vop = 7 then [] else [p.vsb]) ++ (if vop = 3 then [p.vsc] else [])
    (s.scalarOn p.g = true → s.waited srs) →
    (s.activeIn p.g t ≠ [] → s.waited (vs.map fun r => regV r.toNat) ∧ ∀ v ∈ vs, v.toNat < s.vAllot s.cur) →
    Computes (.pair p) s fun g h =>
      (∀ i, h.getS i = if s.scalarOn p.g = true ∧ sop ≠ 0x1C ∧ i = p.sdst.toNat ∧ i ≠ 0 then scalar else g.getS i) ∧
      ∃ m : Regs, (∀ i, m.getS i = h.getS i) ∧ (∀ i, m.getF i = g.getF i) ∧ (∀ i, m.getP i = g.getP i) ∧
        (∀ j i, m.getLane j i = g.getLane j i) ∧
        OnlyV m h t p.vdst fun i => if s.laneOn p.g i then some (vector i) else none)

/-- For every state in which the guard is read and an element is active, VADD without broadcast, VSEL, VPERM, VLD and
VST that name a v register at or beyond the count allotted to the strand raise the trap unallotted resource with the
number of such a register. (R176, R192) -/
def Obligations.UnallottedRegistersTrap : Prop :=
  ∀ (o : Ops) (s : State), s.guardRead o.g → s.activeIn o.g o.vType ≠ [] →
    let traps (i : Instr) (vs : List (BitVec 6)) : Prop :=
      (∃ v ∈ vs, s.vAllot s.cur ≤ v.toNat) → ∃ v ∈ vs, s.vAllot s.cur ≤ v.toNat ∧ Traps i s 0x0F v.toNat
    (o.bs = false → traps (.vadd o) [o.dst, o.sa, o.sb]) ∧ traps (.vsel o) [o.dst, o.sa, o.sb] ∧
    traps (.vperm o) [o.dst, o.sa, o.sb] ∧ traps (.vld o) [o.dst] ∧ traps (.vst o) [o.sc]

/-! ### Memory, windows and commit -/

/-- For every state in which the instruction may issue, with the address that its operand forms: at or above 2^56, LD,
LD.ACQ.SY, LDS, LDL, LDL.DROP, ST, ST.REL.SY, VLD, VST, AMO, RED and JARR raise the trap non-canonical address with
the address, and so do the scalar loads and stores when a byte of their range lies at or above 2^56; below it,
LD.ACQ.SY, LDS and ST.REL.SY raise the trap alignment when the address is not a multiple of the size, AMO and RED when
it is not one of the atomic's size, JARR and JINIT when the join is not aligned to 16. A JINIT whose
count exceeds 16,383 raises the trap of its operand first, and one of a brick that is not aligned to 64 the trap
alignment. (R169, R223, R263, R297, R303, R304, R364) -/
def Obligations.AddressesAreChecked : Prop :=
  ∀ (o : Ops) (s : State),
    let ea := s.formed o
    let high := 2 ^ 56 ≤ ea
    let off (n : Nat) := ea < 2 ^ 56 ∧ ea % n ≠ 0
    let data (r : BitVec 6) := if o.fFlag then 32 + r.toNat else r.toNat
    let count := if o.sb = 0 then o.imm.toNat % 2 ^ 14 else (s.s o.sb).toNat
    let join := (s.s o.sa).toNat
    let traps (i : Instr) (c : Nat) : Prop := Traps i s c ea
    (s.issues o.g (addrRegs o ++ [data o.dst]) →
      (2 ^ 56 < ea + o.nBytes → traps (.ld o) 0x05 ∧ traps (.ldAcqSy o) 0x05 ∧ traps (.lds o) 0x05 ∧ traps (.ldl o) 0x05 ∧
        traps (.ldlDrop o) 0x05) ∧
      (ea + o.nBytes ≤ 2 ^ 56 → ea % o.nBytes ≠ 0 → traps (.ldAcqSy o) 0x06 ∧ traps (.lds o) 0x06)) ∧
    (s.issues o.g (addrRegs o ++ [data o.sc]) →
      (2 ^ 56 < ea + o.nBytes → traps (.st o) 0x05 ∧ traps (.stRelSy o) 0x05) ∧
      (ea + o.nBytes ≤ 2 ^ 56 → ea % o.nBytes ≠ 0 → traps (.stRelSy o) 0x06)) ∧
    (s.issuesV o.g o.vType (addrRegs o ++ [regV o.dst.toNat]) [o.dst] → high → traps (.vld o) 0x05) ∧
    (s.issuesV o.g o.vType (addrRegs o ++ [regV o.sc.toNat]) [o.sc] → high → traps (.vst o) 0x05) ∧
    (s.issues o.g (addrRegs o ++ [o.sc.toNat, o.dst.toNat]) →
      (high → traps (.amo o) 0x05) ∧ (off (amoBytes o) → traps (.amo o) 0x06)) ∧
    (s.issues o.g (addrRegs o ++ [o.sc.toNat]) →
      (high → traps (.red o) 0x05) ∧ (off (amoBytes o) → traps (.red o) 0x06)) ∧
    (s.issues o.g (addrRegs o ++ [o.dst.toNat]) →
      (high → traps (.jarr o) 0x05) ∧ (off 16 → traps (.jarr o) 0x06)) ∧
    (s.issues o.g [o.sa.toNat, o.sb.toNat, o.sc.toNat] →
      (16383 < count → Traps (.jinit o) s causeOperand join) ∧
      (count ≤ 16383 → (join % 16 ≠ 0 ∨ (s.s o.sc).toNat % 64 ≠ 0) → Traps (.jinit o) s 0x06 join))

/-- For every state in which the instruction may issue, with an address that passes its checks (a canonical address,
aligned where the form asks for it, whose bytes lie in memory through translations that the core holds, or in the
strand's own scratchpad outside every window): LD, LDS, LDL and LDL.DROP, LD.ACQ.SY (which ends its chunk), and VLD,
VGATH and VDIST over their active elements in ascending order, answer a next state in which the operation is the
newest on ld with the storage addresses of the bytes of each element and the form in which its completion writes, the
destination register is pending with its number (s0 never is), the pc is the next slot, the chunk counts one more
instruction, and no register, no byte of memory and no other strand has changed. (R177, R179, R222, R223, R225, R227,
R231, R263, R264, R271, R123) -/
def Obligations.LoadsIssue : Prop :=
  ∀ (o : Ops) (s : State) (f : Nat → List Nat), s.mayAccess →
    let ea := s.formed o
    let data := if o.fFlag then 32 + o.dst.toNat else o.dst.toNat
    let fin := Fin.scalar o.fFlag o.dst.toNat o.nBytes o.sxFlag
    let t := o.vType
    let act := s.activeIn o.g t
    let lanes := s.activeIn o.g 0
    let n := typeWidth t / 8
    let seg := vdistLen (o.modBits 53 52)
    let consecutive := act.map fun i => ea + i * n
    let lie (acc : Access) (n : Nat) (vas : List Nat) : Prop := ∀ va ∈ vas, s.lies acc false va n (f va)
    let loads (i : Instr) (r : Nat) (fin : Fin) (vas : List Nat) (ends : Bool) : Prop := Loads i s r fin vas (vas.map f) ends
    (s.issues o.g (addrRegs o ++ [data]) →
      (lie .load o.nBytes [ea] →
        loads (.ld o) data fin [ea] false ∧ loads (.ldl o) data fin [ea] false ∧ loads (.ldlDrop o) data fin [ea] false ∧
        (ea % o.nBytes = 0 → loads (.ldAcqSy o) data fin [ea] true)) ∧
      (lie .lds o.nBytes [ea] → ea % o.nBytes = 0 → loads (.lds o) data fin [ea] false)) ∧
    (s.issuesV o.g t (addrRegs o ++ [regV o.dst.toNat]) [o.dst] → ea < 2 ^ 56 → lie .load n consecutive →
      s.clearOfWindows (consecutive.headD 0) (consecutive.getLastD 0 + n - consecutive.headD 0) →
      loads (.vld o) (regV o.dst.toNat) (.vector o.dst.toNat t act) consecutive false) ∧
    (s.issuesV o.g t [o.sa.toNat, regV o.sb.toNat, regV o.dst.toNat] [o.sb, o.dst] → lie .load n (act.map (s.gatherVa o)) →
      loads (.vgath o) (regV o.dst.toNat) (.vector o.dst.toNat t act) (act.map (s.gatherVa o)) false) ∧
    (s.issuesV o.g 0 [o.sa.toNat, regV o.sb.toNat, regV o.sc.toNat, regV o.dst.toNat] [o.sb, o.sc, o.dst] →
      lie .load (seg * typeWidth t / 8) (lanes.map (s.gatherVa o)) →
      loads (.vdist o) (regV o.dst.toNat)
        (.dist o.dst.toNat (o.modBits 55 54) t ((List.range seg).map fun j => s.elem t o.sc j) lanes)
        (lanes.map (s.gatherVa o)) false)

/-- For every state in which the instruction may issue, with addresses that pass their checks and room for 64 more
lines in the version buffer: ST, ST.REL.SY (which ends its chunk), VST, VSCAT, RED, JINIT, AMO and JARR answer a next
state in which the version of the live chunk has gained, in ascending order of elements, the storage addresses of each
element's bytes with the bytes stored (the low bytes of the data register, the lowest first; for JINIT the count and
the brick's address), or with the atomic's operation, operand and expected value; AMO and JARR are besides the newest
operation on ld, and their destination is pending. The pc is the next slot; no register, no byte of memory and no
other strand has changed. (R98, R177, R226, R263, R264, R294, R297, R303, R304, R122) -/
def Obligations.StoresIssue : Prop :=
  ∀ (o : Ops) (s : State) (f : Nat → List Nat), s.mayAccess → s.openChunk.linesUsed (coreOf s.cur) + 64 ≤ 256 →
    (∀ p, (s.pkg p).pcieOnly = []) →
    let ea := s.formed o
    let x := if o.fFlag then s.f o.sc else s.s o.sc
    let t := o.vType
    let act := s.activeIn o.g t
    let n := typeWidth t / 8
    let consecutive := act.map fun i => ea + i * n
    let plain (va : Nat) (bs : List Byte) : VWrite := { locs := f va, data := bs }
    let elems (vas : List Nat) : List VWrite := (vas.zip act).map fun e => plain e.1 (toBytes n (s.elem t o.sc e.2))
    let lie (acc : Access) (join : Bool) (n : Nat) (vas : List Nat) : Prop := ∀ va ∈ vas, s.lies acc join va n (f va)
    let data := if o.fFlag then 32 + o.sc.toNat else o.sc.toNat
    let m := amoBytes o
    let op := o.modBits 57 54
    let b := (s.s o.sc).toNat % 2 ^ (8 * m)
    let expected := (s.s o.dst).toNat % 2 ^ (8 * m)
    let join := (s.s o.sa).toNat
    let brick := (s.s o.sc).toNat
    let count := if o.sb = 0 then o.imm.toNat % 2 ^ 14 else (s.s o.sb).toNat
    (s.issues o.g (addrRegs o ++ [data]) → lie .store false o.nBytes [ea] →
      Stores (.st o) s [plain ea (toBytes o.nBytes x.toNat)] false ∧
      (ea % o.nBytes = 0 → Stores (.stRelSy o) s [plain ea (toBytes o.nBytes x.toNat)] true)) ∧
    (s.issuesV o.g t (addrRegs o ++ [regV o.sc.toNat]) [o.sc] → ea < 2 ^ 56 → lie .store false n consecutive →
      s.clearOfWindows (consecutive.headD 0) (consecutive.getLastD 0 + n - consecutive.headD 0) →
      Stores (.vst o) s (elems consecutive) false) ∧
    (s.issuesV o.g t [o.sa.toNat, regV o.sb.toNat, regV o.sc.toNat] [o.sb, o.sc] → lie .store false n (act.map (s.gatherVa o)) →
      Stores (.vscat o) s (elems (act.map (s.gatherVa o))) false) ∧
    (s.issues o.g (addrRegs o ++ [o.sc.toNat]) → ea % m = 0 → lie .red false m [ea] →
      Stores (.red o) s [{ locs := f ea, new := some (op, b, 0) }] false) ∧
    (s.issues o.g [o.sa.toNat, o.sb.toNat, o.sc.toNat] → count ≤ 16383 → join % 16 = 0 → brick % 64 = 0 → lie .store true 8 [join] →
      Stores (.jinit o) s [plain join (toBytes 8 (count * 2 ^ 50 + brick / 2 ^ 6 % 2 ^ 50))] false) ∧
    (s.issues o.g (addrRegs o ++ [o.sc.toNat, o.dst.toNat]) → ea % m = 0 → lie .amo false m [ea] →
      ∃ u, exec (.amo o) s = .next u ∧ Accessed s u [{ locs := f ea, new := some (op, b, expected) }] false ∧
        Awaits s u o.dst.toNat (.amo o.dst.toNat m op (s.s o.sc).toNat (s.s o.dst).toNat 0) [ea] [f ea]) ∧
    (s.issues o.g (addrRegs o ++ [o.dst.toNat]) → ea % 16 = 0 → lie .amo true 8 [ea] →
      ∃ u, exec (.jarr o) s = .next u ∧ Accessed s u [{ locs := f ea, new := some (16, 0, 0) }] false ∧
        Awaits s u o.dst.toNat (.jarr o.dst.toNat) [ea] [f ea])

/-- For every strand and every operation on ld whose data are complete and that has no earlier write of its strand to
see, LOAD_DATA_RETURN answers a next state in which an s register holds the number of the bytes read, the lowest
first, zero-extended or sign-extended as the load says, an f register the number zero-extended, the register of an AMO
the old value, the register of a JARR the COUNT of the old word, and each active element of a v register its own
number, in the strand and in no other; no such operation is open on ld any more; memory and every other strand are
unchanged. STORE_ACKNOWLEDGEMENT leaves no open operation of its number on st, and changes no register, no memory and
no other strand. (R177, R178, R225, R263, R297, R304) -/
def Obligations.DataAndAcknowledgementsReturn : Prop :=
  ∀ (k seq : Nat) (s : State), k < strandLimit →
    (∀ (o : OutOp) (l : List Nat), (s.strand k).ops.find? (fun o => o.counter == .ld && o.seq == seq && !o.done && o.complete) = some o →
      o.earlier = [] → o.mark = [] → o.locs.head? = some l →
      let g := (s.strand k).regs
      let x (l : List Nat) : Nat := fromBytes (l.map fun a => tget 0 o.buf a)
      ∃ t, exec (.loadDataReturn k seq) s = .next t ∧ t.mem = s.mem ∧ (∀ j, j ≠ k → t.strand j = s.strand j) ∧
        (∀ p ∈ (t.strand k).ops, p.counter = .ld → p.seq = seq → p.done = true) ∧
        (∀ (r : BitVec 6) n sx, o.fin = .scalar false r.toNat n sx →
          OnlyS g (t.strand k).regs r
            (if sx then (BitVec.ofNat (8 * n) (x l)).signExtend 64 else BitVec.ofNat 64 (x l))) ∧
        (∀ (r : BitVec 6) n sx, o.fin = .scalar true r.toNat n sx → OnlyF g (t.strand k).regs r (BitVec.ofNat 64 (x l))) ∧
        (∀ (r : BitVec 6) n op b e c, o.fin = .amo r.toNat n op b e c → OnlyS g (t.strand k).regs r (BitVec.ofNat 64 (x l))) ∧
        (∀ (r : BitVec 6), o.fin = .jarr r.toNat → OnlyS g (t.strand k).regs r (BitVec.ofNat 64 (x l / 2 ^ 50 % 2 ^ 14))) ∧
        (∀ (r : BitVec 6) ty act, o.fin = .vector r.toNat ty act → act.Nodup → (∀ i ∈ act, i < elemCount ty) → ty ≠ 15 →
          OnlyV g (t.strand k).regs ty r fun i => if i ∈ act then some (x (o.locs.getD (act.idxOf i) [])) else none)) ∧
    (∃ t, exec (.storeAcknowledgement k seq) s = .next t ∧ t.mem = s.mem ∧ (∀ j, j ≠ k → t.strand j = s.strand j) ∧
      (t.strand k).regs = (s.strand k).regs ∧ (t.strand k).pc = (s.strand k).pc ∧
      (∀ p ∈ (t.strand k).ops, p.counter = .st → p.seq = seq → p.done = true))

/-- For every strand whose only chunk is sealed, has made its accesses and gained every grant and answer, while no
strand holds the die's token and no other chunk has locked a pool word that it writes: the step COMMIT_POINT answers a
next state in which the strand has no chunk, its squash count is 0, and its registers, its pc and its operations are
as they were. A chunk that stored nothing and holds nothing leaves memory and every other strand unchanged; one whose
only store is of bytes of a scratchpad outside every window leaves exactly those bytes of memory with the bytes
stored, and so does one whose only store is to memory, through no port and on no line that its die's peer store takes:
the bytes stored, or for an AMO those of the new value of the bytes that memory held, and no word is in TW for the
chunk any more. A chunk whose only store is a RED leaves memory as it was and its cluster's partial of the word with the
operand taken in. The commit of an INVP leaves exactly the translations outside its scope and range, no valid word of a
window in a page that it covers, and no copy in an L1 region of a RO page that it covers, and owes INVP_COMPLETION.
SOLE_COMMIT_TOKEN_GRANT gives the token of a die that no strand holds to the waiting strand with the oldest
ticket, which then runs. INVP_COMPLETION lets the strand run once nothing uses a dropped translation, and else waits.
(R98, R102, R103, R106, R107, R220, R21) -/
def Obligations.ChunksCommit : Prop :=
  (∀ (k : Nat) (s : State) (c : Chunk), s.mayCommit k c → c.held = [] →
    (c.writes = [] → ∃ t, exec (.commitPoint k) s = .next t ∧ (t.strand k).chunks = [] ∧ (t.strand k).squashes = 0 ∧
      (t.strand k).regs = (s.strand k).regs ∧ (t.strand k).pc = (s.strand k).pc ∧ (t.strand k).ops = (s.strand k).ops ∧
      t.mem = s.mem ∧ ∀ j, j ≠ k → t.strand j = s.strand j) ∧
    (∀ (l : List Nat) (bs : List Byte), c.writes = [{ locs := l, data := bs }] → l.length = bs.length → l.Nodup →
      (∀ a ∈ l, isPool a = true ∧
        (s.bank (bankAt (poolCore (a / 8 * 8)) (poolOff (a / 8 * 8)))).windowAt
          (poolOff (a / 8 * 8) - (s.bank (bankAt (poolCore (a / 8 * 8)) (poolOff (a / 8 * 8)))).kbReg) = none) →
      ∃ t, exec (.commitPoint k) s = .next t ∧ (t.strand k).chunks = [] ∧ (t.strand k).squashes = 0 ∧
        (t.strand k).regs = (s.strand k).regs ∧ (t.strand k).pc = (s.strand k).pc ∧
        ∀ a, t.mem.read a = if a ∈ l then bs.getD (l.idxOf a) 0 else s.mem.read a)) ∧
  (∀ (k : Nat) (s : State) (c : Chunk) (w : VWrite) (cls : Nat), s.mayCommit k c → c.held = [] → c.writes = [w] → c.pcie = [] →
    w.locs.Nodup →
    (∀ a ∈ w.locs, a < poolBase ∧ tget 3 c.classes (a / 8) = cls ∧ (cls = 3 → isPeer (dieOf k) a = false) ∧ s.plainHome (a / 64 * 64) ∧
      isHost a = false ∧ ((s.entry (a / 64)).state (a / 8 % 8) = .u ∨ (s.entry (a / 64)).state (a / 8 % 8) = .s)) → cls ≠ 4 →
    let gives (bs : List Byte) : Prop :=
      ∃ t, exec (.commitPoint k) s = .next t ∧ (t.strand k).chunks = [] ∧ (t.strand k).squashes = 0 ∧
        (t.strand k).regs = (s.strand k).regs ∧ (t.strand k).pc = (s.strand k).pc ∧ (cls ≠ 3 → ∀ j, j ≠ k → t.strand j = s.strand j) ∧
        (∀ l, ∀ x ∈ (t.entry l).tw, x.2 ≠ (k, c.id)) ∧
        ∀ a, t.mem.read a = if a ∈ w.locs then bs.getD (w.locs.idxOf a) 0 else s.mem.read a
    (w.new = none → w.data.length = w.locs.length → gives w.data) ∧
    (∀ op b e, w.new = some (op, b, e) → op ≠ 16 →
      gives (toBytes w.locs.length (atomicNew op w.locs.length (fromBytes (w.locs.map s.mem.read)) b e)))) ∧
  (∀ (k : Nat) (s : State) (c : Chunk) (w : VWrite) (op b e : Nat), s.mayCommit k c → c.held = [] → c.writes = [w] → c.pcie = [] →
    w.new = some (op, b, e) → op ≤ 8 ∨ op = 12 →
    let a := w.locs.headD 0
    let n := w.locs.length
    let cl := clusterOf k
    let op' := if op = 1 then 0 else op
    let v := if op = 1 then (2 ^ (8 * n) - b) % 2 ^ (8 * n) else b
    (n = 4 ∨ n = 8) → b < 2 ^ (8 * n) → a < poolBase → (∀ x ∈ w.locs, x / 8 = a / 8) → tget 3 c.classes (a / 8) = 4 →
    s.registered cl (a / 8) = true →
    let gives (x : Nat) : Prop :=
      ∃ t, exec (.commitPoint k) s = .next t ∧ (t.strand k).chunks = [] ∧ t.mem = s.mem ∧ (∀ j, j ≠ k → t.strand j = s.strand j) ∧
        ∃ p ∈ (t.cluster cl).partials, p.addr = a ∧ p.n = n ∧ p.op = op' ∧ p.value = some x
    ((s.cluster cl).partials = [] → gives v) ∧
    (∀ p old, (s.cluster cl).partials = [p] → p.addr = a → p.n = n → p.op = op' → p.value = some old →
      gives (atomicNew op' n old v 0))) ∧
  (∀ (k : Nat) (s : State) (c : Chunk) (scope : Nat) (domain : Bool) (va key n : Nat),
    (∀ b ∈ s.banks, s.bank b.1 = b.2 ∧ ∀ q ∈ b.2.winQueue, q.lkey = b.2.lkey) →
    let reaches (p : Nat) : Prop := domain = true ∨ p = pkgOf k
    let covers (lkey page pages : Nat) : Prop :=
      if scope = 0 then (key = 0 ∨ lkey = key) ∧ va / 4096 < page + pages ∧ page < va / 4096 + n
      else scope = 1 → key ≠ 0 ∧ lkey = key
    let drops (e : TlbEntry) : Prop := reaches (sourcePkg e.source) ∧ covers e.lkey e.vpage e.pages
    Commits s k c (.invp scope domain va key n) fun t =>
      (∀ e, e ∈ t.tlb ↔ e ∈ s.tlb ∧ ¬ drops e) ∧
      (∀ b w x i, reaches (pkgOf (4 * b)) → tget? (t.bank b).windows w = some x → i ∈ x.valid →
        ¬ covers (s.bank b).lkey ((x.base + 8 * i) / 4096) 1) ∧
      (∀ j x e, reaches (pkgOfDie (dieOfCluster (j / 16))) → x ∈ (t.core j).l1 → x.cls = 1 → e ∈ s.tlb → drops e → e.cls = 1 →
        e.frames (x.line * 64) = false) ∧
      t.due.contains (.invpCompletion k) = true) ∧
  (∀ (d k : Nat) (s : State) (x : Strand) (tk : Ticket), d < 8 * packageLimit → (s.die d).token = none → (k, x) ∈ s.strands →
    let waiting (e : Nat × Strand) : Prop := dieOf e.1 = d ∧ e.2.run = .token ∧ (s.bank (bankOf e.1)).frozen = false
    waiting (k, x) → x.sole = some tk →
    (∀ e ∈ s.strands, waiting e → ∀ u, e.2.sole = some u → (e.1 = k ∧ u = tk) ∨ tk.before u = true) →
    ∃ t, exec (.soleCommitTokenGrant d) s = .next t ∧ (t.die d).token = some k ∧ (t.strand k).run = .running ∧ t.mem = s.mem ∧
      ∀ j, j ≠ k → t.strand j = s.strand j) ∧
  (∀ (k : Nat) (s : State), k < strandLimit → (s.strand k).run = .invp → (s.strand k).chunks = [] →
    let used := (s.strand k).await.any s.stillUses
    ∃ t, exec (.invpCompletion k) s = .next t ∧ (t.strand k).run = (if used then .invp else .running) ∧
      (t.strand k).regs = (s.strand k).regs ∧ (t.strand k).pc = (s.strand k).pc ∧ t.mem = s.mem ∧
      (used = true → t.due.contains (.invpCompletion k) = true) ∧ ∀ j, j ≠ k → t.strand j = s.strand j)

/-- For every state in which the instruction may issue: SPMAP of an aligned, canonical range of global addresses in no
window and outside the aperture, whose pages are all translated, checked and of one cacheable class (writable unless
the window is read-only), into pool bytes below the inbox and in no window, retires and binds the window, with every
word invalid and every address at its translation; SPUNMAP retires and holds its effect, whose commit point queues the
window's M words for write-back and removes the binding; SPFLUSH, while cp is below 62, retires, counts an operation on
cp, holds its command, and ends the chunk, at whose commit point the M words are snapshotted and queued and are no
longer M, and the operation waits for every queued write of the window, or completes where there is none. WINDOW_WRITE_BACK of
a core takes the oldest queued write of its first bank that has one: where the translation passes its checks and no
word of the line waits or is owned, the bytes in the 32-byte piece of the first one stand at their home; where that is
all of them the write leaves the queue, and else the others travel as a packet and the write leaves once no piece of
it is left: that the pieces of one write are 32 bytes and that those after the first travel as a packet is read from
R114, R125 and R126 (log 60). (R47, R48, R49, R52, R232, R234, R235, R236) -/
def Obligations.WindowsAreBoundAndWrittenBack : Prop :=
  (∀ (o : Ops) (s : State) (e : Nat → TlbEntry) (cls : Nat), s.issues o.g [o.sa.toNat, o.sb.toNat, o.sc.toNat] →
    let w := o.modBits 58 56
    let g := (s.s o.sa).toNat
    let p := (s.s o.sb).toNat
    let len := (s.s o.sc).toNat
    let b := s.bank (bankOf s.cur)
    g % 64 = 0 → p % 64 = 0 → len % 64 = 0 → 0 < len → g + len ≤ 0xFF * 2 ^ 48 → p + len ≤ b.inboxAt →
    tget? b.windows w = none →
    (∀ x ∈ b.windows, rangesMeet g len x.2.base x.2.len = false ∧ rangesMeet p len x.2.pool x.2.len = false) →
    (cls = 0 ∨ cls = 1 ∨ cls = 3 ∨ cls = 4) →
    (∀ a, g ≤ a → a < g + len →
      s.tlb.find? (fun x => x.maps (sourceCore (coreOf s.cur)) s.me.lkey a) = some (e (a / 4096)) ∧
      (e (a / 4096)).check s.me.sv s.me.lkey .spmap = none ∧ (e (a / 4096)).cls = cls ∧
      (o.modBit 59 = false → cls = 1 ∨ cls = 4 ∨ (e (a / 4096)).w = true)) →
    ∃ t x, exec (.spmap o) s = .next t ∧ t.me.pc = nextPc s.me.pc ∧ t.me.regs = s.me.regs ∧ t.mem = s.mem ∧
      tget? (t.bank (bankOf s.cur)).windows w = some x ∧ x.base = g ∧ x.pool = p ∧ x.len = len ∧ x.cls = cls ∧
      x.ro = (o.modBit 59 || cls == 1 || cls == 4) ∧ x.valid = [] ∧ x.dirty = [] ∧
      (∀ a, g ≤ a → a < g + len → x.phys a = storageOf ((e (a / 4096)).phys a)) ∧ w ∈ t.chunk.maps) ∧
  (∀ (o : Ops) (s : State), s.issues o.g [] →
    Holds (.spunmap o) s [.unmap (o.modBits 58 56)] false ∧
    (s.openChunk.counterFull .cp = false →
      Commands (.spflush o) s .cp (.cmd s.openChunk.nextId) true fun t =>
        ∃ m, tget? t.cmds s.openChunk.nextId = some m ∧ m.kind = .flush (o.modBits 58 56) ∧ m.strand = s.cur ∧
          m.seq = s.me.issued)) ∧
  (∀ (s : State) (k : Nat) (c : Chunk) (w : Nat), Commits s k c (.unmap w) fun t =>
    tget? (t.bank (bankOf k)).windows w = none ∧ t.mem = s.mem ∧
      ∀ x, tget? (s.bank (bankOf k)).windows w = some x → s.snapshotted t (bankOf k) w x) ∧
  (∀ (s : State) (k : Nat) (c : Chunk) (w n : Nat) (m : Cmd) (x : Window), tget? s.cmds n = some m → m.kind = .flush w → m.strand = k →
    m.id = n → tget? (s.bank (bankOf k)).windows w = some x → Commits s k c (.cmd n) fun t =>
      t.mem = s.mem ∧ s.snapshotted t (bankOf k) w x ∧ tget? t.cmds n = none ∧
      (∀ y, tget? (t.bank (bankOf k)).windows w = some y → y.dirty = [] ∧ y.valid = x.valid ∧ y.base = x.base ∧ y.pool = x.pool) ∧
      (let mine := ((t.bank (bankOf k)).winQueue.filter fun q => q.window == w).map fun q => q.id
       if mine = [] then ∀ p ∈ (t.strand k).ops, p.counter = .cp → p.seq = m.seq → p.done = true
       else ∃ f ∈ (t.bank (bankOf k)).flushes, f.strand = k ∧ f.seq = m.seq ∧ f.writes = mine)) ∧
  (∀ (s : State) (core b : Nat) (q : WinWrite) (rest : List WinWrite) (e : TlbEntry), 8 * core < strandLimit →
    (b = 2 * core ∨ b = 2 * core + 1 ∧ (s.bank (2 * core)).winQueue = []) →
    let a := storageOf (e.phys q.va)
    let piece (x : Nat) : Nat := (a + (x - q.va)) / 32
    let first := piece ((q.cells.map Prod.fst).headD q.va)
    (s.bank b).winQueue = q :: rest → (∀ y ∈ rest, y.id ≠ q.id) → q.id ≠ 0 → s.isCut q.lkey q.id = false →
    s.piecesLeft q.id = false →
    (q.cells ≠ [] → (q.cells.map Prod.fst).Nodup → (∀ c ∈ q.cells, q.va ≤ c.1 ∧ c.1 < q.va + 64) →
      q.va % 64 = 0 → a % 64 = 0 → q.entry = some e → e.check q.sv q.lkey .winWrite = none →
      s.rangeAdmits (pkgOfDie (dieOfCluster (core / 16))) (e.phys q.va) 2 = true → s.plainRange [q.id] a 64 →
      ∃ t, exec (.windowWriteBack core) s = .next t ∧
        (∀ x, t.mem.read x = if a ≤ x ∧ x < a + 64 ∧ x / 32 = first then (tget? q.cells (q.va + (x - a))).getD (s.mem.read x)
          else s.mem.read x) ∧
        ((∀ c ∈ q.cells, piece c.1 = first) → (t.bank b).winQueue = rest) ∧
        ((∃ c ∈ q.cells, piece c.1 ≠ first) → (t.bank b).winQueue = { q with cells := [] } :: rest ∧
          t.due.contains (.windowWriteBack core) = true ∧
          t.carries .piece fun p => p.cells = (q.cells.map fun c => (a + (c.1 - q.va), c.2)).filter fun c => decide (c.1 / 32 ≠ first))) ∧
    (q.cells = [] → ∃ t, exec (.windowWriteBack core) s = .next t ∧ t.mem = s.mem ∧ (t.bank b).winQueue = rest))

/-- For every state in which the instruction may issue and no watch entry is pending: CHKW goes to the slot IMM slots
after the pc when an entry is struck or OVF is set and the target can be entered, and else goes on; WCLR retires,
frees every entry and clears OVF. While an entry is pending both stay where they are. PF and RES always retire with
every register unchanged: a line whose address is not canonical, or that the target of another package does not admit,
is dropped and counted in KHDROP.CHECK, RES of a line of a cacheable class makes it resident at its die for the
launch, beside the launches that hold it already, while there is room, and its release ends the residency that the
launch holds and no other's; PF of a line of class PRIV, RO or SPAN of which the core has no copy, in no window, asks
its home for the eight words. (R228, R229, R56, R57, R58, R233) -/
def Obligations.WatchesAndHints : Prop :=
  ∀ (o : Ops) (s : State),
    let pending := s.me.watches.any fun w => w.st == .pending
    let struck := s.me.ovf || s.me.watches.any fun w => w.st == .struck
    (s.issues o.g [] → pending = false →
      (struck = false → ∃ t, exec (.chkw o) s = .next t ∧ Ran s t ∧ t.me = { s.me with pc := nextPc s.me.pc, chunks := t.me.chunks }) ∧
      (struck = true → ∀ x e, slotAdd s.me.pc (o.imm.signExtend 64 : Word).toInt = some x → Enters s s.me.sv x.toNat true e →
        Transfers (.chkw o) s x.toNat fun g h => h = g) ∧
      (∃ t, exec (.wclr o) s = .next t ∧ Ran s t ∧ t.me.pc = nextPc s.me.pc ∧ t.me.regs = s.me.regs ∧ t.me.watches = [] ∧
        t.me.ovf = false)) ∧
    (s.issues o.g [] → pending = true → ∀ i ∈ [Instr.chkw o, .wclr o],
      ∃ t, exec i s = .next t ∧ t.me.pc = s.me.pc ∧ t.me.regs = s.me.regs ∧ t.chunk.count = s.openChunk.chunk.count) ∧
    (s.issues o.g (addrRegs o ++ [o.sc.toNat]) →
      let va := s.formed o / 64 * 64
      let one := (s.s o.sc).toNat ≤ 1
      (∀ i ∈ [Instr.pf o, .res o], ∃ t, exec i s = .next t ∧ t.me.pc = nextPc s.me.pc ∧ t.me.regs = s.me.regs ∧
        t.chunk.count = s.openChunk.chunk.count + 1 ∧
        (one → 2 ^ 56 ≤ va → (t.core (coreOf s.cur)).khdrop = countField (s.core (coreOf s.cur)).khdrop 63 32)) ∧
      (∀ e, one → va + 64 ≤ 2 ^ 56 → bits va 55 48 ≠ 0xFF →
        s.tlb.find? (fun x => x.maps (sourceCore (coreOf s.cur)) s.me.lkey va) = some e →
        e.check s.me.sv s.me.lkey .load = none → e.cls ≠ 2 → e.cls ≠ 5 →
        let a := storageOf (e.phys va)
        let d := if pkgOfAddr a = pkgOf s.cur then homeOf a else dieOf s.cur
        let held := tget? (s.die d).resident (a / 64)
        let admits := s.rangeAdmits (pkgOf s.cur) (e.phys va) 1
        (admits = false → ∀ i ∈ [Instr.pf o, .res o], ∃ t, exec i s = .next t ∧
          (t.core (coreOf s.cur)).khdrop = countField (s.core (coreOf s.cur)).khdrop 63 32) ∧
        (admits = true → o.modBit 58 = false → held = none → (s.die d).resident.length < residentLimit →
          ∃ t, exec (.res o) s = .next t ∧ tget? (t.die d).resident (a / 64) = some [s.me.lkey]) ∧
        (admits = true → o.modBit 58 = false → ∀ ls, held = some ls → ls ≠ [] → s.me.lkey ∉ ls →
          ∃ t, exec (.res o) s = .next t ∧ tget? (t.die d).resident (a / 64) = some (ls ++ [s.me.lkey])) ∧
        (admits = true → o.modBit 58 = true → ∀ ls, held = some ls →
          ∃ t, exec (.res o) s = .next t ∧ tget? (t.die d).resident (a / 64) =
            if (∀ l ∈ ls, l = s.me.lkey) then none else some (ls.filter fun l => l != s.me.lkey)) ∧
        (admits = true → o.modBit 58 = false → (e.cls = 0 ∨ e.cls = 1 ∨ e.cls = 3) → a % 64 = 0 → (s.bank (bankOf s.cur)).windowOf va = none →
          s.hasL1 (bankOf s.cur) = true → (∀ i, i < 8 → s.localByte s.cur e.cls (a + 8 * i) = none) →
          (s.pkg (pkgOfAddr a)).down = false →
          ∃ t, exec (.pf o) s = .next t ∧
            t.carries .read fun q => q.line = a / 64 ∧ q.words = rangeFrom (a / 8) 8 ∧ q.strand = s.cur ∧ q.cls = e.cls)))

/-! ### Homes, holders and the host -/

/-- For every packet in flight at a home whose package answers, with no strand in sole-commit mode, no earlier request
for its words, no data of its holder before it, and a line none of whose words waits, is owned elsewhere or has
partials: HOME_READ_REQUEST answers a next state that carries a fill answer to the holder with the bytes of the words;
HOME_OWNERSHIP_REQUEST of a live chunk puts exactly its words in TW for the chunk, and carries the grant to the
holder, or, where a reduction buffer asks for words of a RED line that have no partials, registers it for them; of
pieces of an engine write, it leaves the first of them at the home, in whole 32-byte pieces, and the packet goes on
with the others or is gone. HOME_WRITE_BACK of words that its holder owns, and RECALL_ANSWER to the recall that is
outstanding for words, leave their bytes at the home, and the words in S, or in U when the owner keeps nothing; a
RECALL_ANSWER to another recall changes no byte and no state. CONFIRM_REQUEST of words that no course locks and no
engine write has still to reach carries the confirm answer; CONFIRM_ANSWER, with nothing of its channel before it,
takes one answer of the home off what the chunk awaits. COMBINE_PARTIAL_ARRIVAL applies a partial to the home's number
and changes no other byte. (R74, R75, R77, R78, R79, R81, R84, R102, R117, R126) -/
def Obligations.HomesAnswerRequests : Prop :=
  ∀ (id : Nat) (s : State) (p : Packet), s.packet id = some p →
    let idx := p.words.map (· % 8)
    let e := s.entry p.line
    let calm := (s.strand p.strand).sole = none ∧ s.queuedBefore p = false ∧ s.behindData p = false ∧ s.idleLine p.line ∧
      p.cls ≠ 5 ∧ isHost (p.line * 64) = false ∧ s.regionAt (p.line * 64) ≠ .reserved ∧ s.dir.length < 524288 ∧ (∀ w ∈ p.words, lineOfWord w = p.line)
    let receiver := (s.pkg p.sourcePackage).down = false
    let nodup := (p.cells.map Prod.fst).Nodup
    (calm → receiver → s.rangeAdmits p.sourcePackage (p.line * 64) (s.readBit p) = true →
      ∃ t, exec (.homeReadRequest id) s = .next t ∧ t.strands = s.strands ∧
        t.carries .fill fun q => q.holder = p.holder ∧ q.words = p.words ∧ q.strand = p.strand ∧ q.chunk = p.chunk ∧ q.seq = p.seq ∧
          q.cells = p.words.flatMap fun w => wordCells w s.mem.read) ∧
    (∀ c, calm → receiver → p.kind = .own → s.chunkOf p.strand p.chunk = some c → idx.Nodup →
      (∀ b, s.rangeAdmits (pkgOf p.strand) (p.line * 64) b = true) →
      ∃ t, exec (.homeOwnershipRequest id) s = .next t ∧ t.mem = s.mem ∧ t.strands = s.strands ∧
        (t.carries .grant fun q => q.holder = p.holder ∧ q.line = p.line ∧ q.words = p.words ∧ q.strand = p.strand ∧ q.chunk = p.chunk) ∧
        ((∀ cl, p.holder ≠ .redbuf cl) → (t.entry p.line).tw = idx.map (fun i => (i, p.strand, p.chunk))) ∧
        (∀ cl, p.holder = .redbuf cl → ∀ i ∈ idx, (t.entry p.line).state i = .p ∧ ∃ n, (cl, i, n) ∈ (t.entry p.line).regs)) ∧
    (p.kind = .piece → isHost (p.line * 64) = false → s.plainHome (p.line * 64) → nodup → p.cells ≠ [] →
      (∀ c ∈ p.cells, c.1 / 64 = p.line) →
      let first := (p.cells.map Prod.fst).headD 0 / 32
      let left := p.cells.filter fun c => decide (c.1 / 32 ≠ first)
      ∃ t, exec (.homeOwnershipRequest id) s = .next t ∧ t.strands = s.strands ∧
        (∀ x, t.mem.read x = if x / 32 = first then (tget? p.cells x).getD (s.mem.read x) else s.mem.read x) ∧
        (left = [] → p ∉ t.net) ∧
        (left ≠ [] → t.carries .piece fun q => q.id = id ∧ q.cells = left)) ∧
    (nodup → s.plainHome (p.line * 64) → (∀ c ∈ p.cells, c.1 / 64 = p.line ∧ c.1 / 8 % 8 ∈ idx) →
      (∀ keeps, p.kind = .writeBack keeps → (∀ i ∈ idx, e.state i = .m ∧ e.owner i = some p.holder) →
        ∃ t, exec (.homeWriteBack id) s = .next t ∧ (∀ x, t.mem.read x = (tget? p.cells x).getD (s.mem.read x)) ∧
          ∀ i ∈ idx, (t.entry p.line).state i = if keeps then .s else .u) ∧
      (s.behindData p = false → (∀ i ∈ idx, e.state i = .tr ∧ tget? e.recalls i = some p.tag) →
        ∃ t, exec (.recallAnswer id) s = .next t ∧ (∀ x, t.mem.read x = (tget? p.cells x).getD (s.mem.read x)) ∧
          ∀ i ∈ idx, (t.entry p.line).state i = if p.seq = 1 then .u else .s) ∧
      (s.behindData p = false → (∀ i ∈ idx, tget? e.recalls i ≠ some p.tag) →
        ∃ t, exec (.recallAnswer id) s = .next t ∧ t.mem = s.mem ∧ ∀ i, (t.entry p.line).state i = e.state i)) ∧
    ((∀ w ∈ p.words, (s.entry (lineOfWord w)).locks = [] ∧ (s.entry (lineOfWord w)).split = []) → receiver →
      ∃ t, exec (.confirmRequest id) s = .next t ∧ t.strands = s.strands ∧ t.mem = s.mem ∧
        t.carries .confirmAns fun q => q.words = p.words ∧ q.strand = p.strand ∧ q.chunk = p.chunk ∧ q.home = p.home) ∧
    (∀ c, s.behind p = false → s.chunkOf p.strand p.chunk = some c →
      ∃ t, exec (.confirmAnswer id) s = .next t ∧ t.mem = s.mem ∧
        (t.chunkOf p.strand p.chunk).map (fun d => d.toConfirm) = some (c.toConfirm.erase p.home)) ∧
    (∀ a n op v, s.behindData p = false → p.kind = .partialAns op n → p.cells = cellsAt a (toBytes n v) → 0 < n → v < 2 ^ (8 * n) →
      (∀ i, i < n → isHost (a + i) = false) →
      ∃ t, exec (.combinePartialArrival id) s = .next t ∧
        t.mem.readNat a n = atomicNew op n (s.mem.readNat a n) v 0 % 2 ^ (8 * n) ∧
        ∀ x, (x < a ∨ a + n ≤ x) → t.mem.read x = s.mem.read x)

/-- For every packet that has reached its holder with nothing of its channel before it: INVALIDATION_ARRIVAL at a core
whose L1 is not fused leaves it no clean span that overlaps the words, and where one strand of the core has a chunk
that has not passed its commit point, its only one, whose read signature a word hits, that strand is back at the
chunk's first instruction with the registers it had there, and has no chunk; RECALL_ARRIVAL carries a recall answer
with the bytes that the holder owns of the words and the recall's number, marked as for write or for read; FILL_ANSWER
of a load gives the words to the operation that awaits them, and owes the return of its data once it awaits none, and
of a grant takes the line off what the chunk awaits; COMBINE_REQUEST at a reduction buffer leaves it no partial of the
words, and carries for each the packet that ends its registration. (R72, R78, R80, R84, R85, R87, R104) -/
def Obligations.HoldersTakeTheirPackets : Prop :=
  ∀ (id : Nat) (s : State) (p : Packet), s.packet id = some p → s.behind p = false →
    let alive := (s.pkg (pkgOfDie p.home)).down = false
    (∀ core, p.holder = .core core → s.isFused (core / 16) = false →
      ∃ t, exec (.invalidationArrival id) s = .next t ∧ t.mem = s.mem ∧
        (∀ x ∈ (t.core core).l1, x.owned = true ∨ x.overlaps p.words = false) ∧
        (∀ k c w, coreOf k = core → (∀ j, coreOf j = core → j ≠ k → (s.strand j).chunks = []) → (s.strand k).chunks = [c] →
          c.committed = false → w ∈ p.words → isPool (w * 8) = false → sigHits c.rsig w = true → (p.seq = 1 → p.strand ≠ k) →
          (t.strand k).chunks = [] ∧ (t.strand k).pc = c.startPc ∧ (t.strand k).regs = c.regs)) ∧
    (∀ forWrite, p.kind = .recall forWrite → alive →
      ∃ t, exec (.recallArrival id) s = .next t ∧
        t.carries .recallAns fun q => q.holder = p.holder ∧ q.words = p.words ∧ q.cells = s.ownedCells p.holder p.words ∧
          q.tag = p.tag ∧ q.seq = if forWrite then 1 else 0) ∧
    (p.kind = .fill → p.win = none → p.chunk ≠ 0 →
      ∃ t, exec (.fillAnswer id) s = .next t ∧ t.mem = s.mem ∧ (∀ j, j ≠ p.strand → t.strand j = s.strand j) ∧
        (t.strand p.strand).regs = (s.strand p.strand).regs ∧
        ∀ o ∈ (s.strand p.strand).ops, o.counter = .ld → o.seq = p.seq → o.chunk = p.chunk →
          let o' := o.supply p.cells p.words
          o' ∈ (t.strand p.strand).ops ∧ o'.need = o.need.filter (fun w => !p.words.contains w) ∧
          (o'.need = [] → o.done = false → t.due.contains (.loadDataReturn p.strand p.seq) = true)) ∧
    (∀ c, p.kind = .grant → s.chunkOf p.strand p.chunk = some c →
      ∃ t, exec (.fillAnswer id) s = .next t ∧ t.mem = s.mem ∧ (∀ j, j ≠ p.strand → t.strand j = s.strand j) ∧
        t.chunkOf p.strand p.chunk = some { c with toOwn := c.toOwn.erase p.line }) ∧
    (∀ cl, p.holder = .redbuf cl → (∀ w ∈ p.words, (s.pkg (pkgOfAddr (w * 8))).down = false) →
      ∃ t, exec (.combineRequest id) s = .next t ∧ t.mem = s.mem ∧ t.strands = s.strands ∧
        (t.cluster cl).partials = (s.cluster cl).partials.filter (fun x => !p.words.contains (x.addr / 8)) ∧
        ∀ w ∈ p.words, t.carries (.partialAns 0 0) fun q => q.holder = p.holder ∧ q.words = [w] ∧ q.seq = 1)

/-- For every line of host memory that no chunk holds in TW and no write has still to reach: HOST_SNPDATA leaves a line that the device caches in S,
HOST_SNPINV leaves it in I, HOST_SNPCUR leaves its state, and each forwards the device's bytes of a modified line to
host memory. For every access of the host to HBM of a package, to a line none of whose words waits or is owned
elsewhere and for which no earlier request waits, in no page in its final pass: HOST_CXL_MEM_READ that may cache a
line of a SYS page with BIAS records the host as its holder; HOST_CXL_MEM_WRITE leaves the data at the home, changes
no other byte, and counts a crossing where a device atomic has executed on the line within 4,096 cycles. A
HOST_CXL_MEM_WRITE to host memory is the host's own store (log 108): it leaves the data in the lines that the device
does not cache, and no other byte changes. BACK_INVALIDATION_ANSWER that was asked for leaves the host no copy of the
line, or after BISnpData at most a shared one, with the data it sends at the home; CXL_CACHE_GRANT that was asked for
caches the line with its data, in E or S, while the cache has room. (R90, R91, R92, R96) -/
def Obligations.HostReachesLines : Prop :=
  ∀ (pkg line : Nat) (s : State) (data : List Byte), pkg < packageLimit →
    let now := s.mesiOf line
    let forwarded (t : State) : Prop := ∀ i, i < 64 → now = .m → t.mem.read (line * 64 + i) = s.homeByte (line * 64 + i)
    (isHost (line * 64) = true → (s.entry line).held = false →
      (∃ t, exec (.hostSnpdata pkg line) s = .next t ∧ t.strands = s.strands ∧ forwarded t ∧
        t.mesiOf line = if now = .i then .i else .s) ∧
      (∃ t, exec (.hostSnpinv pkg line) s = .next t ∧ forwarded t ∧ t.mesiOf line = .i) ∧
      (∃ t, exec (.hostSnpcur pkg line) s = .next t ∧ t.strands = s.strands ∧ forwarded t ∧ t.mesiOf line = now)) ∧
    (∀ addr size, addr < 2 ^ 39 → 0 < size → addr % 64 + size ≤ 64 →
      let a := pkg * 2 ^ 50 + addr
      s.regionAt a = .hbm → s.inFinalPass a = false → s.idleLine (a / 64) → s.plainHome (a / 64 * 64) →
      (s.firstAt (a / 64) (hostKey a size none) →
        ∃ t, exec (.hostCxlMemRead pkg addr size true) s = .next t ∧ t.strands = s.strands ∧
          (s.hostBias a = true → a / 64 ∈ (t.pkg pkg).hostCopies)) ∧
      (data.length = size → s.firstAt (a / 64) (hostKey a size (some data)) →
        ∃ t, exec (.hostCxlMemWrite pkg addr data) s = .next t ∧ t.strands = s.strands ∧
          (∀ x, t.mem.read x = if a ≤ x ∧ x < a + size then data.getD (x - a) 0 else s.mem.read x) ∧
          (t.pkg pkg).kxdom = (s.pkg pkg).kxdom +
            if s.dies.any (fun d => ((tget? d.2.atomics (a / 64)).map fun t => decide (s.time < t + 4096)).getD false)
            then 1 else 0)) ∧
    (∀ addr, 0x2000000000000 ≤ addr → addr + data.length ≤ 0x2800000000000 →
      let a := pkg * 2 ^ 50 + addr
      ∃ t, exec (.hostCxlMemWrite pkg addr data) s = .next t ∧ t = { s with mem := t.mem } ∧
        ∀ x, t.mem.read x =
          if a ≤ x ∧ x < a + data.length ∧ s.mesiOf (x / 64) = .i then data.getD (x - a) 0 else s.mem.read x) ∧
    ((s.pkg pkg).snoops.contains line = true → pkgOfAddr (line * 64) = pkg →
      (isHost (line * 64) = false → ∃ t, exec (.backInvalidationAnswer pkg line data) s = .next t ∧ t.strands = s.strands ∧
        ((s.pkg pkg).snoopData.contains line = false → (t.pkg pkg).hostCopies.contains line = false) ∧
        ((s.pkg pkg).snoopData.contains line = true → (t.pkg pkg).hostShared.contains line = true) ∧
        (t.pkg pkg).snoops.contains line = false ∧
        (data.length = 64 → ∀ i, i < 64 → t.mem.read (line * 64 + i) = data.getD i 0)) ∧
      (isHost (line * 64) = true → (s.pkg pkg).mesi.length < hostRoom →
        ∀ exclusive, ∃ t, exec (.cxlCacheGrant pkg line exclusive data) s = .next t ∧
          t.strands = s.strands ∧ t.mem = s.mem ∧ (t.pkg pkg).snoops.contains line = false ∧
          t.mesiOf line = (if exclusive then .e else .s) ∧
          (now = .i → data.length = 64 → ∀ i, i < 64 → t.homeByte (line * 64 + i) = data.getD i 0)))

/-! ### Messages, runs and the schedule -/

/-- For every state in which the instruction may issue on a core of a launch, with targets that name cores, agents or
experts of it: SEND, SENDM and SEND.NX retire and hold one message for each target in ascending order of the mask,
with the channel, the region, the payload bytes of v[SC] and, with TS = 1, the timestamp, at least one above the run's
in an ordered run; with E = 1 they end the chunk; SENDM with a mask of zero only retires; SEND of a brick holds its
address. HSET of a value whose reserved bits are zero, and whose SV bit is set only in supervisor mode, HMASK, HUNMASK
and QOPEN retire and hold theirs. The commit point of a chunk that holds only such an effect puts the message in
flight with its step owed, writes the handler table's entry, sets or clears MASK in the entries of the mask and in no
other, opens a region that the run has not opened, and frees the strand at the end of its run. (R106, R108, R154,
R299, R300, R301, R302, R305, R211) -/
def Obligations.MessagesAndHandlersAreHeld : Prop :=
  (∀ (o : Ops) (s : State) (l : Launch) (x : Nat), s.launchOf s.cur = some l →
    let len := o.imm.toNat / 2 ^ 8 % 2 ^ 7
    let ends := o.modBit 59
    let payload := (List.range len).map fun j => (s.me.regs.getLane o.sc.toNat (j / 4)).extractLsb' (8 * (j % 4)) 8
    let t := (s.s o.dst).toNat
    let time := if o.modBit 58 then some x else none
    let stamp := o.modBit 58 = true →
      if s.me.ordered then x = max t (s.me.info.ts + 1) else l.horizon.1 ≤ t ∧ x = t
    let msg (target : Nat) : Held := .msg target (o.imm.toNat % 2 ^ 6) payload len (o.modBits 51 48) time
    let fine (target : Nat) := l.resolve target ≠ .reserved ∧ l.resolve target ≠ .absent ∧ l.resolve target ≠ .stranger
    let regs := (if o.modBit 58 then [o.dst.toNat] else []) ++ (if len = 0 then [] else [regV o.sc.toNat])
    let allotted := len = 0 ∨ o.sc.toNat < s.vAllot s.cur
    let base := (s.s o.sa).toNat % 2 ^ 24
    let mask := (s.s o.sb).toNat
    let is := (List.range 64).filter (nbit mask)
    let field (i : Nat) : Nat := match o.modBits 56 55 with
      | 0 => base - base / 2 ^ 13 % 2 ^ 10 * 2 ^ 13 + (base / 2 ^ 13 % 2 ^ 10 + i) * 2 ^ 13
      | 1 => base - base % 16 + i
      | _ => base - base / 16 % 32 * 16 + i * 16
    let named (i : Nat) : Prop := match o.modBits 56 55 with
      | 0 => base / 2 ^ 13 % 2 ^ 10 + i ≤ 1023
      | 1 => i ≤ 15
      | _ => i ≤ 17
    let next := (s.epid s.cur + 2 ^ 13) % 2 ^ 23
    (s.issues o.g (o.sa.toNat :: regs) → allotted →
      (o.modBit 57 = true → (s.s o.sa).toNat % 64 = 0 → stamp →
        Holds (.send o) s [.brickMsg (s.s o.sa).toNat (o.modBits 51 48)] ends) ∧
      (o.modBit 57 = false → stamp → fine base → Holds (.send o) s [msg base] ends)) ∧
    (s.issues o.g (o.sa.toNat :: o.sb.toNat :: regs) → allotted →
      (mask = 0 → Computes (.sendm o) s fun g h => h = g) ∧
      (mask ≠ 0 → nbit base 23 = false → stamp → (∀ i ∈ is, named i ∧ fine (field i)) →
        Holds (.sendm o) s (is.map fun i => msg (field i)) ends)) ∧
    (s.issues o.g regs → allotted → l.stageOf (clusterOf s.cur) + 1 < l.stages → stamp → fine next →
      Holds (.sendNx o) s [msg next] ends)) ∧
  (∀ (o : Ops) (s : State),
    (s.issues o.g [o.sa.toNat] →
      ((s.s o.sa).toNat / 2 ^ 56 % 4 = 0 → (nbit (s.s o.sa).toNat 58 = true → s.me.sv = true) →
        Holds (.hset o) s [.hset (o.imm.toNat % 2 ^ 6) (s.s o.sa)] false) ∧
      Holds (.hmask o) s [.hmask (s.s o.sa) true] false ∧ Holds (.hunmask o) s [.hmask (s.s o.sa) false] false) ∧
    (s.issues o.g [] → Holds (.qopen o) s [.qopen (o.modBits 51 48)] false)) ∧
  (∀ (s : State) (k : Nat) (c : Chunk),
    let handler (t : State) (n : Nat) : Word := tget 0 (t.bank (bankOf k)).handlers n
    (∀ n x, Commits s k c (.hset n x) fun t => ∀ i, handler t i = if i = n then x else handler s i) ∧
    (∀ m on, Commits s k c (.hmask m on) fun t => ∀ i, i < 64 →
      handler t i = if m.getLsbD i then (if on then handler s i ||| 0x0800000000000000 else handler s i &&& 0xF7FFFFFFFFFFFFFF)
        else handler s i) ∧
    (∀ q, (s.strand k).info.qset.contains q = false → (s.strand k).info.region ≠ some q → Commits s k c (.qopen q) fun t =>
      (t.strand k).info.qset = (s.strand k).info.qset ++ [q] ∧
      tget 0 (t.core (coreOf k)).sent (regionKey (s.strand k).lkey q) =
        (tget 0 (s.core (coreOf k)).sent (regionKey (s.strand k).lkey q) + 1) % 2 ^ 48) ∧
    (∀ l target chan payload len q ts core, s.launchOf k = some l → l.resolve target = .core core →
      (s.pkg (pkgOf (8 * core))).down = false → Commits s k c (.msg target chan payload len q ts) fun t =>
        ∃ m ∈ t.msgs, m.dst = some core ∧ m.target = target ∧ m.chan = chan ∧ m.payload = payload ∧ m.len = len ∧ m.q = some q ∧
          m.ts = ts.getD s.time ∧ m.ord = ts.isSome ∧ m.srcId = l.epid (coreOf k) ∧ t.due.contains (.messageArrival m.id) = true) ∧
    (Commits s k c .endRun fun t => (t.strand k).run = .free ∧ (t.strand k).regs = (s.strand k).regs))

/-- For every state in which the instruction may issue, with ld at zero, a brick address aligned to 64 whose line lies
in memory of class PRIV, HOME or SPAN of a package of a stage of the launch, a resumption slot in the canonical range
and room in the version buffer: SUSP of no join writes a runnable brick (STATE 2) and holds its enqueueing; SUSP.MSG
writes one that waits for a message (STATE 1), and QWAIT one that waits for its region (STATE 4), which it holds. A
SUSP whose join has been read writes STATE 2 and enqueues when COUNT is zero, and STATE 1 otherwise. Word 0 holds the
virtual die and cluster, the resumption slot, whether the run is ordered and its mode; words 1 to 6 hold s1 to s6, an
ordered run's timestamp in place of s4; word 7 holds the run's priority, STATE, its channel and the join's address.
The chunk ends, with the end of the run held; no register changes and memory holds none of the words yet. (R143, R144,
R146, R211, R212, R306) -/
def Obligations.SuspendingWritesABrick : Prop :=
  ∀ (o : Ops) (s : State) (res : Word) (locs : List Nat),
    let m := s.openChunk
    let brick := (s.s o.sa).toNat
    let join := (s.s o.sb).toNat
    let e := s.epid s.cur
    let ord := s.me.info.ord
    let word (state link i : Nat) : Nat :=
      if i = 0 then
        e / 2 ^ 9 % 2 ^ 3 * 2 ^ 61 + e / 2 ^ 4 % 2 ^ 5 * 2 ^ 56 + res.toNat / 2 ^ 6 % 2 ^ 50 * 2 ^ 6 + (if ord then 32 else 0) +
          (if s.me.sv then 16 else 0) + res.toNat % 2 ^ 3
      else if i = 7 then s.me.info.pri * 2 ^ 61 + state * 2 ^ 58 + s.me.info.chan * 2 ^ 52 + link / 2 ^ 4 % 2 ^ 52
      else if i = 4 ∧ ord = true then s.me.info.ts
      else (s.me.regs.getS i).toNat
    let suspends (i : Instr) (state link : Nat) (hs : List Held) : Prop :=
      ∃ t c, exec i s = .next t ∧ t.me.run = .ending ∧ t.me.pc = nextPc s.me.pc ∧ t.me.regs = s.me.regs ∧ t.mem = s.mem ∧
        (∀ k, k ≠ s.cur → t.strand k = s.strand k) ∧ t.me.chunks.head? = some c ∧ c.sealed = true ∧
        c.writes = m.chunk.writes ++ (List.range 8).map (fun n =>
          { locs := (locs.drop (8 * n)).take 8, data := toBytes 8 (word state link n) }) ∧
        c.held = m.chunk.held ++ hs ++ [.endRun]
    slotAdd s.me.pc (o.imm.signExtend 64 : Word).toInt = some res → brick % 64 = 0 → s.lies .store true brick 64 locs →
    locs.headD 0 < poolBase → s.isStage s.cur (pkgOfAddr (locs.headD 0)) = true → m.linesUsed (coreOf s.cur) + 64 ≤ 256 →
    (s.issues o.g ([o.sa.toNat, o.sb.toNat] ++ [1, 2, 3, 4, 5, 6]) → join % 16 = 0 →
      (m.me.count .ld = 0 → m.joinRead = none → join = 0 →
        suspends (.susp o) 2 0 [.suspend brick false, .enqueue brick s.me.info.pri] ∧
        suspends (.suspMsg o) 1 0 [.suspend brick true]) ∧
      (∀ r l, m.joinRead = some r → r.need = [] → r.locs ≠ [] → join ≠ 0 → s.lies .load true join 8 l →
        (r.value 0 / 2 ^ 50 % 2 ^ 14 = 0 → suspends (.susp o) 2 join [.suspend brick false, .enqueue brick s.me.info.pri]) ∧
        (r.value 0 / 2 ^ 50 % 2 ^ 14 ≠ 0 → suspends (.susp o) 1 join [.suspend brick true]))) ∧
    (s.issues o.g (o.sa.toNat :: [1, 2, 3, 4, 5, 6]) → m.me.count .ld = 0 →
      suspends (.qwait o) 4 0 [.suspend brick true, .qwait brick (o.modBits 51 48)])

/-- MESSAGE_ARRIVAL of a message with no earlier one of its sender, at a bank of its launch that is not frozen and has
a free entry, puts its payload, padded with zeros to 64 bytes, into a free entry and nothing else of memory, and
queues it. HANDLER_SELECTION on a core whose only candidate is a channel starts a free strand at the handler, with s1
to s4 the entry's aperture address, the length, the sender and the timestamp, every other s and f register zero and
every other p register off, in the mode of the handler; the message stays counted on its channel, as one whose run has
begun. BRICK_MESSAGE_ARRIVAL makes a brick that waits runnable and queues it, leaves any other as it is, and the
message is gone. HQU_SUBMIT_MESSAGE copies the 128 bytes of a packet to the tail of its queue's ring, while no other
message's packet is being copied there, in pieces, each at a step of its own: a read of at most 32 bytes while some are unread, then a write of at most a line while some are
unwritten, and once all are written and applied TAIL advances and the message is gone; one of another form is
discarded. QUIESCENCE_WAVE of a launch with a run, none of whose bricks waits since before an earlier wave, records
its totals and its horizon. (R43, R44, R138, R139, R140, R141, R147, R148, R151, R108, R348, R126) -/
def Obligations.MessagesArriveAndRunsStart : Prop :=
  (∀ (id core : Nat) (s : State) (m : Msg) (l : Launch), s.msgs.find? (fun m => m.id == id) = some m → s.launch m.lkey = some l →
    m.dst.isSome = true → l.resolve m.target = .core core →
    let b := s.bank (l.bankOn core)
    s.sentBefore m = false → b.frozen = false → b.lkey = m.lkey → (∃ e, e < 256 ∧ e ∉ b.inbox) →
    ∃ t e, exec (.messageArrival id) s = .next t ∧ e < 256 ∧ e ∉ b.inbox ∧ t.strands = s.strands ∧
      t.msgs = s.msgs.filter (fun x => x.id != id) ∧ (t.bank (l.bankOn core)).inbox = e :: b.inbox ∧
      (t.bank (l.bankOn core)).msgs = b.msgs ++
        [{ chan := m.chan, entry := e, len := m.len, sender := m.srcId, ts := m.ts, q := m.q, ord := m.ord }] ∧
      ∀ x, let a := poolKey core (b.kbReg + b.inboxAt + 64 * e)
        t.mem.read x = if a ≤ x ∧ x < a + 64 then m.payload.getD (x - a) 0 else s.mem.read x) ∧
  (∀ (core c : Nat) (s : State) (l : Launch) (m : InMsg) (rest : List InMsg) (e : TlbEntry), 8 * core < strandLimit →
    let b := s.bank (2 * core)
    let h := (tget 0 b.handlers c).toNat
    let pc := h % 2 ^ 56
    let a := storageOf (e.phys (pc / 64 * 64))
    let sv := nbit h 58
    s.assistFirst core = false → s.launch (s.bank (2 * core + 1)).lkey = none → s.launch b.lkey = some l → l.killed = false →
    l.ended = false → l.started = true → b.frozen = false → (∀ q ∈ (s.cluster (core / 16)).bricks, q.lkey ≠ l.lkey) →
    c < 64 → nbit h 60 = true → nbit h 59 = false → b.msgs = m :: rest → m.started = false → (∀ x ∈ b.msgs, x.chan = c) →
    (∃ k, k / 4 = 2 * core ∧ (s.strand k).run = .free) → pc / 8 % 8 = 0 → pc % 8 < 5 → bits pc 55 48 ≠ 0xFF →
    s.tlb.find? (fun x => x.maps (sourceCore core) b.lkey (pc / 64 * 64)) = some e → e.check sv b.lkey .fetch = none →
    s.rangeAdmits (pkgOf (8 * core)) (e.phys (pc / 64 * 64)) 1 = true → nbit (lineWord (s.currentBytes a 64)) (pc % 8) = true →
    (∀ i, i < 64 → (s.entry ((a + i) / 64)).state ((a + i) / 8 % 8) ≠ .m) →
    ∃ t k, exec (.handlerSelection core) s = .next t ∧ k / 4 = 2 * core ∧ (s.strand k).run = .free ∧ t.mem = s.mem ∧
      (t.strand k).run = .running ∧ (t.strand k).pc = BitVec.ofNat 64 pc ∧ (t.strand k).sv = sv ∧ (t.strand k).lkey = b.lkey ∧
      (t.strand k).marks = [] ∧ (t.strand k).info.chan = c ∧ (t.strand k).info.entry = some m.entry ∧
      (∀ i, (t.strand k).regs.getS i = BitVec.ofNat 64 (match i with
        | 1 => 0xFF * 2 ^ 48 + (b.inboxAt + 64 * m.entry)
        | 2 => m.len
        | 3 => m.sender
        | 4 => m.ts
        | _ => 0)) ∧
      (∀ i, (t.strand k).regs.getF i = 0 ∧ (i ≠ 0 → (t.strand k).regs.getP i = 0)) ∧
      (t.bank (2 * core)).msgs = { m with started := true } :: rest ∧ ∀ j, j ≠ k → t.strand j = s.strand j) ∧
  (∀ (id addr a : Nat) (s : State) (m : Msg) (l : Launch) (e : TlbEntry), s.msgs.find? (fun m => m.id == id) = some m →
    m.brick = some addr → m.dst = none → m.chan = 0 → s.launch m.lkey = some l → l.lkey = m.lkey → addr % 64 = 0 →
    (∃ x ∈ l.remap, pkgOfDie (dieOfCluster x.2) = pkgOfAddr a) →
    s.agentMay (brickCtx m.lkey (pkgOf (8 * m.src)) id) .engineRead addr 64 a e →
    s.agentMay (brickCtx m.lkey (pkgOf (8 * m.src)) id) .engineWrite (addr + 56) 8 (a + 56) e →
    let w7 := s.mem.readNat (a + 56) 8
    (w7 / 2 ^ 58 % 8 = 1 → ∃ t cl q, exec (.brickMessageArrival id) s = .next t ∧ t.msgs = s.msgs.filter (fun x => x.id != id) ∧
      t.mem.readNat (a + 56) 8 = w7 - 2 ^ 58 + 2 ^ 59 ∧ (∀ x, (x < a + 56 ∨ a + 64 ≤ x) → t.mem.read x = s.mem.read x) ∧
      (t.cluster cl).bricks = (s.cluster cl).bricks ++ [q] ∧ q.addr = addr ∧ q.lkey = m.lkey ∧ q.pri = w7 / 2 ^ 61) ∧
    (w7 / 2 ^ 58 % 8 ≠ 1 → ∃ t, exec (.brickMessageArrival id) s = .next t ∧ t.mem = s.mem ∧
      t.msgs = s.msgs.filter (fun x => x.id != id))) ∧
  (∀ (id p iod agent : Nat) (s : State) (m : Msg), s.msgs.find? (fun m => m.id == id) = some m →
    (s.launch m.lkey).map (fun l => l.resolve m.target) = some (.agent p iod agent) →
    let q := fromBytes (m.payload.take 8) % 2 ^ 14
    let from' := fromBytes ((m.payload.drop 8).take 8) % 2 ^ 50
    let ring := s.queueBase p q + 128 * (s.queueTail p q % s.queueSize p q)
    ((m.chan ≠ 0 ∨ m.len ≠ 16) → ∃ t, exec (.hquSubmitMessage id) s = .next t ∧ t.mem = s.mem ∧
      t.msgs = s.msgs.filter (fun x => x.id != id)) ∧
    (m.chan = 0 → m.len = 16 → s.queueOn p q = true → s.queueGraphs p q = false → from' % 128 = 0 → from' < 2 ^ 39 →
      ring < 2 ^ 39 → regionOf (s.pkg p) from' = .hbm → s.queueTail p q < 2 ^ 16 →
      (s.queueTail p q + 2 ^ 16 - s.queueHead p q) % 2 ^ 16 < s.queueSize p q → s.copiesOther p q id = false →
      let read := s.jobBytes id 0
      let done := (s.jobBytes id 1).length
      (read.length < 128 → s.plainRange [id] (p * 2 ^ 50 + from' + read.length) (min (128 - read.length) (32 - (from' + read.length) % 32)) →
        ∃ t, exec (.hquSubmitMessage id) s = .next t ∧ t.mem = s.mem ∧ t.msgs = s.msgs ∧
          t.jobBytes id 0 = read ++ s.mem.readBytes (p * 2 ^ 50 + from' + read.length) (min (128 - read.length) (32 - (from' + read.length) % 32)) ∧
          t.due.contains (.hquSubmitMessage id) = true) ∧
      (read.length = 128 → done < 128 → done % 64 = 0 → s.plainRange [id] (p * 2 ^ 50 + ring + done) 64 →
        ∃ t, exec (.hquSubmitMessage id) s = .next t ∧ s.wrote t (p * 2 ^ 50 + ring + done) ((read.drop done).take 64) ∧
          t.msgs = s.msgs ∧ (t.jobBytes id 1).length = done + 64 ∧ t.due.contains (.hquSubmitMessage id) = true) ∧
      (read.length = 128 → 128 ≤ done → s.piecesLeft id = false →
        ∃ t, exec (.hquSubmitMessage id) s = .next t ∧ t.mem = s.mem ∧ t.msgs = s.msgs.filter (fun x => x.id != id) ∧
          t.queueTail p q = (s.queueTail p q + 1) % 2 ^ 16))) ∧
  (∀ (s : State) (l : Launch), s.launches = [(l.lkey, l)] → l.started = true → l.ended = false → s.experts = [] →
    (∀ e ∈ l.quiet, e.2.2 = 0) → (∃ k, (s.strand k).lkey = l.lkey ∧ (s.strand k).run ≠ .free) →
    ∃ t l', exec .quiescenceWave s = .next t ∧ t.launch l.lkey = some l' ∧ t.mem = s.mem ∧ t.strands = s.strands ∧
      l'.prev = (List.range 16).map (fun q => (q, s.totals l.lkey q)) ∧ l'.prevOk = true ∧ l'.ended = false ∧
      l'.horizon = s.newHorizon l)

/-! ### The matrix array -/

/-- For every state in which the instruction may issue: LEASE of the holder only retires; of a strand without request
it enters a request at the priority of IMM and stalls; with a request pending it only stalls. UNLEASE removes the
strand's request and, where it holds the lease, ends it, with the next grant owed. SLOT.CLM claims every slot of its
range for the core and writes all ones to p[DST], or, where one slot is Releasing or held by another core, claims none
and writes zero; SLOT.REL of slots that the core holds holds its release until the apply. For a lease holder with a
free entry and room on tl, whose term goes on or begins anew for want of another open request, each of the ten MMA
forms over claimed slots, MMV over 64 weight rows whose pages its cluster may read, ACC.ZERO, and ACC.RD to an aligned
range of the own scratchpad outside every window reserves an entry with its types, physical slots and accumulators,
LAST and SET bits and scales, counts on the term (whose expiry is owed at 64) and on tl, and ends its chunk.
Registers, memory, the other strands and the other clusters are unchanged. (R277, R278, R279, R280, R281, R282, R283,
R284, R274, R176) -/
def Obligations.TileInstructionsIssue : Prop :=
  ∀ (o : Ops) (s : State),
    let k := s.cur
    let cl := clusterOf k
    let c := s.cluster cl
    let frame (t : State) : Prop := t.mem = s.mem ∧ (∀ j, j ≠ k → t.strand j = s.strand j) ∧ ∀ j, j ≠ cl → t.cluster j = s.cluster j
    let first := o.immBits 6 0
    let count := o.immBits 15 8
    let range := (rangeFrom first count).map (physSlot k)
    let free (n : Nat) : Prop := (c.slot n).releasing = false ∧ ((c.slot n).owner = none ∨ (c.slot n).owner = some (coreOf k))
    let entry (kind : TaskKind) (acc : Nat) (set : Bool) (scales : Word) : Task :=
      { id := s.openChunk.nextId, strand := k, seq := s.me.issued, chunk := s.openChunk.chunk.id, lkey := s.me.lkey, kind := kind,
        acc := acc, set := set, scales := scales, sv := s.me.sv }
    let termOver : Prop := 64 ≤ c.term ∨ c.termFrom + 8192 ≤ s.time
    let enters (i : Instr) (kind : TaskKind) (acc : Nat) (set : Bool) (scales : Word) : Prop :=
      Commands i s .tl (.task s.openChunk.nextId) true fun t =>
        (t.cluster cl).tasks = c.tasks ++ [entry kind acc set scales] ∧ (t.cluster cl).term = (if termOver then 0 else c.term) + 1 ∧
        (¬ termOver ∧ c.term + 1 = 64 → t.due.contains (.leaseTermExpiry cl) = true) ∧ ∀ j, j ≠ cl → t.cluster j = s.cluster j
    (s.issues o.g [] →
      (c.holder = some k → Computes (.lease o) s fun g h => h = g) ∧
      (c.holder ≠ some k → (∀ r ∈ c.requests, r.strand ≠ k) → ∃ t, exec (.lease o) s = .next t ∧ t.me.pc = s.me.pc ∧
        t.me.regs = s.me.regs ∧ frame t ∧ t.cluster cl = { c with requests := c.requests ++ [⟨k, o.immBits 2 0, s.time⟩] } ∧
        t.due.contains (.leaseGrant cl) = true) ∧
      (c.holder ≠ some k → (∃ r ∈ c.requests, r.strand = k) → exec (.lease o) s = .next s.openChunk) ∧
      Acts (.unlease o) s fun t =>
        (t.cluster cl).requests = c.requests.filter (fun r => r.strand != k) ∧
        (c.holder = some k → (t.cluster cl).holder = none ∧ (t.cluster cl).lastHolder = k % 128 + 1 ∧
          t.due.contains (.leaseGrant cl) = true) ∧
        (c.holder ≠ some k → (t.cluster cl).holder = c.holder)) ∧
    (first + count ≤ s.slotAllot k →
      (s.issues o.g [regP o.dst.toNat] → ∃ t, exec (.slotClm o) s = .next t ∧ t.me.pc = nextPc s.me.pc ∧ frame t ∧
        ((∀ n ∈ range, free n) → OnlyP s.me.regs t.me.regs o.dst (BitVec.allOnes 32) ∧
          ∀ n, (t.cluster cl).slot n = if n ∈ range then { c.slot n with owner := some (coreOf k) } else c.slot n) ∧
        ((∃ n ∈ range, ¬ free n) → OnlyP s.me.regs t.me.regs o.dst 0 ∧ t.cluster cl = c)) ∧
      (s.issues o.g [] → (∀ n ∈ range, (c.slot n).owner = some (coreOf k)) →
        Holds (.slotRel o) s [.slotRel first count] false)) ∧
    (c.holder = some k → (termOver → ∀ r ∈ c.requests, (s.bank (bankOf r.strand)).frozen = false → r.strand = k) →
      s.openChunk.counterFull .tl = false → c.tasks.length < 32 →
      (∀ x ∈ [(Instr.mmaDd, 11, 11, false), (.mmaSs, 10, 10, false), (.mmaBb, 9, 9, true), (.mmaHh, 8, 8, true),
          (.mmaEe, 12, 12, true), (.mmaEf, 12, 13, true), (.mmaFf, 13, 13, true), (.mmaQq, 14, 14, true), (.mmaQe, 14, 12, true),
          (.mmaIi, 0, 0, false)],
        let a := o.immBits 6 0
        let b := o.immBits 14 8
        s.issues o.g (if x.2.2.2 then [regF o.sc.toNat] else []) →
        (if x.2.1 = 11 then o.dst.toNat + 1 else o.dst.toNat) < s.accAllot k →
        (∀ n ∈ if x.2.1 = 14 ∧ x.2.2.1 = 12 then [a, b, b + 1] else [a, b], n < s.slotAllot k ∧
          (c.slot (physSlot k n)).owner ≠ none ∧ (c.slot (physSlot k n)).releasing = false) →
        enters (x.1 o) (.mma x.2.1 x.2.2.1 (physSlot k a) (physSlot k b) (o.modBit 58) (o.modBit 57)) (physAcc k o.dst.toNat)
          (o.modBit 59) (if x.2.2.2 then s.f o.sc else 0)) ∧
      (∀ e : Nat → TlbEntry,
        let ty := o.vType
        let n := 64 * (o.immBits 10 8 + 1)
        let len := if ty = 14 then n / 2 + n / 32 else n * typeWidth ty / 8
        let base := (s.s o.sa).toNat
        let stride := (s.s o.sb).toNat
        let x := o.immBits 4 0
        s.issues o.g ([o.sa.toNat, o.sb.toNat] ++ if ty = 10 then [] else [regF o.sc.toNat]) →
        o.dst.toNat < s.accAllot k → x < s.accAllot k → base % 64 = 0 → stride % 64 = 0 → 0 < len → len ≤ stride →
        base + 63 * stride + len ≤ 0xFF * 2 ^ 48 →
        (∀ r a, r < 64 → base + r * stride ≤ a → a < base + r * stride + len →
          s.tlb.find? (fun y => y.maps (sourceCluster cl) s.me.lkey a) = some (e (a / 4096)) ∧
          (e (a / 4096)).check s.me.sv s.me.lkey .engineRead = none) →
        enters (.mmv o)
          (.mmv ty (o.modBits 54 52 + 1) n (physAcc k x)
            ((List.range 64).map fun r => (rangeFrom (base + r * stride) len).map fun a => storageOf ((e (a / 4096)).phys a)) base stride)
          (physAcc k o.dst.toNat) (o.modBit 55) (if ty = 10 then 0x3F800000 else s.f o.sc)) ∧
      (s.issues o.g [] → (∀ a ∈ rangeFrom o.dst.toNat (o.immBits 5 0), a < s.accAllot k) →
        enters (.accZero o) (.zero (o.immBits 5 0)) (physAcc k o.dst.toNat) true 0) ∧
      (let d := (s.s o.sa).toNat
       let off := d - 0xFF * 2 ^ 48
       let rows := o.immBits 13 8 + 1
       let b := s.bank (bankOf k)
       s.issues o.g [o.sa.toNat] → o.dst.toNat < s.accAllot k → d % 64 = 0 → 0xFF * 2 ^ 48 ≤ d → off + 256 * rows ≤ 2 ^ 18 →
       off + 256 * rows ≤ b.spad → off + 256 * rows ≤ b.inboxAt →
       (∀ x ∈ b.windows, rangesMeet x.2.pool x.2.len off (256 * rows) = false) →
       enters (.accRd o) (.rd (poolKey (coreOf k) (b.kbReg + off)) (o.immBits 5 0) rows (o.modBit 59)) (physAcc k o.dst.toNat)
         false 0))

/-! ### The matrix array -/

/-- For every cluster: a free array is leased to the unfrozen request of the highest effective priority that stands
nearest behind the last holder, for a new term, and the count of that request starts again; at the end of a term the
lease passes so, or with no other unfrozen request a new term begins. The lease of a displaced strand ends once no task
of a displaced launch executes (R367). An array of which every started task waits for its assist starts its earliest task once its
slots are Full, none of them one that such a task is still to empty, and its accumulators in the state it needs, with
no earlier copy read of them to come: what it writes becomes Busy, and ACC.RD raises its read count, which the read of the last element lowers. A finished task of MMA has
the products of R282 (in s32 the sum modulo 2^32) in each of the 64 by 64 elements; ACC.ZERO has zeros in its
accumulators; MMV reads a weight row in its atomic pieces, then has the elements of that row, and goes on with the row
after, or ends with its last, or is saved in its place where pre-emption has displaced its launch; ACC.RD writes 64 bytes at a
time, and ends once it has copied its rows, Drained with LAST. The task leaves the table, the accumulators that it
wrote are Ready, the slots with LAST empty, tl falls, and what may start next is owed; a subnormal element leaves the
task to the assist, which ends it once a strand of the lowest member core is free. The model's choices are the count
of a request that starts again at the grant and runs on afterwards (log 53), the results written already at TILE_TASK_COMPLETE, so that
the assist changes no memory (log 95), its need of a free strand (log 96), the marks by the final result (log 139), and
the ascending order of the writes of ACC.RD (log 114). (R249, R250, R275, R276, R277, R279, R282, R283, R284, R293,
R359, R366) -/
def Obligations.ArrayRunsTileTasks : Prop :=
  ∀ (s : State) (cl : Nat), 128 * cl < strandLimit →
    let c := s.cluster cl
    let pri (r : LeaseReq) : Nat := min 7 (r.pri + (s.time - r.since) / 8192)
    let behind (last : Nat) (r : LeaseReq) : Nat := (r.strand % 128 + 128 - last) % 128
    let best (d : Cluster) (r : LeaseReq) : Prop := r ∈ d.requests ∧ (s.bank (bankOf r.strand)).frozen = false ∧
      ∀ x ∈ d.requests, (s.bank (bankOf x.strand)).frozen = false → x ≠ r →
        pri x < pri r ∨ (pri x = pri r ∧ behind d.lastHolder r < behind d.lastHolder x)
    let becomes (i : Instr) (d : Cluster) : Prop := ∃ t, exec i s = .next t ∧ t.cluster cl = d ∧ t = { s with clusters := t.clusters }
    let granted (d : Cluster) (r : LeaseReq) : Cluster := { d with
      holder := some r.strand, term := 0, termFrom := s.time
      requests := d.requests.map fun x => if x.strand = r.strand then { x with since := s.time } else x }
    (c.holder = none → ∀ r, best c r → becomes (.leaseGrant cl) (granted c r)) ∧
    (∀ k, c.holder = some k → 64 ≤ c.term ∨ c.termFrom + 8192 ≤ s.time →
      ((∀ r ∈ c.requests, (s.bank (bankOf r.strand)).frozen = false → r.strand = k) → becomes (.leaseTermExpiry cl) { c with term := 0, termFrom := s.time }) ∧
      ((∃ r ∈ c.requests, (s.bank (bankOf r.strand)).frozen = false ∧ r.strand ≠ k) →
        let d : Cluster := { c with holder := none, lastHolder := k % 128 + 1 }
        ∀ r, best d r → becomes (.leaseTermExpiry cl) (granted d r))) ∧
    (∀ k, c.holder = some k → (s.bank (bankOf k)).frozen = true →
      (∀ t ∈ c.tasks, t.started = true → t.id ∉ c.assists → ∀ f ∈ c.frozen, f.lkey ≠ t.lkey) → (∀ t ∈ c.tasks, t.applied = false) →
      ∃ t', exec (.tileTaskIssue cl) s = .next t' ∧ t'.due.contains (.leaseGrant cl) = true ∧
        t'.cluster cl = { c with requests := c.requests.filter fun r => r.strand != k, holder := none, lastHolder := k % 128 + 1 }) ∧
    (∀ (t : Task) (rest : List Task), c.tasks = t :: rest → (∀ u ∈ c.tasks, u.started = true → u.id ∈ c.assists) →
      (∀ k, c.holder = some k → (s.bank (bankOf k)).frozen = false) →
      t.started = false → t.applied = true →
      (∀ u ∈ rest, u.applied = true → t.order ≤ u.order) →
      (∀ m ∈ c.copies, m.applied = true → m.started = false → m.order < t.order → ∀ a ∈ m.accs, a ∉ t.writes) →
      (∀ n ∈ t.slots, (c.slot n).full = true ∧ (c.slot n).filling = false) →
      (∀ u ∈ c.tasks, u.started = true → ∀ n ∈ u.lastSlots, n ∉ t.slots) →
      (∀ a ∈ t.writes, (c.acc a).reads = 0 ∧ ((c.acc a).st = .ready ∨
        ((t.set = true ∨ ∃ n, t.kind = .zero n) ∧ (c.acc a).st = .drained))) →
      (∀ a ∈ t.accs, a ∉ t.writes → (c.acc a).st = .ready) → (∀ ty v n x rows b d, t.kind = .mmv ty v n x rows b d → x ≠ t.acc ∧ rows ≠ []) →
      ∃ t', exec (.tileTaskIssue cl) s = .next t' ∧
        (t'.cluster cl).tasks = c.tasks.map (fun u => if u.id = t.id then { t with started := true } else u) ∧
        (∀ a, (t'.cluster cl).acc a = if a ∈ t.writes then { c.acc a with st := .busy }
          else if t.isRd = true ∧ a = t.acc then { c.acc a with reads := (c.acc a).reads + 1 } else c.acc a) ∧
        t'.due.contains (if t.isRd then .accumulatorLastElementRead cl t.id else .tileTaskComplete cl) = true) ∧
    (∀ (t : Task) (d f n : Nat) (last : Bool), t ∈ c.tasks → (∀ u ∈ c.tasks, u.id = t.id → u = t) → t.kind = .rd d f n last →
      t.started = true → t.isRead = false →
      ∃ t', exec (.accumulatorLastElementRead cl t.id) s = .next t' ∧
        (t'.cluster cl).tasks = c.tasks.map (fun u => if u.id = t.id then { u with isRead := true } else u) ∧
        (∀ a, (t'.cluster cl).acc a = if a = t.acc then
          { st := (c.acc a).st, reads := (c.acc a).reads - 1 } else c.acc a) ∧
        t'.due.contains (.tileTaskComplete cl) = true) ∧
    (∀ t ∈ c.tasks,
      let ended (t' : State) : Prop :=
        (∀ u ∈ (t'.cluster cl).tasks, u.id ≠ t.id) ∧ (∀ a ∈ t.writes, ((t'.cluster cl).acc a).st = .ready) ∧
        t'.due.contains (.tileTaskIssue cl) = true ∧ t'.due.contains (.copyCommandStart cl) = true
      let frozen : Prop := ∃ f ∈ c.frozen, f.lkey = t.lkey
      let waits (t' : State) : Prop := (t'.cluster cl).assists = c.assists ++ [t.id] ∧
        t'.due.contains (.subnormalAssist cl) = true ∧ t'.due.contains (.tileTaskIssue cl) = true
      let saved (t' : State) (p : Task → Prop) : Prop := (∀ u ∈ (t'.cluster cl).tasks, u.id ≠ t.id) ∧
        t'.due.contains (.tileTaskIssue cl) = true ∧
        ∃ f ∈ (t'.cluster cl).frozen, f.lkey = t.lkey ∧ ∃ before u rest, f.tasks = before ++ u :: rest ∧
          (∀ x ∈ before, x.order < t.order) ∧ (∀ x ∈ rest.head?, t.order ≤ x.order) ∧ u.id = t.id ∧ p u
      (t.started = true → t.id ∉ c.assists → (∀ u ∈ c.tasks, u.started = true → u.id ∉ c.assists → u = t) →
        (∀ ta tb sa sb la lb, t.kind = .mma ta tb sa sb la lb →
          let wide := ta == 11
          let f := fmtOf (if wide then 11 else 10)
          let qe := ta = 14 ∧ tb = 12
          let n := 4096 / typeWidth ta
          let rowB (j : Nat) : List Byte := if qe then s.slotRow cl sb j ++ s.slotRow cl (sb + 1) j else s.slotRow cl sb j
          let num (ty slot j i : Nat) (bs : List Byte) : Machine.Num :=
            if ty = 14 then q4Value ((s.slotScales cl slot j).getD (i / 32) 0).toNat (rowCode ty bs i) else arrayNum ty (rowCode ty bs i)
          let scale : Machine.Num := if ta = 10 ∨ ta = 11 then .fin ⟨false, 1, 0⟩
            else mulNum ((fmtOf 10).value (t.scales.toNat % 2 ^ 32)) ((fmtOf 10).value (t.scales.toNat / 2 ^ 32))
          let old (i j : Nat) : Nat := if t.set then 0 else s.accElem cl t.acc i j wide
          let value (i j : Nat) : Nat :=
            if ta = 0 then
              lowBits 32 ((List.range n).foldl (fun (x : Int) e =>
                x + intOf 0 (rowCode 0 (s.slotRow cl sa i) e) * intOf 0 (rowCode 0 (rowB j) e)) (if t.set then 0 else intOf 2 (old i j)))
            else
              accumulate f (cyclesP ta) (old i j) ((List.range n).map fun e =>
                mulNum (mulNum (num ta sa i e (s.slotRow cl sa i)) (num tb sb j e (rowB j))) scale)
          let normal : Prop := ta = 0 ∨ ∀ i j, i < 64 → j < 64 → isSubnormal f (value i j) = false
          ∃ t', exec (.tileTaskComplete cl) s = .next t' ∧
            (∀ i j, i < 64 → j < 64 → t'.accElem cl t.acc i j wide = value i j % 2 ^ (if wide then 64 else 32)) ∧
            (normal → ended t' ∧ t'.strand t.strand = (s.strand t.strand).complete .tl t.seq ∧
              (∀ m ∈ (if la then [sa] else []) ++ (if lb then (if qe then [sb, sb + 1] else [sb]) else []),
                ((t'.cluster cl).slot m).full = false)) ∧
            (¬ normal → ¬ frozen → waits t') ∧ (¬ normal → frozen → saved t' fun u => u.marked ≠ [])) ∧
        (∀ n, t.kind = .zero n → ∃ t', exec (.tileTaskComplete cl) s = .next t' ∧ ended t' ∧
          t'.strand t.strand = (s.strand t.strand).complete .tl t.seq ∧
          ∀ a, t'.mem.read a = if accKey cl t.acc 0 ≤ a ∧ a < accKey cl t.acc 0 + 16384 * n then 0 else s.mem.read a) ∧
        (∀ ty v n x row rest b d, t.kind = .mmv ty v n x (row :: rest) b d →
          (t.data.length < row.length →
            let p := rowPiece (row.drop t.data.length)
            s.plainRange [t.id] p.1 p.2 → s.regionAt p.1 ≠ .reserved →
            ∃ t', exec (.tileTaskComplete cl) s = .next t' ∧ t'.due.contains (.tileTaskComplete cl) = true ∧ t'.mem = s.mem ∧
              (t'.cluster cl).tasks = c.tasks.map fun u =>
                if u.id = t.id then { t with data := t.data ++ (rangeFrom p.1 p.2).map s.mem.read } else u) ∧
          (row.length ≤ t.data.length →
            let bs := t.data
            let weight (j : Nat) : Machine.Num :=
              if ty = 14 then q4Value ((bs.drop (n / 2)).getD (j / 32) 0).toNat (rowCode 14 (bs.take (n / 2)) j)
              else arrayNum ty (rowCode ty bs j)
            let sw := (fmtOf 10).value (t.scales.toNat % 2 ^ 32)
            let value (i : Nat) : Nat :=
              accumulate (fmtOf 10) 64 (if t.set then 0 else s.accElem cl t.acc i t.cursor false) ((List.range n).map fun j =>
                mulNum (mulNum (weight j) sw) ((fmtOf 10).value (s.accElem cl x (8 * i + j / 64) (j % 64) false)))
            let normal : Prop := t.marked = [] ∧ ∀ i, i < v → isSubnormal (fmtOf 10) (value i) = false
            ∃ t', exec (.tileTaskComplete cl) s = .next t' ∧
              (∀ i, i < v → t'.accElem cl t.acc i t.cursor false = value i % 2 ^ 32) ∧
              (rest = [] → normal → ended t' ∧ t'.strand t.strand = (s.strand t.strand).complete .tl t.seq) ∧
              (rest = [] → ¬ normal → ¬ frozen → waits t') ∧
              (rest ≠ [] → ¬ frozen → t'.due.contains (.tileTaskComplete cl) = true ∧
                ∃ u ∈ (t'.cluster cl).tasks, u.id = t.id ∧ u.cursor = t.cursor + 1 ∧ u.data = [] ∧ u.kind = .mmv ty v n x rest b d) ∧
              (rest ≠ [] → frozen → saved t' fun u =>
                u.cursor = t.cursor + 1 ∧ u.started = false ∧ u.kind = .mmv ty v n x [] b d))) ∧
        (∀ d f n last, t.kind = .rd d f n last → t.isRead = true →
          (t.cursor < 4 * n →
            let at_ := d + 64 * t.cursor
            (∀ a ∈ rangeFrom at_ 64, ∀ y ∈ (s.core (poolCore a)).poolLocks, y.1 ≠ wordOf a) →
            ∃ t', exec (.tileTaskComplete cl) s = .next t' ∧ t'.due.contains (.tileTaskComplete cl) = true ∧
              (∃ u ∈ (t'.cluster cl).tasks, u.id = t.id ∧ u.cursor = t.cursor + 1) ∧
              ∀ a, t'.mem.read a = if at_ ≤ a ∧ a < at_ + 64 then
                s.mem.read (accKey cl t.acc (256 * f + 64 * t.cursor) + (a - at_)) else s.mem.read a) ∧
          (4 * n ≤ t.cursor → ∃ t', exec (.tileTaskComplete cl) s = .next t' ∧ ended t' ∧ t'.mem = s.mem ∧
            t'.strand t.strand = (s.strand t.strand).complete .tl t.seq ∧
            ((t'.cluster cl).acc t.acc).st =
              if (c.acc t.acc).st = .busy then .busy else if last then .drained else .ready))) ∧
      (∀ ids, c.assists = t.id :: ids → (∀ u ∈ c.tasks, u.id = t.id → u = t) → s.assistStrand cl t.lkey ≠ none →
        ∃ t', exec (.subnormalAssist cl) s = .next t' ∧ ended t' ∧ (t'.cluster cl).assists = c.assists.filter (fun i => i != t.id) ∧
          ((t'.cluster cl).assists ≠ [] → t'.due.contains (.subnormalAssist cl) = true) ∧
          t'.strand t.strand = (s.strand t.strand).complete .tl t.seq ∧ t'.mem = s.mem))

/-! ### Copy engines -/

/-- For every state in which the instruction may issue with room on cp, a mailbox that fits and no CPY of another
strand that stalls before it: with the shadow free CPY.IN of a held slot, CPY.OUT, CPY.M and CPY.NV take it, count on
cp and end their chunk; with the shadow held they stall, with a place in issue order. An idle engine starts the first
wait-list entry, or the applied shadow command, whose slot is Empty or whose accumulators are Ready with no earlier
tile command to write them, and moves one that must wait to the list, but takes none while the list is full. CPY.M judges its ranges, reads an atomic piece,
writes a complete line that no source byte aliases, its first piece at once, and ends with BYTES its length; CPY.IN
without TR copies a piece of a memory row into its slot row, and at its end zeroes what holds no data and makes the
slot Full; the last element read of a CPY.OUT converts every element in the mode of MOD, and lowers the read count,
Drained with LAST. A command whose data accesses are over frees the engine; while a piece of its writes is still to be
applied it waits, then it writes DONE, STATUS, BYTES and CODE in the mailbox that its cluster may write, completes its
count on cp and owes what may start. A completion entry moves the head and rings its doorbell through the entry's
port, that of an enabled queue also where its Read is no more; with all bytes arrived it counts them; a nonzero status
gives code 8, a Read past its timeout code 9; a controller's write to a mapped window page reaches its frame; setting
EN in a queue entry resets tail, head and phase. The model's choices are the 700,000 cycles of a millisecond of the
timeout (R384; log 75, PRESUMED), the ascending order of the lines that CPY.M writes (log 114, DESIGN CHOICE), and that
a write across a 32-byte boundary applies its first piece at once and sends the other as a packet (R114, R125, R126;
log 60, DEDUCED). (R285, R286, R275, R276, R279, R287, R288, R289, R290, R291, R292, R115) -/
def Obligations.CopyCommandsRun : Prop :=
  (∀ (o : Ops) (s : State),
    let k := s.cur
    let cl := clusterOf k
    let a := o.immBits 4 0
    let n := o.immBits 6 0
    let ty : Nat := match o.modBits 59 58 with | 0 => 10 | 1 => 11 | _ => 2
    let slot := (s.cluster cl).slot (physSlot k n)
    let latched (kind : CmdKind) : Cmd :=
      { id := s.openChunk.nextId, strand := k, seq := s.me.issued, chunk := s.openChunk.chunk.id, lkey := s.me.lkey, sv := s.me.sv,
        mailbox := (if o.dst = 0 then none else some (s.s o.dst).toNat), kind := kind }
    let takes (i : Instr) (kind : CmdKind) : Prop :=
      ((s.cluster cl).shadow = none →
        Commands i s .cp (.cmd s.openChunk.nextId) true fun t => (∀ j, j ≠ cl → t.cluster j = s.cluster j) ∧
          t.cluster cl = { s.cluster cl with
            shadow := some (latched kind), copyQueue := (s.cluster cl).copyQueue.filter fun q => q.1 != k }) ∧
      ((s.cluster cl).shadow ≠ none → ∃ t, exec i s = .next t ∧ t.me.pc = s.me.pc ∧ t.me.regs = s.me.regs ∧ t.mem = s.mem ∧
        (∀ j, j ≠ cl → t.cluster j = s.cluster j) ∧ (t.cluster cl).shadow = (s.cluster cl).shadow ∧
        (k, s.openChunk.chunk.id) ∈ (t.cluster cl).copyQueue)
    s.mailboxFits o → s.openChunk.counterFull .cp = false → (∀ q, (s.cluster cl).copyQueue.head? = some q → q.1 = k) →
    (s.issues o.g [o.dst.toNat, o.sa.toNat] →
      (n < s.slotAllot k → slot.owner = some (coreOf k) → slot.releasing = false →
        takes (.cpyIn o) (.cpyIn (physSlot k n) (s.s o.sa).toNat)) ∧
      ((if ty = 11 then a + 1 else a) < s.accAllot k →
        takes (.cpyOut o) (.cpyOut (physAcc k a) ty (o.modBits 57 55) (o.modBit 54) (o.modBit 53) (s.s o.sa).toNat)) ∧
      takes (.cpyNv o) (.cpyNv (s.s o.sa).toNat)) ∧
    (s.issues o.g [o.dst.toNat, o.sa.toNat, o.sb.toNat, o.sc.toNat] →
      takes (.cpyM o) (.cpyM (s.s o.sa).toNat (s.s o.sb).toNat (s.s o.sc).toNat))) ∧
  (∀ (s : State) (cl : Nat), 128 * cl < strandLimit →
    let c := s.cluster cl
    let able (m : Cmd) : Prop := (∀ n ∈ m.slots, (c.slot n).full = false ∧ (c.slot n).filling = false) ∧
      (∀ a ∈ m.accs, (c.acc a).st = .ready) ∧
      ∀ t ∈ c.tasks, t.applied = true → t.order < m.order → ∀ a ∈ t.writes, a ∉ m.accs
    let starts (m : Cmd) (shadow : Option Cmd) (waiting : List Cmd) : Prop :=
      ∃ t, exec (.copyCommandStart cl) s = .next t ∧ (t.cluster cl).active = some { m with started := true } ∧
        (t.cluster cl).shadow = shadow ∧ (t.cluster cl).waiting = waiting ∧ t.mem = s.mem ∧
        (∀ n, (t.cluster cl).slot n = if n ∈ m.slots then { c.slot n with filling := true } else c.slot n) ∧
        (m.accs.Nodup → ∀ a, (t.cluster cl).acc a =
          if a ∈ m.accs then { c.acc a with reads := (c.acc a).reads + 1 } else c.acc a) ∧
        t.due.contains (.copyCommandComplete cl m.id) = true
    c.active = none →
    (∀ m, c.waiting = [] → c.shadow = some m → m.applied = true →
      (able m → starts m none []) ∧
      (¬ able m → ∃ t, exec (.copyCommandStart cl) s = .next t ∧ t.cluster cl = { c with shadow := none, waiting := [m] })) ∧
    ((∀ m ∈ c.waiting, ¬ able m) → 8 ≤ c.waiting.length → exec (.copyCommandStart cl) s = .next s) ∧
    (∀ m rest, c.waiting = m :: rest → able m → starts m c.shadow (c.waiting.filter fun x => x.id != m.id))) ∧
  (∀ (s : State) (cl : Nat) (m : Cmd), 128 * cl < strandLimit →
    let c := s.cluster cl
    let x : EngCtx := { source := sourceCluster cl, lkey := m.lkey, sv := m.sv, strand := m.strand, cmd := m.id }
    let goes (t : State) (u : Cmd) : Prop :=
      exec (.copyCommandComplete cl m.id) s = .next t ∧ (t.cluster cl).active = some u ∧
        t.due.contains (.copyCommandComplete cl m.id) = true
    let ends (t : State) : Prop :=
      exec (.copyCommandComplete cl m.id) s = .next t ∧ (∀ y ∈ (t.cluster cl).finishing, y.id ≠ m.id) ∧
        (∀ y ∈ (t.strand m.strand).ops, y.counter = .cp → y.seq = m.seq → y.done = true) ∧
        t.due.contains (.copyCommandStart cl) = true ∧ t.due.contains (.tileTaskIssue cl) = true
    let boxes : Prop := m.mailbox = none ∨ ∃ v a e, m.mailbox = some v ∧ v % 8 = 0 ∧ s.agentMay x .engineWrite v 8 a e
    let boxed (t : State) (bytes code : Nat) : Prop :=
      (m.mailbox = none ∧ t.mem = s.mem) ∨
      ∃ v a e, m.mailbox = some v ∧ s.agentMay x .engineWrite v 8 a e ∧ ∀ b, t.mem.read b =
        if a ≤ b ∧ b < a + 8 then
          (toBytes 8 (2 ^ 63 + m.status % 2 ^ 11 * 2 ^ 48 + min bytes (2 ^ 32 - 1) * 2 ^ 16 + code)).getD (b - a) 0
        else s.mem.read b
    (c.finishing.find? (fun y => y.id == m.id) = some m → s.piecesLeft m.id = false → boxes →
      ∃ t, ends t ∧ (t.cluster cl).active = c.active ∧ boxed t m.bytes m.code) ∧
    (c.active = some m → m.ended = false → (∀ y ∈ c.finishing, y.id ≠ m.id) → (∀ f ∈ c.frozen, f.lkey ≠ m.lkey) →
    (∀ src dst n, m.kind = .cpyM src dst n →
      (m.ready = false → n ≤ 2 ^ 40 → src + n ≤ 0xFF * 2 ^ 48 → dst + n ≤ 0xFF * 2 ^ 48 →
        (src + n ≤ dst ∨ dst + n ≤ src ∨ n = 0) → ∃ t, goes t { m with ready := true } ∧ t.mem = s.mem) ∧
      (m.ready = true → m.cursor < n →
        let line := min (n - m.cursor) (64 - (dst + m.cursor) % 64)
        let have' := m.data.length
        (have' < line → ∀ a e,
          let va := src + m.cursor + have'
          let k := min (line - have') (32 - va % 32)
          s.agentMay x .engineRead va k a e →
            ∃ t, goes t { m with data := m.data ++ (List.range k).map fun i => (have' + i, s.mem.read (a + i)) } ∧ t.mem = s.mem) ∧
        (line ≤ have' → ∀ a e, s.agentMay x .engineWrite (dst + m.cursor) line a e →
          (∀ i, i < line → s.aliased x src n (a + i) = false) →
            ∃ t, goes t { m with cursor := m.cursor + line, bytes := m.bytes + line, data := [] } ∧
              s.wrote t a ((List.range line).map fun i => tget 0 m.data i))) ∧
      (m.ready = true → n ≤ m.cursor →
        (s.piecesLeft m.id = false → boxes → ∃ t, ends t ∧ (t.cluster cl).active = none ∧ boxed t m.bytes 0) ∧
        (s.piecesLeft m.id = true → ∃ t, exec (.copyCommandComplete cl m.id) s = .next t ∧ t.mem = s.mem ∧
          t.cluster cl = { c with active := none, finishing := c.finishing ++ [{ m with code := 0, ended := true }] } ∧
          t.due.contains (.copyCommandStart cl) = true ∧ t.due.contains (.copyCommandComplete cl m.id) = true))) ∧
    (∀ slot record, m.kind = .cpyIn slot record → m.ready = true → m.layout.tr = false →
      let l := m.layout
      let nb := l.rowBytes l.cols
      let i := m.cursor / nb
      let off := m.cursor % nb
      (m.cursor < l.rows * nb → ∀ a e,
        let va := l.base + i * l.stride + off
        let k := min (nb - off) (32 - va % 32)
        s.agentMay x .engineRead va k a e →
          ∃ t, goes t { m with cursor := m.cursor + k, bytes := m.bytes + k } ∧ ∀ b,
            t.mem.read b = if slotKey cl slot (512 * i + off) ≤ b ∧ b < slotKey cl slot (512 * i + off) + k
              then s.mem.read (a + (b - slotKey cl slot (512 * i + off))) else s.mem.read b) ∧
      (l.rows * nb + (if l.ty = 14 then 32 * l.rows else 0) ≤ m.cursor → m.mailbox = none → s.piecesLeft m.id = false →
        ∃ t, ends t ∧ (t.cluster cl).active = none ∧ (((s.cluster cl).slot slot).releasing = false →
            ((t.cluster cl).slot slot).full = true ∧ ((t.cluster cl).slot slot).filling = false) ∧
          ∀ b, b < 32768 → t.mem.read (slotKey cl slot b) =
            if b / 512 < l.rows ∧ b % 512 < nb then s.mem.read (slotKey cl slot b) else 0)) ∧
    (∀ acc ty rm sat last record, m.kind = .cpyOut acc ty rm sat last record → m.ready = true → m.cursor = 0 →
      (∀ t ∈ (s.cluster cl).tasks, t.id ≠ m.id) → (∀ y ∈ m.data, y.1 < 32) →
      let l := m.layout
      l.tr = false → l.rows ≤ 64 → l.cols ≤ 64 → l.ty ≠ 14 →
      convertDraws (rmodeOf rm) = false →
      ∃ t u, exec (.accumulatorLastElementRead cl m.id) s = .next t ∧ (t.cluster cl).active = some u ∧ u.cursor = 1 ∧
        t.due.contains (.copyCommandComplete cl m.id) = true ∧ t.mem = s.mem ∧
        (∀ i j b, i < l.rows → j < l.cols → b < l.unit → tget 0 u.data (4096 + 512 * i + l.unit * j + b) =
          (toBytes l.unit (convert l.ty ty (rmodeOf rm) sat (drawOf m.q) (s.accElem cl acc i j (ty == 11)))).getD b 0) ∧
        ∀ a ∈ m.accs, (t.cluster cl).acc a =
          { st := if last then .drained else ((s.cluster cl).acc a).st, reads := ((s.cluster cl).acc a).reads - 1 }))) ∧
  (∀ (s : State) (p queue : Nat), p < packageLimit → queue < 64 →
    let w (t : State) (i : Nat) : Word := t.reg p (0x70000 + 64 * queue + 8 * i)
    let head := (w s 7).toNat / 2 ^ 16 % 2 ^ 16
    let last : Prop := head = (w s 4).toNat / 2 ^ 16 % 2 ^ 16
    let consumed (t : State) : Prop :=
      (w t 7).toNat / 2 ^ 16 % 2 ^ 16 = (if last then 0 else head + 1) % 2 ^ 16 ∧
        (nbit (w t 7).toNat 32 = true ↔ (nbit (w s 7).toNat 32 = false ↔ last)) ∧
        (t.pkg p).nvmeOut = (s.pkg p).nvmeOut ++
          [((w s 0).toNat % 2 * 2 ^ 47 + (w s 3).toNat, toBytes 4 (if last then 0 else head + 1))]
    (∀ word value, word < 7 → ∃ t, exec (.nvmeQueueEntryWrite p queue word value) s = .next t ∧
      (∀ i, i < 8 → w t i = if i = word then BitVec.ofNat 64 value
        else if i = 7 ∧ word = 5 ∧ nbit value 63 = true then 0x100000000 else w s i)) ∧
    (∀ cid status, s.nvmeEnabled p queue = true → (∀ y ∈ (s.pkg p).nvme, y.queue = queue → y.cid ≠ cid) →
      ∃ t, exec (.nvmeCompletionEntry p queue cid status) s = .next t ∧ consumed t ∧ (t.pkg p).nvme = (s.pkg p).nvme ∧
        t.clusters = s.clusters) ∧
    (∀ cid (r : NvRead), (∀ y ∈ (s.pkg p).nvme, y.queue = queue → y.cid = cid → y = r) → r ∈ (s.pkg p).nvme → r.queue = queue →
      r.cid = cid →
      let others := (s.pkg p).nvme.filter fun y => !(y.queue == queue && y.cid == cid)
      let active (t : State) (f : Cmd → Cmd) : Prop := ∀ m, (s.cluster r.cluster).active = some m → m.id = r.cmd →
        (t.cluster r.cluster).active = some (f m)
      (r.fine = false → ∀ status,
        ∃ t, exec (.nvmeCompletionEntry p queue cid status) s = .next t ∧ consumed t ∧
          (status % 2 ^ 11 = 0 → r.bytes ≤ r.landed → (t.pkg p).nvme = others ∧
            active t (fun m => { m with bytes := m.bytes + r.bytes }) ∧ t.due.contains (.copyCommandComplete r.cluster r.cmd) = true) ∧
          (status % 2 ^ 11 ≠ 0 → (t.pkg p).nvme = others ∧
            active t (fun m => if m.code = 0 then { m with code := 8, status := status % 2 ^ 11 } else m) ∧
            t.due.contains (.copyCommandComplete r.cluster r.cmd) = true)) ∧
      (r.since + 700000 * ((w s 5).toNat / 2 ^ 32 % 2 ^ 16) ≤ s.time →
        ∃ t, exec (.nvmeTimeout p queue cid) s = .next t ∧ (t.pkg p).nvme = (s.pkg p).nvme.filter (fun y => y.cmd != r.cmd) ∧
          active t (fun m => { m with code := 9, status := 0, ended := true }) ∧
          t.due.contains (.copyCommandComplete r.cluster r.cmd) = true)) ∧
    (∀ offset (data : List Byte) (r : NvRead) a, (s.pkg p).nvme.find? (fun y => (y.place offset).isSome) = some r →
      r.place offset = some a → data ≠ [] →
      let n := min data.length (64 - offset % 64)
      s.plainRange [r.cmd] a n → ∃ t, exec (.nvmeControllerWrite p offset data) s = .next t ∧ s.wrote t a (data.take n) ∧
        (n < data.length → t.due.contains (.nvmeControllerWrite p (offset + n) (data.drop n)) = true)))

/-! ### Courses and experts -/

/-- For every state in which the instruction may issue: CBEGIN takes the next number on ld, with its destination
pending; where a number is free it reserves one for the launch, in its next generation, and answers its handle, where
none is it answers all ones. STC to memory that its core may write holds the course store, counted on st; LAY of a
well-formed handle holds its decision, with an answer still to come, and ABANDON holds its own; both end the chunk.
CSTAT answers the number of course stores and the state of the course that its handle names for the launch, else zero.
EXRT counts on ld with its destination pending, and its request then arrives as a step of its own, which takes the word
of the descriptor of an expert of the launch as it then stands, zero for a name that is none: that the arrival is the
first of the two steps of its return is the model's choice (R338; log 66). EXDEF, EXGROW,
EXRETIRE, EXJOIN, EXUPD and EXSPILL of an expert name, and EXLOAD, with a mailbox that fits and room on cp, leave
their command with its operands, held until the apply, and end the chunk; a first operand that is no expert name traps
with endpoint range. Registers, memory and the other strands are unchanged. (R307, R308, R309, R310, R311, R312, R334,
R337, R338, R339, R342, R177) -/
def Obligations.CourseAndExpertInstructionsIssue : Prop :=
  ∀ (o : Ops) (s : State),
    let p := pkgOf s.cur
    let id := s.openChunk.nextId
    let a := (s.s o.sa).toNat
    let c := s.course p (a % 256)
    let answers (i : Instr) (value : Option Word) (ends : Bool) (after : State → Prop) : Prop :=
      ∃ t, exec i s = .next t ∧ Accessed s t [] ends ∧ Awaits s t o.dst.toNat (.answer o.dst.toNat value) [] [] ∧
        (value.isSome = true → t.due.contains (.loadDataReturn s.cur s.me.issued) = true) ∧ after t
    let held (t : State) (hs : List Held) : Prop := ∃ d, t.me.chunks.head? = some d ∧ d.held = s.openChunk.chunk.held ++ hs
    let code : Nat := match c.st with | .opened => 1 | .preparing => 2 | .deciding => 3 | _ => 0
    let named := a < 2 ^ 24 ∧ code ≠ 0 ∧ c.gen = a / 256 ∧ c.lkey = s.me.lkey
    let name := a % 2 ^ 23
    let commands (i : Instr) (kind : CmdKind) : Prop :=
      Commands i s .cp (.cmd id) true fun t => tget? t.cmds id = some
        { id := id, strand := s.cur, seq := s.me.issued, chunk := s.openChunk.chunk.id, lkey := s.me.lkey, sv := s.me.sv,
          mailbox := (if o.dst = 0 then none else some (s.s o.dst).toNat), kind := kind, issuer := s.epid s.cur }
    (s.openChunk.counterFull .ld = false →
      (s.issues o.g [o.dst.toNat] →
        ((∃ n, n < 256 ∧ (s.course p n).st = .closed) → ∃ n gen, n < 256 ∧ (s.course p n).st = .closed ∧
          gen = ((s.course p n).gen + 1) % 2 ^ 16 ∧ answers (.cbegin o) (some (BitVec.ofNat 64 (gen * 256 + n))) false fun t =>
            held t [.cbegin n] ∧ t.course p n = { gen := gen, st := .reserved, lkey := s.me.lkey }) ∧
        ((∀ n, n < 256 → (s.course p n).st ≠ .closed) → answers (.cbegin o) (some (BitVec.allOnes 64)) false fun t => held t [])) ∧
      (s.issues o.g [o.sa.toNat, o.dst.toNat] →
        (a < 2 ^ 24 → answers (.lay o) none true fun t => held t [.lay a s.me.issued]) ∧
        answers (.cstat o) (some (if named then BitVec.ofNat 64 (min c.count (2 ^ 32 - 1) * 2 ^ 16 + code) else 0)) false (fun t => held t [])) ∧
      (s.issues o.g [o.dst.toNat, o.sa.toNat] → a / 2 ^ 23 = 1 →
        ∃ t, exec (.exrt o) s = .next t ∧ Accessed s t [] false ∧
          Awaits s t o.dst.toNat (.expert o.dst.toNat name (o.immBits 6 0)) [] [] ∧
          t.due.contains (.loadDataReturn s.cur s.me.issued) = true ∧ held t [])) ∧
    (∀ (k : Nat) (q : OutOp) (reg n i : Nat), k < strandLimit → q ∈ (s.strand k).ops → q.counter = .ld → q.done = false →
      q.fin = .expert reg n i → (∀ x ∈ (s.strand k).ops, x.seq = q.seq → x = q) → q.need = [] →
      let word : Nat := match tget? s.experts n with
        | some e => if e.lkey = (s.strand k).lkey then e.word i else 0
        | none => 0
      ∃ t, exec (.loadDataReturn k q.seq) s = .next t ∧ t.mem = s.mem ∧ (t.strand k).regs = (s.strand k).regs ∧
        (t.strand k).ops = (s.strand k).ops.map (fun x =>
          if x.seq = q.seq then { x with fin := .answer reg (some (BitVec.ofNat 64 word)) } else x) ∧
        t.due.contains (.loadDataReturn k q.seq) = true) ∧
    (∀ locs, s.mayAccess → s.issues o.g (addrRegs o ++ [o.sc.toNat, o.dst.toNat]) →
      let ea := s.formed o
      (s.s o.dst).toNat < 2 ^ 24 → ea % o.nBytes = 0 → ea < 0xFF * 2 ^ 48 → s.lies .stc false ea o.nBytes locs →
      Commands (.stc o) s .st
        (.stc (s.s o.dst).toNat (locs.headD 0) o.nBytes ((s.s o.sc).toNat % 2 ^ (8 * o.nBytes)) s.me.issued) false fun _ => True) ∧
    (s.issues o.g [o.sa.toNat] → a < 2 ^ 24 → Holds (.abandon o) s [.abandon a] true) ∧
    (s.mailboxFits o → s.openChunk.counterFull .cp = false →
      (s.issues o.g [o.dst.toNat, o.sa.toNat] →
        commands (.exload o) (.exload a (o.immBits 3 0)) ∧
        (a / 2 ^ 23 = 1 →
          commands (.exgrow o) (.exgrow name (o.immBits 5 0)) ∧ commands (.exretire o) (.exretire name (o.immBits 4 0)) ∧
          commands (.exupd o) (.exupd name) ∧ commands (.exspill o) (.exspill name))) ∧
      (s.issues o.g [o.dst.toNat, o.sa.toNat, o.sb.toNat] → a / 2 ^ 23 = 1 →
        commands (.exdef o) (.exdef name (s.s o.sb).toNat) ∧
        commands (.exjoinContrib o) (.exjoin name (s.s o.sb).toNat (o.immBits 4 0) false) ∧
        commands (.exjoinHand o) (.exjoin name (s.s o.sb).toNat (o.immBits 4 0) true))) ∧
    (s.issues o.g [o.dst.toNat, o.sa.toNat] → a / 2 ^ 23 ≠ 1 → ∀ i ∈ [Instr.exgrow o, .exretire o, .exupd o, .exspill o, .exrt o],
      Traps i s causeEndpoint a)

/-! ### Courses and experts -/

/-- For every course of a source package: the commit of CBEGIN opens its reserved number; the commit of a course store
of an open course sends it to the package that homes its word and counts it there; the commit of LAY asks every
destination to prepare, with the timeout owed, and of a LAY whose course is not open answers 1; the commit of ABANDON
decides 5. A store that arrives in order, admitted by the permission table, is acknowledged and staged byte for byte;
one not admitted makes the course rejected. A prepared destination with every announced store staged locks each word
that is free, of which no piece of a write is still to come and with no earlier request for it, and reports ready,
with an overflow it reports 2. The source decides 0 once every destination has reported ready, 2 at an overflow, 3 when
100 microseconds have passed, and tells every destination that answers. The model's choices are the 70,000 cycles of
the timeout (log 75, PRESUMED), that only the destinations that answer are told and awaited (log 46, DEDUCED), and that
COURSE_DECISION, which the decision owes, acts by the verdict in whatever state its course is (log 94, DESIGN CHOICE).
A destination that publishes words that no holder owns writes every staged byte at its home
and no other (a word that one owns is recalled first), releases the course's locks, drops the record and acknowledges;
with any other verdict it writes nothing. The last acknowledgement frees the number and sends the status to its LAY or
to its expert's directory. (R308, R309, R310, R311, R332, R116, R117, R118, R119, R24) -/
def Obligations.CoursesDecide : Prop :=
  ∀ (s : State),
    let decided (t : State) (src num verdict : Nat) : Prop :=
      let c := s.course src num
      let ds := (c.dests.map fun d => d.1).filter s.answers
      (ds = [] → t.course src num = { gen := c.gen }) ∧
      (ds ≠ [] → (t.course src num).st = .deciding ∧ (t.course src num).verdict = verdict ∧ (t.course src num).acks = ds ∧
        ∀ d ∈ ds, t.due.contains (.courseDecision d src num) = true)
    (∀ (k : Nat) (ch : Chunk) (h : Nat),
      let p := pkgOf k
      let num := h % 256
      let c := s.course p num
      let open' := h < 2 ^ 24 ∧ c.st = .opened ∧ c.gen = h / 256 ∧ c.lkey = (s.strand k).lkey
      (c.st = .reserved → Commits s k ch (.cbegin num) fun t => t.course p num = { c with st := .opened }) ∧
      (open' → Commits s k ch (.abandon h) fun t => decided t p num 5) ∧
      (open' → c.rejected = false → c.dests ≠ [] → ∀ q, Commits s k ch (.lay h q) fun t =>
        t.course p num = { c with lay := some (k, q), st := .preparing, since := s.time } ∧
        (∀ d ∈ c.dests, t.due.contains (.coursePrepare d.1 p num) = true) ∧ t.due.contains (.courseTimeout p num) = true) ∧
      (¬ open' → ∀ q, Commits s k ch (.lay h q) fun t => t.course p num = c ∧ t.due.contains (.loadDataReturn k q) = true) ∧
      (open' → ∀ addr n value q, Commits s k ch (.stc h addr n value q) fun t =>
        (t.course p num).count = c.count + 1 ∧
        tget 0 (t.course p num).dests (pkgOfAddr addr) = tget 0 c.dests (pkgOfAddr addr) + 1 ∧
        ∃ m ∈ t.stcs, m.src = p ∧ m.num = num ∧ m.gen = c.gen ∧ m.addr = addr ∧ m.n = n ∧ m.value = value ∧ m.strand = k ∧
          m.seq = q ∧ t.due.contains (.stcStagingArrival (pkgOfAddr addr) m.id) = true)) ∧
    (∀ (p id : Nat) (m : StcMsg), s.stcs.find? (fun m => m.id == id) = some m → s.answers p = true →
      (∀ x ∈ s.stcs, x.src = m.src → x.num = m.num → pkgOfAddr x.addr = p → id ≤ x.id) →
      let c := s.course m.src m.num
      let r := (s.pkg p).stagingOf m.src m.num
      c.gen = m.gen → c.st = .opened →
      ∃ t, exec (.stcStagingArrival p id) s = .next t ∧ t.stcs = s.stcs.filter (fun x => x.id != id) ∧ t.mem = s.mem ∧
        (m.strand < strandLimit → t.due.contains (.storeAcknowledgement m.strand m.seq) = true) ∧
        (s.rangeAdmits m.src m.addr 3 = false → (t.course m.src m.num).rejected = true) ∧
        (s.rangeAdmits m.src m.addr 3 = true → (s.pkg p).staging.foldl (fun n x => n + x.lines.length) 0 < 1048576 →
          let u := (t.pkg p).stagingOf m.src m.num
          u.arrived = r.arrived + 1 ∧ u.overflow = r.overflow ∧
          ∀ a, tget? u.cells a = if m.addr ≤ a ∧ a < m.addr + m.n then some ((toBytes m.n m.value).getD (a - m.addr) 0)
            else tget? r.cells a)) ∧
    (∀ (p src num : Nat), p < packageLimit → src < packageLimit →
      let c := s.course src num
      let r := (s.pkg p).stagingOf src num
      (c.st = .preparing → s.answers p = true → r.locked = false → tget 0 c.dests p ≤ r.arrived →
        (r.overflow = true → ∃ t, exec (.coursePrepare p src num) s = .next t ∧ t.mem = s.mem ∧
          t.due.contains (.courseReadyReport src num p 2) = true) ∧
        (r.overflow = false →
          (∀ w ∈ r.words, (∀ l ∈ (s.entry (w / 8)).locks, l.1 ≠ w % 8) ∧ (∀ x ∈ (s.entry (w / 8)).tw, x.1 ≠ w % 8) ∧
            (∀ x ∈ (s.entry (w / 8)).sole, x.1 ≠ w % 8) ∧ w % 8 ∉ (s.entry (w / 8)).split ∧ w % 8 ∉ (s.entry (w / 8)).posting ∧
            s.placedAfter (w / 8) [w % 8] [1, src * 256 + num, w] = false) →
          ∃ t, exec (.coursePrepare p src num) s = .next t ∧ t.mem = s.mem ∧
            (∀ w ∈ r.words, (s.entry (w / 8)).locks ⊆ (t.entry (w / 8)).locks ∧
              (w % 8, src * 256 + num) ∈ (t.entry (w / 8)).locks) ∧
            ((t.pkg p).stagingOf src num).locked = true ∧ t.due.contains (.courseReadyReport src num p 0) = true)) ∧
      (c.st = .preparing → ∀ status,
        (c.since + 70000 ≤ s.time → ∃ t, exec (.courseReadyReport src num p status) s = .next t ∧ decided t src num 3) ∧
        (s.time < c.since + 70000 → status ≠ 0 →
          ∃ t, exec (.courseReadyReport src num p status) s = .next t ∧ decided t src num 2) ∧
        (s.time < c.since + 70000 → (∀ d ∈ c.dests, s.answers d.1 = true ∧ (d.1 = p ∨ tget? c.reports d.1 ≠ none)) →
          ∃ t, exec (.courseReadyReport src num p 0) s = .next t ∧ decided t src num 0) ∧
        (s.time < c.since + 70000 → (∃ d ∈ c.dests, d.1 ≠ p ∧ tget? c.reports d.1 = none) → ∃ t, exec (.courseReadyReport src num p 0) s = .next t ∧
          t.course src num = { c with reports := tput c.reports p 1 } ∧ t.due = s.due)) ∧
      (c.st = .preparing → c.since + 70000 ≤ s.time →
        ∃ t, exec (.courseTimeout src num) s = .next t ∧ decided t src num 3) ∧
      (s.answers p = true →
        let released (t : State) : Prop :=
          (∀ x ∈ (t.pkg p).staging, ¬ (x.src = src ∧ x.num = num)) ∧ t.due.contains (.courseDecisionAck src num p) = true ∧
          ∀ l, pkgOfAddr (l * 64) = p → ∀ x ∈ (t.entry l).locks, x.2 ≠ src * 256 + num
        (c.verdict ≠ 0 → ∃ t, exec (.courseDecision p src num) s = .next t ∧ t.mem = s.mem ∧ released t) ∧
        (c.verdict = 0 → (r.cells.map fun x => x.1).Nodup → (s.pkg p).hostCopies = [] →
          (∀ l ∈ r.lines, s.plainHome (l * 64) ∧ ∀ i, (s.entry l).state i = .u ∨ (s.entry l).state i = .s) →
          ∃ t, exec (.courseDecision p src num) s = .next t ∧ released t ∧
            ∀ a, t.mem.read a = (tget? r.cells a).getD (s.mem.read a)) ∧
        (∀ w ∈ r.words, ∀ g, c.verdict = 0 → (∀ l ∈ r.lines, isHost (l * 64) = false) → (s.entry (w / 8)).state (w % 8) = .m →
          (s.entry (w / 8)).owner (w % 8) = some g → ∃ t, exec (.courseDecision p src num) s = .next t ∧ t.mem = s.mem ∧
            (t.pkg p).staging = (s.pkg p).staging ∧ t.due.contains (.courseDecision p src num) = true ∧
            t.carries (.recall true) fun q => q.holder = g ∧ q.words = [w])) ∧
      (c.st = .deciding →
        ((∀ d ∈ c.acks, d = p) → ∃ t, exec (.courseDecisionAck src num p) s = .next t ∧ t.course src num = { gen := c.gen } ∧
          (∀ k q, c.lay = some (k, q) → t.due.contains (.loadDataReturn k q) = true) ∧
          ∀ name, c.expert = some name → t.due.contains (.exupdCourseStatus name c.verdict) = true) ∧
        ((∃ d ∈ c.acks, d ≠ p) → ∃ t, exec (.courseDecisionAck src num p) s = .next t ∧
          t.course src num = { c with acks := c.acks.filter (fun d => d != p) } ∧ t.due = s.due)))

/-! ### Courses and experts -/

/-- For every expert, launch and package, with no other event of the expert in process: a token goes to the active
replica with room and the fewest deliveries of the window, which counts it and becomes a member; it is held while the
step is closed or updating; it is written to the ring at SPTAIL where no replica has room; a token of no expert sets
its DROP bit and changes no other byte. A load window's end clears the deliveries, and with AUTO retires the least
used of several under-used replicas. A replica copy reads the layout and the master piece by piece, writes the
master's bytes to the buffer line by line, and with the last one committed its replica is active and the ring is to be
routed. EXRETIRE drains its replica; EXJOIN of a member starts its contribution, which reads its gradient, and adds
each element with one rounding (the first arrival exactly), and with the last piece of GRAD applied logs it and sets
CONTRIB. A course status of 0 advances
VERSION and STEP, clears the step's records and routes what it held, any other leaves the step closed. A gateway reads
its request's token, scores it, writes the combine record and, with it committed, sends a token record for each
selected expert of its own domain; collects contributions, forms the partial row of its domain, folds the rows of
every domain, writes the combined row, and FIN once that is committed; collects merge contributions to a record of
class PRIV, HOME or SPAN, refusing one that would open a 65th set, and writes OUT, ARR and FIN in this order once EXP
has arrived. What a gateway or directory has taken is no longer in flight. The model's choices are that each access of
an event is a step of its own, piece by piece (log 36, DEDUCED), that a reopened step routes the ring before the tokens
that it held (log 37, DEDUCED), what crosses to other domains (log 35, DESIGN CHOICE), the rights of a gateway's
accesses (log 38, DEDUCED), and that a record on a page of another class is discarded (log 135, DEDUCED). (R318,
R319, R323, R324, R325, R322, R328, R329, R331, R332, R388, R389) -/
def Obligations.ExpertsRouteJoinAndUpdate : Prop :=
  (∀ (s : State) (msg : Nat) (m : Msg) (l : Launch),
    s.msgs.find? (fun m => m.id == msg) = some m → s.launch m.lkey = some l → m.len = 64 → m.payload.length = 64 → msg < s.nextId →
    let name := m.target % 2 ^ 23
    let rw := withRegion (wordsIn m.payload) (m.q.getD 0)
    let taken (t : State) : Prop := exec (.tokenArrival msg) s = .next t ∧ ∀ x ∈ t.msgs, x.id ≠ msg
    (∀ e, tget? s.experts name = some e → e.lkey = m.lkey → e.heldTok = [] →
      e.queue = [] ∨ e.queue.head? = some (.token msg) →
      (e.closed = true ∨ e.updating = true → ∃ t, exec (.tokenArrival msg) s = .next t ∧ t.msgs = s.msgs ∧
        tget? t.experts name = some { e with heldTok := [msg], queue := e.queue.tail }) ∧
      (e.closed = false → e.updating = false →
        let room := (List.range 32).filter fun i => e.state i == 2 && decide (e.used i < e.cap i)
        (∀ i ∈ room, (∀ j ∈ room, tget 0 e.window i < tget 0 e.window j ∨ (tget 0 e.window i = tget 0 e.window j ∧ i ≤ j)) →
          ∃ t d, taken t ∧ tget? t.experts name = some d ∧ d.used i = min 65535 (e.used i + 1) ∧ nbit d.member i = true ∧
            tget 0 d.window i = tget 0 e.window i + 1 ∧ d.queue = e.queue.tail ∧ t.mem = s.mem ∧
            ∀ core, l.resolve (e.ep i) = .core core → (s.pkg (pkgOf (8 * core))).down = false →
              t.posted m.lkey (e.ep i) core (e.rchan i) (bytesOf
                [rw.getD 0 0, rw.getD 1 0, rw.getD 2 0, rw.getD 3 0, e.version * 2 ^ 32 + i * 2 ^ 23 + name, rw.getD 5 0,
                  rw.getD 6 0, rw.getD 7 0])) ∧
        (room = [] → (∃ i, i < 32 ∧ (e.state i = 1 ∨ e.state i = 2)) → e.spilled < 2 ^ bits (e.word 4) 63 59 →
          bits (e.word 4) 55 0 % 64 = 0 → s.jobBytes msg 0 = [] → ∀ a,
          let tail := bits (e.word 5) 31 0
          s.placed (e.ctx name msg) .engineWrite (bits (e.word 4) 55 0 + 64 * (tail % 2 ^ bits (e.word 4) 63 59)) 64 a →
          ∃ t d, taken t ∧ tget? t.experts name = some d ∧ bits (d.word 5) 31 0 = (tail + 1) % 2 ^ 32 ∧ d.queue = e.queue.tail ∧
            s.wrote t a (bytesOf rw)))) ∧
    (tget? s.experts name = none → ∀ a,
      let x : EngCtx := { source := sourceIo (2 * l.pkg + name % 2) 1, lkey := m.lkey, sv := false, strand := 0, cmd := msg }
      let comb := rw.getD 1 0 % 2 ^ 56
      (∀ f ∈ s.foreign, ¬ (f.1 = m.lkey ∧ f.2.1 = comb ∧ f.2.2.1 = bits (rw.getD 2 0) 34 32)) →
      s.placed x .amo (comb + 9) 1 a → ∃ t, taken t ∧ ∀ b,
        t.mem.read b = if b = a then s.mem.read a ||| (1 <<< bits (rw.getD 2 0) 34 32) else s.mem.read b)) ∧
  (∀ (s : State) (p name : Nat) (e : Expert), p < packageLimit → s.experts = [(name, e)] → e.pkg = p → e.queue = [] →
    let total := e.window.foldl (fun n d => n + d.2) 0
    let active := (List.range 32).filter fun i => e.state i == 2
    (nbit (e.word 0) 62 = false → ∃ t, exec (.loadWindowEnd p) s = .next t ∧ t.experts = [(name, { e with window := [] })]) ∧
    (nbit (e.word 0) 62 = true → 2 ≤ active.length → total ≤ bits (e.word 3) 63 48 * active.length →
      total < bits (e.word 3) 47 32 * active.length → ∀ i ∈ active,
        (∀ j ∈ active, tget 0 e.window i < tget 0 e.window j ∨ (tget 0 e.window i = tget 0 e.window j ∧ j ≤ i)) →
        ∃ t d, exec (.loadWindowEnd p) s = .next t ∧ tget? t.experts name = some d ∧ d.state i = 3 ∧ d.window = [] ∧
          ∀ j, j < 32 → j ≠ i → d.state j = e.state j)) ∧
  (∀ (s : State) (name : Nat) (e : Expert), name < 2 ^ 23 → tget? s.experts name = some e → e.queue = [] →
    (∀ i, i < 32 → e.state i = 1 → e.copying.contains i = true → e.compresses = false →
      let step : Instr := .replicaCopyComplete name i
      let x := e.ctx name (dirJob name i)
      s.readsOn step x 0 (bits (e.word 1) 55 0) 32 ∧
      ∀ l, s.complete x 0 32 → expertLayout (s.jobBytes x.cmd 0) = some l →
        s.readsOn step x 1 l.base l.wsize ∧
        (s.complete x 1 l.wsize → s.writesOn step x 2 (e.buf i) (s.jobBytes x.cmd 1)) ∧
        (s.complete x 1 l.wsize → s.complete x 2 (s.jobBytes x.cmd 1).length → s.piecesLeft x.cmd = false → e.upd = none →
          (∀ g ∈ e.grows, g.1 ≠ i) →
          ∃ t d, exec step s = .next t ∧ tget? t.experts name = some d ∧ d.state i = 2 ∧ d.copying.contains i = false ∧
            d.queue = [.spill] ∧ t.due.contains (.replicaCopyComplete name 32) = true ∧ t.mem = s.mem)) ∧
    (∀ (id : Nat) (c : Cmd), tget? s.cmds id = some c → c.id = id → c.applied = true → c.ended = false → c.lkey = e.lkey →
      c.mailbox = none → s.piecesLeft id = false →
      let step : Instr := .contributionArrival name id
      let left (t : State) : Prop :=
        exec step s = .next t ∧ tget? t.cmds id = none ∧ ∀ o ∈ (t.strand c.strand).ops, o.counter = .cp → o.seq = c.seq → o.done = true
      (∀ i, i < 32 → c.kind = .exretire name i → c.started = false → e.state i = 2 → ∃ t d, left t ∧
        tget? t.experts name = some d ∧ d.state i = 3 ∧ t.mem = s.mem) ∧
      (∀ g i, i < 32 → c.kind = .exjoin name g i false → c.started = false → c.issuer = e.ep i → e.state i = 2 →
        nbit e.member i = true → nbit e.contrib i = false → i ∉ e.joins →
        ∃ t, exec step s = .next t ∧ tget? t.experts name = some { e with joins := e.joins ++ [i] } ∧
          tget? t.cmds id = some { c with started := true } ∧ t.due.contains step = true) ∧
      (∀ g i, i < 32 → c.kind = .exjoin name g i false → c.started = true → e.compresses = false →
        let x := c.exCtx e.pkg name
        let own := e.ctx name id
        let grad := bits (e.word 7) 55 0
        (c.cursor = 0 → s.readsOn step own 0 (bits (e.word 1) 55 0) 32 ∧
          ∀ l ga a, s.complete own 0 32 → expertLayout (s.jobBytes id 0) = some l →
            s.placed x .engineRead g (4 * (l.rows * l.cols)) ga → s.placed own .engineWrite grad (4 * (l.rows * l.cols)) a →
            s.readsOn step x 1 g (4 * (l.rows * l.cols)) ∧
            (s.complete x 1 (4 * (l.rows * l.cols)) → ∃ t, exec step s = .next t ∧ t.mem = s.mem ∧
              tget? t.cmds id = some { c with cursor := 1 } ∧ tget? t.experts name = some { e with queue := [.joined id] } ∧
              t.due.contains step = true))) ∧
      (c.kind = .exspill name → c.started = false → e.spilled = 0 → ∃ t, left t ∧ tget? t.experts name = some e ∧ t.mem = s.mem) ∧
      (e.upd = some id → e.updating = true → ∀ status, ∃ t d, exec (.exupdCourseStatus name status) s = .next t ∧
        tget? t.experts name = some d ∧ d.updating = false ∧ d.upd = none ∧ tget? t.cmds id = none ∧
        (status = 0 → d.version = (e.version + 1) % 2 ^ 32 ∧ d.stepNo = (e.stepNo + 1) % 2 ^ 16 ∧ d.closed = false ∧ d.member = 0 ∧
          d.contrib = 0 ∧ d.arrivals = 0 ∧ (∀ i, i < 32 → d.used i = 0) ∧
          d.queue = (if e.spillDue then [.spill] else []) ++ e.heldTok.map .token ∧
          ∀ v, d.queue.head? = some v → t.due.contains (v.step name) = true) ∧
        (status ≠ 0 → d.version = e.version ∧ d.stepNo = e.stepNo ∧ d.closed = e.closed ∧ d.member = e.member ∧
          d.contrib = e.contrib)))) ∧
  (∀ (s : State) (name id i g : Nat) (e : Expert) (c : Cmd), name < 2 ^ 23 → tget? s.experts name = some e →
    e.queue = [] ∨ e.queue.head? = some (.joined id) → i < 32 → tget? s.cmds id = some c → c.id = id → c.applied = true →
    c.ended = false → c.lkey = e.lkey → c.mailbox = none → s.piecesLeft id = false → c.kind = .exjoin name g i false →
    c.started = true → c.cursor = 1 → e.compresses = false → e.arrivals < 32 →
    let step : Instr := .contributionArrival name id
    let own := e.ctx name id
    let grad := bits (e.word 7) 55 0
    let n := (s.jobBytes id 1).length / 4
    let elem (r j : Nat) : Nat := fromBytes (((s.jobBytes id r).drop (4 * j)).take 4)
    let bs := (List.range n).flatMap fun j => toBytes 4
      (if e.arrivals = 0 then elem 1 j else toF32 (addNum (f32Num (elem 4 j)) (f32Num (elem 1 j))))
    let done := (s.jobBytes id 5).length
    let k := min (bs.length - done) (64 - (grad + done) % 64)
    (e.arrivals ≠ 0 → s.readsOn step own 4 grad (4 * n)) ∧
    (e.arrivals = 0 ∨ s.complete own 4 (4 * n) →
      let joined (t : State) : Prop := exec step s = .next t ∧ ∃ d, tget? t.experts name = some d ∧
        nbit d.contrib i = true ∧ d.arrivals = e.arrivals + 1 ∧ i ∉ d.joins ∧ d.queue = e.queue.tail ∧
        bits (d.word (9 + e.arrivals / 12)) (5 * (e.arrivals % 12) + 4) (5 * (e.arrivals % 12)) = i ∧
        tget? t.cmds id = none ∧ ∀ o ∈ (t.strand c.strand).ops, o.counter = .cp → o.seq = c.seq → o.done = true
      (done + k < bs.length → s.writesOn step own 5 grad bs) ∧
      (done < bs.length → bs.length = done + k → grad + bs.length ≤ 0xFF * 2 ^ 48 → ∀ a,
        s.placed own .engineWrite (grad + done) k a →
        (a / 32 = (a + k - 1) / 32 → ∃ t, joined t ∧ s.wrote t a ((bs.drop done).take k)) ∧
        (a / 32 ≠ (a + k - 1) / 32 → id ≠ 0 → ∃ t, exec step s = .next t ∧ s.wrote t a ((bs.drop done).take k) ∧
          tget? t.experts name = some { e with queue := .joined id :: e.queue.tail } ∧
          t.jobBytes id 5 = s.jobBytes id 5 ++ (bs.drop done).take k ∧ t.due.contains step = true)) ∧
      (bs.length ≤ done → ∃ t, joined t ∧ t.mem = s.mem))) ∧
  (∀ (s : State) (msg p iod ag : Nat) (m : Msg) (l : Launch), s.msgs.find? (fun m => m.id == msg) = some m → msg < s.nextId →
    s.launch m.lkey = some l → l.resolve m.target = .agent p iod ag →
    let g := 16 * iod + ag % 16
    let x := gatewayCtx p g m.lkey msg
    let w (i : Nat) : Nat := (wordsIn m.payload).getD i 0
    let gone (t : State) : Prop := ∀ y ∈ t.msgs, y.id ≠ msg
    (∀ t : Gate,
      let r := requestIn m.payload
      let step : Instr := .scoringRequest msg
      m.len = 40 → s.heldBack m = false → m.dst = some 0 ∨ (m.dst = none ∧ s.loading p r.table = false) → tget? (s.pkg p).gates r.table = some t → r.k ≤ t.e → r.d = t.d →
      r.ntok = 1 →
      s.readsOn step x 0 r.xbase (2 * r.d) ∧ (s.complete x 0 (2 * r.d) →
        let sel := selectScores r.k (t.scores (bf16sIn (s.jobBytes msg 0)))
        let ws := weights (sel.map fun e => e.2)
        let names := sel.map fun e => (t.names.getD e.1 0).toNat
        let record := combineRecord r ws (names.map fun n => bits n 28 23)
        s.writesOn step x 1 r.cbase record ∧
        (s.complete x 1 record.length → s.piecesLeft msg = false → ∃ u, exec step s = .next u ∧ gone u ∧ u.mem = s.mem ∧
          ∀ i, i < r.k → bits (names.getD i 0) 28 23 = Config.ownDomain % 64 →
            ∃ y ∈ u.msgs, y.target = 2 ^ 23 + names.getD i 0 % 2 ^ 23 ∧ y.payload = tokenRecord r i (ws.getD i 0) ∧
              u.due.contains (.tokenArrival y.id) = true))) ∧
    (∀ ar : Nat, m.chan ≠ 64 → m.len = 24 → s.heldBack m = false → m.dst.getD p = pkgOfAddr ar →
      let h := pkgOfAddr ar
      let record := w 0 % 2 ^ 56
      let slot := w 2 % 8
      let key : Combine := { gateway := g, record := record, lkey := m.lkey }
      (∀ f ∈ s.foreign, ¬ (f.1 = m.lkey ∧ f.2.1 = record ∧ f.2.2.1 = slot)) →
      s.placed (gatewayCtx h g m.lkey msg) .engineRead record 64 ar →
      ((∀ y ∈ (s.pkg h).combines, y.same key = false) → (∃ a, s.placed (gatewayCtx h g m.lkey s.nextId) .engineRead record 32 a) →
        record % 32 = 0 → s.jobBytes s.nextId 0 = [] →
        ∃ u, exec (.combineContribution msg) s = .next u ∧ u.mem = s.mem ∧ u.msgs = s.msgs ∧
          (u.pkg h).combines = (s.pkg h).combines ++
            [{ key with rows := [(slot, w 1 % 2 ^ 56)], msgs := [msg], job := s.nextId }] ∧
          u.due.contains (.combineRecordRecheck h g) = true) ∧
      (∀ y, (s.pkg h).combines.find? (fun c => c.same key) = some y → 64 ≤ (s.jobBytes y.job 0).length →
        let rec' := wordsIn (s.jobBytes y.job 0)
        (∃ i ∈ (List.range 8).filter (fun i => nbit (rec'.getD 1 0) i && !nbit (rec'.getD 1 0) (8 + i)),
          i ≠ slot ∧ bits (rec'.getD 6 0) (8 * i + 5) (8 * i) = Config.ownDomain % 64 ∧ tget? y.rows i = none) →
        ∃ u, exec (.combineContribution msg) s = .next u ∧ u.mem = s.mem ∧ u.msgs = s.msgs ∧ ∃ c ∈ (u.pkg h).combines,
          c.same key = true ∧ msg ∈ c.msgs ∧ (tget? y.rows slot = none → tget? c.rows slot = some (w 1 % 2 ^ 56)) ∧
          c.parts = y.parts)) ∧
    (m.chan = 2 → m.len = 24 → w 0 < 2 ^ 56 → w 1 < 2 ^ 56 → w 2 < 64 → w 0 % 64 = 0 → w 1 % 64 = 0 → s.heldBack m = false →
      let step : Instr := .mergeContribution msg
      let rec' := wordsIn (s.jobBytes msg 0)
      let d := bits (rec'.getD 1 0) 47 32
      let slots := (List.range 64).filter (nbit (rec'.getD 2 0))
      let set := (s.pkg p).merges.find? fun y => y.msgs.contains msg
      (set = none ∨ (∃ y, set = some y ∧ y.last = some msg) → s.readsOn step x 0 (w 0) 64) ∧
      (s.complete x 0 64 → set = none → ∀ ar at_ e,
        let old := (s.pkg p).merges.find? fun y => y.gateway == g && y.record == w 0 && y.lkey == m.lkey
        let row (i : Nat) : Option Nat := if i = w 2 then some (w 1) else old.bind fun y => tget? y.rows i
        let merges : Prop := e.cls = 0 ∨ e.cls = 2 ∨ e.cls = 3
        s.agentMay x .engineRead (w 0) 64 ar e → pkgOfAddr ar = p →
        (¬ merges → ∃ u, exec step s = .next u ∧ gone u ∧ u.mem = s.mem ∧ (u.pkg p).merges = (s.pkg p).merges) ∧
        (merges → recordSound rec' = true → nbit (rec'.getD 1 0) 25 = false →
          nbit (rec'.getD 2 0) (w 2) = true → (∀ y, old = some y → tget? y.rows (w 2) = none) →
          s.placed x .engineRead (w 1) (64 + 4 * d) at_ → (∃ i ∈ slots, row i = none) →
          let sets := ((s.pkg p).merges.filter fun y => y.gateway == g).length
          (old ≠ none ∨ sets < 64 → ∃ u, exec step s = .next u ∧ u.mem = s.mem ∧
            { m with held := false } ∈ u.msgs ∧ (∀ y, y.id ≠ msg → (y ∈ u.msgs ↔ y ∈ s.msgs)) ∧
            ∃ y ∈ (u.pkg p).merges, y.gateway = g ∧ y.record = w 0 ∧ y.lkey = m.lkey ∧ msg ∈ y.msgs ∧ y.last = none ∧
              tget? y.rows (w 2) = some (w 1)) ∧
          (old = none → 64 ≤ sets → ∃ u, exec step s = .next u ∧ u.mem = s.mem ∧ { m with held := true } ∈ u.msgs ∧
            (u.pkg p).merges = (s.pkg p).merges ∧ u.due.contains step = true))) ∧
      (∀ y, s.complete x 0 64 → set = some y → y.last = some msg → y.gateway = g → y.lkey = m.lkey → y.record % 8 = 0 →
        nbit (rec'.getD 4 0) 40 = false →
        let n := 64 + 4 * d
        (∀ j, j < slots.length → (∀ i, i < j → s.complete x (1 + i) n) →
          s.readsOn step x (1 + j) (tget 0 y.rows (slots.getD j 0)) n) ∧
        ((∀ j, j < slots.length → s.complete x (1 + j) n) →
          let out := ((List.range slots.length).map fun j => tripleIn (s.jobBytes msg (1 + j))).foldl mergeTriples (identityTriple d)
          s.writesOn step x 65 (bits (rec'.getD 0 0) 55 0) out.bytes ∧
          (s.complete x 65 out.bytes.length → s.piecesLeft msg = false →
            s.writesOn step x 66 (y.record + 24) (toBytes 8 (rec'.getD 2 0)) ∧
            (s.complete x 66 8 → s.jobBytes msg 67 = [] → ∀ a, s.placed x .engineWrite (y.record + 8) 8 a →
              ∃ u, exec step s = .next u ∧ s.wrote u a (toBytes 8 (rec'.getD 1 0 + 2 ^ 25)) ∧
                (msg ∈ y.msgs → gone u) ∧
                ∀ z ∈ (u.pkg p).merges, ¬ (z.gateway = g ∧ z.record = y.record ∧ z.lkey = m.lkey)))))) ∧
  (∀ (s : State) (p g : Nat) (c : Combine), p < packageLimit → g < 32 → c.gateway = g → c.domain = none → c.record % 8 = 0 →
    (s.pkg p).combines.filter (fun c => c.gateway == g) = [c] →
    let step : Instr := .combineRecordRecheck p g
    let x := gatewayCtx p g c.lkey c.job
    let rec' := wordsIn (s.jobBytes c.job 0)
    let live := (List.range 8).filter fun i => nbit (rec'.getD 1 0) i && !nbit (rec'.getD 1 0) (8 + i)
    let domain (i : Nat) : Nat := bits (rec'.getD 6 0) (8 * i + 5) (8 * i)
    let here := Config.ownDomain % 64
    let mine := live.filter fun i => domain i == here
    let d := bits (rec'.getD 1 0) 47 32
    s.readsOn step x 0 c.record 64 ∧
    (s.complete x 0 64 → (∀ i ∈ mine, tget? c.rows i ≠ none) →
      (mine ≠ [] → tget? c.parts here = none →
        (∀ j, j < mine.length → (∀ i, i < j → s.complete x (1 + i) (4 * d)) →
          s.readsOn step x (1 + j) (tget 0 c.rows (mine.getD j 0)) (4 * d)) ∧
        ((∀ j, j < mine.length → s.complete x (1 + j) (4 * d)) →
          let cs := (coefficients rec' live).filter fun e => mine.contains e.1
          let row := partialRow d ((cs.map fun e => e.2).zip ((List.range mine.length).map fun j => floatsIn (s.jobBytes c.job (1 + j))))
          ∃ u, exec step s = .next u ∧ u.mem = s.mem ∧ u.due.contains step = true ∧
            (u.pkg p).combines.filter (fun c => c.gateway == g) = [{ c with parts := tput c.parts here row }])) ∧
      ((mine = [] ∨ tget? c.parts here ≠ none) → (∀ i ∈ live, tget? c.parts (domain i) ≠ none) →
        let doms := (List.range 64).filter fun e => live.any fun i => domain i == e
        let out := (List.range d).flatMap fun j => toBytes 4 (foldF32 (doms.map fun e => (tget [] c.parts e).getD j 0))
        s.writesOn step x 9 (bits (rec'.getD 0 0) 55 0) out ∧
        (s.complete x 9 out.length → s.piecesLeft c.job = false → s.jobBytes c.job 10 = [] → ∀ a,
          s.placed x .engineWrite (c.record + 8) 8 a →
          ∃ u, exec step s = .next u ∧ (∀ y ∈ (u.pkg p).combines, y.gateway ≠ g) ∧
            s.wrote u a (toBytes 8 (if nbit (rec'.getD 1 0) 25 then rec'.getD 1 0 else rec'.getD 1 0 + 2 ^ 25)) ∧
            ∀ i ∈ c.msgs, ∀ y ∈ u.msgs, y.id ≠ i)))))

/-! ### Translation, counters and page moves -/

/-- For every package and unit: a read that its source can translate leaves the machine as it is; one that finds a
leaf fills the source's translations and sets A in the leaf; one that finds none, at a unit with room, parks with a
number that no park of the unit has, its page, its cause and the entry where the walk stopped. MTU_RESUME ends exactly the park that it names,
and with no access of a chunk behind it changes nothing else but the steps owed. MTU_KILL kills the launch, ends its
runs and its parks. COUNTER_HALVING halves every counter of the unit, rounding down, and no other. CDUMP takes its
area, reads as zero and becomes busy, and the end of the dump leaves every counter of an HBM unit in two bytes of the
area, clears BUSY and counts the dump: that it reads the counters at its end is the model's choice (log 76, DEDUCED).
PAGE_MOVE is to copy every line in which the page and the new frame differ; each is read in its pieces and written, and
the marked lines again; the final pass sets MIG and drops every translation through the leaf, waits for the data on
their way, copies what is still marked, and its end makes the leaf name the new frame with MIG clear, its other bits and
memory elsewhere unchanged. A ring register takes the fields that software may write; the record that a unit holds is
written at the tail, which advances, and one that waits for a full ring keeps that ring when its base is written. (R19,
 R20, R26, R28, R31, R33, R89, R363, R397, R400, R21) -/
def Obligations.TranslationUnitsWork : Prop :=
  (∀ (s : State) (source lkey va kind : Nat) (l : Launch), sourcePkg source < packageLimit → va < 0xFF * 2 ^ 48 →
    s.launch lkey = some l → kind = 0 ∨ kind = 4 ∨ kind = 6 →
    let p := sourcePkg source
    let i : Instr := .translationMiss source lkey va kind
    let found := s.tlb.find? fun e => e.maps source lkey va
    (found ≠ none → exec i s = .next s) ∧
    (found = none → s.parkOf source lkey va = none → (∀ r ∈ s.refused, r.source ≠ source) →
      (∀ addr w0 w1 lvl, s.walk (s.rootOf lkey) va = .leaf addr w0 w1 lvl → s.idleLine (addr / 64) → s.plainHome (addr / 64 * 64) →
        ∃ t, exec i s = .next t ∧
        t.tlb = { tlbOf source lkey va addr w0 w1 with word := w0 ||| 0x40 } :: s.tlb ∧
        t.mem.readNat addr 8 = s.mem.readNat addr 8 ||| 0x40 ∧
        ∀ b, (b < addr ∨ addr + 8 ≤ b) → t.mem.read b = s.mem.read b) ∧
      (∀ m, s.walk (s.rootOf lkey) va = .miss m → s.parkedAt p (unitOf source va) < 4096 → s.parks.length < 2 ^ 32 →
        ∃ t id, exec i s = .next t ∧ t.tlb = s.tlb ∧ id < 2 ^ 32 ∧
          (∀ k ∈ s.parks, k.pkg = p → k.unit = unitOf source va → k.id ≠ id) ∧
          t.parks = s.parks ++ [⟨p, unitOf source va, id, lkey, va / 4096, m.cause, m.addr, [(source, 0)]⟩]))) ∧
  (∀ (s : State) (p unit : Nat), p < packageLimit → unit < 10 →
    let reg (t : State) (off : Nat) : Word := t.reg p (0x80000 + unit * 0x1000 + off)
    (∀ k ∈ s.parks, k.pkg = p → k.unit = unit →
      (∀ x ∈ s.parks, x.pkg = p → x.unit = unit → x.id = k.id → x = k) → k.id < 2 ^ 32 →
      (∀ e ∈ s.strands, ∀ c ∈ (s.strand e.1).chunks, c.parked = []) →
      ∃ t, exec (.mtuResume p unit k.id) s = .next t ∧ t = { s with parks := s.parks.filter (fun x => x != k), due := t.due }) ∧
    (∀ lk l, lk < 2 ^ 16 → s.launch lk = some l →
      (∀ j, (s.strand j).lkey ≠ lk ∨ (s.strand j).run = .free → ∀ c ∈ (s.strand j).chunks, c.parked = []) →
      (∀ j, ∀ c ∈ (s.strand j).chunks, c.committed = true → c.parked = []) →
      ∃ t d, exec (.mtuKill p unit lk) s = .next t ∧ t.launch lk = some d ∧ d.killed = true ∧ (∀ k ∈ t.parks, k.lkey ≠ lk) ∧
        ∀ j, (s.strand j).lkey = lk → (t.strand j).run = .free) ∧
    (tcanon 0 (s.pkg p).counters = true → s.candidateKind p unit 0 = none →
      (∀ i, s.candidateKind p unit (tget 0 (s.pkg p).counters (counterKey unit i) / 2) = none) →
      ∃ t, exec (.counterHalving p unit) s = .next t ∧ t.mem = s.mem ∧ ∀ key, tget 0 (t.pkg p).counters key =
        if key / 2 ^ 30 = unit then tget 0 (s.pkg p).counters key / 2 else tget 0 (s.pkg p).counters key) ∧
    (let stat := (reg s 0x88).toNat
     let area := (s.stored p (0x80000 + unit * 0x1000 + 0x80)).toNat
     (∀ value, unit < 8 → stat % 2 = 0 → value / 2 ^ 6 % 2 ^ 44 * 64 + 2 ^ 21 ≤ 2 ^ 39 →
       ∃ t, exec (.cdump p unit value) s = .next t ∧ reg t 0x80 = 0 ∧
         t.stored p (0x80000 + unit * 0x1000 + 0x80) = BitVec.ofNat 64 (value / 2 ^ 6 % 2 ^ 44 * 64) ∧
         (reg t 0x88).toNat = stat + 1 ∧ t.due.contains (.counterDumpDone p unit) = true ∧ t.mem = s.mem) ∧
     (unit < 8 → stat % 2 = 1 → area % 64 = 0 → area + 2 ^ 21 ≤ 2 ^ 39 → s.plainRange [] (p * 2 ^ 50 + area) (2 ^ 21) →
       ∃ t, exec (.counterDumpDone p unit) s = .next t ∧
         (reg t 0x88).toNat = (stat / 2 ^ 32 + 1) % 2 ^ 32 * 2 ^ 32 ∧
         (∀ i, i < 2 ^ 20 → t.mem.readNat (p * 2 ^ 50 + area + 2 * i) 2 =
           tget 0 (s.pkg p).counters (counterKey unit i) % 2 ^ 16) ∧
         ∀ b, (b < p * 2 ^ 50 + area ∨ p * 2 ^ 50 + area + 2 ^ 21 ≤ b) → t.mem.read b = s.mem.read b)) ∧
    (∀ leaf frame,
      let w := s.mem.readNat leaf 8
      let size := pageBytes (bits w 9 8)
      let old := pfnAddr w
      leaf % 16 = 0 → s.idleLine (leaf / 64) → s.plainHome (leaf / 64 * 64) →
      frame ≠ 0 → frame ≠ old → nbit w 0 = true → nbit w 1 = false → bits w 9 8 ≠ 3 → nbit w 14 = false → pkgOfAddr old = p →
      (counterOf (localOf old)).map (fun c => c.1) = some unit → (∀ m ∈ (s.pkg p).moves, m.unit = unit → m.phase = 0) →
      s.answers (pkgOfAddr frame) = true → frame % size = 0 → s.regionAt frame = .hbm → s.regionAt (frame + size - 1) = .hbm →
      ∃ t m, exec (.pageMove p unit leaf frame) s = .next t ∧ m ∈ (t.pkg p).moves ∧ m.unit = unit ∧ m.leaf = leaf ∧ m.old = old ∧
        m.new = frame ∧ m.size = size ∧ m.phase = 1 ∧ t.due.contains (.moveFinalPass p unit) = true ∧ t.mem = s.mem ∧
        ∀ i, i < size → s.mem.read (old + i) ≠ s.mem.read (frame + i) → (old + i) / 64 ∈ m.todo) ∧
    (∀ m : Move, (s.pkg p).moves = [m] → m.unit = unit → m.phase ≠ 0 →
      let step : Instr := .moveFinalPass p unit
      let goes (t : State) (x : Move) : Prop := exec step s = .next t ∧ (t.pkg p).moves = [x] ∧ t.due.contains step = true
      let job := moveJob p unit
      let done := s.jobBytes job 0
      (∀ l rest, m.todo = l :: rest →
        (done.length < 64 →
          let a := l * 64 + done.length
          s.plainRange [job] a 32 → ∃ t x, goes t x ∧ x.todo = m.todo ∧ t.mem = s.mem ∧
            t.jobBytes job 0 = done ++ (rangeFrom a 32).map s.mem.read) ∧
        (done.length = 64 →
          let a := l * 64 - m.old + m.new
          s.plainRange [job] a 64 → ∃ t x, goes t x ∧ x.todo = rest ∧ s.wrote t a done ∧ t.jobBytes job 0 = [])) ∧
      (m.todo = [] → m.phase = 1 → m.bias = false → ∃ t, goes t { m with phase := 2, todo := m.marked } ∧ t.mem = s.mem) ∧
      (m.todo = [] → m.phase = 4 → m.bias = false → m.marked ≠ [] → s.piecesLeft job = false →
        ∃ t, goes t { m with todo := m.marked } ∧ t.mem = s.mem) ∧
      (m.todo = [] → m.kind = 0 → m.bias = false → m.size ≠ 2 ^ 16 →
        (∀ b ∈ s.banks, b.2.windows = [] ∧ b.2.winQueue = []) → s.idleLine (m.leaf / 64) → s.plainHome (m.leaf / 64 * 64) →
        m.leaf % 16 = 0 →
        (∀ d ∈ s.dir, ¬ (m.old / 64 ≤ d.1 ∧ d.1 * 64 < m.old + m.size)) → (s.pkg p).hostCopies = [] →
        let w := s.mem.readNat m.leaf 8
        let leafIs (t : State) (x : Nat) : Prop := exec step s = .next t ∧ t.mem.readNat m.leaf 8 = x % 2 ^ 64 ∧
          (∀ b, (b < m.leaf ∨ m.leaf + 8 ≤ b) → t.mem.read b = s.mem.read b) ∧ ∀ e ∈ t.tlb, e.leaf = m.leaf → e.pages = 0
        (m.phase = 2 → ∃ t x, leafIs t (if nbit w 14 then w else w + 2 ^ 14) ∧ goes t x ∧ x.phase = 3) ∧
        (m.phase = 3 → m.await = [] → (∀ q ∈ s.net, ¬ (m.old ≤ q.line * 64 ∧ q.line * 64 < m.old + m.size)) →
          ∃ t, goes t { m with phase := 4, todo := m.marked } ∧ t.mem = s.mem) ∧
        (m.phase = 4 → m.marked = [] → s.piecesLeft job = false → s.parks = [] → s.reverseOf p (localOf m.old / 2 ^ 16) = none →
          ∃ t, leafIs t (w % 2 ^ 14 + w / 2 ^ 15 % 2 * 2 ^ 15 + m.new / 4096 * 2 ^ 16) ∧ (t.pkg p).moves = []))) ∧
    (∀ value,
      let ctl := BitVec.ofNat 64 ((if nbit value 31 then 2 ^ 31 else 0) + value / 2 ^ 16 % 2 ^ 11 * 2 ^ 16 + value % 2 ^ 4)
      let writes (i : Instr) (off : Nat) (x : Word) : Prop := ∃ t, exec i s = .next t ∧ t = { s with pkgs := t.pkgs } ∧
        t.pkg p = { s.pkg p with regs := tset 0 (s.pkg p).regs (0x80000 + unit * 0x1000 + off) x }
      (∀ h, (s.pkg p).faultHeld = [h] → h.unit = unit → h.ring = none →
        let base := bits (reg s 0).toNat 49 0
        let log := bits (reg s 8).toNat 3 0
        let tail := (reg s 0x10).toNat
        let used := (tail + 2 ^ 32 - (reg s 0x18).toNat) % 2 ^ 32
        let a := p * 2 ^ 50 + base + 32 * (tail % 2 ^ log)
        s.ringPresent p base log 32 = true →
        (used = 2 ^ log → ∃ t, exec (.faultRingWrite p unit 0 value) s = .next t ∧ t.mem = s.mem ∧
          (t.pkg p).faultHeld = [{ h with ring := some (reg s 0, reg s 8) }] ∧
          reg t 0 = BitVec.ofNat 64 (value / 2 ^ 5 % 2 ^ 45 * 2 ^ 5)) ∧
        (used ≠ 2 ^ log → h.words.length = 4 → s.plainRange [2, p, unit, 0] a 32 →
          ∃ t, exec (.faultRingWrite p unit 0x10 0) s = .next t ∧ s.wrote t a (h.words.flatMap fun (x : Word) => toBytes 8 x.toNat) ∧
            (t.pkg p).faultHeld = [] ∧ reg t 0x10 = BitVec.ofNat 64 ((tail + 1) % 2 ^ 32))) ∧
      ((s.pkg p).faultHeld = [] →
        writes (.faultRingWrite p unit 0 value) 0 (BitVec.ofNat 64 (value / 2 ^ 5 % 2 ^ 45 * 2 ^ 5)) ∧
        writes (.faultRingWrite p unit 8 value) 8 ctl ∧
        writes (.faultRingWrite p unit 0x18 value) 0x18 (BitVec.ofNat 64 (value % 2 ^ 32))) ∧
      ((s.pkg p).candHeld = [] →
        writes (.candidateRingWrite p unit 0x58 value) 0x58 (BitVec.ofNat 64 (value / 2 ^ 4 % 2 ^ 46 * 2 ^ 4)) ∧
        writes (.candidateRingWrite p unit 0x60 value) 0x60 ctl ∧
        writes (.candidateRingWrite p unit 0x70 value) 0x70 (BitVec.ofNat 64 (value % 2 ^ 32)))))

/-! ### Host queues and pre-emption -/

/-- For every package and queue: a doorbell that claims more entries than the ring holds changes nothing; another one
sets TAIL and wakes a mapped queue with work. A remap maps queues with work alone, at most 2,048, every one where they
fit, none of a lower level while one of the quantum's first level waits. A head entry is read piece by piece, and with
a graph record its nodes. A head packet with a reserved bit, or one that is refused, writes its completion word with
code 1 or 2 and HEAD moves on; one whose clusters are free, without a payload, reserves banks and strands on every
member and owes its dispatch. A dispatch starts strand 0 of every member at ENTRY with s1 to s4 and every other s and
f register zero. A sound graph record starts its launch nodes without a predecessor; the last node's end writes a
completion word with code 0 and the graph is gone. At the end of its window a queue's pending interrupt is sent, behind
the writes that travel to a port of the package. A watch entry is written, and fires at once if its condition holds for
the current word (R358). A register write changes its RW fields within the bytes written. A pre-emption freezes the
displaced banks, takes strands with one chunk back to its checkpoint, ends their lease unless a displaced task still
executes, keeps their pending requests and owes the spill, whose end marks the image; the displaced launches go on in
place, or on another free cluster, which the remap table then names (R369). The model's choices are that a narrow
register write keeps the other bytes (log 92, DEDUCED) and that a step with nothing pending, a queue that is not
mapped, a node not finished or a resumption not due, has no effect (log 94, DESIGN CHOICE). (R346, R347, R349, R351, R158, R353, R354,
R356, R357, R374, R367, R370) -/
def Obligations.HostQueuesWork : Prop :=
  (∀ (s : State) (p q : Nat), p < packageLimit → q < queueLimit →
    let size := s.queueSize p q
    let head := s.queueHead p q
    let at_ := s.queueBase p q + 128 * (head % size)
    let job := hquJob p q
    let fetches (i : Instr) (r a n : Nat) : Prop :=
      let done := s.jobBytes job r
      let f := p * 2 ^ 50 + a + done.length
      let k := min (n - done.length) (32 - f % 32)
      done.length < n → s.plainRange [job] f k → ∃ u, exec i s = .next u ∧ u.mem = s.mem ∧
        u.jobBytes job r = done ++ (rangeFrom f k).map s.mem.read ∧ u.due.contains i = true
    let moves (t : State) : Prop := t.queueHead p q = (head + 1) % 2 ^ 16
    let words (compl code : Nat) (t : State) : Prop :=
      t.mem.readNat (p * 2 ^ 50 + compl) 8 = 2 ^ 63 + code ∧
        ∀ b, (b < p * 2 ^ 50 + compl ∨ p * 2 ^ 50 + compl + 8 ≤ b) → t.mem.read b = s.mem.read b
    let mayWrite (compl : Nat) : Prop := compl % 8 = 0 ∧ regionOf (s.pkg p) compl ≠ .reserved ∧
      s.plainRange [1, p, compl] (p * 2 ^ 50 + compl) 8 ∧ (∀ x ∈ (s.pkg p).snoops, isHost (x * 64) = true) ∧
      ∀ x ∈ s.net, x.kind = .piece ∨ x.kind = .posted → x.home / 8 ≠ p
    let ready : Prop := q ∈ (s.pkg p).mapped ∧ s.hasWork p q = true ∧ tget? (s.pkg p).lastEntry q = none
    (∀ tail, let t := tail % 2 ^ 16
      (size < (t + 2 ^ 16 - head) % 2 ^ 16 → exec (.doorbell p q tail) s = .next s) ∧
      ((t + 2 ^ 16 - head) % 2 ^ 16 ≤ size → ∃ u, exec (.doorbell p q tail) s = .next u ∧ u.queueTail p q = t ∧ u.mem = s.mem ∧
        (∀ j, j ≠ q → u.queueTail p j = s.queueTail p j) ∧
        (q ∈ (s.pkg p).mapped → s.queueOn p q = true → t ≠ head →
          u.due.contains (if s.queueGraphs p q then .graphAdmission p q else .admission p q) = true))) ∧
    (∃ u, exec (.quantumRemap p) s = .next u ∧ (u.pkg p).quantum = (s.pkg p).quantum + 1 ∧ (u.pkg p).mapped.length ≤ 2048 ∧
      (∀ j ∈ (u.pkg p).mapped, j < queueLimit ∧ s.hasWork p j = true ∧
        u.due.contains (if s.queueGraphs p j then .graphAdmission p j else .admission p j) = true) ∧
      (((List.range queueLimit).filter (s.hasWork p)).length ≤ 2048 →
        ∀ j, j < queueLimit → s.hasWork p j = true → j ∈ (u.pkg p).mapped) ∧
      (∀ i j, i < queueLimit → s.hasWork p i = true → i ∉ (u.pkg p).mapped → j ∈ (u.pkg p).mapped →
        let n := (s.pkg p).quantum % 16
        let first := if n = 5 then 2 else if n = 10 then 1 else if n = 15 then 0 else 3
        s.queuePri p i = first → s.queuePri p j = first)) ∧
    (s.queueGraphs p q = false → (∀ e ∈ s.launches, e.2.pkg = p → e.2.queue = q → e.2.loading = false) → s.nodesToAdmit p q = [] →
      (q ∉ (s.pkg p).mapped ∨ s.hasWork p q = false → ∃ u, exec (.admission p q) s = .next u ∧ u.mem = s.mem ∧
        u.strands = s.strands ∧ u.launches = s.launches ∧ u.pkgs = s.pkgs ∧ u.due = s.due) ∧
      (ready → fetches (.admission p q) 0 at_ 128) ∧
      (ready → 128 ≤ (s.jobBytes job 0).length →
        let ws := wordsOfBytes (s.jobBytes job 0)
        let l0 : Launch :=
          { lkey := bits (ws.getD 7 0).toNat 15 0, ptroot := ws.getD 1 0, packet := ws, pkg := p, queue := q, context := 0 }
        let l : Launch := { l0 with remap := l0.place }
        let refused (code : Nat) : Prop := ∃ u, exec (.admission p q) s = .next u ∧ words l.compl code u ∧ moves u ∧
          u.launches = s.launches
        mayWrite l.compl →
          (l.malformed = true → refused 1) ∧ (l.malformed = false → s.refuses l = true → refused 2) ∧
          (∀ n, l.malformed = false → s.refuses l = false → s.freeContext = some n → l.plen = 0 →
            (∀ e ∈ l.remap, s.clusterFree l e.2 = true) →
            ∃ u, exec (.admission p q) s = .next u ∧ moves u ∧ u.launch l.lkey = some { l with context := n, loading := false } ∧
              u.due.contains (.launchDispatch l.lkey) = true ∧
              ∀ core ∈ l.members, let b := u.bank (2 * core)
                b.lkey = l.lkey ∧ b.kbReg = l.regBytes ∧ b.kbSpad = l.regBytes + l.spadBytes ∧
                b.kbL1 = l.regBytes + l.spadBytes + l.l1Bytes ∧ b.fused = l.fuse ∧
                ∀ i, i < 4 → (u.strand (8 * core + i)).lkey = l.lkey ∧ (u.strand (8 * core + i)).run = .free))) ∧
    (s.queueGraphs p q = true →
      (q ∉ (s.pkg p).mapped ∨ s.hasWork p q = false → exec (.graphAdmission p q) s = .next s) ∧
      (ready → fetches (.graphAdmission p q) 0 at_ 128) ∧
      (ready → (∀ g ∈ (s.pkg p).graphs, g.id < s.nextId) → 128 ≤ (s.jobBytes job 0).length →
        let ws := wordsOfBytes (s.jobBytes job 0)
        let w (i : Nat) : Nat := (ws.getD i 0).toNat
        let n := w 1
        let g : Graph :=
          { id := s.nextId, queue := q, compl := w 2, counts := [], live := []
            nodes := (List.range n).map fun i => wordsOfBytes ((s.jobBytes job 1).drop (64 * i) |>.take 64) }
        mayWrite (w 2 % 2 ^ 50) →
          (2 ^ 50 ≤ w 0 ∨ w 0 % 64 ≠ 0 ∨ n = 0 ∨ 2 ^ 12 ≤ n →
            ∃ u, exec (.graphAdmission p q) s = .next u ∧ words (w 2 % 2 ^ 50) 1 u ∧ moves u) ∧
          (w 0 < 2 ^ 50 → w 0 % 64 = 0 → n ≠ 0 → n < 2 ^ 12 → w 2 < 2 ^ 50 → (∀ i, 3 ≤ i → w i = 0) →
            regionOf (s.pkg p) (w 0) ≠ .reserved → fetches (.graphAdmission p q) 1 (w 0) (64 * n)) ∧
          (w 0 < 2 ^ 50 → w 0 % 64 = 0 → n ≠ 0 → n < 2 ^ 12 → w 2 < 2 ^ 50 → (∀ i, 3 ≤ i → w i = 0) →
            regionOf (s.pkg p) (w 0) ≠ .reserved → 64 * n ≤ (s.jobBytes job 1).length → g.sound = true →
            let first := (List.range n).filter fun i => bits (g.word i 0) 59 48 == 0
            (∀ i ∈ first, g.kind i = 1) →
            ∃ u d, exec (.graphAdmission p q) s = .next u ∧ moves u ∧ d ∈ (u.pkg p).graphs ∧ d.queue = q ∧ d.compl = w 2 ∧
              d.nodes = g.nodes ∧ d.running = first ∧ d.done = [] ∧ d.failed = none ∧
              (first ≠ [] → u.due.contains (.admission p q) = true)))) ∧
    (∀ (g : Graph) (node : Nat), s.graph p g.id = some g → node ∈ g.running → g.kind node = 1 →
      (node ∉ g.finished → exec (.graphNodeComplete p g.id node) s = .next s) ∧
      (node ∈ g.finished → g.running = [node] → g.failed = none → node ∉ g.done → g.done.length + 1 = g.nodes.length →
        successors (g.word node 4) = [] → successors (g.word node 5) = [] → mayWrite g.compl →
        ∃ u, exec (.graphNodeComplete p g.id node) s = .next u ∧ words g.compl 0 u ∧ u.graph p g.id = none ∧
          tget? (u.pkg p).lastEntry g.queue =
            if tget? (s.pkg p).lastEntry g.queue = some (graphEntry g.id) then none else tget? (s.pkg p).lastEntry g.queue)) ∧
    (∀ due, tget? (s.pkg p).msixPend q = some due →
      ∃ u, exec (.msixCoalesceExpiry p q) s = .next u ∧ u.mem = s.mem ∧
        (if s.time < due ∨ ∃ x ∈ s.net, x.kind = .posted ∧ x.home / 8 = p then
            u = { s with due := s.due ++ [.msixCoalesceExpiry p q] }
         else (u.pkg p).msix = (s.pkg p).msix ++ [tget 0 (s.pkg p).msixVec q] ∧ tget? (u.pkg p).msixPend q = none)) ∧
    (∀ entry value, entry < 4096 →
      let off := 0x60000 + 16 * entry
      let w := value % 2 ^ 64 / 8 * 8
      let addr := p * 2 ^ 50 + w / 8 % 2 ^ 47 * 8
      let word := s.currentNat addr 8
      let limit := (s.reg p (off + 8)).toNat
      let fires := 2 ^ 63 ≤ w ∧ (s.regionAt addr = .hbm ∨ ∃ n, s.regionAt addr = .tier n) ∧
        (w / 2 ^ 61 % 4 = 0 ∧ word ≠ limit ∨ w / 2 ^ 61 % 4 = 1 ∧ limit ≤ word ∨ w / 2 ^ 61 % 4 = 2 ∧ word = limit)
      (∃ u, exec (.watchEntryWrite p entry 0 value) s = .next u ∧ u.mem = s.mem ∧
        (fires → (u.reg p off).toNat = w - 2 ^ 63 ∧ (u.pkg p).msix = (s.pkg p).msix ++ [w / 2 ^ 50 % 2 ^ 11]) ∧
        (¬ fires → (u.reg p off).toNat = w ∧ (u.pkg p).msix = (s.pkg p).msix)) ∧
      ∃ u, exec (.watchEntryWrite p entry 1 value) s = .next u ∧ u.reg p (off + 8) = BitVec.ofNat 64 value ∧
        ∀ o, o ≠ off + 8 → u.reg p o = s.reg p o) ∧
    (∀ off size value, size = 1 ∨ size = 2 ∨ size = 4 ∨ size = 8 → off % size = 0 →
      (rwMask (off / 8 * 8) ≠ 0 → ∃ u, exec (.registerWrite p off size value) s = .next u ∧
        ∀ j, j < 64 → (u.reg p (off / 8 * 8)).getLsbD j =
          if (rwMask (off / 8 * 8)).testBit j ∧ off % 8 * 8 ≤ j ∧ j < (off % 8 + size) * 8 then value.testBit (j - off % 8 * 8)
          else (s.reg p (off / 8 * 8)).getLsbD j) ∧
      (off = 0x1100000 → size = 8 → let b := value / 2 ^ 32 % 2 ^ 16
        ∃ u, exec (.registerWrite p off size value) s = .next u ∧
          (u.pkg p).nextBudget = (if 1000 ≤ b ∧ b ≤ 3400 then b else (s.pkg p).nextBudget) ∧
          (u.pkg p).budget = (s.pkg p).budget))) ∧
  (∀ (s : State) (l : Launch), s.launch l.lkey = some l → l.started = false → l.loading = false → l.killed = false → l.bank = 0 →
    (∀ x ∈ s.net, x.chunk = 0 → x.seq = 2 → (s.strand x.strand).lkey ≠ l.lkey) → bits l.entry 5 3 = 0 → l.entry % 8 < 5 →
    (∀ core ∈ l.members, (s.strand (8 * core)).lkey = l.lkey ∧ ∃ e, Enters { s with cur := 8 * core } false l.entry true e) →
    ∃ u, exec (.launchDispatch l.lkey) s = .next u ∧ u.launch l.lkey = some { l with started := true } ∧ u.mem = s.mem ∧
      (∀ core ∈ l.members, let t := u.strand (8 * core)
        t.run = .running ∧ t.pc = BitVec.ofNat 64 l.entry ∧ t.sv = false ∧ t.info.ep = l.epid core ∧
        (∀ i, t.regs.getS i = if i = 1 then BitVec.ofNat 64 (0xFF * 2 ^ 48) else if i = 2 then BitVec.ofNat 64 l.plen
          else if i = 3 then BitVec.ofNat 64 hquEpid else if i = 4 then BitVec.ofNat 64 s.time else 0) ∧
        (∀ i, t.regs.getF i = 0) ∧ ∀ i, i ≠ 0 → t.regs.getP i = 0) ∧
      ∀ k, (∀ core ∈ l.members, k ≠ 8 * core) → u.strand k = s.strand k) ∧
  (∀ (s : State) (c lk : Nat), 128 * c < strandLimit →
    let banks := s.displacedBanks c
    let ds := (s.cluster c).frozen
    (s.preempts c lk = false → exec (.preemption c lk) s = .next s) ∧
    (s.preempts c lk = true → ∃ u, exec (.preemption c lk) s = .next u ∧ u.mem = s.mem ∧
      (∀ b, (u.bank b).frozen = if b ∈ banks then true else (s.bank b).frozen) ∧
      (u.cluster c).frozen.map (fun f => f.lkey) = s.holdersOfCluster c ∧ (∀ f ∈ (u.cluster c).frozen, f.spilled = false) ∧
      (∀ k, (s.cluster c).holder = some k →
        let runs : Prop := ∃ t ∈ (u.cluster c).tasks, t.started = true ∧ t.id ∉ (u.cluster c).assists ∧
          ∃ f ∈ (u.cluster c).frozen, f.lkey = t.lkey
        ((u.bank (bankOf k)).frozen = true → ¬ runs → (u.cluster c).holder = none ∧
          (u.cluster c).requests = (s.cluster c).requests.filter fun r => r.strand != k) ∧
        ((u.bank (bankOf k)).frozen = false ∨ runs → (u.cluster c).holder = some k ∧
          (u.cluster c).requests = (s.cluster c).requests)) ∧
      ((s.cluster c).holder = none → (u.cluster c).holder = none ∧ (u.cluster c).requests = (s.cluster c).requests) ∧
      (∀ k x, bankOf k ∈ banks → (s.strand k).chunks = [x] → x.committed = false →
        (u.strand k).chunks = [] ∧ (u.strand k).pc = x.startPc ∧ (u.strand k).regs = x.regs) ∧
      u.due.contains (.spillComplete c) = true) ∧
    (ds = [] → exec (.spillComplete c) s = .next s ∧ exec (.launchResume c c) s = .next s) ∧
    (ds ≠ [] →
      (∃ u, exec (.spillComplete c) s = .next u ∧ u.mem = s.mem ∧
        (u.cluster c).frozen = ds.map (fun f => { f with spilled := true }) ∧
        (s.shadowFree c = true → u.due.contains (.launchResume c c) = true)) ∧
      (s.shadowFree c = false → exec (.launchResume c c) s = .next s) ∧
      (s.shadowFree c = true → (s.cluster c).active = none →
        ∃ u, exec (.launchResume c c) s = .next u ∧ u.mem = s.mem ∧ (u.cluster c).frozen = [] ∧
          (u.cluster c).tasks = ds.flatMap (fun f => f.tasks) ++ (s.cluster c).tasks ∧
          ∀ b, (u.bank b).frozen = if b ∈ banks then false else (s.bank b).frozen) ∧
      (∀ d, d ≠ c → 128 * d < strandLimit →
        (∃ f ∈ ds, f.spilled = false) → exec (.launchResume c d) s = .next s) ∧
      (∀ d, d ≠ c → 128 * d < strandLimit → let lks := s.holdersOfCluster c
        (∀ f ∈ ds, f.spilled = true) → (∀ k ∈ lks, ∀ l, s.launch k = some l → l.lkey = k ∧ s.clusterFree l d = true) →
        s.answers (pkgOfDie (dieOfCluster d)) = true → s.unsettled ⟨c, d⟩ lks = false → (∀ k ∈ lks, s.launch k ≠ none) →
        ∃ u, exec (.launchResume c d) s = .next u ∧ (u.cluster c).frozen = [] ∧
          ∀ k ∈ lks, ∀ l, s.launch k = some l →
            (u.launch k).map (fun x => x.remap) = some (l.remap.map fun e => if e.2 = c then (e.1, d) else e))))

/-! ### Links, delivery, loss, power and security -/

/-- For every package whose ports are trained (else they carry nothing): a flit without a sound CRC, or later than the
next, is discarded and replay is asked for; the next one for this package is accepted once, by link and end-to-end number,
and delivered, or held for its domain; a flit acknowledges after 256 or asks for the first missing one, and one that
answers is taken as its step; one for another package goes into a replay buffer, its first 244 bytes unchanged. A replay
request puts the stored flits on the wire. A retraining whose views agree puts the link in service; one whose views differ
holds it, and after the third attempt it is down. An acknowledgement frees stored flits, the timer acknowledges, a resend
request sends again. A datagram for this domain frees what it acknowledges and, if it is the next, is accepted and
acknowledged with what it carries; a duplicate is acknowledged again; one not acknowledged is sent again; a valid route
entry releases the traffic held, in datagrams of up to 8 flits. A package declared down, with no message, course or
expert, loses its strands, banks and memory but host memory; homes drop its holders, and its words revert. A second-tier
link up or down moves its port's range; a read admitted to it is a machine check. An epoch takes the written budget;
ageing saturates; a verified image is measured and runs; a report holds nonce, every measurement and level; a passed
self-test raises the level, trains a host port, and sets the time with the first package at level 3; a failed one is
reported. The model's choices: a lost package's memory reads as zero (logs 86, 3), what is replayed and sent again (log
91), events with nothing pending (log 94), the form of answering flits (log 131) and of tunnel items (log 132), SHAKE256
as in FIPS 202 (log 133), the trap places and the time at bring-up (log 134). (R377, R378, R379, R380, R88, R371, R375,
R381, R382, R383, R384) -/
def Obligations.PackageServicesWork : Prop :=
  (∀ (s : State) (p port : Nat), p < packageLimit → port < gixisPorts →
    let l := (s.pkg p).link port
    let link (u : State) : Link := (u.pkg p).link port
    let trained := (s.pkg p).trained
    let room : Prop := (∃ i, i < gixisPorts ∧ ((s.pkg p).link i).up = true ∧ ((s.pkg p).link i).replay.length < 4096) ∧
      (s.pkg p).unsent = []
    let sent (u : State) (f : List Byte) : Prop := ∃ i x, i < gixisPorts ∧ ((s.pkg p).link i).up = true ∧
      ((u.pkg p).link i).replay.getLast? = some x ∧ x.2.take 244 = f.take 244
    let becomes (i : Instr) (x : Link) : Prop := ∃ u, exec i s = .next u ∧ link u = x ∧ u.mem = s.mem
    (∀ f,
      let i : Instr := .gixisFlitReceive p port f
      let acked := l.replay.filter fun x => serialBefore (2 ^ 16) (flitAck f) x.1
      let src := flitSrc f
      let vc := flitVc f
      let e := (s.pkg p).peer src vc
      let peer (u : State) : E2e := (u.pkg p).peer src vc
      let here := Config.ownDomain % 64
      (l.up = false ∨ l.training = true ∨ trained = false → exec i s = .next s) ∧
      (l.up = true → l.training = false → trained = true → (s.pkg p).unsent = [] →
        (flitSound f = false → becomes i { l with nak := true }) ∧
        (flitSound f = true → flitSeq f ≠ l.expect →
          becomes i { l with replay := acked, nak := if serialBefore (2 ^ 16) (flitSeq f) l.expect then l.nak else true }) ∧
        (flitSound f = true → flitSeq f = l.expect → flitDst f = p →
          ∃ u, exec i s = .next u ∧ (link u).expect = (l.expect + 1) % 2 ^ 16 ∧ (link u).nak = false ∧
            (flitKind f = Config.controlKind % 16 → peer u = e ∧ (u.pkg p).arrived = (s.pkg p).arrived ∧
              ∀ step, s.controlStep p f = some step → u.due.contains step = true) ∧
            (flitKind f ≠ Config.controlKind % 16 →
              (flitNumber f = e.expect →
                (peer u).expect = (e.expect + 1) % 2 ^ 32 ∧ (peer u).store = e.store ∧
                (peer u).unacked = (if e.unacked < 255 then e.unacked + 1 else 0) ∧
                (255 ≤ e.unacked → room → sent u (controlFlit p src vc (2 * flitNumber f))) ∧
                ((∀ d, Config.flitDomain f = some d → d % 64 = here) → (u.pkg p).arrived = (s.pkg p).arrived ++ [f]) ∧
                ∀ d, Config.flitDomain f = some d → d % 64 ≠ here → s.routeOf p (d % 64) = none →
                  (u.tunnel p (d % 64)).held = (s.tunnel p (d % 64)).held ++ [{ bytes := f, flit := true }]) ∧
              (flitNumber f ≠ e.expect → peer u = e ∧ (u.pkg p).arrived = (s.pkg p).arrived ∧
                (serialBefore (2 ^ 32) (flitNumber f) e.expect = false → room →
                  sent u (controlFlit p src vc (2 * e.expect + 1)))))) ∧
        (flitSound f = true → flitSeq f = l.expect → flitDst f ≠ p → room →
          ∃ u, exec i s = .next u ∧ (link u).expect = (l.expect + 1) % 2 ^ 16 ∧ sent u f))) ∧
    (∀ seq,
      (l.up = true → l.training = false → trained = true → becomes (.gixisReplayRequest p port seq)
        { l with out := l.out ++ (l.replay.filter fun x => !serialBefore (2 ^ 16) x.1 seq).map fun x => x.2 }) ∧
      (l.up = false ∨ l.training = true ∨ trained = false → exec (.gixisReplayRequest p port seq) s = .next s)) ∧
    (
      let down (i : Instr) : Prop := ∃ u, exec i s = .next u ∧ link u = { l with up := false, training := false, replay := [] } ∧
        ((∀ j, j < gixisPorts → j ≠ port → ((s.pkg p).link j).up = false) → u.due.contains (.packageDeclaredDown p) = true)
      (l.up = false ∨ trained = false → ∀ w a v x y z, exec (.linkRetrain p port w a v x y z) s = .next s) ∧
      (l.up = true → trained = true → ∀ w a v,
        (l.training = false → becomes (.linkRetrain p port w a v w a v) { l with width := w, retrains := 0 }) ∧
        (l.training = true → (∀ x ∈ l.replay, ∀ y, l.replay.head? = some y → serialBefore (2 ^ 16) x.1 y.1 = false) →
          becomes (.linkRetrain p port w a v w a v)
            { l with training := false, width := w, retrains := 0, out := l.out ++ l.replay.map fun x => x.2 }) ∧
        ∀ x y z, (w, a, v) ≠ (x, y, z) →
          let i : Instr := .linkRetrain p port w a v x y z
          (l.training = false → becomes i { l with training := true, retrains := 0 }) ∧
          (l.training = true → l.retrains < 2 → becomes i { l with retrains := l.retrains + 1 }) ∧
          (l.training = true → 2 ≤ l.retrains → down i)) ∧
      (l.up = false ∨ l.training = false ∨ trained = false → exec (.linkRetrainTimeout p port) s = .next s) ∧
      (l.up = true → l.training = true → trained = true →
        (l.retrains < 2 → becomes (.linkRetrainTimeout p port) { l with retrains := l.retrains + 1 }) ∧
        (2 ≤ l.retrains → down (.linkRetrainTimeout p port)))) ∧
    (∀ d vc seq, d < packageLimit → vc < 16 →
      let e := (s.pkg p).peer d vc
      let again := e.store.filter fun x => !serialBefore (2 ^ 32) x.1 seq
      (∃ u, exec (.e2eAckArrival p d vc seq) s = .next u ∧ u.mem = s.mem ∧
        (u.pkg p).peer d vc = { e with store := e.store.filter fun x => serialBefore (2 ^ 32) seq x.1 }) ∧
      (∃ u, exec (.e2eAckTimer p) s = .next u ∧ (u.pkg p).peer d vc = { e with unacked := 0 } ∧
        (e.unacked ≠ 0 → trained = true → room → (∀ x ∈ (s.pkg p).e2e, x.2.unacked ≠ 0 → x.1 = d * 16 + vc) →
          (s.pkg p).e2e.length = 1 → sent u (controlFlit p d vc (2 * ((e.expect + 2 ^ 32 - 1) % 2 ^ 32))))) ∧
      (again = [] → exec (.e2eResendRequest p d vc seq) s = .next s) ∧
      (∀ x, again = [x] → x.2.length = 256 → trained = true → room →
        ∃ u, exec (.e2eResendRequest p d vc seq) s = .next u ∧ (u.pkg p).e2e = (s.pkg p).e2e ∧ sent u x.2))) ∧
  (∀ (s : State) (p d : Nat), p < packageLimit → d < 64 →
    let t := s.tunnel p d
    let trained := (s.pkg p).trained
    (∀ (port : Nat) (bs : List Byte), port < 8 →
      let h := Config.tunnelHeader (bs.take 16)
      let n := h.2.2.2
      let seq := h.2.2.1 % 2 ^ 32
      let i : Instr := .tunnelDatagramReceive p port bs
      let whole : Prop := 1 ≤ n ∧ n ≤ 8 ∧ bs.length = 16 + 256 * n
      let before := serialBefore (2 ^ 32) seq t.expect
      let next : Prop := whole ∧ seq = t.expect ∧ (s.pkg p).storeRoom n = true
      let left := t.store.filter fun x => !(Config.tunnelAcks bs).contains x.seq
      (h.2.1 ≠ Config.ownDomain ∨ trained = false → exec i s = .next s) ∧
      (h.2.1 = Config.ownDomain → trained = true → h.1 % 64 = d → ∃ u, exec i s = .next u ∧ u.mem = s.mem ∧
        (¬ next → u.tunnel p d = { t with store := left, acks := if whole ∧ before = true then t.acks ++ [seq] else t.acks } ∧
          (u.pkg p).e2e = (s.pkg p).e2e) ∧
        (next → (u.tunnel p d).expect = (t.expect + 1) % 2 ^ 32 ∧ (u.tunnel p d).acks = t.acks ++ [seq] ∧
          (n = 1 → let f := bs.drop 16
            let e := (s.pkg p).peer (flitDst f) (flitVc f)
            (Config.tunnelPart f = true → (u.tunnel p d).parts = t.parts ++ f ∧ (u.tunnel p d).store = left) ∧
            (Config.tunnelPart f = false → t.parts = [] →
              (Config.tunnelItem f = none → flitDst f ≠ p →
                ((u.pkg p).peer (flitDst f) (flitVc f)).next = (e.next + 1) % 2 ^ 32 ∧
                ((u.pkg p).peer (flitDst f) (flitVc f)).store = e.store ++ [(e.next, originated f p e.next)] ∧
                (u.tunnel p d).store = left) ∧
              (Config.tunnelItem f = none → flitDst f = p → Config.flitDomain f = none →
                (u.pkg p).arrived = (s.pkg p).arrived ++ [f] ∧ (u.tunnel p d).store = left) ∧
              ∀ lk item, Config.tunnelItem f = some (lk, item) → 8 ≤ item.length →
                let w0 := fromBytes (item.take 8)
                (u.tunnel p d).store = left ∧
                (bits w0 57 56 ≠ 0 → ∃ m ∈ u.msgs, m.lkey = lk ∧ m.chan = 64 ∧ m.payload = item ∧
                  u.due.contains (.combineContribution m.id) = true) ∧
                (bits w0 57 56 = 0 →
                  let ws := wordsIn ((item.drop 8).take 64)
                  u.foreign = s.foreign ++ [(lk, ws.getD 1 0 % 2 ^ 56, bits (ws.getD 2 0) 34 32, d)])))))) ∧
    (∀ seq,
      (t.store.find? (fun x => x.seq == seq) = none ∨ trained = false → exec (.tunnelRetransmitTimeout p d seq) s = .next s) ∧
      ∀ x, t.store.find? (fun x => x.seq == seq) = some x → trained = true →
        ∃ u, exec (.tunnelRetransmitTimeout p d seq) s = .next u ∧ u.tunnel p d = { t with out := t.out ++ [x] }) ∧
    (∀ word value, word < 8 → ∃ u, exec (.tunnelRouteEntryWrite p d word value) s = .next u ∧ u.mem = s.mem ∧
      (∀ o, u.reg p o = if o = 0x120000 + 64 * d + 8 * word then BitVec.ofNat 64 value else s.reg p o) ∧
      (u.routeOf p d = none → u.tunnel p d = t) ∧
      ∀ e, u.routeOf p d = some e → (u.tunnel p d).held = [] ∧ ∃ ds : List Datagram,
        (u.tunnel e d).store = (s.tunnel e d).store ++ ds ∧ (u.tunnel e d).out = (s.tunnel e d).out ++ ds ∧
        (ds.flatMap fun x => x.bytes.drop 16) = (t.held.flatMap fun x => x.flits.flatMap id) ∧
        ds.filterMap (fun x => x.count) = t.held.filterMap (fun x => x.count) ∧
        (∀ x ∈ ds, 16 + 256 ≤ x.bytes.length ∧ x.bytes.length ≤ 16 + 256 * 8 ∧
          x.port = (u.routeWord e d 0).toNat % 8 ∧ x.dest = [u.routeWord e d 1, u.routeWord e d 2] ∧
          x.hop = (u.routeWord e d 3).toNat % 2 ^ 48 ∧ x.source = [u.routeWord e d 4, u.routeWord e d 5] ∧
          x.sport = (u.routeWord e d 6).toNat % 2 ^ 16) ∧
        ∀ i x, ds[i]? = some x → x.seq = ((s.tunnel e d).next + i) % 2 ^ 32)) ∧
  (∀ (s : State) (p : Nat), p < packageLimit →
    ((s.pkg p).down = true → exec (.packageDeclaredDown p) s = .next s) ∧
    ((s.pkg p).down = false → s.msgs = [] → s.experts = [] → (∀ g ∈ s.pkgs, g.2.courses = []) → (s.dir.map fun e => e.1).Nodup →
      ∃ u, exec (.packageDeclaredDown p) s = .next u ∧ u.pkg p = { down := true } ∧
        (∀ k, u.strand k = if pkgOf k = p then {} else s.strand k) ∧
        (∀ b, u.bank b = if pkgOf (4 * b) = p then {} else s.bank b) ∧
        (∀ a, u.mem.read a = if a < poolBase ∧ pkgOfAddr a = p ∧ isHost a = false then 0 else s.mem.read a) ∧
        (∀ x ∈ u.net, x.touches p = false) ∧ u.launches = s.launches ∧
        ∀ line, (pkgOfAddr (line * 64) = p → u.entry line = {}) ∧
          (∀ h ∈ (u.entry line).holders, h.agent.package ≠ p) ∧
          (pkgOfAddr (line * 64) ≠ p → ∀ i, i < 8 → (s.entry line).state i = .m →
            ∀ g, (s.entry line).owner i = some g → (u.entry line).state i = if g.package = p then .u else .m)) ∧
    (∀ port, port < 6 →
      let base := 0x1000000000000 + port * 2 ^ 44
      let hits := s.net.filter fun x => inTier p port x.line && (x.kind == .read || x.kind == .own) && x.strand < strandLimit
      (∀ capacity, ∃ u, exec (.secondTierLinkUp p port capacity) s = .next u ∧ u.mem = s.mem ∧
        (∀ o, o < 2 ^ 44 → regionOf (u.pkg p) (base + o) = if o < capacity ∧ (s.pkg p).level ≠ 1 then .tier port else .reserved) ∧
        ∀ l, (l < base ∨ base + 2 ^ 44 ≤ l) → regionOf (u.pkg p) l = regionOf (s.pkg p) l) ∧
      (hits = [] → ∃ u, exec (.secondTierLinkDown p port) s = .next u ∧ u.mem = s.mem ∧ u.launches = s.launches ∧
        (∀ o, o < 2 ^ 44 → regionOf (u.pkg p) (base + o) = .reserved) ∧
        ∀ l, (l < base ∨ base + 2 ^ 44 ≤ l) → regionOf (u.pkg p) l = regionOf (s.pkg p) l) ∧
      (∀ x l, hits = [x] → s.launch (s.strand x.strand).lkey = some l →
        ∃ u d, exec (.secondTierLinkDown p port) s = .next u ∧ u.launch (s.strand x.strand).lkey = some d ∧ d.killed = true)) ∧
    (
      let g := s.pkg p
      (∃ u, exec (.powerEpoch p) s = .next u ∧ (u.pkg p).budget = g.nextBudget ∧ (u.pkg p).gap < 256 ∧ (u.pkg p).level = g.level ∧
        u.mem = s.mem ∧ u.strands = s.strands) ∧
      (∀ months : List Nat, ∃ u, exec (.ageingRefresh p months) s = .next u ∧ u.mem = s.mem ∧
        ∀ d, tget 0 (u.pkg p).eol d = if d < 10 then min (months.getD d (tget 0 g.eol d)) 65535 else tget 0 g.eol d) ∧
      (∀ image signature, let digest := shake256 image
        (Config.signatureValid digest signature = false → exec (.firmwareVerify p image signature) s = .next s) ∧
        (Config.signatureValid digest signature = true → ∃ u, exec (.firmwareVerify p image signature) s = .next u ∧
          (u.pkg p).booted = g.booted ++ [digest] ∧ (u.pkg p).level = g.level ∧
          ∀ i, (u.pkg p).measure i =
            if i = Config.measureOf image % Config.measureCount then shake256 (g.measure i ++ digest) else g.measure i)) ∧
      (∀ nonce : List Byte, (nonce.length ≠ 32 → exec (.attestationRequest p nonce) s = .next s) ∧
        (nonce.length = 32 → let ms := (List.range Config.measureCount).map g.measure
          ∃ u, exec (.attestationRequest p nonce) s = .next u ∧
            (u.pkg p).report = some ⟨nonce, ms, g.level, Config.attestationSignature (reportBytes nonce ms g.level)⟩)) ∧
      (3 ≤ g.level → exec (.bringUpLevel p false) s = .next s) ∧
      (g.level < 3 → exec (.bringUpLevel p false) s =
        .next (s.setPkg p fun x => { x with security := x.security ++ [.selfTest (g.level + 1)] })) ∧
      ∃ u, exec (.bringUpLevel p true) s = .next u ∧ (u.pkg p).level = min 3 (g.level + 1) ∧ (u.pkg p).down = false ∧
        u.mem = s.mem ∧
        (g.level = 0 → u.trapArea % 64 = 0 ∧ u.trapArea + 2 ^ 24 ≤ 0xFF * 2 ^ 48 ∧ u.trapPc.toNat % 8 < 5 ∧
          u.trapPc.toNat < 0xFF * 2 ^ 48) ∧
        (g.level < 2 → (u.pkg p).pcieOnly =
          g.pcieOnly.filter (· != g.level) ++ if Config.hostOffersCxl s.tick g.level then [] else [g.level]) ∧
        (g.level = 2 → (∀ x ∈ s.pkgs, x.1 ≠ p → x.2.level ≠ 3) → u.time = 0) ∧
        (g.level ≠ 2 ∨ (∃ x ∈ s.pkgs, x.1 ≠ p ∧ x.2.level = 3) → u.time = s.time)))
end

