-- ==== Sys2Proof/Laws/Table.lean ====
section
/-!
SUPPORT. The laws of tables: what a key reads after a write, and that every operation keeps the canonical form.
-/

namespace Sys2Proof.Machine

variable {α : Type}

@[simp] theorem tget_nil (d : α) (a : Nat) : tget d [] a = d := rfl

/-- An erased key reads as unlisted. -/
theorem tget_terase_self (d : α) (t : Tab α) (a : Nat) : tget d (terase t a) a = d := by
  induction t with
  | nil => rfl
  | cons e t ih =>
    obtain ⟨k, v⟩ := e
    by_cases h : k = a
    · simpa [terase, h] using ih
    · simpa [terase, h, tget] using ih

/-- Erasing a key leaves every other key alone. -/
theorem tget_terase_ne (d : α) (t : Tab α) {a b : Nat} (h : b ≠ a) : tget d (terase t a) b = tget d t b := by
  induction t with
  | nil => rfl
  | cons e t ih =>
    obtain ⟨k, v⟩ := e
    by_cases hk : k = a
    · have hb : k ≠ b := fun e => h (e.symm.trans hk)
      simpa [terase, hk, tget, show ¬a = b from fun e => h e.symm] using ih
    · by_cases hb : k = b
      · simp [terase, hb, tget, h]
      · simpa [terase, hk, tget, hb] using ih

/-- An inserted key reads what was put, where the key was not listed before. -/
theorem tget_tinsert_self (d : α) (t : Tab α) (a : Nat) (v : α) (h : ∀ e ∈ t, e.1 ≠ a) :
    tget d (tinsert a v t) a = v := by
  induction t with
  | nil => simp [tinsert, tget]
  | cons e t ih =>
    obtain ⟨k, w⟩ := e
    have hk : k ≠ a := h (k, w) (by simp)
    by_cases hl : a < k
    · simp [tinsert, hl, tget]
    · simpa [tinsert, hl, tget, hk] using ih fun e he => h e (by simp [he])

/-- Inserting a key leaves every other key alone. -/
theorem tget_tinsert_ne (d : α) (t : Tab α) {a b : Nat} (v : α) (h : b ≠ a) :
    tget d (tinsert a v t) b = tget d t b := by
  have ha : ¬a = b := fun e => h e.symm
  induction t with
  | nil => simp [tinsert, tget, ha]
  | cons e t ih =>
    obtain ⟨k, w⟩ := e
    by_cases hl : a < k
    · simp [tinsert, hl, tget, ha]
    · simp [tinsert, hl, tget, ih]

/-- No entry of a table with a key erased has that key. -/
theorem terase_ne (t : Tab α) (a : Nat) : ∀ e ∈ terase t a, e.1 ≠ a := by
  intro e he
  simpa using (List.mem_filter.1 he).2

/-- A written key reads what was written. -/
@[simp] theorem tget_tset_self [DecidableEq α] (d : α) (t : Tab α) (a : Nat) (v : α) : tget d (tset d t a v) a = v := by
  unfold tset
  split
  · next h => rw [h, tget_terase_self]
  · exact tget_tinsert_self d _ a v (terase_ne t a)

/-- A write leaves every other key alone. -/
theorem tget_tset_ne [DecidableEq α] (d : α) (t : Tab α) {a b : Nat} (v : α) (h : b ≠ a) :
    tget d (tset d t a v) b = tget d t b := by
  unfold tset
  split
  · exact tget_terase_ne d t h
  · rw [tget_tinsert_ne d _ v h, tget_terase_ne d t h]

/-- What any key reads after a write. -/
theorem tget_tset [DecidableEq α] (d : α) (t : Tab α) (a b : Nat) (v : α) :
    tget d (tset d t a v) b = if b = a then v else tget d t b := by
  split
  · next h => rw [h, tget_tset_self]
  · next h => exact tget_tset_ne d t v h

/-- What any key reads after a value is kept at one. -/
theorem tget?_tput (t : Tab α) (a : Nat) (v : α) : tget? (tput t a v) a = some v := by
  have key : ∀ (u : Tab α), (∀ e ∈ u, e.1 ≠ a) → tget? (tinsert a v u) a = some v := by
    intro u hu
    induction u with
    | nil => simp [tinsert, tget?]
    | cons e u ih =>
      obtain ⟨k, w⟩ := e
      have hk : k ≠ a := hu (k, w) (by simp)
      by_cases hl : a < k
      · simp [tinsert, hl, tget?]
      · simpa [tinsert, hl, tget?, hk] using ih fun e he => hu e (by simp [he])
  exact key _ (terase_ne t a)

/-! ### The canonical form -/

/-- A part of a table, in its order, keeps the canonical form. -/
theorem tcanon_filter [DecidableEq α] (d : α) (p : Nat × α → Bool) (t : Tab α) (h : tcanon d t = true) :
    tcanon d (t.filter p) = true := by
  induction t with
  | nil => rfl
  | cons e t ih =>
    obtain ⟨k, v⟩ := e
    simp only [tcanon, Bool.and_eq_true, bne_iff_ne, ne_eq, List.all_eq_true, decide_eq_true_eq] at h
    obtain ⟨⟨hv, hlt⟩, ht⟩ := h
    by_cases hp : p (k, v) = true
    · simp only [List.filter_cons, hp, if_true, tcanon, Bool.and_eq_true, bne_iff_ne, ne_eq, List.all_eq_true,
        decide_eq_true_eq]
      exact ⟨⟨hv, fun e he => hlt e (List.mem_filter.1 he).1⟩, ih ht⟩
    · simpa [List.filter_cons, hp] using ih ht

/-- Every key of a table with an entry inserted is the new one or an old one. -/
theorem mem_tinsert (a : Nat) (v : α) (t : Tab α) : ∀ e ∈ tinsert a v t, e = (a, v) ∨ e ∈ t := by
  induction t with
  | nil => intro e he; simpa [tinsert] using he
  | cons f t ih =>
    obtain ⟨k, w⟩ := f
    intro e he
    by_cases hl : a < k
    · simpa [tinsert, hl] using he
    · simp only [tinsert, hl, if_false, List.mem_cons] at he
      rcases he with rfl | he
      · simp
      · rcases ih e he with h | h
        · exact .inl h
        · exact .inr (by simp [h])

/-- An entry inserted where its key is not listed keeps the canonical form. -/
theorem tcanon_tinsert [DecidableEq α] (d : α) (a : Nat) (v : α) (hv : v ≠ d) (t : Tab α) (h : tcanon d t = true)
    (hne : ∀ e ∈ t, e.1 ≠ a) : tcanon d (tinsert a v t) = true := by
  induction t with
  | nil => simp [tinsert, tcanon, hv]
  | cons e t ih =>
    obtain ⟨k, w⟩ := e
    have hc := h
    simp only [tcanon, Bool.and_eq_true, bne_iff_ne, ne_eq, List.all_eq_true, decide_eq_true_eq] at h
    obtain ⟨⟨hw, hlt⟩, ht⟩ := h
    have hk : k ≠ a := hne (k, w) (by simp)
    by_cases hl : a < k
    · simp only [tinsert, hl, if_true]
      rw [tcanon, hc]
      simp only [hv, bne_iff_ne, ne_eq, not_false_eq_true, Bool.and_true, List.all_eq_true,
        List.mem_cons, decide_eq_true_eq, Bool.and_eq_true, true_and]
      rintro e (rfl | he)
      · exact hl
      · exact Nat.lt_trans hl (hlt e he)
    · simp only [tinsert, hl, if_false, tcanon, Bool.and_eq_true, bne_iff_ne, ne_eq, List.all_eq_true, decide_eq_true_eq]
      refine ⟨⟨hw, fun e he => ?_⟩, ih ht fun e he => hne e (by simp [he])⟩
      rcases mem_tinsert a v t e he with rfl | he
      · exact Nat.lt_of_le_of_ne (Nat.le_of_not_lt hl) hk
      · exact hlt e he

/-- A write keeps the canonical form. -/
theorem tcanon_tset [DecidableEq α] (d : α) (t : Tab α) (a : Nat) (v : α) (h : tcanon d t = true) :
    tcanon d (tset d t a v) = true := by
  unfold tset
  split
  · exact tcanon_filter d _ t h
  · next hv => exact tcanon_tinsert d a v hv _ (tcanon_filter d _ t h) (terase_ne t a)

end Sys2Proof.Machine
end

