-- ==== Sys2Proof/Laws/Memory.lean ====
section
/-!
SUPPORT. The laws of memory: read after write, and that every operation on memory keeps its canonical form.
-/

namespace Sys2Proof.Machine

@[simp] theorem read_write_self (m : Memory) (a : Nat) (b : Byte) : (m.write a b).read a = b := tget_tset_self _ m a b

theorem read_write_ne (m : Memory) {a c : Nat} (b : Byte) (h : c ≠ a) : (m.write a b).read c = m.read c :=
  tget_tset_ne _ m b h

theorem write_wf (m : Memory) (a : Nat) (b : Byte) (h : m.wf = true) : (m.write a b).wf = true := tcanon_tset _ m a b h

theorem filter_wf (m : Memory) (p : Nat × Byte → Bool) (h : m.wf = true) : Memory.wf (m.filter p) = true :=
  tcanon_filter _ p m h

theorem writeBytes_wf (bs : List Byte) : ∀ (m : Memory) (a : Nat), m.wf = true → (m.writeBytes a bs).wf = true := by
  induction bs with
  | nil => intro m a h; exact h
  | cons b bs ih => intro m a h; exact ih _ _ (write_wf m a b h)

theorem writeCells_wf (cs : Tab Byte) : ∀ (m : Memory), m.wf = true → (m.writeCells cs).wf = true := by
  induction cs with
  | nil => intro m h; exact h
  | cons c cs ih => intro m h; exact ih _ (write_wf m c.1 c.2 h)

/-- A fold of operations that each keep the canonical form keeps it. -/
theorem foldl_wf {β : Type} (f : Memory → β → Memory) (hf : ∀ m x, m.wf = true → (f m x).wf = true) (xs : List β) :
    ∀ (m : Memory), m.wf = true → (xs.foldl f m).wf = true := by
  induction xs with
  | nil => intro m h; exact h
  | cons x xs ih => intro m h; exact ih _ (hf m x h)

/-- Bytes outside those written read as before. -/
theorem read_writeBytes_out (bs : List Byte) : ∀ (m : Memory) (a c : Nat), c < a ∨ a + bs.length ≤ c →
    (m.writeBytes a bs).read c = m.read c := by
  induction bs with
  | nil => intro m a c _; rfl
  | cons b bs ih =>
    intro m a c h
    simp only [List.length_cons] at h
    have hne : c ≠ a := by omega
    exact (ih (m.write a b) (a + 1) c (by omega)).trans (read_write_ne m b hne)

/-- Bytes written read back. -/
theorem read_writeBytes_in (bs : List Byte) : ∀ (m : Memory) (a i : Nat), (h : i < bs.length) →
    (m.writeBytes a bs).read (a + i) = bs[i] := by
  induction bs with
  | nil => intro m a i h; simp at h
  | cons b bs ih =>
    intro m a i h
    cases i with
    | zero =>
      have := read_writeBytes_out bs (m.write a b) (a + 1) a (by omega)
      simpa [Memory.writeBytes] using this
    | succ i =>
      have := ih (m.write a b) (a + 1) i (by simpa using h)
      simpa [Memory.writeBytes, Nat.add_assoc, Nat.add_comm 1 i] using this

/-- Cells whose addresses differ from `c` leave `c` alone. -/
theorem read_writeCells_out (cs : Tab Byte) (c : Nat) (h : ∀ e ∈ cs, e.1 ≠ c) :
    ∀ (m : Memory), (m.writeCells cs).read c = m.read c := by
  induction cs with
  | nil => intro m; rfl
  | cons e cs ih =>
    intro m
    have he : c ≠ e.1 := fun x => h e (by simp) x.symm
    exact (ih (fun f hf => h f (by simp [hf])) (m.write e.1 e.2)).trans (read_write_ne m e.2 he)

/-- The memory at reset is in canonical form. -/
theorem reset_wf : State.reset.mem.wf = true := rfl

end Sys2Proof.Machine
end

