-- ==== Sys2Proof/Laws/State.lean ====
section
/-!
SUPPORT. One lemma for each update of the state and each field that it leaves alone, and what a part of the state is
after it has been changed.
-/

namespace Sys2Proof.Machine

/-! ### setStrand -/

@[simp] theorem setStrand_tick (s : State) (k : Nat) (f : Strand → Strand) : (s.setStrand k f).tick = s.tick := rfl
@[simp] theorem setStrand_time (s : State) (k : Nat) (f : Strand → Strand) : (s.setStrand k f).time = s.time := rfl
@[simp] theorem setStrand_cur (s : State) (k : Nat) (f : Strand → Strand) : (s.setStrand k f).cur = s.cur := rfl
@[simp] theorem setStrand_turns (s : State) (k : Nat) (f : Strand → Strand) : (s.setStrand k f).turns = s.turns := rfl
@[simp] theorem setStrand_due (s : State) (k : Nat) (f : Strand → Strand) : (s.setStrand k f).due = s.due := rfl
@[simp] theorem setStrand_nextId (s : State) (k : Nat) (f : Strand → Strand) : (s.setStrand k f).nextId = s.nextId := rfl
@[simp] theorem setStrand_mem (s : State) (k : Nat) (f : Strand → Strand) : (s.setStrand k f).mem = s.mem := rfl
@[simp] theorem setStrand_banks (s : State) (k : Nat) (f : Strand → Strand) : (s.setStrand k f).banks = s.banks := rfl
@[simp] theorem setStrand_cores (s : State) (k : Nat) (f : Strand → Strand) : (s.setStrand k f).cores = s.cores := rfl
@[simp] theorem setStrand_clusters (s : State) (k : Nat) (f : Strand → Strand) : (s.setStrand k f).clusters = s.clusters := rfl
@[simp] theorem setStrand_dies (s : State) (k : Nat) (f : Strand → Strand) : (s.setStrand k f).dies = s.dies := rfl
@[simp] theorem setStrand_pkgs (s : State) (k : Nat) (f : Strand → Strand) : (s.setStrand k f).pkgs = s.pkgs := rfl
@[simp] theorem setStrand_dir (s : State) (k : Nat) (f : Strand → Strand) : (s.setStrand k f).dir = s.dir := rfl
@[simp] theorem setStrand_net (s : State) (k : Nat) (f : Strand → Strand) : (s.setStrand k f).net = s.net := rfl
@[simp] theorem setStrand_msgs (s : State) (k : Nat) (f : Strand → Strand) : (s.setStrand k f).msgs = s.msgs := rfl
@[simp] theorem setStrand_stcs (s : State) (k : Nat) (f : Strand → Strand) : (s.setStrand k f).stcs = s.stcs := rfl
@[simp] theorem setStrand_tlb (s : State) (k : Nat) (f : Strand → Strand) : (s.setStrand k f).tlb = s.tlb := rfl
@[simp] theorem setStrand_dropped (s : State) (k : Nat) (f : Strand → Strand) : (s.setStrand k f).dropped = s.dropped := rfl
@[simp] theorem setStrand_parks (s : State) (k : Nat) (f : Strand → Strand) : (s.setStrand k f).parks = s.parks := rfl
@[simp] theorem setStrand_refused (s : State) (k : Nat) (f : Strand → Strand) : (s.setStrand k f).refused = s.refused := rfl
@[simp] theorem setStrand_launches (s : State) (k : Nat) (f : Strand → Strand) : (s.setStrand k f).launches = s.launches := rfl
@[simp] theorem setStrand_experts (s : State) (k : Nat) (f : Strand → Strand) : (s.setStrand k f).experts = s.experts := rfl
@[simp] theorem setStrand_cmds (s : State) (k : Nat) (f : Strand → Strand) : (s.setStrand k f).cmds = s.cmds := rfl
@[simp] theorem setStrand_jobs (s : State) (k : Nat) (f : Strand → Strand) : (s.setStrand k f).jobs = s.jobs := rfl
@[simp] theorem setStrand_foreign (s : State) (k : Nat) (f : Strand → Strand) : (s.setStrand k f).foreign = s.foreign := rfl
@[simp] theorem setStrand_trapArea (s : State) (k : Nat) (f : Strand → Strand) : (s.setStrand k f).trapArea = s.trapArea := rfl
@[simp] theorem setStrand_trapPc (s : State) (k : Nat) (f : Strand → Strand) : (s.setStrand k f).trapPc = s.trapPc := rfl

/-! ### setBank -/

@[simp] theorem setBank_tick (s : State) (k : Nat) (f : Bank → Bank) : (s.setBank k f).tick = s.tick := rfl
@[simp] theorem setBank_time (s : State) (k : Nat) (f : Bank → Bank) : (s.setBank k f).time = s.time := rfl
@[simp] theorem setBank_cur (s : State) (k : Nat) (f : Bank → Bank) : (s.setBank k f).cur = s.cur := rfl
@[simp] theorem setBank_turns (s : State) (k : Nat) (f : Bank → Bank) : (s.setBank k f).turns = s.turns := rfl
@[simp] theorem setBank_due (s : State) (k : Nat) (f : Bank → Bank) : (s.setBank k f).due = s.due := rfl
@[simp] theorem setBank_nextId (s : State) (k : Nat) (f : Bank → Bank) : (s.setBank k f).nextId = s.nextId := rfl
@[simp] theorem setBank_mem (s : State) (k : Nat) (f : Bank → Bank) : (s.setBank k f).mem = s.mem := rfl
@[simp] theorem setBank_strands (s : State) (k : Nat) (f : Bank → Bank) : (s.setBank k f).strands = s.strands := rfl
@[simp] theorem setBank_cores (s : State) (k : Nat) (f : Bank → Bank) : (s.setBank k f).cores = s.cores := rfl
@[simp] theorem setBank_clusters (s : State) (k : Nat) (f : Bank → Bank) : (s.setBank k f).clusters = s.clusters := rfl
@[simp] theorem setBank_dies (s : State) (k : Nat) (f : Bank → Bank) : (s.setBank k f).dies = s.dies := rfl
@[simp] theorem setBank_pkgs (s : State) (k : Nat) (f : Bank → Bank) : (s.setBank k f).pkgs = s.pkgs := rfl
@[simp] theorem setBank_dir (s : State) (k : Nat) (f : Bank → Bank) : (s.setBank k f).dir = s.dir := rfl
@[simp] theorem setBank_net (s : State) (k : Nat) (f : Bank → Bank) : (s.setBank k f).net = s.net := rfl
@[simp] theorem setBank_msgs (s : State) (k : Nat) (f : Bank → Bank) : (s.setBank k f).msgs = s.msgs := rfl
@[simp] theorem setBank_stcs (s : State) (k : Nat) (f : Bank → Bank) : (s.setBank k f).stcs = s.stcs := rfl
@[simp] theorem setBank_tlb (s : State) (k : Nat) (f : Bank → Bank) : (s.setBank k f).tlb = s.tlb := rfl
@[simp] theorem setBank_dropped (s : State) (k : Nat) (f : Bank → Bank) : (s.setBank k f).dropped = s.dropped := rfl
@[simp] theorem setBank_parks (s : State) (k : Nat) (f : Bank → Bank) : (s.setBank k f).parks = s.parks := rfl
@[simp] theorem setBank_refused (s : State) (k : Nat) (f : Bank → Bank) : (s.setBank k f).refused = s.refused := rfl
@[simp] theorem setBank_launches (s : State) (k : Nat) (f : Bank → Bank) : (s.setBank k f).launches = s.launches := rfl
@[simp] theorem setBank_experts (s : State) (k : Nat) (f : Bank → Bank) : (s.setBank k f).experts = s.experts := rfl
@[simp] theorem setBank_cmds (s : State) (k : Nat) (f : Bank → Bank) : (s.setBank k f).cmds = s.cmds := rfl
@[simp] theorem setBank_jobs (s : State) (k : Nat) (f : Bank → Bank) : (s.setBank k f).jobs = s.jobs := rfl
@[simp] theorem setBank_foreign (s : State) (k : Nat) (f : Bank → Bank) : (s.setBank k f).foreign = s.foreign := rfl
@[simp] theorem setBank_trapArea (s : State) (k : Nat) (f : Bank → Bank) : (s.setBank k f).trapArea = s.trapArea := rfl
@[simp] theorem setBank_trapPc (s : State) (k : Nat) (f : Bank → Bank) : (s.setBank k f).trapPc = s.trapPc := rfl

/-! ### setCore -/

@[simp] theorem setCore_tick (s : State) (k : Nat) (f : Core → Core) : (s.setCore k f).tick = s.tick := rfl
@[simp] theorem setCore_time (s : State) (k : Nat) (f : Core → Core) : (s.setCore k f).time = s.time := rfl
@[simp] theorem setCore_cur (s : State) (k : Nat) (f : Core → Core) : (s.setCore k f).cur = s.cur := rfl
@[simp] theorem setCore_turns (s : State) (k : Nat) (f : Core → Core) : (s.setCore k f).turns = s.turns := rfl
@[simp] theorem setCore_due (s : State) (k : Nat) (f : Core → Core) : (s.setCore k f).due = s.due := rfl
@[simp] theorem setCore_nextId (s : State) (k : Nat) (f : Core → Core) : (s.setCore k f).nextId = s.nextId := rfl
@[simp] theorem setCore_mem (s : State) (k : Nat) (f : Core → Core) : (s.setCore k f).mem = s.mem := rfl
@[simp] theorem setCore_strands (s : State) (k : Nat) (f : Core → Core) : (s.setCore k f).strands = s.strands := rfl
@[simp] theorem setCore_banks (s : State) (k : Nat) (f : Core → Core) : (s.setCore k f).banks = s.banks := rfl
@[simp] theorem setCore_clusters (s : State) (k : Nat) (f : Core → Core) : (s.setCore k f).clusters = s.clusters := rfl
@[simp] theorem setCore_dies (s : State) (k : Nat) (f : Core → Core) : (s.setCore k f).dies = s.dies := rfl
@[simp] theorem setCore_pkgs (s : State) (k : Nat) (f : Core → Core) : (s.setCore k f).pkgs = s.pkgs := rfl
@[simp] theorem setCore_dir (s : State) (k : Nat) (f : Core → Core) : (s.setCore k f).dir = s.dir := rfl
@[simp] theorem setCore_net (s : State) (k : Nat) (f : Core → Core) : (s.setCore k f).net = s.net := rfl
@[simp] theorem setCore_msgs (s : State) (k : Nat) (f : Core → Core) : (s.setCore k f).msgs = s.msgs := rfl
@[simp] theorem setCore_stcs (s : State) (k : Nat) (f : Core → Core) : (s.setCore k f).stcs = s.stcs := rfl
@[simp] theorem setCore_tlb (s : State) (k : Nat) (f : Core → Core) : (s.setCore k f).tlb = s.tlb := rfl
@[simp] theorem setCore_dropped (s : State) (k : Nat) (f : Core → Core) : (s.setCore k f).dropped = s.dropped := rfl
@[simp] theorem setCore_parks (s : State) (k : Nat) (f : Core → Core) : (s.setCore k f).parks = s.parks := rfl
@[simp] theorem setCore_refused (s : State) (k : Nat) (f : Core → Core) : (s.setCore k f).refused = s.refused := rfl
@[simp] theorem setCore_launches (s : State) (k : Nat) (f : Core → Core) : (s.setCore k f).launches = s.launches := rfl
@[simp] theorem setCore_experts (s : State) (k : Nat) (f : Core → Core) : (s.setCore k f).experts = s.experts := rfl
@[simp] theorem setCore_cmds (s : State) (k : Nat) (f : Core → Core) : (s.setCore k f).cmds = s.cmds := rfl
@[simp] theorem setCore_jobs (s : State) (k : Nat) (f : Core → Core) : (s.setCore k f).jobs = s.jobs := rfl
@[simp] theorem setCore_foreign (s : State) (k : Nat) (f : Core → Core) : (s.setCore k f).foreign = s.foreign := rfl
@[simp] theorem setCore_trapArea (s : State) (k : Nat) (f : Core → Core) : (s.setCore k f).trapArea = s.trapArea := rfl
@[simp] theorem setCore_trapPc (s : State) (k : Nat) (f : Core → Core) : (s.setCore k f).trapPc = s.trapPc := rfl

/-! ### setCluster -/

@[simp] theorem setCluster_tick (s : State) (k : Nat) (f : Cluster → Cluster) : (s.setCluster k f).tick = s.tick := rfl
@[simp] theorem setCluster_time (s : State) (k : Nat) (f : Cluster → Cluster) : (s.setCluster k f).time = s.time := rfl
@[simp] theorem setCluster_cur (s : State) (k : Nat) (f : Cluster → Cluster) : (s.setCluster k f).cur = s.cur := rfl
@[simp] theorem setCluster_turns (s : State) (k : Nat) (f : Cluster → Cluster) : (s.setCluster k f).turns = s.turns := rfl
@[simp] theorem setCluster_due (s : State) (k : Nat) (f : Cluster → Cluster) : (s.setCluster k f).due = s.due := rfl
@[simp] theorem setCluster_nextId (s : State) (k : Nat) (f : Cluster → Cluster) : (s.setCluster k f).nextId = s.nextId := rfl
@[simp] theorem setCluster_mem (s : State) (k : Nat) (f : Cluster → Cluster) : (s.setCluster k f).mem = s.mem := rfl
@[simp] theorem setCluster_strands (s : State) (k : Nat) (f : Cluster → Cluster) : (s.setCluster k f).strands = s.strands := rfl
@[simp] theorem setCluster_banks (s : State) (k : Nat) (f : Cluster → Cluster) : (s.setCluster k f).banks = s.banks := rfl
@[simp] theorem setCluster_cores (s : State) (k : Nat) (f : Cluster → Cluster) : (s.setCluster k f).cores = s.cores := rfl
@[simp] theorem setCluster_dies (s : State) (k : Nat) (f : Cluster → Cluster) : (s.setCluster k f).dies = s.dies := rfl
@[simp] theorem setCluster_pkgs (s : State) (k : Nat) (f : Cluster → Cluster) : (s.setCluster k f).pkgs = s.pkgs := rfl
@[simp] theorem setCluster_dir (s : State) (k : Nat) (f : Cluster → Cluster) : (s.setCluster k f).dir = s.dir := rfl
@[simp] theorem setCluster_net (s : State) (k : Nat) (f : Cluster → Cluster) : (s.setCluster k f).net = s.net := rfl
@[simp] theorem setCluster_msgs (s : State) (k : Nat) (f : Cluster → Cluster) : (s.setCluster k f).msgs = s.msgs := rfl
@[simp] theorem setCluster_stcs (s : State) (k : Nat) (f : Cluster → Cluster) : (s.setCluster k f).stcs = s.stcs := rfl
@[simp] theorem setCluster_tlb (s : State) (k : Nat) (f : Cluster → Cluster) : (s.setCluster k f).tlb = s.tlb := rfl
@[simp] theorem setCluster_dropped (s : State) (k : Nat) (f : Cluster → Cluster) : (s.setCluster k f).dropped = s.dropped := rfl
@[simp] theorem setCluster_parks (s : State) (k : Nat) (f : Cluster → Cluster) : (s.setCluster k f).parks = s.parks := rfl
@[simp] theorem setCluster_refused (s : State) (k : Nat) (f : Cluster → Cluster) : (s.setCluster k f).refused = s.refused := rfl
@[simp] theorem setCluster_launches (s : State) (k : Nat) (f : Cluster → Cluster) : (s.setCluster k f).launches = s.launches := rfl
@[simp] theorem setCluster_experts (s : State) (k : Nat) (f : Cluster → Cluster) : (s.setCluster k f).experts = s.experts := rfl
@[simp] theorem setCluster_cmds (s : State) (k : Nat) (f : Cluster → Cluster) : (s.setCluster k f).cmds = s.cmds := rfl
@[simp] theorem setCluster_jobs (s : State) (k : Nat) (f : Cluster → Cluster) : (s.setCluster k f).jobs = s.jobs := rfl
@[simp] theorem setCluster_foreign (s : State) (k : Nat) (f : Cluster → Cluster) : (s.setCluster k f).foreign = s.foreign := rfl
@[simp] theorem setCluster_trapArea (s : State) (k : Nat) (f : Cluster → Cluster) : (s.setCluster k f).trapArea = s.trapArea := rfl
@[simp] theorem setCluster_trapPc (s : State) (k : Nat) (f : Cluster → Cluster) : (s.setCluster k f).trapPc = s.trapPc := rfl

/-! ### setDie -/

@[simp] theorem setDie_tick (s : State) (k : Nat) (f : Die → Die) : (s.setDie k f).tick = s.tick := rfl
@[simp] theorem setDie_time (s : State) (k : Nat) (f : Die → Die) : (s.setDie k f).time = s.time := rfl
@[simp] theorem setDie_cur (s : State) (k : Nat) (f : Die → Die) : (s.setDie k f).cur = s.cur := rfl
@[simp] theorem setDie_turns (s : State) (k : Nat) (f : Die → Die) : (s.setDie k f).turns = s.turns := rfl
@[simp] theorem setDie_due (s : State) (k : Nat) (f : Die → Die) : (s.setDie k f).due = s.due := rfl
@[simp] theorem setDie_nextId (s : State) (k : Nat) (f : Die → Die) : (s.setDie k f).nextId = s.nextId := rfl
@[simp] theorem setDie_mem (s : State) (k : Nat) (f : Die → Die) : (s.setDie k f).mem = s.mem := rfl
@[simp] theorem setDie_strands (s : State) (k : Nat) (f : Die → Die) : (s.setDie k f).strands = s.strands := rfl
@[simp] theorem setDie_banks (s : State) (k : Nat) (f : Die → Die) : (s.setDie k f).banks = s.banks := rfl
@[simp] theorem setDie_cores (s : State) (k : Nat) (f : Die → Die) : (s.setDie k f).cores = s.cores := rfl
@[simp] theorem setDie_clusters (s : State) (k : Nat) (f : Die → Die) : (s.setDie k f).clusters = s.clusters := rfl
@[simp] theorem setDie_pkgs (s : State) (k : Nat) (f : Die → Die) : (s.setDie k f).pkgs = s.pkgs := rfl
@[simp] theorem setDie_dir (s : State) (k : Nat) (f : Die → Die) : (s.setDie k f).dir = s.dir := rfl
@[simp] theorem setDie_net (s : State) (k : Nat) (f : Die → Die) : (s.setDie k f).net = s.net := rfl
@[simp] theorem setDie_msgs (s : State) (k : Nat) (f : Die → Die) : (s.setDie k f).msgs = s.msgs := rfl
@[simp] theorem setDie_stcs (s : State) (k : Nat) (f : Die → Die) : (s.setDie k f).stcs = s.stcs := rfl
@[simp] theorem setDie_tlb (s : State) (k : Nat) (f : Die → Die) : (s.setDie k f).tlb = s.tlb := rfl
@[simp] theorem setDie_dropped (s : State) (k : Nat) (f : Die → Die) : (s.setDie k f).dropped = s.dropped := rfl
@[simp] theorem setDie_parks (s : State) (k : Nat) (f : Die → Die) : (s.setDie k f).parks = s.parks := rfl
@[simp] theorem setDie_refused (s : State) (k : Nat) (f : Die → Die) : (s.setDie k f).refused = s.refused := rfl
@[simp] theorem setDie_launches (s : State) (k : Nat) (f : Die → Die) : (s.setDie k f).launches = s.launches := rfl
@[simp] theorem setDie_experts (s : State) (k : Nat) (f : Die → Die) : (s.setDie k f).experts = s.experts := rfl
@[simp] theorem setDie_cmds (s : State) (k : Nat) (f : Die → Die) : (s.setDie k f).cmds = s.cmds := rfl
@[simp] theorem setDie_jobs (s : State) (k : Nat) (f : Die → Die) : (s.setDie k f).jobs = s.jobs := rfl
@[simp] theorem setDie_foreign (s : State) (k : Nat) (f : Die → Die) : (s.setDie k f).foreign = s.foreign := rfl
@[simp] theorem setDie_trapArea (s : State) (k : Nat) (f : Die → Die) : (s.setDie k f).trapArea = s.trapArea := rfl
@[simp] theorem setDie_trapPc (s : State) (k : Nat) (f : Die → Die) : (s.setDie k f).trapPc = s.trapPc := rfl

/-! ### setPkg -/

@[simp] theorem setPkg_tick (s : State) (k : Nat) (f : Pkg → Pkg) : (s.setPkg k f).tick = s.tick := rfl
@[simp] theorem setPkg_time (s : State) (k : Nat) (f : Pkg → Pkg) : (s.setPkg k f).time = s.time := rfl
@[simp] theorem setPkg_cur (s : State) (k : Nat) (f : Pkg → Pkg) : (s.setPkg k f).cur = s.cur := rfl
@[simp] theorem setPkg_turns (s : State) (k : Nat) (f : Pkg → Pkg) : (s.setPkg k f).turns = s.turns := rfl
@[simp] theorem setPkg_due (s : State) (k : Nat) (f : Pkg → Pkg) : (s.setPkg k f).due = s.due := rfl
@[simp] theorem setPkg_nextId (s : State) (k : Nat) (f : Pkg → Pkg) : (s.setPkg k f).nextId = s.nextId := rfl
@[simp] theorem setPkg_mem (s : State) (k : Nat) (f : Pkg → Pkg) : (s.setPkg k f).mem = s.mem := rfl
@[simp] theorem setPkg_strands (s : State) (k : Nat) (f : Pkg → Pkg) : (s.setPkg k f).strands = s.strands := rfl
@[simp] theorem setPkg_banks (s : State) (k : Nat) (f : Pkg → Pkg) : (s.setPkg k f).banks = s.banks := rfl
@[simp] theorem setPkg_cores (s : State) (k : Nat) (f : Pkg → Pkg) : (s.setPkg k f).cores = s.cores := rfl
@[simp] theorem setPkg_clusters (s : State) (k : Nat) (f : Pkg → Pkg) : (s.setPkg k f).clusters = s.clusters := rfl
@[simp] theorem setPkg_dies (s : State) (k : Nat) (f : Pkg → Pkg) : (s.setPkg k f).dies = s.dies := rfl
@[simp] theorem setPkg_dir (s : State) (k : Nat) (f : Pkg → Pkg) : (s.setPkg k f).dir = s.dir := rfl
@[simp] theorem setPkg_net (s : State) (k : Nat) (f : Pkg → Pkg) : (s.setPkg k f).net = s.net := rfl
@[simp] theorem setPkg_msgs (s : State) (k : Nat) (f : Pkg → Pkg) : (s.setPkg k f).msgs = s.msgs := rfl
@[simp] theorem setPkg_stcs (s : State) (k : Nat) (f : Pkg → Pkg) : (s.setPkg k f).stcs = s.stcs := rfl
@[simp] theorem setPkg_tlb (s : State) (k : Nat) (f : Pkg → Pkg) : (s.setPkg k f).tlb = s.tlb := rfl
@[simp] theorem setPkg_dropped (s : State) (k : Nat) (f : Pkg → Pkg) : (s.setPkg k f).dropped = s.dropped := rfl
@[simp] theorem setPkg_parks (s : State) (k : Nat) (f : Pkg → Pkg) : (s.setPkg k f).parks = s.parks := rfl
@[simp] theorem setPkg_refused (s : State) (k : Nat) (f : Pkg → Pkg) : (s.setPkg k f).refused = s.refused := rfl
@[simp] theorem setPkg_launches (s : State) (k : Nat) (f : Pkg → Pkg) : (s.setPkg k f).launches = s.launches := rfl
@[simp] theorem setPkg_experts (s : State) (k : Nat) (f : Pkg → Pkg) : (s.setPkg k f).experts = s.experts := rfl
@[simp] theorem setPkg_cmds (s : State) (k : Nat) (f : Pkg → Pkg) : (s.setPkg k f).cmds = s.cmds := rfl
@[simp] theorem setPkg_jobs (s : State) (k : Nat) (f : Pkg → Pkg) : (s.setPkg k f).jobs = s.jobs := rfl
@[simp] theorem setPkg_foreign (s : State) (k : Nat) (f : Pkg → Pkg) : (s.setPkg k f).foreign = s.foreign := rfl
@[simp] theorem setPkg_trapArea (s : State) (k : Nat) (f : Pkg → Pkg) : (s.setPkg k f).trapArea = s.trapArea := rfl
@[simp] theorem setPkg_trapPc (s : State) (k : Nat) (f : Pkg → Pkg) : (s.setPkg k f).trapPc = s.trapPc := rfl

/-! ### setEntry -/

@[simp] theorem setEntry_tick (s : State) (l : Nat) (f : DirEntry → DirEntry) : (s.setEntry l f).tick = s.tick := rfl
@[simp] theorem setEntry_time (s : State) (l : Nat) (f : DirEntry → DirEntry) : (s.setEntry l f).time = s.time := rfl
@[simp] theorem setEntry_cur (s : State) (l : Nat) (f : DirEntry → DirEntry) : (s.setEntry l f).cur = s.cur := rfl
@[simp] theorem setEntry_turns (s : State) (l : Nat) (f : DirEntry → DirEntry) : (s.setEntry l f).turns = s.turns := rfl
@[simp] theorem setEntry_due (s : State) (l : Nat) (f : DirEntry → DirEntry) : (s.setEntry l f).due = s.due := rfl
@[simp] theorem setEntry_nextId (s : State) (l : Nat) (f : DirEntry → DirEntry) : (s.setEntry l f).nextId = s.nextId := rfl
@[simp] theorem setEntry_mem (s : State) (l : Nat) (f : DirEntry → DirEntry) : (s.setEntry l f).mem = s.mem := rfl
@[simp] theorem setEntry_strands (s : State) (l : Nat) (f : DirEntry → DirEntry) : (s.setEntry l f).strands = s.strands := rfl
@[simp] theorem setEntry_banks (s : State) (l : Nat) (f : DirEntry → DirEntry) : (s.setEntry l f).banks = s.banks := rfl
@[simp] theorem setEntry_cores (s : State) (l : Nat) (f : DirEntry → DirEntry) : (s.setEntry l f).cores = s.cores := rfl
@[simp] theorem setEntry_clusters (s : State) (l : Nat) (f : DirEntry → DirEntry) : (s.setEntry l f).clusters = s.clusters := rfl
@[simp] theorem setEntry_dies (s : State) (l : Nat) (f : DirEntry → DirEntry) : (s.setEntry l f).dies = s.dies := rfl
@[simp] theorem setEntry_pkgs (s : State) (l : Nat) (f : DirEntry → DirEntry) : (s.setEntry l f).pkgs = s.pkgs := rfl
@[simp] theorem setEntry_net (s : State) (l : Nat) (f : DirEntry → DirEntry) : (s.setEntry l f).net = s.net := rfl
@[simp] theorem setEntry_msgs (s : State) (l : Nat) (f : DirEntry → DirEntry) : (s.setEntry l f).msgs = s.msgs := rfl
@[simp] theorem setEntry_stcs (s : State) (l : Nat) (f : DirEntry → DirEntry) : (s.setEntry l f).stcs = s.stcs := rfl
@[simp] theorem setEntry_tlb (s : State) (l : Nat) (f : DirEntry → DirEntry) : (s.setEntry l f).tlb = s.tlb := rfl
@[simp] theorem setEntry_dropped (s : State) (l : Nat) (f : DirEntry → DirEntry) : (s.setEntry l f).dropped = s.dropped := rfl
@[simp] theorem setEntry_parks (s : State) (l : Nat) (f : DirEntry → DirEntry) : (s.setEntry l f).parks = s.parks := rfl
@[simp] theorem setEntry_refused (s : State) (l : Nat) (f : DirEntry → DirEntry) : (s.setEntry l f).refused = s.refused := rfl
@[simp] theorem setEntry_launches (s : State) (l : Nat) (f : DirEntry → DirEntry) : (s.setEntry l f).launches = s.launches := rfl
@[simp] theorem setEntry_experts (s : State) (l : Nat) (f : DirEntry → DirEntry) : (s.setEntry l f).experts = s.experts := rfl
@[simp] theorem setEntry_cmds (s : State) (l : Nat) (f : DirEntry → DirEntry) : (s.setEntry l f).cmds = s.cmds := rfl
@[simp] theorem setEntry_jobs (s : State) (l : Nat) (f : DirEntry → DirEntry) : (s.setEntry l f).jobs = s.jobs := rfl
@[simp] theorem setEntry_foreign (s : State) (l : Nat) (f : DirEntry → DirEntry) : (s.setEntry l f).foreign = s.foreign := rfl
@[simp] theorem setEntry_trapArea (s : State) (l : Nat) (f : DirEntry → DirEntry) : (s.setEntry l f).trapArea = s.trapArea := rfl
@[simp] theorem setEntry_trapPc (s : State) (l : Nat) (f : DirEntry → DirEntry) : (s.setEntry l f).trapPc = s.trapPc := rfl

/-! ### owe -/

@[simp] theorem owe_tick (s : State) (i : Instr) : (s.owe i).tick = s.tick := rfl
@[simp] theorem owe_time (s : State) (i : Instr) : (s.owe i).time = s.time := rfl
@[simp] theorem owe_cur (s : State) (i : Instr) : (s.owe i).cur = s.cur := rfl
@[simp] theorem owe_turns (s : State) (i : Instr) : (s.owe i).turns = s.turns := rfl
@[simp] theorem owe_nextId (s : State) (i : Instr) : (s.owe i).nextId = s.nextId := rfl
@[simp] theorem owe_mem (s : State) (i : Instr) : (s.owe i).mem = s.mem := rfl
@[simp] theorem owe_strands (s : State) (i : Instr) : (s.owe i).strands = s.strands := rfl
@[simp] theorem owe_banks (s : State) (i : Instr) : (s.owe i).banks = s.banks := rfl
@[simp] theorem owe_cores (s : State) (i : Instr) : (s.owe i).cores = s.cores := rfl
@[simp] theorem owe_clusters (s : State) (i : Instr) : (s.owe i).clusters = s.clusters := rfl
@[simp] theorem owe_dies (s : State) (i : Instr) : (s.owe i).dies = s.dies := rfl
@[simp] theorem owe_pkgs (s : State) (i : Instr) : (s.owe i).pkgs = s.pkgs := rfl
@[simp] theorem owe_dir (s : State) (i : Instr) : (s.owe i).dir = s.dir := rfl
@[simp] theorem owe_net (s : State) (i : Instr) : (s.owe i).net = s.net := rfl
@[simp] theorem owe_msgs (s : State) (i : Instr) : (s.owe i).msgs = s.msgs := rfl
@[simp] theorem owe_stcs (s : State) (i : Instr) : (s.owe i).stcs = s.stcs := rfl
@[simp] theorem owe_tlb (s : State) (i : Instr) : (s.owe i).tlb = s.tlb := rfl
@[simp] theorem owe_dropped (s : State) (i : Instr) : (s.owe i).dropped = s.dropped := rfl
@[simp] theorem owe_parks (s : State) (i : Instr) : (s.owe i).parks = s.parks := rfl
@[simp] theorem owe_refused (s : State) (i : Instr) : (s.owe i).refused = s.refused := rfl
@[simp] theorem owe_launches (s : State) (i : Instr) : (s.owe i).launches = s.launches := rfl
@[simp] theorem owe_experts (s : State) (i : Instr) : (s.owe i).experts = s.experts := rfl
@[simp] theorem owe_cmds (s : State) (i : Instr) : (s.owe i).cmds = s.cmds := rfl
@[simp] theorem owe_jobs (s : State) (i : Instr) : (s.owe i).jobs = s.jobs := rfl
@[simp] theorem owe_foreign (s : State) (i : Instr) : (s.owe i).foreign = s.foreign := rfl
@[simp] theorem owe_trapArea (s : State) (i : Instr) : (s.owe i).trapArea = s.trapArea := rfl
@[simp] theorem owe_trapPc (s : State) (i : Instr) : (s.owe i).trapPc = s.trapPc := rfl

/-! ### oweAll -/

@[simp] theorem oweAll_tick (s : State) (is : List Instr) : (s.oweAll is).tick = s.tick := rfl
@[simp] theorem oweAll_time (s : State) (is : List Instr) : (s.oweAll is).time = s.time := rfl
@[simp] theorem oweAll_cur (s : State) (is : List Instr) : (s.oweAll is).cur = s.cur := rfl
@[simp] theorem oweAll_turns (s : State) (is : List Instr) : (s.oweAll is).turns = s.turns := rfl
@[simp] theorem oweAll_nextId (s : State) (is : List Instr) : (s.oweAll is).nextId = s.nextId := rfl
@[simp] theorem oweAll_mem (s : State) (is : List Instr) : (s.oweAll is).mem = s.mem := rfl
@[simp] theorem oweAll_strands (s : State) (is : List Instr) : (s.oweAll is).strands = s.strands := rfl
@[simp] theorem oweAll_banks (s : State) (is : List Instr) : (s.oweAll is).banks = s.banks := rfl
@[simp] theorem oweAll_cores (s : State) (is : List Instr) : (s.oweAll is).cores = s.cores := rfl
@[simp] theorem oweAll_clusters (s : State) (is : List Instr) : (s.oweAll is).clusters = s.clusters := rfl
@[simp] theorem oweAll_dies (s : State) (is : List Instr) : (s.oweAll is).dies = s.dies := rfl
@[simp] theorem oweAll_pkgs (s : State) (is : List Instr) : (s.oweAll is).pkgs = s.pkgs := rfl
@[simp] theorem oweAll_dir (s : State) (is : List Instr) : (s.oweAll is).dir = s.dir := rfl
@[simp] theorem oweAll_net (s : State) (is : List Instr) : (s.oweAll is).net = s.net := rfl
@[simp] theorem oweAll_msgs (s : State) (is : List Instr) : (s.oweAll is).msgs = s.msgs := rfl
@[simp] theorem oweAll_stcs (s : State) (is : List Instr) : (s.oweAll is).stcs = s.stcs := rfl
@[simp] theorem oweAll_tlb (s : State) (is : List Instr) : (s.oweAll is).tlb = s.tlb := rfl
@[simp] theorem oweAll_dropped (s : State) (is : List Instr) : (s.oweAll is).dropped = s.dropped := rfl
@[simp] theorem oweAll_parks (s : State) (is : List Instr) : (s.oweAll is).parks = s.parks := rfl
@[simp] theorem oweAll_refused (s : State) (is : List Instr) : (s.oweAll is).refused = s.refused := rfl
@[simp] theorem oweAll_launches (s : State) (is : List Instr) : (s.oweAll is).launches = s.launches := rfl
@[simp] theorem oweAll_experts (s : State) (is : List Instr) : (s.oweAll is).experts = s.experts := rfl
@[simp] theorem oweAll_cmds (s : State) (is : List Instr) : (s.oweAll is).cmds = s.cmds := rfl
@[simp] theorem oweAll_jobs (s : State) (is : List Instr) : (s.oweAll is).jobs = s.jobs := rfl
@[simp] theorem oweAll_foreign (s : State) (is : List Instr) : (s.oweAll is).foreign = s.foreign := rfl
@[simp] theorem oweAll_trapArea (s : State) (is : List Instr) : (s.oweAll is).trapArea = s.trapArea := rfl
@[simp] theorem oweAll_trapPc (s : State) (is : List Instr) : (s.oweAll is).trapPc = s.trapPc := rfl

/-! ### setMe -/

@[simp] theorem setMe_tick (s : State) (f : Strand → Strand) : (s.setMe f).tick = s.tick := rfl
@[simp] theorem setMe_time (s : State) (f : Strand → Strand) : (s.setMe f).time = s.time := rfl
@[simp] theorem setMe_cur (s : State) (f : Strand → Strand) : (s.setMe f).cur = s.cur := rfl
@[simp] theorem setMe_turns (s : State) (f : Strand → Strand) : (s.setMe f).turns = s.turns := rfl
@[simp] theorem setMe_due (s : State) (f : Strand → Strand) : (s.setMe f).due = s.due := rfl
@[simp] theorem setMe_nextId (s : State) (f : Strand → Strand) : (s.setMe f).nextId = s.nextId := rfl
@[simp] theorem setMe_mem (s : State) (f : Strand → Strand) : (s.setMe f).mem = s.mem := rfl
@[simp] theorem setMe_banks (s : State) (f : Strand → Strand) : (s.setMe f).banks = s.banks := rfl
@[simp] theorem setMe_cores (s : State) (f : Strand → Strand) : (s.setMe f).cores = s.cores := rfl
@[simp] theorem setMe_clusters (s : State) (f : Strand → Strand) : (s.setMe f).clusters = s.clusters := rfl
@[simp] theorem setMe_dies (s : State) (f : Strand → Strand) : (s.setMe f).dies = s.dies := rfl
@[simp] theorem setMe_pkgs (s : State) (f : Strand → Strand) : (s.setMe f).pkgs = s.pkgs := rfl
@[simp] theorem setMe_dir (s : State) (f : Strand → Strand) : (s.setMe f).dir = s.dir := rfl
@[simp] theorem setMe_net (s : State) (f : Strand → Strand) : (s.setMe f).net = s.net := rfl
@[simp] theorem setMe_msgs (s : State) (f : Strand → Strand) : (s.setMe f).msgs = s.msgs := rfl
@[simp] theorem setMe_stcs (s : State) (f : Strand → Strand) : (s.setMe f).stcs = s.stcs := rfl
@[simp] theorem setMe_tlb (s : State) (f : Strand → Strand) : (s.setMe f).tlb = s.tlb := rfl
@[simp] theorem setMe_dropped (s : State) (f : Strand → Strand) : (s.setMe f).dropped = s.dropped := rfl
@[simp] theorem setMe_parks (s : State) (f : Strand → Strand) : (s.setMe f).parks = s.parks := rfl
@[simp] theorem setMe_refused (s : State) (f : Strand → Strand) : (s.setMe f).refused = s.refused := rfl
@[simp] theorem setMe_launches (s : State) (f : Strand → Strand) : (s.setMe f).launches = s.launches := rfl
@[simp] theorem setMe_experts (s : State) (f : Strand → Strand) : (s.setMe f).experts = s.experts := rfl
@[simp] theorem setMe_cmds (s : State) (f : Strand → Strand) : (s.setMe f).cmds = s.cmds := rfl
@[simp] theorem setMe_jobs (s : State) (f : Strand → Strand) : (s.setMe f).jobs = s.jobs := rfl
@[simp] theorem setMe_foreign (s : State) (f : Strand → Strand) : (s.setMe f).foreign = s.foreign := rfl
@[simp] theorem setMe_trapArea (s : State) (f : Strand → Strand) : (s.setMe f).trapArea = s.trapArea := rfl
@[simp] theorem setMe_trapPc (s : State) (f : Strand → Strand) : (s.setMe f).trapPc = s.trapPc := rfl

/-! ### setRegs -/

@[simp] theorem setRegs_tick (s : State) (f : Regs → Regs) : (s.setRegs f).tick = s.tick := rfl
@[simp] theorem setRegs_time (s : State) (f : Regs → Regs) : (s.setRegs f).time = s.time := rfl
@[simp] theorem setRegs_cur (s : State) (f : Regs → Regs) : (s.setRegs f).cur = s.cur := rfl
@[simp] theorem setRegs_turns (s : State) (f : Regs → Regs) : (s.setRegs f).turns = s.turns := rfl
@[simp] theorem setRegs_due (s : State) (f : Regs → Regs) : (s.setRegs f).due = s.due := rfl
@[simp] theorem setRegs_nextId (s : State) (f : Regs → Regs) : (s.setRegs f).nextId = s.nextId := rfl
@[simp] theorem setRegs_mem (s : State) (f : Regs → Regs) : (s.setRegs f).mem = s.mem := rfl
@[simp] theorem setRegs_banks (s : State) (f : Regs → Regs) : (s.setRegs f).banks = s.banks := rfl
@[simp] theorem setRegs_cores (s : State) (f : Regs → Regs) : (s.setRegs f).cores = s.cores := rfl
@[simp] theorem setRegs_clusters (s : State) (f : Regs → Regs) : (s.setRegs f).clusters = s.clusters := rfl
@[simp] theorem setRegs_dies (s : State) (f : Regs → Regs) : (s.setRegs f).dies = s.dies := rfl
@[simp] theorem setRegs_pkgs (s : State) (f : Regs → Regs) : (s.setRegs f).pkgs = s.pkgs := rfl
@[simp] theorem setRegs_dir (s : State) (f : Regs → Regs) : (s.setRegs f).dir = s.dir := rfl
@[simp] theorem setRegs_net (s : State) (f : Regs → Regs) : (s.setRegs f).net = s.net := rfl
@[simp] theorem setRegs_msgs (s : State) (f : Regs → Regs) : (s.setRegs f).msgs = s.msgs := rfl
@[simp] theorem setRegs_stcs (s : State) (f : Regs → Regs) : (s.setRegs f).stcs = s.stcs := rfl
@[simp] theorem setRegs_tlb (s : State) (f : Regs → Regs) : (s.setRegs f).tlb = s.tlb := rfl
@[simp] theorem setRegs_dropped (s : State) (f : Regs → Regs) : (s.setRegs f).dropped = s.dropped := rfl
@[simp] theorem setRegs_parks (s : State) (f : Regs → Regs) : (s.setRegs f).parks = s.parks := rfl
@[simp] theorem setRegs_refused (s : State) (f : Regs → Regs) : (s.setRegs f).refused = s.refused := rfl
@[simp] theorem setRegs_launches (s : State) (f : Regs → Regs) : (s.setRegs f).launches = s.launches := rfl
@[simp] theorem setRegs_experts (s : State) (f : Regs → Regs) : (s.setRegs f).experts = s.experts := rfl
@[simp] theorem setRegs_cmds (s : State) (f : Regs → Regs) : (s.setRegs f).cmds = s.cmds := rfl
@[simp] theorem setRegs_jobs (s : State) (f : Regs → Regs) : (s.setRegs f).jobs = s.jobs := rfl
@[simp] theorem setRegs_foreign (s : State) (f : Regs → Regs) : (s.setRegs f).foreign = s.foreign := rfl
@[simp] theorem setRegs_trapArea (s : State) (f : Regs → Regs) : (s.setRegs f).trapArea = s.trapArea := rfl
@[simp] theorem setRegs_trapPc (s : State) (f : Regs → Regs) : (s.setRegs f).trapPc = s.trapPc := rfl

/-! ### writeS -/

@[simp] theorem writeS_tick (s : State) (r : BitVec 6) (x : Word) : (s.writeS r x).tick = s.tick := rfl
@[simp] theorem writeS_time (s : State) (r : BitVec 6) (x : Word) : (s.writeS r x).time = s.time := rfl
@[simp] theorem writeS_cur (s : State) (r : BitVec 6) (x : Word) : (s.writeS r x).cur = s.cur := rfl
@[simp] theorem writeS_turns (s : State) (r : BitVec 6) (x : Word) : (s.writeS r x).turns = s.turns := rfl
@[simp] theorem writeS_due (s : State) (r : BitVec 6) (x : Word) : (s.writeS r x).due = s.due := rfl
@[simp] theorem writeS_nextId (s : State) (r : BitVec 6) (x : Word) : (s.writeS r x).nextId = s.nextId := rfl
@[simp] theorem writeS_mem (s : State) (r : BitVec 6) (x : Word) : (s.writeS r x).mem = s.mem := rfl
@[simp] theorem writeS_banks (s : State) (r : BitVec 6) (x : Word) : (s.writeS r x).banks = s.banks := rfl
@[simp] theorem writeS_cores (s : State) (r : BitVec 6) (x : Word) : (s.writeS r x).cores = s.cores := rfl
@[simp] theorem writeS_clusters (s : State) (r : BitVec 6) (x : Word) : (s.writeS r x).clusters = s.clusters := rfl
@[simp] theorem writeS_dies (s : State) (r : BitVec 6) (x : Word) : (s.writeS r x).dies = s.dies := rfl
@[simp] theorem writeS_pkgs (s : State) (r : BitVec 6) (x : Word) : (s.writeS r x).pkgs = s.pkgs := rfl
@[simp] theorem writeS_dir (s : State) (r : BitVec 6) (x : Word) : (s.writeS r x).dir = s.dir := rfl
@[simp] theorem writeS_net (s : State) (r : BitVec 6) (x : Word) : (s.writeS r x).net = s.net := rfl
@[simp] theorem writeS_msgs (s : State) (r : BitVec 6) (x : Word) : (s.writeS r x).msgs = s.msgs := rfl
@[simp] theorem writeS_stcs (s : State) (r : BitVec 6) (x : Word) : (s.writeS r x).stcs = s.stcs := rfl
@[simp] theorem writeS_tlb (s : State) (r : BitVec 6) (x : Word) : (s.writeS r x).tlb = s.tlb := rfl
@[simp] theorem writeS_dropped (s : State) (r : BitVec 6) (x : Word) : (s.writeS r x).dropped = s.dropped := rfl
@[simp] theorem writeS_parks (s : State) (r : BitVec 6) (x : Word) : (s.writeS r x).parks = s.parks := rfl
@[simp] theorem writeS_refused (s : State) (r : BitVec 6) (x : Word) : (s.writeS r x).refused = s.refused := rfl
@[simp] theorem writeS_launches (s : State) (r : BitVec 6) (x : Word) : (s.writeS r x).launches = s.launches := rfl
@[simp] theorem writeS_experts (s : State) (r : BitVec 6) (x : Word) : (s.writeS r x).experts = s.experts := rfl
@[simp] theorem writeS_cmds (s : State) (r : BitVec 6) (x : Word) : (s.writeS r x).cmds = s.cmds := rfl
@[simp] theorem writeS_jobs (s : State) (r : BitVec 6) (x : Word) : (s.writeS r x).jobs = s.jobs := rfl
@[simp] theorem writeS_foreign (s : State) (r : BitVec 6) (x : Word) : (s.writeS r x).foreign = s.foreign := rfl
@[simp] theorem writeS_trapArea (s : State) (r : BitVec 6) (x : Word) : (s.writeS r x).trapArea = s.trapArea := rfl
@[simp] theorem writeS_trapPc (s : State) (r : BitVec 6) (x : Word) : (s.writeS r x).trapPc = s.trapPc := rfl

/-! ### writeF -/

@[simp] theorem writeF_tick (s : State) (r : BitVec 6) (x : Word) : (s.writeF r x).tick = s.tick := rfl
@[simp] theorem writeF_time (s : State) (r : BitVec 6) (x : Word) : (s.writeF r x).time = s.time := rfl
@[simp] theorem writeF_cur (s : State) (r : BitVec 6) (x : Word) : (s.writeF r x).cur = s.cur := rfl
@[simp] theorem writeF_turns (s : State) (r : BitVec 6) (x : Word) : (s.writeF r x).turns = s.turns := rfl
@[simp] theorem writeF_due (s : State) (r : BitVec 6) (x : Word) : (s.writeF r x).due = s.due := rfl
@[simp] theorem writeF_nextId (s : State) (r : BitVec 6) (x : Word) : (s.writeF r x).nextId = s.nextId := rfl
@[simp] theorem writeF_mem (s : State) (r : BitVec 6) (x : Word) : (s.writeF r x).mem = s.mem := rfl
@[simp] theorem writeF_banks (s : State) (r : BitVec 6) (x : Word) : (s.writeF r x).banks = s.banks := rfl
@[simp] theorem writeF_cores (s : State) (r : BitVec 6) (x : Word) : (s.writeF r x).cores = s.cores := rfl
@[simp] theorem writeF_clusters (s : State) (r : BitVec 6) (x : Word) : (s.writeF r x).clusters = s.clusters := rfl
@[simp] theorem writeF_dies (s : State) (r : BitVec 6) (x : Word) : (s.writeF r x).dies = s.dies := rfl
@[simp] theorem writeF_pkgs (s : State) (r : BitVec 6) (x : Word) : (s.writeF r x).pkgs = s.pkgs := rfl
@[simp] theorem writeF_dir (s : State) (r : BitVec 6) (x : Word) : (s.writeF r x).dir = s.dir := rfl
@[simp] theorem writeF_net (s : State) (r : BitVec 6) (x : Word) : (s.writeF r x).net = s.net := rfl
@[simp] theorem writeF_msgs (s : State) (r : BitVec 6) (x : Word) : (s.writeF r x).msgs = s.msgs := rfl
@[simp] theorem writeF_stcs (s : State) (r : BitVec 6) (x : Word) : (s.writeF r x).stcs = s.stcs := rfl
@[simp] theorem writeF_tlb (s : State) (r : BitVec 6) (x : Word) : (s.writeF r x).tlb = s.tlb := rfl
@[simp] theorem writeF_dropped (s : State) (r : BitVec 6) (x : Word) : (s.writeF r x).dropped = s.dropped := rfl
@[simp] theorem writeF_parks (s : State) (r : BitVec 6) (x : Word) : (s.writeF r x).parks = s.parks := rfl
@[simp] theorem writeF_refused (s : State) (r : BitVec 6) (x : Word) : (s.writeF r x).refused = s.refused := rfl
@[simp] theorem writeF_launches (s : State) (r : BitVec 6) (x : Word) : (s.writeF r x).launches = s.launches := rfl
@[simp] theorem writeF_experts (s : State) (r : BitVec 6) (x : Word) : (s.writeF r x).experts = s.experts := rfl
@[simp] theorem writeF_cmds (s : State) (r : BitVec 6) (x : Word) : (s.writeF r x).cmds = s.cmds := rfl
@[simp] theorem writeF_jobs (s : State) (r : BitVec 6) (x : Word) : (s.writeF r x).jobs = s.jobs := rfl
@[simp] theorem writeF_foreign (s : State) (r : BitVec 6) (x : Word) : (s.writeF r x).foreign = s.foreign := rfl
@[simp] theorem writeF_trapArea (s : State) (r : BitVec 6) (x : Word) : (s.writeF r x).trapArea = s.trapArea := rfl
@[simp] theorem writeF_trapPc (s : State) (r : BitVec 6) (x : Word) : (s.writeF r x).trapPc = s.trapPc := rfl

/-! ### writeP -/

@[simp] theorem writeP_tick (s : State) (r : BitVec 6) (x : Lane) : (s.writeP r x).tick = s.tick := rfl
@[simp] theorem writeP_time (s : State) (r : BitVec 6) (x : Lane) : (s.writeP r x).time = s.time := rfl
@[simp] theorem writeP_cur (s : State) (r : BitVec 6) (x : Lane) : (s.writeP r x).cur = s.cur := rfl
@[simp] theorem writeP_turns (s : State) (r : BitVec 6) (x : Lane) : (s.writeP r x).turns = s.turns := rfl
@[simp] theorem writeP_due (s : State) (r : BitVec 6) (x : Lane) : (s.writeP r x).due = s.due := rfl
@[simp] theorem writeP_nextId (s : State) (r : BitVec 6) (x : Lane) : (s.writeP r x).nextId = s.nextId := rfl
@[simp] theorem writeP_mem (s : State) (r : BitVec 6) (x : Lane) : (s.writeP r x).mem = s.mem := rfl
@[simp] theorem writeP_banks (s : State) (r : BitVec 6) (x : Lane) : (s.writeP r x).banks = s.banks := rfl
@[simp] theorem writeP_cores (s : State) (r : BitVec 6) (x : Lane) : (s.writeP r x).cores = s.cores := rfl
@[simp] theorem writeP_clusters (s : State) (r : BitVec 6) (x : Lane) : (s.writeP r x).clusters = s.clusters := rfl
@[simp] theorem writeP_dies (s : State) (r : BitVec 6) (x : Lane) : (s.writeP r x).dies = s.dies := rfl
@[simp] theorem writeP_pkgs (s : State) (r : BitVec 6) (x : Lane) : (s.writeP r x).pkgs = s.pkgs := rfl
@[simp] theorem writeP_dir (s : State) (r : BitVec 6) (x : Lane) : (s.writeP r x).dir = s.dir := rfl
@[simp] theorem writeP_net (s : State) (r : BitVec 6) (x : Lane) : (s.writeP r x).net = s.net := rfl
@[simp] theorem writeP_msgs (s : State) (r : BitVec 6) (x : Lane) : (s.writeP r x).msgs = s.msgs := rfl
@[simp] theorem writeP_stcs (s : State) (r : BitVec 6) (x : Lane) : (s.writeP r x).stcs = s.stcs := rfl
@[simp] theorem writeP_tlb (s : State) (r : BitVec 6) (x : Lane) : (s.writeP r x).tlb = s.tlb := rfl
@[simp] theorem writeP_dropped (s : State) (r : BitVec 6) (x : Lane) : (s.writeP r x).dropped = s.dropped := rfl
@[simp] theorem writeP_parks (s : State) (r : BitVec 6) (x : Lane) : (s.writeP r x).parks = s.parks := rfl
@[simp] theorem writeP_refused (s : State) (r : BitVec 6) (x : Lane) : (s.writeP r x).refused = s.refused := rfl
@[simp] theorem writeP_launches (s : State) (r : BitVec 6) (x : Lane) : (s.writeP r x).launches = s.launches := rfl
@[simp] theorem writeP_experts (s : State) (r : BitVec 6) (x : Lane) : (s.writeP r x).experts = s.experts := rfl
@[simp] theorem writeP_cmds (s : State) (r : BitVec 6) (x : Lane) : (s.writeP r x).cmds = s.cmds := rfl
@[simp] theorem writeP_jobs (s : State) (r : BitVec 6) (x : Lane) : (s.writeP r x).jobs = s.jobs := rfl
@[simp] theorem writeP_foreign (s : State) (r : BitVec 6) (x : Lane) : (s.writeP r x).foreign = s.foreign := rfl
@[simp] theorem writeP_trapArea (s : State) (r : BitVec 6) (x : Lane) : (s.writeP r x).trapArea = s.trapArea := rfl
@[simp] theorem writeP_trapPc (s : State) (r : BitVec 6) (x : Lane) : (s.writeP r x).trapPc = s.trapPc := rfl

/-! ### setPc -/

@[simp] theorem setPc_tick (s : State) (pc : Word) : (s.setPc pc).tick = s.tick := rfl
@[simp] theorem setPc_time (s : State) (pc : Word) : (s.setPc pc).time = s.time := rfl
@[simp] theorem setPc_cur (s : State) (pc : Word) : (s.setPc pc).cur = s.cur := rfl
@[simp] theorem setPc_turns (s : State) (pc : Word) : (s.setPc pc).turns = s.turns := rfl
@[simp] theorem setPc_due (s : State) (pc : Word) : (s.setPc pc).due = s.due := rfl
@[simp] theorem setPc_nextId (s : State) (pc : Word) : (s.setPc pc).nextId = s.nextId := rfl
@[simp] theorem setPc_mem (s : State) (pc : Word) : (s.setPc pc).mem = s.mem := rfl
@[simp] theorem setPc_banks (s : State) (pc : Word) : (s.setPc pc).banks = s.banks := rfl
@[simp] theorem setPc_cores (s : State) (pc : Word) : (s.setPc pc).cores = s.cores := rfl
@[simp] theorem setPc_clusters (s : State) (pc : Word) : (s.setPc pc).clusters = s.clusters := rfl
@[simp] theorem setPc_dies (s : State) (pc : Word) : (s.setPc pc).dies = s.dies := rfl
@[simp] theorem setPc_pkgs (s : State) (pc : Word) : (s.setPc pc).pkgs = s.pkgs := rfl
@[simp] theorem setPc_dir (s : State) (pc : Word) : (s.setPc pc).dir = s.dir := rfl
@[simp] theorem setPc_net (s : State) (pc : Word) : (s.setPc pc).net = s.net := rfl
@[simp] theorem setPc_msgs (s : State) (pc : Word) : (s.setPc pc).msgs = s.msgs := rfl
@[simp] theorem setPc_stcs (s : State) (pc : Word) : (s.setPc pc).stcs = s.stcs := rfl
@[simp] theorem setPc_tlb (s : State) (pc : Word) : (s.setPc pc).tlb = s.tlb := rfl
@[simp] theorem setPc_dropped (s : State) (pc : Word) : (s.setPc pc).dropped = s.dropped := rfl
@[simp] theorem setPc_parks (s : State) (pc : Word) : (s.setPc pc).parks = s.parks := rfl
@[simp] theorem setPc_refused (s : State) (pc : Word) : (s.setPc pc).refused = s.refused := rfl
@[simp] theorem setPc_launches (s : State) (pc : Word) : (s.setPc pc).launches = s.launches := rfl
@[simp] theorem setPc_experts (s : State) (pc : Word) : (s.setPc pc).experts = s.experts := rfl
@[simp] theorem setPc_cmds (s : State) (pc : Word) : (s.setPc pc).cmds = s.cmds := rfl
@[simp] theorem setPc_jobs (s : State) (pc : Word) : (s.setPc pc).jobs = s.jobs := rfl
@[simp] theorem setPc_foreign (s : State) (pc : Word) : (s.setPc pc).foreign = s.foreign := rfl
@[simp] theorem setPc_trapArea (s : State) (pc : Word) : (s.setPc pc).trapArea = s.trapArea := rfl
@[simp] theorem setPc_trapPc (s : State) (pc : Word) : (s.setPc pc).trapPc = s.trapPc := rfl

/-! ### advance -/

@[simp] theorem advance_tick (s : State) : (s.advance).tick = s.tick := rfl
@[simp] theorem advance_time (s : State) : (s.advance).time = s.time := rfl
@[simp] theorem advance_cur (s : State) : (s.advance).cur = s.cur := rfl
@[simp] theorem advance_turns (s : State) : (s.advance).turns = s.turns := rfl
@[simp] theorem advance_due (s : State) : (s.advance).due = s.due := rfl
@[simp] theorem advance_nextId (s : State) : (s.advance).nextId = s.nextId := rfl
@[simp] theorem advance_mem (s : State) : (s.advance).mem = s.mem := rfl
@[simp] theorem advance_banks (s : State) : (s.advance).banks = s.banks := rfl
@[simp] theorem advance_cores (s : State) : (s.advance).cores = s.cores := rfl
@[simp] theorem advance_clusters (s : State) : (s.advance).clusters = s.clusters := rfl
@[simp] theorem advance_dies (s : State) : (s.advance).dies = s.dies := rfl
@[simp] theorem advance_pkgs (s : State) : (s.advance).pkgs = s.pkgs := rfl
@[simp] theorem advance_dir (s : State) : (s.advance).dir = s.dir := rfl
@[simp] theorem advance_net (s : State) : (s.advance).net = s.net := rfl
@[simp] theorem advance_msgs (s : State) : (s.advance).msgs = s.msgs := rfl
@[simp] theorem advance_stcs (s : State) : (s.advance).stcs = s.stcs := rfl
@[simp] theorem advance_tlb (s : State) : (s.advance).tlb = s.tlb := rfl
@[simp] theorem advance_dropped (s : State) : (s.advance).dropped = s.dropped := rfl
@[simp] theorem advance_parks (s : State) : (s.advance).parks = s.parks := rfl
@[simp] theorem advance_refused (s : State) : (s.advance).refused = s.refused := rfl
@[simp] theorem advance_launches (s : State) : (s.advance).launches = s.launches := rfl
@[simp] theorem advance_experts (s : State) : (s.advance).experts = s.experts := rfl
@[simp] theorem advance_cmds (s : State) : (s.advance).cmds = s.cmds := rfl
@[simp] theorem advance_jobs (s : State) : (s.advance).jobs = s.jobs := rfl
@[simp] theorem advance_foreign (s : State) : (s.advance).foreign = s.foreign := rfl
@[simp] theorem advance_trapArea (s : State) : (s.advance).trapArea = s.trapArea := rfl
@[simp] theorem advance_trapPc (s : State) : (s.advance).trapPc = s.trapPc := rfl

/-! ### setChunk -/

@[simp] theorem setChunk_tick (s : State) (f : Chunk → Chunk) : (s.setChunk f).tick = s.tick := rfl
@[simp] theorem setChunk_time (s : State) (f : Chunk → Chunk) : (s.setChunk f).time = s.time := rfl
@[simp] theorem setChunk_cur (s : State) (f : Chunk → Chunk) : (s.setChunk f).cur = s.cur := rfl
@[simp] theorem setChunk_turns (s : State) (f : Chunk → Chunk) : (s.setChunk f).turns = s.turns := rfl
@[simp] theorem setChunk_due (s : State) (f : Chunk → Chunk) : (s.setChunk f).due = s.due := rfl
@[simp] theorem setChunk_nextId (s : State) (f : Chunk → Chunk) : (s.setChunk f).nextId = s.nextId := rfl
@[simp] theorem setChunk_mem (s : State) (f : Chunk → Chunk) : (s.setChunk f).mem = s.mem := rfl
@[simp] theorem setChunk_banks (s : State) (f : Chunk → Chunk) : (s.setChunk f).banks = s.banks := rfl
@[simp] theorem setChunk_cores (s : State) (f : Chunk → Chunk) : (s.setChunk f).cores = s.cores := rfl
@[simp] theorem setChunk_clusters (s : State) (f : Chunk → Chunk) : (s.setChunk f).clusters = s.clusters := rfl
@[simp] theorem setChunk_dies (s : State) (f : Chunk → Chunk) : (s.setChunk f).dies = s.dies := rfl
@[simp] theorem setChunk_pkgs (s : State) (f : Chunk → Chunk) : (s.setChunk f).pkgs = s.pkgs := rfl
@[simp] theorem setChunk_dir (s : State) (f : Chunk → Chunk) : (s.setChunk f).dir = s.dir := rfl
@[simp] theorem setChunk_net (s : State) (f : Chunk → Chunk) : (s.setChunk f).net = s.net := rfl
@[simp] theorem setChunk_msgs (s : State) (f : Chunk → Chunk) : (s.setChunk f).msgs = s.msgs := rfl
@[simp] theorem setChunk_stcs (s : State) (f : Chunk → Chunk) : (s.setChunk f).stcs = s.stcs := rfl
@[simp] theorem setChunk_tlb (s : State) (f : Chunk → Chunk) : (s.setChunk f).tlb = s.tlb := rfl
@[simp] theorem setChunk_dropped (s : State) (f : Chunk → Chunk) : (s.setChunk f).dropped = s.dropped := rfl
@[simp] theorem setChunk_parks (s : State) (f : Chunk → Chunk) : (s.setChunk f).parks = s.parks := rfl
@[simp] theorem setChunk_refused (s : State) (f : Chunk → Chunk) : (s.setChunk f).refused = s.refused := rfl
@[simp] theorem setChunk_launches (s : State) (f : Chunk → Chunk) : (s.setChunk f).launches = s.launches := rfl
@[simp] theorem setChunk_experts (s : State) (f : Chunk → Chunk) : (s.setChunk f).experts = s.experts := rfl
@[simp] theorem setChunk_cmds (s : State) (f : Chunk → Chunk) : (s.setChunk f).cmds = s.cmds := rfl
@[simp] theorem setChunk_jobs (s : State) (f : Chunk → Chunk) : (s.setChunk f).jobs = s.jobs := rfl
@[simp] theorem setChunk_foreign (s : State) (f : Chunk → Chunk) : (s.setChunk f).foreign = s.foreign := rfl
@[simp] theorem setChunk_trapArea (s : State) (f : Chunk → Chunk) : (s.setChunk f).trapArea = s.trapArea := rfl
@[simp] theorem setChunk_trapPc (s : State) (f : Chunk → Chunk) : (s.setChunk f).trapPc = s.trapPc := rfl

/-! ### setChunkOf -/

@[simp] theorem setChunkOf_tick (s : State) (k id : Nat) (f : Chunk → Chunk) : (s.setChunkOf k id f).tick = s.tick := rfl
@[simp] theorem setChunkOf_time (s : State) (k id : Nat) (f : Chunk → Chunk) : (s.setChunkOf k id f).time = s.time := rfl
@[simp] theorem setChunkOf_cur (s : State) (k id : Nat) (f : Chunk → Chunk) : (s.setChunkOf k id f).cur = s.cur := rfl
@[simp] theorem setChunkOf_turns (s : State) (k id : Nat) (f : Chunk → Chunk) : (s.setChunkOf k id f).turns = s.turns := rfl
@[simp] theorem setChunkOf_due (s : State) (k id : Nat) (f : Chunk → Chunk) : (s.setChunkOf k id f).due = s.due := rfl
@[simp] theorem setChunkOf_nextId (s : State) (k id : Nat) (f : Chunk → Chunk) : (s.setChunkOf k id f).nextId = s.nextId := rfl
@[simp] theorem setChunkOf_mem (s : State) (k id : Nat) (f : Chunk → Chunk) : (s.setChunkOf k id f).mem = s.mem := rfl
@[simp] theorem setChunkOf_banks (s : State) (k id : Nat) (f : Chunk → Chunk) : (s.setChunkOf k id f).banks = s.banks := rfl
@[simp] theorem setChunkOf_cores (s : State) (k id : Nat) (f : Chunk → Chunk) : (s.setChunkOf k id f).cores = s.cores := rfl
@[simp] theorem setChunkOf_clusters (s : State) (k id : Nat) (f : Chunk → Chunk) : (s.setChunkOf k id f).clusters = s.clusters := rfl
@[simp] theorem setChunkOf_dies (s : State) (k id : Nat) (f : Chunk → Chunk) : (s.setChunkOf k id f).dies = s.dies := rfl
@[simp] theorem setChunkOf_pkgs (s : State) (k id : Nat) (f : Chunk → Chunk) : (s.setChunkOf k id f).pkgs = s.pkgs := rfl
@[simp] theorem setChunkOf_dir (s : State) (k id : Nat) (f : Chunk → Chunk) : (s.setChunkOf k id f).dir = s.dir := rfl
@[simp] theorem setChunkOf_net (s : State) (k id : Nat) (f : Chunk → Chunk) : (s.setChunkOf k id f).net = s.net := rfl
@[simp] theorem setChunkOf_msgs (s : State) (k id : Nat) (f : Chunk → Chunk) : (s.setChunkOf k id f).msgs = s.msgs := rfl
@[simp] theorem setChunkOf_stcs (s : State) (k id : Nat) (f : Chunk → Chunk) : (s.setChunkOf k id f).stcs = s.stcs := rfl
@[simp] theorem setChunkOf_tlb (s : State) (k id : Nat) (f : Chunk → Chunk) : (s.setChunkOf k id f).tlb = s.tlb := rfl
@[simp] theorem setChunkOf_dropped (s : State) (k id : Nat) (f : Chunk → Chunk) : (s.setChunkOf k id f).dropped = s.dropped := rfl
@[simp] theorem setChunkOf_parks (s : State) (k id : Nat) (f : Chunk → Chunk) : (s.setChunkOf k id f).parks = s.parks := rfl
@[simp] theorem setChunkOf_refused (s : State) (k id : Nat) (f : Chunk → Chunk) : (s.setChunkOf k id f).refused = s.refused := rfl
@[simp] theorem setChunkOf_launches (s : State) (k id : Nat) (f : Chunk → Chunk) : (s.setChunkOf k id f).launches = s.launches := rfl
@[simp] theorem setChunkOf_experts (s : State) (k id : Nat) (f : Chunk → Chunk) : (s.setChunkOf k id f).experts = s.experts := rfl
@[simp] theorem setChunkOf_cmds (s : State) (k id : Nat) (f : Chunk → Chunk) : (s.setChunkOf k id f).cmds = s.cmds := rfl
@[simp] theorem setChunkOf_jobs (s : State) (k id : Nat) (f : Chunk → Chunk) : (s.setChunkOf k id f).jobs = s.jobs := rfl
@[simp] theorem setChunkOf_foreign (s : State) (k id : Nat) (f : Chunk → Chunk) : (s.setChunkOf k id f).foreign = s.foreign := rfl
@[simp] theorem setChunkOf_trapArea (s : State) (k id : Nat) (f : Chunk → Chunk) : (s.setChunkOf k id f).trapArea = s.trapArea := rfl
@[simp] theorem setChunkOf_trapPc (s : State) (k id : Nat) (f : Chunk → Chunk) : (s.setChunkOf k id f).trapPc = s.trapPc := rfl

/-! ### hold -/

@[simp] theorem hold_tick (s : State) (h : Held) : (s.hold h).tick = s.tick := rfl
@[simp] theorem hold_time (s : State) (h : Held) : (s.hold h).time = s.time := rfl
@[simp] theorem hold_cur (s : State) (h : Held) : (s.hold h).cur = s.cur := rfl
@[simp] theorem hold_turns (s : State) (h : Held) : (s.hold h).turns = s.turns := rfl
@[simp] theorem hold_due (s : State) (h : Held) : (s.hold h).due = s.due := rfl
@[simp] theorem hold_nextId (s : State) (h : Held) : (s.hold h).nextId = s.nextId := rfl
@[simp] theorem hold_mem (s : State) (h : Held) : (s.hold h).mem = s.mem := rfl
@[simp] theorem hold_banks (s : State) (h : Held) : (s.hold h).banks = s.banks := rfl
@[simp] theorem hold_cores (s : State) (h : Held) : (s.hold h).cores = s.cores := rfl
@[simp] theorem hold_clusters (s : State) (h : Held) : (s.hold h).clusters = s.clusters := rfl
@[simp] theorem hold_dies (s : State) (h : Held) : (s.hold h).dies = s.dies := rfl
@[simp] theorem hold_pkgs (s : State) (h : Held) : (s.hold h).pkgs = s.pkgs := rfl
@[simp] theorem hold_dir (s : State) (h : Held) : (s.hold h).dir = s.dir := rfl
@[simp] theorem hold_net (s : State) (h : Held) : (s.hold h).net = s.net := rfl
@[simp] theorem hold_msgs (s : State) (h : Held) : (s.hold h).msgs = s.msgs := rfl
@[simp] theorem hold_stcs (s : State) (h : Held) : (s.hold h).stcs = s.stcs := rfl
@[simp] theorem hold_tlb (s : State) (h : Held) : (s.hold h).tlb = s.tlb := rfl
@[simp] theorem hold_dropped (s : State) (h : Held) : (s.hold h).dropped = s.dropped := rfl
@[simp] theorem hold_parks (s : State) (h : Held) : (s.hold h).parks = s.parks := rfl
@[simp] theorem hold_refused (s : State) (h : Held) : (s.hold h).refused = s.refused := rfl
@[simp] theorem hold_launches (s : State) (h : Held) : (s.hold h).launches = s.launches := rfl
@[simp] theorem hold_experts (s : State) (h : Held) : (s.hold h).experts = s.experts := rfl
@[simp] theorem hold_cmds (s : State) (h : Held) : (s.hold h).cmds = s.cmds := rfl
@[simp] theorem hold_jobs (s : State) (h : Held) : (s.hold h).jobs = s.jobs := rfl
@[simp] theorem hold_foreign (s : State) (h : Held) : (s.hold h).foreign = s.foreign := rfl
@[simp] theorem hold_trapArea (s : State) (h : Held) : (s.hold h).trapArea = s.trapArea := rfl
@[simp] theorem hold_trapPc (s : State) (h : Held) : (s.hold h).trapPc = s.trapPc := rfl

/-! ### retire -/

@[simp] theorem retire_tick (s : State) : (s.retire).tick = s.tick := rfl
@[simp] theorem retire_time (s : State) : (s.retire).time = s.time := rfl
@[simp] theorem retire_cur (s : State) : (s.retire).cur = s.cur := rfl
@[simp] theorem retire_turns (s : State) : (s.retire).turns = s.turns := rfl
@[simp] theorem retire_due (s : State) : (s.retire).due = s.due := rfl
@[simp] theorem retire_nextId (s : State) : (s.retire).nextId = s.nextId := rfl
@[simp] theorem retire_mem (s : State) : (s.retire).mem = s.mem := rfl
@[simp] theorem retire_banks (s : State) : (s.retire).banks = s.banks := rfl
@[simp] theorem retire_cores (s : State) : (s.retire).cores = s.cores := rfl
@[simp] theorem retire_clusters (s : State) : (s.retire).clusters = s.clusters := rfl
@[simp] theorem retire_dies (s : State) : (s.retire).dies = s.dies := rfl
@[simp] theorem retire_pkgs (s : State) : (s.retire).pkgs = s.pkgs := rfl
@[simp] theorem retire_dir (s : State) : (s.retire).dir = s.dir := rfl
@[simp] theorem retire_net (s : State) : (s.retire).net = s.net := rfl
@[simp] theorem retire_msgs (s : State) : (s.retire).msgs = s.msgs := rfl
@[simp] theorem retire_stcs (s : State) : (s.retire).stcs = s.stcs := rfl
@[simp] theorem retire_tlb (s : State) : (s.retire).tlb = s.tlb := rfl
@[simp] theorem retire_dropped (s : State) : (s.retire).dropped = s.dropped := rfl
@[simp] theorem retire_parks (s : State) : (s.retire).parks = s.parks := rfl
@[simp] theorem retire_refused (s : State) : (s.retire).refused = s.refused := rfl
@[simp] theorem retire_launches (s : State) : (s.retire).launches = s.launches := rfl
@[simp] theorem retire_experts (s : State) : (s.retire).experts = s.experts := rfl
@[simp] theorem retire_cmds (s : State) : (s.retire).cmds = s.cmds := rfl
@[simp] theorem retire_jobs (s : State) : (s.retire).jobs = s.jobs := rfl
@[simp] theorem retire_foreign (s : State) : (s.retire).foreign = s.foreign := rfl
@[simp] theorem retire_trapArea (s : State) : (s.retire).trapArea = s.trapArea := rfl
@[simp] theorem retire_trapPc (s : State) : (s.retire).trapPc = s.trapPc := rfl

/-! ### issueOp -/

@[simp] theorem issueOp_tick (s : State) (rs : List Nat) (op : OutOp) : (s.issueOp rs op).tick = s.tick := rfl
@[simp] theorem issueOp_time (s : State) (rs : List Nat) (op : OutOp) : (s.issueOp rs op).time = s.time := rfl
@[simp] theorem issueOp_cur (s : State) (rs : List Nat) (op : OutOp) : (s.issueOp rs op).cur = s.cur := rfl
@[simp] theorem issueOp_turns (s : State) (rs : List Nat) (op : OutOp) : (s.issueOp rs op).turns = s.turns := rfl
@[simp] theorem issueOp_due (s : State) (rs : List Nat) (op : OutOp) : (s.issueOp rs op).due = s.due := rfl
@[simp] theorem issueOp_nextId (s : State) (rs : List Nat) (op : OutOp) : (s.issueOp rs op).nextId = s.nextId := rfl
@[simp] theorem issueOp_mem (s : State) (rs : List Nat) (op : OutOp) : (s.issueOp rs op).mem = s.mem := rfl
@[simp] theorem issueOp_banks (s : State) (rs : List Nat) (op : OutOp) : (s.issueOp rs op).banks = s.banks := rfl
@[simp] theorem issueOp_cores (s : State) (rs : List Nat) (op : OutOp) : (s.issueOp rs op).cores = s.cores := rfl
@[simp] theorem issueOp_clusters (s : State) (rs : List Nat) (op : OutOp) : (s.issueOp rs op).clusters = s.clusters := rfl
@[simp] theorem issueOp_dies (s : State) (rs : List Nat) (op : OutOp) : (s.issueOp rs op).dies = s.dies := rfl
@[simp] theorem issueOp_pkgs (s : State) (rs : List Nat) (op : OutOp) : (s.issueOp rs op).pkgs = s.pkgs := rfl
@[simp] theorem issueOp_dir (s : State) (rs : List Nat) (op : OutOp) : (s.issueOp rs op).dir = s.dir := rfl
@[simp] theorem issueOp_net (s : State) (rs : List Nat) (op : OutOp) : (s.issueOp rs op).net = s.net := rfl
@[simp] theorem issueOp_msgs (s : State) (rs : List Nat) (op : OutOp) : (s.issueOp rs op).msgs = s.msgs := rfl
@[simp] theorem issueOp_stcs (s : State) (rs : List Nat) (op : OutOp) : (s.issueOp rs op).stcs = s.stcs := rfl
@[simp] theorem issueOp_tlb (s : State) (rs : List Nat) (op : OutOp) : (s.issueOp rs op).tlb = s.tlb := rfl
@[simp] theorem issueOp_dropped (s : State) (rs : List Nat) (op : OutOp) : (s.issueOp rs op).dropped = s.dropped := rfl
@[simp] theorem issueOp_parks (s : State) (rs : List Nat) (op : OutOp) : (s.issueOp rs op).parks = s.parks := rfl
@[simp] theorem issueOp_refused (s : State) (rs : List Nat) (op : OutOp) : (s.issueOp rs op).refused = s.refused := rfl
@[simp] theorem issueOp_launches (s : State) (rs : List Nat) (op : OutOp) : (s.issueOp rs op).launches = s.launches := rfl
@[simp] theorem issueOp_experts (s : State) (rs : List Nat) (op : OutOp) : (s.issueOp rs op).experts = s.experts := rfl
@[simp] theorem issueOp_cmds (s : State) (rs : List Nat) (op : OutOp) : (s.issueOp rs op).cmds = s.cmds := rfl
@[simp] theorem issueOp_jobs (s : State) (rs : List Nat) (op : OutOp) : (s.issueOp rs op).jobs = s.jobs := rfl
@[simp] theorem issueOp_foreign (s : State) (rs : List Nat) (op : OutOp) : (s.issueOp rs op).foreign = s.foreign := rfl
@[simp] theorem issueOp_trapArea (s : State) (rs : List Nat) (op : OutOp) : (s.issueOp rs op).trapArea = s.trapArea := rfl
@[simp] theorem issueOp_trapPc (s : State) (rs : List Nat) (op : OutOp) : (s.issueOp rs op).trapPc = s.trapPc := rfl

/-! ### openChunk -/

@[simp] theorem openChunk_tick (s : State) : (s.openChunk).tick = s.tick := by
  unfold State.openChunk; split <;> rfl
@[simp] theorem openChunk_time (s : State) : (s.openChunk).time = s.time := by
  unfold State.openChunk; split <;> rfl
@[simp] theorem openChunk_cur (s : State) : (s.openChunk).cur = s.cur := by
  unfold State.openChunk; split <;> rfl
@[simp] theorem openChunk_turns (s : State) : (s.openChunk).turns = s.turns := by
  unfold State.openChunk; split <;> rfl
@[simp] theorem openChunk_due (s : State) : (s.openChunk).due = s.due := by
  unfold State.openChunk; split <;> rfl
@[simp] theorem openChunk_mem (s : State) : (s.openChunk).mem = s.mem := by
  unfold State.openChunk; split <;> rfl
@[simp] theorem openChunk_banks (s : State) : (s.openChunk).banks = s.banks := by
  unfold State.openChunk; split <;> rfl
@[simp] theorem openChunk_cores (s : State) : (s.openChunk).cores = s.cores := by
  unfold State.openChunk; split <;> rfl
@[simp] theorem openChunk_clusters (s : State) : (s.openChunk).clusters = s.clusters := by
  unfold State.openChunk; split <;> rfl
@[simp] theorem openChunk_dies (s : State) : (s.openChunk).dies = s.dies := by
  unfold State.openChunk; split <;> rfl
@[simp] theorem openChunk_pkgs (s : State) : (s.openChunk).pkgs = s.pkgs := by
  unfold State.openChunk; split <;> rfl
@[simp] theorem openChunk_dir (s : State) : (s.openChunk).dir = s.dir := by
  unfold State.openChunk; split <;> rfl
@[simp] theorem openChunk_net (s : State) : (s.openChunk).net = s.net := by
  unfold State.openChunk; split <;> rfl
@[simp] theorem openChunk_msgs (s : State) : (s.openChunk).msgs = s.msgs := by
  unfold State.openChunk; split <;> rfl
@[simp] theorem openChunk_stcs (s : State) : (s.openChunk).stcs = s.stcs := by
  unfold State.openChunk; split <;> rfl
@[simp] theorem openChunk_tlb (s : State) : (s.openChunk).tlb = s.tlb := by
  unfold State.openChunk; split <;> rfl
@[simp] theorem openChunk_dropped (s : State) : (s.openChunk).dropped = s.dropped := by
  unfold State.openChunk; split <;> rfl
@[simp] theorem openChunk_parks (s : State) : (s.openChunk).parks = s.parks := by
  unfold State.openChunk; split <;> rfl
@[simp] theorem openChunk_refused (s : State) : (s.openChunk).refused = s.refused := by
  unfold State.openChunk; split <;> rfl
@[simp] theorem openChunk_launches (s : State) : (s.openChunk).launches = s.launches := by
  unfold State.openChunk; split <;> rfl
@[simp] theorem openChunk_experts (s : State) : (s.openChunk).experts = s.experts := by
  unfold State.openChunk; split <;> rfl
@[simp] theorem openChunk_cmds (s : State) : (s.openChunk).cmds = s.cmds := by
  unfold State.openChunk; split <;> rfl
@[simp] theorem openChunk_jobs (s : State) : (s.openChunk).jobs = s.jobs := by
  unfold State.openChunk; split <;> rfl
@[simp] theorem openChunk_foreign (s : State) : (s.openChunk).foreign = s.foreign := by
  unfold State.openChunk; split <;> rfl
@[simp] theorem openChunk_trapArea (s : State) : (s.openChunk).trapArea = s.trapArea := by
  unfold State.openChunk; split <;> rfl
@[simp] theorem openChunk_trapPc (s : State) : (s.openChunk).trapPc = s.trapPc := by
  unfold State.openChunk; split <;> rfl

/-! ### setLaunch -/

@[simp] theorem setLaunch_tick (s : State) (k : Nat) (f : Launch → Launch) : (s.setLaunch k f).tick = s.tick := by
  unfold State.setLaunch; split <;> rfl
@[simp] theorem setLaunch_time (s : State) (k : Nat) (f : Launch → Launch) : (s.setLaunch k f).time = s.time := by
  unfold State.setLaunch; split <;> rfl
@[simp] theorem setLaunch_cur (s : State) (k : Nat) (f : Launch → Launch) : (s.setLaunch k f).cur = s.cur := by
  unfold State.setLaunch; split <;> rfl
@[simp] theorem setLaunch_turns (s : State) (k : Nat) (f : Launch → Launch) : (s.setLaunch k f).turns = s.turns := by
  unfold State.setLaunch; split <;> rfl
@[simp] theorem setLaunch_due (s : State) (k : Nat) (f : Launch → Launch) : (s.setLaunch k f).due = s.due := by
  unfold State.setLaunch; split <;> rfl
@[simp] theorem setLaunch_nextId (s : State) (k : Nat) (f : Launch → Launch) : (s.setLaunch k f).nextId = s.nextId := by
  unfold State.setLaunch; split <;> rfl
@[simp] theorem setLaunch_mem (s : State) (k : Nat) (f : Launch → Launch) : (s.setLaunch k f).mem = s.mem := by
  unfold State.setLaunch; split <;> rfl
@[simp] theorem setLaunch_strands (s : State) (k : Nat) (f : Launch → Launch) : (s.setLaunch k f).strands = s.strands := by
  unfold State.setLaunch; split <;> rfl
@[simp] theorem setLaunch_banks (s : State) (k : Nat) (f : Launch → Launch) : (s.setLaunch k f).banks = s.banks := by
  unfold State.setLaunch; split <;> rfl
@[simp] theorem setLaunch_cores (s : State) (k : Nat) (f : Launch → Launch) : (s.setLaunch k f).cores = s.cores := by
  unfold State.setLaunch; split <;> rfl
@[simp] theorem setLaunch_clusters (s : State) (k : Nat) (f : Launch → Launch) : (s.setLaunch k f).clusters = s.clusters := by
  unfold State.setLaunch; split <;> rfl
@[simp] theorem setLaunch_dies (s : State) (k : Nat) (f : Launch → Launch) : (s.setLaunch k f).dies = s.dies := by
  unfold State.setLaunch; split <;> rfl
@[simp] theorem setLaunch_pkgs (s : State) (k : Nat) (f : Launch → Launch) : (s.setLaunch k f).pkgs = s.pkgs := by
  unfold State.setLaunch; split <;> rfl
@[simp] theorem setLaunch_dir (s : State) (k : Nat) (f : Launch → Launch) : (s.setLaunch k f).dir = s.dir := by
  unfold State.setLaunch; split <;> rfl
@[simp] theorem setLaunch_net (s : State) (k : Nat) (f : Launch → Launch) : (s.setLaunch k f).net = s.net := by
  unfold State.setLaunch; split <;> rfl
@[simp] theorem setLaunch_msgs (s : State) (k : Nat) (f : Launch → Launch) : (s.setLaunch k f).msgs = s.msgs := by
  unfold State.setLaunch; split <;> rfl
@[simp] theorem setLaunch_stcs (s : State) (k : Nat) (f : Launch → Launch) : (s.setLaunch k f).stcs = s.stcs := by
  unfold State.setLaunch; split <;> rfl
@[simp] theorem setLaunch_tlb (s : State) (k : Nat) (f : Launch → Launch) : (s.setLaunch k f).tlb = s.tlb := by
  unfold State.setLaunch; split <;> rfl
@[simp] theorem setLaunch_dropped (s : State) (k : Nat) (f : Launch → Launch) : (s.setLaunch k f).dropped = s.dropped := by
  unfold State.setLaunch; split <;> rfl
@[simp] theorem setLaunch_parks (s : State) (k : Nat) (f : Launch → Launch) : (s.setLaunch k f).parks = s.parks := by
  unfold State.setLaunch; split <;> rfl
@[simp] theorem setLaunch_refused (s : State) (k : Nat) (f : Launch → Launch) : (s.setLaunch k f).refused = s.refused := by
  unfold State.setLaunch; split <;> rfl
@[simp] theorem setLaunch_experts (s : State) (k : Nat) (f : Launch → Launch) : (s.setLaunch k f).experts = s.experts := by
  unfold State.setLaunch; split <;> rfl
@[simp] theorem setLaunch_cmds (s : State) (k : Nat) (f : Launch → Launch) : (s.setLaunch k f).cmds = s.cmds := by
  unfold State.setLaunch; split <;> rfl
@[simp] theorem setLaunch_jobs (s : State) (k : Nat) (f : Launch → Launch) : (s.setLaunch k f).jobs = s.jobs := by
  unfold State.setLaunch; split <;> rfl
@[simp] theorem setLaunch_foreign (s : State) (k : Nat) (f : Launch → Launch) : (s.setLaunch k f).foreign = s.foreign := by
  unfold State.setLaunch; split <;> rfl
@[simp] theorem setLaunch_trapArea (s : State) (k : Nat) (f : Launch → Launch) : (s.setLaunch k f).trapArea = s.trapArea := by
  unfold State.setLaunch; split <;> rfl
@[simp] theorem setLaunch_trapPc (s : State) (k : Nat) (f : Launch → Launch) : (s.setLaunch k f).trapPc = s.trapPc := by
  unfold State.setLaunch; split <;> rfl

/-! ### clearMarks -/

@[simp] theorem clearMarks_tick (s : State) (n : Nat) : (s.clearMarks n).tick = s.tick := by
  unfold State.clearMarks; split <;> rfl
@[simp] theorem clearMarks_time (s : State) (n : Nat) : (s.clearMarks n).time = s.time := by
  unfold State.clearMarks; split <;> rfl
@[simp] theorem clearMarks_cur (s : State) (n : Nat) : (s.clearMarks n).cur = s.cur := by
  unfold State.clearMarks; split <;> rfl
@[simp] theorem clearMarks_turns (s : State) (n : Nat) : (s.clearMarks n).turns = s.turns := by
  unfold State.clearMarks; split <;> rfl
@[simp] theorem clearMarks_due (s : State) (n : Nat) : (s.clearMarks n).due = s.due := by
  unfold State.clearMarks; split <;> rfl
@[simp] theorem clearMarks_nextId (s : State) (n : Nat) : (s.clearMarks n).nextId = s.nextId := by
  unfold State.clearMarks; split <;> rfl
@[simp] theorem clearMarks_mem (s : State) (n : Nat) : (s.clearMarks n).mem = s.mem := by
  unfold State.clearMarks; split <;> rfl
@[simp] theorem clearMarks_banks (s : State) (n : Nat) : (s.clearMarks n).banks = s.banks := by
  unfold State.clearMarks; split <;> rfl
@[simp] theorem clearMarks_cores (s : State) (n : Nat) : (s.clearMarks n).cores = s.cores := by
  unfold State.clearMarks; split <;> rfl
@[simp] theorem clearMarks_clusters (s : State) (n : Nat) : (s.clearMarks n).clusters = s.clusters := by
  unfold State.clearMarks; split <;> rfl
@[simp] theorem clearMarks_dies (s : State) (n : Nat) : (s.clearMarks n).dies = s.dies := by
  unfold State.clearMarks; split <;> rfl
@[simp] theorem clearMarks_pkgs (s : State) (n : Nat) : (s.clearMarks n).pkgs = s.pkgs := by
  unfold State.clearMarks; split <;> rfl
@[simp] theorem clearMarks_dir (s : State) (n : Nat) : (s.clearMarks n).dir = s.dir := by
  unfold State.clearMarks; split <;> rfl
@[simp] theorem clearMarks_net (s : State) (n : Nat) : (s.clearMarks n).net = s.net := by
  unfold State.clearMarks; split <;> rfl
@[simp] theorem clearMarks_msgs (s : State) (n : Nat) : (s.clearMarks n).msgs = s.msgs := by
  unfold State.clearMarks; split <;> rfl
@[simp] theorem clearMarks_stcs (s : State) (n : Nat) : (s.clearMarks n).stcs = s.stcs := by
  unfold State.clearMarks; split <;> rfl
@[simp] theorem clearMarks_tlb (s : State) (n : Nat) : (s.clearMarks n).tlb = s.tlb := by
  unfold State.clearMarks; split <;> rfl
@[simp] theorem clearMarks_dropped (s : State) (n : Nat) : (s.clearMarks n).dropped = s.dropped := by
  unfold State.clearMarks; split <;> rfl
@[simp] theorem clearMarks_parks (s : State) (n : Nat) : (s.clearMarks n).parks = s.parks := by
  unfold State.clearMarks; split <;> rfl
@[simp] theorem clearMarks_refused (s : State) (n : Nat) : (s.clearMarks n).refused = s.refused := by
  unfold State.clearMarks; split <;> rfl
@[simp] theorem clearMarks_launches (s : State) (n : Nat) : (s.clearMarks n).launches = s.launches := by
  unfold State.clearMarks; split <;> rfl
@[simp] theorem clearMarks_experts (s : State) (n : Nat) : (s.clearMarks n).experts = s.experts := by
  unfold State.clearMarks; split <;> rfl
@[simp] theorem clearMarks_cmds (s : State) (n : Nat) : (s.clearMarks n).cmds = s.cmds := by
  unfold State.clearMarks; split <;> rfl
@[simp] theorem clearMarks_jobs (s : State) (n : Nat) : (s.clearMarks n).jobs = s.jobs := by
  unfold State.clearMarks; split <;> rfl
@[simp] theorem clearMarks_foreign (s : State) (n : Nat) : (s.clearMarks n).foreign = s.foreign := by
  unfold State.clearMarks; split <;> rfl
@[simp] theorem clearMarks_trapArea (s : State) (n : Nat) : (s.clearMarks n).trapArea = s.trapArea := by
  unfold State.clearMarks; split <;> rfl
@[simp] theorem clearMarks_trapPc (s : State) (n : Nat) : (s.clearMarks n).trapPc = s.trapPc := by
  unfold State.clearMarks; split <;> rfl

/-! ### What a changed part is -/

@[simp] theorem strand_setStrand (s : State) (k : Nat) (f : Strand → Strand) : (s.setStrand k f).strand k = f (s.strand k) :=
  tget_tset_self _ s.strands k _

theorem strand_setStrand_ne (s : State) (f : Strand → Strand) {j k : Nat} (h : j ≠ k) : (s.setStrand k f).strand j = s.strand j :=
  tget_tset_ne _ s.strands _ h

@[simp] theorem bank_setBank (s : State) (k : Nat) (f : Bank → Bank) : (s.setBank k f).bank k = f (s.bank k) :=
  tget_tset_self _ s.banks k _

theorem bank_setBank_ne (s : State) (f : Bank → Bank) {j k : Nat} (h : j ≠ k) : (s.setBank k f).bank j = s.bank j :=
  tget_tset_ne _ s.banks _ h

@[simp] theorem core_setCore (s : State) (k : Nat) (f : Core → Core) : (s.setCore k f).core k = f (s.core k) :=
  tget_tset_self _ s.cores k _

theorem core_setCore_ne (s : State) (f : Core → Core) {j k : Nat} (h : j ≠ k) : (s.setCore k f).core j = s.core j :=
  tget_tset_ne _ s.cores _ h

@[simp] theorem cluster_setCluster (s : State) (k : Nat) (f : Cluster → Cluster) : (s.setCluster k f).cluster k = f (s.cluster k) :=
  tget_tset_self _ s.clusters k _

theorem cluster_setCluster_ne (s : State) (f : Cluster → Cluster) {j k : Nat} (h : j ≠ k) : (s.setCluster k f).cluster j = s.cluster j :=
  tget_tset_ne _ s.clusters _ h

@[simp] theorem die_setDie (s : State) (k : Nat) (f : Die → Die) : (s.setDie k f).die k = f (s.die k) :=
  tget_tset_self _ s.dies k _

theorem die_setDie_ne (s : State) (f : Die → Die) {j k : Nat} (h : j ≠ k) : (s.setDie k f).die j = s.die j :=
  tget_tset_ne _ s.dies _ h

@[simp] theorem pkg_setPkg (s : State) (k : Nat) (f : Pkg → Pkg) : (s.setPkg k f).pkg k = f (s.pkg k) :=
  tget_tset_self _ s.pkgs k _

theorem pkg_setPkg_ne (s : State) (f : Pkg → Pkg) {j k : Nat} (h : j ≠ k) : (s.setPkg k f).pkg j = s.pkg j :=
  tget_tset_ne _ s.pkgs _ h

@[simp] theorem entry_setEntry (s : State) (k : Nat) (f : DirEntry → DirEntry) : (s.setEntry k f).entry k = f (s.entry k) :=
  tget_tset_self _ s.dir k _

theorem entry_setEntry_ne (s : State) (f : DirEntry → DirEntry) {j k : Nat} (h : j ≠ k) : (s.setEntry k f).entry j = s.entry j :=
  tget_tset_ne _ s.dir _ h

@[simp] theorem strand_setBank (s : State) (j k : Nat) (f : Bank → Bank) : (s.setBank k f).strand j = s.strand j := rfl
@[simp] theorem strand_setCore (s : State) (j k : Nat) (f : Core → Core) : (s.setCore k f).strand j = s.strand j := rfl
@[simp] theorem strand_setCluster (s : State) (j k : Nat) (f : Cluster → Cluster) : (s.setCluster k f).strand j = s.strand j := rfl
@[simp] theorem strand_setDie (s : State) (j k : Nat) (f : Die → Die) : (s.setDie k f).strand j = s.strand j := rfl
@[simp] theorem strand_setPkg (s : State) (j k : Nat) (f : Pkg → Pkg) : (s.setPkg k f).strand j = s.strand j := rfl
@[simp] theorem strand_setEntry (s : State) (j k : Nat) (f : DirEntry → DirEntry) : (s.setEntry k f).strand j = s.strand j := rfl
@[simp] theorem bank_setStrand (s : State) (j k : Nat) (f : Strand → Strand) : (s.setStrand k f).bank j = s.bank j := rfl
@[simp] theorem bank_setCore (s : State) (j k : Nat) (f : Core → Core) : (s.setCore k f).bank j = s.bank j := rfl
@[simp] theorem bank_setCluster (s : State) (j k : Nat) (f : Cluster → Cluster) : (s.setCluster k f).bank j = s.bank j := rfl
@[simp] theorem bank_setDie (s : State) (j k : Nat) (f : Die → Die) : (s.setDie k f).bank j = s.bank j := rfl
@[simp] theorem bank_setPkg (s : State) (j k : Nat) (f : Pkg → Pkg) : (s.setPkg k f).bank j = s.bank j := rfl
@[simp] theorem bank_setEntry (s : State) (j k : Nat) (f : DirEntry → DirEntry) : (s.setEntry k f).bank j = s.bank j := rfl
@[simp] theorem core_setStrand (s : State) (j k : Nat) (f : Strand → Strand) : (s.setStrand k f).core j = s.core j := rfl
@[simp] theorem core_setBank (s : State) (j k : Nat) (f : Bank → Bank) : (s.setBank k f).core j = s.core j := rfl
@[simp] theorem core_setCluster (s : State) (j k : Nat) (f : Cluster → Cluster) : (s.setCluster k f).core j = s.core j := rfl
@[simp] theorem core_setDie (s : State) (j k : Nat) (f : Die → Die) : (s.setDie k f).core j = s.core j := rfl
@[simp] theorem core_setPkg (s : State) (j k : Nat) (f : Pkg → Pkg) : (s.setPkg k f).core j = s.core j := rfl
@[simp] theorem core_setEntry (s : State) (j k : Nat) (f : DirEntry → DirEntry) : (s.setEntry k f).core j = s.core j := rfl
@[simp] theorem cluster_setStrand (s : State) (j k : Nat) (f : Strand → Strand) : (s.setStrand k f).cluster j = s.cluster j := rfl
@[simp] theorem cluster_setBank (s : State) (j k : Nat) (f : Bank → Bank) : (s.setBank k f).cluster j = s.cluster j := rfl
@[simp] theorem cluster_setCore (s : State) (j k : Nat) (f : Core → Core) : (s.setCore k f).cluster j = s.cluster j := rfl
@[simp] theorem cluster_setDie (s : State) (j k : Nat) (f : Die → Die) : (s.setDie k f).cluster j = s.cluster j := rfl
@[simp] theorem cluster_setPkg (s : State) (j k : Nat) (f : Pkg → Pkg) : (s.setPkg k f).cluster j = s.cluster j := rfl
@[simp] theorem cluster_setEntry (s : State) (j k : Nat) (f : DirEntry → DirEntry) : (s.setEntry k f).cluster j = s.cluster j := rfl
@[simp] theorem die_setStrand (s : State) (j k : Nat) (f : Strand → Strand) : (s.setStrand k f).die j = s.die j := rfl
@[simp] theorem die_setBank (s : State) (j k : Nat) (f : Bank → Bank) : (s.setBank k f).die j = s.die j := rfl
@[simp] theorem die_setCore (s : State) (j k : Nat) (f : Core → Core) : (s.setCore k f).die j = s.die j := rfl
@[simp] theorem die_setCluster (s : State) (j k : Nat) (f : Cluster → Cluster) : (s.setCluster k f).die j = s.die j := rfl
@[simp] theorem die_setPkg (s : State) (j k : Nat) (f : Pkg → Pkg) : (s.setPkg k f).die j = s.die j := rfl
@[simp] theorem die_setEntry (s : State) (j k : Nat) (f : DirEntry → DirEntry) : (s.setEntry k f).die j = s.die j := rfl
@[simp] theorem pkg_setStrand (s : State) (j k : Nat) (f : Strand → Strand) : (s.setStrand k f).pkg j = s.pkg j := rfl
@[simp] theorem pkg_setBank (s : State) (j k : Nat) (f : Bank → Bank) : (s.setBank k f).pkg j = s.pkg j := rfl
@[simp] theorem pkg_setCore (s : State) (j k : Nat) (f : Core → Core) : (s.setCore k f).pkg j = s.pkg j := rfl
@[simp] theorem pkg_setCluster (s : State) (j k : Nat) (f : Cluster → Cluster) : (s.setCluster k f).pkg j = s.pkg j := rfl
@[simp] theorem pkg_setDie (s : State) (j k : Nat) (f : Die → Die) : (s.setDie k f).pkg j = s.pkg j := rfl
@[simp] theorem pkg_setEntry (s : State) (j k : Nat) (f : DirEntry → DirEntry) : (s.setEntry k f).pkg j = s.pkg j := rfl
@[simp] theorem entry_setStrand (s : State) (j k : Nat) (f : Strand → Strand) : (s.setStrand k f).entry j = s.entry j := rfl
@[simp] theorem entry_setBank (s : State) (j k : Nat) (f : Bank → Bank) : (s.setBank k f).entry j = s.entry j := rfl
@[simp] theorem entry_setCore (s : State) (j k : Nat) (f : Core → Core) : (s.setCore k f).entry j = s.entry j := rfl
@[simp] theorem entry_setCluster (s : State) (j k : Nat) (f : Cluster → Cluster) : (s.setCluster k f).entry j = s.entry j := rfl
@[simp] theorem entry_setDie (s : State) (j k : Nat) (f : Die → Die) : (s.setDie k f).entry j = s.entry j := rfl
@[simp] theorem entry_setPkg (s : State) (j k : Nat) (f : Pkg → Pkg) : (s.setPkg k f).entry j = s.entry j := rfl

end Sys2Proof.Machine
end

