-- ==== Sys2Proof/Laws/Strand.lean ====
section
/-!
SUPPORT. The acting strand after each operation on it, and the laws of its registers.
-/

namespace Sys2Proof.Machine

/-! ### The acting strand -/

@[simp] theorem strand_cur (s : State) : s.strand s.cur = s.me := rfl

@[simp] theorem me_setMe (s : State) (f : Strand → Strand) : (s.setMe f).me = f s.me := strand_setStrand s s.cur f

theorem strand_setMe_ne (s : State) (f : Strand → Strand) {k : Nat} (h : k ≠ s.cur) :
    (s.setMe f).strand k = s.strand k := strand_setStrand_ne s f h

@[simp] theorem me_setPc (s : State) (pc : Word) : (s.setPc pc).me = { s.me with pc := pc } := me_setMe s _

@[simp] theorem me_advance (s : State) : s.advance.me = { s.me with pc := nextPc s.me.pc } := me_setMe s _

@[simp] theorem me_setRegs (s : State) (f : Regs → Regs) : (s.setRegs f).me = { s.me with regs := f s.me.regs } :=
  me_setMe s _

@[simp] theorem me_writeS (s : State) (r : BitVec 6) (x : Word) :
    (s.writeS r x).me = { s.me with regs := s.me.regs.setS r.toNat x } := me_setMe s _

@[simp] theorem me_writeF (s : State) (r : BitVec 6) (x : Word) :
    (s.writeF r x).me = { s.me with regs := s.me.regs.setF r.toNat x } := me_setMe s _

@[simp] theorem me_writeP (s : State) (r : BitVec 6) (x : Lane) :
    (s.writeP r x).me = { s.me with regs := s.me.regs.setP r.toNat x } := me_setMe s _

@[simp] theorem me_setChunk (s : State) (f : Chunk → Chunk) : (s.setChunk f).me = s.me.setLive f := me_setMe s _

@[simp] theorem me_retire (s : State) : s.retire.me = s.me.setLive fun c => { c with count := c.count + 1 } := me_setMe s _

@[simp] theorem me_hold (s : State) (h : Held) : (s.hold h).me = s.me.setLive fun c => { c with held := c.held ++ [h] } :=
  me_setMe s _

/-! ### The live chunk of a strand -/

/-- Changing the live chunk changes nothing else of the strand. -/
theorem setLive_eq (t : Strand) (f : Chunk → Chunk) : t.setLive f = { t with chunks := (t.setLive f).chunks } := by
  unfold Strand.setLive
  cases t.chunks with
  | nil => rfl
  | cons c cs => simp only; split <;> rfl

@[simp] theorem setLive_pc (t : Strand) (f : Chunk → Chunk) : (t.setLive f).pc = t.pc := by rw [setLive_eq]

@[simp] theorem setLive_regs (t : Strand) (f : Chunk → Chunk) : (t.setLive f).regs = t.regs := by rw [setLive_eq]

@[simp] theorem setLive_q (t : Strand) (f : Chunk → Chunk) : (t.setLive f).q = t.q := by rw [setLive_eq]

@[simp] theorem setLive_brpc (t : Strand) (f : Chunk → Chunk) : (t.setLive f).brpc = t.brpc := by rw [setLive_eq]

@[simp] theorem setLive_sv (t : Strand) (f : Chunk → Chunk) : (t.setLive f).sv = t.sv := by rw [setLive_eq]

@[simp] theorem setLive_marks (t : Strand) (f : Chunk → Chunk) : (t.setLive f).marks = t.marks := by rw [setLive_eq]

@[simp] theorem setLive_run (t : Strand) (f : Chunk → Chunk) : (t.setLive f).run = t.run := by rw [setLive_eq]

/-- The changed live chunk, where the change does not seal it. -/
theorem live_setLive (t : Strand) (f : Chunk → Chunk) (hf : ∀ c, (f c).sealed = c.sealed) :
    (t.setLive f).live = t.live.map f := by
  unfold Strand.setLive Strand.live
  cases h : t.chunks with
  | nil => simp [h]
  | cons c cs =>
    by_cases hs : c.sealed
    · simp [h, hs]
    · simp [hf, hs]

/-- The chunks behind the live one do not change with it. -/
theorem drop_setLive (t : Strand) (f : Chunk → Chunk) : (t.setLive f).chunks.drop 1 = t.chunks.drop 1 := by
  unfold Strand.setLive
  cases h : t.chunks with
  | nil => simp [h]
  | cons c cs => simp only; split <;> simp [h]

/-- After a chunk is opened there is a live chunk. -/
theorem openChunk_live (s : State) : ∃ c, s.openChunk.me.live = some c := by
  unfold State.openChunk
  split
  · next c h => exact ⟨c, h⟩
  · refine ⟨s.me.newChunk s.nextId, ?_⟩
    have : State.me { s.setMe fun t => { t with chunks := t.newChunk s.nextId :: t.chunks } with nextId := s.nextId + 1 } =
        { s.me with chunks := s.me.newChunk s.nextId :: s.me.chunks } :=
      me_setMe s fun t => { t with chunks := t.newChunk s.nextId :: t.chunks }
    rw [this]
    rfl

/-- Opening a chunk changes nothing of the strand but its list of chunks. -/
theorem openChunk_me (s : State) : s.openChunk.me = { s.me with chunks := s.openChunk.me.chunks } := by
  unfold State.openChunk
  split
  · rfl
  · have : State.me { s.setMe fun t => { t with chunks := t.newChunk s.nextId :: t.chunks } with nextId := s.nextId + 1 } =
        { s.me with chunks := s.me.newChunk s.nextId :: s.me.chunks } :=
      me_setMe s fun t => { t with chunks := t.newChunk s.nextId :: t.chunks }
    rw [this]

@[simp] theorem openChunk_pc (s : State) : s.openChunk.me.pc = s.me.pc := by rw [openChunk_me]

@[simp] theorem openChunk_regs (s : State) : s.openChunk.me.regs = s.me.regs := by rw [openChunk_me]

@[simp] theorem openChunk_q (s : State) : s.openChunk.me.q = s.me.q := by rw [openChunk_me]

@[simp] theorem openChunk_sv (s : State) : s.openChunk.me.sv = s.me.sv := by rw [openChunk_me]

@[simp] theorem openChunk_marks (s : State) : s.openChunk.me.marks = s.me.marks := by rw [openChunk_me]

@[simp] theorem openChunk_brpc (s : State) : s.openChunk.me.brpc = s.me.brpc := by rw [openChunk_me]

/-- Opening a chunk leaves the other strands alone. -/
theorem openChunk_strand_ne (s : State) {k : Nat} (h : k ≠ s.cur) : s.openChunk.strand k = s.strand k := by
  unfold State.openChunk
  split
  · rfl
  · exact strand_setStrand_ne s (fun t => { t with chunks := t.newChunk s.nextId :: t.chunks }) h

/-- Opening a chunk leaves everything but the strands and the number counter alone. -/
theorem openChunk_rest (s : State) : s.openChunk = { s with strands := s.openChunk.strands, nextId := s.openChunk.nextId } := by
  unfold State.openChunk; split <;> rfl

@[simp] theorem openChunk_s (s : State) (r : BitVec 6) : s.openChunk.s r = s.s r := by simp [State.s]

@[simp] theorem openChunk_f (s : State) (r : BitVec 6) : s.openChunk.f r = s.f r := by simp [State.f]

@[simp] theorem openChunk_pending (s : State) (r : Nat) : s.openChunk.me.pending r = s.me.pending r := by
  simp [Strand.pending]

@[simp] theorem openChunk_pending_fun (s : State) : s.openChunk.me.pending = s.me.pending := by
  funext r; exact openChunk_pending s r

@[simp] theorem openChunk_laneOn (s : State) (g : Guard) (i : Nat) : s.openChunk.laneOn g i = s.laneOn g i := by
  simp [State.laneOn]

@[simp] theorem openChunk_laneOn_fun (s : State) (g : Guard) : s.openChunk.laneOn g = s.laneOn g := by
  funext i; exact openChunk_laneOn s g i

@[simp] theorem openChunk_activeIn (s : State) (g : Guard) (t : Nat) : s.openChunk.activeIn g t = s.activeIn g t := by
  simp [State.activeIn]

/-! ### Registers -/

theorem getS_setS (g : Regs) (r i : Nat) (x : Word) :
    (g.setS r x).getS i = if i = r ∧ i ≠ 0 then x else g.getS i := by
  unfold Regs.setS Regs.getS
  by_cases hr : r = 0
  · by_cases hi : i = 0 <;> simp [hr, hi]
  · by_cases hi : i = 0
    · simp [hi]
    · simp [hr, hi, tget_tset]

@[simp] theorem getF_setS (g : Regs) (r i : Nat) (x : Word) : (g.setS r x).getF i = g.getF i := by
  unfold Regs.setS; split <;> rfl

@[simp] theorem getP_setS (g : Regs) (r i : Nat) (x : Word) : (g.setS r x).getP i = g.getP i := by
  unfold Regs.setS; split <;> rfl

@[simp] theorem getLane_setS (g : Regs) (r i j : Nat) (x : Word) : (g.setS r x).getLane i j = g.getLane i j := by
  unfold Regs.setS; split <;> rfl

theorem getF_setF (g : Regs) (r i : Nat) (x : Word) : (g.setF r x).getF i = if i = r then x else g.getF i :=
  tget_tset _ _ _ _ _

@[simp] theorem getS_setF (g : Regs) (r i : Nat) (x : Word) : (g.setF r x).getS i = g.getS i := rfl

@[simp] theorem getP_setF (g : Regs) (r i : Nat) (x : Word) : (g.setF r x).getP i = g.getP i := rfl

@[simp] theorem getLane_setF (g : Regs) (r i j : Nat) (x : Word) : (g.setF r x).getLane i j = g.getLane i j := rfl

theorem getP_setP (g : Regs) (r i : Nat) (x : Lane) :
    (g.setP r x).getP i = if i = r ∧ i ≠ 0 then x else g.getP i := by
  unfold Regs.setP Regs.getP
  by_cases hr : r = 0
  · by_cases hi : i = 0 <;> simp [hr, hi]
  · by_cases hi : i = 0
    · simp [hi]
    · simp [hr, hi, tget_tset]

@[simp] theorem getS_setP (g : Regs) (r i : Nat) (x : Lane) : (g.setP r x).getS i = g.getS i := by
  unfold Regs.setP; split <;> rfl

@[simp] theorem getF_setP (g : Regs) (r i : Nat) (x : Lane) : (g.setP r x).getF i = g.getF i := by
  unfold Regs.setP; split <;> rfl

@[simp] theorem getLane_setP (g : Regs) (r i j : Nat) (x : Lane) : (g.setP r x).getLane i j = g.getLane i j := by
  unfold Regs.setP; split <;> rfl

theorem getLane_setLane (g : Regs) (r i q j : Nat) (x : Lane) :
    (g.setLane r i x).getLane q j = if 32 * q + j = 32 * r + i then x else g.getLane q j := tget_tset _ _ _ _ _

@[simp] theorem getS_setLane (g : Regs) (r i j : Nat) (x : Lane) : (g.setLane r i x).getS j = g.getS j := rfl

@[simp] theorem getF_setLane (g : Regs) (r i j : Nat) (x : Lane) : (g.setLane r i x).getF j = g.getF j := rfl

@[simp] theorem getP_setLane (g : Regs) (r i j : Nat) (x : Lane) : (g.setLane r i x).getP j = g.getP j := rfl

@[simp] theorem getS_setElem (g : Regs) (t r i x j : Nat) : (g.setElem t r i x).getS j = g.getS j := by
  unfold Regs.setElem; split <;> rfl

@[simp] theorem getF_setElem (g : Regs) (t r i x j : Nat) : (g.setElem t r i x).getF j = g.getF j := by
  unfold Regs.setElem; split <;> rfl

@[simp] theorem getP_setElem (g : Regs) (t r i x j : Nat) : (g.setElem t r i x).getP j = g.getP j := by
  unfold Regs.setElem; split <;> rfl

end Sys2Proof.Machine
end

