-- ==== Sys2Proof/Laws/Issue.lean ====
section
/-!
SUPPORT. What issuing an instruction can do, said once: it faults only for a strand that does not exist, and else one of
the checks of R192 answers, or the instruction's own effect.
-/

namespace Sys2Proof.Machine

/-- Everything that the shared checks can answer, in the order of R192. -/
theorem checked_cases (s : State) (g : Guard) (on : Bool) (n : Needs) (body : State → State) :
    (g.p ≠ 0 ∧ s.me.pending (regP g.p.toNat) = true ∧ s.checked g on n body = s.raise causeUnwaited g.p.toNat) ∨
    (on = false ∧ s.checked g on n body = s.finish) ∨
    (on = true ∧ n.sup = true ∧ s.me.sv = false ∧ s.checked g on n body = s.raise causePrivilege 0) ∨
    (on = true ∧ ∃ r, n.lack = some r ∧ s.checked g on n body = s.raise causeUnallotted r) ∨
    (on = true ∧ n.lack = none ∧ ∃ r ∈ n.regs, s.me.pending r = true ∧
      s.checked g on n body = s.raise causeUnwaited (regNumber r)) ∨
    (on = true ∧ n.lack = none ∧ s.waited n.regs ∧ s.checked g on n body = body s) := by
  unfold State.checked
  by_cases h1 : g.p ≠ 0 ∧ s.me.pending (regP g.p.toNat) = true
  · exact .inl ⟨h1.1, h1.2, if_pos h1⟩
  rw [if_neg h1]
  cases on with
  | false => exact .inr (.inl ⟨rfl, if_pos rfl⟩)
  | true =>
    rw [if_neg (by decide)]
    by_cases h3 : n.sup = true ∧ s.me.sv = false
    · exact .inr (.inr (.inl ⟨rfl, h3.1, h3.2, if_pos h3⟩))
    rw [if_neg h3]
    cases h4 : n.lack with
    | some r => exact .inr (.inr (.inr (.inl ⟨rfl, r, rfl, rfl⟩)))
    | none =>
      cases h5 : n.regs.find? s.me.pending with
      | some r =>
        exact .inr (.inr (.inr (.inr (.inl ⟨rfl, rfl, r, List.mem_of_find?_eq_some h5, List.find?_some h5, rfl⟩))))
      | none =>
        refine .inr (.inr (.inr (.inr (.inr ⟨rfl, rfl, fun r hr => ?_, rfl⟩))))
        simpa using List.find?_eq_none.1 h5 r hr

/-- An instruction whose checks pass has its own effect. -/
theorem checked_pass (s : State) (g : Guard) (n : Needs) (body : State → State) (hg : s.guardRead g)
    (hs : n.sup = true → s.me.sv = true) (hl : n.lack = none) (hr : s.waited n.regs) :
    s.checked g true n body = body s := by
  have hf : n.regs.find? s.me.pending = none := by
    rw [List.find?_eq_none]; intro r hm; simp [hr r hm]
  have h1 : ¬(g.p ≠ 0 ∧ s.me.pending (regP g.p.toNat) = true) := by
    rintro ⟨h, hp⟩
    rcases hg.2 with e | e
    · exact h e
    · rw [hp] at e; cases e
  have h3 : ¬(n.sup = true ∧ s.me.sv = false) := by
    rintro ⟨h, hp⟩
    rw [hs h] at hp; cases hp
  unfold State.checked
  rw [if_neg h1, if_neg (by decide), if_neg h3, hl, hf]

/-- A guard reads the same once the chunk is open. -/
theorem openChunk_guardRead (s : State) (g : Guard) (h : s.guardRead g) : s.openChunk.guardRead g := by
  simpa [State.guardRead] using h

/-- Registers wait the same once the chunk is open. -/
theorem openChunk_waited (s : State) (rs : List Nat) (h : s.waited rs) : s.openChunk.waited rs := by
  simpa [State.waited] using h

/-- A scalar instruction that may issue has its own effect on the state with its chunk open. -/
theorem scalar_pass (s : State) (g : Guard) (n : Needs) (body : State → State) (h : s.issues g n.regs)
    (hs : n.sup = true → s.me.sv = true) (hl : n.lack = none) : s.scalar g n body = .next (body s.openChunk) := by
  obtain ⟨hg, hon, hw⟩ := h
  unfold State.scalar State.issue
  rw [if_neg (Nat.not_le.2 hg.1), hon,
    checked_pass _ g n body (openChunk_guardRead s g hg) (by simpa using hs) hl (openChunk_waited s _ hw)]

/-- A vector instruction that may issue has its own effect on the state with its chunk open. -/
theorem vector_pass (s : State) (g : Guard) (t : Nat) (n : Needs) (vs : List (BitVec 6)) (body : State → State)
    (h : s.issuesV g t n.regs vs) (hs : n.sup = false) (hl : n.lack = s.lackV vs) :
    s.vector g t n body = .next (body s.openChunk) := by
  obtain ⟨hg, hon, hw, hv⟩ := h
  have hlack : n.lack = none := by
    rw [hl]
    unfold State.lackV
    rw [List.find?_eq_none.2]
    · rfl
    · intro v hm; simpa using hv v hm
  have he : (!(s.activeIn g t).isEmpty) = true := by simpa using hon
  unfold State.vector State.issue
  rw [if_neg (Nat.not_le.2 hg.1), he,
    checked_pass _ g n body (openChunk_guardRead s g hg) (by simp [hs]) hlack (openChunk_waited s _ hw)]

/-- An instruction guarded off only counts (R173). -/
theorem issue_off (s : State) (g : Guard) (n : Needs) (body : State → State) (hg : s.guardRead g) :
    s.issue g false n body = .next s.openChunk.finish := by
  have h1 : ¬(g.p ≠ 0 ∧ s.openChunk.me.pending (regP g.p.toNat) = true) := by
    rintro ⟨h, hp⟩
    rcases hg.2 with e | e
    · exact h e
    · rw [openChunk_pending, e] at hp; cases hp
  unfold State.issue State.checked
  rw [if_neg (Nat.not_le.2 hg.1), if_neg h1, if_pos rfl]

/-! ### The end of an instruction -/

@[simp] theorem finish_me (s : State) :
    s.finish.me = { s.me.setLive (fun c => { c with count := c.count + 1 }) with pc := nextPc s.me.pc } := by
  simp [State.finish]

/-- What leaves all but the strands and the number counter alone does so in two steps. -/
theorem rest_trans {a b c : State} (h1 : b = { a with strands := b.strands, nextId := b.nextId })
    (h2 : c = { b with strands := c.strands, nextId := c.nextId }) :
    c = { a with strands := c.strands, nextId := c.nextId } :=
  calc c = { b with strands := c.strands, nextId := c.nextId } := h2
    _ = { a with strands := c.strands, nextId := c.nextId } := by rw [h1]

/-- A finished instruction leaves the other strands alone. -/
theorem finish_strand_ne (s : State) {k : Nat} (h : k ≠ s.cur) : s.finish.strand k = s.strand k :=
  (strand_setMe_ne s.retire (fun t => { t with pc := nextPc t.pc }) (by simpa using h)).trans
    (strand_setMe_ne s (fun t => t.setLive fun c => { c with count := c.count + 1 }) h)

/-- A state that differs from one with its chunk open only in the acting strand's registers and generator, and has then
gone on by one instruction, has retired one. -/
theorem retired_of (s m : State) (g : Regs) (q : BitVec 32) (hm : m.me = { s.openChunk.me with regs := g, q := q })
    (hcur : m.cur = s.cur) (ho : ∀ k, k ≠ s.cur → m.strand k = s.openChunk.strand k)
    (hr : m = { s.openChunk with strands := m.strands, nextId := m.nextId }) : Retired s m.finish where
  pc := by rw [finish_me, hm]; exact congrArg nextPc (openChunk_pc s)
  chunk := by
    obtain ⟨c, hc⟩ := openChunk_live s
    have hl : m.me.live = some c := by rw [hm]; exact hc
    have h2 : m.finish.me.live = some { c with count := c.count + 1 } := by
      rw [finish_me]
      have h := live_setLive m.me (fun c => { c with count := c.count + 1 }) (fun _ => rfl)
      rw [hl] at h
      exact h
    unfold State.chunk
    rw [h2, hc]
    rfl
  earlier := by
    rw [finish_me]
    show (m.me.setLive _).chunks.drop 1 = _
    rw [drop_setLive, hm]
  strand := by
    rw [finish_me, setLive_eq, hm, openChunk_me]
  others := fun k hk => by
    rw [finish_strand_ne m (by rw [hcur]; exact hk), ho k hk, openChunk_strand_ne s hk]
  rest := rest_trans (openChunk_rest s) (rest_trans hr rfl)

/-- A write of s[r] and the end of the instruction. -/
theorem retired_writeS (s : State) (r : BitVec 6) (x : Word) : Retired s (s.openChunk.writeS r x).finish :=
  retired_of s _ _ s.openChunk.me.q (me_writeS ..) (openChunk_cur s)
    (fun k hk => strand_setMe_ne _ _ (by simpa using hk)) rfl

theorem retired_writeF (s : State) (r : BitVec 6) (x : Word) : Retired s (s.openChunk.writeF r x).finish :=
  retired_of s _ _ s.openChunk.me.q (me_writeF ..) (openChunk_cur s)
    (fun k hk => strand_setMe_ne _ _ (by simpa using hk)) rfl

theorem retired_writeP (s : State) (r : BitVec 6) (x : Lane) : Retired s (s.openChunk.writeP r x).finish :=
  retired_of s _ _ s.openChunk.me.q (me_writeP ..) (openChunk_cur s)
    (fun k hk => strand_setMe_ne _ _ (by simpa using hk)) rfl

theorem onlyS_setS (g : Regs) (r : BitVec 6) (x : Word) : OnlyS g (g.setS r.toNat x) r x :=
  ⟨fun i => getS_setS g _ i x, fun _ => getF_setS .., fun _ => getP_setS .., fun _ _ => getLane_setS ..⟩

theorem onlyF_setF (g : Regs) (r : BitVec 6) (x : Word) : OnlyF g (g.setF r.toNat x) r x :=
  ⟨fun _ => getS_setF .., fun i => getF_setF g _ i x, fun _ => getP_setF .., fun _ _ => getLane_setF ..⟩

theorem onlyP_setP (g : Regs) (r : BitVec 6) (x : Lane) : OnlyP g (g.setP r.toNat x) r x :=
  ⟨fun _ => getS_setP .., fun _ => getF_setP .., fun i => getP_setP g _ i x, fun _ _ => getLane_setP ..⟩

/-- An instruction whose outcome is a write of s[r] and the end of the instruction. -/
theorem givesS_of (i : Instr) (s : State) (r : BitVec 6) (x : Word)
    (h : exec i s = .next (s.openChunk.writeS r x).finish) : GivesS i s r x :=
  ⟨_, h, retired_writeS s r x, by simp, by simpa using onlyS_setS s.me.regs r x⟩

theorem givesF_of (i : Instr) (s : State) (r : BitVec 6) (x : Word)
    (h : exec i s = .next (s.openChunk.writeF r x).finish) : GivesF i s r x :=
  ⟨_, h, retired_writeF s r x, by simp, by simpa using onlyF_setF s.me.regs r x⟩

theorem givesP_of (i : Instr) (s : State) (r : BitVec 6) (x : Lane)
    (h : exec i s = .next (s.openChunk.writeP r x).finish) : GivesP i s r x :=
  ⟨_, h, retired_writeP s r x, by simp, by simpa using onlyP_setP s.me.regs r x⟩

end Sys2Proof.Machine
end

