-- ==== Sys2Proof/Laws/PerInstr.lean ====
section
/-!
SUPPORT. The word of an instruction names its row: each row of the opcode map takes its own words back with every field as it
was (R167, R170, R171, R187 to R190). One lemma for each constructor.
-/

namespace Sys2Proof.Laws

/-! ### Fields of a packed word -/

theorem extract_high {m n : Nat} (x : BitVec m) (y : BitVec n) (a l : Nat) :
    (x ++ y).extractLsb' (n + a) l = x.extractLsb' a l := by
  ext i hi
  simp only [BitVec.getElem_extractLsb', BitVec.getLsbD_append]
  rw [if_neg (by omega)]
  congr 1
  omega

theorem extract_in {m n : Nat} (x : BitVec m) (y : BitVec n) (a l : Nat) (h : a + l ≤ n) :
    (x ++ y).extractLsb' a l = y.extractLsb' a l := by
  ext i hi
  simp only [BitVec.getElem_extractLsb', BitVec.getLsbD_append]
  rw [if_pos (by omega)]

theorem extract_all {n : Nat} (x : BitVec n) : x.extractLsb' 0 n = x := by
  ext i hi
  simp

theorem extract_low {m n : Nat} (x : BitVec m) (y : BitVec n) : (x ++ y).extractLsb' 0 n = y := by
  rw [extract_in _ _ _ _ (by omega), extract_all]

theorem bit_high {m n : Nat} (x : BitVec m) (y : BitVec n) (a : Nat) : (x ++ y).getLsbD (n + a) = x.getLsbD a := by
  rw [BitVec.getLsbD_append, if_neg (by omega)]
  congr 1
  omega

theorem bit_in {m n : Nat} (x : BitVec m) (y : BitVec n) (a : Nat) (h : a < n) : (x ++ y).getLsbD a = y.getLsbD a := by
  rw [BitVec.getLsbD_append, if_pos h]

theorem bit_ofBool (b : Bool) : (BitVec.ofBool b).getLsbD 0 = b := by cases b <;> rfl

/-- The guard bits come back from the four bits that hold them. -/
theorem packGuard_fields (g : Guard) : (packGuard g).getLsbD 3 = g.neg ∧ (packGuard g).extractLsb' 0 3 = g.p :=
  ⟨by rw [packGuard, bit_high _ _ 0, bit_ofBool], extract_low _ _⟩

/-! ### Words of the three formats -/

theorem opcodeOf_packR (opc : BitVec 8) (o : Ops) : opcodeOf (packR opc o) = opc.toNat := by
  unfold opcodeOf packR
  rw [extract_high _ _ 40, extract_high _ _ 28, extract_high _ _ 22, extract_high _ _ 16, extract_high _ _ 10, extract_high _ _ 4,
    extract_high _ _ 0, extract_all]

theorem unpackR_packR (opc : BitVec 8) (o : Ops) : unpackR (packR opc o) = o := by
  obtain ⟨g, dst, sa, sb, sc, md, imm⟩ := o
  obtain ⟨hn, hp⟩ := packGuard_fields g
  obtain ⟨n, p⟩ := g
  simp only [unpackR, guardOf, packR, Ops.mk.injEq, Guard.mk.injEq]
  refine ⟨⟨?_, ?_⟩, ?_, ?_, ?_, ?_, ?_, ?_⟩
  · rw [bit_high _ _ 39, bit_high _ _ 27, bit_high _ _ 21, bit_high _ _ 15, bit_high _ _ 9, bit_high _ _ 3, bit_in _ _ _ (by omega), hn]
  · rw [extract_high _ _ 36, extract_high _ _ 24, extract_high _ _ 18, extract_high _ _ 12, extract_high _ _ 6, extract_high _ _ 0,
      extract_in _ _ _ _ (by omega), hp]
  · rw [extract_high _ _ 30, extract_high _ _ 18, extract_high _ _ 12, extract_high _ _ 6, extract_high _ _ 0, extract_low]
  · rw [extract_high _ _ 24, extract_high _ _ 12, extract_high _ _ 6, extract_high _ _ 0, extract_low]
  · rw [extract_high _ _ 18, extract_high _ _ 6, extract_high _ _ 0, extract_low]
  · rw [extract_high _ _ 12, extract_high _ _ 0, extract_low]
  · rw [extract_high _ _ 0, extract_low]
  · rw [extract_low]

theorem rowOf_packM (g : Guard) (dst : BitVec 6) (imm : Word) : rowOf (packM g dst imm) = some (.movi g dst imm) := by
  obtain ⟨hn, hp⟩ := packGuard_fields g
  have h0 : opcodeOf (packM g dst imm) = 0x18 := by
    unfold opcodeOf packM
    rw [extract_high _ _ 24, extract_high _ _ 10, extract_high _ _ 4, extract_high _ _ 0, extract_all]
    rfl
  have h1 : (packM g dst imm).extractLsb' 64 14 = 0 := by
    unfold packM
    rw [extract_high _ _ 0, extract_low]
  have h2 : guardOf (packM g dst imm) = g := by
    obtain ⟨n, p⟩ := g
    simp only [guardOf, packM, Guard.mk.injEq]
    exact ⟨by rw [bit_high _ _ 23, bit_high _ _ 9, bit_high _ _ 3, bit_in _ _ _ (by omega), hn],
      by rw [extract_high _ _ 20, extract_high _ _ 6, extract_high _ _ 0, extract_in _ _ _ _ (by omega), hp]⟩
  have h3 : (packM g dst imm).extractLsb' 78 6 = dst := by
    unfold packM
    rw [extract_high _ _ 14, extract_high _ _ 0, extract_low]
  have h4 : (packM g dst imm).extractLsb' 0 64 = imm := by
    unfold packM
    rw [extract_low]
  simp only [rowOf, h0, h1, h2, h3, h4, if_true]

theorem rowOf_packPair (p : PairOps) : rowOf (packPair p) = some (.pair p) := by
  obtain ⟨g, sop, sdst, ssa, ssb, si, simm, vop, vdst, vsa, vsb, vsc, vtype⟩ := p
  obtain ⟨hn, hp⟩ := packGuard_fields g
  obtain ⟨n, p⟩ := g
  have h0 : opcodeOf (packPair ⟨⟨n, p⟩, sop, sdst, ssa, ssb, si, simm, vop, vdst, vsa, vsb, vsc, vtype⟩) = 0x80 := by
    simp only [opcodeOf, packPair]
    rw [extract_high _ _ 78, extract_high _ _ 74, extract_high _ _ 68, extract_high _ _ 62, extract_high _ _ 56,
      extract_high _ _ 50, extract_high _ _ 44, extract_high _ _ 29, extract_high _ _ 28, extract_high _ _ 22, extract_high _ _ 16,
      extract_high _ _ 10, extract_high _ _ 4, extract_high _ _ 0, extract_all]
    rfl
  have h1 : (packPair ⟨⟨n, p⟩, sop, sdst, ssa, ssb, si, simm, vop, vdst, vsa, vsb, vsc, vtype⟩).extractLsb' 0 10 = 0 := by
    simp only [packPair]
    rw [extract_low]
  have h2 : unpackPair (packPair ⟨⟨n, p⟩, sop, sdst, ssa, ssb, si, simm, vop, vdst, vsa, vsb, vsc, vtype⟩) =
      ⟨⟨n, p⟩, sop, sdst, ssa, ssb, si, simm, vop, vdst, vsa, vsb, vsc, vtype⟩ := by
    simp only [unpackPair, guardOf, packPair, PairOps.mk.injEq, Guard.mk.injEq]
    refine ⟨⟨?_, ?_⟩, ?_, ?_, ?_, ?_, ?_, ?_, ?_, ?_, ?_, ?_, ?_, ?_⟩
    · rw [bit_high _ _ 77, bit_high _ _ 73, bit_high _ _ 67, bit_high _ _ 61, bit_high _ _ 55, bit_high _ _ 49, bit_high _ _ 43,
        bit_high _ _ 28, bit_high _ _ 27, bit_high _ _ 21, bit_high _ _ 15, bit_high _ _ 9, bit_high _ _ 3, bit_in _ _ _ (by omega), hn]
    · rw [extract_high _ _ 74, extract_high _ _ 70, extract_high _ _ 64, extract_high _ _ 58, extract_high _ _ 52,
        extract_high _ _ 46, extract_high _ _ 40, extract_high _ _ 25, extract_high _ _ 24, extract_high _ _ 18,
        extract_high _ _ 12, extract_high _ _ 6, extract_high _ _ 0, extract_in _ _ _ _ (by omega), hp]
    · rw [extract_high _ _ 68, extract_high _ _ 64, extract_high _ _ 58, extract_high _ _ 52, extract_high _ _ 46,
        extract_high _ _ 40, extract_high _ _ 34, extract_high _ _ 19, extract_high _ _ 18, extract_high _ _ 12,
        extract_high _ _ 6, extract_high _ _ 0, extract_low]
    · rw [extract_high _ _ 62, extract_high _ _ 58, extract_high _ _ 52, extract_high _ _ 46, extract_high _ _ 40,
        extract_high _ _ 34, extract_high _ _ 28, extract_high _ _ 13, extract_high _ _ 12, extract_high _ _ 6,
        extract_high _ _ 0, extract_low]
    · rw [extract_high _ _ 56, extract_high _ _ 52, extract_high _ _ 46, extract_high _ _ 40, extract_high _ _ 34,
        extract_high _ _ 28, extract_high _ _ 22, extract_high _ _ 7, extract_high _ _ 6, extract_high _ _ 0, extract_low]
    · rw [extract_high _ _ 50, extract_high _ _ 46, extract_high _ _ 40, extract_high _ _ 34, extract_high _ _ 28,
        extract_high _ _ 22, extract_high _ _ 16, extract_high _ _ 1, extract_high _ _ 0, extract_low]
    · rw [bit_high _ _ 49, bit_high _ _ 45, bit_high _ _ 39, bit_high _ _ 33, bit_high _ _ 27, bit_high _ _ 21, bit_high _ _ 15,
        bit_high _ _ 0, bit_in _ _ _ (by omega), bit_ofBool]
    · rw [extract_high _ _ 34, extract_high _ _ 30, extract_high _ _ 24, extract_high _ _ 18, extract_high _ _ 12,
        extract_high _ _ 6, extract_high _ _ 0, extract_low]
    · rw [extract_high _ _ 28, extract_high _ _ 24, extract_high _ _ 18, extract_high _ _ 12, extract_high _ _ 6,
        extract_high _ _ 0, extract_low]
    · rw [extract_high _ _ 22, extract_high _ _ 18, extract_high _ _ 12, extract_high _ _ 6, extract_high _ _ 0, extract_low]
    · rw [extract_high _ _ 16, extract_high _ _ 12, extract_high _ _ 6, extract_high _ _ 0, extract_low]
    · rw [extract_high _ _ 10, extract_high _ _ 6, extract_high _ _ 0, extract_low]
    · rw [extract_high _ _ 4, extract_high _ _ 0, extract_low]
    · rw [extract_high _ _ 0, extract_low]
  simp only [rowOf, h0, h1, h2, if_true]
  rfl

/-! ### Rows that share an opcode -/

theorem flag_clear (md m : BitVec 12) (n : Nat) (h : (md &&& ~~~m) = 0) (hm : m.getLsbD n = false) :
    nbit md.toNat n = false := by
  by_cases hn : n < 12
  · have := congrArg (fun x : BitVec 12 => x.getLsbD n) h
    simp only [BitVec.getLsbD_and, BitVec.getLsbD_not, hn, hm, decide_true, Bool.not_false, Bool.and_true] at this
    have e : md.getLsbD n = md.toNat.testBit n := rfl
    rw [e, Nat.testBit_eq_decide_div_mod_eq] at this
    simpa [nbit] using this
  · have : md.toNat / 2 ^ n = 0 :=
      Nat.div_eq_of_lt (Nat.lt_of_lt_of_le md.isLt (Nat.pow_le_pow_right (by omega) (by omega)))
    simp [nbit, this]

/-- A word that keeps within a mask of MOD has no bit outside it. -/
theorem fits_md {o : Ops} {d x y z : File} {m : BitVec 12} {imm : BitVec 48} (h : fits o d x y z m imm = true) :
    (o.md &&& ~~~m) = 0 := by
  simp only [fits, Bool.and_eq_true, beq_iff_eq] at h
  exact h.1.2

theorem modBit_clear {o : Ops} {d x y z : File} {m : BitVec 12} {imm : BitVec 48} (h : fits o d x y z m imm = true) (n : Nat)
    (hm : m.getLsbD (n - 48) = false) : o.modBit n = false :=
  flag_clear _ _ _ (fits_md h) hm

theorem modPair_clear {o : Ops} {d x y z : File} {m : BitVec 12} {imm : BitVec 48} (h : fits o d x y z m imm = true)
    (h6 : m.getLsbD 6 = false) (h7 : m.getLsbD 7 = false) : o.modBits 55 54 = 0 := by
  have low := flag_clear _ _ _ (fits_md h) h6
  have high := flag_clear _ _ _ (fits_md h) h7
  simp only [nbit, beq_eq_false_iff_ne] at low high
  simp only [Ops.modBits, bits]
  omega

/-! ### One lemma for each constructor -/

/-- A well-formed instruction's word names its row, with every field as it was. -/
def RowOfWord.Statement (i : Instr) : Prop := ∀ w, i.wellFormed = true → encode i = some w → rowOf w = some i

theorem RowOfWord.add (o : Ops) : RowOfWord.Statement (.add o) := fun _ _ e => by
  cases e
  rw [rowOf, opcodeOf_packR, unpackR_packR]
  rfl

theorem RowOfWord.sub (o : Ops) : RowOfWord.Statement (.sub o) := fun _ _ e => by
  cases e
  rw [rowOf, opcodeOf_packR, unpackR_packR]
  rfl

theorem RowOfWord.mul (o : Ops) : RowOfWord.Statement (.mul o) := fun _ _ e => by
  cases e
  rw [rowOf, opcodeOf_packR, unpackR_packR]
  rfl

theorem RowOfWord.mulh (o : Ops) : RowOfWord.Statement (.mulh o) := fun _ _ e => by
  cases e
  rw [rowOf, opcodeOf_packR, unpackR_packR]
  rfl

theorem RowOfWord.div (o : Ops) : RowOfWord.Statement (.div o) := fun _ _ e => by
  cases e
  rw [rowOf, opcodeOf_packR, unpackR_packR]
  rfl

theorem RowOfWord.rem (o : Ops) : RowOfWord.Statement (.rem o) := fun _ _ e => by
  cases e
  rw [rowOf, opcodeOf_packR, unpackR_packR]
  rfl

theorem RowOfWord.and (o : Ops) : RowOfWord.Statement (.and o) := fun _ _ e => by
  cases e
  rw [rowOf, opcodeOf_packR, unpackR_packR]
  rfl

theorem RowOfWord.or (o : Ops) : RowOfWord.Statement (.or o) := fun _ _ e => by
  cases e
  rw [rowOf, opcodeOf_packR, unpackR_packR]
  rfl

theorem RowOfWord.xor (o : Ops) : RowOfWord.Statement (.xor o) := fun _ _ e => by
  cases e
  rw [rowOf, opcodeOf_packR, unpackR_packR]
  rfl

theorem RowOfWord.andn (o : Ops) : RowOfWord.Statement (.andn o) := fun _ _ e => by
  cases e
  rw [rowOf, opcodeOf_packR, unpackR_packR]
  rfl

theorem RowOfWord.shl (o : Ops) : RowOfWord.Statement (.shl o) := fun _ _ e => by
  cases e
  rw [rowOf, opcodeOf_packR, unpackR_packR]
  rfl

theorem RowOfWord.shr (o : Ops) : RowOfWord.Statement (.shr o) := fun _ _ e => by
  cases e
  rw [rowOf, opcodeOf_packR, unpackR_packR]
  rfl

theorem RowOfWord.sra (o : Ops) : RowOfWord.Statement (.sra o) := fun _ _ e => by
  cases e
  rw [rowOf, opcodeOf_packR, unpackR_packR]
  rfl

theorem RowOfWord.rot (o : Ops) : RowOfWord.Statement (.rot o) := fun _ _ e => by
  cases e
  rw [rowOf, opcodeOf_packR, unpackR_packR]
  rfl

theorem RowOfWord.clz (o : Ops) : RowOfWord.Statement (.clz o) := fun _ _ e => by
  cases e
  rw [rowOf, opcodeOf_packR, unpackR_packR]
  rfl

theorem RowOfWord.ctz (o : Ops) : RowOfWord.Statement (.ctz o) := fun _ _ e => by
  cases e
  rw [rowOf, opcodeOf_packR, unpackR_packR]
  rfl

theorem RowOfWord.popc (o : Ops) : RowOfWord.Statement (.popc o) := fun _ _ e => by
  cases e
  rw [rowOf, opcodeOf_packR, unpackR_packR]
  rfl

theorem RowOfWord.min (o : Ops) : RowOfWord.Statement (.min o) := fun _ _ e => by
  cases e
  rw [rowOf, opcodeOf_packR, unpackR_packR]
  rfl

theorem RowOfWord.max (o : Ops) : RowOfWord.Statement (.max o) := fun _ _ e => by
  cases e
  rw [rowOf, opcodeOf_packR, unpackR_packR]
  rfl

theorem RowOfWord.minz (o : Ops) : RowOfWord.Statement (.minz o) := fun _ _ e => by
  cases e
  rw [rowOf, opcodeOf_packR, unpackR_packR]
  rfl

theorem RowOfWord.maxz (o : Ops) : RowOfWord.Statement (.maxz o) := fun _ _ e => by
  cases e
  rw [rowOf, opcodeOf_packR, unpackR_packR]
  rfl

theorem RowOfWord.cmp (o : Ops) : RowOfWord.Statement (.cmp o) := fun _ _ e => by
  cases e
  rw [rowOf, opcodeOf_packR, unpackR_packR]
  rfl

theorem RowOfWord.sel (o : Ops) : RowOfWord.Statement (.sel o) := fun _ _ e => by
  cases e
  rw [rowOf, opcodeOf_packR, unpackR_packR]
  rfl

theorem RowOfWord.movi (g : Guard) (dst : BitVec 6) (imm : Word) : RowOfWord.Statement (.movi g dst imm) := fun _ _ e => by
  cases e
  exact rowOf_packM _ _ _

theorem RowOfWord.lea (o : Ops) : RowOfWord.Statement (.lea o) := fun _ _ e => by
  cases e
  rw [rowOf, opcodeOf_packR, unpackR_packR]
  rfl

theorem RowOfWord.bfx (o : Ops) : RowOfWord.Statement (.bfx o) := fun _ _ e => by
  cases e
  rw [rowOf, opcodeOf_packR, unpackR_packR]
  rfl

theorem RowOfWord.bfi (o : Ops) : RowOfWord.Statement (.bfi o) := fun _ _ e => by
  cases e
  rw [rowOf, opcodeOf_packR, unpackR_packR]
  rfl

theorem RowOfWord.nop (o : Ops) : RowOfWord.Statement (.nop o) := fun _ _ e => by
  cases e
  rw [rowOf, opcodeOf_packR, unpackR_packR]
  rfl

theorem RowOfWord.fadd (o : Ops) : RowOfWord.Statement (.fadd o) := fun _ _ e => by
  cases e
  rw [rowOf, opcodeOf_packR, unpackR_packR]
  rfl

theorem RowOfWord.fsub (o : Ops) : RowOfWord.Statement (.fsub o) := fun _ _ e => by
  cases e
  rw [rowOf, opcodeOf_packR, unpackR_packR]
  rfl

theorem RowOfWord.fmul (o : Ops) : RowOfWord.Statement (.fmul o) := fun _ _ e => by
  cases e
  rw [rowOf, opcodeOf_packR, unpackR_packR]
  rfl

theorem RowOfWord.ffma (o : Ops) : RowOfWord.Statement (.ffma o) := fun _ _ e => by
  cases e
  rw [rowOf, opcodeOf_packR, unpackR_packR]
  rfl

theorem RowOfWord.fdiv (o : Ops) : RowOfWord.Statement (.fdiv o) := fun _ _ e => by
  cases e
  rw [rowOf, opcodeOf_packR, unpackR_packR]
  rfl

theorem RowOfWord.fsqrt (o : Ops) : RowOfWord.Statement (.fsqrt o) := fun _ _ e => by
  cases e
  rw [rowOf, opcodeOf_packR, unpackR_packR]
  rfl

theorem RowOfWord.fmin (o : Ops) : RowOfWord.Statement (.fmin o) := fun _ _ e => by
  cases e
  rw [rowOf, opcodeOf_packR, unpackR_packR]
  rfl

theorem RowOfWord.fmax (o : Ops) : RowOfWord.Statement (.fmax o) := fun _ _ e => by
  cases e
  rw [rowOf, opcodeOf_packR, unpackR_packR]
  rfl

theorem RowOfWord.fcmp (o : Ops) : RowOfWord.Statement (.fcmp o) := fun _ _ e => by
  cases e
  rw [rowOf, opcodeOf_packR, unpackR_packR]
  rfl

theorem RowOfWord.fcvt (o : Ops) : RowOfWord.Statement (.fcvt o) := fun _ _ e => by
  cases e
  rw [rowOf, opcodeOf_packR, unpackR_packR]
  rfl

theorem RowOfWord.fmov (o : Ops) : RowOfWord.Statement (.fmov o) := fun _ _ e => by
  cases e
  rw [rowOf, opcodeOf_packR, unpackR_packR]
  rfl

theorem RowOfWord.br (o : Ops) : RowOfWord.Statement (.br o) := fun _ _ e => by
  cases e
  rw [rowOf, opcodeOf_packR, unpackR_packR]
  rfl

theorem RowOfWord.j (o : Ops) : RowOfWord.Statement (.j o) := fun _ _ e => by
  cases e
  rw [rowOf, opcodeOf_packR, unpackR_packR]
  rfl

theorem RowOfWord.jr (o : Ops) : RowOfWord.Statement (.jr o) := fun _ _ e => by
  cases e
  rw [rowOf, opcodeOf_packR, unpackR_packR]
  rfl

theorem RowOfWord.call (o : Ops) : RowOfWord.Statement (.call o) := fun _ h e => by
  cases e
  have k : o.modBit 58 = false := modBit_clear (imm := _) h 58 rfl
  rw [rowOf, opcodeOf_packR, unpackR_packR]
  simp [scalarRow, k]

theorem RowOfWord.callReg (o : Ops) : RowOfWord.Statement (.callReg o) := fun _ h e => by
  cases e
  have k : o.modBit 58 = true := ((Bool.and_eq_true _ _).mp h).2
  rw [rowOf, opcodeOf_packR, unpackR_packR]
  simp [scalarRow, k]

theorem RowOfWord.ret (o : Ops) : RowOfWord.Statement (.ret o) := fun _ _ e => by
  cases e
  rw [rowOf, opcodeOf_packR, unpackR_packR]
  rfl

theorem RowOfWord.loop (o : Ops) : RowOfWord.Statement (.loop o) := fun _ _ e => by
  cases e
  rw [rowOf, opcodeOf_packR, unpackR_packR]
  rfl

theorem RowOfWord.wait (o : Ops) : RowOfWord.Statement (.wait o) := fun _ _ e => by
  cases e
  rw [rowOf, opcodeOf_packR, unpackR_packR]
  rfl

theorem RowOfWord.chunk (o : Ops) : RowOfWord.Statement (.chunk o) := fun _ _ e => by
  cases e
  rw [rowOf, opcodeOf_packR, unpackR_packR]
  rfl

theorem RowOfWord.susp (o : Ops) : RowOfWord.Statement (.susp o) := fun _ h e => by
  cases e
  have k : o.modBit 58 = false := modBit_clear (imm := _) h 58 rfl
  rw [rowOf, opcodeOf_packR, unpackR_packR]
  simp [scalarRow, k]

theorem RowOfWord.suspMsg (o : Ops) : RowOfWord.Statement (.suspMsg o) := fun _ h e => by
  cases e
  have k : o.modBit 58 = true := ((Bool.and_eq_true _ _).mp h).2
  rw [rowOf, opcodeOf_packR, unpackR_packR]
  simp [scalarRow, k]

theorem RowOfWord.done (o : Ops) : RowOfWord.Statement (.done o) := fun _ _ e => by
  cases e
  rw [rowOf, opcodeOf_packR, unpackR_packR]
  rfl

theorem RowOfWord.yield (o : Ops) : RowOfWord.Statement (.yield o) := fun _ _ e => by
  cases e
  rw [rowOf, opcodeOf_packR, unpackR_packR]
  rfl

theorem RowOfWord.yieldExpiry (strand : Nat) : RowOfWord.Statement (.yieldExpiry strand) := fun _ _ e => nomatch e

theorem RowOfWord.trap (o : Ops) : RowOfWord.Statement (.trap o) := fun _ _ e => by
  cases e
  rw [rowOf, opcodeOf_packR, unpackR_packR]
  rfl

theorem RowOfWord.krd (o : Ops) : RowOfWord.Statement (.krd o) := fun _ _ e => by
  cases e
  rw [rowOf, opcodeOf_packR, unpackR_packR]
  rfl

theorem RowOfWord.kwr (o : Ops) : RowOfWord.Statement (.kwr o) := fun _ _ e => by
  cases e
  rw [rowOf, opcodeOf_packR, unpackR_packR]
  rfl

theorem RowOfWord.eret (o : Ops) : RowOfWord.Statement (.eret o) := fun _ _ e => by
  cases e
  rw [rowOf, opcodeOf_packR, unpackR_packR]
  rfl

theorem RowOfWord.invp (o : Ops) : RowOfWord.Statement (.invp o) := fun _ _ e => by
  cases e
  rw [rowOf, opcodeOf_packR, unpackR_packR]
  rfl

theorem RowOfWord.invpCompletion (strand : Nat) : RowOfWord.Statement (.invpCompletion strand) := fun _ _ e => nomatch e

theorem RowOfWord.halt (o : Ops) : RowOfWord.Statement (.halt o) := fun _ _ e => by
  cases e
  rw [rowOf, opcodeOf_packR, unpackR_packR]
  rfl

theorem RowOfWord.haltRelease (strand : Nat) (resume : Bool) : RowOfWord.Statement (.haltRelease strand resume) :=
  fun _ _ e => nomatch e

theorem RowOfWord.pair (p : PairOps) : RowOfWord.Statement (.pair p) := fun _ _ e => by
  cases e
  exact rowOf_packPair _

theorem RowOfWord.vadd (o : Ops) : RowOfWord.Statement (.vadd o) := fun _ _ e => by
  cases e
  rw [rowOf, opcodeOf_packR, unpackR_packR]
  rfl

theorem RowOfWord.vsub (o : Ops) : RowOfWord.Statement (.vsub o) := fun _ _ e => by
  cases e
  rw [rowOf, opcodeOf_packR, unpackR_packR]
  rfl

theorem RowOfWord.vmul (o : Ops) : RowOfWord.Statement (.vmul o) := fun _ _ e => by
  cases e
  rw [rowOf, opcodeOf_packR, unpackR_packR]
  rfl

theorem RowOfWord.vfma (o : Ops) : RowOfWord.Statement (.vfma o) := fun _ _ e => by
  cases e
  rw [rowOf, opcodeOf_packR, unpackR_packR]
  rfl

theorem RowOfWord.vmin (o : Ops) : RowOfWord.Statement (.vmin o) := fun _ _ e => by
  cases e
  rw [rowOf, opcodeOf_packR, unpackR_packR]
  rfl

theorem RowOfWord.vmax (o : Ops) : RowOfWord.Statement (.vmax o) := fun _ _ e => by
  cases e
  rw [rowOf, opcodeOf_packR, unpackR_packR]
  rfl

theorem RowOfWord.vabs (o : Ops) : RowOfWord.Statement (.vabs o) := fun _ _ e => by
  cases e
  rw [rowOf, opcodeOf_packR, unpackR_packR]
  rfl

theorem RowOfWord.vneg (o : Ops) : RowOfWord.Statement (.vneg o) := fun _ _ e => by
  cases e
  rw [rowOf, opcodeOf_packR, unpackR_packR]
  rfl

theorem RowOfWord.vand (o : Ops) : RowOfWord.Statement (.vand o) := fun _ _ e => by
  cases e
  rw [rowOf, opcodeOf_packR, unpackR_packR]
  rfl

theorem RowOfWord.vor (o : Ops) : RowOfWord.Statement (.vor o) := fun _ _ e => by
  cases e
  rw [rowOf, opcodeOf_packR, unpackR_packR]
  rfl

theorem RowOfWord.vxor (o : Ops) : RowOfWord.Statement (.vxor o) := fun _ _ e => by
  cases e
  rw [rowOf, opcodeOf_packR, unpackR_packR]
  rfl

theorem RowOfWord.vshl (o : Ops) : RowOfWord.Statement (.vshl o) := fun _ _ e => by
  cases e
  rw [rowOf, opcodeOf_packR, unpackR_packR]
  rfl

theorem RowOfWord.vshr (o : Ops) : RowOfWord.Statement (.vshr o) := fun _ _ e => by
  cases e
  rw [rowOf, opcodeOf_packR, unpackR_packR]
  rfl

theorem RowOfWord.vcmp (o : Ops) : RowOfWord.Statement (.vcmp o) := fun _ _ e => by
  cases e
  rw [rowOf, opcodeOf_packR, unpackR_packR]
  rfl

theorem RowOfWord.vsel (o : Ops) : RowOfWord.Statement (.vsel o) := fun _ _ e => by
  cases e
  rw [rowOf, opcodeOf_packR, unpackR_packR]
  rfl

theorem RowOfWord.vcvt (o : Ops) : RowOfWord.Statement (.vcvt o) := fun _ _ e => by
  cases e
  rw [rowOf, opcodeOf_packR, unpackR_packR]
  rfl

theorem RowOfWord.vld (o : Ops) : RowOfWord.Statement (.vld o) := fun _ _ e => by
  cases e
  rw [rowOf, opcodeOf_packR, unpackR_packR]
  rfl

theorem RowOfWord.vst (o : Ops) : RowOfWord.Statement (.vst o) := fun _ _ e => by
  cases e
  rw [rowOf, opcodeOf_packR, unpackR_packR]
  rfl

theorem RowOfWord.vgath (o : Ops) : RowOfWord.Statement (.vgath o) := fun _ _ e => by
  cases e
  rw [rowOf, opcodeOf_packR, unpackR_packR]
  rfl

theorem RowOfWord.vscat (o : Ops) : RowOfWord.Statement (.vscat o) := fun _ _ e => by
  cases e
  rw [rowOf, opcodeOf_packR, unpackR_packR]
  rfl

theorem RowOfWord.vbcast (o : Ops) : RowOfWord.Statement (.vbcast o) := fun _ _ e => by
  cases e
  rw [rowOf, opcodeOf_packR, unpackR_packR]
  rfl

theorem RowOfWord.vperm (o : Ops) : RowOfWord.Statement (.vperm o) := fun _ _ e => by
  cases e
  rw [rowOf, opcodeOf_packR, unpackR_packR]
  rfl

theorem RowOfWord.vredsum (o : Ops) : RowOfWord.Statement (.vredsum o) := fun _ _ e => by
  cases e
  rw [rowOf, opcodeOf_packR, unpackR_packR]
  rfl

theorem RowOfWord.vredmax (o : Ops) : RowOfWord.Statement (.vredmax o) := fun _ _ e => by
  cases e
  rw [rowOf, opcodeOf_packR, unpackR_packR]
  rfl

theorem RowOfWord.vredmin (o : Ops) : RowOfWord.Statement (.vredmin o) := fun _ _ e => by
  cases e
  rw [rowOf, opcodeOf_packR, unpackR_packR]
  rfl

theorem RowOfWord.vexp2 (o : Ops) : RowOfWord.Statement (.vexp2 o) := fun _ _ e => by
  cases e
  rw [rowOf, opcodeOf_packR, unpackR_packR]
  rfl

theorem RowOfWord.vrcp (o : Ops) : RowOfWord.Statement (.vrcp o) := fun _ _ e => by
  cases e
  rw [rowOf, opcodeOf_packR, unpackR_packR]
  rfl

theorem RowOfWord.vrsq (o : Ops) : RowOfWord.Statement (.vrsq o) := fun _ _ e => by
  cases e
  rw [rowOf, opcodeOf_packR, unpackR_packR]
  rfl

theorem RowOfWord.vmovs (o : Ops) : RowOfWord.Statement (.vmovs o) := fun _ _ e => by
  cases e
  rw [rowOf, opcodeOf_packR, unpackR_packR]
  rfl

theorem RowOfWord.vdist (o : Ops) : RowOfWord.Statement (.vdist o) := fun _ _ e => by
  cases e
  rw [rowOf, opcodeOf_packR, unpackR_packR]
  rfl

theorem RowOfWord.vtopk (o : Ops) : RowOfWord.Statement (.vtopk o) := fun _ _ e => by
  cases e
  rw [rowOf, opcodeOf_packR, unpackR_packR]
  rfl

theorem RowOfWord.ld (o : Ops) : RowOfWord.Statement (.ld o) := fun _ h e => by
  cases e
  have k : o.modBits 55 54 = 0 := modPair_clear ((Bool.and_eq_true _ _).mp h).1 rfl rfl
  rw [rowOf, opcodeOf_packR, unpackR_packR]
  simp [engineRow, k]

theorem RowOfWord.ldAcqSy (o : Ops) : RowOfWord.Statement (.ldAcqSy o) := fun _ h e => by
  cases e
  have k : o.modBits 55 54 = 1 := by
    have h := ((Bool.and_eq_true _ _).mp h).2
    simpa using ((Bool.and_eq_true _ _).mp h).2
  rw [rowOf, opcodeOf_packR, unpackR_packR]
  simp [engineRow, k]

theorem RowOfWord.st (o : Ops) : RowOfWord.Statement (.st o) := fun _ h e => by
  cases e
  have k : o.modBits 55 54 = 0 := modPair_clear ((Bool.and_eq_true _ _).mp h).1 rfl rfl
  rw [rowOf, opcodeOf_packR, unpackR_packR]
  simp [engineRow, k]

theorem RowOfWord.stRelSy (o : Ops) : RowOfWord.Statement (.stRelSy o) := fun _ h e => by
  cases e
  have k : o.modBits 55 54 = 1 := by
    have h := ((Bool.and_eq_true _ _).mp h).2
    simpa using ((Bool.and_eq_true _ _).mp h).2
  rw [rowOf, opcodeOf_packR, unpackR_packR]
  simp [engineRow, k]

theorem RowOfWord.lds (o : Ops) : RowOfWord.Statement (.lds o) := fun _ _ e => by
  cases e
  rw [rowOf, opcodeOf_packR, unpackR_packR]
  rfl

theorem RowOfWord.chkw (o : Ops) : RowOfWord.Statement (.chkw o) := fun _ _ e => by
  cases e
  rw [rowOf, opcodeOf_packR, unpackR_packR]
  rfl

theorem RowOfWord.wclr (o : Ops) : RowOfWord.Statement (.wclr o) := fun _ _ e => by
  cases e
  rw [rowOf, opcodeOf_packR, unpackR_packR]
  rfl

theorem RowOfWord.ldl (o : Ops) : RowOfWord.Statement (.ldl o) := fun _ h e => by
  cases e
  have k : o.modBit 54 = false := modBit_clear ((Bool.and_eq_true _ _).mp h).1 54 rfl
  rw [rowOf, opcodeOf_packR, unpackR_packR]
  simp [engineRow, k]

theorem RowOfWord.ldlDrop (o : Ops) : RowOfWord.Statement (.ldlDrop o) := fun _ h e => by
  cases e
  have k : o.modBit 54 = true := by
    have h := ((Bool.and_eq_true _ _).mp h).2
    exact ((Bool.and_eq_true _ _).mp h).2
  rw [rowOf, opcodeOf_packR, unpackR_packR]
  simp [engineRow, k]

theorem RowOfWord.pf (o : Ops) : RowOfWord.Statement (.pf o) := fun _ _ e => by
  cases e
  rw [rowOf, opcodeOf_packR, unpackR_packR]
  rfl

theorem RowOfWord.res (o : Ops) : RowOfWord.Statement (.res o) := fun _ _ e => by
  cases e
  rw [rowOf, opcodeOf_packR, unpackR_packR]
  rfl

theorem RowOfWord.spmap (o : Ops) : RowOfWord.Statement (.spmap o) := fun _ _ e => by
  cases e
  rw [rowOf, opcodeOf_packR, unpackR_packR]
  rfl

theorem RowOfWord.spunmap (o : Ops) : RowOfWord.Statement (.spunmap o) := fun _ _ e => by
  cases e
  rw [rowOf, opcodeOf_packR, unpackR_packR]
  rfl

theorem RowOfWord.spflush (o : Ops) : RowOfWord.Statement (.spflush o) := fun _ _ e => by
  cases e
  rw [rowOf, opcodeOf_packR, unpackR_packR]
  rfl

theorem RowOfWord.fence (o : Ops) : RowOfWord.Statement (.fence o) := fun _ h e => by
  cases e
  have k : o.modBit 58 = false := modBit_clear (imm := _) h 58 rfl
  rw [rowOf, opcodeOf_packR, unpackR_packR]
  simp [engineRow, k]

theorem RowOfWord.fenceSy (o : Ops) : RowOfWord.Statement (.fenceSy o) := fun _ h e => by
  cases e
  have k : o.modBit 58 = true := ((Bool.and_eq_true _ _).mp h).2
  rw [rowOf, opcodeOf_packR, unpackR_packR]
  simp [engineRow, k]

theorem RowOfWord.lease (o : Ops) : RowOfWord.Statement (.lease o) := fun _ _ e => by
  cases e
  rw [rowOf, opcodeOf_packR, unpackR_packR]
  rfl

theorem RowOfWord.unlease (o : Ops) : RowOfWord.Statement (.unlease o) := fun _ _ e => by
  cases e
  rw [rowOf, opcodeOf_packR, unpackR_packR]
  rfl

theorem RowOfWord.slotClm (o : Ops) : RowOfWord.Statement (.slotClm o) := fun _ _ e => by
  cases e
  rw [rowOf, opcodeOf_packR, unpackR_packR]
  rfl

theorem RowOfWord.slotRel (o : Ops) : RowOfWord.Statement (.slotRel o) := fun _ _ e => by
  cases e
  rw [rowOf, opcodeOf_packR, unpackR_packR]
  rfl

theorem RowOfWord.cpyIn (o : Ops) : RowOfWord.Statement (.cpyIn o) := fun _ _ e => by
  cases e
  rw [rowOf, opcodeOf_packR, unpackR_packR]
  rfl

theorem RowOfWord.cpyOut (o : Ops) : RowOfWord.Statement (.cpyOut o) := fun _ _ e => by
  cases e
  rw [rowOf, opcodeOf_packR, unpackR_packR]
  rfl

theorem RowOfWord.cpyM (o : Ops) : RowOfWord.Statement (.cpyM o) := fun _ _ e => by
  cases e
  rw [rowOf, opcodeOf_packR, unpackR_packR]
  rfl

theorem RowOfWord.cpyNv (o : Ops) : RowOfWord.Statement (.cpyNv o) := fun _ _ e => by
  cases e
  rw [rowOf, opcodeOf_packR, unpackR_packR]
  rfl

theorem RowOfWord.mmaDd (o : Ops) : RowOfWord.Statement (.mmaDd o) := fun _ _ e => by
  cases e
  rw [rowOf, opcodeOf_packR, unpackR_packR]
  rfl

theorem RowOfWord.mmaSs (o : Ops) : RowOfWord.Statement (.mmaSs o) := fun _ _ e => by
  cases e
  rw [rowOf, opcodeOf_packR, unpackR_packR]
  rfl

theorem RowOfWord.mmaBb (o : Ops) : RowOfWord.Statement (.mmaBb o) := fun _ _ e => by
  cases e
  rw [rowOf, opcodeOf_packR, unpackR_packR]
  rfl

theorem RowOfWord.mmaHh (o : Ops) : RowOfWord.Statement (.mmaHh o) := fun _ _ e => by
  cases e
  rw [rowOf, opcodeOf_packR, unpackR_packR]
  rfl

theorem RowOfWord.mmaEe (o : Ops) : RowOfWord.Statement (.mmaEe o) := fun _ _ e => by
  cases e
  rw [rowOf, opcodeOf_packR, unpackR_packR]
  rfl

theorem RowOfWord.mmaEf (o : Ops) : RowOfWord.Statement (.mmaEf o) := fun _ _ e => by
  cases e
  rw [rowOf, opcodeOf_packR, unpackR_packR]
  rfl

theorem RowOfWord.mmaFf (o : Ops) : RowOfWord.Statement (.mmaFf o) := fun _ _ e => by
  cases e
  rw [rowOf, opcodeOf_packR, unpackR_packR]
  rfl

theorem RowOfWord.mmaQq (o : Ops) : RowOfWord.Statement (.mmaQq o) := fun _ _ e => by
  cases e
  rw [rowOf, opcodeOf_packR, unpackR_packR]
  rfl

theorem RowOfWord.mmaQe (o : Ops) : RowOfWord.Statement (.mmaQe o) := fun _ _ e => by
  cases e
  rw [rowOf, opcodeOf_packR, unpackR_packR]
  rfl

theorem RowOfWord.mmaIi (o : Ops) : RowOfWord.Statement (.mmaIi o) := fun _ _ e => by
  cases e
  rw [rowOf, opcodeOf_packR, unpackR_packR]
  rfl

theorem RowOfWord.mmv (o : Ops) : RowOfWord.Statement (.mmv o) := fun _ _ e => by
  cases e
  rw [rowOf, opcodeOf_packR, unpackR_packR]
  rfl

theorem RowOfWord.accZero (o : Ops) : RowOfWord.Statement (.accZero o) := fun _ _ e => by
  cases e
  rw [rowOf, opcodeOf_packR, unpackR_packR]
  rfl

theorem RowOfWord.accRd (o : Ops) : RowOfWord.Statement (.accRd o) := fun _ _ e => by
  cases e
  rw [rowOf, opcodeOf_packR, unpackR_packR]
  rfl

theorem RowOfWord.amo (o : Ops) : RowOfWord.Statement (.amo o) := fun _ _ e => by
  cases e
  rw [rowOf, opcodeOf_packR, unpackR_packR]
  rfl

theorem RowOfWord.red (o : Ops) : RowOfWord.Statement (.red o) := fun _ _ e => by
  cases e
  rw [rowOf, opcodeOf_packR, unpackR_packR]
  rfl

theorem RowOfWord.send (o : Ops) : RowOfWord.Statement (.send o) := fun _ _ e => by
  cases e
  rw [rowOf, opcodeOf_packR, unpackR_packR]
  rfl

theorem RowOfWord.sendm (o : Ops) : RowOfWord.Statement (.sendm o) := fun _ _ e => by
  cases e
  rw [rowOf, opcodeOf_packR, unpackR_packR]
  rfl

theorem RowOfWord.sendNx (o : Ops) : RowOfWord.Statement (.sendNx o) := fun _ _ e => by
  cases e
  rw [rowOf, opcodeOf_packR, unpackR_packR]
  rfl

theorem RowOfWord.hset (o : Ops) : RowOfWord.Statement (.hset o) := fun _ _ e => by
  cases e
  rw [rowOf, opcodeOf_packR, unpackR_packR]
  rfl

theorem RowOfWord.hmask (o : Ops) : RowOfWord.Statement (.hmask o) := fun _ _ e => by
  cases e
  rw [rowOf, opcodeOf_packR, unpackR_packR]
  rfl

theorem RowOfWord.hunmask (o : Ops) : RowOfWord.Statement (.hunmask o) := fun _ _ e => by
  cases e
  rw [rowOf, opcodeOf_packR, unpackR_packR]
  rfl

theorem RowOfWord.jinit (o : Ops) : RowOfWord.Statement (.jinit o) := fun _ _ e => by
  cases e
  rw [rowOf, opcodeOf_packR, unpackR_packR]
  rfl

theorem RowOfWord.jarr (o : Ops) : RowOfWord.Statement (.jarr o) := fun _ _ e => by
  cases e
  rw [rowOf, opcodeOf_packR, unpackR_packR]
  rfl

theorem RowOfWord.qopen (o : Ops) : RowOfWord.Statement (.qopen o) := fun _ _ e => by
  cases e
  rw [rowOf, opcodeOf_packR, unpackR_packR]
  rfl

theorem RowOfWord.qwait (o : Ops) : RowOfWord.Statement (.qwait o) := fun _ _ e => by
  cases e
  rw [rowOf, opcodeOf_packR, unpackR_packR]
  rfl

theorem RowOfWord.cbegin (o : Ops) : RowOfWord.Statement (.cbegin o) := fun _ _ e => by
  cases e
  rw [rowOf, opcodeOf_packR, unpackR_packR]
  rfl

theorem RowOfWord.stc (o : Ops) : RowOfWord.Statement (.stc o) := fun _ _ e => by
  cases e
  rw [rowOf, opcodeOf_packR, unpackR_packR]
  rfl

theorem RowOfWord.lay (o : Ops) : RowOfWord.Statement (.lay o) := fun _ _ e => by
  cases e
  rw [rowOf, opcodeOf_packR, unpackR_packR]
  rfl

theorem RowOfWord.abandon (o : Ops) : RowOfWord.Statement (.abandon o) := fun _ _ e => by
  cases e
  rw [rowOf, opcodeOf_packR, unpackR_packR]
  rfl

theorem RowOfWord.cstat (o : Ops) : RowOfWord.Statement (.cstat o) := fun _ _ e => by
  cases e
  rw [rowOf, opcodeOf_packR, unpackR_packR]
  rfl

theorem RowOfWord.exdef (o : Ops) : RowOfWord.Statement (.exdef o) := fun _ _ e => by
  cases e
  rw [rowOf, opcodeOf_packR, unpackR_packR]
  rfl

theorem RowOfWord.exrt (o : Ops) : RowOfWord.Statement (.exrt o) := fun _ _ e => by
  cases e
  rw [rowOf, opcodeOf_packR, unpackR_packR]
  rfl

theorem RowOfWord.exload (o : Ops) : RowOfWord.Statement (.exload o) := fun _ _ e => by
  cases e
  rw [rowOf, opcodeOf_packR, unpackR_packR]
  rfl

theorem RowOfWord.exgrow (o : Ops) : RowOfWord.Statement (.exgrow o) := fun _ _ e => by
  cases e
  rw [rowOf, opcodeOf_packR, unpackR_packR]
  rfl

theorem RowOfWord.exretire (o : Ops) : RowOfWord.Statement (.exretire o) := fun _ _ e => by
  cases e
  rw [rowOf, opcodeOf_packR, unpackR_packR]
  rfl

theorem RowOfWord.exjoinContrib (o : Ops) : RowOfWord.Statement (.exjoinContrib o) := fun _ h e => by
  cases e
  have k : o.modBit 59 = false := modBit_clear h 59 rfl
  rw [rowOf, opcodeOf_packR, unpackR_packR]
  simp [engineRow, k]

theorem RowOfWord.exjoinHand (o : Ops) : RowOfWord.Statement (.exjoinHand o) := fun _ h e => by
  cases e
  have k : o.modBit 59 = true := ((Bool.and_eq_true _ _).mp h).2
  rw [rowOf, opcodeOf_packR, unpackR_packR]
  simp [engineRow, k]

theorem RowOfWord.exupd (o : Ops) : RowOfWord.Statement (.exupd o) := fun _ _ e => by
  cases e
  rw [rowOf, opcodeOf_packR, unpackR_packR]
  rfl

theorem RowOfWord.exspill (o : Ops) : RowOfWord.Statement (.exspill o) := fun _ _ e => by
  cases e
  rw [rowOf, opcodeOf_packR, unpackR_packR]
  rfl

theorem RowOfWord.instructionLimitChunkEnd (strand : Nat) : RowOfWord.Statement (.instructionLimitChunkEnd strand) :=
  fun _ _ e => nomatch e

theorem RowOfWord.commitPoint (strand : Nat) : RowOfWord.Statement (.commitPoint strand) := fun _ _ e => nomatch e

theorem RowOfWord.soleCommitTokenGrant (die : Nat) : RowOfWord.Statement (.soleCommitTokenGrant die) := fun _ _ e => nomatch e

theorem RowOfWord.loadDataReturn (strand seq : Nat) : RowOfWord.Statement (.loadDataReturn strand seq) := fun _ _ e => nomatch e

theorem RowOfWord.storeAcknowledgement (strand seq : Nat) : RowOfWord.Statement (.storeAcknowledgement strand seq) :=
  fun _ _ e => nomatch e

theorem RowOfWord.translationMiss (source lkey va kind : Nat) : RowOfWord.Statement (.translationMiss source lkey va kind) :=
  fun _ _ e => nomatch e

theorem RowOfWord.mtuResume (pkg unit parkId : Nat) : RowOfWord.Statement (.mtuResume pkg unit parkId) := fun _ _ e => nomatch e

theorem RowOfWord.mtuKill (pkg unit lkey : Nat) : RowOfWord.Statement (.mtuKill pkg unit lkey) := fun _ _ e => nomatch e

theorem RowOfWord.counterHalving (pkg unit : Nat) : RowOfWord.Statement (.counterHalving pkg unit) := fun _ _ e => nomatch e

theorem RowOfWord.cdump (pkg unit value : Nat) : RowOfWord.Statement (.cdump pkg unit value) := fun _ _ e => nomatch e

theorem RowOfWord.counterDumpDone (pkg unit : Nat) : RowOfWord.Statement (.counterDumpDone pkg unit) := fun _ _ e => nomatch e

theorem RowOfWord.pageMove (pkg unit leaf frame : Nat) : RowOfWord.Statement (.pageMove pkg unit leaf frame) :=
  fun _ _ e => nomatch e

theorem RowOfWord.moveFinalPass (pkg unit : Nat) : RowOfWord.Statement (.moveFinalPass pkg unit) := fun _ _ e => nomatch e

theorem RowOfWord.homeReadRequest (packet : Nat) : RowOfWord.Statement (.homeReadRequest packet) := fun _ _ e => nomatch e

theorem RowOfWord.homeOwnershipRequest (packet : Nat) : RowOfWord.Statement (.homeOwnershipRequest packet) :=
  fun _ _ e => nomatch e

theorem RowOfWord.homeWriteBack (packet : Nat) : RowOfWord.Statement (.homeWriteBack packet) := fun _ _ e => nomatch e

theorem RowOfWord.recallAnswer (packet : Nat) : RowOfWord.Statement (.recallAnswer packet) := fun _ _ e => nomatch e

theorem RowOfWord.invalidationArrival (packet : Nat) : RowOfWord.Statement (.invalidationArrival packet) := fun _ _ e => nomatch e

theorem RowOfWord.recallArrival (packet : Nat) : RowOfWord.Statement (.recallArrival packet) := fun _ _ e => nomatch e

theorem RowOfWord.fillAnswer (packet : Nat) : RowOfWord.Statement (.fillAnswer packet) := fun _ _ e => nomatch e

theorem RowOfWord.confirmRequest (packet : Nat) : RowOfWord.Statement (.confirmRequest packet) := fun _ _ e => nomatch e

theorem RowOfWord.confirmAnswer (packet : Nat) : RowOfWord.Statement (.confirmAnswer packet) := fun _ _ e => nomatch e

theorem RowOfWord.combineRequest (packet : Nat) : RowOfWord.Statement (.combineRequest packet) := fun _ _ e => nomatch e

theorem RowOfWord.combinePartialArrival (packet : Nat) : RowOfWord.Statement (.combinePartialArrival packet) :=
  fun _ _ e => nomatch e

theorem RowOfWord.windowWriteBack (core : Nat) : RowOfWord.Statement (.windowWriteBack core) := fun _ _ e => nomatch e

theorem RowOfWord.hostSnpdata (pkg line : Nat) : RowOfWord.Statement (.hostSnpdata pkg line) := fun _ _ e => nomatch e

theorem RowOfWord.hostSnpinv (pkg line : Nat) : RowOfWord.Statement (.hostSnpinv pkg line) := fun _ _ e => nomatch e

theorem RowOfWord.hostSnpcur (pkg line : Nat) : RowOfWord.Statement (.hostSnpcur pkg line) := fun _ _ e => nomatch e

theorem RowOfWord.hostCxlMemRead (pkg addr size : Nat) (caches : Bool) :
    RowOfWord.Statement (.hostCxlMemRead pkg addr size caches) :=
  fun _ _ e => nomatch e

theorem RowOfWord.hostCxlMemWrite (pkg addr : Nat) (data : List Byte) : RowOfWord.Statement (.hostCxlMemWrite pkg addr data) :=
  fun _ _ e => nomatch e

theorem RowOfWord.backInvalidationAnswer (pkg line : Nat) (data : List Byte) :
    RowOfWord.Statement (.backInvalidationAnswer pkg line data) :=
  fun _ _ e => nomatch e

theorem RowOfWord.cxlCacheGrant (pkg line : Nat) (exclusive : Bool) (data : List Byte) :
    RowOfWord.Statement (.cxlCacheGrant pkg line exclusive data) :=
  fun _ _ e => nomatch e

theorem RowOfWord.messageArrival (msg : Nat) : RowOfWord.Statement (.messageArrival msg) := fun _ _ e => nomatch e

theorem RowOfWord.handlerSelection (core : Nat) : RowOfWord.Statement (.handlerSelection core) := fun _ _ e => nomatch e

theorem RowOfWord.brickMessageArrival (msg : Nat) : RowOfWord.Statement (.brickMessageArrival msg) := fun _ _ e => nomatch e

theorem RowOfWord.quiescenceWave : RowOfWord.Statement (.quiescenceWave) := fun _ _ e => nomatch e

theorem RowOfWord.doorbell (pkg queue tail : Nat) : RowOfWord.Statement (.doorbell pkg queue tail) := fun _ _ e => nomatch e

theorem RowOfWord.hquSubmitMessage (msg : Nat) : RowOfWord.Statement (.hquSubmitMessage msg) := fun _ _ e => nomatch e

theorem RowOfWord.quantumRemap (pkg : Nat) : RowOfWord.Statement (.quantumRemap pkg) := fun _ _ e => nomatch e

theorem RowOfWord.admission (pkg queue : Nat) : RowOfWord.Statement (.admission pkg queue) := fun _ _ e => nomatch e

theorem RowOfWord.launchDispatch (lkey : Nat) : RowOfWord.Statement (.launchDispatch lkey) := fun _ _ e => nomatch e

theorem RowOfWord.graphAdmission (pkg queue : Nat) : RowOfWord.Statement (.graphAdmission pkg queue) := fun _ _ e => nomatch e

theorem RowOfWord.graphNodeComplete (pkg graph node : Nat) : RowOfWord.Statement (.graphNodeComplete pkg graph node) :=
  fun _ _ e => nomatch e

theorem RowOfWord.msixCoalesceExpiry (pkg queue : Nat) : RowOfWord.Statement (.msixCoalesceExpiry pkg queue) :=
  fun _ _ e => nomatch e

theorem RowOfWord.watchEntryWrite (pkg entry word value : Nat) : RowOfWord.Statement (.watchEntryWrite pkg entry word value) :=
  fun _ _ e => nomatch e

theorem RowOfWord.leaseGrant (cluster : Nat) : RowOfWord.Statement (.leaseGrant cluster) := fun _ _ e => nomatch e

theorem RowOfWord.leaseTermExpiry (cluster : Nat) : RowOfWord.Statement (.leaseTermExpiry cluster) := fun _ _ e => nomatch e

theorem RowOfWord.tileTaskIssue (cluster : Nat) : RowOfWord.Statement (.tileTaskIssue cluster) := fun _ _ e => nomatch e

theorem RowOfWord.tileTaskComplete (cluster : Nat) : RowOfWord.Statement (.tileTaskComplete cluster) := fun _ _ e => nomatch e

theorem RowOfWord.subnormalAssist (cluster : Nat) : RowOfWord.Statement (.subnormalAssist cluster) := fun _ _ e => nomatch e

theorem RowOfWord.copyCommandStart (cluster : Nat) : RowOfWord.Statement (.copyCommandStart cluster) := fun _ _ e => nomatch e

theorem RowOfWord.copyCommandComplete (cluster cmd : Nat) : RowOfWord.Statement (.copyCommandComplete cluster cmd) :=
  fun _ _ e => nomatch e

theorem RowOfWord.accumulatorLastElementRead (cluster cmd : Nat) : RowOfWord.Statement (.accumulatorLastElementRead cluster cmd) :=
  fun _ _ e => nomatch e

theorem RowOfWord.nvmeCompletionEntry (pkg queue cid status : Nat) :
    RowOfWord.Statement (.nvmeCompletionEntry pkg queue cid status) :=
  fun _ _ e => nomatch e

theorem RowOfWord.nvmeTimeout (pkg queue cid : Nat) : RowOfWord.Statement (.nvmeTimeout pkg queue cid) := fun _ _ e => nomatch e

theorem RowOfWord.nvmeControllerWrite (pkg offset : Nat) (data : List Byte) :
    RowOfWord.Statement (.nvmeControllerWrite pkg offset data) :=
  fun _ _ e => nomatch e

theorem RowOfWord.nvmeQueueEntryWrite (pkg queue word value : Nat) :
    RowOfWord.Statement (.nvmeQueueEntryWrite pkg queue word value) :=
  fun _ _ e => nomatch e

theorem RowOfWord.stcStagingArrival (pkg stc : Nat) : RowOfWord.Statement (.stcStagingArrival pkg stc) := fun _ _ e => nomatch e

theorem RowOfWord.coursePrepare (pkg src num : Nat) : RowOfWord.Statement (.coursePrepare pkg src num) := fun _ _ e => nomatch e

theorem RowOfWord.courseReadyReport (src num dst status : Nat) : RowOfWord.Statement (.courseReadyReport src num dst status) :=
  fun _ _ e => nomatch e

theorem RowOfWord.courseTimeout (src num : Nat) : RowOfWord.Statement (.courseTimeout src num) := fun _ _ e => nomatch e

theorem RowOfWord.courseDecision (pkg src num : Nat) : RowOfWord.Statement (.courseDecision pkg src num) := fun _ _ e => nomatch e

theorem RowOfWord.courseDecisionAck (src num dst : Nat) : RowOfWord.Statement (.courseDecisionAck src num dst) :=
  fun _ _ e => nomatch e

theorem RowOfWord.scoringRequest (msg : Nat) : RowOfWord.Statement (.scoringRequest msg) := fun _ _ e => nomatch e

theorem RowOfWord.tokenArrival (msg : Nat) : RowOfWord.Statement (.tokenArrival msg) := fun _ _ e => nomatch e

theorem RowOfWord.loadWindowEnd (pkg : Nat) : RowOfWord.Statement (.loadWindowEnd pkg) := fun _ _ e => nomatch e

theorem RowOfWord.replicaCopyComplete (name entry : Nat) : RowOfWord.Statement (.replicaCopyComplete name entry) :=
  fun _ _ e => nomatch e

theorem RowOfWord.contributionArrival (name cmd : Nat) : RowOfWord.Statement (.contributionArrival name cmd) :=
  fun _ _ e => nomatch e

theorem RowOfWord.exupdCourseStatus (name status : Nat) : RowOfWord.Statement (.exupdCourseStatus name status) :=
  fun _ _ e => nomatch e

theorem RowOfWord.combineContribution (msg : Nat) : RowOfWord.Statement (.combineContribution msg) := fun _ _ e => nomatch e

theorem RowOfWord.combineRecordRecheck (pkg gateway : Nat) : RowOfWord.Statement (.combineRecordRecheck pkg gateway) :=
  fun _ _ e => nomatch e

theorem RowOfWord.mergeContribution (msg : Nat) : RowOfWord.Statement (.mergeContribution msg) := fun _ _ e => nomatch e

theorem RowOfWord.trapEntry (strand : Nat) : RowOfWord.Statement (.trapEntry strand) := fun _ _ e => nomatch e

theorem RowOfWord.preemption (cluster lkey : Nat) : RowOfWord.Statement (.preemption cluster lkey) := fun _ _ e => nomatch e

theorem RowOfWord.spillComplete (cluster : Nat) : RowOfWord.Statement (.spillComplete cluster) := fun _ _ e => nomatch e

theorem RowOfWord.launchResume (cluster target : Nat) : RowOfWord.Statement (.launchResume cluster target) :=
  fun _ _ e => nomatch e

theorem RowOfWord.packageDeclaredDown (pkg : Nat) : RowOfWord.Statement (.packageDeclaredDown pkg) := fun _ _ e => nomatch e

theorem RowOfWord.gixisFlitReceive (pkg port : Nat) (flit : List Byte) : RowOfWord.Statement (.gixisFlitReceive pkg port flit) :=
  fun _ _ e => nomatch e

theorem RowOfWord.gixisReplayRequest (pkg port seq : Nat) : RowOfWord.Statement (.gixisReplayRequest pkg port seq) :=
  fun _ _ e => nomatch e

theorem RowOfWord.linkRetrain (pkg port width lanes speed peerWidth peerLanes peerSpeed : Nat) :
    RowOfWord.Statement (.linkRetrain pkg port width lanes speed peerWidth peerLanes peerSpeed) :=
  fun _ _ e => nomatch e

theorem RowOfWord.linkRetrainTimeout (pkg port : Nat) : RowOfWord.Statement (.linkRetrainTimeout pkg port) :=
  fun _ _ e => nomatch e

theorem RowOfWord.e2eAckArrival (pkg dst vc seq : Nat) : RowOfWord.Statement (.e2eAckArrival pkg dst vc seq) :=
  fun _ _ e => nomatch e

theorem RowOfWord.e2eAckTimer (pkg : Nat) : RowOfWord.Statement (.e2eAckTimer pkg) := fun _ _ e => nomatch e

theorem RowOfWord.e2eResendRequest (pkg dst vc seq : Nat) : RowOfWord.Statement (.e2eResendRequest pkg dst vc seq) :=
  fun _ _ e => nomatch e

theorem RowOfWord.tunnelDatagramReceive (pkg port : Nat) (datagram : List Byte) :
    RowOfWord.Statement (.tunnelDatagramReceive pkg port datagram) :=
  fun _ _ e => nomatch e

theorem RowOfWord.tunnelRetransmitTimeout (pkg domain seq : Nat) : RowOfWord.Statement (.tunnelRetransmitTimeout pkg domain seq) :=
  fun _ _ e => nomatch e

theorem RowOfWord.secondTierLinkDown (pkg port : Nat) : RowOfWord.Statement (.secondTierLinkDown pkg port) :=
  fun _ _ e => nomatch e

theorem RowOfWord.powerEpoch (pkg : Nat) : RowOfWord.Statement (.powerEpoch pkg) := fun _ _ e => nomatch e

theorem RowOfWord.ageingRefresh (pkg : Nat) (months : List Nat) : RowOfWord.Statement (.ageingRefresh pkg months) :=
  fun _ _ e => nomatch e

theorem RowOfWord.firmwareVerify (pkg : Nat) (image signature : List Byte) :
    RowOfWord.Statement (.firmwareVerify pkg image signature) :=
  fun _ _ e => nomatch e

theorem RowOfWord.attestationRequest (pkg : Nat) (nonce : List Byte) : RowOfWord.Statement (.attestationRequest pkg nonce) :=
  fun _ _ e => nomatch e

theorem RowOfWord.bringUpLevel (pkg : Nat) (selfTest : Bool) : RowOfWord.Statement (.bringUpLevel pkg selfTest) :=
  fun _ _ e => nomatch e

theorem RowOfWord.registerWrite (pkg offset size value : Nat) : RowOfWord.Statement (.registerWrite pkg offset size value) :=
  fun _ _ e => nomatch e

theorem RowOfWord.faultRingWrite (pkg unit offset value : Nat) : RowOfWord.Statement (.faultRingWrite pkg unit offset value) :=
  fun _ _ e => nomatch e

theorem RowOfWord.candidateRingWrite (pkg unit offset value : Nat) :
    RowOfWord.Statement (.candidateRingWrite pkg unit offset value) :=
  fun _ _ e => nomatch e

theorem RowOfWord.tunnelRouteEntryWrite (pkg domain word value : Nat) :
    RowOfWord.Statement (.tunnelRouteEntryWrite pkg domain word value) :=
  fun _ _ e => nomatch e

theorem RowOfWord.secondTierLinkUp (pkg port capacity : Nat) : RowOfWord.Statement (.secondTierLinkUp pkg port capacity) :=
  fun _ _ e => nomatch e

end Sys2Proof.Laws
end

