-- ==== Sys2Proof/Tests/Slice0.lean ====
section
/-!
SUPPORT. The model's own tests: terms that break a field rule are refused, words written out from the spec's encodings decode
to the instructions they stand for, small steps give the results of the spec's rules, and for the statements of
Certificates/Slice0/Obligations.lean small states meet the hypotheses of their clauses.
-/

namespace Sys2Proof.Tests

open Sys2Proof Sys2Proof.Machine

set_option maxRecDepth 100000

/-- Fields of the R format under no guard. -/
def ops (dst sa sb sc : BitVec 6) (md : BitVec 12) (imm : BitVec 48) : Ops := ⟨⟨false, 0⟩, dst, sa, sb, sc, md, imm⟩

/-! ### Ill-formed terms -/

/-- A guard with GN = 1 and GP = 0 is illegal (R173). -/
theorem test_refused_guard : (Instr.add ⟨⟨true, 0⟩, 1, 2, 3, 0, 0, 0⟩).wellFormed = false := by decide

/-- A register beyond its file is illegal: s32, f16, p8 and a32 (R168, R174). -/
theorem test_refused_registers : (Instr.add (ops 32 2 3 0 0 0)).wellFormed = false ∧
    (Instr.fadd (ops 16 1 2 0 0x500 0)).wellFormed = false ∧ (Instr.cmp (ops 8 1 2 0 0 0)).wellFormed = false ∧
    (Instr.accZero (ops 32 0 0 0 0 1)).wellFormed = false := by decide

/-- A field that an instruction does not use must be zero (R167). -/
theorem test_refused_unused : (Instr.add (ops 1 2 3 1 0 0)).wellFormed = false ∧ (Instr.nop (ops 1 0 0 0 0 0)).wellFormed = false ∧
    (Instr.add (ops 1 2 3 0 0 1)).wellFormed = false ∧ (Instr.add (ops 1 2 3 0 1 0)).wellFormed = false := by decide

/-- With I = 1, SB is zero (R168). -/
theorem test_refused_immediate_form : (Instr.add (ops 1 2 3 0 0x800 5)).wellFormed = false ∧
    (Instr.add (ops 1 2 0 0 0x800 5)).wellFormed = true := by decide

/-- A reserved condition of CMP is illegal: codes 0 to 9 exist (R197). -/
theorem test_refused_condition : (Instr.cmp (ops 1 2 3 0 (10 <<< 6) 0)).wellFormed = false ∧
    (Instr.cmp (ops 1 2 3 0 (9 <<< 6) 0)).wellFormed = true := by decide

/-- A bit field longer than 64 is illegal, and one of 64 is not (R199). -/
theorem test_refused_field_length : (Instr.bfx (ops 1 2 0 0 0x800 (65 <<< 6))).wellFormed = false ∧
    (Instr.bfx (ops 1 2 0 0 0x800 (64 <<< 6))).wellFormed = true := by decide

/-- A scalar floating-point instruction takes the types 8 to 11 alone (R202). -/
theorem test_refused_scalar_type : (Instr.fadd (ops 1 2 3 0 (12 <<< 7) 0)).wellFormed = false ∧
    (Instr.fadd (ops 1 2 3 0 (11 <<< 7) 0)).wellFormed = true := by decide

/-- TYPE 15 of a vector instruction is reserved (R255). -/
theorem test_refused_vector_type : (Instr.vadd (ops 1 2 3 0 0xF00 0)).wellFormed = false ∧
    (Instr.vadd (ops 1 2 3 0 0xA00 0)).wellFormed = true := by decide

/-- A pair takes the operations of R172 alone. -/
theorem test_refused_pair :
    (Instr.pair ⟨⟨false, 0⟩, 0x01, 1, 2, 3, false, 0, 63, 1, 2, 3, 0, 10⟩).wellFormed = false ∧
      (Instr.pair ⟨⟨false, 0⟩, 0x01, 1, 2, 3, false, 0, 0, 1, 2, 3, 0, 10⟩).wellFormed = true := by decide

/-! ### Words of the spec -/

/-- Scalar words: (!p3) ADD s7, s5, s6; ADD s7, s5, 64; ADD s7, s5, s6; CMP.LT p1, s7, 64; FDIV.F32 f3, f1, f2 (R167, R187, R195,
R197, R202). -/
theorem test_decode_scalar : decode 0x01B1C5180000000000000000#96 = .instr (.add ⟨⟨true, 3⟩, 7, 5, 6, 0, 0, 0⟩) ∧
    decode 0x0101C5000800000000000040#96 = .instr (.add (ops 7 5 0 0 0x800 64)) ∧
    decode 0x0101C5180000000000000000#96 = .instr (.add (ops 7 5 6 0 0 0)) ∧
    decode 0x160047000880000000000040#96 = .instr (.cmp (ops 1 7 0 0 0x880 64)) ∧
    decode 0x2400C1080580000000000000#96 = .instr (.fdiv (ops 3 1 2 0 0x580 0)) := by decide

/-- Control words: LOOP s4, -5; WAIT 0, 63, 63, 63 (R208, R209). -/
theorem test_decode_control : decode 0x310100000000FFFFFFFFFFFB#96 = .instr (.loop (ops 4 0 0 0 0 0xFFFFFFFFFFFB)) ∧
    decode 0x320000000000000000FFFFC0#96 = .instr (.wait (ops 0 0 0 0 0 0xFFFFC0)) := by decide

/-- A pair: add s3, s3, 8 || vadd.f32 v2, v0, v1 (R171). -/
theorem test_decode_pair : decode 0x8000430C0800800200102800#96 =
    .instr (.pair ⟨⟨false, 0⟩, 0x01, 3, 3, 0, true, 8, 0, 2, 0, 1, 0, 10⟩) := by decide

/-- Vector words: VFMA.F32 v7, v4, v5, v6; VCVT.E4M3.F32.SAT v2, v1; VLD; VCMP.LT.F32 p2, v0, v1; (p1) VDIST.IP.S8 v5, v1,
[s23 + v3 + 32]; VTOPK (R256, R260, R262, R263, R271, R272). -/
theorem test_decode_vector : decode 0x4301C4146A00000000000000#96 = .instr (.vfma (ops 7 4 5 6 0xA00 0)) ∧
    decode 0x4F0081000CA1000000000000#96 = .instr (.vcvt (ops 2 1 0 0 0xCA1 0)) ∧
    decode 0x500102000A00000000000040#96 = .instr (.vld (ops 4 2 0 0 0xA00 64)) ∧
    decode 0x4D0080040A10000000000000#96 = .instr (.vcmp (ops 2 0 1 0 0xA10 0)) ∧
    decode 0x5D11570C1040000000000020#96 = .instr (.vdist ⟨⟨false, 1⟩, 5, 23, 3, 1, 0x040, 0x20⟩) ∧
    decode 0x5E11850C0200000000000002#96 = .instr (.vtopk ⟨⟨false, 1⟩, 6, 5, 3, 0, 0x200, 2⟩) := by decide

/-- More memory words: ST.W [s9 + 4], s7; LDS.W s7, [s2]; CHKW -2; LDL.D.DROP s9, [s4 + 16]; SPMAP 1, s4, s5, s6; SPFLUSH 3;
FENCE.SY; AMO.MAX.W s15, [s3], s5; JINIT [s9], s10, 2; JARR s23, [s13] (R226 to R238, R294, R303, R304). -/
theorem test_decode_memory_more : decode 0xC10009007800000000000004#96 = .instr (.st (ops 0 9 0 7 0x800 4)) ∧
    decode 0xC201C2000800000000000000#96 = .instr (.lds (ops 7 2 0 0 0x800 0)) ∧
    decode 0xC30000000000FFFFFFFFFFFE#96 = .instr (.chkw (ops 0 0 0 0 0 0xFFFFFFFFFFFE)) ∧
    decode 0xC50244000C40000000000010#96 = .instr (.ldlDrop (ops 9 4 0 0 0xC40 16)) ∧
    decode 0xC80004146100000000000000#96 = .instr (.spmap (ops 0 4 5 6 0x100 0)) ∧
    decode 0xCA0000000300000000000000#96 = .instr (.spflush (ops 0 0 0 0 0x300 0)) ∧
    decode 0xCB0000000400000000000000#96 = .instr (.fenceSy (ops 0 0 0 0 0x400 0)) ∧
    decode 0xE103C3005980000000000000#96 = .instr (.amo (ops 15 3 0 5 0x980 0)) ∧
    decode 0xE9000900A000000000000002#96 = .instr (.jinit (ops 0 9 0 10 0 2)) ∧
    decode 0xEA05CD000000000000000000#96 = .instr (.jarr (ops 23 13 0 0 0 0)) := by decide

/-- Memory words: LD.W s5, [s1 + s21·8 + 48]; LD.ACQ.SY.W s6, [s3]; LD.D s8, [s2]; ST.REL.SY.D [s5 + 8], s10; RED.FMAX.W
(R222, R223, R297). -/
theorem test_decode_memory : decode 0xC00141540803000000000030#96 = .instr (.ld (ops 5 1 21 0 0x803 48)) ∧
    decode 0xC00183000840000000000000#96 = .instr (.ldAcqSy (ops 6 3 0 0 0x840 0)) ∧
    decode 0xC00202000C00000000000000#96 = .instr (.ld (ops 8 2 0 0 0xC00 0)) ∧
    decode 0xC1000500AC40000000000008#96 = .instr (.stRelSy (ops 0 5 0 10 0xC40 8)) ∧
    decode 0xE20002005AC0000000000000#96 = .instr (.red (ops 0 2 0 5 0xAC0 0)) := by decide

/-- Engine words: LEASE 5; SLOT.CLM p1, 0, 2; MMA.SS and MMA.BB; CPY.OUT (R277, R278, R281, R289). -/
theorem test_decode_engine : decode 0xCC0000000000000000000005#96 = .instr (.lease (ops 0 0 0 0 0 5)) ∧
    decode 0xCE0040000000000000000200#96 = .instr (.slotClm (ops 1 0 0 0 0 0x200)) ∧
    decode 0xD50000000E00000000000100#96 = .instr (.mmaSs (ops 0 0 0 0 0xE00 0x100)) ∧
    decode 0xD600C0002400000000000605#96 = .instr (.mmaBb (ops 3 0 0 2 0x400 0x605)) ∧
    decode 0xD1024C000000000000000000#96 = .instr (.cpyOut (ops 9 12 0 0 0 0)) := by decide

/-- Message words: SEND; SENDM; SEND.NW.Q2 s3, 9, v4, 16; SUSP [s14], s13, 1; HSET 3, s5; QOPEN.Q3; QWAIT (R299, R300, R302, R305, R306). -/
theorem test_decode_messages : decode 0xE3001C00E000000000001802#96 = .instr (.send (ops 0 28 0 14 0 0x1802)) ∧
    decode 0xE40005304000000000004005#96 = .instr (.sendm (ops 0 5 12 4 0 0x4005)) ∧
    decode 0xE30003004802000000001009#96 = .instr (.send (ops 0 3 0 4 0x802 0x1009)) ∧
    decode 0x34000E340000000000000001#96 = .instr (.susp (ops 0 14 13 0 0 1)) ∧
    decode 0xE60005000000000000000003#96 = .instr (.hset (ops 0 5 0 0 0 3)) ∧
    decode 0xEB0000000003000000000000#96 = .instr (.qopen (ops 0 0 0 0 3 0)) ∧
    decode 0xEC0009000003000000000002#96 = .instr (.qwait (ops 0 9 0 0 3 2)) := by decide

/-- Course words: CBEGIN s10; STC.W [s2], s5, s10; LAY s11, s10; ABANDON s10; CSTAT s12, s10 (R307, R309, R311, R312). -/
theorem test_decode_courses : decode 0xED0280000000000000000000#96 = .instr (.cbegin (ops 10 0 0 0 0 0)) ∧
    decode 0xEE0282005800000000000000#96 = .instr (.stc (ops 10 2 0 5 0x800 0)) ∧
    decode 0xEF02CA000000000000000000#96 = .instr (.lay (ops 11 10 0 0 0 0)) ∧
    decode 0xF0000A000000000000000000#96 = .instr (.abandon (ops 0 10 0 0 0 0)) ∧
    decode 0xF1030A000000000000000000#96 = .instr (.cstat (ops 12 10 0 0 0 0)) := by decide

/-- Expert words: EXDEF s9, s3, s4; EXRT s12, s3, 6; EXLOAD s9, s10, 2; EXGROW s9, s3, 32; EXJOIN.HAND s9, s3, s2, 2; EXUPD s9, s3;
EXSPILL s9, s3 (R334, R337 to R342). -/
theorem test_decode_experts : decode 0xF20243100000000000000000#96 = .instr (.exdef (ops 9 3 4 0 0 0)) ∧
    decode 0xF30183000000000000000006#96 = .instr (.exrt (ops 6 3 0 0 0 6)) ∧
    decode 0xF4024A000000000000000002#96 = .instr (.exload (ops 9 10 0 0 0 2)) ∧
    decode 0xF50243000000000000000020#96 = .instr (.exgrow (ops 9 3 0 0 0 32)) ∧
    decode 0xF70243300800000000000002#96 = .instr (.exjoinHand (ops 9 3 12 0 0x800 2)) ∧
    decode 0xF80243000000000000000000#96 = .instr (.exupd (ops 9 3 0 0 0 0)) ∧
    decode 0xF90243000000000000000000#96 = .instr (.exspill (ops 9 3 0 0 0 0)) := by decide

/-- Reserved opcodes, and a word of zeros, are no instruction (R187 to R190). -/
theorem test_decode_reserved : decode 0#96 = .reject .reservedOpcode ∧ decode 0xFFFFFFFFFFFFFFFFFFFFFFFF#96 = .reject .reservedOpcode ∧
    decode 0x0101C5180000000000000001#96 = .reject .illegalField ∧ decodeBytes [1, 2, 3] = (.reject .notASlot, [1, 2, 3]) := by decide

/-! ### Results of the spec's rules and examples -/

/-- VCVT.E4M3.F32: 465.0 saturates to 448, -0.001 is the smallest subnormal and -0.0009 rounds to -0; without SAT, 465.0 is the
NaN of the format (R245, R262). -/
theorem test_convert_e4m3 : convert 12 10 .rne true 0 0x43E88000 = 0x7E ∧ convert 12 10 .rne true 0 0xBA83126F = 0x81 ∧
    convert 12 10 .rne true 0 0xBA6BEDFA = 0x80 ∧ convert 12 10 .rne false 0 0x43E88000 = 0x7F := by decide

/-! ### Witnesses: scalar instructions -/

theorem issues_of {s : State} {g : Guard} {rs : List Nat}
    (h : (decide (s.cur < strandLimit) && (g.p == 0 || !s.me.pending (regP g.p.toNat)) && s.scalarOn g &&
      rs.all fun r => !s.me.pending r) = true) : s.issues g rs := by
  simp only [Bool.and_eq_true, Bool.or_eq_true, decide_eq_true_eq, beq_iff_eq, Bool.not_eq_true', List.all_eq_true] at h
  exact ⟨⟨h.1.1.1, h.1.1.2⟩, h.1.2, h.2⟩

theorem issuesV_of {s : State} {g : Guard} {t : Nat} {rs : List Nat} {vs : List (BitVec 6)}
    (h : (decide (s.cur < strandLimit) && (g.p == 0 || !s.me.pending (regP g.p.toNat)) && !(s.activeIn g t).isEmpty &&
      (rs.all fun r => !s.me.pending r) && vs.all fun v => decide (v.toNat < s.vAllot s.cur)) = true) : s.issuesV g t rs vs := by
  simp only [Bool.and_eq_true, Bool.or_eq_true, decide_eq_true_eq, beq_iff_eq, Bool.not_eq_true', List.all_eq_true,
    List.isEmpty_eq_false_iff] at h
  exact ⟨⟨h.1.1.1.1, h.1.1.1.2⟩, h.1.1.2, h.1.2, h.2⟩

/-- Strand 0 runs with some s and f registers, in no launch. -/
def hold (ss fs : Tab Word) : State := { State.reset with strands := [(0, { run := .running, regs := { s := ss, f := fs } })] }

theorem witness_decodeOfEncode : (Instr.add (ops 7 5 6 0 0 0)).wellFormed = true ∧
    encode (.add (ops 7 5 6 0 0 0)) = some 0x0101C5180000000000000000#96 := by decide

theorem witness_encodeOfDecode : decode 0x0101C5180000000000000000#96 = .instr (.add (ops 7 5 6 0 0 0)) ∧
    opcodeOf 0xFF0000000000000000000000#96 = 0xFF := by decide

theorem witness_memoryCanonicalKept : State.reset.sound ∧ ∃ t, step State.reset = .next t := ⟨by unfold State.sound; decide, _, rfl⟩

theorem witness_integerSumsProductsLogic : (hold [(5, 3), (6, 4)] []).issues (ops 7 5 6 0 0 0).g (intRegs (ops 7 5 6 0 0 0)) :=
  issues_of (by decide)

/-- A zero divisor, and the overflow of -2^63 by -1. -/
theorem witness_divisionRoundsTowardZero :
    ((hold [(5, 3)] []).issues (ops 7 5 6 0 0 0).g (intRegs (ops 7 5 6 0 0 0)) ∧ (hold [(5, 3)] []).operandB (ops 7 5 6 0 0 0) = 0) ∧
    (hold [(5, 0x8000000000000000), (6, 0xFFFFFFFFFFFFFFFF)] []).issues (ops 7 5 6 0 0 0).g (intRegs (ops 7 5 6 0 0 0)) ∧
      ((hold [(5, 0x8000000000000000), (6, 0xFFFFFFFFFFFFFFFF)] []).s 5).toInt = -2 ^ 63 ∧
      ((hold [(5, 0x8000000000000000), (6, 0xFFFFFFFFFFFFFFFF)] []).operandB (ops 7 5 6 0 0 0)).toInt = -1 :=
  ⟨⟨issues_of (by decide), by decide⟩, issues_of (by decide), by decide, by decide⟩

theorem witness_shiftsUseSixBits : (hold [(5, 3), (6, 65)] []).issues (ops 7 5 6 0 0 0).g (intRegs (ops 7 5 6 0 0 0)) ∧
    ((hold [(5, 3), (6, 65)] []).operandB (ops 7 5 6 0 0 0)).toNat = 65 :=
  ⟨issues_of (by decide), by decide⟩

theorem witness_bitCountsAndExtremes :
    (hold [] []).issues (ops 7 5 0 0 0 0).g [regS (ops 7 5 0 0 0 0).dst.toNat, regS (ops 7 5 0 0 0 0).sa.toNat] ∧
      (hold [(5, 3), (6, 0xFFFFFFFFFFFFFFFF)] []).issues (ops 7 5 6 0 0 0).g (intRegs (ops 7 5 6 0 0 0)) :=
  ⟨issues_of (by decide), issues_of (by decide)⟩

/-- A legal CMP under a condition that holds and one that does not, and SEL with its predicate. -/
theorem witness_compareAndSelect :
    ((Instr.cmp (ops 1 7 0 0 0x880 64)).wellFormed = true ∧ (hold [(7, 63)] []).issues (ops 1 7 0 0 0x880 64).g [regP 1, regS 7] ∧
      ((hold [(7, 63)] []).s 7).toInt < ((hold [(7, 63)] []).operandB (ops 1 7 0 0 0x880 64)).toInt) ∧
    ((hold [(7, 64)] []).issues (ops 1 7 0 0 0x880 64).g [regP 1, regS 7] ∧
      ¬ ((hold [(7, 64)] []).s 7).toInt < ((hold [(7, 64)] []).operandB (ops 1 7 0 0 0x880 64)).toInt) ∧
    (hold [(5, 3)] []).issues (ops 7 5 6 1 0 0).g (intRegs (ops 7 5 6 1 0 0) ++ [regP 1]) :=
  ⟨⟨by decide, issues_of (by decide), by decide⟩, ⟨issues_of (by decide), by decide⟩,
    issues_of (by decide)⟩

theorem witness_bitFieldsByPositionAndLength :
    (hold [(5, 3)] []).issues (ops 7 5 0 0 0x800 (64 <<< 6)).g (intRegs (ops 7 5 0 0 0x800 (64 <<< 6))) ∧
      (hold [(5, 3)] []).issues (ops 7 5 6 4 0 0).g (intRegs (ops 7 5 6 4 0 0) ++ [regS 4]) :=
  ⟨issues_of (by decide), issues_of (by decide)⟩

/-- The last canonical address, and the first that is not. -/
theorem witness_moviLeaNop :
    ((hold [(5, 0xFFFFFFFFFFFFFF)] []).issues (ops 7 5 0 0 0 0).g ([regS 7] ++ addrRegs (ops 7 5 0 0 0 0)) ∧
      ((hold [(5, 0xFFFFFFFFFFFFFF)] []).s 5).toNat < 2 ^ 56) ∧
    ((hold [(5, 0x100000000000000)] []).issues (ops 7 5 0 0 0 0).g ([regS 7] ++ addrRegs (ops 7 5 0 0 0 0)) ∧
      2 ^ 56 ≤ ((hold [(5, 0x100000000000000)] []).s 5).toNat) ∧
    (hold [] []).issues (ops 0 0 0 0 0 0).g [] :=
  ⟨⟨issues_of (by decide), by decide⟩, ⟨issues_of (by decide), by decide⟩,
    issues_of (by decide)⟩

theorem witness_floatArithmeticRoundsOnce :
    (hold [] [(1, 0x3F800000)]).issues (ops 3 1 2 0 0x500 0).g [regF 3, regF 1, regF 2] ∧
    (hold [] [(1, 0x3F800000)]).issues (ops 3 1 2 4 0x500 0).g ([regF 3, regF 1, regF 2] ++ [regF 4]) ∧
    (hold [] [(1, 0x3F800000)]).issues (ops 3 1 0 0 0x500 0).g [regF 3, regF 1] :=
  ⟨issues_of (by decide), issues_of (by decide), issues_of (by decide)⟩

/-- Two NaNs, a NaN and a number either way, and zeros of different sign, in f32. -/
theorem witness_floatExtremesPreferNumbers :
    ∀ fs ∈ [[(1, 0x7FC00000), (2, 0x7FC00000)], [(1, 0x7FC00000), (2, 0x3F800000)], [(1, 0x3F800000), (2, 0x7FC00000)],
        [(2, 0x80000000)]],
      (hold [] fs).issues (ops 3 1 2 0 0x500 0).g [regF 3, regF 1, regF 2] ∧ (ops 3 1 2 0 0x500 0).fType = 10 ∧
        ((fmtOf 10).value (((hold [] fs).f 1).toNat % 2 ^ 32)).isNan = (tget 0 fs 1 == 0x7FC00000) := by
  intro fs h
  simp only [List.mem_cons, List.not_mem_nil, or_false] at h
  rcases h with rfl | rfl | rfl | rfl <;> exact ⟨issues_of (by decide), by decide, by decide⟩

theorem witness_floatCompareAndMove :
    ((hold [] []).issues (ops 1 1 2 0 0x506 0).g [regP 1, regF 1, regF 2] ∧ (ops 1 1 2 0 0x506 0).modBits 50 48 = 6) ∧
    ((ops 3 1 0 0 0x580 0).modBits 50 48 = 0 ∧ (hold [] []).issues (ops 3 1 0 0 0x580 0).g [regF 3, regF 1]) ∧
    ((ops 3 1 0 0 0x581 0).modBits 50 48 = 1 ∧ (hold [] []).issues (ops 3 1 0 0 0x581 0).g [regF 3, regS 1]) ∧
    ((ops 3 1 0 0 0x582 0).modBits 50 48 = 2 ∧ (hold [] []).issues (ops 3 1 0 0 0x582 0).g [regS 3, regF 1]) :=
  ⟨⟨issues_of (by decide), by decide⟩, ⟨by decide, issues_of (by decide)⟩,
    ⟨by decide, issues_of (by decide)⟩, by decide, issues_of (by decide)⟩

/-- FCVT from f32 to s64 and from s64 to f32. -/
theorem witness_floatConversion :
    ((Instr.fcvt (ops 3 1 0 0 0x1D0 0)).wellFormed = true ∧ (ops 3 1 0 0 0x1D0 0).fType = 3 ∧ (ops 3 1 0 0 0x1D0 0).fSType = 10 ∧
      (hold [] []).issues (ops 3 1 0 0 0x1D0 0).g [regS 3, regF 1]) ∧
    ((Instr.fcvt (ops 3 1 0 0 0x518 0)).wellFormed = true ∧ (ops 3 1 0 0 0x518 0).fType = 10 ∧ (ops 3 1 0 0 0x518 0).fSType = 3 ∧
      (hold [] []).issues (ops 3 1 0 0 0x518 0).g [regF 3, regS 1]) :=
  ⟨⟨by decide, by decide, by decide, issues_of (by decide)⟩,
    by decide, by decide, by decide, issues_of (by decide)⟩

/-! ### Witnesses: control, chunks and traps -/

/-- A translation of every address to the same physical address, for a source and a launch. -/
def page (source lkey cls : Nat) : TlbEntry :=
  { source := source, lkey := lkey, vpage := 0, pages := 2 ^ 44, frame := 0, leaf := 2 ^ 30, cls := cls, s := false, r := true, w := true,
    x := true, d := true, word := 0, owner := lkey }

/-- Strand 0 runs with some s registers, and may fetch two lines all of whose slots are branch targets. -/
def hop (ss : Tab Word) : State := { hold ss [] with tlb := [page 0 0 1], mem := [(60, 0x1F), (124, 0x1F)] }

/-- Every target of the table, at its slot: 1 after slot 0, and line 1. -/
theorem witness_transfersReachTheirTargets :
    (slotAdd (hop []).me.pc ((1 : Word).toInt) = some 1 ∧ (ops 0 0 0 0 0 1).imm.signExtend 64 = 1 ∧
      Enters (hop []) (hop []).me.sv 1 true (page 0 0 1) ∧ (hop []).issues (ops 0 0 0 0 0 1).g [] ∧
      (hop [(4, 2)]).issues (ops 4 0 0 0 0 1).g [regS 4] ∧ (hop [(4, 2)]).s 4 - 1 ≠ 0) ∧
    ((hop []).me.pc.toNat / 2 ^ 51 % 2 ^ 13 * 2 ^ 51 + (ops 0 0 0 0 0 8).imm.toNat / 8 * 64 + (ops 0 0 0 0 0 8).imm.toNat % 8 = 64 ∧
      Enters (hop []) (hop []).me.sv 64 true (page 0 0 1)) ∧
    (((hop [(5, 68)]).s 5).toNat = 68 ∧ Enters (hop [(5, 68)]) (hop [(5, 68)]).me.sv 68 true (page 0 0 1) ∧
      (hop [(5, 68)]).issues (ops 1 5 0 0 0 0).g [regS 1, regS 5] ∧ slotAdd (hop [(5, 68)]).me.pc 1 = some 1) ∧
    (hop [(4, 1)]).issues (ops 4 0 0 0 0 1).g [regS 4] ∧ (hop [(4, 1)]).s 4 = 1 :=
  ⟨⟨by decide, by decide, ⟨by decide, by decide, by decide, by decide, by decide, fun _ => by decide⟩, issues_of (by decide), issues_of (by decide), by decide⟩,
    ⟨by decide, ⟨by decide, by decide, by decide, by decide, by decide, fun _ => by decide⟩⟩,
    ⟨by decide, ⟨by decide, by decide, by decide, by decide, by decide, fun _ => by decide⟩, issues_of (by decide), by decide⟩, issues_of (by decide), by decide⟩

/-- The first address that is not canonical; bit 3 set; slot 5. -/
theorem witness_registerTargetsAreChecked :
    ∀ x ∈ [(0x100000000000000 : Word), 8, 5], (hold [(5, x)] []).issues (ops 1 5 0 0 0 0).g [regS 1, regS 5] ∧
      (hold [(5, x)] []).issues (ops 1 5 0 0 0 0).g [regS 5] ∧ ((hold [(5, x)] []).s 5).toNat = x.toNat ∧
      slotAdd (hold [(5, x)] []).me.pc 1 = some 1 ∧ (2 ^ 56 ≤ x.toNat ∨ x.toNat < 2 ^ 56 ∧ (x.toNat / 8 % 8 ≠ 0 ∨ 5 ≤ x.toNat % 8)) := by
  intro x h
  simp only [List.mem_cons, List.not_mem_nil, or_false] at h
  rcases h with rfl | rfl | rfl <;>
    exact ⟨issues_of (by decide), issues_of (by decide), by decide, by decide, by decide⟩

theorem witness_guardedOffOnlyCounts :
    (encode (.add ⟨⟨false, 1⟩, 7, 5, 6, 0, 0, 0⟩) = some 0x0111C5180000000000000000#96 ∧
      (hold [] []).guardRead (guardOf 0x0111C5180000000000000000#96) ∧
      (hold [] []).scalarOn (guardOf 0x0111C5180000000000000000#96) = false) ∧
    encode (.vadd ⟨⟨false, 1⟩, 7, 5, 6, 0, 0xA00, 0⟩) = some 0x4011C5180A00000000000000#96 ∧
      ∀ n, n < 32 → (hold [] []).laneOn (guardOf 0x4011C5180A00000000000000#96) n = false :=
  ⟨⟨by decide, ⟨by decide, .inr (by decide)⟩, by decide⟩, by decide, by decide⟩

/-- A strand with one pending register. -/
def waits (r : Nat) : State := { State.reset with strands := [(0, { run := .running, marks := [⟨r, 0⟩] })] }

theorem witness_pendingGuardTraps : encode (.add ⟨⟨false, 1⟩, 7, 5, 6, 0, 0, 0⟩) = some 0x0111C5180000000000000000#96 ∧
    (waits 65).cur < strandLimit ∧ (guardOf 0x0111C5180000000000000000#96).p ≠ 0 ∧
    (waits 65).me.pending (64 + (guardOf 0x0111C5180000000000000000#96).p.toNat) = true := by decide

theorem witness_unwaitedRegistersTrap :
    ((waits 5).guardRead (ops 7 5 6 0 0 0).g ∧ (waits 5).scalarOn (ops 7 5 6 0 0 0).g = true ∧ ¬ (waits 5).waited [7, 5, 6]) ∧
    ((waits 33).guardRead (ops 3 1 2 0 0x500 0).g ∧ (waits 33).scalarOn (ops 3 1 2 0 0x500 0).g = true ∧
      ¬ (waits 33).waited [32 + 3, 32 + 1, 32 + 2]) ∧ (ops 3 0 0 0 0 0).imm.toNat % 2 ^ 12 ≠ 0x008 ∧ ¬ (waits 3).waited [3] :=
  ⟨⟨⟨by decide, .inl rfl⟩, by decide, fun h => absurd (h 5 (by decide)) (by decide)⟩,
    ⟨⟨by decide, .inl rfl⟩, by decide, fun h => absurd (h 33 (by decide)) (by decide)⟩, by decide,
    fun h => absurd (h 3 (by decide)) (by decide)⟩

theorem witness_userModeCannotRunSupervisorInstructions :
    (hold [] []).guardRead (ops 0 0 0 0 0 0x010).g ∧ (hold [] []).scalarOn (ops 0 0 0 0 0 0x010).g = true ∧
      (hold [] []).me.sv = false ∧ (ops 0 0 0 0 0 0x010).imm.toNat % 2 ^ 12 ∈ [0x003, 0x008, 0x010, 0x011, 0x018, 0x019] :=
  ⟨⟨by decide, .inl rfl⟩, by decide, by decide, by decide⟩

/-- A strand whose live chunk has counted some instructions, with a load outstanding. -/
def loading (count : Nat) : State :=
  { State.reset with strands := [(0, { run := .running, ops := [{ counter := .ld, chunk := 3 }], issued := 1, ldIssued := 1,
                                       chunks := [{ id := 3, startPc := 0, count := count }] })] }

/-- WAIT with limits that hold and with a limit of 0 on ld that does not; ld is not zero, and zero. -/
theorem witness_waitingAndEndingChunks :
    ((loading 1).issues (ops 0 0 0 0 0 0xFFFFFF).g [] ∧ (loading 1).openChunk.me.count .ld = 1 ∧
      (ops 0 0 0 0 0 0xFFFFFF).imm.toNat % 64 = 63 ∧ (ops 0 0 0 0 0 0xFFFFC0).imm.toNat % 64 = 0) ∧
    (hold [] []).issues (ops 0 0 0 0 0 0).g [] ∧ (hold [] []).openChunk.me.count .ld = 0 :=
  ⟨⟨issues_of (by decide), by decide, by decide, by decide⟩, issues_of (by decide), by decide⟩

theorem witness_strandWakeUps : ∀ r ∈ [Run.yielding, .halted, .running], ∀ n ∈ [511, 512],
    let s : State := { State.reset with strands := [(0, { run := r, chunks := [{ id := 1, startPc := 0, count := n }] })] }
    0 < strandLimit ∧ (s.strand 0).run = r ∧ (s.strand 0).live = some { id := 1, startPc := 0, count := n } ∧ (s.strand 0).wake ≤ s.time ∧
      s.time < (({ s with strands := [(0, { run := r, wake := 7 })] } : State).strand 0).wake := by decide

/-- A chunk that has counted an instruction; a fresh one behind an earlier chunk; a fresh one alone. -/
theorem witness_softwareTrapStandsAlone :
    ((loading 1).issues (ops 0 0 0 0 0 0xFFFF).g [] ∧ (loading 1).openChunk.chunk.count ≠ 0) ∧
    (let s : State := { State.reset with strands := [(0, { run := .running, chunks := [{ id := 2, startPc := 0 },
        { id := 1, startPc := 0, sealed := true }] })] }
     s.issues (ops 0 0 0 0 0 0xFFFF).g [] ∧ s.openChunk.chunk.count = 0 ∧ 1 < s.openChunk.me.chunks.length) ∧
    (loading 0).issues (ops 0 0 0 0 0 0xFFFF).g [] ∧ (loading 0).openChunk.chunk.count = 0 ∧ (loading 0).openChunk.me.chunks.length ≤ 1 :=
  ⟨⟨issues_of (by decide), by decide⟩, ⟨issues_of (by decide), by decide, by decide⟩, issues_of (by decide), by decide, by decide⟩

theorem witness_trapsDiscardTheChunk : ∀ b ∈ [false, true],
    let s : State := { State.reset with strands := [(0, { run := .running, tf := b, chunks := [{ id := 2, startPc := 0 },
        { id := 1, startPc := 0, sealed := true }] })] }
    s.me.chunks = { id := 2, startPc := 0 } :: [{ id := 1, startPc := 0, sealed := true }] ∧ s.me.tf = b ∧
      ∀ d ∈ [({ id := 1, startPc := 0, sealed := true } : Chunk)], d.id ≠ 2 := by decide

theorem witness_controlRegistersReadAndWrite : ∀ r ∈ [(0x000 : BitVec 48), 0x002, 0x007, 0x008, 0x010, 0x011],
    let s : State := { State.reset with strands := [(0, { run := .running, sv := true })] }
    s.issues (ops 3 5 0 0 0 r).g [regS 3] ∧ s.issues (ops 3 5 0 0 0 r).g [regS 5] ∧ s.me.sv = true ∧ s.openChunk.chunk.held = [] := by
  intro r h
  simp only [List.mem_cons, List.not_mem_nil, or_false] at h
  rcases h with rfl | rfl | rfl | rfl | rfl | rfl <;>
    exact ⟨issues_of (by decide), issues_of (by decide), by decide, by decide⟩

/-- A supervisor strand whose KEPC names a slot of user code; INVP of each scope, with a page address that is canonical and one
that is not. -/
theorem witness_supervisorInstructions :
    let s : State := { hop [] with strands := [(0, { run := .running, sv := true, kepc := 65 })] }
    (s.me.sv = true ∧ s.issues (ops 0 0 0 0 0 0).g [] ∧ (s.openChunk.control 0x008).toNat = 65 ∧
      Enters s ((s.openChunk.control 0x008).getLsbD 63) 65 false (page 0 0 1)) ∧
    (s.issues (ops 0 5 6 0 0 0).g [regS 5, regS 6] ∧ (s.s 5).toNat < 2 ^ 56 ∧ (ops 0 5 6 0 0 0).md.toNat / 2 ^ 9 % 4 = 0) ∧
    let t : State := { hop [] with strands := [(0, { run := .running, sv := true, regs := { s := [(5, 0x100000000000000)] } })] }
    t.me.sv = true ∧ t.issues (ops 0 5 6 0 0 0).g [regS 5, regS 6] ∧ 2 ^ 56 ≤ (t.s 5).toNat :=
  ⟨⟨by decide, issues_of (by decide), by decide, ⟨by decide, by decide, by decide, by decide, by decide, fun h => nomatch h⟩⟩,
    ⟨issues_of (by decide), by decide, by decide⟩, by decide, issues_of (by decide), by decide⟩

/-- Strand 0 at an address of the identity map, with one word in that slot. -/
def placed (pc w : Nat) (bad : Bool) : State :=
  { State.reset with
    strands := [(0, { run := .running, pc := BitVec.ofNat 64 pc })], tlb := [page 0 0 1],
    mem := Memory.writeBytes [] (pc / 64 * 64) (lineBytes w (pc % 8)) ++ if bad then [(62, 1)] else [] }

/-- ADD in slot 2 of line 1, and a step of the outside world that is no word. -/
theorem witness_stepRunsDecoded :
    let s := placed 66 0x0101C5180000000000000000 false
    let t := s.tickOn
    (0 < strandLimit ∧ (s.turns = [] ∧ s.due = [] ∧ 0 = s.cur) ∧ t.atLimit = false ∧ t.stopped = false ∧
      t.me.pc.toNat = 66 ∧ parityHolds (t.currentBytes 64 64) = true ∧ lineWordLegal (lineWord (t.currentBytes 64 64)) = true ∧
      pairBit (lineWord (t.currentBytes 64 64)) 2 = false ∧
      decode (slotWord (t.currentBytes 64 64) 2) = .instr (.add (ops 7 5 6 0 0 0))) ∧
    (page 0 0 1).phys 64 = 64 ∧ Enters t t.me.sv 66 false (page 0 0 1) ∧ encode (.haltRelease 0 true) = none :=
  ⟨by decide, by decide, ⟨by decide, by decide, by decide, by decide, by decide, fun h => nomatch h⟩, by decide⟩

/-- A pc that is not canonical, a pc that names no slot, a line of bad parity at its first fetch and at its second, and a word that does
not decode. -/
theorem witness_fetchIsChecked :
    (∀ b ∈ [(0x100000000000000, 0, false), (69, 0, false), (0, 0, true), (0, 0x0101C518000000000F000000, false)],
      let s := placed b.1 b.2.1 b.2.2
      s.turns = [] ∧ s.due = [] ∧ s.cur < strandLimit ∧ s.tickOn.atLimit = false ∧ s.tickOn.stopped = false ∧ s.tickOn.me.pc.toNat = b.1) ∧
    (Enters (placed 0 0 true).tickOn (placed 0 0 true).tickOn.me.sv 0 false (page 0 0 1) ∧
      parityHolds ((placed 0 0 true).tickOn.currentBytes 0 64) = false ∧ (placed 0 0 true).tickOn.me.refetch = none ∧
      let s : State := { placed 0 0 true with strands := [(0, { run := .running, refetch := some 0 })] }
      s.tickOn.me.refetch = some 0 ∧ parityHolds (s.tickOn.currentBytes 0 64) = false ∧ Enters s.tickOn s.tickOn.me.sv 0 false (page 0 0 1)) ∧
    (let t := (placed 0 0x0101C518000000000F000000 false).tickOn
     Enters t t.me.sv 0 false (page 0 0 1) ∧ parityHolds (t.currentBytes 0 64) = true ∧
       decode (slotWord (t.currentBytes 0 64) 0) = .reject .illegalField) ∧
    let s : State := { State.reset with strands := [(0, { run := .running, chunks := [{ id := 1, startPc := 0, count := 512 }] })] }
    s.turns = [] ∧ s.due = [] ∧ s.cur < strandLimit ∧ s.tickOn.atLimit = true :=
  ⟨by decide, ⟨⟨by decide, by decide, by decide, by decide, by decide, fun h => nomatch h⟩, by decide, by decide, by decide, by decide,
      ⟨by decide, by decide, by decide, by decide, by decide, fun h => nomatch h⟩⟩,
    ⟨⟨by decide, by decide, by decide, by decide, by decide, fun h => nomatch h⟩, by decide, by decide⟩, by decide⟩

theorem witness_trapEntryEntersTheHandler :
    let i : TrapInfo := { cause := 1, addr := 0, fpc := 8, cspc := 0, sv := true, brpc := 0 }
    let s : State := { hop [] with strands := [(0, { run := .trapping, trap := some i })], trapPc := 64, trapArea := 0x1000,
                                   tlb := [{ page 0 0 2 with vpage := 1, pages := 1, frame := 0x1000 }, page 0 0 1] }
    (s.strand 0).run = .trapping ∧ (s.strand 0).trap = some i ∧ (s.strand 0).chunks = [] ∧ (s.bank (bankOf 0)).frozen = false ∧
      (s.writeRecord 0 i).any (fun m => m.fetchable 0 true m.trapPc.toNat) = true ∧
      (let e := { page 0 0 2 with vpage := 1, pages := 1, frame := 0x1000 }
       s.tlb.find? (fun x => x.maps (sourceCore (coreOf 0)) (s.strand 0).lkey (s.trapArea + 64 * (0 % 18432))) = some e ∧ e.d = true ∧
         storageOf (e.phys 0x1000) = 0x1000 ∧ ∀ j, j < 64 → isHost (0x1000 + j) = false) := by decide
/-! ### Witnesses: vector instructions -/

/-- In s32 and in f32, with three registers and with four; a register and a scalar operand b. -/
theorem witness_vectorArithmeticByElement :
    (∀ md ∈ [(0x200 : BitVec 12), 0xA00], (ops 7 5 6 4 md 0).vType ≠ 15 ∧ (ops 7 5 6 4 md 0).bs = false ∧
      intType (ops 7 5 6 4 md 0).vType = (md == 0x200)) ∧
    (hold [] []).issuesV (ops 7 5 6 4 0x200 0).g 2 [regV 7, regV 5, regV 6] [7, 5, 6] ∧
    (hold [] []).issuesV (ops 7 5 6 4 0xA00 0).g 10 ([regV 7, regV 5, regV 6] ++ [regV 4]) ([7, 5, 6] ++ [4]) ∧
    (ops 7 5 6 4 0xA80 0).bs = true ∧ (hold [] []).issuesV (ops 7 5 6 4 0xA80 0).g 10 [regV 7, regV 5, scalarReg 10 6] [7, 5] :=
  ⟨by decide, issuesV_of (by decide), issuesV_of (by decide), by decide, issuesV_of (by decide)⟩

/-- A v register 5 whose lane 0 holds a word. -/
def lane (x : BitVec 32) : State :=
  { State.reset with strands := [(0, { run := .running, regs := { v := [(5 * 32, x)] } })] }

/-- In s32; in f32 with the VEXP2 operands of the rule: a NaN, both infinities, 3, -3, -0 and a number that is no integer. -/
theorem witness_vectorUnaryAndSpecial :
    (hold [] []).issuesV (ops 7 5 0 0 0x200 0).g 2 [regV 7, regV 5] [7, 5] ∧
    (hold [] []).issuesV (ops 7 5 0 0 0xA00 0).g 10 [regV 7, regV 5] [7, 5] ∧
    (fmtOf 10).value ((lane 0x7FC00000).elem 10 5 0) = .nan ∧ (fmtOf 10).value ((lane 0x7F800000).elem 10 5 0) = .inf false ∧
    (fmtOf 10).value ((lane 0xFF800000).elem 10 5 0) = .inf true ∧ scalarFp 10 = true ∧
    (fmtOf 10).value ((lane 0x40400000).elem 10 5 0) = .fin ⟨false, 3 * 2 ^ 22, -22⟩ ∧
    (fmtOf 10).value ((lane 0xC0400000).elem 10 5 0) = .fin ⟨true, 3 * 2 ^ 22, -22⟩ ∧
    (fmtOf 10).value ((lane 0x80000000).elem 10 5 0) = .fin ⟨true, 0, -149⟩ ∧
    (fmtOf 10).value ((lane 0x3FC00000).elem 10 5 0) = .fin ⟨false, 3 * 2 ^ 22, -23⟩ :=
  ⟨issuesV_of (by decide), issuesV_of (by decide), by decide, by decide, by decide, by decide, by decide, by decide, by decide, by decide⟩

theorem witness_vectorCompareSelectPermute :
    (hold [] []).issuesV (ops 1 5 6 0 0x228 0).g 2 [regP 1, regV 5, regV 6] ([5] ++ [6]) ∧
    (ops 1 5 6 0 0x228 0).md.toNat / 2 ^ 3 % 16 = 5 ∧ (ops 1 5 6 0 0xA30 0).md.toNat / 2 ^ 3 % 16 = 6 ∧
    (hold [] []).issuesV (ops 1 5 6 0 0xA30 0).g 10 [regP 1, regV 5, regV 6] ([5] ++ [6]) ∧
    (hold [] []).issuesV (ops 7 5 6 1 0x200 0).g 2 [regV 7, regV 5, regV 6, regP 1] [7, 5, 6] ∧
    (hold [] []).issuesV (ops 7 5 6 0 0x200 0).g 2 [regV 7, regV 5, regV 6] [7, 5, 6] ∧
    (hold [] []).issuesV (ops 7 5 0 0 0x200 0).g 2 [regV 7, scalarReg 2 5] [7] :=
  ⟨issuesV_of (by decide), by decide, by decide, issuesV_of (by decide), issuesV_of (by decide), issuesV_of (by decide),
    issuesV_of (by decide)⟩

/-- f64 to f32 into the upper half, and f32 to e4m3. -/
theorem witness_vectorConversion :
    ((ops 7 5 0 0 0xAB0 1).vType = 10 ∧ (ops 7 5 0 0 0xAB0 1).modBits 55 52 = 11 ∧
      (hold [] []).issuesV (ops 7 5 0 0 0xAB0 1).g 11 [regV 7, regV 5] [7, 5]) ∧
    (ops 7 5 0 0 0xCA0 0).vType = 12 ∧ (ops 7 5 0 0 0xCA0 0).modBits 55 52 = 10 ∧
      (hold [] []).issuesV (ops 7 5 0 0 0xCA0 0).g 12 [regV 7, regV 5] [7, 5] :=
  ⟨⟨by decide, by decide, issuesV_of (by decide)⟩, by decide, by decide, issuesV_of (by decide)⟩

/-- The last lane of a 32-bit type, to and from a scalar register. -/
theorem witness_vectorReductionsAndMoves :
    (hold [] []).issuesV (ops 7 5 0 0 0x200 0).g 2 [scalarReg 2 7, regV 5] [5] ∧
    (hold [] []).issuesV (ops 7 5 0 0 0xA00 0).g 10 [scalarReg 10 7, regV 5] [5] ∧
    ((hold [] []).guardRead (ops 7 5 0 0 0x280 31).g ∧ (hold [] []).laneOn (ops 7 5 0 0 0x280 31).g 31 = true ∧ 31 < elemCount 2 ∧
      (ops 7 5 0 0 0x280 31).bs = true ∧ (hold [] []).waited [regV 7, scalarReg 2 5] ∧ 7 < (hold [] []).vAllot (hold [] []).cur) ∧
    (ops 7 5 0 0 0x200 31).bs = false ∧ (hold [] []).waited [regV 5, scalarReg 2 7] :=
  ⟨issuesV_of (by decide), issuesV_of (by decide),
    ⟨⟨by decide, .inl rfl⟩, by decide, by decide, by decide, fun r h => by revert r; decide, by decide⟩, by decide,
    fun r h => by revert r; decide⟩

/-- A list of 32. -/
theorem witness_bestList : typeWidth 10 = 32 ∧ wideType 10 = false ∧ (ops 7 5 6 0 0xA00 32).vType = 10 ∧
    (ops 7 5 6 0 0xA00 32).imm.toNat % 64 = 32 ∧
    (hold [] []).issuesV (ops 7 5 6 0 0xA00 32).g 10 [regV 7, regV 8, regV 5, regV 6] [7, 8, 5, 6] :=
  ⟨by decide, by decide, by decide, by decide, issuesV_of (by decide)⟩

/-- ADD with an immediate and without beside an element-wise sum; a scalar shift beside VFMA.F32; NOP beside VABS.F32; and a pair
whose guard is off. -/
theorem witness_pair : ∀ p ∈ [(⟨⟨false, 0⟩, 1, 7, 5, 6, false, 0, 0, 7, 5, 6, 0, 2⟩ : PairOps), ⟨⟨false, 0⟩, 1, 7, 5, 0, true, 3, 0, 7, 5, 6, 0, 2⟩,
      ⟨⟨false, 0⟩, 0x0D, 7, 5, 6, false, 0, 3, 7, 5, 6, 4, 10⟩, ⟨⟨false, 0⟩, 0x1C, 0, 0, 0, false, 0, 6, 7, 5, 0, 0, 10⟩,
      ⟨⟨false, 1⟩, 1, 7, 5, 6, false, 0, 0, 7, 5, 6, 0, 2⟩],
    (Instr.pair p).wellFormed = true ∧ (hold [] []).cur < strandLimit ∧ (hold [] []).scalarOn p.g = (p.g.p == 0) ∧
      (∀ r, r < 200 → (hold [] []).me.pending r = false) ∧ (∀ v ∈ [p.vdst, p.vsa, p.vsb, p.vsc], v.toNat < (hold [] []).vAllot (hold [] []).cur) ∧
      ((hold [] []).activeIn p.g p.vtype.toNat = [] ↔ p.g.p ≠ 0) := by decide

/-- A launch of 8 v registers, 8 accumulators and 16 operand slots on every core of the first package. -/
def small : Launch :=
  { lkey := 0, ptroot := 0, packet := [BitVec.ofNat 64 (8 * 2 ^ 28 + 16 * 2 ^ 20), 0, BitVec.ofNat 64 (0xFFFF * 2 ^ 22)], pkg := 0, queue := 0,
    context := 0, remap := [(0, 0)] }

/-- The first register beyond the allotted ones. -/
theorem witness_unallottedRegistersTrap :
    let s : State := { hold [] [] with launches := [(0, small)] }
    s.guardRead (ops 8 5 6 0 0x200 0).g ∧ s.activeIn (ops 8 5 6 0 0x200 0).g (ops 8 5 6 0 0x200 0).vType ≠ [] ∧
      (ops 8 5 6 0 0x200 0).bs = false ∧ s.vAllot s.cur = 8 :=
  ⟨⟨by decide, .inl rfl⟩, by decide, by decide, by decide⟩
/-! ### Witnesses: memory instructions -/

theorem lies_of {s : State} {acc : Access} {join : Bool} {n : Nat} {vas : List Nat} (e : TlbEntry)
    (h : (vas.all fun va => decide (0 < n ∧ va + n ≤ 2 ^ 56 ∧ s.windowHit s.cur va n = none ∧ bits va 55 48 ≠ 0xFF ∧
        bits (va + n - 1) 55 48 ≠ 0xFF) && (List.range n).all fun i =>
          decide (s.tlb.find? (fun x => x.maps (sourceCore (coreOf s.cur)) s.me.lkey (va + i)) = some e)) = true)
    (c : e.check s.me.sv s.me.lkey acc = none) (d : acc.writes = true → e.d = true)
    (j : join = true → e.cls = 0 ∨ e.cls = 2 ∨ e.cls = 3) :
    ∀ va ∈ vas, s.lies acc join va n ((rangeFrom va n).map fun a => storageOf (e.phys a)) := by
  intro va hva
  have hv := List.all_eq_true.mp h va hva
  simp only [Bool.and_eq_true, decide_eq_true_eq, List.all_eq_true, List.mem_range] at hv
  obtain ⟨⟨h1, h2, h3, h4, h5⟩, h6⟩ := hv
  refine ⟨h1, h2, ⟨h3, fun h => absurd h h4⟩, .inl ⟨h4, h5, fun _ => e, fun a h7 h8 => ⟨?_, c, d, j⟩, rfl⟩⟩
  have h9 := h6 (a - va) (by omega)
  rwa [Nat.add_sub_cancel' h7] at h9

/-- The same fields under p1. -/
def lanes (dst sa sb sc : BitVec 6) (md : BitVec 12) (imm : BitVec 48) : Ops := { ops dst sa sb sc md imm with g := ⟨false, 1⟩ }

/-- Strand 0 of core 0 runs with s5 at the last word of a page, lanes 0 and 31 of p1 set, and the page of the identity map. -/
def reach (s5 : Word) : State :=
  { State.reset with strands := [(0, { run := .running, regs := { s := [(5, s5)], p := [(1, 0x80000001)] } })], tlb := [page 0 0 0] }

theorem reach_may (x : Word) : (reach x).mayAccess :=
  ⟨rfl, rfl, rfl, fun c h => absurd h (by have : (reach x).openChunk.me.chunks.drop 1 = [] := rfl; rw [this]; simp),
    fun l h => absurd h (by have : ((reach x).core (coreOf (reach x).cur)).poolLocks = [] := rfl; rw [this]; simp)⟩

/-- Addresses that are not canonical and addresses off their alignment, for each form; JINIT of 16384 arrivals, and of a join
that is not aligned. -/
theorem witness_addressesAreChecked :
    ((reach 0x100000000000000).issues (ops 7 5 0 0 0xC00 0).g (addrRegs (ops 7 5 0 0 0xC00 0) ++ [7]) ∧
      2 ^ 56 ≤ (reach 0x100000000000000).formed (ops 7 5 0 0 0xC00 0) ∧ (ops 7 5 0 0 0xC00 0).fFlag = false) ∧
    ((reach 4).formed (ops 7 5 0 0 0xC00 0) = 4 ∧ (ops 7 5 0 0 0xC00 0).nBytes = 8 ∧ amoBytes (ops 7 5 0 0 0xC00 0) = 8) ∧
    (reach 4).issues (ops 7 5 0 4 0xC00 0).g (addrRegs (ops 7 5 0 4 0xC00 0) ++ [4, 7]) ∧
    (reach 0x100000000000000).issuesV (ops 7 5 0 0 0xA00 0).g 10 (addrRegs (ops 7 5 0 0 0xA00 0) ++ [regV 7]) [7] ∧
    ((reach 4).issues (ops 0 5 0 4 0 16383).g [5, 0, 4] ∧ (ops 0 5 0 4 0 16383).imm.toNat % 2 ^ 14 = 16383 ∧
      ((reach 4).s 5).toNat % 16 ≠ 0) ∧
    let s := hold [(5, 64), (6, 16384)] []
    s.issues (ops 0 5 6 4 0 0).g [5, 6, 4] ∧ 16383 < (s.s 6).toNat :=
  ⟨⟨issues_of (by decide), by decide, by decide⟩, ⟨by decide, by decide, by decide⟩, issues_of (by decide),
    issuesV_of (by decide), ⟨issues_of (by decide), by decide, by decide⟩, issues_of (by decide), by decide⟩

/-- A scalar load, a vector load and a gather of lanes 0 and 31, and VDIST with segments of 8. -/
theorem witness_loadsIssue :
    (reach 4088).mayAccess ∧
    ((reach 4088).formed (ops 7 5 0 0 0xC00 0) = 4088 ∧ (reach 4088).issues (ops 7 5 0 0 0xC00 0).g (addrRegs (ops 7 5 0 0 0xC00 0) ++ [7]) ∧
      ∀ va ∈ [4088], (reach 4088).lies .load false va 8 ((rangeFrom va 8).map fun a => storageOf ((page 0 0 0).phys a))) ∧
    ((reach 4088).issuesV (lanes 7 5 0 0 0xA00 0).g 10 (addrRegs (lanes 7 5 0 0 0xA00 0) ++ [regV 7]) [7] ∧
      (reach 4088).activeIn (lanes 7 5 0 0 0xA00 0).g 10 = [0, 31] ∧
      (∀ va ∈ [4088, 4212], (reach 4088).lies .load false va 4 ((rangeFrom va 4).map fun a => storageOf ((page 0 0 0).phys a))) ∧
      (reach 4088).clearOfWindows 4088 128) ∧
    (reach 4088).issuesV (lanes 7 5 6 0 0xA00 0).g 10 [5, regV 6, regV 7] [6, 7] ∧
    (lanes 7 5 6 0 0xA00 0).g.p = 1 ∧ ([0, 31].map ((reach 4088).gatherVa (lanes 7 5 6 0 0xA00 0))) = [4088, 4088] ∧
    (reach 4088).issuesV (lanes 7 5 6 4 0xA10 0).g 0 [5, regV 6, regV 4, regV 7] [6, 4, 7] ∧ vdistLen ((lanes 7 5 6 4 0xA10 0).modBits 53 52) = 8 ∧
    ∀ va ∈ [4088, 4088], (reach 4088).lies .load false va 32 ((rangeFrom va 32).map fun a => storageOf ((page 0 0 0).phys a)) :=
  ⟨reach_may _, ⟨by decide, issues_of (by decide), lies_of _ (by decide) (by decide) (by decide) (by decide)⟩,
    ⟨issuesV_of (by decide), by decide, lies_of _ (by decide) (by decide) (by decide) (by decide), by decide, by decide⟩,
    issuesV_of (by decide), by decide, by decide, issuesV_of (by decide), by decide,
    lies_of _ (by decide) (by decide) (by decide) (by decide)⟩

/-- A store, a lane store, a reduction, an atomic and a join with its counter; the same store in the strand's scratchpad. -/
theorem witness_storesIssue :
    ((reach 64).mayAccess ∧ (reach 64).openChunk.linesUsed (coreOf (reach 64).cur) + 64 ≤ 256 ∧ ∀ p, ((reach 64).pkg p).pcieOnly = []) ∧
    ((reach 64).issues (ops 0 5 0 4 0xC00 0).g (addrRegs (ops 0 5 0 4 0xC00 0) ++ [4]) ∧
      (∀ va ∈ [64], (reach 64).lies .store false va 8 ((rangeFrom va 8).map fun a => storageOf ((page 0 0 0).phys a))) ∧
      (∀ va ∈ [64, 188], (reach 64).lies .store false va 4 ((rangeFrom va 4).map fun a => storageOf ((page 0 0 0).phys a))) ∧
      (reach 64).issuesV (lanes 0 5 0 4 0xA00 0).g 10 (addrRegs (lanes 0 5 0 4 0xA00 0) ++ [regV 4]) [4] ∧
      (reach 64).issuesV (lanes 0 5 6 4 0xA00 0).g 10 [5, regV 6, regV 4] [6, 4]) ∧
    ((∀ va ∈ [64], (reach 64).lies .red false va 8 ((rangeFrom va 8).map fun a => storageOf ((page 0 0 0).phys a))) ∧
      (∀ va ∈ [64], (reach 64).lies .amo false va 8 ((rangeFrom va 8).map fun a => storageOf ((page 0 0 0).phys a)))) ∧
    ((∀ va ∈ [64], (reach 64).lies .store true va 8 ((rangeFrom va 8).map fun a => storageOf ((page 0 0 0).phys a))) ∧
      (∀ va ∈ [64], (reach 64).lies .amo true va 8 ((rangeFrom va 8).map fun a => storageOf ((page 0 0 0).phys a))) ∧
      ((reach 64).s 5).toNat % 16 = 0 ∧ (reach 64).issues (ops 0 5 0 4 0 16383).g [5, 0, 4] ∧
      (reach 64).issues (ops 7 5 0 4 0xC00 0).g (addrRegs (ops 7 5 0 4 0xC00 0) ++ [4, 7])) ∧
    let s : State := { State.reset with strands := [(0, { run := .running })], banks := [(0, { kbReg := 64, kbSpad := 0x8000 })] }
    s.lies .store false 0xFF000000000000 8 ((rangeFrom 0 8).map fun o => poolKey (bankOf s.cur / 2) ((s.bank 0).kbReg + o)) := by
  refine ⟨⟨reach_may _, by decide, fun _ => rfl⟩, ⟨issues_of (by decide), lies_of _ (by decide) (by decide) (by decide) (by decide),
      lies_of _ (by decide) (by decide) (by decide) (by decide), issuesV_of (by decide), issuesV_of (by decide)⟩,
    ⟨lies_of _ (by decide) (by decide) (by decide) (by decide), lies_of _ (by decide) (by decide) (by decide) (by decide)⟩,
    ⟨lies_of _ (by decide) (by decide) (by decide) (by decide), lies_of _ (by decide) (by decide) (by decide) (by decide), by decide,
      issues_of (by decide), issues_of (by decide)⟩,
    by decide, by decide, ⟨by decide, by decide⟩, .inr ⟨by decide, by decide, by decide, by decide, rfl, by decide⟩⟩

/-- The data of a load, whole; and a store acknowledged. -/
theorem witness_dataAndAcknowledgementsReturn :
    let o : OutOp := { counter := .ld, seq := 3, chunk := 1, fin := .scalar false 7 1 true, vas := [64], locs := [[64]], buf := [(64, 0x80)] }
    let s : State := { State.reset with strands := [(0, { run := .running, ops := [o] })] }
    0 < strandLimit ∧ (s.strand 0).ops.find? (fun o => o.counter == .ld && o.seq == 3 && !o.done && o.complete) = some o ∧
      o.earlier = [] ∧ o.mark = [] ∧ o.locs.head? = some [64] := by decide

theorem plainHome_at {s : State} {a : Nat} (ha : localOf a < 2 ^ 39)
    (h0 : ∀ u, u < 8 → bits (s.reg (pkgOfAddr a) (unitBlock u + 0x40)).toNat 47 32 = 0) : s.plainHome a := by
  refine ⟨?_, fun u i h v _ => ?_⟩
  · simp only [isHost, Bool.and_eq_false_iff, decide_eq_false_iff_not]
    left; omega
  · simp only [counterOf, ha, if_true, Option.some.injEq, Prod.mk.injEq] at h
    have hu : u < 8 := by omega
    simp [State.candidateKind, Nat.not_le.mpr hu, h0 u hu]

theorem plainHome_of {s : State} {a : Nat} (hp : s.pkgs = []) (ha : localOf a < 2 ^ 39) : s.plainHome a :=
  plainHome_at ha fun u h => by
    have w : ∀ u, u < 8 → ({} : Pkg).view (unitBlock u + 0x40) = 0 := by decide
    have h0 : s.reg (pkgOfAddr a) (unitBlock u + 0x40) = 0 := by simp only [State.reg, State.pkg, hp]; exact w u h
    rw [h0]; rfl

theorem idleLine_of {s : State} (h : s.dir = []) (line : Nat) : s.idleLine line := by
  have e : s.entry line = {} := by simp [State.entry, h, tget]
  unfold State.idleLine; rw [e]
  exact ⟨rfl, rfl, rfl, rfl, rfl, fun i => .inl rfl⟩

theorem firstAt_of {s : State} (h : s.dir = [] ∧ s.net = []) (line : Nat) (key : List Nat) : s.firstAt line key := by
  have e : s.entry line = {} := by simp [State.entry, h.1, tget]
  simp [State.firstAt, State.placedAfter, e, h.2]

theorem plainRange_of {s : State} {key : List Nat} {a n : Nat} (hd : s.dir = [] ∧ s.net = [])
    (h : (decide (0 < n ∧ a + n ≤ 2 ^ 39)) = true) (p : (s.pkg 0).down = false ∧ (s.pkg 0).hostCopies = [])
    (c : ∀ u, u < 8 → bits (s.reg 0 (unitBlock u + 0x40)).toNat 47 32 = 0) : s.plainRange key a n := by
  simp only [decide_eq_true_eq] at h
  have z : ∀ b, b < 2 ^ 39 → pkgOfAddr b = 0 := fun b h => by unfold pkgOfAddr; omega
  refine ⟨h.1, by rw [z a (by omega)]; exact p.1, by rw [z a (by omega)]; exact p.2, fun l h1 h2 => ?_⟩
  have b : l * 64 < 2 ^ 39 := by omega
  refine ⟨idleLine_of hd.1 l, plainHome_at (by unfold localOf; omega) (by rw [z _ b]; exact c), firstAt_of hd l key, ?_⟩
  rw [z _ b, z a (by omega)]

theorem agentMay_of {s : State} {x : EngCtx} {acc : Access} {va n : Nat} {e : TlbEntry}
    (hp : ((s.pkg 0).down = false ∧ (s.pkg 0).hostCopies = []) ∧ ∀ u, u < 8 → bits (s.reg 0 (unitBlock u + 0x40)).toNat 47 32 = 0)
    (hd : s.dir = [] ∧ s.net = [])
    (r : 0 < n ∧ va + n ≤ 2 ^ 56 ∧ bits va 55 48 ≠ 0xFF ∧ bits (va + n - 1) 55 48 ≠ 0xFF ∧ va / 4096 = (va + n - 1) / 4096)
    (h : s.tlb.find? (fun e => e.maps x.source x.lkey va) = some e) (pl : storageOf (e.phys va) = va) (hb : va + n ≤ 2 ^ 39)
    (c : e.check x.sv x.lkey acc = none ∧ (acc.writes = true → e.d = true))
    (ad : s.rangeAdmits (sourcePkg x.source) (e.phys va) acc.rangeBit = true ∧ s.regionAt (e.phys va) ≠ .reserved) (k : s.isCut x.lkey x.cmd = false) :
    s.agentMay x acc va n va e := by
  have p0 : ∀ a, a < 2 ^ 39 → pkgOfAddr a = 0 ∧ localOf a < 2 ^ 39 := fun a h => by unfold pkgOfAddr localOf; omega
  exact ⟨r, h, ⟨pl.symm, rfl⟩, c, ad, by rw [(p0 va (by omega)).1]; exact hp.1, fun l _ _ =>
    ⟨idleLine_of hd.1 l, plainHome_at (p0 _ (by omega)).2 (by rw [(p0 (l * 64) (by omega)).1]; exact hp.2), firstAt_of hd l _⟩, k⟩

theorem placed_of {s : State} {x : EngCtx} {acc : Access} {va n : Nat} (e : TlbEntry)
    (hp : ((s.pkg 0).down = false ∧ (s.pkg 0).hostCopies = []) ∧ ∀ u, u < 8 → bits (s.reg 0 (unitBlock u + 0x40)).toNat 47 32 = 0)
    (hd : s.dir = [] ∧ s.net = []) (h : s.tlb.find? (fun e => e.maps x.source x.lkey va) = some e)
    (d : (0 < n ∧ va + n ≤ 2 ^ 39 ∧ va / 4096 = (va + n - 1) / 4096) ∧ storageOf (e.phys va) = va ∧
      (e.check x.sv x.lkey acc = none ∧ (acc.writes = true → e.d = true)) ∧
      (s.rangeAdmits (sourcePkg x.source) (e.phys va) acc.rangeBit = true ∧ s.regionAt (e.phys va) ≠ .reserved) ∧ s.isCut x.lkey x.cmd = false) :
    s.placed x acc va n va := by
  obtain ⟨⟨h1, h2, h3⟩, pl, c, ad, k⟩ := d
  exact ⟨e, agentMay_of hp hd ⟨h1, by omega, by simp only [bits]; omega, by simp only [bits]; omega, h3⟩ h pl (by omega) c ad k⟩

/-- A sealed chunk that has gained everything, the only one of strand 0, with writes and held effects. -/
def sealed (ws : List VWrite) (hs : List Held) : State :=
  { State.reset with strands := [(0, { run := .running, chunks := [{ id := 1, startPc := 0, sealed := true, gaining := true,
                                                                       writes := ws, held := hs }] })] }

/-- A chunk that stored nothing and one that stored a byte of pool memory; two that wait for the die's token, in ticket order. -/
theorem witness_chunksCommit :
    (let c : Chunk := { id := 1, startPc := 0, sealed := true, gaining := true }
     (sealed [] []).mayCommit 0 c ∧ c.held = [] ∧ c.writes = []) ∧
    (let a := poolKey 0 64
     let c : Chunk := { id := 1, startPc := 0, sealed := true, gaining := true, writes := [{ locs := [a], data := [7] }] }
     (sealed c.writes []).mayCommit 0 c ∧ isPool a = true ∧
       ((sealed c.writes []).bank (bankAt (poolCore (a / 8 * 8)) (poolOff (a / 8 * 8)))).windows = []) ∧
    (let wait (n : Nat) : Strand := { run := .token, sole := some ⟨n, n⟩ }
     let s : State := { State.reset with strands := [(3, wait 3), (4, wait 4)] }
     (s.die 0).token = none ∧ (∀ e ∈ s.strands, dieOf e.1 = 0 ∧ e.2.run = .token ∧ (s.bank (bankOf e.1)).frozen = false) ∧
       Ticket.before ⟨3, 3⟩ ⟨4, 4⟩ = true) ∧
    let s : State := { State.reset with strands := [(0, { run := .invp })] }
    0 < strandLimit ∧ (s.strand 0).run = .invp ∧ (s.strand 0).chunks = [] :=
  ⟨⟨⟨by decide, rfl, ⟨rfl, rfl⟩, ⟨rfl, rfl, rfl⟩, by decide, ⟨by decide, rfl⟩, by decide, by decide, by decide, by decide, by decide⟩, rfl, rfl⟩,
    ⟨⟨by decide, rfl, ⟨rfl, rfl⟩, ⟨rfl, rfl, rfl⟩, by decide, ⟨by decide, rfl⟩, by decide, by decide, by decide, by decide, by decide⟩, by decide, by decide⟩,
    by decide, by decide⟩

/-- A KWR of each register that has a writable field, and of one that has none; a store to memory and an atomic, whose words are in TW
for the chunk; a RED with no partial and with one; an INVP of one page, beside a window and a translation. -/
theorem witness_chunksCommitTheirEffects :
    let done (c : Chunk) : Chunk := { c with id := 1, startPc := 0, sealed := true, gaining := true }
    (∀ r ∈ [0x003, 0x008, 0x010, 0x011, 0x018, 0x019, 0x000], let c := done { id := 1, startPc := 0, held := [.kwr r 5] }
      let s : State := { sealed [] [.kwr r 5] with launches := [(0, small)] }
      s.mayCommit 0 c ∧ c.writes = [] ∧ (s.launchOf 0).isSome = true) ∧
    (∀ w ∈ [({ locs := [64, 65], data := [1, 2] } : VWrite), { locs := [64, 65, 66, 67], data := [], new := some (0, 3, 0) }],
      let c := done { id := 1, startPc := 0, writes := [w], classes := [(8, 0)] }
      let s : State := { State.reset with strands := [(0, { run := .running, chunks := [c] })], dir := [(1, { tw := [(0, (0, 1))] })] }
      s.mayCommit 0 c ∧ c.pcie = [] ∧ w.locs.Nodup ∧ (w.new = none → w.data.length = w.locs.length) ∧
        (∀ a ∈ w.locs, a < poolBase ∧ tget 3 c.classes (a / 8) = 0 ∧ isHost a = false ∧ (s.entry (a / 64)).state (a / 8 % 8) = .u)) ∧
    (∀ ps ∈ [[], [({ addr := 64, n := 4, op := 0, value := some 2 } : Partial)]],
      let w : VWrite := { locs := [64, 65, 66, 67], data := [], new := some (1, 3, 0) }
      let c := done { id := 1, startPc := 0, writes := [w], classes := [(8, 4)] }
      let s : State := { State.reset with strands := [(0, { run := .running, chunks := [c] })], clusters := [(0, { partials := ps })],
                                          dir := [(1, { regs := [(0, 0, 3)] })] }
      s.mayCommit 0 c ∧ c.pcie = [] ∧ tget 3 c.classes (64 / 8) = 4 ∧ s.registered (clusterOf 0) 8 = true ∧ (s.cluster 0).partials = ps ∧
        ∀ x ∈ w.locs, x / 8 = 64 / 8) ∧
    let c := done { id := 1, startPc := 0, held := [.invp 0 false 64 0 1] }
    let s : State := { sealed [] c.held with banks := [(0, { kbReg := 64, kbSpad := 0x8000, windows := [(0, { cls := 0, ro := false, pages := [(0, 0)], base := 64, pool := 0, len := 64, valid := [0] })] })],
                                             tlb := [page 0 0 0] }
    s.mayCommit 0 c ∧ (∀ b ∈ s.banks, s.bank b.1 = b.2 ∧ ∀ q ∈ b.2.winQueue, q.lkey = b.2.lkey) := by
  refine ⟨fun r hr => ?_, fun w hw => ?_, fun ps hp => ?_, ⟨by decide, rfl, ⟨rfl, rfl⟩, ⟨rfl, rfl, rfl⟩, by decide, ⟨by decide, rfl⟩, by decide, by decide, by decide, by decide, by decide⟩, by decide⟩
  · simp only [List.mem_cons, List.not_mem_nil, or_false] at hr
    rcases hr with rfl | rfl | rfl | rfl | rfl | rfl | rfl <;>
      exact ⟨⟨by decide, rfl, ⟨rfl, rfl⟩, ⟨rfl, rfl, rfl⟩, by decide, ⟨by decide, rfl⟩, by decide, by decide, by decide, by decide, by decide⟩, by decide, by decide⟩
  · simp only [List.mem_cons, List.not_mem_nil, or_false] at hw
    rcases hw with rfl | rfl <;>
      exact ⟨⟨by decide, rfl, ⟨rfl, rfl⟩, ⟨rfl, rfl, rfl⟩, by decide, ⟨by decide, rfl⟩, by decide, by decide, by decide, by decide, by decide⟩, by decide, by decide, by decide, by decide⟩
  · simp only [List.mem_cons, List.not_mem_nil, or_false] at hp
    rcases hp with rfl | rfl <;>
      exact ⟨⟨by decide, rfl, ⟨rfl, rfl⟩, ⟨rfl, rfl, rfl⟩, by decide, ⟨by decide, rfl⟩, by decide, by decide, by decide, by decide, by decide⟩, by decide, by decide, by decide, by decide, by decide⟩

/-- SPMAP of 64 bytes at the first address of a page; a window that is unmapped and flushed; a queued write of one piece, of two and
of none, in the first bank of the core and in the second. -/
theorem witness_windowsAreBoundAndWrittenBack :
    (let s : State := { State.reset with
        strands := [(0, { run := .running, regs := { s := [(5, 64), (6, 0), (4, 64)] } })], tlb := [page 0 0 0],
        banks := [(0, { kbReg := 64, kbSpad := 0x8000 })] }
     s.issues (ops 0 5 6 4 0 0).g [5, 6, 4] ∧ (s.s 5).toNat = 64 ∧ (s.s 6).toNat + (s.s 4).toNat ≤ (s.bank (bankOf s.cur)).inboxAt ∧
       (s.bank (bankOf s.cur)).windows = [] ∧ (page 0 0 0).check s.me.sv s.me.lkey .spmap = none ∧ (page 0 0 0).w = true ∧
       s.tlb.find? (fun x => x.maps (sourceCore (coreOf s.cur)) s.me.lkey 64) = some (page 0 0 0)) ∧
    ((reach 64).issues (ops 0 0 0 0 0x100 0).g [] ∧ (reach 64).openChunk.counterFull .cp = false) ∧
    (∀ h ∈ [Held.unmap 1, .cmd 5],
      let m : Cmd := { id := 5, strand := 0, seq := 1, chunk := 1, lkey := 0, sv := false, mailbox := none, kind := .flush 1 }
      let x : Window := { cls := 0, ro := false, pages := [(0, 0)], base := 64, pool := 0, len := 64, valid := [0, 1], dirty := [1] }
      let s : State := { sealed [] [h] with cmds := [(5, m)], banks := [(0, { kbReg := 64, kbSpad := 0x8000, windows := [(1, x)] })] }
      s.mayCommit 0 { id := 1, startPc := 0, sealed := true, gaining := true, held := [h] } ∧ tget? s.cmds 5 = some m ∧
        tget? (s.bank (bankOf 0)).windows 1 = some x) ∧
    ∀ cells ∈ [([(64, 1), (65, 2)] : Tab Byte), [(64, 1), (96, 2)], []], ∀ b ∈ [0, 1],
      let q : WinWrite := { window := 0, va := 64, cells := cells, strand := 0, lkey := 0, sv := false, id := 1, entry := some (page 0 0 0) }
      let s : State := { State.reset with banks := [(b, { winQueue := [q] })] }
      (8 * 0 < strandLimit ∧ (b = 2 * 0 ∨ b = 2 * 0 + 1 ∧ (s.bank (2 * 0)).winQueue = []) ∧ (s.bank b).winQueue = q :: [] ∧ q.id ≠ 0 ∧
        s.isCut q.lkey q.id = false ∧ s.piecesLeft q.id = false ∧ (q.cells.map Prod.fst).Nodup ∧
        (∀ c ∈ q.cells, q.va ≤ c.1 ∧ c.1 < q.va + 64) ∧ q.va % 64 = 0 ∧ storageOf ((page 0 0 0).phys q.va) = 64 ∧
        (page 0 0 0).check q.sv q.lkey .winWrite = none ∧ s.rangeAdmits (pkgOfDie (dieOfCluster (0 / 16))) 64 2 = true) ∧
      s.plainRange [q.id] 64 64 :=
  ⟨⟨issues_of (by decide), by decide, by decide, by decide, by decide, by decide, by decide⟩, ⟨issues_of (by decide), by decide⟩,
    fun h hm => by
      simp only [List.mem_cons, List.not_mem_nil, or_false] at hm
      rcases hm with rfl | rfl <;>
        exact ⟨⟨by decide, rfl, ⟨rfl, rfl⟩, ⟨rfl, rfl, rfl⟩, by decide, ⟨by decide, rfl⟩, by decide, by decide, by decide, by decide, by decide⟩, by decide, by decide⟩,
    fun cells hc b hb => by
      simp only [List.mem_cons, List.not_mem_nil, or_false] at hc hb
      rcases hc with rfl | rfl | rfl <;> rcases hb with rfl | rfl <;>
        exact ⟨by decide, plainRange_of ⟨rfl, rfl⟩ (by decide) (by decide) (by decide)⟩⟩

/-- No watch, a struck one and a pending one; PF, RES and its release of a line that no launch has asked for, that another has and that
the strand's own has; of a line that its package does not admit, and of an address that is not canonical. -/
theorem witness_watchesAndHints :
    (∀ w ∈ [WatchState.struck, .pending],
      let s : State := { hop [] with strands := [(0, { run := .running, watches := [{ word := 8, first := 8, count := 8, st := w, chunk := 1 }] })] }
      s.cur < strandLimit ∧ s.me.marks = [] ∧ (s.me.watches.any fun w => w.st == .pending) = (w == .pending) ∧
        (s.me.watches.any fun w => w.st == .struck) = (w == .struck) ∧
        slotAdd s.me.pc ((ops 0 0 0 0 0 1).imm.signExtend 64 : Word).toInt = some 1) ∧
    (let s : State := { hop [] with strands := [(0, { run := .running, watches := [{ word := 8, first := 8, count := 8, st := .struck, chunk := 1 }] })] }
     Enters s s.me.sv 1 true (page 0 0 1)) ∧
    (∀ r ∈ [([] : Tab (List Nat)), [(1, [5])], [(1, [0])], [(1, [5, 0])]],
      let s : State := { reach 64 with banks := [(0, { kbReg := 64, kbSpad := 0x8000, kbL1 := 0x10000 })], dies := [(homeOf 64, { resident := r })] }
      s.issues (ops 0 5 0 0 0 0).g (addrRegs (ops 0 5 0 0 0 0) ++ [0]) ∧ (s.s 0).toNat ≤ 1 ∧ s.formed (ops 0 5 0 0 0 0) = 64 ∧
        (ops 0 5 0 0 0 0).modBit 58 = false ∧ (ops 0 5 0 0 0x400 0).modBit 58 = true ∧ s.formed (ops 0 5 0 0 0x400 0) = 64 ∧
        s.tlb.find? (fun x => x.maps (sourceCore (coreOf s.cur)) s.me.lkey 64) = some (page 0 0 0) ∧
        (page 0 0 0).check s.me.sv s.me.lkey .load = none ∧ s.rangeAdmits (pkgOf s.cur) 64 1 = true ∧
        tget? (s.die (homeOf 64)).resident 1 = tget? r 1 ∧ (s.die (homeOf 64)).resident.length < residentLimit ∧
        (s.bank 0).windowOf 64 = none ∧ s.hasL1 (bankOf s.cur) = true ∧
        (∀ i, i < 8 → s.localByte s.cur 0 (64 + 8 * i) = none) ∧ (s.pkg (pkgOfAddr 64)).down = false) ∧
    (let far : TlbEntry := { page 0 0 0 with frame := 2 ^ 50 }
     let s : State := { reach 64 with tlb := [far] }
     s.tlb.find? (fun x => x.maps (sourceCore (coreOf s.cur)) s.me.lkey 64) = some far ∧
       s.rangeAdmits (pkgOf s.cur) (storageOf (far.phys 64)) 1 = false) ∧
    2 ^ 56 ≤ (reach 0x100000000000000).formed (ops 0 5 0 0 0 0) / 64 * 64 :=
  ⟨by decide, ⟨by decide, by decide, by decide, by decide, by decide, fun _ => by decide⟩, fun r h => by
      simp only [List.mem_cons, List.not_mem_nil, or_false] at h
      rcases h with rfl | rfl | rfl | rfl <;> exact ⟨issues_of (by decide), by decide⟩, by decide, by decide⟩
/-! ### Witnesses: homes, holders and the host -/

/-- A packet on word 8 of line 1 that is in flight, the line's entry, and strand 0 with one chunk. -/
def flying (p : Packet) (e : DirEntry) : State :=
  { State.reset with net := [p], dir := [(1, e)],
                     strands := [(0, { run := .running, chunks := [{ id := 1, startPc := 64, rsig := sigOf 8, toOwn := [1], toConfirm := [0] }] })] }

def packet (kind : PKind) (holder : Agent) : Packet :=
  { id := 9, kind := kind, home := 0, holder := holder, line := 1, words := [8], chunk := 1, cells := cellsAt 64 (toBytes 8 7) }

theorem idle_entry (p : Packet) (l : Nat) : (flying p {}).idleLine l := by
  have e : (flying p {}).entry l = {} := by
    by_cases h : l = 1
    · subst h; rfl
    · simp [State.entry, flying, tget, Ne.symm h]
  unfold State.idleLine; rw [e]
  exact ⟨rfl, rfl, rfl, rfl, rfl, fun i => .inl rfl⟩

/-- A read; ownership requests of a core and of a reduction buffer; pieces of an engine write, of which the first is all and is not;
a write-back; an answer to the recall that is outstanding and to another; a confirmation and its answer; and a partial of 8 bytes. -/
theorem witness_homesAnswerRequests :
    (∀ x ∈ [(PKind.read, Agent.core 0), (.own, .core 0), (.own, .redbuf 0)], let p := packet x.1 x.2
     let s := flying p {}
     s.packet 9 = some p ∧ (s.strand p.strand).sole = none ∧ s.queuedBefore p = false ∧ s.behindData p = false ∧ p.cls ≠ 5 ∧
       isHost (p.line * 64) = false ∧ s.dir.length < 524288 ∧ (∀ w ∈ p.words, lineOfWord w = p.line) ∧ p.line = 1 ∧
       (s.pkg p.sourcePackage).down = false ∧ s.rangeAdmits p.sourcePackage (p.line * 64) (s.readBit p) = true ∧
       (s.chunkOf p.strand p.chunk).isSome = true ∧ (p.words.map (· % 8)).Nodup) ∧
    ((∀ p, (flying p {}).idleLine 1) ∧ ∀ p b, (flying p {}).rangeAdmits (pkgOf 0) 64 b = true) ∧
    (∀ cells ∈ [([(64, 1), (65, 2)] : Tab Byte), [(95, 1), (96, 2)]], let p := { packet .piece (.core 0) with cells := cells }
     let s := flying p {}
     (s.packet 9 = some p ∧ p.kind = .piece ∧ isHost (p.line * 64) = false ∧ (p.cells.map Prod.fst).Nodup ∧ p.cells ≠ [] ∧
       ∀ c ∈ p.cells, c.1 / 64 = p.line) ∧ s.plainHome (p.line * 64)) ∧
    (let p := packet (.writeBack true) (.core 0)
     let s := flying p { ws := [(0, .m)], owned := [(0, .core 0)], holders := [⟨.core 0, [0]⟩] }
     s.packet 9 = some p ∧ (p.cells.map Prod.fst).Nodup ∧ s.plainHome 64 ∧ (∀ c ∈ p.cells, c.1 / 64 = 1 ∧ c.1 / 8 % 8 ∈ [0]) ∧
       (s.entry 1).state 0 = .m ∧ (s.entry 1).owner 0 = some (.core 0)) ∧
    (∀ tag ∈ [3, 4], let p := { packet .recallAns (.core 0) with tag := tag }
     let s := flying p { ws := [(0, .tr)], recalls := [(0, 3)] }
     s.packet 9 = some p ∧ s.behindData p = false ∧ (s.entry 1).state 0 = .tr ∧ tget? (s.entry 1).recalls 0 = some 3) ∧
    (let p := packet .confirmReq (.core 0)
     ∀ w ∈ p.words, ((flying p {}).entry (lineOfWord w)).locks = [] ∧ ((flying p {}).entry (lineOfWord w)).split = []) ∧
    (let p := packet .confirmAns (.core 0)
     (flying p {}).behind p = false ∧ ((flying p {}).chunkOf 0 1).isSome = true) ∧
    let p := packet (.partialAns 0 8) (.redbuf 0)
    (flying p {}).packet 9 = some p ∧ (flying p {}).behindData p = false ∧ p.cells = cellsAt 64 (toBytes 8 7) ∧ 7 < 2 ^ (8 * 8) ∧
      ∀ i, i < 8 → isHost (64 + i) = false :=
  ⟨by decide, ⟨fun p => idle_entry p 1, fun _ _ => rfl⟩, fun cells h => by
      simp only [List.mem_cons, List.not_mem_nil, or_false] at h
      rcases h with rfl | rfl <;> exact ⟨by decide, plainHome_of rfl (by decide)⟩,
    ⟨by decide, by decide, plainHome_of rfl (by decide), by decide, by decide, by decide⟩, by decide, by decide, by decide, by decide⟩

/-- An invalidation that meets the read set of a strand's only chunk; a recall, for write and for read; a fill of a load that awaits
one word, and two; a grant; and a request to combine. -/
theorem witness_holdersTakeTheirPackets :
    (let p := packet .inval (.core 0)
     let s := flying p {}
     s.packet 9 = some p ∧ s.behind p = false ∧ s.isFused 0 = false ∧ (s.pkg (pkgOfDie p.home)).down = false ∧
       (s.strand 0).chunks.length = 1 ∧ (∀ c ∈ (s.strand 0).chunks, c.committed = false ∧ sigHits c.rsig 8 = true) ∧
       (∀ j ∈ [1, 2, 3, 4, 5, 6, 7], (s.strand j).chunks = []) ∧ isPool (8 * 8) = false ∧ p.seq ≠ 1) ∧
    (∀ x ∈ [(PKind.recall true, Agent.core 0), (.recall false, .core 0), (.grant, .core 0), (.combineReq, .redbuf 0)],
      (flying (packet x.1 x.2) {}).packet 9 = some (packet x.1 x.2) ∧ (flying (packet x.1 x.2) {}).behind (packet x.1 x.2) = false ∧
        ((flying (packet x.1 x.2) {}).chunkOf 0 1).isSome = true ∧ ∀ w ∈ [8], ((flying (packet x.1 x.2) {}).pkg (pkgOfAddr (w * 8))).down = false) ∧
    ∀ need ∈ [[8], [8, 9]], let p := packet .fill (.core 0)
      let o : OutOp := { counter := .ld, chunk := 1, locs := [[64]], need := need }
      let s : State := { flying p {} with strands := [(0, { run := .running, ops := [o] })] }
      s.packet 9 = some p ∧ s.behind p = false ∧ p.win = none ∧ p.chunk ≠ 0 ∧ o ∈ (s.strand p.strand).ops ∧ o.seq = p.seq ∧ o.chunk = p.chunk ∧
        (o.need.filter (fun w => !p.words.contains w) = []) = (need = [8]) := by
  decide

/-- A host request on a host line in each state at the device; a caching read and a write of a byte at the end of a line of HBM, of
a page with BIAS and of none; the host's store to its own memory; and answers to snoops of each kind. -/
theorem witness_hostReachesLines :
    (∀ x ∈ [Mesi.i, .s, .e, .m], let s : State := { State.reset with pkgs := [(0, { mesi := [(0x80000000000, x)] })] }
     isHost (0x80000000000 * 64) = true ∧ (s.entry 0x80000000000).tw = [] ∧ s.mesiOf 0x80000000000 = x) ∧
    (∀ b ∈ [false, true], let e : TlbEntry := { page 0 0 5 with word := if b then 2 ^ 13 else 0 }
     let s : State := { State.reset with tlb := [e], dies := [(0, { atomics := [(1, 0)] })] }
     (0 * 2 ^ 50 + 127 < 2 ^ 39 ∧ 127 % 64 + 1 ≤ 64 ∧ s.regionAt 127 = .hbm ∧ s.inFinalPass 127 = false ∧ s.hostBias 127 = b ∧
        (s.dies.any fun d => ((tget? d.2.atomics (127 / 64)).map fun t => decide (s.time < t + 4096)).getD false) = true) ∧
       s.idleLine 1 ∧ s.plainHome 64 ∧ ∀ key, s.firstAt 1 key) ∧
    (∀ x ∈ [Mesi.i, .m], let s : State := { State.reset with pkgs := [(0, { mesi := [(0x80000000000, x)] })] }
     0x2000000000000 ≤ 0x2000000000000 ∧ 0x2000000000000 + 8 ≤ 0x2800000000000 ∧ s.mesiOf (0x2000000000000 / 64) = x) ∧
    ∀ line ∈ [1, 0x80000000000], ∀ data ∈ [[], [line]],
      let s : State := { State.reset with pkgs := [(0, { snoops := [line], snoopData := data })] }
      (s.pkg 0).snoops.contains line = true ∧ pkgOfAddr (line * 64) = 0 ∧ (s.pkg 0).snoopData.contains line = !data.isEmpty ∧
        (s.pkg 0).mesi.length < hostRoom ∧ s.mesiOf line = .i :=
  ⟨by decide, fun b h => by
      simp only [List.mem_cons, List.not_mem_nil, or_false] at h
      rcases h with rfl | rfl <;> exact ⟨by decide, idleLine_of rfl _, plainHome_of rfl (by decide), firstAt_of ⟨rfl, rfl⟩ 1⟩,
    by decide, by decide⟩
/-! ### Witnesses: messages, bricks and runs -/

/-- A launch of two stages, one cluster in each of two packages. -/
def team : Launch :=
  { small with packet := [BitVec.ofNat 64 (2 ^ 56 + 8 * 2 ^ 28 + 16 * 2 ^ 20), 0, BitVec.ofNat 64 (0xFFFF * 2 ^ 22)],
               remap := [(0, 0), (144, 144)], started := true }

/-- Strand 0 of the launch runs with some s registers. -/
def member (ss : Tab Word) : State := { hold ss [] with launches := [(0, team)] }

/-- A message to core 3, to cores 0 and 15 by a mask, to the next stage, and a brick's; the handler instructions; the effects at a
commit point. -/
theorem witness_messagesAndHandlersAreHeld :
    ((member [(5, 3)]).launchOf 0 = some team ∧ (member [(5, 3)]).issues (ops 0 5 0 4 0 0x400).g (5 :: [regV 4]) ∧
      (ops 0 5 0 4 0 0x400).imm.toNat / 2 ^ 8 % 2 ^ 7 = 4 ∧ 4 < (member [(5, 3)]).vAllot 0 ∧ team.resolve 3 = .core 3) ∧
    ((member [(5, 64)]).issues (ops 0 5 0 0 0x200 0).g (5 :: []) ∧ (ops 0 5 0 0 0x200 0).modBit 57 = true ∧ ((member [(5, 64)]).s 5).toNat % 64 = 0) ∧
    ((member [(5, 0), (6, 0x8001)]).issues (ops 0 5 6 0 0x080 0).g (5 :: 6 :: []) ∧ (ops 0 5 6 0 0x080 0).modBits 56 55 = 1 ∧
      (List.range 64).filter (nbit ((member [(5, 0), (6, 0x8001)]).s 6).toNat) = [0, 15] ∧ team.resolve 0 = .core 0 ∧ team.resolve 15 = .core 15) ∧
    ((member []).issues (ops 0 0 0 0 0 0).g [] ∧ team.stageOf (clusterOf 0) + 1 < team.stages ∧
      team.resolve (((member []).epid 0 + 2 ^ 13) % 2 ^ 23) = .core (144 * 16)) ∧
    ((member [(5, 64)]).issues (ops 0 5 0 0 0 2).g [5] ∧ ((member [(5, 64)]).s 5).toNat / 2 ^ 56 % 4 = 0 ∧
      nbit ((member [(5, 64)]).s 5).toNat 58 = false) ∧
    (∀ h ∈ [Held.hset 1 5, .hmask 3 true, .hmask 3 false, .qopen 4, .msg 3 2 [1] 1 4 none, .endRun],
      let c : Chunk := { id := 1, startPc := 0, sealed := true, gaining := true, held := [h] }
      let s : State := { sealed [] [h] with launches := [(0, team)] }
      s.mayCommit 0 c ∧ (s.strand 0).info.qset.contains 4 = false ∧ (s.strand 0).info.region ≠ some 4 ∧ (s.pkg (pkgOf (8 * 3))).down = false) := by
  refine ⟨⟨by decide, issues_of (by decide), by decide, by decide, by decide⟩, ⟨issues_of (by decide), by decide, by decide⟩,
    ⟨issues_of (by decide), by decide, by decide, by decide, by decide⟩, ⟨issues_of (by decide), by decide, by decide⟩,
    ⟨issues_of (by decide), by decide, by decide⟩, fun h hm => ?_⟩
  simp only [List.mem_cons, List.not_mem_nil, or_false] at hm
  rcases hm with rfl | rfl | rfl | rfl | rfl | rfl <;>
    exact ⟨⟨by decide, rfl, ⟨rfl, rfl⟩, ⟨rfl, rfl, rfl⟩, by decide, ⟨by decide, rfl⟩, by decide, by decide, by decide, by decide, by decide⟩, by decide, by decide, by decide⟩

/-- A brick in memory of the launch, no join and a join whose count is 1 and 0, with its data read. -/
theorem witness_suspendingWritesABrick :
    let o := ops 0 5 6 0 0 1
    let t (ops : List OutOp) : State :=
      { reach 128 with strands := [(0, { run := .running, ops := ops, regs := { s := [(5, 128), (6, 64)] },
                                         chunks := [{ id := 1, startPc := 0 }] })] }
    let read (b : Byte) : OutOp := { counter := .ld, chunk := 1, locs := [[70, 71]], buf := [(71, b)] }
    (slotAdd (reach 128).me.pc (o.imm.signExtend 64 : Word).toInt = some 1 ∧
      (∀ va ∈ [128], (reach 128).lies .store true va 64 ((rangeFrom va 64).map fun a => storageOf ((page 0 0 0).phys a))) ∧
      ((rangeFrom 128 64).map fun a => storageOf ((page 0 0 0).phys a)).headD 0 < poolBase ∧
      (reach 128).isStage 0 (pkgOfAddr (((rangeFrom 128 64).map fun a => storageOf ((page 0 0 0).phys a)).headD 0)) = true ∧
      (reach 128).openChunk.linesUsed 0 + 64 ≤ 256 ∧ (reach 128).issues o.g ([5, 6] ++ [1, 2, 3, 4, 5, 6]) ∧
      (reach 128).openChunk.me.count .ld = 0 ∧ (reach 128).openChunk.joinRead = none ∧ ((reach 128).s 6).toNat = 0) ∧
    (t [read 0]).openChunk.joinRead = some (read 0) ∧ (read 0).need = [] ∧ (read 0).locs ≠ [] ∧ ((t [read 0]).s 6).toNat = 64 ∧
      ∀ va ∈ [64], (t [read 0]).lies .load true va 8 ((rangeFrom va 8).map fun a => storageOf ((page 0 0 0).phys a)) :=
  ⟨⟨by decide, lies_of _ (by decide) (by decide) (by decide) (by decide), by decide, by decide, by decide, issues_of (by decide), by decide, by decide, by decide⟩,
    by decide, by decide, by decide, by decide, lies_of _ (by decide) (by decide) (by decide) (by decide)⟩

/-- The base of a queue at 0x10000, with 16 entries, enabled. -/
def queues : Tab Word := [(0, 0x10000), (8, 0x84000000)]

/-- A message for core 3; the handler of a channel with a free context; a brick that waits for its message; a submission. -/
theorem witness_messagesArriveAndRunsStart :
    (let m : Msg := { id := 4, lkey := 0, src := 0, srcId := 0, target := 3, dst := some 3, chan := 2, payload := [1], len := 1, q := some 0, ts := 0, ord := false }
     let s : State := { State.reset with launches := [(0, team)], msgs := [m], banks := [(6, { kbReg := 64, kbSpad := 0x8000 })] }
     s.msgs.find? (fun m => m.id == 4) = some m ∧ s.launch m.lkey = some team ∧ team.resolve m.target = .core 3 ∧ s.sentBefore m = false ∧
       (s.bank (team.bankOn 3)).frozen = false ∧ (s.bank (team.bankOn 3)).lkey = 0 ∧ (s.bank (team.bankOn 3)).inbox = []) ∧
    (let m : InMsg := { chan := 2, entry := 0, len := 1, sender := 3, ts := 0, q := some 0, ord := false }
     let s : State := { State.reset with
       launches := [(0, team)], tlb := [page 0 0 1], mem := [(60, 0x1F)],
       banks := [(0, { kbReg := 64, kbSpad := 0x8000, handlers := [(2, 2 ^ 60)], msgs := [m], inbox := [0] }), (1, { lkey := 9 })] }
     s.assistFirst 0 = false ∧ s.launch (s.bank 1).lkey = none ∧ s.launch (s.bank 0).lkey = some team ∧ team.killed = false ∧
       team.ended = false ∧ team.started = true ∧ (s.bank 0).frozen = false ∧ (s.cluster 0).bricks = [] ∧
       (tget 0 (s.bank 0).handlers 2).toNat = 2 ^ 60 ∧ (s.bank 0).msgs = [m] ∧ m.started = false ∧ (s.strand 0).run = .free ∧
       s.tlb.find? (fun x => x.maps (sourceCore 0) (s.bank 0).lkey 0) = some (page 0 0 1) ∧ (page 0 0 1).check false 0 .fetch = none ∧
       s.rangeAdmits (pkgOf 0) 0 1 = true ∧ nbit (lineWord (s.currentBytes 0 64)) 0 = true ∧
       ∀ i, i < 64 → (s.entry ((0 + i) / 64)).state ((0 + i) / 8 % 8) ≠ .m) ∧
    (∀ w ∈ [1, 2], let m : Msg := { id := 4, lkey := 0, src := 0, srcId := 0, target := 0, dst := none, brick := some 64, chan := 0, payload := [],
                                    len := 0, q := none, ts := 0, ord := false }
     let s : State := { State.reset with launches := [(0, team)], msgs := [m], tlb := [page (sourceHqu 0) 0 0], mem := [(127, BitVec.ofNat 8 (4 * w))] }
     s.msgs.find? (fun m => m.id == 4) = some m ∧ pkgOfDie (dieOfCluster 0) = pkgOfAddr 64 ∧ s.launch m.lkey = some team ∧ team.lkey = m.lkey ∧
         s.agentMay (brickCtx m.lkey (pkgOf (8 * m.src)) 4) .engineRead 64 64 64 (page (sourceHqu 0) 0 0) ∧
         s.agentMay (brickCtx m.lkey (pkgOf (8 * m.src)) 4) .engineWrite (64 + 56) 8 (64 + 56) (page (sourceHqu 0) 0 0) ∧
         s.mem.readNat (64 + 56) 8 / 2 ^ 58 % 8 = w) ∧
    (∀ jobs ∈ [([] : Tab (Tab (List Byte))), [(4, [(0, List.replicate 96 1)])], [(4, [(0, List.replicate 128 1)])],
          [(4, [(0, List.replicate 128 1), (1, List.replicate 64 1)])], [(4, [(0, List.replicate 128 1), (1, List.replicate 128 1)])]],
      let m : Msg := { id := 4, lkey := 0, src := 0, srcId := 0, target := 0x1000, dst := none, chan := 0,
                       payload := toBytes 8 0 ++ toBytes 8 0x20000, len := 16, q := none, ts := 0, ord := false }
      let s : State := { State.reset with launches := [(0, team)], msgs := [m], jobs := jobs, pkgs := [(0, { regs := queues })] }
      (s.queueOn 0 0 = true ∧ s.queueGraphs 0 0 = false ∧ s.queueTail 0 0 = 0 ∧ s.queueHead 0 0 = 0 ∧ s.queueSize 0 0 = 16 ∧
        (s.launch m.lkey).map (fun l => l.resolve m.target) = some (.agent 0 0 0) ∧ s.copiesOther 0 0 4 = false ∧
        fromBytes (m.payload.take 8) % 2 ^ 14 = 0 ∧
        fromBytes ((m.payload.drop 8).take 8) % 2 ^ 50 = 0x20000 ∧ s.queueBase 0 0 + 128 * (s.queueTail 0 0 % s.queueSize 0 0) = 0x10000 ∧
        regionOf (s.pkg 0) 0x20000 = .hbm ∧ s.piecesLeft 4 = false ∧
        s.jobBytes 4 0 = tget [] (tget [] jobs 4) 0 ∧ s.jobBytes 4 1 = tget [] (tget [] jobs 4) 1) ∧
      ∀ a ∈ [0x20000, 0x20000 + 96, 0x10000, 0x10000 + 64], s.plainRange [4] a 32 ∧ s.plainRange [4] a 64) ∧
    let s : State := { State.reset with launches := [(0, team)], strands := [(0, { run := .running })] }
    s.launches = [(team.lkey, team)] ∧ s.experts = [] ∧ (s.strand 0).lkey = team.lkey ∧ (s.strand 0).run ≠ .free :=
  ⟨by decide, by decide, fun w h => by
      simp only [List.mem_cons, List.not_mem_nil, or_false] at h
      rcases h with rfl | rfl <;> exact ⟨by decide, by decide, by decide, by decide,
        agentMay_of (by decide) ⟨rfl, rfl⟩ (by decide) (by decide) (by decide) (by decide) (by decide) (by decide) (by decide),
        agentMay_of (by decide) ⟨rfl, rfl⟩ (by decide) (by decide) (by decide) (by decide) (by decide) (by decide) (by decide), by decide⟩,
    fun jobs h => by
      simp only [List.mem_cons, List.not_mem_nil, or_false] at h
      rcases h with rfl | rfl | rfl | rfl | rfl <;> refine ⟨by decide, fun a h => ?_⟩ <;>
        simp only [List.mem_cons, List.not_mem_nil, or_false] at h <;> rcases h with rfl | rfl | rfl | rfl <;>
        exact ⟨plainRange_of ⟨rfl, rfl⟩ (by decide) (by decide) (by decide), plainRange_of ⟨rfl, rfl⟩ (by decide) (by decide) (by decide)⟩,
    by decide⟩
/-! ### Witnesses: the tile array and the copy engine -/

/-- Strand 0 runs on a cluster, with an address in the scratchpad in s4. -/
def array (c : Cluster) : State :=
  { State.reset with strands := [(0, { run := .running, regs := { s := [(5, 64), (6, 64), (4, 0xFF000000000000)] } })],
                     clusters := [(0, c)], tlb := [page (sourceCluster 0) 0 0], banks := [(0, { kbReg := 64, kbSpad := 0x8000 })] }

/-- Two claimed slots, and the lease held by strand 0. -/
def leased : Cluster := { holder := some 0, slots := [(0, { owner := some 0, full := true }), (1, { owner := some 0, full := true })] }

/-- LEASE by the holder, by a strand that has not asked and by one that has; a claim that is granted and one that is not; the
slots, the matrix, the accumulators and the scratchpad that the tile instructions name. -/
theorem witness_tileInstructionsIssue :
    ((array leased).issues (ops 0 0 0 0 0 0).g [] ∧ ((array leased).cluster 0).holder = some 0 ∧ ((array {}).cluster 0).holder ≠ some 0 ∧
      ((array {}).cluster 0).requests = [] ∧ ((array { requests := [⟨0, 0, 0⟩] }).cluster 0).requests = [⟨0, 0, 0⟩] ∧
      (array {}).issues (ops 0 0 0 0 0 0).g []) ∧
    ((ops 1 0 0 0 0 0x200).immBits 6 0 + (ops 1 0 0 0 0 0x200).immBits 15 8 = 2 ∧ 2 ≤ (array leased).slotAllot 0 ∧
      (array leased).issues (ops 1 0 0 0 0 0x200).g [regP 1] ∧ (rangeFrom 0 2).map (physSlot 0) = [0, 1] ∧
      (∀ n ∈ [0, 1], (((array leased).cluster 0).slot n).owner = some (coreOf 0) ∧ (((array leased).cluster 0).slot n).releasing = false) ∧
      (((array { slots := [(1, { owner := some 1 })] }).cluster 0).slot 1).owner = some 1) ∧
    ((∀ c ∈ [leased, { leased with term := 63 }, { leased with term := 64, requests := [⟨0, 0, 0⟩] }], c.holder = some 0 ∧ ∀ r ∈ c.requests, r.strand = 0) ∧
      (array leased).openChunk.counterFull .tl = false ∧ ((array leased).cluster 0).tasks.length < 32 ∧
      (array leased).issues (ops 0 0 0 0 0 0x100).g [] ∧ (array leased).issues (ops 0 0 0 0 0 0x100).g [regF 0] ∧
      0 + 1 < (array leased).accAllot 0 ∧ (ops 0 0 0 0 0 0x100).immBits 6 0 = 0 ∧ (ops 0 0 0 0 0 0x100).immBits 14 8 = 1) ∧
    ((array leased).issues (ops 0 5 6 0 0x000 0x001).g ([5, 6] ++ [regF 0]) ∧ (ops 0 5 6 0 0x000 0x001).vType = 0 ∧
      ((array leased).s 5).toNat % 64 = 0 ∧ 64 * ((ops 0 5 6 0 0x000 0x001).immBits 10 8 + 1) * typeWidth 0 / 8 ≤ ((array leased).s 6).toNat ∧
      (∀ r, r < 64 → (array leased).tlb.find? (fun y => y.maps (sourceCluster 0) (array leased).me.lkey (64 + r * 64)) =
        some (page (sourceCluster 0) 0 0)) ∧ (page (sourceCluster 0) 0 0).check false 0 .engineRead = none) ∧
    (array leased).issues (ops 31 0 0 0 0 1).g [] ∧ (∀ a ∈ rangeFrom 31 1, a < (array leased).accAllot 0) ∧
    (array leased).issues (ops 0 4 0 0 0 0).g [4] ∧ ((array leased).s 4).toNat = 0xFF * 2 ^ 48 ∧
      0 + 256 * ((ops 0 4 0 0 0 0).immBits 13 8 + 1) ≤ ((array leased).bank (bankOf 0)).inboxAt ∧ ((array leased).bank (bankOf 0)).windows = [] :=
  ⟨⟨issues_of (by decide), by decide, by decide, by decide, by decide, issues_of (by decide)⟩,
    ⟨by decide, by decide, issues_of (by decide), by decide, by decide, by decide⟩,
    ⟨by decide, by decide, by decide, issues_of (by decide), issues_of (by decide), by decide, by decide, by decide⟩,
    ⟨issues_of (by decide), by decide, by decide, by decide, by decide, by decide⟩, issues_of (by decide), by decide,
    issues_of (by decide), by decide, by decide, by decide⟩

/-- A tile command of a kind in the dependency table. -/
def command (kind : TaskKind) : Task := { id := 5, strand := 0, seq := 1, chunk := 1, lkey := 0, kind := kind, acc := 2, applied := true }

/-- A lease free with one request, at the end of its term, alone and with another strand that asks, and one whose holder is displaced
with nothing of its launch executing; a tile command of each kind,
ready to start, started and read; an MMV in the middle of a row and at its end, of a launch that is frozen and of one that is not;
ACC.RD in its course and at its end; a subnormal result and a normal one; and a task that an assist recomputes. -/
theorem witness_arrayRunsTileTasks :
    (128 * 0 < strandLimit ∧ ((array { requests := [⟨3, 1, 0⟩] }).cluster 0).holder = none ∧
      ((array { requests := [⟨3, 1, 0⟩] }).bank (bankOf 3)).frozen = false) ∧
    (∀ rs ∈ [[⟨0, 0, 0⟩], [⟨0, 0, 0⟩, (⟨3, 1, 0⟩ : LeaseReq)]],
      ((array { holder := some 0, term := 64, requests := rs }).cluster 0).holder = some 0 ∧
        64 ≤ ((array { holder := some 0, term := 64, requests := rs }).cluster 0).term) ∧
    (let s := { array { leased with frozen := [⟨0, [], [], false⟩], requests := [⟨0, 0, 0⟩] } with banks := [(0, { kbReg := 64, frozen := true })] }
     (s.cluster 0).holder = some 0 ∧ (s.bank (bankOf 0)).frozen = true ∧ (s.cluster 0).tasks = [] ∧ ((array leased).bank (bankOf 0)).frozen = false) ∧
    (∀ kind ∈ [TaskKind.mma 9 9 0 1 true false, .mma 14 12 0 1 true true, .zero 1, .mmv 0 1 64 3 [[64], [128]] 64 64, .rd (poolKey 0 64) 0 1 true],
      let t := command kind
      let c : Cluster := { leased with tasks := [t], slots := leased.slots ++ [(2, { owner := some 0, full := true })] }
      c.tasks = [t] ∧ t.started = false ∧ t.applied = true ∧ c.copies = [] ∧ (∀ n ∈ t.slots, (c.slot n).full = true ∧ (c.slot n).filling = false) ∧
        (∀ u ∈ c.tasks, u.started = true → ∀ n ∈ u.lastSlots, n ∉ t.slots) ∧
        (∀ a ∈ t.writes, (c.acc a).reads = 0 ∧ (c.acc a).st = .ready) ∧ ∀ a ∈ t.accs, a ∉ t.writes → (c.acc a).st = .ready) ∧
    (∀ b ∈ [false, true], let t : Task := { command (.rd (poolKey 0 64) 0 1 true) with started := true, isRead := b }
      t.kind = .rd (poolKey 0 64) 0 1 true ∧ t.started = true ∧ t.isRead = b) ∧
    (∀ data ∈ [([] : List Byte), [7]], ∀ fs ∈ [([] : List Frozen), [⟨0, [], [], false⟩]],
      let t : Task := { command (.mmv 0 1 64 3 [[64], [128]] 64 64) with started := true, data := data }
      let s := array { leased with tasks := [t], frozen := fs }
      ((s.cluster 0).tasks = [t] ∧ t.id ∉ (s.cluster 0).assists ∧ rowPiece ([64].drop 0) = (64, 1) ∧ (t.data.length < 1) = (data = []) ∧
        (∃ f ∈ (s.cluster 0).frozen, f.lkey = t.lkey) = (fs ≠ [])) ∧ s.plainRange [t.id] 64 1 ∧ s.regionAt 64 ≠ .reserved) ∧
    (∀ n ∈ [0, 4], let t : Task := { command (.rd (poolKey 0 64) 0 1 true) with started := true, isRead := true, cursor := n }
      let s := array { leased with tasks := [t] }
      (t.cursor < 4 * 1) = (n = 0) ∧ ∀ a ∈ rangeFrom (poolKey 0 64 + 64 * 0) 64, (s.core (poolCore a)).poolLocks = []) ∧
    (let t : Task := { command (.mma 11 11 0 1 true false) with started := true, set := false }
     let s (x : Byte) : State := { array { leased with tasks := [t] } with mem := [(accKey 0 2 0, x)] }
     ∀ x ∈ [(1 : Byte), 0], isSubnormal (fmtOf 11) (accumulate (fmtOf 11) (cyclesP 11) ((s x).accElem 0 2 0 0 true) ((List.range 64).map fun e =>
       mulNum (mulNum (arrayNum 11 (rowCode 11 ((s x).slotRow 0 0 0) e)) (arrayNum 11 (rowCode 11 ((s x).slotRow 0 1 0) e))) (.fin ⟨false, 1, 0⟩))) = (x == 1)) ∧
    let s : State := { array { leased with tasks := [{ command (.mma 9 9 0 1 true false) with started := true, marked := [0] }], assists := [5] } with
                       launches := [(0, team)] }
    (s.cluster 0).assists = 5 :: [] ∧ s.assistStrand 0 0 ≠ none :=
  ⟨by decide, by decide, by decide, by decide, by decide, fun data hd fs hf => by
      simp only [List.mem_cons, List.not_mem_nil, or_false] at hd hf
      rcases hd with rfl | rfl <;> rcases hf with rfl | rfl <;>
        exact ⟨by decide, plainRange_of ⟨rfl, rfl⟩ (by decide) (by decide) (by decide), by decide⟩,
    by decide, by decide, by decide⟩


/-- The copy instructions with a slot that is owned, with no mailbox and with one that memory holds; and with the shadow held, the
strand first among those that stall. -/
theorem witness_copyCommandsIssue :
    (let s := { array leased with tlb := [page 0 0 0] }
     s.mailboxFits (ops 0 5 6 4 0 0) ∧ s.openChunk.counterFull .cp = false ∧ (s.cluster 0).shadow = none ∧ (s.cluster 0).copyQueue = [] ∧
       s.issues (ops 0 5 6 4 0 0).g [0, 5] ∧ 0 < s.slotAllot 0 ∧ ((s.cluster 0).slot 0).owner = some (coreOf 0) ∧
       ((s.cluster 0).slot 0).releasing = false ∧ 0 + 1 < s.accAllot 0 ∧ s.issues (ops 0 5 6 4 0 0).g [0, 5, 6, 4] ∧
       s.mailboxFits (ops 6 5 6 4 0 0) ∧ s.issues (ops 6 5 6 4 0 0).g [6, 5]) ∧
    let m : Cmd := { id := 5, strand := 0, seq := 1, chunk := 1, lkey := 0, sv := false, mailbox := none, kind := .cpyNv 64 }
    let s := { array { leased with shadow := some m, copyQueue := [(0, 1), (5, 3)] } with tlb := [page 0 0 0] }
    (s.cluster 0).shadow ≠ none ∧ (∀ q, (s.cluster 0).copyQueue.head? = some q → q.1 = 0) :=
  ⟨⟨.inl rfl, by decide, by decide, by decide, issues_of (by decide), by decide, by decide, by decide, by decide, issues_of (by decide),
    .inr ⟨by decide, .inl ⟨by decide, page 0 0 0, by decide, by decide, by decide, by decide⟩⟩, issues_of (by decide)⟩, by decide,
    fun q h => by cases h; rfl⟩

/-- A copy command of a kind on cluster 0, with a layout record of one row of 16 bytes at 64. -/
def copyCmd (kind : CmdKind) (ready : Bool) (cursor : Nat) (mailbox : Option Nat) : Cmd :=
  { id := 5, strand := 0, seq := 1, chunk := 1, lkey := 0, sv := false, mailbox := mailbox, kind := kind, applied := true, started := true,
    ready := ready, cursor := cursor, data := cellsAt 0 (toBytes 8 64 ++ toBytes 8 64 ++ toBytes 8 (16 * 2 ^ 20 + 2 ^ 8)) }

/-- The same command, active. -/
def copying (kind : CmdKind) (ready : Bool) (cursor : Nat) : State :=
  array { leased with active := some (copyCmd kind ready cursor none) }

/-- The context of its accesses. -/
def copyCtx : EngCtx := { source := sourceCluster 0, lkey := 0, sv := false, strand := 0, cmd := 5 }

/-- A start of a command that may start, of one that waits, and with a list of eight that wait; a command that finishes, with a mailbox and with none; CPY.M at its
first step, reading, writing, and at its end with pieces left and with none; CPY.IN at a piece and at its end; and CPY.OUT. -/
theorem witness_copyCommandsRun :
    (let m : Cmd := { id := 5, strand := 0, seq := 1, chunk := 1, lkey := 0, sv := false, mailbox := none, kind := .cpyIn 1 64, applied := true }
     let c : Cluster := { shadow := some m, slots := [(1, { owner := some 0 })] }
     let d : Cluster := { shadow := some m, slots := [(1, { owner := some 0, full := true })] }
     c.active = none ∧ c.waiting = [] ∧ m.slots = [1] ∧ m.accs = [] ∧ (c.slot 1).full = false ∧ (d.slot 1).full = true ∧ c.tasks = [] ∧
       (List.replicate 8 m).length = 8 ∧ ∀ x ∈ List.replicate 8 m, ∃ n ∈ x.slots, (d.slot n).full = true) ∧
    ((∀ b ∈ [none, some 128], let m := copyCmd (.cpyM 64 128 16) true 16 b
      let s := array { leased with finishing := [m] }
      (s.cluster 0).finishing.find? (fun y => y.id == m.id) = some m ∧ s.piecesLeft m.id = false ∧ (m.mailbox = none ∨ m.mailbox = some 128)) ∧
     (array leased).agentMay copyCtx .engineWrite 128 8 128 (page (sourceCluster 0) 0 0)) ∧
    (((copying (.cpyM 64 128 16) false 0).cluster 0).active.isSome = true ∧ 64 + 16 ≤ 128 ∧
      (let m := copyCmd (.cpyM 64 128 16) true 0 none
       m.ended = false ∧ ((copying (.cpyM 64 128 16) true 0).cluster 0).finishing = [] ∧ ((copying (.cpyM 64 128 16) true 0).cluster 0).frozen = [] ∧
         { m with data := [] }.data.length < 16 ∧ 16 ≤ m.data.length) ∧
      (copying (.cpyM 64 128 16) true 0).agentMay copyCtx .engineRead 64 16 64 (page (sourceCluster 0) 0 0) ∧
      (copying (.cpyM 64 128 16) true 0).agentMay copyCtx .engineWrite 128 16 128 (page (sourceCluster 0) 0 0) ∧
      (∀ i, i < 16 → (copying (.cpyM 64 128 16) true 0).aliased copyCtx 64 16 (128 + i) = false) ∧
      ∀ net ∈ [([] : List Packet), [{ packet .piece (.core 0) with tag := 5 }]],
        ({ copying (.cpyM 64 128 16) true 16 with net := net } : State).piecesLeft 5 = !net.isEmpty) ∧
    ((((copying (.cpyIn 1 64) true 0).cluster 0).active.map fun m => (m.layout.base, m.layout.stride, m.layout.rows, m.layout.cols, m.layout.ty, m.layout.tr)) =
        some (64, 64, 1, 16, 0, false) ∧
      (copying (.cpyIn 1 64) true 0).agentMay copyCtx .engineRead 64 16 64 (page (sourceCluster 0) 0 0)) ∧
    convertDraws (rmodeOf 0) = false ∧ (∀ t ∈ ((copying (.cpyOut 2 2 0 true true 64) true 0).cluster 0).tasks, t.id ≠ 5) ∧
      ∀ y ∈ (copyCmd (.cpyOut 2 2 0 true true 64) true 0 none).data, y.1 < 32 :=
  ⟨by decide, ⟨by decide, agentMay_of (by decide) ⟨rfl, rfl⟩ (by decide) (by decide) (by decide) (by decide) (by decide) (by decide) (by decide)⟩,
    ⟨by decide, by decide, by decide,
      agentMay_of (by decide) ⟨rfl, rfl⟩ (by decide) (by decide) (by decide) (by decide) (by decide) (by decide) (by decide),
      agentMay_of (by decide) ⟨rfl, rfl⟩ (by decide) (by decide) (by decide) (by decide) (by decide) (by decide) (by decide), by decide, by decide⟩,
    ⟨by decide, agentMay_of (by decide) ⟨rfl, rfl⟩ (by decide) (by decide) (by decide) (by decide) (by decide) (by decide) (by decide)⟩, rfl,
    by decide, by decide⟩

/-- An NVMe read whose window page 2 is mapped, with a completion, a time-out and a write of its controller; and an enabled queue with a
completion of a command that is no more. -/
theorem witness_nvmeReads :
    let r : NvRead := { cmd := 5, cluster := 0, queue := 3, cid := 7, window := 2, frames := [0x1000], bytes := 64, landed := 64 }
    let s : State := { State.reset with pkgs := [(0, { nvme := [r] })] }
    (0 < packageLimit ∧ r.queue < 64 ∧ r ∈ (s.pkg 0).nvme ∧ (s.pkg 0).nvme = [r] ∧ r.fine = false ∧
      (s.reg 0 (0x70000 + 64 * 3 + 8 * 7)).toNat / 2 ^ 16 % 2 ^ 16 ≤ (s.reg 0 (0x70000 + 64 * 3 + 8 * 4)).toNat / 2 ^ 16 % 2 ^ 16 ∧
      r.since + 700000 * ((s.reg 0 (0x70000 + 64 * 3 + 8 * 5)).toNat / 2 ^ 32 % 2 ^ 16) ≤ s.time ∧ r.place 0x2000 = some 0x1000 ∧
      (s.pkg 0).nvme.find? (fun y => (y.place 0x2000).isSome) = some r) ∧
      s.plainRange [r.cmd] 0x1000 64 ∧
      (let t : State := { State.reset with pkgs := [(0, { nvme := [r], regs := [(0x700E0, 0xC00010001), (0x700E8, 0x8000000100000000)] })] }
       t.nvmeEnabled 0 3 = true ∧ ∀ y ∈ (t.pkg 0).nvme, y.queue = 3 → y.cid ≠ 8) :=
  ⟨by decide, plainRange_of ⟨rfl, rfl⟩ (by decide) (by decide) (by decide), by decide⟩
/-! ### Witnesses: courses and experts -/

/-- Strand 0 with course 1 of its package in a state and one expert, with handles of the course and the expert in s5 and s6. -/
def course (st : CourseState) : State :=
  { reach 64 with
    strands := [(0, { run := .running, regs := { s := [(5, 0x301), (6, 0x800007), (4, 64)] } })], experts := [(7, { lkey := 0, pkg := 0, words := [] })]
    pkgs := [(0, { courses := [(1, { gen := 3, st := st, dests := [(0, 1)] })] })] }

theorem course_may (st : CourseState) : (course st).mayAccess :=
  ⟨rfl, rfl, rfl, fun c h => absurd h (by have : (course st).openChunk.me.chunks.drop 1 = [] := rfl; rw [this]; simp),
    fun l h => absurd h (by have : ((course st).core (coreOf (course st).cur)).poolLocks = [] := rfl; rw [this]; simp)⟩

/-- Each instruction, with a course number free, a handle that names the course and one that does not, an expert in the table, a
value that is no expert, and a course store of 8 bytes. -/
theorem witness_courseAndExpertInstructionsIssue :
    let s := course .opened
    (s.openChunk.counterFull .ld = false ∧ s.openChunk.counterFull .cp = false ∧ s.issues (ops 7 0 0 0 0 0).g [7] ∧ (s.course 0 0).st = .closed) ∧
    (s.issues (ops 7 5 0 0 0 0).g [5, 7] ∧ (s.s 5).toNat < 2 ^ 24 ∧ (s.course 0 ((s.s 5).toNat % 256)).st = .opened ∧
      (s.course 0 ((s.s 5).toNat % 256)).gen = (s.s 5).toNat / 256 ∧ (s.s 5).toNat / 2 ^ 23 ≠ 1) ∧
    (s.issues (ops 7 6 0 0 0 0).g [7, 6] ∧ (s.s 6).toNat / 2 ^ 23 = 1 ∧ (tget? s.experts ((s.s 6).toNat % 2 ^ 23)).map Expert.lkey = some 0 ∧
      s.mailboxFits (ops 0 6 5 0 0 0) ∧ s.issues (ops 0 6 5 0 0 0).g [0, 6, 5]) ∧
    (s.mayAccess ∧ s.issues (ops 5 4 0 6 0xC00 0).g (addrRegs (ops 5 4 0 6 0xC00 0) ++ [6, 5]) ∧ s.formed (ops 5 4 0 6 0xC00 0) = 64 ∧
      ∀ va ∈ [64], s.lies .stc false va 8 ((rangeFrom va 8).map fun a => storageOf ((page 0 0 0).phys a))) ∧
    ∀ n, n < 256 → (({ State.reset with pkgs := [(0, { courses := (List.range 256).map fun n => (n, { st := .opened }) })] } : State).course 0 n).st ≠ .closed :=
  ⟨⟨by decide, by decide, issues_of (by decide), by decide⟩, ⟨issues_of (by decide), by decide, by decide, by decide, by decide⟩,
    ⟨issues_of (by decide), by decide, by decide, .inl rfl, issues_of (by decide)⟩,
    ⟨course_may _, issues_of (by decide), by decide, lies_of _ (by decide) (by decide) (by decide) (by decide)⟩, by decide⟩

/-- A course in each of its states, in time and late, the effects of a commit point, a store that arrives and is admitted, acknowledgements
awaited from one destination and from another, words that are free, and a word that a holder owns. -/
theorem witness_coursesDecide :
    (∀ h ∈ [Held.cbegin 1, .abandon 0x301, .lay 0x301 2, .stc 0x301 64 8 5 2],
      let c : Chunk := { id := 1, startPc := 0, sealed := true, gaining := true, held := [h] }
      ({ sealed [] [h] with pkgs := (course .opened).pkgs } : State).mayCommit 0 c) ∧
    ((course .opened).course 0 1).dests = [(0, 1)] ∧ ((course .opened).course 0 1).rejected = false ∧ (course .opened).answers 0 = true ∧
    (let m : StcMsg := { id := 4, src := 0, num := 1, gen := 3, addr := 64, n := 8, value := 5, strand := 0, seq := 2 }
     let s : State := { course .opened with stcs := [m] }
     s.stcs.find? (fun m => m.id == 4) = some m ∧ s.rangeAdmits 0 64 3 = true ∧ (s.course 0 1).gen = m.gen) ∧
    ((∀ st ∈ [CourseState.preparing, .deciding], ((course st).course 0 1).st = st ∧ ((course st).course 0 1).verdict = 0) ∧
      (((course .preparing).pkg 0).stagingOf 0 1).locked = false ∧ ((course .preparing).pkg 0).hostCopies = [] ∧
      (course .preparing).time < ((course .preparing).course 0 1).since + 70000 ∧
      ({ course .preparing with time := 70000 } : State).course 0 1 = (course .preparing).course 0 1) ∧
    (∀ acks ∈ [[0], [0, 1]], let s : State := { course .deciding with pkgs := [(0, { courses := [(1, { gen := 3, st := .deciding, dests := [(0, 1), (1, 1)], acks := acks })] })] }
     (s.course 0 1).st = .deciding ∧ (s.course 0 1).acks = acks ∧ (∃ d ∈ (s.course 0 1).dests, d.1 ≠ 0 ∧ tget? (s.course 0 1).reports d.1 = none)) ∧
    (let s : State := { course .preparing with pkgs := [(0, { courses := [(1, { gen := 3, st := .preparing, dests := [(0, 1)] })],
                                                              staging := [{ src := 0, num := 1, arrived := 1, cells := [(64, 5)] }] })] }
     (tget 0 (s.course 0 1).dests 0 ≤ ((s.pkg 0).stagingOf 0 1).arrived ∧ ((s.pkg 0).stagingOf 0 1).overflow = false ∧
       ((s.pkg 0).stagingOf 0 1).words = [8] ∧ ((s.pkg 0).stagingOf 0 1).lines = [1] ∧ (((s.pkg 0).stagingOf 0 1).cells.map fun x => x.1).Nodup ∧
       (s.entry 1).locks = [] ∧ (s.entry 1).tw = [] ∧ (s.entry 1).sole = [] ∧ (s.entry 1).split = [] ∧ (s.entry 1).posting = [] ∧ s.placedAfter 1 [0] [1, 0 * 256 + 1, 8] = false ∧
       (s.entry 1).state 0 = .u) ∧ s.plainHome 64) ∧
    let s : State := { course .deciding with dir := [(1, { ws := [(0, .m)], owned := [(0, .core 3)], holders := [⟨.core 3, [0]⟩] })] }
    (s.entry 1).state 0 = .m ∧ (s.entry 1).owner 0 = some (.core 3) ∧ isHost (1 * 64) = false := by
  refine ⟨fun h hm => ?_, by decide, by decide, by decide, by decide, by decide, by decide, ⟨by decide, plainHome_at (by decide) (by decide)⟩, by decide⟩
  simp only [List.mem_cons, List.not_mem_nil, or_false] at hm
  rcases hm with rfl | rfl | rfl | rfl <;>
    exact ⟨by decide, rfl, ⟨rfl, rfl⟩, ⟨rfl, rfl, rfl⟩, by decide, ⟨by decide, rfl⟩, by decide, by decide, by decide, by decide, by decide⟩

/-- The request of an EXRT that arrives, for an expert of the launch, for one of another launch and for a name that is none. -/
theorem witness_expertWordArrives : ∀ es ∈ [([] : Tab Expert), [(7, { lkey := 0, pkg := 0, words := [] })], [(7, { lkey := 5, pkg := 0, words := [] })]],
    let q : OutOp := { counter := .ld, seq := 0, chunk := 1, fin := .expert 9 7 2 }
    let s : State := { State.reset with strands := [(0, { run := .running, ops := [q], chunks := [{ id := 1, startPc := 0 }] })], experts := es }
    q ∈ (s.strand 0).ops ∧ q.need = [] ∧ (∀ x ∈ (s.strand 0).ops, x.seq = q.seq → x = q) ∧ tget? s.experts 7 = tget? es 7 := by decide

/-- What a step needs to read the next piece of a range of a job, and to write the next part of some bytes. -/
def canRead (s : State) (x : EngCtx) (r va n : Nat) : Prop :=
  let done := (s.jobBytes x.cmd r).length
  done < n ∧ va + n ≤ 0xFF * 2 ^ 48 ∧ s.placed x .engineRead (va + done) (min (n - done) (32 - (va + done) % 32)) (va + done)

def canWrite (s : State) (x : EngCtx) (r va n : Nat) : Prop :=
  let done := (s.jobBytes x.cmd r).length
  done < n ∧ va + n ≤ 0xFF * 2 ^ 48 ∧ s.placed x .engineWrite (va + done) (min (n - done) (64 - (va + done) % 64)) (va + done)

/-- An expert of the launch in package 0 with some descriptor words, and a token of it in flight. -/
def token (ws : Tab Nat) : State :=
  { State.reset with
    launches := [(0, team)], nextId := 9, experts := [(7, { lkey := 0, pkg := 0, words := ws })],
    tlb := [page (sourceIo 0 0x10) 0 0, page (sourceIo 1 1) 0 0],
    msgs := [{ id := 4, lkey := 0, src := 0, srcId := 0, target := 0x800007, dst := none, chan := 0, payload := List.replicate 64 0, len := 64,
               q := none, ts := 0, ord := false }] }

/-- An expert that is closed, one with room, one with a replica that warms and a ring, and none; and the end of a window. -/
theorem witness_expertsRoute :
    (∀ ws ∈ [[(2, 2)], [(16, 2 * 2 ^ 62 + 5 * 2 ^ 40 + 3)], [(16, 2 ^ 62), (4, 4 * 2 ^ 59 + 0x1000)]],
      let s := token ws
      ((s.msgs.find? fun m => m.id == 4).map fun m => (m.lkey, m.len, m.payload.length, m.target % 2 ^ 23)) = some (0, 64, 64, 7) ∧
        s.launch 0 = some team ∧ (tget? s.experts 7).map (fun e => (e.lkey, e.heldTok, e.queue)) = some (0, [], []) ∧ s.jobBytes 4 0 = []) ∧
    (let e : Expert := { lkey := 0, pkg := 0, words := [(2, 2)], queue := [.token 4, .spill] }
     e.closed = true ∧ e.queue.head? = some (.token 4)) ∧
    (let e : Expert := { lkey := 0, pkg := 0, words := [(16, 2 * 2 ^ 62 + 5 * 2 ^ 40 + 3)] }
     e.closed = false ∧ e.updating = false ∧ ((List.range 32).filter fun i => e.state i == 2 && decide (e.used i < e.cap i)) = [0] ∧
       team.resolve (e.ep 0) = .core 3) ∧
    (let e : Expert := { lkey := 0, pkg := 0, words := [(16, 2 ^ 62), (4, 4 * 2 ^ 59 + 0x1000)] }
     ((List.range 32).filter fun i => e.state i == 2 && decide (e.used i < e.cap i)) = [] ∧ e.state 0 = 1 ∧ e.spilled < 2 ^ bits (e.word 4) 63 59 ∧
       (token e.words).placed (e.ctx 7 4) .engineWrite 0x1000 64 0x1000) ∧
    ({ token [] with experts := [] } : State).placed { source := sourceIo (2 * team.pkg + 7 % 2) 1, lkey := 0, sv := false, strand := 0, cmd := 4 } .amo 9 1 9 ∧
    let e : Expert := { lkey := 0, pkg := 0, words := [(0, 2 ^ 62), (3, 4 * 2 ^ 48 + 2 * 2 ^ 32), (16, 2 ^ 63), (18, 2 ^ 63)] }
    nbit (e.word 0) 62 = true ∧ ((List.range 32).filter fun i => e.state i == 2) = [0, 1] ∧ bits (e.word 3) 63 48 = 4 ∧ bits (e.word 3) 47 32 = 2 :=
  ⟨by decide, by decide, by decide,
    ⟨by decide, by decide, by decide, placed_of (page (sourceIo 1 1) 0 0) (by decide) ⟨rfl, rfl⟩ (by decide) (by decide)⟩,
    placed_of (page (sourceIo 1 1) 0 0) (by decide) ⟨rfl, rfl⟩ (by decide) (by decide), by decide⟩

/-- The layout record at 0x1000, of one row of 16 f32 words at 0x2000. -/
def layoutBytes : List Byte := toBytes 8 0x2000 ++ toBytes 8 64 ++ toBytes 8 (16 * 2 ^ 20 + 2 ^ 8 + 10) ++ toBytes 8 0

/-- An expert with that layout, gradients at 0x4000 and a command of it, in some state, whose jobs have read and written some bytes. -/
def trained (ws : Tab Nat) (kind : CmdKind) (started : Bool) (cursor : Nat) (queue : List ExEvent) (jobs : Tab (Tab (List Byte))) : State :=
  { token ws with
    experts := [(7, { lkey := 0, pkg := 0, words := [(1, 0x1000), (7, 0x4000)] ++ ws, copying := [0], upd := none, queue := queue })], jobs := jobs,
    cmds := [(5, { id := 5, strand := 0, seq := 1, chunk := 1, lkey := 0, sv := false, mailbox := none, kind := kind, applied := true,
                   started := started, cursor := cursor, issuer := 3 })] }

/-- The jobs of a replica copy, and of a contribution, at their stages. -/
def copyJobs : List (Tab (Tab (List Byte))) :=
  let r := (0, layoutBytes)
  [[], [(dirJob 7 0, [r])], [(dirJob 7 0, [r, (1, List.replicate 64 0)])], [(dirJob 7 0, [r, (1, List.replicate 64 0), (2, List.replicate 64 0)])]]

def joinJobs : List (Tab (Tab (List Byte))) := [[], [(5, [(0, layoutBytes)])], [(5, [(0, layoutBytes), (1, List.replicate 64 0)])]]

/-- A replica's copy: its record, its master, its buffer, and all done; an EXRETIRE; an EXJOIN that begins, reads its record and its
gradient, and has read them; an EXSPILL of an empty ring; and an EXUPD whose course ends. -/
theorem witness_expertsJoinAndUpdate :
    (let ws : Tab Nat := [(16, 2 ^ 62 + 3), (17, 0x3000)]
     let e : Expert := { lkey := 0, pkg := 0, words := [(1, 0x1000), (7, 0x4000)] ++ ws, copying := [0] }
     let x := e.ctx 7 (dirJob 7 0)
     let s (n : Nat) := trained ws (.exretire 7 0) false 0 [] (copyJobs.getD n [])
     (tget? (s 0).experts 7 = some e ∧ e.state 0 = 1 ∧ e.copying.contains 0 = true ∧ e.compresses = false ∧ e.upd = none ∧ e.grows = [] ∧
       (∀ n, n < 4 → (s n).piecesLeft x.cmd = false) ∧ bits (e.word 1) 55 0 = 0x1000 ∧ e.buf 0 = 0x3000 ∧
       (expertLayout ((s 1).jobBytes x.cmd 0)).map (fun l => (l.base, l.rows, l.cols, l.wsize)) = some (0x2000, 1, 16, 64) ∧
       32 ≤ ((s 1).jobBytes x.cmd 0).length ∧ 64 ≤ ((s 2).jobBytes x.cmd 1).length ∧ 64 ≤ ((s 3).jobBytes x.cmd 2).length) ∧
       canRead (s 0) x 0 0x1000 32 ∧ canRead (s 1) x 1 0x2000 64 ∧ canWrite (s 2) x 2 0x3000 64) ∧
    (∀ k, let s := trained [(16, 2 * 2 ^ 62 + 3), (6, 2 ^ 32)] k false 0 [] []
     ((tget? s.experts 7).map fun e => (e.state 0, nbit e.member 0, nbit e.contrib 0, e.ep 0, e.spilled)) = some (2, true, false, 3, 0) ∧
       ((tget? s.experts 7).map fun e => (e.joins, e.queue)) = some ([], []) ∧
       (tget? s.cmds 5).map (fun c => (c.applied, c.started, c.ended, c.issuer)) = some (true, false, false, 3) ∧ s.piecesLeft 5 = false) ∧
    (let ws : Tab Nat := [(16, 2 * 2 ^ 62 + 3), (6, 2 ^ 32), (2, 4)]
     let e : Expert := { lkey := 0, pkg := 0, words := [(1, 0x1000), (7, 0x4000)] ++ ws, copying := [0] }
     let c : Cmd := { id := 5, strand := 0, seq := 1, chunk := 1, lkey := 0, sv := false, mailbox := none, kind := .exjoin 7 0x5000 0 false }
     let s (n : Nat) := trained ws (.exjoin 7 0x5000 0 false) true 0 [] (joinJobs.getD n [])
     (e.compresses = false ∧ (expertLayout ((s 1).jobBytes 5 0)).map (fun l => (l.rows, l.cols)) = some (1, 16) ∧
       32 ≤ ((s 1).jobBytes 5 0).length ∧ 64 ≤ ((s 2).jobBytes 5 1).length) ∧
       canRead (s 0) (e.ctx 7 5) 0 0x1000 32 ∧ canRead (s 1) (c.exCtx 0 7) 1 0x5000 64 ∧
       (s 1).placed (c.exCtx 0 7) .engineRead 0x5000 64 0x5000 ∧ (s 1).placed (e.ctx 7 5) .engineWrite 0x4000 64 0x4000) ∧
    (let e : Expert := { lkey := 0, pkg := 0, words := [(2, 4)], upd := some 5 }
     e.updating = true ∧ e.upd = some 5 ∧ e.queue = []) :=
  ⟨⟨by decide, ⟨by decide, by decide, placed_of (page (sourceIo 1 1) 0 0) (by decide) ⟨rfl, rfl⟩ (by decide) (by decide)⟩,
      ⟨by decide, by decide, placed_of (page (sourceIo 1 1) 0 0) (by decide) ⟨rfl, rfl⟩ (by decide) (by decide)⟩,
      ⟨by decide, by decide, placed_of (page (sourceIo 1 1) 0 0) (by decide) ⟨rfl, rfl⟩ (by decide) (by decide)⟩⟩,
    fun _ => ⟨rfl, rfl, rfl, rfl⟩,
    ⟨by decide, ⟨by decide, by decide, placed_of (page (sourceIo 1 1) 0 0) (by decide) ⟨rfl, rfl⟩ (by decide) (by decide)⟩,
      ⟨by decide, by decide, placed_of (page (sourceIo 1 1) 0 0) (by decide) ⟨rfl, rfl⟩ (by decide) (by decide)⟩,
      placed_of (page (sourceIo 1 1) 0 0) (by decide) ⟨rfl, rfl⟩ (by decide) (by decide),
      placed_of (page (sourceIo 1 1) 0 0) (by decide) ⟨rfl, rfl⟩ (by decide) (by decide)⟩, by decide⟩

/-- A contribution that joins: the first arrival and the second, with its gradients to read, one line of two to write, a last line of
two pieces and of one, and nothing left to write. -/
theorem witness_contributionJoins :
    let ws (n : Nat) : Tab Nat := [(16, 2 * 2 ^ 62 + 3), (6, 2 ^ 32), (2, 4), (11, n * 2 ^ 40)]
    let e (n : Nat) : Expert := { lkey := 0, pkg := 0, words := [(1, 0x1000), (7, 0x4000)] ++ ws n, copying := [0], queue := [.joined 5] }
    let s (n : Nat) (js : Tab (List Byte)) := trained (ws n) (.exjoin 7 0x5000 0 false) true 1 [.joined 5] [(5, js)]
    let one := (1, List.replicate 64 (0 : Byte))
    let two := (1, List.replicate 128 (0 : Byte))
    (tget? (s 0 []).experts 7 = some (e 0) ∧ (e 0).queue.head? = some (.joined 5) ∧ (e 0).compresses = false ∧
      ∃ n, (e n).arrivals = 1 ∧ (e 0).arrivals = 0 ∧ 64 ≤ ((s n [one, (4, List.replicate 64 0)]).jobBytes 5 4).length ∧
        canRead (s n [one]) ((e n).ctx 7 5) 4 0x4000 64) ∧
      canWrite (s 0 [two]) ((e 0).ctx 7 5) 5 0x4000 128 ∧
      ((s 0 [one]).placed ((e 0).ctx 7 5) .engineWrite 0x4000 64 0x4000 ∧ 0x4000 / 32 ≠ (0x4000 + 64 - 1) / 32) ∧
      ((s 0 [two, (5, List.replicate 96 0)]).placed ((e 0).ctx 7 5) .engineWrite 0x4060 32 0x4060 ∧ 0x4060 / 32 = (0x4060 + 32 - 1) / 32) ∧
      4 * (((s 0 [one, (5, List.replicate 64 0)]).jobBytes 5 1).length / 4) ≤ ((s 0 [one, (5, List.replicate 64 0)]).jobBytes 5 5).length :=
  ⟨⟨by decide, by decide, by decide, 1, by decide, by decide, by decide,
      ⟨by decide, by decide, placed_of (page (sourceIo 1 1) 0 0) (by decide) ⟨rfl, rfl⟩ (by decide) (by decide)⟩⟩,
    ⟨by decide, by decide, placed_of (page (sourceIo 1 1) 0 0) (by decide) ⟨rfl, rfl⟩ (by decide) (by decide)⟩,
    ⟨placed_of (page (sourceIo 1 1) 0 0) (by decide) ⟨rfl, rfl⟩ (by decide) (by decide), by decide⟩,
    ⟨placed_of (page (sourceIo 1 1) 0 0) (by decide) ⟨rfl, rfl⟩ (by decide) (by decide), by decide⟩, by decide⟩


/-- A message of one word list for gateway 0 of package 0, whose jobs have read and written some bytes. -/
def gateway (len chan : Nat) (ws : List Nat) (jobs : Tab (Tab (List Byte))) (g : Pkg) : State :=
  { State.reset with
    launches := [(0, team)], nextId := 9, tlb := [page (sourceIo 0 0x10) 0 0], pkgs := [(0, g)], jobs := jobs,
    msgs := [{ id := 4, lkey := 0, src := 0, srcId := 0, target := 0x1010, dst := none, chan := chan, payload := bytesOf ws, len := len, q := none, ts := 0,
               ord := false }] }

theorem own_domain : ∀ d : Nat, d < 64 → bits (BitVec.ofNat 64 (d * 2 ^ 23 + 7)).toNat 28 23 = d := by decide

/-- A request for one token of D = 1 with K = 1: its row to read, its record to write, and both done. -/
theorem witness_gatewaysScore :
    let t : Gate := { d := 1, e := 1, rows := [0x80, 0x3F], names := [BitVec.ofNat 64 (Config.ownDomain % 64 * 2 ^ 23 + 7)] }
    let s (js : Tab (List Byte)) := gateway 40 0 [0x2000, 1, 0x3000, 2 ^ 16, 0] [(4, js)] { gates := [(0, t)] }
    let r := requestIn (bytesOf [0x2000, 1, 0x3000, 2 ^ 16, 0])
    let x := gatewayCtx 0 0 0 4
    (((s []).msgs.find? fun m => m.id == 4).map fun m => ((s []).launch m.lkey).map fun l => l.resolve m.target) = some (some (.agent 0 0 0x10)) ∧
      (s []).loading 0 r.table = false ∧ tget? ((s []).pkg 0).gates r.table = some t ∧ (r.k ≤ t.e ∧ r.d = t.d ∧ r.ntok = 1 ∧ r.xbase = 0x2000 ∧ r.cbase = 0x3000) ∧
      canRead (s []) x 0 r.xbase (2 * r.d) ∧ canWrite (s [(0, [0x80, 0x3F])]) x 1 r.cbase 64 ∧
      (let n := List.replicate 64 (0 : Byte)
       2 ≤ ((s [(0, [0x80, 0x3F]), (1, n)]).jobBytes 4 0).length ∧ 64 ≤ ((s [(0, [0x80, 0x3F]), (1, n)]).jobBytes 4 1).length ∧
        (s [(0, [0x80, 0x3F]), (1, n)]).piecesLeft 4 = false) ∧
      (∀ ws ds, (combineRecord r ws ds).length = 64) ∧ bits (t.names.getD 0 0).toNat 28 23 = Config.ownDomain % 64 :=
  ⟨by decide, by decide, rfl, by decide, ⟨by decide, by decide, placed_of (page (sourceIo 0 0x10) 0 0) (by decide) ⟨rfl, rfl⟩ (by decide) (by decide)⟩,
    ⟨by decide, by decide, placed_of (page (sourceIo 0 0x10) 0 0) (by decide) ⟨rfl, rfl⟩ (by decide) (by decide)⟩, by decide, fun _ _ => rfl,
    own_domain _ (Nat.mod_lt _ (by decide))⟩

theorem second_slot : ∀ d : Nat, d < 64 →
    let rec' := wordsIn (bytesOf [0, 3, 0, 0, 0, 0, d * 2 ^ 8, 0])
    (List.range 8).filter (fun i => nbit (rec'.getD 1 0) i && !nbit (rec'.getD 1 0) (8 + i)) = [0, 1] ∧ bits (rec'.getD 6 0) (8 * 1 + 5) (8 * 1) = d := by
  decide

theorem first_slot : ∀ d : Nat, d < 64 →
    let rec' := wordsIn (bytesOf [0x3000, 2 ^ 32 + 1, 0, 0, 0, 0, d, 0])
    ((List.range 8).filter fun i => nbit (rec'.getD 1 0) i && !nbit (rec'.getD 1 0) (8 + i)) = [0] ∧ bits (rec'.getD 6 0) (8 * 0 + 5) (8 * 0) = d ∧
      bits (rec'.getD 1 0) 47 32 = 1 ∧ bits (rec'.getD 0 0) 55 0 = 0x3000 := by
  decide

/-- A combine of the record at 0x1000, with rows by slot, partial rows by domain, and job 6. -/
def combining (rows : Tab Nat) (parts : Tab (List Nat)) : Combine :=
  { gateway := 0, record := 0x1000, lkey := 0, rows := rows, msgs := [4], parts := parts, job := 6 }

/-- The first contribution to a record, and one more while another slot of the own domain has none; a combine that reads its record,
reads the row of its live slot, has read it, has the rows of every domain, and has written the row. -/
theorem witness_gatewaysCombine :
    let s (js : Tab (List Byte)) (cs : List Combine) := gateway 24 1 [0x1000, 0x2000, 0] [(6, js)] { combines := cs }
    let own := Config.ownDomain % 64
    let record := (0, bytesOf [0x3000, 2 ^ 32 + 1, 0, 0, 0, 0, own, 0])
    let row := List.replicate 4 (0 : Byte)
    let x := gatewayCtx 0 0 0 6
    ((∀ m ∈ (s [] []).msgs, m.chan ≠ 64 ∧ m.len = 24 ∧ m.dst = none) ∧ pkgOfAddr 0x1000 = 0 ∧ (s [] []).foreign = [] ∧
      (s [] []).placed (gatewayCtx 0 0 0 4) .engineRead 0x1000 64 0x1000 ∧ ((s [] []).pkg 0).combines = [] ∧
      (s [] []).placed (gatewayCtx 0 0 0 (s [] []).nextId) .engineRead 0x1000 32 0x1000 ∧ (s [] []).jobBytes (s [] []).nextId 0 = []) ∧
    (let c := combining [] []
     let m := s [(0, bytesOf [0, 3, 0, 0, 0, 0, own * 2 ^ 8, 0])] [c]
     let rec' := wordsIn (m.jobBytes 6 0)
     (m.pkg 0).combines.find? (fun y => y.same { gateway := 0, record := 0x1000, lkey := 0 }) = some c ∧ 64 ≤ (m.jobBytes 6 0).length ∧
       1 ∈ (List.range 8).filter (fun i => nbit (rec'.getD 1 0) i && !nbit (rec'.getD 1 0) (8 + i)) ∧ bits (rec'.getD 6 0) (8 * 1 + 5) (8 * 1) = own ∧
       tget? c.rows 1 = none) ∧
    (((s [] [combining [] []]).pkg 0).combines.filter (fun c => c.gateway == 0) = [combining [] []] ∧
      canRead (s [] [combining [] []]) x 0 0x1000 64) ∧
    (let c := combining [(0, 0x2000)] []
     let rec' := wordsIn ((s [record] [c]).jobBytes 6 0)
     64 ≤ ((s [record] [c]).jobBytes 6 0).length ∧ (List.range 8).filter (fun i => nbit (rec'.getD 1 0) i && !nbit (rec'.getD 1 0) (8 + i)) = [0] ∧
       bits (rec'.getD 6 0) (8 * 0 + 5) (8 * 0) = own ∧ bits (rec'.getD 1 0) 47 32 = 1 ∧ bits (rec'.getD 0 0) 55 0 = 0x3000 ∧
       canRead (s [record] [c]) x 1 0x2000 4 ∧ 4 ≤ ((s [record, (1, row)] [c]).jobBytes 6 1).length) ∧
    (let c := combining [(0, 0x2000)] [(own, [0])]
     tget? c.parts own = some [0] ∧ canWrite (s [record, (1, row)] [c]) x 9 0x3000 4 ∧
       (s [record, (1, row), (9, row)] [c]).jobBytes 6 9 = row ∧ (s [record, (1, row), (9, row)] [c]).jobBytes 6 10 = [] ∧
       (s [record, (1, row), (9, row)] [c]).piecesLeft 6 = false ∧
       (s [record, (1, row), (9, row)] [c]).placed x .engineWrite 0x1008 8 0x1008) :=
  ⟨⟨by decide, by decide, by decide, placed_of (page (sourceIo 0 0x10) 0 0) (by decide) ⟨rfl, rfl⟩ (by decide) (by decide), by decide,
      placed_of (page (sourceIo 0 0x10) 0 0) (by decide) ⟨rfl, rfl⟩ (by decide) (by decide), by decide⟩,
    ⟨rfl, by decide, (congrArg (fun l => 1 ∈ l) (second_slot (Config.ownDomain % 64) (Nat.mod_lt _ (by decide))).1).mpr (by decide), (second_slot _ (Nat.mod_lt _ (by decide))).2, rfl⟩,
    ⟨rfl, ⟨by decide, by decide, placed_of (page (sourceIo 0 0x10) 0 0) (by decide) ⟨rfl, rfl⟩ (by decide) (by decide)⟩⟩,
    ⟨by decide, (first_slot _ (Nat.mod_lt _ (by decide))).1, (first_slot _ (Nat.mod_lt _ (by decide))).2.1, (first_slot _ (Nat.mod_lt _ (by decide))).2.2.1,
      (first_slot _ (Nat.mod_lt _ (by decide))).2.2.2,
      ⟨by decide, by decide, placed_of (page (sourceIo 0 0x10) 0 0) (by decide) ⟨rfl, rfl⟩ (by decide) (by decide)⟩, by decide⟩,
    by simp [combining, tget?], ⟨by decide, by decide, placed_of (page (sourceIo 0 0x10) 0 0) (by decide) ⟨rfl, rfl⟩ (by decide) (by decide)⟩, rfl, rfl,
    by decide, placed_of (page (sourceIo 0 0x10) 0 0) (by decide) ⟨rfl, rfl⟩ (by decide) (by decide)⟩

/-- The words of a merge record with D = 1, its rows at 0x3000, EXP and ARR. -/
def mergeBytes (exp' : Nat) : List Byte := bytesOf [0x3000, 2 ^ 32, exp', 0, 0, 0, 0, 0]

/-- A merge contribution whose record is to be read; one that does not complete its set, with no set open and with 64, and with its
record on a page of class RO; one that has, with a row to read, OUT to
write, ARR to write, and FIN. -/
theorem witness_gatewaysMerge :
    let s (js : Tab (List Byte)) (ms : List Merge) := gateway 24 2 [0x1000, 0x2000, 0] [(4, js)] { merges := ms }
    let x := gatewayCtx 0 0 0 4
    let whole : Merge := { gateway := 0, record := 0x1000, lkey := 0, rows := [(0, 0x2000)], msgs := [4], last := some 4 }
    let row := List.replicate 68 (0 : Byte)
    ((∀ m ∈ (s [] []).msgs, m.chan = 2 ∧ m.len = 24 ∧ (s [] []).heldBack m = false) ∧ canRead (s [] []) x 0 0x1000 64) ∧
    ((let rec' := wordsIn (mergeBytes 3)
      recordSound rec' = true ∧ nbit (rec'.getD 1 0) 25 = false ∧ nbit (rec'.getD 2 0) 0 = true ∧ bits (rec'.getD 1 0) 47 32 = 1 ∧
        (List.range 64).filter (nbit (rec'.getD 2 0)) = [0, 1]) ∧
      (s [(0, mergeBytes 3)] []).jobBytes 4 0 = mergeBytes 3 ∧ (s [(0, mergeBytes 3)] []).placed x .engineRead 0x1000 64 0x1000 ∧
      (s [(0, mergeBytes 3)] []).placed x .engineRead 0x2000 68 0x2000 ∧
      (s [(0, mergeBytes 3)] []).agentMay x .engineRead 0x1000 64 0x1000 (page (sourceIo 0 0x10) 0 0) ∧
      ({ s [(0, mergeBytes 3)] [] with tlb := [page (sourceIo 0 0x10) 0 1] } : State).agentMay x .engineRead 0x1000 64 0x1000 (page (sourceIo 0 0x10) 0 1) ∧
      ∀ n ∈ [63, 64], (((s [] ((List.range n).map fun i => { gateway := 0, record := 0x4000 + 64 * i, lkey := 0, rows := [], msgs := [] })).pkg 0).merges.filter
        fun y => y.gateway == 0).length = n) ∧
    ((let rec' := wordsIn (mergeBytes 1)
      (List.range 64).filter (nbit (rec'.getD 2 0)) = [0] ∧ nbit (rec'.getD 4 0) 40 = false ∧ bits (rec'.getD 0 0) 55 0 = 0x3000) ∧
      ((s [] [whole]).pkg 0).merges.find? (fun y => y.msgs.contains 4) = some whole ∧ whole.record % 8 = 0 ∧
      canRead (s [(0, mergeBytes 1)] [whole]) x 1 0x2000 68 ∧ canWrite (s [(0, mergeBytes 1), (1, row)] [whole]) x 65 0x3000 68 ∧
      canWrite (s [(0, mergeBytes 1), (1, row), (65, row)] [whole]) x 66 (0x1000 + 24) 8 ∧
      (s [(0, mergeBytes 1), (1, row), (65, row), (66, row)] [whole]).placed x .engineWrite (0x1000 + 8) 8 (0x1000 + 8) ∧
      (s [(0, mergeBytes 1), (1, row), (65, row), (66, row)] [whole]).jobBytes 4 67 = []) :=
  ⟨⟨by decide, by decide, by decide, placed_of (page (sourceIo 0 0x10) 0 0) (by decide) ⟨rfl, rfl⟩ (by decide) (by decide)⟩,
    ⟨by decide, rfl, placed_of (page (sourceIo 0 0x10) 0 0) (by decide) ⟨rfl, rfl⟩ (by decide) (by decide),
      placed_of (page (sourceIo 0 0x10) 0 0) (by decide) ⟨rfl, rfl⟩ (by decide) (by decide),
      agentMay_of (by decide) ⟨rfl, rfl⟩ (by decide) (by decide) (by decide) (by decide) (by decide) (by decide) (by decide),
      agentMay_of (by decide) ⟨rfl, rfl⟩ (by decide) (by decide) (by decide) (by decide) (by decide) (by decide) (by decide), by decide⟩,
    by decide, rfl, rfl, ⟨by decide, by decide, placed_of (page (sourceIo 0 0x10) 0 0) (by decide) ⟨rfl, rfl⟩ (by decide) (by decide)⟩,
    ⟨by decide, by decide, placed_of (page (sourceIo 0 0x10) 0 0) (by decide) ⟨rfl, rfl⟩ (by decide) (by decide)⟩,
    ⟨by decide, by decide, placed_of (page (sourceIo 0 0x10) 0 0) (by decide) ⟨rfl, rfl⟩ (by decide) (by decide)⟩,
    placed_of (page (sourceIo 0 0x10) 0 0) (by decide) ⟨rfl, rfl⟩ (by decide) (by decide), rfl⟩
/-! ### Witnesses: translation units, queues and the package -/

/-- Tables at 0 and 0x2000, and at 0x4000 an entry. -/
def tables (leaf : Nat) (g : Pkg) : State :=
  { State.reset with
    launches := [(0, team)], pkgs := [(0, g)],
    mem := (Memory.writeBytes (Memory.writeBytes [] 0 (toBytes 8 0x20003)) 0x2000 (toBytes 8 0x40003)).writeBytes 0x4000 (toBytes 8 leaf) }

/-- A walk that reaches a leaf of 1 GiB, one that stops at an entry with V = 0, and a page that the source holds. -/
theorem witness_translationMisses :
    (sourcePkg (sourceCore 0) < packageLimit ∧ (tables 0x705 {}).launch 0 = some team ∧ (tables 0x705 {}).tlb = [] ∧
      (tables 0x705 {}).parkOf (sourceCore 0) 0 64 = none ∧ (tables 0x705 {}).refused = [] ∧ (tables 0x705 {}).dir = []) ∧
    (tables 0x705 {}).walk ((tables 0x705 {}).rootOf 0) 64 = .leaf 0x4000 0x705 0 2 ∧ 0x4000 < 2 ^ 39 ∧
    (tables 0 {}).walk ((tables 0 {}).rootOf 0) 64 = .miss ⟨1, 2, 0x4000⟩ ∧ (tables 0 {}).parkedAt 0 (unitOf (sourceCore 0) 64) = 0 ∧
      (tables 0 {}).parks = [] := by decide

/-- A parked page, a launch, counters and a dump; a page of 4 KiB that is to move, that moves, in each phase, with lines left to copy and
with none, and with a line read in part and in full; rings with no record held, and with one, full and with room. -/
theorem witness_translationUnitsWork :
    (let k : Park := ⟨0, 1, 4, 0, 0, 1, 0x4000, [(sourceCore 0, 0)]⟩
     let s : State := { tables 0 {} with parks := [k] }
     s.parks = [k] ∧ k.id < 2 ^ 32 ∧ s.strands = [] ∧ s.launch 0 = some team ∧ 0 < 2 ^ 16 ∧ ∀ j, (s.strand j).chunks = []) ∧
    (let s := tables 0 { counters := [(5, 9)], regs := [(0x80088, 1)] }
     tcanon 0 (s.pkg 0).counters = true ∧ s.candidateKind 0 0 0 = none ∧ (∀ v, v < 10 → s.candidateKind 0 0 v = none) ∧
       (s.reg 0 0x80088).toNat % 2 = 1 ∧ (s.reg 0 0x80080).toNat = 0 ∧ s.plainRange [] 0 (2 ^ 21) ∧
       ((tables 0 {}).reg 0 0x80088).toNat % 2 = 0) ∧
    (let s := tables 0x10405 {}
     let w := s.mem.readNat 0x4000 8
     pfnAddr w = 0x1000 ∧ nbit w 0 = true ∧ nbit w 1 = false ∧ bits w 9 8 = 0 ∧ nbit w 14 = false ∧
       (counterOf (localOf 0x1000)).map (fun c => c.1) = some 0 ∧ (s.pkg 0).moves = [] ∧ s.regionAt 0x20000 = .hbm ∧
       ∀ l, 0x20000 / 64 ≤ l → l * 64 < 0x20000 + 0x1000 → s.idleLine l ∧ s.plainHome (l * 64)) ∧
    (∀ phase ∈ [1, 2, 3, 4],
      let m : Move := { unit := 0, leaf := 0x4000, old := 0x1000, new := 0x20000, size := 0x1000, phase := phase }
      let s := tables 0x14405 { moves := [m], regs := [(0x800F0, 0x100000)] }
      (s.pkg 0).moves = [m] ∧ m.phase ≠ 0 ∧ m.todo = [] ∧ s.piecesLeft (moveJob 0 0) = false ∧ m.await = [] ∧ m.kind = 0 ∧ m.bias = false ∧ m.marked = [] ∧ m.leaf % 16 = 0 ∧ s.net = [] ∧ s.banks = [] ∧ s.dir = [] ∧ (s.pkg 0).hostCopies = [] ∧ s.parks = [] ∧ s.reverseOf 0 (localOf 0x1000 / 2 ^ 16) = none ∧
        s.plainHome (0x4000 / 64 * 64)) ∧
    (let m : Move := { unit := 0, leaf := 0x4000, old := 0x1000, new := 0x20000, size := 0x1000, phase := 4, todo := [64], marked := [65] }
     let s (n : Nat) := { tables 0x14405 { moves := [m] } with jobs := [(moveJob 0 0, [(0, List.replicate n 0)])] }
     (((s 32).pkg 0).moves = [m] ∧ ((s 32).jobBytes (moveJob 0 0) 0).length = 32 ∧ ((s 64).jobBytes (moveJob 0 0) 0).length = 64 ∧ m.marked ≠ []) ∧
       (s 32).plainRange [moveJob 0 0] (64 * 64 + 32) 32 ∧ (s 64).plainRange [moveJob 0 0] (64 * 64 - 0x1000 + 0x20000) 64) ∧
    (∀ n ∈ [16, 5],
      let h : RingRecord := { unit := 0, words := [1, 2, 3, 4] }
      let s := tables 0 { faultHeld := [h], regs := [(0x80000, 0x10000), (0x80008, 0x80000004), (0x80010, BitVec.ofNat 64 n)] }
      ((s.pkg 0).faultHeld = [h] ∧ s.ringPresent 0 0x10000 4 32 = true ∧
        (s.reg 0 0x80010).toNat = n ∧ (s.reg 0 0x80018).toNat = 0 ∧ (((n + 2 ^ 32 - 0) % 2 ^ 32 = 2 ^ 4) = (n = 16))) ∧
        s.plainRange [2, 0, 0, 0] (0x10000 + 32 * (n % 2 ^ 4)) 32) ∧
    (State.reset.pkg 0).faultHeld = [] ∧ (State.reset.pkg 0).candHeld = [] :=
  ⟨⟨by decide, by decide, rfl, by decide, by decide, fun _ => rfl⟩,
    ⟨by decide, by decide, by decide, by decide, by decide, plainRange_of ⟨rfl, rfl⟩ (by decide) (by decide) (by decide), by decide⟩,
    ⟨by decide, by decide, by decide, by decide, by decide, by decide, by decide, by decide, fun l _ _ =>
      ⟨idleLine_of rfl l, plainHome_at (by unfold localOf; omega) fun u h => by
        rw [show pkgOfAddr (l * 64) = 0 by unfold pkgOfAddr; omega]; revert u; decide⟩⟩,
    fun phase h => by
      simp only [List.mem_cons, List.not_mem_nil, or_false] at h
      rcases h with rfl | rfl | rfl | rfl <;> exact ⟨by decide, by decide, rfl, rfl, rfl, rfl, rfl, rfl, rfl, by decide, by decide, by decide, by decide, by decide, by decide,
        plainHome_at (by decide) (by decide)⟩,
    ⟨by decide, plainRange_of ⟨rfl, rfl⟩ (by decide) (by decide) (by decide), plainRange_of ⟨rfl, rfl⟩ (by decide) (by decide) (by decide)⟩,
    fun n h => by
      simp only [List.mem_cons, List.not_mem_nil, or_false] at h
      rcases h with rfl | rfl <;> exact ⟨by decide, plainRange_of ⟨rfl, rfl⟩ (by decide) (by decide) (by decide)⟩,
    by decide⟩


/-- A packet that names one cluster of one die and every core of it, as words. -/
def packetWords (lkey : Nat) : List Nat :=
  [7 * 2 ^ 50 + 32 * 2 ^ 42 + 8 * 2 ^ 28 + 16 * 2 ^ 20, 0, 2 ^ 46 + 2 ^ 38 + 0xFFFF * 2 ^ 22, 0, 0, 0, 0x30000, lkey]

/-- Package 0 with queue 0 mapped, of whose entry and nodes some bytes are read, and other state of the package. -/
def queued (jobs : Tab (List Byte)) (g : Pkg) : State :=
  { State.reset with nextId := 9, pkgs := [(0, { g with tails := [(0, 1)], mapped := [0] })], jobs := [(hquJob 0 0, jobs)] }

/-- A head entry that is not yet read; a launch that is malformed, one that is refused and one that is admitted. -/
theorem witness_launchQueue :
    (∀ js ∈ [([] : Tab (List Byte)), [(0, List.replicate 96 0)]], let s := queued js { regs := queues }
     (s.hasWork 0 0 = true ∧ s.queueGraphs 0 0 = false ∧ s.queueHead 0 0 = 0 ∧ s.queueSize 0 0 = 16 ∧ s.queueBase 0 0 = 0x10000 ∧
       (s.pkg 0).lastEntry = [] ∧ s.launches = [] ∧ s.nodesToAdmit 0 0 = [] ∧ (s.pkg 0).mapped = [0] ∧ (s.jobBytes (hquJob 0 0) 0).length < 128 ∧
       (s.pkg 0).snoops = [] ∧ s.net = [] ∧ 0x30000 % 8 = 0 ∧ regionOf (s.pkg 0) 0x30000 ≠ .reserved) ∧
       s.plainRange [hquJob 0 0] (0x10000 + (s.jobBytes (hquJob 0 0) 0).length) 32 ∧ s.plainRange [1, 0, 0x30000] 0x30000 8) ∧
    (let s := queued [(0, bytesOf (packetWords 5 ++ List.replicate 8 0))] { regs := queues }
     let ws := wordsOfBytes (s.jobBytes (hquJob 0 0) 0)
     let l0 : Launch := { lkey := 5, ptroot := ws.getD 1 0, packet := ws, pkg := 0, queue := 0, context := 0 }
     let l : Launch := { l0 with remap := l0.place }
     128 ≤ (s.jobBytes (hquJob 0 0) 0).length ∧ bits (ws.getD 7 0).toNat 15 0 = 5 ∧
       l.malformed = false ∧ s.refuses l = false ∧ l.compl = 0x30000 ∧ s.freeContext = some 0 ∧ l.plen = 0 ∧ l.remap = [(0, 0)] ∧ s.clusterFree l 0 = true) ∧
    (let s := queued [(0, bytesOf (packetWords 0 ++ List.replicate 8 0))] { regs := queues }
     let ws := wordsOfBytes (s.jobBytes (hquJob 0 0) 0)
     let l0 : Launch := { lkey := 0, ptroot := ws.getD 1 0, packet := ws, pkg := 0, queue := 0, context := 0 }
     let l : Launch := { l0 with remap := l0.place }
     l.malformed = false ∧ s.refuses l = true ∧ l.compl = 0x30000) ∧
    let l : Launch := { lkey := 0, ptroot := 0, packet := [1], pkg := 0, queue := 0, context := 0 }
    l.malformed = true :=
  ⟨fun js h => by
      simp only [List.mem_cons, List.not_mem_nil, or_false] at h
      rcases h with rfl | rfl <;>
        exact ⟨by decide, plainRange_of ⟨rfl, rfl⟩ (by decide) (by decide) (by decide), plainRange_of ⟨rfl, rfl⟩ (by decide) (by decide) (by decide)⟩,
    by decide, by decide, by decide⟩

/-- A record of a graph of one launch node, whose node is to be read and has been read, and one that is malformed; the node running,
before it has finished and after; a pending interrupt; a watch entry whose condition holds and one whose does not; and registers. -/
theorem witness_graphQueue :
    let node : List Nat := [2 ^ 60, 0, 0, 0, 2 ^ 64 - 1, 2 ^ 64 - 1, 0, 0]
    let record := (0, bytesOf ([0x20000, 1, 0x30000] ++ List.replicate 13 0))
    let g (done : List Nat) : Graph :=
      { id := 3, queue := 0, compl := 0x30000, nodes := [node.map (BitVec.ofNat 64)], counts := [], live := [], running := [0], finished := done }
    let graphs : Pkg := { regs := [(0, 0x10000), (8, 0xC4000000)] }
    ((∀ js ∈ [[record], [record, (1, bytesOf node)]], let s := queued js graphs
      s.hasWork 0 0 = true ∧ s.queueGraphs 0 0 = true ∧ (s.pkg 0).lastEntry = [] ∧ (s.pkg 0).graphs = [] ∧
        (wordsOfBytes (s.jobBytes (hquJob 0 0) 0)).take 4 = [0x20000, 1, 0x30000, 0] ∧ 128 ≤ (s.jobBytes (hquJob 0 0) 0).length ∧
        regionOf (s.pkg 0) 0x20000 ≠ .reserved) ∧
      (queued [record, (1, bytesOf node)] graphs).jobBytes (hquJob 0 0) 1 = bytesOf node ∧
      (g []).nodes = [wordsOfBytes (bytesOf node)] ∧
      (wordsOfBytes ((queued [(0, List.replicate 128 0)] graphs).jobBytes (hquJob 0 0) 0)).take 2 = [0, 0]) ∧
    ((queued [record] graphs).plainRange [hquJob 0 0] 0x20000 32 ∧ (queued [record] graphs).plainRange [1, 0, 0x30000] 0x30000 8) ∧
    ((g []).sound = true ∧ (List.range 1).filter (fun i => bits ((g []).word i 0) 59 48 == 0) = [0] ∧ (g []).kind 0 = 1) ∧
    (∀ done ∈ [[], [0]], let s := queued [] { graphs := [g done] }
     s.graph 0 3 = some (g done) ∧ 0 ∈ (g done).running ∧ (g done).kind 0 = 1 ∧ (g done).finished = done ∧ (g done).failed = none ∧
       (g done).done.length + 1 = (g done).nodes.length ∧ successors ((g done).word 0 4) = [] ∧ successors ((g done).word 0 5) = []) ∧
    (∀ d ∈ [0, 5], ∀ net ∈ [([] : List Packet), [{ packet .posted (.core 0) with home := 1 }]],
      let s := { queued [] { msixPend := [(0, d)], lastEntry := [(0, graphEntry 3)] } with net := net }
      tget? (s.pkg 0).msixPend 0 = some d ∧ tget? (s.pkg 0).lastEntry 0 = some (graphEntry 3) ∧
        ((∃ x ∈ s.net, x.kind = .posted ∧ x.home / 8 = 0) = (net ≠ []))) ∧
    (∀ w ∈ [2 ^ 63 + 0x10000, 2 ^ 63 + 2 ^ 62 + 0x10000], let s : State := { queued [] {} with mem := [(0x10000, 5)] }
     s.regionAt 0x10000 = .hbm ∧ s.currentNat 0x10000 8 = 5 ∧ (s.reg 0 (0x60000 + 16 * 3 + 8)).toNat = 0 ∧
       w % 2 ^ 64 / 8 * 8 = w ∧ 0 * 2 ^ 50 + w / 8 % 2 ^ 47 * 8 = 0x10000 ∧ (w / 2 ^ 61 % 4 = 0) = (w = 2 ^ 63 + 0x10000)) ∧
    rwMask (0x80040 / 8 * 8) ≠ 0 ∧ rwMask (12 / 8 * 8) ≠ 0 :=
  ⟨⟨by decide, by decide, by decide, by decide⟩,
    ⟨plainRange_of ⟨rfl, rfl⟩ (by decide) (by decide) (by decide), plainRange_of ⟨rfl, rfl⟩ (by decide) (by decide) (by decide)⟩,
    by decide, by decide, by decide, by decide, by decide, by decide⟩

/-- A launch whose entry can be fetched, before it starts. -/
theorem witness_launchStarts :
    let l : Launch := { small with packet := [BitVec.ofNat 64 (8 * 2 ^ 28 + 16 * 2 ^ 20), 0, BitVec.ofNat 64 (2 ^ 22)], loading := false }
    let s : State := { hop [] with launches := [(0, l)] }
    s.launch l.lkey = some l ∧ l.started = false ∧ l.killed = false ∧ l.bank = 0 ∧ s.net = [] ∧ bits l.entry 5 3 = 0 ∧ l.entry % 8 < 5 ∧
      l.loading = false ∧ l.members = [0] ∧ (s.strand 0).lkey = l.lkey ∧ Enters { s with cur := 8 * 0 } false l.entry true (page 0 0 1) :=
  ⟨by decide, by decide, by decide, by decide, by decide, by decide, by decide, by decide, by decide, by decide,
    ⟨by decide, by decide, by decide, by decide, by decide, fun _ => by decide⟩⟩

/-- A cluster whose only holder may be pre-empted, before and after; the image not finished and finished. -/
theorem witness_preemption :
    let l : Launch := { small with lkey := 5, packet := [BitVec.ofNat 64 (2 ^ 55 + 8 * 2 ^ 28), 0, BitVec.ofNat 64 (2 ^ 22)], started := true }
    let s (fs : List Frozen) : State :=
      { State.reset with launches := [(5, l)], banks := [(0, { lkey := 5, frozen := !fs.isEmpty })], clusters := [(0, { frozen := fs })] }
    (s []).preempts 0 0 = true ∧ (s [⟨5, [], [], false⟩]).preempts 0 0 = false ∧ (s []).displacedBanks 0 = [0] ∧ (s []).holdersOfCluster 0 = [5] ∧
      (s [⟨5, [], [], false⟩]).shadowFree 0 = true ∧ ((s [⟨5, [], [], true⟩]).cluster 0).active = none ∧
      (s [⟨5, [], [], true⟩]).clusterFree l 1 = true ∧ (s [⟨5, [], [], true⟩]).answers (pkgOfDie (dieOfCluster 1)) = true ∧
      (s [⟨5, [], [], true⟩]).unsettled ⟨0, 1⟩ [5] = false ∧ (s [⟨5, [], [], true⟩]).launch 5 ≠ none := by decide

theorem bytes_of_word : ∀ (n x : Nat), x < 2 ^ (8 * n) → fromBytes (toBytes n x) = x := by
  intro n
  induction n with
  | zero => intro x h; simp at h; subst h; rfl
  | succ n ih =>
    intro x h
    have p : (2 : Nat) ^ (8 * (n + 1)) = 256 * 2 ^ (8 * n) := by rw [show 8 * (n + 1) = 8 + 8 * n by omega, Nat.pow_add]
    rw [p] at h
    have d : x / 256 < 2 ^ (8 * n) := by omega
    have e : toBytes (n + 1) x = BitVec.ofNat 8 x :: toBytes n (x / 256) := rfl
    rw [e]
    show (BitVec.ofNat 8 x).toNat + 256 * fromBytes (toBytes n (x / 256)) = x
    rw [ih _ d, BitVec.toNat_ofNat]
    omega

/-- A flit for package 1 from package 0 with its numbers 0 and its CRC. -/
def flit (dst : Nat) : List Byte := relinked (toBytes 2 dst ++ toBytes 242 0) 0 0

theorem flit_sound (dst : Nat) (h : dst < 4) : flitSound (flit dst) = true := by
  have l : (flit dst).length = 256 := by
    rcases (show dst = 0 ∨ dst = 1 ∨ dst = 2 ∨ dst = 3 by omega) with rfl | rfl | rfl | rfl <;> rfl
  have b : (flit dst).drop 248 = toBytes 8 (Config.crc64 ((flit dst).take 248)).toNat := by
    rcases (show dst = 0 ∨ dst = 1 ∨ dst = 2 ∨ dst = 3 by omega) with rfl | rfl | rfl | rfl <;> rfl
  unfold flitSound
  rw [b, bytes_of_word 8 _ (Config.crc64 _).isLt, l]
  simp

/-- A flit that is not sound, one for the package and one for another; a package whose ports are trained, with flits of one
virtual channel to acknowledge, and one whose ports are not; a link that trains, and one that is down. -/
theorem witness_linksAndEnds :
    (flitSound [] = false ∧ flitSound (flit 0) = true ∧ flitSound (flit 1) = true ∧ flitSeq (flit 0) = ((State.reset.pkg 0).link 0).expect ∧
      flitDst (flit 0) = 0 ∧ flitDst (flit 1) ≠ 0 ∧ flitNumber (flit 0) = ((State.reset.pkg 0).peer 0 0).expect) ∧
    (0 < packageLimit ∧ 0 < gixisPorts ∧ ((State.reset.pkg 0).link 0).up = true ∧ ((State.reset.pkg 0).link 0).replay.length < 4096 ∧
      (State.reset.pkg 0).trained = true ∧ (State.reset.pkg 0).unsent = [] ∧ ({ level := 2 } : Pkg).trained = false) ∧
    (∀ n ∈ [1, 255], let s : State := { State.reset with pkgs := [(0, { e2e := [(16, { expect := 9, unacked := n })] })] }
      ((s.pkg 0).peer 1 0).unacked = n ∧ (s.pkg 0).trained = true ∧ (s.pkg 0).unsent = [] ∧ (s.pkg 0).e2e.length = 1 ∧
        ∀ x ∈ (s.pkg 0).e2e, x.2.unacked ≠ 0 → x.1 = 1 * 16 + 0) ∧
    (∀ x ∈ [({ training := true } : Link), { training := true, retrains := 2 }, { up := false }],
      (({ State.reset with pkgs := [(0, { links := [(0, x)] })] } : State).pkg 0).link 0 = x) ∧
    (let e : E2e := { store := [(0, flit 1)] }
     (({ State.reset with pkgs := [(0, { e2e := [(16, e)] })] } : State).pkg 0).peer 1 0 = e ∧
       e.store.filter (fun x => !serialBefore (2 ^ 32) x.1 0) = [(0, flit 1)] ∧ (flit 1).length = 256) :=
  ⟨⟨by decide, flit_sound 0 (by decide), flit_sound 1 (by decide), rfl, rfl, by decide, rfl⟩, by decide, by decide, by decide, rfl, rfl, rfl⟩

/-- A tunnel with a datagram that waits for its acknowledgement, and one that holds a flit for want of a route; a package at level 0
and at level 2, alone and beside one at level 3. Whether a datagram is the package's own, what it carries, and whether an image's
signature is valid are free values of Config, either way (log 9). -/
theorem witness_packageServices :
    (let x : Datagram := { seq := 7, bytes := [1], port := 0, dest := [], hop := 0, source := [], sport := 0 }
     let s : State := { State.reset with pkgs := [(0, { tunnels := [(3, { store := [x], held := [{ bytes := flit 1, flit := true }] })] })] }
     (s.tunnel 0 3).store.find? (fun x => x.seq == 7) = some x ∧ (s.tunnel 0 3).store.find? (fun x => x.seq == 8) = none ∧
       (s.tunnel 0 3).parts = [] ∧ (s.pkg 0).storeRoom 8 = true ∧ s.routeOf 0 3 = none) ∧
    (let s : State := { State.reset with pkgs := [(0, { regs := [(0x1200C0, BitVec.ofNat 64 (2 ^ 63))], tunnels := [(3, { held := [{ bytes := flit 1, flit := true }] })] })] }
     s.routeOf 0 3 = some 0 ∧ (s.tunnel 0 3).held.length = 1) ∧
    (∀ n ∈ [0, 2, 3], ∀ m ∈ [1, 3], let s : State := { State.reset with pkgs := [(0, { level := n }), (1, { level := m })] }
      (s.pkg 0).level = n ∧ ((∀ x ∈ s.pkgs, x.1 ≠ 0 → x.2.level ≠ 3) ↔ m = 1) ∧ ((∃ x ∈ s.pkgs, x.1 ≠ 0 ∧ x.2.level = 3) ↔ m = 3)) ∧
    (∀ b ∈ [false, true], (({ State.reset with pkgs := [(0, { down := b })] } : State).pkg 0).down = b) ∧
    (let q : Packet := { id := 9, kind := .read, home := 0, holder := .core 0, line := 0x1000000000000 / 64, words := [0x1000000000000 / 8] }
     let s : State := { State.reset with launches := [(0, team)], net := [q] }
     s.net.filter (fun x => inTier 0 0 x.line && (x.kind == .read || x.kind == .own) && x.strand < strandLimit) = [q] ∧ s.launch (s.strand 0).lkey = some team) ∧
    (List.replicate 32 (0 : Byte)).length = 32 := by decide

/-- The known answer of SHAKE256 for no bytes, in its first eight (R381; log 133). -/
theorem test_shake256 : (shake256 []).take 8 = [0x46, 0xB9, 0xDD, 0x2B, 0x0B, 0xA8, 0x8D, 0x13] := by decide +kernel

end Sys2Proof.Tests
end

/-! # Every step keeps the memories canonical

The canonical form (`State.sound`) speaks of `mem` only, and what changes `mem` is a short list: `write`, `writeBytes`,
`writeCells`, `filter` and folds of them, each of which keeps it (`Laws/Memory`). The rest is carried along the calls of the
model: a function that leaves the memory alone has a lemma `f_mem`, one that writes it has `f_sound` (or `f_keeps`, where it
answers an outcome), and a caller's proof follows its own branches and cites those of the functions it calls. -/

namespace Sys2Proof.Machine

/-! ## Soundness of the memories, piece by piece -/

/-- A state with the memory of a sound one is sound. -/
theorem State.sound.of {s t : State} (h : s.sound) (e : t.mem = s.mem) : t.sound := by
  unfold State.sound; rw [e]; exact h

theorem State.sound.ite {c : Prop} [Decidable c] {a b : State} (ha : a.sound) (hb : b.sound) :
    (if c then a else b).sound := by
  split
  · exact ha
  · exact hb

theorem State.sound.of_snd {α : Type} {r : α × State} {x : α} {t : State} (h : r.2.sound) (e : r = (x, t)) :
    t.sound := by
  rw [e] at h; exact h

theorem State.sound.of_thd {α β : Type} {r : α × β × State} {x : α} {y : β} {t : State} (h : r.2.2.sound)
    (e : r = (x, y, t)) :
    t.sound := by
  rw [e] at h; exact h

theorem each_sound {α : Type} {f : State → α → State} (hf : ∀ {s x}, s.sound → (f s x).sound) (xs : List α) {s : State}
    (h : s.sound) :
    (s.each xs f).sound := by
  unfold State.each
  induction xs generalizing s with
  | nil => exact h
  | cons x xs ih => exact ih (hf h)

/-- An outcome whose next state, if it has one, is sound. -/
inductive Keeps : Out → Prop where
  | next {t : State} (h : t.sound) : Keeps (.next t)
  | fault {r : Fault} : Keeps (.fault r)
  | refused {r : Refusal} : Keeps (.refused r)

theorem Keeps.ite {c : Prop} [Decidable c] {a b : Out} (ha : Keeps a) (hb : Keeps b) : Keeps (if c then a else b) := by
  split
  · exact ha
  · exact hb

/-- An engine access whose state is sound, whatever it comes to. -/
inductive Eng.Sound {α : Type} : Eng α → Prop where
  | ok {x : α} {t : State} (h : t.sound) : Sound (.ok x t)
  | code {c : Nat} {t : State} (h : t.sound) : Sound (.code c t)
  | wait {l : Bool} {t : State} (h : t.sound) : Sound (.wait l t)

theorem Eng.Sound.ite {α : Type} {c : Prop} [Decidable c] {a b : Eng α} (ha : a.Sound) (hb : b.Sound) :
    (if c then a else b).Sound := by
  split
  · exact ha
  · exact hb

theorem Eng.Sound.of_ok {α : Type} {r : Eng α} {x : α} {t : State} (h : r.Sound) (e : r = .ok x t) : t.sound := by
  rw [e] at h; cases h; assumption

theorem Eng.Sound.of_code {α : Type} {r : Eng α} {c : Nat} {t : State} (h : r.Sound) (e : r = .code c t) : t.sound := by
  rw [e] at h; cases h; assumption

theorem Eng.Sound.of_wait {α : Type} {r : Eng α} {l : Bool} {t : State} (h : r.Sound) (e : r = .wait l t) :
    t.sound := by
  rw [e] at h; cases h; assumption

theorem mem_eq_ite {c : Prop} [Decidable c] {a b : State} {m : Memory} (ha : a.mem = m) (hb : b.mem = m) :
    (if c then a else b).mem = m := by
  split
  · exact ha
  · exact hb

theorem mem_of_snd {α : Type} {r : α × State} {x : α} {t : State} {m : Memory} (h : r.2.mem = m) (e : r = (x, t)) :
    t.mem = m := by
  rw [e] at h; exact h

theorem each_mem_eq {α : Type} {f : State → α → State} {m : Memory} (hf : ∀ {s x}, s.mem = m → (f s x).mem = m)
    (xs : List α) {s : State} (h : s.mem = m) :
    (s.each xs f).mem = m := by
  unfold State.each
  induction xs generalizing s with
  | nil => exact h
  | cons x xs ih => exact ih (hf h)

/-- A state that differs from a sound one in its other fields only. -/
theorem State.sound.update {s : State} (h : s.sound)
    {tick time cur turns due nextId strands banks cores clusters dies pkgs dir net msgs stcs tlb dropped parks refused
    launches experts cmds jobs foreign trapArea trapPc} :
    (State.mk tick time cur turns due nextId s.mem strands banks cores clusters dies pkgs dir net msgs stcs tlb dropped
      parks refused launches experts cmds jobs foreign trapArea trapPc).sound := h

theorem foldl_sound_snd {α β : Type} {f : α × State → β → α × State} (hf : ∀ {r x}, r.2.sound → (f r x).2.sound)
    (xs : List β) {r : α × State} (h : r.2.sound) :
    (xs.foldl f r).2.sound := List.foldlRecOn (motive := fun r => r.2.sound) xs f h fun _ hr _ _ => hf hr

theorem foldl_sound_thd {α β γ : Type} {f : α × β × State → γ → α × β × State}
    (hf : ∀ {r x}, r.2.2.sound → (f r x).2.2.sound) (xs : List γ) {r : α × β × State} (h : r.2.2.sound) :
    (xs.foldl f r).2.2.sound := List.foldlRecOn (motive := fun r => r.2.2.sound) xs f h fun _ hr _ _ => hf hr

theorem foldl_sound_eng {α β : Type} {f : Eng α → β → Eng α} (hf : ∀ {r x}, r.Sound → (f r x).Sound) (xs : List β)
    {r : Eng α} (h : r.Sound) :
    (xs.foldl f r).Sound := List.foldlRecOn (motive := fun r => r.Sound) xs f h fun _ hr _ _ => hf hr

/-! ### Ops: what leaves the memory alone -/

@[simp] theorem each_mem {α : Type} (s : State) (xs : List α) (f : State → α → State) (hf : ∀ s x, (f s x).mem = s.mem)
    :
    (s.each xs f).mem = s.mem := each_mem_eq (fun h => (hf _ _).trans h) xs rfl

@[simp] theorem mem_ite (c : Prop) [Decidable c] (s t : State) :
    (if c then s else t).mem = if c then s.mem else t.mem := apply_ite ..

@[simp] theorem fresh_mem (s : State) : (s.fresh).2.mem = s.mem := rfl

@[simp] theorem dropHolder_mem (st : State) (cluster k : Nat) : (st.dropHolder cluster k).mem = st.mem := by
  simp [State.dropHolder]

@[simp] theorem releaseLease_mem (st : State) (k : Nat) : (st.releaseLease k).mem = st.mem := by
  simp [State.releaseLease]

/-! ### Physical: what leaves the memory alone -/

@[simp] theorem setReg_mem (st : State) (p off : Nat) (x : Word) : (st.setReg p off x).mem = st.mem := rfl

@[simp] theorem sendMsix_mem (st : State) (p vec : Nat) : (st.sendMsix p vec).mem = st.mem := rfl

@[simp] theorem postRecord_mem (st : State) (p unit : Nat) (fault : Bool) (record : List Word) :
    (st.postRecord p unit fault record).mem = st.mem := by
  simp [State.postRecord]

/-! ### Coherence: what leaves the memory alone -/

@[simp] theorem setMesi_mem (st : State) (line : Nat) (x : Mesi) : (st.setMesi line x).mem = st.mem := rfl

@[simp] theorem testWatch_mem (st : State) (p off : Nat) : (st.testWatch p off).mem = st.mem := by
  simp [State.testWatch]

@[simp] theorem markMoves_mem (st : State) (p : Nat) (words : List Nat) : (st.markMoves p words).mem = st.mem := by
  simp [State.markMoves]

@[simp] theorem testWords_mem (st : State) (words : List Nat) : (st.testWords words).mem = st.mem := by
  simp [State.testWords]

@[simp] theorem postCandidate_mem (st : State) (p unit block sz outcome kind value frame : Nat) :
    (st.postCandidate p unit block sz outcome kind value frame).mem = st.mem := by
  simp [State.postCandidate]

@[simp] theorem becomeCandidate_mem (st : State) (p unit index block kind value : Nat) :
    (st.becomeCandidate p unit index block kind value).mem = st.mem := by
  unfold State.becomeCandidate
  extract_lets st1 page1 sz1
  have h1 : st1.mem = st.mem := setPkg_mem ..
  split
  · exact (postCandidate_mem ..).trans h1
  · clear_value page1
    split
    · exact (postCandidate_mem ..).trans h1
    · exact mem_eq_ite ((postCandidate_mem ..).trans h1) ((owe_mem ..).trans ((setPkg_mem ..).trans h1))

@[simp] theorem countAccess_mem (st : State) (a : Nat) : (st.countAccess a).mem = st.mem := by
  unfold State.countAccess
  split
  · exact rfl
  · split
    · exact rfl
    · extract_lets p1 key1 value1 st1
      have h1 : st1.mem = st.mem := setPkg_mem ..
      split
      · exact mem_eq_ite h1 ((becomeCandidate_mem ..).trans h1)
      · exact h1

@[simp] theorem send_mem (st : State) (p : Packet) : (st.send p).mem = st.mem := by
  simp [State.send]

@[simp] theorem dropPacket_mem (st : State) (id : Nat) : (st.dropPacket id).mem = st.mem := rfl

@[simp] theorem takePlace_mem (st : State) (line : Nat) (idx key : List Nat) :
    (st.takePlace line idx key).mem = st.mem := by
  simp [State.takePlace]

@[simp] theorem leavePlaces_mem (st : State) (key : List Nat) : (st.leavePlaces key).mem = st.mem := by
  simp [State.leavePlaces]

@[simp] theorem stampPacket_mem (st : State) (id : Nat) : (st.stampPacket id).mem = st.mem := rfl

@[simp] theorem noteAtomic_mem (st : State) (line : Nat) : (st.noteAtomic line).mem = st.mem := rfl

@[simp] theorem sendInvals_mem (st : State) (home line : Nat) (ws : List Nat) (targets : List Agent) (by_ : Option Nat)
    :
    (st.sendInvals home line ws targets by_).mem = st.mem := by
  simp [State.sendInvals]

@[simp] theorem writeThrough_mem (st : State) (line : Nat) (idx : List Nat) (cls owner : Nat) (keep : Option Agent)
    (by_ : Option Nat) :
    (st.writeThrough line idx cls owner keep by_).mem = st.mem := by
  simp [State.writeThrough]

/-! ### Chunks: what leaves the memory alone -/

@[simp] theorem releaseChunk_mem (st : State) (k id : Nat) : (st.releaseChunk k id).mem = st.mem := rfl

@[simp] theorem unreserve_mem (st : State) (k : Nat) (c : Chunk) : (st.unreserve k c).mem = st.mem := by
  unfold State.unreserve
  extract_lets st1 st2 st3
  have h1 : st1.mem = st.mem := setCluster_mem ..
  have h2 : st2.mem = st.mem := h1
  have h3 : st3.mem = st.mem := by
    unfold st3
    refine each_mem_eq (fun {s x} hs => ?_) _ h2
    split
    · exact (setPkg_mem ..).trans hs
    · exact hs
  exact (setBank_mem ..).trans h3

@[simp] theorem discard_mem (st : State) (k id : Nat) : (st.discard k id).mem = st.mem := by
  unfold State.discard; split <;> simp

@[simp] theorem grantToken_mem (st : State) (d : Nat) : (st.grantToken d).mem = st.mem := by
  unfold State.grantToken
  split
  · exact rfl
  · extract_lets waiting1
    split
    · exact rfl
    · exact (setStrand_mem ..).trans (setDie_mem ..)

@[simp] theorem squash_mem (st : State) (k id : Nat) (exact : Option Nat) : (st.squash k id exact).mem = st.mem := by
  unfold State.squash; split <;> simp

@[simp] theorem squashKeys_mem (st : State) (k : Nat) (keys : List Nat) : (st.squashKeys k keys).mem = st.mem := by
  unfold State.squashKeys; split <;> simp

@[simp] theorem seal_mem (st : State) (k : Nat) : (st.seal k).mem = st.mem := by
  unfold State.seal
  extract_lets t1
  split
  · exact rfl
  · exact mem_eq_ite (setStrand_mem ..) ((owe_mem ..).trans (setStrand_mem ..))

@[simp] theorem endChunk_mem (st : State) : (st.endChunk).mem = st.mem := by
  simp [State.endChunk]

@[simp] theorem askOwn_mem (st : State) (k : Nat) (c : Chunk) (own : List Nat) : (st.askOwn k c own).mem = st.mem := by
  simp [State.askOwn]

@[simp] theorem askRegister_mem (st : State) (k : Nat) (c : Chunk) : (st.askRegister k c).mem = st.mem := by
  simp [State.askRegister]

@[simp] theorem askConfirm_mem (st : State) (k id : Nat) (ws : List Nat) : (st.askConfirm k id ws).mem = st.mem := by
  simp [State.askConfirm]

@[simp] theorem askWatches_mem (st : State) (k id : Nat) (every : Bool) : (st.askWatches k id every).mem = st.mem := by
  simp [State.askWatches]

@[simp] theorem gain_mem (st : State) (k : Nat) (c : Chunk) : (st.gain k c).mem = st.mem := by
  simp [State.gain]

@[simp] theorem lockPool_mem (st : State) (k : Nat) (c : Chunk) : (st.lockPool k c).2.mem = st.mem := by
  unfold State.lockPool
  extract_lets holders1 younger1 st1
  have h1 : st1.mem = st.mem := each_mem_eq (fun h0 => each_mem_eq (fun h1 => (squash_mem ..).trans h1) _ h0) _ rfl
  split
  · exact h1
  · exact each_mem_eq (fun h0 => (setCore_mem ..).trans h0) _ h1

/-! ### Holders: what leaves the memory alone -/

@[simp] theorem strike_mem (st : State) (ks ws : List Nat) : (st.strike ks ws).mem = st.mem := by
  simp [State.strike]

@[simp] theorem squashHit_mem (st : State) (ks ws : List Nat) (except : Option Nat) :
    (st.squashHit ks ws except).mem = st.mem := by
  simp [State.squashHit]

@[simp] theorem dropSpans_mem (st : State) (g : Agent) (ws : List Nat) : (st.dropSpans g ws).mem = st.mem := by
  unfold State.dropSpans; split <;> simp

@[simp] theorem yieldWords_mem (st : State) (g : Agent) (ws : List Nat) (forWrite : Bool) (spare : Option Nat) :
    (st.yieldWords g ws forWrite spare).mem = st.mem := by
  unfold State.yieldWords
  extract_lets st1 banks1 st2
  have h1 : st1.mem = st.mem := rfl
  have h2 : st2.mem = st.mem := each_mem_eq (fun h0 => (setBank_mem ..).trans h0) _ h1
  split
  · exact (setDie_mem ..).trans h2
  · exact h2

@[simp] theorem bringWords_mem (st : State) (line : Nat) (idx : List Nat) (forWrite : Bool) :
    (st.bringWords line idx forWrite).mem = st.mem := by
  unfold State.bringWords
  extract_lets home1 e1 owned1 part1 st1
  have h1 : st1.mem = st.mem := by
    unfold st1
    refine each_mem_eq (fun {s x} hs => ?_) _ rfl
    split
    · exact (setEntry_mem ..).trans hs
    · split
      exact (send_mem ..).trans ((setEntry_mem ..).trans (mem_of_snd ((fresh_mem ..).trans hs) ‹_›))
  refine each_mem_eq (fun h0 => mem_eq_ite ((setEntry_mem ..).trans h0) (each_mem_eq (fun h1 => (send_mem ..).trans
    ((setEntry_mem ..).trans h1)) _ h0)) _ h1

@[simp] theorem askHost_mem (st : State) (line : Nat) (forWrite : Bool) : (st.askHost line forWrite).mem = st.mem := rfl

@[simp] theorem snoopWords_mem (st : State) (line : Nat) (idx : List Nat) (writes pcie : Bool) (key : List Nat) :
    (st.snoopWords line idx writes pcie key).mem = st.mem := by
  simp [State.snoopWords]

@[simp] theorem snoopFor_mem (st : State) (a n : Nat) (writes pcie : Bool) (key : List Nat) :
    (st.snoopFor a n writes pcie key).mem = st.mem := by
  simp [State.snoopFor]

@[simp] theorem snoopCells_mem (st : State) (cells : Tab Byte) (pcie : Bool) (key : List Nat) :
    (st.snoopCells cells pcie key).mem = st.mem := by
  unfold State.snoopCells; split <;> simp

@[simp] theorem postWrite_mem (st : State) (cells : Tab Byte) (k : Option Nat) :
    (st.postWrite cells k).mem = st.mem := by
  unfold State.postWrite; split <;> simp

/-! ### Translate: what leaves the memory alone -/

@[simp] theorem refuse_mem (st : State) (source lkey va tag : Nat) : (st.refuse source lkey va tag).mem = st.mem := by
  simp [State.refuse]

@[simp] theorem taken_mem (st : State) (source tag : Nat) : (st.taken source tag).mem = st.mem := by
  simp [State.taken]

@[simp] theorem park_mem (st : State) (source lkey va : Nat) (acc : Access) (m : Miss) (tag : Nat) :
    (st.park source lkey va acc m tag).mem = st.mem := by
  unfold State.park; split <;> simp

/-! ### Launches: what leaves the memory alone -/

@[simp] theorem countSent_mem (st : State) (core lkey q : Nat) : (st.countSent core lkey q).mem = st.mem := rfl

@[simp] theorem countRecv_mem (st : State) (core lkey q : Nat) : (st.countRecv core lkey q).mem = st.mem := rfl

@[simp] theorem post_mem (st : State) (m : Msg) (t : Target) (at_ : Nat) : (st.post m t at_).mem = st.mem := by
  unfold State.post
  split
  extract_lets m1 st1
  have h1 : st1.mem = st.mem := by
    unfold st1
    split
    · exact (countSent_mem ..).trans (mem_of_snd (fresh_mem ..) ‹_›)
    · exact mem_of_snd (fresh_mem ..) ‹_›
  split
  · exact (owe_mem ..).trans h1
  · split
    · exact (countRecv_mem ..).trans h1
    · exact h1

/-! ### Traps: what leaves the memory alone -/

@[simp] theorem dropParks_mem (st : State) (lkey : Nat) : (st.dropParks lkey).mem = st.mem := rfl

@[simp] theorem discardAll_mem (st : State) (k : Nat) : (st.discardAll k).mem = st.mem := by
  unfold State.discardAll; split <;> simp

@[simp] theorem kill_mem (st : State) (lkey : Nat) : (st.kill lkey).mem = st.mem := by
  simp [State.kill]

@[simp] theorem reportSecurity_mem (st : State) (p : Nat) (r : SecurityReport) : (st.reportSecurity p r).mem = st.mem :=
  rfl

/-! ### Issue: what leaves the memory alone -/

@[simp] theorem finish_mem (st : State) : (st.finish).mem = st.mem := rfl

/-! ### Operands: what leaves the memory alone -/

@[simp] theorem writeElems_mem (st : State) (t : Nat) (r : BitVec 6) (xs : List (Nat × Nat)) :
    (st.writeElems t r xs).mem = st.mem := rfl

/-! ### Control: what leaves the memory alone -/

@[simp] theorem endRun_mem (st : State) : (st.endRun).mem = st.mem :=
  (endChunk_mem ..).trans ((setMe_mem ..).trans ((finish_mem ..).trans (hold_mem ..)))

@[simp] theorem resumeFrom_mem (st : State) (k : Nat) (r : Run) : (st.resumeFrom k r).mem = st.mem := by
  simp [State.resumeFrom]

@[simp] theorem setControl_mem (st : State) (k reg : Nat) (v : Word) : (st.setControl k reg v).mem = st.mem := by
  unfold State.setControl; split <;> simp

/-! ### Access: what leaves the memory alone -/

@[simp] theorem noteUsed_mem (st : State) (k id : Nat) (e : TlbEntry) : (st.noteUsed k id e).mem = st.mem := rfl

@[simp] theorem notePages_mem (st : State) (k id va n : Nat) : (st.notePages k id va n).mem = st.mem := rfl

@[simp] theorem noteReads_mem (st : State) (k id : Nat) (ws : List Nat) : (st.noteReads k id ws).mem = st.mem := rfl

@[simp] theorem askReads_mem (st : State) (k id seq : Nat) (ws : List (Nat × Nat)) (pcie port1 : List Nat) :
    (st.askReads k id seq ws pcie port1).mem = st.mem := by
  simp [State.askReads]

@[simp] theorem askFills_mem (st : State) (k id bank w : Nat) (ws : List Nat) :
    (st.askFills k id bank w ws).mem = st.mem :=
    by
  unfold State.askFills
  split
  · exact rfl
  · exact each_mem_eq (fun h0 => (send_mem ..).trans h0) _ rfl

@[simp] theorem setOp_mem (st : State) (k seq : Nat) (f : OutOp → OutOp) : (st.setOp k seq f).mem = st.mem := rfl

@[simp] theorem ready_mem (st : State) (k seq : Nat) : (st.ready k seq).mem = st.mem := by
  simp [State.ready]

@[simp] theorem useWindow_mem (st : State) (id bank w : Nat) : (st.useWindow id bank w).mem = st.mem := rfl

@[simp] theorem watch_mem (st : State) (k id w first count : Nat) (beside filled : Bool) :
    (st.watch k id w first count beside filled).mem = st.mem := rfl

@[simp] theorem watchWord_mem (st : State) (k id w : Nat) (inWindow : Bool) (src : Source) :
    (st.watchWord k id w inWindow src).mem = st.mem := by
  simp [State.watchWord]

@[simp] theorem refill_mem (st : State) (m : MemOp) (spots : List Spot) : (st.refill m spots).mem = st.mem := by
  unfold State.refill
  split
  · exact rfl
  · refine each_mem_eq (fun {s x} hs => ?_) _ rfl
    split
    · exact hs
    · exact (setBank_mem ..).trans hs

@[simp] theorem gather_mem (st : State) (k id : Nat) (m : MemOp) (seq : Nat) (spots : List Spot) :
    (st.gather k id m seq spots).mem = st.mem := by
  unfold State.gather
  extract_lets st1 all1 earlier1 own1 shown1 st2 asks1 got1 need1 dead1 st3 st4 st5 home1 fills1 st6 st7 wins1 st8 st9
  have h1 : st1.mem = st.mem := refill_mem ..
  have h2 : st2.mem = st.mem := (setOp_mem ..).trans h1
  have h3 : st3.mem = st.mem := by
    unfold st3
    refine each_mem_eq (fun {s x} hs => ?_) _ h2
    split
    · exact (useWindow_mem ..).trans hs
    · exact hs
  have h4 : st4.mem = st.mem := each_mem_eq (fun h0 => mem_eq_ite ((watchWord_mem ..).trans h0) ((noteReads_mem
    ..).trans h0)) _ h3
  have h5 : st5.mem = st.mem := (setOp_mem ..).trans h4
  have h6 : st6.mem = st.mem := (askReads_mem ..).trans h5
  have h7 : st7.mem = st.mem := (setOp_mem ..).trans h6
  have h8 : st8.mem = st.mem := each_mem_eq (fun h0 => (askFills_mem ..).trans h0) _ h7
  have h9 : st9.mem = st.mem := mem_eq_ite ((setChunkOf_mem ..).trans h8) h8
  exact (ready_mem ..).trans h9

@[simp] theorem scatter_mem (st : State) (k id : Nat) (m : MemOp) (spots : List Spot) :
    (st.scatter k id m spots).mem = st.mem := by
  unfold State.scatter
  extract_lets ws1 fills1 words1 keys1 clsTab1 vas1 st1 st2 st3
  have h1 : st1.mem = st.mem := setChunkOf_mem ..
  have h2 : st2.mem = st.mem := each_mem_eq (fun h0 => (useWindow_mem ..).trans h0) _ h1
  have h3 : st3.mem = st.mem := each_mem_eq (fun h0 => (askFills_mem ..).trans h0) _ h2
  split
  · exact (askOwn_mem ..).trans h3
  · exact h3

@[simp] theorem performAt_mem (st : State) (k id : Nat) (m : MemOp) (spots : List Spot) :
    (st.performAt k id m spots).mem = st.mem := by
  unfold State.performAt; (repeat' split) <;> simp

/-! ### Memory: what leaves the memory alone -/

@[simp] theorem stallSt_mem (st : State) : (st.stallSt).mem = st.mem := by
  simp [State.stallSt]

/-! ### Home: what leaves the memory alone -/

@[simp] theorem evictEntry_mem (st : State) (home line : Nat) : (st.evictEntry home line).mem = st.mem := by
  unfold State.evictEntry
  extract_lets mine1
  split
  · exact rfl
  · split
    · exact rfl
    · extract_lets away1 here1 hs1 marked1 st1 st2
      have h1 : st1.mem = st.mem := sendInvals_mem ..
      have h2 : st2.mem = st.mem := (setEntry_mem ..).trans h1
      exact mem_eq_ite h2 ((bringWords_mem ..).trans h2)

@[simp] theorem waitAtHome_mem (st : State) (p : Packet) : (st.waitAtHome p).mem = st.mem := rfl

@[simp] theorem woundAll_mem (st : State) (p : Packet) (idx : List Nat) : (st.woundAll p idx).mem = st.mem := by
  simp [State.woundAll]

@[simp] theorem grantWords_mem (st : State) (p : Packet) : (st.grantWords p).mem = st.mem := by
  simp [State.grantWords]

@[simp] theorem register_mem (st : State) (cl line : Nat) (idx : List Nat) (k : Nat) :
    (st.register cl line idx k).mem = st.mem := by
  simp [State.register]

@[simp] theorem sendHome_mem (st : State) (g : Agent) (line : Nat) (ws : List Nat) (cells : Tab Byte) :
    (st.sendHome g line ws cells).mem = st.mem := by
  simp [State.sendHome]

@[simp] theorem peerRoomFor_mem (st : State) (d line : Nat) : (st.peerRoomFor d line).mem = st.mem := by
  unfold State.peerRoomFor; split <;> simp

@[simp] theorem l1RoomFor_mem (st : State) (bank core line : Nat) : (st.l1RoomFor bank core line).mem = st.mem := by
  unfold State.l1RoomFor
  extract_lets b1 stays1
  split
  · exact rfl
  · exact setCore_mem ..

@[simp] theorem storeFill_mem (st : State) (p : Packet) : (st.storeFill p).mem = st.mem := by
  unfold State.storeFill; (repeat' split) <;> simp

@[simp] theorem fillWatches_mem (st : State) (k : Nat) (ws : List Nat) : (st.fillWatches k ws).mem = st.mem := by
  simp [State.fillWatches]

@[simp] theorem endRegistration_mem (st : State) (cl w : Nat) : (st.endRegistration cl w).mem = st.mem := by
  simp [State.endRegistration]

@[simp] theorem snoopSquash_mem (st : State) (line : Nat) : (st.snoopSquash line).mem = st.mem := by
  simp [State.snoopSquash]

@[simp] theorem uncache_mem (st : State) (line : Nat) : (st.uncache line).mem = st.mem := rfl

@[simp] theorem hostWait_mem (st : State) (a n : Nat) (writes : Bool) (key : List Nat) :
    (st.hostWait a n writes key).mem = st.mem := by
  simp [State.hostWait]

/-! ### Windows: what leaves the memory alone -/

@[simp] theorem queueWrites_mem (st : State) (bank w : Nat) (words : List Nat) (strand : Nat) :
    (st.queueWrites bank w words strand).mem = st.mem := by
  unfold State.queueWrites
  split
  · exact rfl
  · extract_lets mine1 lines1 t1 st1
    have h1 : st1.mem = st.mem := by
      unfold st1
      refine each_mem_eq (fun {s x} hs => ?_) _ rfl
      split
      exact (owe_mem ..).trans ((setBank_mem ..).trans (mem_of_snd ((fresh_mem ..).trans hs) ‹_›))
    exact (setBank_mem ..).trans h1

@[simp] theorem clearWords_mem (st : State) (bank w : Nat) (words : List Nat) :
    (st.clearWords bank w words).mem = st.mem := rfl

@[simp] theorem popWrite_mem (st : State) (bank id : Nat) : (st.popWrite bank id).mem = st.mem := rfl

@[simp] theorem endFlushes_mem (st : State) (bank : Nat) : (st.endFlushes bank).mem = st.mem :=
  (setBank_mem ..).trans (each_mem_eq (fun h0 => (setStrand_mem ..).trans h0) _ rfl)

@[simp] theorem killWords_mem (st : State) (k : Nat) (pool : List Nat) (drop : Bool) :
    (st.killWords k pool drop).mem = st.mem := by
  unfold State.killWords
  refine each_mem_eq (fun {s x} hs => ?_) _ rfl
  extract_lets bank1 b1
  split
  · exact hs
  · exact mem_eq_ite hs ((clearWords_mem ..).trans ((queueWrites_mem ..).trans hs))

@[simp] theorem markDead_mem (st : State) (k : Nat) (ws : List Nat) (drop : Bool) :
    (st.markDead k ws drop).mem = st.mem :=
    by
  unfold State.markDead
  extract_lets st1 ws1 dead1 st2 d1
  have h1 : st1.mem = st.mem := killWords_mem ..
  have h2 : st2.mem = st.mem := each_mem_eq (fun h0 => (setCore_mem ..).trans h0) _ h1
  exact mem_eq_ite ((setDie_mem ..).trans h2) ((setDie_mem ..).trans (each_mem_eq (fun h0 => (send_mem ..).trans h0)
    _ h2))

@[simp] theorem unmapNow_mem (st : State) (k w : Nat) : (st.unmapNow k w).mem = st.mem := by
  unfold State.unmapNow
  extract_lets bank1
  split
  · exact rfl
  · exact (setBank_mem ..).trans (each_mem_eq (fun h0 => (squash_mem ..).trans h0) _ (queueWrites_mem ..))

@[simp] theorem flushNow_mem (st : State) (c : Cmd) (w : Nat) : (st.flushNow c w).mem = st.mem := by
  simp [State.flushNow]

@[simp] theorem wakeFence_mem (st : State) (k : Nat) : (st.wakeFence k).mem = st.mem := by
  simp [State.wakeFence]

@[simp] theorem dropCheck_mem (st : State) : (st.dropCheck).mem = st.mem := rfl

@[simp] theorem dropRoom_mem (st : State) : (st.dropRoom).mem = st.mem := rfl

@[simp] theorem prefetchL1_mem (st : State) (h : HintAt) : (st.prefetchL1 h).mem = st.mem := by
  unfold State.prefetchL1
  split
  · extract_lets st1
    have h1 : st1.mem = st.mem := setBank_mem ..
    split
    · exact (askFills_mem ..).trans h1
    · exact h1
  · exact mem_eq_ite (dropRoom_mem ..) (mem_eq_ite rfl (askReads_mem ..))

@[simp] theorem prefetchL2_mem (st : State) (h : HintAt) : (st.prefetchL2 h).mem = st.mem := by
  simp [State.prefetchL2]

@[simp] theorem residency_mem (st : State) (rel : Bool) (a : Nat) : (st.residency rel a).mem = st.mem := by
  unfold State.residency
  extract_lets d1 line1 mine1
  split
  · exact setDie_mem ..
  · exact mem_eq_ite rfl (mem_eq_ite (dropRoom_mem ..) (setDie_mem ..))

@[simp] theorem conflict_mem (st : State) (k : Nat) (g : Agent) (ws : List Nat) :
    (st.conflict k g ws).mem = st.mem := by
  simp [State.conflict]

@[simp] theorem dropLocal_mem (st : State) (g : Agent) (own spare : Option Nat) (ws : List Nat) :
    (st.dropLocal g own spare ws).mem = st.mem := by
  unfold State.dropLocal; split <;> simp

@[simp] theorem takeWords_mem (st : State) (k line : Nat) (ws : List Nat) (g : Agent) :
    (st.takeWords k line ws g).mem = st.mem := by
  simp [State.takeWords]

@[simp] theorem applyWindow_mem (st : State) (k bank w : Nat) (words : List Nat) :
    (st.applyWindow k bank w words).mem = st.mem := by
  unfold State.applyWindow; split <;> simp

/-! ### Tile: what leaves the memory alone -/

@[simp] theorem grantLease_mem (st : State) (cluster : Nat) : (st.grantLease cluster).mem = st.mem := by
  unfold State.grantLease; (repeat' split) <;> simp

@[simp] theorem endTerm_mem (st : State) (cluster : Nat) : (st.endTerm cluster).mem = st.mem := by
  unfold State.endTerm
  extract_lets c1
  split
  · exact rfl
  · exact mem_eq_ite rfl (mem_eq_ite ((grantLease_mem ..).trans (setCluster_mem ..)) (setCluster_mem ..))

@[simp] theorem releaseSlots_mem (st : State) (k first count : Nat) : (st.releaseSlots k first count).mem = st.mem :=
  rfl

@[simp] theorem issueTask_mem (st : State) (kind : TaskKind) (acc : Nat) (set : Bool) (scales : Word) :
    (st.issueTask kind acc set scales).mem = st.mem := by
  simp [State.issueTask]

@[simp] theorem applyTask_mem (st : State) (cluster id : Nat) : (st.applyTask cluster id).mem = st.mem := rfl

@[simp] theorem endTask_mem (st : State) (cluster : Nat) (t : Task) : (st.endTask cluster t).mem = st.mem := rfl

@[simp] theorem endDisplacedLease_mem (st : State) (cluster : Nat) : (st.endDisplacedLease cluster).mem = st.mem := by
  unfold State.endDisplacedLease
  extract_lets c1 busy1
  split
  · exact rfl
  · exact mem_eq_ite rfl ((owe_mem ..).trans (setCluster_mem ..))

@[simp] theorem awaitAssist_mem (st : State) (cluster : Nat) (t : Task) : (st.awaitAssist cluster t).mem = st.mem := by
  simp [State.awaitAssist]

@[simp] theorem suspendMmv_mem (st : State) (cluster : Nat) (t : Task) : (st.suspendMmv cluster t).mem = st.mem := rfl

/-! ### Engine: what leaves the memory alone -/

@[simp] theorem addBytes_mem (st : State) (job i : Nat) (bs : List Byte) : (st.addBytes job i bs).mem = st.mem := rfl

@[simp] theorem endJob_mem (st : State) (job : Nat) : (st.endJob job).mem = st.mem := rfl

/-! ### Copy: what leaves the memory alone -/

@[simp] theorem queueCopy_mem (st : State) (cluster : Nat) : (st.queueCopy cluster).mem = st.mem := rfl

@[simp] theorem applyCopy_mem (st : State) (k id : Nat) : (st.applyCopy k id).mem = st.mem := rfl

@[simp] theorem startCopy_mem (st : State) (cluster : Nat) (m : Cmd) : (st.startCopy cluster m).mem = st.mem := rfl

@[simp] theorem setActive_mem (st : State) (cluster : Nat) (m : Cmd) : (st.setActive cluster m).mem = st.mem := rfl

@[simp] theorem nextPiece_mem (st : State) (cluster : Nat) (m : Cmd) : (st.nextPiece cluster m).mem = st.mem := by
  simp [State.nextPiece]

@[simp] theorem drainCopy_mem (st : State) (cluster : Nat) (m : Cmd) (fine : Bool) :
    (st.drainCopy cluster m fine).mem = st.mem := rfl

@[simp] theorem leaveCopy_mem (st : State) (cluster : Nat) (m : Cmd) : (st.leaveCopy cluster m).mem = st.mem := rfl

@[simp] theorem changeActive_mem (st : State) (cluster id : Nat) (f : Cmd → Cmd) :
    (st.changeActive cluster id f).mem = st.mem := rfl

@[simp] theorem readComplete_mem (st : State) (p : Nat) (r : NvRead) : (st.readComplete p r).mem = st.mem := by
  simp [State.readComplete]

@[simp] theorem consumeEntry_mem (st : State) (p queue : Nat) : (st.consumeEntry p queue).mem = st.mem := rfl

/-! ### Courses: what leaves the memory alone -/

@[simp] theorem setCourse_mem (st : State) (p num : Nat) (f : Course → Course) : (st.setCourse p num f).mem = st.mem :=
  rfl

@[simp] theorem reserveCourse_mem (st : State) (p lkey : Nat) : (st.reserveCourse p lkey).2.mem = st.mem := by
  unfold State.reserveCourse
  extract_lets free1
  split
  · exact rfl
  · exact setCourse_mem ..

@[simp] theorem issueAgent_mem (st : State) (o : Ops) (fin : Fin) (owed : Bool) :
    (st.issueAgent o fin owed).mem = st.mem :=
    by
  simp [State.issueAgent]

@[simp] theorem issueAnswer_mem (st : State) (o : Ops) (value : Option Word) :
    (st.issueAnswer o value).mem = st.mem := by
  simp [State.issueAnswer]

@[simp] theorem answer_mem (st : State) (k seq : Nat) (v : Word) : (st.answer k seq v).mem = st.mem := rfl

@[simp] theorem endCourse_mem (st : State) (src num : Nat) : (st.endCourse src num).mem = st.mem := by
  unfold State.endCourse
  extract_lets c1 st1 st2
  have h1 : st1.mem = st.mem := setCourse_mem ..
  have h2 : st2.mem = st.mem := by
    unfold st2
    split
    · exact (answer_mem ..).trans h1
    · exact h1
  split
  · exact (owe_mem ..).trans h2
  · exact h2

@[simp] theorem decideCourse_mem (st : State) (src num verdict : Nat) :
    (st.decideCourse src num verdict).mem = st.mem := by
  simp [State.decideCourse]

@[simp] theorem openCourse_mem (st : State) (p num : Nat) : (st.openCourse p num).mem = st.mem := rfl

@[simp] theorem sendStc_mem (st : State) (src num addr n value strand seq : Nat) :
    (st.sendStc src num addr n value strand seq).mem = st.mem := rfl

@[simp] theorem applyStc_mem (st : State) (k handle addr n value seq : Nat) :
    (st.applyStc k handle addr n value seq).mem = st.mem := by
  simp [State.applyStc]

@[simp] theorem prepareCourse_mem (st : State) (src num : Nat) : (st.prepareCourse src num).mem = st.mem := by
  simp [State.prepareCourse]

@[simp] theorem applyLay_mem (st : State) (k handle seq : Nat) : (st.applyLay k handle seq).mem = st.mem := by
  simp [State.applyLay]

@[simp] theorem applyAbandon_mem (st : State) (k handle : Nat) : (st.applyAbandon k handle).mem = st.mem := by
  simp [State.applyAbandon]

@[simp] theorem abandonAll_mem (st : State) (lkey : Nat) : (st.abandonAll lkey).mem = st.mem := by
  simp [State.abandonAll]

@[simp] theorem setStaging_mem (st : State) (p : Nat) (s : Staging) : (st.setStaging p s).mem = st.mem := rfl

@[simp] theorem lockWords_mem (st : State) (src num : Nat) (ws : List Nat) :
    (st.lockWords src num ws).mem = st.mem := by
  simp [State.lockWords]

@[simp] theorem unlock_mem (st : State) (pkg src num : Nat) : (st.unlock pkg src num).mem = st.mem := rfl

/-! ### Messages: what leaves the memory alone -/

@[simp] theorem sendHeld_mem (st : State) (k target chan : Nat) (payload : List Byte) (len q : Nat) (ts : Option Nat) :
    (st.sendHeld k target chan payload len q ts).mem = st.mem := by
  unfold State.sendHeld; split <;> simp

@[simp] theorem sendBrick_mem (st : State) (k addr q : Nat) : (st.sendBrick k addr q).mem = st.mem := by
  unfold State.sendBrick; split <;> simp

@[simp] theorem setHandler_mem (st : State) (k chan : Nat) (x : Word) : (st.setHandler k chan x).mem = st.mem := rfl

@[simp] theorem maskHandlers_mem (st : State) (k : Nat) (mask : Word) (on : Bool) :
    (st.maskHandlers k mask on).mem = st.mem := each_mem_eq (fun h0 => (setHandler_mem ..).trans h0) _ rfl

@[simp] theorem openRegion_mem (st : State) (k q : Nat) : (st.openRegion k q).mem = st.mem := by
  simp [State.openRegion]

/-! ### Experts: what leaves the memory alone -/

@[simp] theorem setExpert_mem (st : State) (name : Nat) (f : Expert → Expert) : (st.setExpert name f).mem = st.mem := by
  unfold State.setExpert; split <;> simp

@[simp] theorem postFrom_mem (st : State) (lkey pkg iod agent target chan : Nat) (payload : List Byte) (q : Nat) :
    (st.postFrom lkey pkg iod agent target chan payload q).mem = st.mem := by
  unfold State.postFrom; split <;> simp

@[simp] theorem fromDirectory_mem (st : State) (name target chan : Nat) (payload : List Byte) (q : Nat) :
    (st.fromDirectory name target chan payload q).mem = st.mem := by
  unfold State.fromDirectory; split <;> simp

@[simp] theorem expertEvent_mem (st : State) (name kind : Nat) : (st.expertEvent name kind).mem = st.mem := by
  unfold State.expertEvent; split <;> simp

@[simp] theorem eventAgain_mem (st : State) (name : Nat) : (st.eventAgain name).mem = st.mem := by
  unfold State.eventAgain; split <;> simp

@[simp] theorem endEvent_mem (st : State) (name : Nat) : (st.endEvent name).mem = st.mem := by
  simp [State.endEvent]

@[simp] theorem insertEvents_mem (st : State) (name : Nat) (vs : List ExEvent) :
    (st.insertEvents name vs).mem = st.mem := by
  simp [State.insertEvents]

@[simp] theorem joinQueue_mem (st : State) (name : Nat) (v : ExEvent) : (st.joinQueue name v).mem = st.mem := by
  simp [State.joinQueue]

@[simp] theorem queueEvent_mem (st : State) (name : Nat) (v : ExEvent) : (st.queueEvent name v).mem = st.mem := by
  simp [State.queueEvent]

@[simp] theorem unpin_mem (st : State) (name i : Nat) : (st.unpin name i).mem = st.mem := rfl

@[simp] theorem freeReplica_mem (st : State) (name i : Nat) : (st.freeReplica name i).mem = st.mem := by
  unfold State.freeReplica
  extract_lets st1
  have h1 : st1.mem = st.mem := (endJob_mem ..).trans ((setExpert_mem ..).trans (unpin_mem ..))
  split
  · exact (owe_mem ..).trans h1
  · exact h1

@[simp] theorem beginCopies_mem (st : State) (name : Nat) : (st.beginCopies name).mem = st.mem := by
  unfold State.beginCopies; split <;> simp

@[simp] theorem takeGrow_mem (st : State) (name i a : Nat) (cmd : Option Nat) :
    (st.takeGrow name i a cmd).mem = st.mem := by
  simp [State.takeGrow]

@[simp] theorem meetLack_mem (st : State) (name : Nat) (a : Lack) : (st.meetLack name a).mem = st.mem := by
  unfold State.meetLack; split <;> simp

@[simp] theorem deliver_mem (st : State) (name i : Nat) (record : List Nat) (second q : Nat) :
    (st.deliver name i record second q).mem = st.mem := by
  unfold State.deliver; split <;> simp

@[simp] theorem setTunnel_mem (st : State) (p d : Nat) (f : Tunnel → Tunnel) : (st.setTunnel p d f).mem = st.mem := rfl

@[simp] theorem toDomain_mem (st : State) (p d : Nat) (x : TunnelItem) : (st.toDomain p d x).mem = st.mem := by
  unfold State.toDomain; split <;> simp

@[simp] theorem releaseHeld_mem (st : State) (p d : Nat) : (st.releaseHeld p d).mem = st.mem := by
  simp [State.releaseHeld]

@[simp] theorem receive_mem (st : State) (m : Msg) : (st.receive m).mem = st.mem := by
  unfold State.receive; split <;> simp

@[simp] theorem again_mem (st : State) (c : Cmd) (name : Nat) : (st.again c name).mem = st.mem := rfl

@[simp] theorem leaveEx_mem (st : State) (c : Cmd) : (st.leaveEx c).mem = st.mem := rfl

@[simp] theorem dropGrow_mem (st : State) (name i : Nat) : (st.dropGrow name i).mem = st.mem := by
  unfold State.dropGrow; split <;> simp

@[simp] theorem retireReplica_mem (st : State) (name i : Nat) : (st.retireReplica name i).mem = st.mem := by
  unfold State.retireReplica; split <;> simp

@[simp] theorem closeTest_mem (st : State) (name : Nat) (notify : Bool) : (st.closeTest name notify).mem = st.mem := by
  unfold State.closeTest; split <;> simp

@[simp] theorem applyEx_mem (st : State) (id : Nat) : (st.applyEx id).mem = st.mem := by
  unfold State.applyEx; split <;> simp

@[simp] theorem endExperts_mem (st : State) (lkey : Nat) : (st.endExperts lkey).mem = st.mem :=
  each_mem_eq (fun h0 => each_mem_eq (fun h1 => (endJob_mem ..).trans ((unpin_mem ..).trans h1)) _ h0) _ rfl

/-! ### Gateways: what leaves the memory alone -/

@[simp] theorem fromGateway_mem (st : State) (lkey p g target chan : Nat) (payload : List Byte) (q : Nat) :
    (st.fromGateway lkey p g target chan payload q).mem = st.mem := by
  simp [State.fromGateway]

@[simp] theorem finishMsg_mem (st : State) (m : Msg) : (st.finishMsg m).mem = st.mem := by
  simp [State.finishMsg]

@[simp] theorem receiveId_mem (st : State) (id : Nat) : (st.receiveId id).mem = st.mem := by
  unfold State.receiveId; split <;> simp

@[simp] theorem markHeld_mem (st : State) (id : Nat) (held : Bool) : (st.markHeld id held).mem = st.mem := rfl

@[simp] theorem sendToken_mem (st : State) (lkey p g q entry : Nat) (bs : List Byte) :
    (st.sendToken lkey p g q entry bs).mem = st.mem := by
  simp [State.sendToken]

@[simp] theorem setCombines_mem (st : State) (p : Nat) (f : List Combine → List Combine) :
    (st.setCombines p f).mem = st.mem := rfl

@[simp] theorem endCombine_mem (st : State) (p : Nat) (c : Combine) : (st.endCombine p c).mem = st.mem := by
  simp [State.endCombine]

@[simp] theorem takeItem_mem (st : State) (p iod d lkey : Nat) (bs : List Byte) :
    (st.takeItem p iod d lkey bs).mem = st.mem := by
  simp [State.takeItem]

@[simp] theorem setMerges_mem (st : State) (p : Nat) (f : List Merge → List Merge) : (st.setMerges p f).mem = st.mem :=
  rfl

@[simp] theorem endMerge_mem (st : State) (p : Nat) (m : Merge) (ws : List Nat) :
    (st.endMerge p m ws).mem = st.mem := by
  simp [State.endMerge]

/-! ### Apply: what leaves the memory alone -/

@[simp] theorem rebindFills_mem (st : State) (bank w bind : Nat) (pool : Nat → Bool) :
    (st.rebindFills bank w bind pool).mem = st.mem := by
  unfold State.rebindFills
  extract_lets filled1 hit1
  split
  · rfl
  · split
    have h1 := mem_of_snd (fresh_mem st) ‹_›
    exact each_mem_eq (fun h => (setStrand_mem ..).trans h) _ h1

@[simp] theorem squashStores_mem (st : State) (bank : Nat) (hit : Nat → Bool) :
    (st.squashStores bank hit).mem = st.mem := by
  unfold State.squashStores
  extract_lets b1 inside1 cluster1
  refine each_mem_eq (fun {s x} hs => ?_) _ rfl
  split
  · exact (squash_mem ..).trans hs
  · exact hs

@[simp] theorem wakeCore_mem (st : State) (core : Nat) : (st.wakeCore core).mem = st.mem := by
  simp [State.wakeCore]

@[simp] theorem wakeCores_mem (st : State) (lkey pkg : Nat) : (st.wakeCores lkey pkg).mem = st.mem := by
  unfold State.wakeCores; split <;> simp

@[simp] theorem enqueueBrick_mem (st : State) (lkey addr pri pkg die cl : Nat) :
    (st.enqueueBrick lkey addr pri pkg die cl).mem = st.mem := by
  unfold State.enqueueBrick
  split
  · exact rfl
  · extract_lets stage1 mine1
    split
    · exact rfl
    · exact (wakeCores_mem ..).trans (setCluster_mem ..)

@[simp] theorem leaveBrick_mem (st : State) (lkey addr : Nat) : (st.leaveBrick lkey addr).mem = st.mem := by
  simp [State.leaveBrick]

@[simp] theorem applyPeer_mem (st : State) (k line : Nat) (cells : Tab Byte) (ws : List Nat) :
    (st.applyPeer k line cells ws).mem = st.mem := by
  simp [State.applyPeer]

@[simp] theorem deliverSignature_mem (st : State) (k : Nat) (c : Chunk) : (st.deliverSignature k c).mem = st.mem := by
  unfold State.deliverSignature
  split
  · refine each_mem_eq (fun {s x} hs => ?_) _ rfl
    split
    · exact hs
    · split
      · exact (squash_mem ..).trans hs
      · exact hs
  · exact rfl

@[simp] theorem sendPartial_mem (st : State) (cl : Nat) (p : Partial) : (st.sendPartial cl p).mem = st.mem := by
  unfold State.sendPartial; split <;> simp

@[simp] theorem redRoom_mem (st : State) (cl line : Nat) : (st.redRoom cl line).mem = st.mem := by
  unfold State.redRoom
  extract_lets lines1
  split
  · exact rfl
  · split
    · exact rfl
    · extract_lets mine1 st1 st2
      have h1 : st1.mem = st.mem := setCluster_mem ..
      have h2 : st2.mem = st.mem := each_mem_eq (fun h0 => (sendPartial_mem ..).trans h0) _ h1
      exact each_mem_eq (fun h0 => (endRegistration_mem ..).trans h0) _ h2

@[simp] theorem applyRed_mem (st : State) (k a n op v : Nat) : (st.applyRed k a n op v).mem = st.mem := by
  simp [State.applyRed]

@[simp] theorem recordAtomics_mem (st : State) (c : Chunk) : (st.recordAtomics c).mem = st.mem :=
  each_mem_eq (fun h0 => (noteAtomic_mem ..).trans h0) _ rfl

@[simp] theorem applyDrop_mem (st : State) (k : Nat) (ws : List Nat) : (st.applyDrop k ws).mem = st.mem := by
  unfold State.applyDrop
  extract_lets pools1 st1 mem1 g1 owned1 st2 st3
  have h1 : st1.mem = st.mem := by
    unfold st1
    refine each_mem_eq (fun {s x} hs => ?_) _ rfl
    extract_lets bank1
    split
    · exact hs
    · exact (clearWords_mem ..).trans (mem_eq_ite ((setEntry_mem ..).trans hs) hs)
  have h2 : st2.mem = st.mem := each_mem_eq (fun h0 => (setEntry_mem ..).trans h0) _ h1
  have h3 : st3.mem = st.mem := (setDie_mem ..).trans h2
  exact mem_eq_ite h3 ((dropSpans_mem ..).trans h3)

@[simp] theorem endRunNow_mem (st : State) (k : Nat) : (st.endRunNow k).mem = st.mem := by
  unfold State.endRunNow
  extract_lets t1 st1 qs1 st2 st3
  have h1 : st1.mem = st.mem := by
    unfold st1
    split
    · exact setBank_mem ..
    · exact rfl
  have h2 : st2.mem = st.mem := each_mem_eq (fun h0 => (countRecv_mem ..).trans h0) _ h1
  have h3 : st3.mem = st.mem := (setStrand_mem ..).trans h2
  exact (wakeCore_mem ..).trans ((releaseLease_mem ..).trans h3)

@[simp] theorem applyCmd_mem (st : State) (k id : Nat) : (st.applyCmd k id).mem = st.mem := by
  unfold State.applyCmd; (repeat' split) <;> simp

@[simp] theorem retireChunk_mem (st : State) (k : Nat) (c : Chunk) : (st.retireChunk k c).mem = st.mem := by
  unfold State.retireChunk
  extract_lets st1 st2 st3 st4
  have h1 : st1.mem = st.mem := releaseChunk_mem ..
  have h2 : st2.mem = st.mem := (setStrand_mem ..).trans h1
  have h3 : st3.mem = st.mem := h2
  have h4 : st4.mem = st.mem := mem_eq_ite ((setStrand_mem ..).trans h3) h3
  exact mem_eq_ite ((grantToken_mem ..).trans ((setDie_mem ..).trans h4)) h4

/-! ### Mtu: what leaves the memory alone -/

@[simp] theorem wakeRefused_mem (st : State) (p : Nat) : (st.wakeRefused p).mem = st.mem := by
  simp [State.wakeRefused]

@[simp] theorem scanCandidates_mem (st : State) (p unit : Nat) : (st.scanCandidates p unit).mem = st.mem := by
  unfold State.scanCandidates
  extract_lets key1 wanted1 idle1 some1 all1
  refine each_mem_eq (fun {s x} hs => ?_) _ rfl
  extract_lets value1
  split
  · exact (becomeCandidate_mem ..).trans hs
  · exact hs

@[simp] theorem takeFrame_mem (st : State) (p unit tier sz n : Nat) :
    (st.takeFrame p unit tier sz n).2.mem = st.mem := by
  induction n generalizing st with
  | zero => rfl
  | succ n ih =>
    rw [State.takeFrame]
    extract_lets f1 st1
    split
    · rfl
    · have h1 : st1.mem = st.mem := setReg_mem ..
      split
      · exact h1
      · exact (ih st1).trans h1

@[simp] theorem setMove_mem (st : State) (p : Nat) (m : Move) (f : Move → Move) : (st.setMove p m f).mem = st.mem := rfl

@[simp] theorem closeMove_mem (st : State) (p : Nat) (m : Move) (outcome sz : Nat) :
    (st.closeMove p m outcome sz).mem = st.mem := by
  simp [State.closeMove]

@[simp] theorem beginMove_mem (st : State) (p : Nat) (m : Move) : (st.beginMove p m).mem = st.mem := by
  simp [State.beginMove]

@[simp] theorem beginAuto_mem (st : State) (p : Nat) (m : Move) : (st.beginAuto p m).mem = st.mem := by
  unfold State.beginAuto
  extract_lets w01 sz1 old1 owned1
  split
  · exact closeMove_mem ..
  · split
    · exact (closeMove_mem ..).trans (mem_of_snd (takeFrame_mem ..) ‹_›)
    · exact (beginMove_mem ..).trans ((setMove_mem ..).trans (mem_of_snd (takeFrame_mem ..) ‹_›))

@[simp] theorem squashParked_mem (st : State) (m : Move) (left : List (Nat × Nat)) :
    (st.squashParked m left).mem = st.mem := by
  unfold State.squashParked
  refine each_mem_eq (fun {s x} hs => ?_) _ rfl
  split
  · exact hs
  · exact mem_eq_ite ((squash_mem ..).trans hs) hs

@[simp] theorem keepRing_mem (st : State) (p unit : Nat) (fault : Bool) : (st.keepRing p unit fault).mem = st.mem := by
  simp [State.keepRing]

/-! ### Fetch: what leaves the memory alone -/

@[simp] theorem fetched_mem (st : State) : (st.fetched).mem = st.mem := by
  simp [State.fetched]

/-! ### Runs: what leaves the memory alone -/

@[simp] theorem beginRun_mem (st : State) (k lkey pc : Nat) (sv : Bool) (ss : List Nat) (info : RunInfo) :
    (st.beginRun k lkey pc sv ss info).mem = st.mem := by
  simp [State.beginRun]

@[simp] theorem unqueue_mem (st : State) (cluster : Nat) (q : QBrick) : (st.unqueue cluster q).mem = st.mem := rfl

@[simp] theorem pendMsixFor_mem (st : State) (p q vec : Nat) : (st.pendMsixFor p q vec).mem = st.mem := by
  simp [State.pendMsixFor]

@[simp] theorem pendMsix_mem (st : State) (p q : Nat) : (st.pendMsix p q).mem = st.mem := by
  simp [State.pendMsix]

@[simp] theorem entryDone_mem (st : State) (p q entry : Nat) : (st.entryDone p q entry).mem = st.mem := rfl

@[simp] theorem beginEnd_mem (st : State) (l : Launch) : (st.beginEnd l).mem = st.mem := by
  simp [State.beginEnd]

@[simp] theorem releaseLaunch_mem (st : State) (l : Launch) : (st.releaseLaunch l).mem = st.mem := by
  unfold State.releaseLaunch
  extract_lets st1 mine1 resident1 counts1 st2 st3 st4
  have h1 : st1.mem = st.mem := each_mem_eq (fun h0 => (releaseLease_mem ..).trans h0) _ rfl
  have h2 : st2.mem = st.mem := h1
  have h3 : st3.mem = st.mem := (dropParks_mem ..).trans h2
  have h4 : st4.mem = st.mem := mem_eq_ite (each_mem_eq (fun h0 => (owe_mem ..).trans h0) _ h3) h3
  exact each_mem_eq (fun h0 => each_mem_eq (fun h1 => mem_eq_ite h1 ((owe_mem ..).trans h1)) _ h0) _ h4

/-! ### Sched: what leaves the memory alone -/

@[simp] theorem wakeQueue_mem (st : State) (p q : Nat) : (st.wakeQueue p q).mem = st.mem := by
  simp [State.wakeQueue]

@[simp] theorem ringDoorbell_mem (st : State) (p q tail : Nat) : (st.ringDoorbell p q tail).mem = st.mem := by
  simp [State.ringDoorbell]

@[simp] theorem mapLevel_mem (st : State) (p level : Nat) : (st.mapLevel p level).mem = st.mem := rfl

@[simp] theorem advanceHead_mem (st : State) (p q : Nat) : (st.advanceHead p q).mem = st.mem := by
  simp [State.advanceHead]

@[simp] theorem entryTaken_mem (st : State) (p q : Nat) (graph : Option (Nat × Nat)) (admitted : Option Nat) :
    (st.entryTaken p q graph admitted).mem = st.mem := by
  unfold State.entryTaken; split <;> simp

@[simp] theorem failNode_mem (st : State) (p : Nat) (graph : Option (Nat × Nat)) :
    (st.failNode p graph).mem = st.mem := by
  unfold State.failNode; split <;> simp

@[simp] theorem setGraph_mem (st : State) (p id : Nat) (f : Graph → Graph) : (st.setGraph p id f).mem = st.mem := rfl

/-! ### Holders: what leaves the memory alone -/

theorem engineRead_mem {st t : State} {a n : Nat} {pcie : Bool} {key : List Nat} {bs : List Byte}
    (e : st.engineRead a n pcie key = some (bs, t)) :
    t.mem = st.mem := by
  unfold State.engineRead at e
  split at e
  · cases e; rfl
  · split at e
    · cases e
      exact (leavePlaces_mem ..).trans (each_mem_eq (fun h => (countAccess_mem ..).trans h) _ rfl)
    · cases e

/-! ### Sched: what leaves the memory alone -/

@[simp] theorem readPredicate_mem (st : State) (p : Nat) (g : Graph) (node : Nat) :
    (st.readPredicate p g node).2.mem = st.mem := by
  unfold State.readPredicate
  extract_lets f1 job1
  split
  · exact (setGraph_mem ..).trans (engineRead_mem ‹_›)
  · exact snoopFor_mem ..

@[simp] theorem startNode_mem (st : State) (p : Nat) (g : Graph) (node : Nat) :
    (st.startNode p g node).1.mem = st.mem := by
  unfold State.startNode
  extract_lets run1
  have h1 : run1.mem = st.mem := setGraph_mem ..
  split
  · exact (owe_mem ..).trans h1
  · exact (owe_mem ..).trans h1
  · have h2 : (run1.readPredicate p g node).2.mem = st.mem := (readPredicate_mem ..).trans h1
    split
    · exact mem_of_snd h2 ‹_›
    · exact (owe_mem ..).trans (mem_of_snd h2 ‹_›)
  · split
    · rfl
    · split
      · exact (setLaunch_mem ..).trans h1
      · exact h1
  · exact pendMsixFor_mem ..
  · rfl

@[simp] theorem runGraph_mem (st : State) (p id n : Nat) (xs : List (Nat × Bool)) :
    (st.runGraph p id n xs).mem = st.mem := by
  induction n generalizing st xs with
  | zero => rfl
  | succ n ih =>
    cases xs with
    | nil => rfl
    | cons x rest =>
      rw [State.runGraph]
      split
      · rfl
      · split
        · exact ih ..
        · extract_lets pred1 ts1 fs1 live1 g1 st1 waits1 zero1 skipped1 r1
          have h1 : st1.mem = st.mem := setGraph_mem ..
          split
          · exact (ih ..).trans h1
          · have h2 : r1.1.mem = st.mem := by
              unfold r1
              refine List.foldlRecOn (motive := fun r : State × List (Nat × Bool) => r.1.mem = st.mem) _ _ h1 fun r
                hr s _ => ?_
              split
              · exact (startNode_mem ..).trans hr
              · exact hr
            exact (ih ..).trans h2

/-! ### Preempt: what leaves the memory alone -/

@[simp] theorem stopStrand_mem (st : State) (k : Nat) : (st.stopStrand k).mem = st.mem := by
  unfold State.stopStrand
  extract_lets held1 st1
  have h1 : st1.mem = st.mem := mem_eq_ite (setDie_mem ..) rfl
  split
  · exact (setStrand_mem ..).trans ((discard_mem ..).trans h1)
  · exact mem_eq_ite ((setStrand_mem ..).trans h1) h1

@[simp] theorem cutL1_mem (st : State) (bank : Nat) : (st.cutL1 bank).mem = st.mem := by
  simp [State.cutL1]

@[simp] theorem stopActive_mem (st : State) (cluster : Nat) : (st.stopActive cluster).mem = st.mem := by
  unfold State.stopActive; split <;> simp

@[simp] theorem thaw_mem (st : State) (cluster : Nat) : (st.thaw cluster).mem = st.mem := by
  unfold State.thaw
  split
  · exact owe_mem ..
  · extract_lets st1 st2 c1 st3 st4
    have h1 : st1.mem = st.mem := setCluster_mem ..
    have h2 : st2.mem = st.mem := each_mem_eq (fun h0 => (setBank_mem ..).trans h0) _ h1
    have h3 : st3.mem = st.mem := h2
    have h4 : st4.mem = st.mem := (oweAll_mem ..).trans h3
    exact (grantToken_mem ..).trans (each_mem_eq (fun h0 => (wakeCore_mem ..).trans h0) _ h4)

@[simp] theorem moveWindows_mem (st : State) (m : Shift) (bank : Nat) : (st.moveWindows m bank).mem = st.mem :=
  (setBank_mem ..).trans (each_mem_eq (fun h0 => (setEntry_mem ..).trans h0) _ rfl)

/-! ### Recovery: what leaves the memory alone -/

@[simp] theorem loseReplicas_mem (st : State) (p name : Nat) : (st.loseReplicas p name).mem = st.mem := by
  unfold State.loseReplicas; (repeat' split) <;> simp

@[simp] theorem loseCourses_mem (st : State) (p : Nat) : (st.loseCourses p).mem = st.mem := by
  simp [State.loseCourses]

@[simp] theorem loseMessages_mem (st : State) : (st.loseMessages).mem = st.mem := by
  unfold State.loseMessages
  refine each_mem_eq (fun {s x} hs => ?_) _ rfl
  split
  · exact mem_eq_ite ((receive_mem ..).trans ((endJob_mem ..).trans hs)) hs
  · exact hs

/-! ### Fabric: what leaves the memory alone -/

@[simp] theorem registerWritten_mem (st : State) (pkg off : Nat) : (st.registerWritten pkg off).mem = st.mem := by
  simp [State.registerWritten]

@[simp] theorem setLink_mem (st : State) (p i : Nat) (f : Link → Link) : (st.setLink p i f).mem = st.mem := rfl

@[simp] theorem sendBy_mem (st : State) (p i : Nat) (f : List Byte) : (st.sendBy p i f).mem = st.mem := rfl

@[simp] theorem sendFlit_mem (st : State) (p : Nat) (f : List Byte) : (st.sendFlit p f).mem = st.mem := by
  unfold State.sendFlit; split <;> simp

@[simp] theorem sendUnsent_mem (st : State) (p : Nat) : (st.sendUnsent p).mem = st.mem := by
  unfold State.sendUnsent
  refine List.foldlRecOn (motive := fun s : State => s.mem = st.mem) _ _ rfl fun s hs _ _ => ?_
  split
  · exact (sendBy_mem ..).trans ((setPkg_mem ..).trans hs)
  · exact hs

@[simp] theorem setPeer_mem (st : State) (p other vc : Nat) (f : E2e → E2e) : (st.setPeer p other vc f).mem = st.mem :=
  rfl

@[simp] theorem originate_mem (st : State) (p : Nat) (f : List Byte) : (st.originate p f).mem = st.mem := by
  simp [State.originate]

@[simp] theorem acknowledge_mem (st : State) (p src vc : Nat) : (st.acknowledge p src vc).mem = st.mem :=
  (sendFlit_mem ..).trans (setPeer_mem ..)

@[simp] theorem flitArrived_mem (st : State) (p : Nat) (f : List Byte) : (st.flitArrived p f).mem = st.mem := by
  unfold State.flitArrived; split <;> simp

@[simp] theorem deliverFlit_mem (st : State) (p : Nat) (f : List Byte) : (st.deliverFlit p f).mem = st.mem := by
  unfold State.deliverFlit; (repeat' split) <;> simp

@[simp] theorem takeFlit_mem (st : State) (p : Nat) (f : List Byte) : (st.takeFlit p f).mem = st.mem := by
  simp [State.takeFlit]

@[simp] theorem replay_mem (st : State) (p i seq : Nat) : (st.replay p i seq).mem = st.mem := rfl

@[simp] theorem linkDown_mem (st : State) (p i : Nat) : (st.linkDown p i).mem = st.mem := by
  simp [State.linkDown]

@[simp] theorem retrainFailed_mem (st : State) (p i : Nat) : (st.retrainFailed p i).mem = st.mem := by
  simp [State.retrainFailed]

@[simp] theorem tunnelAcked_mem (st : State) (p d : Nat) (seqs : List Nat) :
    (st.tunnelAcked p d seqs).mem = st.mem := by
  unfold State.tunnelAcked
  extract_lets gone1 st1
  have h1 : st1.mem = st.mem := setTunnel_mem ..
  refine each_mem_eq (fun {s x} hs => ?_) _ h1
  split
  · exact (countRecv_mem ..).trans hs
  · exact hs

@[simp] theorem takeTunnelFlit_mem (st : State) (p port d : Nat) (f : List Byte) :
    (st.takeTunnelFlit p port d f).mem = st.mem := by
  unfold State.takeTunnelFlit
  extract_lets whole1
  split
  · exact setTunnel_mem ..
  · split
    · exact (takeItem_mem ..).trans (setTunnel_mem ..)
    · exact mem_eq_ite ((flitArrived_mem ..).trans (setTunnel_mem ..)) ((originate_mem ..).trans (setTunnel_mem ..))

@[simp] theorem setTrapPlaces_mem (st : State) : (st.setTrapPlaces).mem = st.mem := rfl

@[simp] theorem trainHostPort_mem (st : State) (p port : Nat) : (st.trainHostPort p port).mem = st.mem := rfl

@[simp] theorem portsTrained_mem (st : State) (p : Nat) : (st.portsTrained p).mem = st.mem := by
  simp [State.portsTrained]

@[simp] theorem levelReached_mem (st : State) (p level : Nat) : (st.levelReached p level).mem = st.mem := by
  unfold State.levelReached; split <;> simp

/-! ### Scalar: what leaves the memory alone -/

@[simp] theorem stepQ_mem (st : State) (draws : Bool) : (st.stepQ draws).mem = st.mem := by
  simp [State.stepQ]

/-! ### Step: what leaves the memory alone -/

@[simp] theorem tickOn_mem (s : State) : (s.tickOn).mem = s.mem := rfl

/-! ### Coherence: what writes the memory -/

theorem putByte_sound {st : State} {a : Nat} {b : Byte} (h : st.sound) : (st.putByte a b).sound := by
  unfold State.putByte
  split
  · exact h.of (setPkg_mem ..)
  · exact write_wf _ _ _ h

theorem applyCells_sound {st : State} {cells : Tab Byte} (h : st.sound) : (st.applyCells cells).sound :=
  (each_sound (fun h0 => h0.of (markMoves_mem ..)) _ (each_sound (fun h0 => putByte_sound h0) _ h)).of (testWords_mem
    ..)

/-! ### Holders: what writes the memory -/

theorem combineNow_sound {st : State} {ws : List Nat} (h : st.sound) : (st.combineNow ws).sound := by
  unfold State.combineNow
  refine each_sound (fun {s x} hs => ?_) _ h
  extract_lets mine1 st1
  have h1 : st1.sound := by
    unfold st1
    refine each_sound (fun {s x} hs => ?_) _ hs
    split
    · exact hs
    · exact applyCells_sound hs
  exact h1.of (setCluster_mem ..)

theorem settle_sound {st : State} {line : Nat} {idx : List Nat} {forWrite : Bool} (h : st.sound) :
    (st.settle line idx forWrite).sound := by
  unfold State.settle
  extract_lets e1 owned1 part1 st1
  have h1 : st1.sound := by
    unfold st1
    refine each_sound (fun {s x} hs => ?_) _ h
    split
    · exact hs.of (setEntry_mem ..)
    · extract_lets ws1 st2 st3
      have h1 : st2.sound := (applyCells_sound hs).of (yieldWords_mem ..)
      have h2 : st3.sound := (((h1.of (squashHit_mem ..)).of (strike_mem ..)).of (dropSpans_mem ..)).ite h1
      exact h2.of (setEntry_mem ..)
  exact h1.ite ((combineNow_sound h1).of (setEntry_mem ..))

theorem engineRead_sound {st t : State} {a n : Nat} {pcie : Bool} {key : List Nat} {bs : List Byte} (h : st.sound)
    (e : st.engineRead a n pcie key = some (bs, t)) :
    t.sound := h.of (engineRead_mem e)

theorem putCells_sound {st : State} {line : Nat} {cells : Tab Byte} {pcie : Bool} {k : Option Nat} (h : st.sound) :
    (st.putCells line cells pcie k).sound :=
  ((h.of (postWrite_mem ..)).ite (applyCells_sound h)).ite (applyCells_sound ((h.of (setMesi_mem ..)).ite h))

theorem writeLine_sound {st : State} {line : Nat} {cells : Tab Byte} {cls owner : Nat} {keep : Option Agent}
    {by_ : Option Nat} {pcie : Bool} (h : st.sound) :
    (st.writeLine line cells cls owner keep by_ pcie).sound :=
  (putCells_sound ((settle_sound h).of (writeThrough_mem ..))).of (countAccess_mem ..)

theorem engineWrite_sound {st t : State} {cells : Tab Byte} {cls owner : Nat} {pcie : Bool} {key : List Nat}
    (h : st.sound) (e : st.engineWrite cells cls owner pcie key = some t) :
    t.sound := by
  unfold State.engineWrite at e
  split at e
  · cases e; exact h
  · split at e
    · split at e
      split at e
      · cases e
        exact (writeLine_sound h).of (leavePlaces_mem ..)
      · cases e
        exact (((putCells_sound ((settle_sound h).of (writeThrough_mem ..))).of (setEntry_mem ..)).of (send_mem
          ..)).of
          (leavePlaces_mem ..)
    · cases e

theorem putHostCells_sound {st : State} {line : Nat} {cells : Tab Byte} {pcie : Bool} {k cls owner : Nat}
    {atomics : List Nat} (h : st.sound) :
    (st.putHostCells line cells pcie k cls owner atomics).sound := by
  unfold State.putHostCells
  extract_lets words1 at1
  split
  · exact each_sound (fun h0 => (applyCells_sound h0).ite (putCells_sound h0)) _ h
  · clear_value words1
    split
    · exact h
    · exact (putCells_sound h).ite (((putCells_sound h).of (setEntry_mem ..)).of (send_mem ..))

theorem applyPiece_sound {st : State} {p : Packet} (h : st.sound) : (st.applyPiece p).sound := by
  unfold State.applyPiece
  split
  extract_lets idx1 by_1 st1 left1 st2
  have h1 : st1.sound := putCells_sound (h.of (writeThrough_mem ..))
  split
  · exact ((h1.of (setEntry_mem ..)).of (dropPacket_mem ..)).of (countAccess_mem ..)
  · exact ((h1.of (setEntry_mem ..)).update).of (owe_mem ..)

/-! ### Translate: what writes the memory -/

theorem setLeafBit_sound {st : State} {addr bit : Nat} (h : st.sound) : (st.setLeafBit addr bit).sound :=
  h.ite ((writeLine_sound h).of (noteAtomic_mem ..))

theorem translate_sound {st : State} {source lkey va : Nat} {acc : Access} {sv : Bool} {tag : Option Nat} (h : st.sound)
    :
    (st.translate source lkey va acc sv tag).2.sound := by
  unfold State.translate
  extract_lets found1
  have h1 : found1.2.sound := by
    unfold found1
    split
    · exact h
    · split
      · exact h
      · split
        · exact h
        · split
          · exact h
          · exact (setLeafBit_sound h).update
  clear_value found1
  split
  · exact h1
  · split
    · split
      · exact (setLeafBit_sound h1).update
      · exact h1.update
    · exact h1

/-! ### Traps: what writes the memory -/

theorem writeRecord_sound {st t : State} {k : Nat} {i : TrapInfo} (h : st.sound) (e : st.writeRecord k i = some t) :
    t.sound := by
  unfold State.writeRecord at e
  extract_lets va1 at e
  split at e
  · cases e
  · split at e
    · cases e
    · extract_lets a1 bytes1 st1 at e
      split at e
      · cases e
      · cases e
        exact applyCells_sound (((translate_sound h).of_snd ‹_›).of (writeThrough_mem ..))

theorem machineCheck_sound {st : State} {k addr : Nat} {fpc : Word} {recorded : Bool} (h : st.sound) :
    (st.machineCheck k addr fpc recorded).sound := by
  unfold State.machineCheck
  extract_lets st1 t1 i1 st2 st3
  have h1 : st1.sound := h.of (discardAll_mem ..)
  have h2 : st2.sound := by
    unfold st2
    split
    · cases e : st1.writeRecord k i1 with
      | none => exact h1
      | some t => exact writeRecord_sound h1 e
    · exact h1
  have h3 : st3.sound := (h2.of (kill_mem ..)).of (reportSecurity_mem ..)
  exact (h3.of (owe_mem ..)).ite h3

theorem fetchLine_sound {st : State} {k : Nat} {sv : Bool} {pc : Nat} (h : st.sound) :
    (st.fetchLine k sv pc).2.sound := by
  unfold State.fetchLine
  extract_lets t1
  split
  · exact h
  · split
    · exact (translate_sound h).of_snd ‹_›
    · extract_lets a1
      split
      · exact (translate_sound h).of_snd ‹_›
      · exact ((translate_sound h).of_snd ‹_›).of (setStrand_mem ..)

theorem enterTrap_sound {st : State} {k : Nat} (h : st.sound) : (st.enterTrap k).sound := by
  unfold State.enterTrap
  split
  · exact h
  · split
    · exact machineCheck_sound h
    · have h1 := writeRecord_sound h ‹_›
      exact (machineCheck_sound h1).ite (h1.of (setStrand_mem ..))

theorem raiseIn_sound {st : State} {k id cause addr : Nat} {fpc : Word} (h : st.sound) :
    (st.raiseIn k id cause addr fpc).sound := by
  unfold State.raiseIn
  extract_lets t1
  split
  · exact h.of (kill_mem ..)
  · split
    · exact enterTrap_sound ((h.of (discard_mem ..)).of (setStrand_mem ..))
    · exact ((h.of (discard_mem ..)).of (setStrand_mem ..)).of (owe_mem ..)

theorem raise_sound {st : State} {cause addr : Nat} (h : st.sound) : (st.raise cause addr).sound := raiseIn_sound h

theorem raiseAt_sound {st : State} {cause addr : Nat} {fpc : Word} (h : st.sound) : (st.raiseAt cause addr fpc).sound :=
  raiseIn_sound h

/-! ### Issue: what writes the memory -/

theorem checked_sound {st : State} {g : Guard} {on : Bool} {n : Needs} {body : State → State} (h : st.sound)
    (hbody : ∀ {s}, s.sound → (body s).sound) :
    (st.checked g on n body).sound := by
  unfold State.checked
  split
  · exact raise_sound h
  · split
    · exact h.of (finish_mem ..)
    · split
      · exact raise_sound h
      · split
        · exact raise_sound h
        · split
          · exact raise_sound h
          · exact hbody h

theorem issue_keeps {st : State} {g : Guard} {on : Bool} {n : Needs} {body : State → State} (h : st.sound)
    (hbody : ∀ {s}, s.sound → (body s).sound) :
    Keeps (st.issue g on n body) :=
  Keeps.ite (.fault) (.next (checked_sound (h.of (openChunk_mem ..)) (fun h0 => hbody h0)))

theorem scalar_keeps {st : State} {g : Guard} {n : Needs} {body : State → State} (h : st.sound)
    (hbody : ∀ {s}, s.sound → (body s).sound) :
    Keeps (st.scalar g n body) := issue_keeps h (fun h0 => hbody h0)

theorem vector_keeps {st : State} {g : Guard} {t : Nat} {n : Needs} {body : State → State} (h : st.sound)
    (hbody : ∀ {s}, s.sound → (body s).sound) :
    Keeps (st.vector g t n body) := issue_keeps h (fun h0 => hbody h0)

/-! ### Control: what writes the memory -/

theorem transfer_sound {st : State} {target : Nat} {sv isReg tgt taken : Bool} {done : State → State} (h : st.sound)
    (hdone : ∀ {s}, s.sound → (done s).sound) :
    (st.transfer target sv isReg tgt taken done).sound := by
  unfold State.transfer
  split
  · exact raise_sound h
  · split
    · exact raise_sound h
    · extract_lets pc1 moved1
      have h1 : moved1.sound := h.of (setMe_mem ..)
      split
      · exact raiseAt_sound ((fetchLine_sound h1).of_snd ‹_›)
      · split
        · exact raiseAt_sound ((fetchLine_sound h1).of_snd ‹_›)
        · exact hdone ((((fetchLine_sound h1).of_snd ‹_›).ite (((fetchLine_sound h1).of_snd ‹_›).of (setMe_mem
            ..))).of
          (setPc_mem ..))

theorem jumpBy_sound {st : State} {o : Ops} (h : st.sound) : (st.jumpBy o).sound := by
  unfold State.jumpBy
  split
  · exact raise_sound h
  · exact transfer_sound h (fun h0 => h0.of (retire_mem ..))

theorem execJ_keeps {o : Ops} {st : State} (h : st.sound) : Keeps (execJ o st) :=
  scalar_keeps h (fun h0 => transfer_sound h0 (fun h1 => h1.of (retire_mem ..)))

theorem execJr_keeps {o : Ops} {st : State} (h : st.sound) : Keeps (execJr o st) :=
  scalar_keeps h (fun h0 => transfer_sound h0 (fun h1 => h1.of (retire_mem ..)))

theorem execCall_keeps {o : Ops} {st : State} (h : st.sound) : Keeps (execCall o st) := by
  unfold execCall
  refine scalar_keeps h (fun {s1} hs1 => ?_)
  split
  · exact transfer_sound (hs1.of (writeS_mem ..)) (fun h0 => h0.of (retire_mem ..))
  · exact raise_sound hs1

theorem execCallReg_keeps {o : Ops} {st : State} (h : st.sound) : Keeps (execCallReg o st) := by
  unfold execCallReg
  refine scalar_keeps h (fun {s1} hs1 => ?_)
  split
  · exact transfer_sound (hs1.of (writeS_mem ..)) (fun h0 => h0.of (retire_mem ..))
  · exact raise_sound hs1

theorem execRet_keeps {o : Ops} {st : State} (h : st.sound) : Keeps (execRet o st) :=
  scalar_keeps h (fun h0 => transfer_sound h0 (fun h1 => h1.of (retire_mem ..)))

theorem execLoop_keeps {o : Ops} {st : State} (h : st.sound) : Keeps (execLoop o st) :=
  scalar_keeps h (fun h0 => ((h0.of (writeS_mem ..)).of (finish_mem ..)).ite (jumpBy_sound (h0.of (writeS_mem ..))))

theorem execWait_keeps {o : Ops} {st : State} (h : st.sound) : Keeps (execWait o st) :=
  scalar_keeps h (fun h0 => ((h0.of (clearMarks_mem ..)).of (finish_mem ..)).ite h0)

theorem execYield_keeps {o : Ops} {st : State} (h : st.sound) : Keeps (execYield o st) :=
  scalar_keeps h (fun h0 => ((h0.of (finish_mem ..)).of (setMe_mem ..)).of (owe_mem ..))

theorem execYieldExpiry_keeps {k : Nat} {st : State} (h : st.sound) : Keeps (execYieldExpiry k st) :=
  Keeps.ite (.fault) (Keeps.ite (.next (h.of (owe_mem ..))) (.next (h.of (resumeFrom_mem ..))))

theorem execTrap_keeps {o : Ops} {st : State} (h : st.sound) : Keeps (execTrap o st) :=
  scalar_keeps h (fun h0 => (h0.of (endChunk_mem ..)).ite (h0.ite (raise_sound h0)))

theorem execInstructionLimitChunkEnd_keeps {k : Nat} {st : State} (h : st.sound) :
    Keeps (execInstructionLimitChunkEnd k st) := by
  unfold execInstructionLimitChunkEnd
  split
  · exact .fault
  · split
    · exact Keeps.ite (.next (h.of (seal_mem ..))) (.next h)
    · exact .next h

theorem execEret_keeps {o : Ops} {st : State} (h : st.sound) : Keeps (execEret o st) :=
  scalar_keeps h (fun h0 => transfer_sound h0 (fun h1 => (h1.of (setMe_mem ..)).of (retire_mem ..)))

theorem execInvp_keeps {o : Ops} {st : State} (h : st.sound) : Keeps (execInvp o st) := by
  unfold execInvp
  extract_lets scope1 regs1
  refine scalar_keeps h (fun h0 => (raise_sound h0).ite ((((h0.of (hold_mem ..)).of (finish_mem ..)).of (setMe_mem
    ..)).of (endChunk_mem ..)))

theorem execHaltRelease_keeps {k : Nat} {resume : Bool} {st : State} (h : st.sound) :
    Keeps (execHaltRelease k resume st) :=
  Keeps.ite (.fault) (Keeps.ite (.next h) (Keeps.ite (.next (h.of (setStrand_mem ..))) (.next (h.of (kill_mem ..)))))

/-! ### Access: what writes the memory -/

theorem translateAll_sound {st : State} {w : Who} {va n : Nat} {acc : Access} (h : st.sound) :
    (st.translateAll w va n acc).2.2.sound := by
  unfold State.translateAll
  refine foldl_sound_thd (fun {r x} hr => ?_) _ h
  split
  · exact ((translate_sound hr).of_snd ‹_›).of (park_mem ..)
  · exact ((translate_sound hr).of_snd ‹_›).of (noteUsed_mem ..)

theorem resolveMemory_sound {st : State} {w : Who} {va n : Nat} {acc : Access} {join : Bool} (h : st.sound) :
    (st.resolveMemory w va n acc join).2.sound := by
  unfold State.resolveMemory
  split
  · exact (translateAll_sound h).of_thd ‹_›
  · split
    · exact (translateAll_sound h).of_thd ‹_›
    · exact (translateAll_sound h).of_thd ‹_›

theorem noteWindowStore_sound {st : State} {w : Who} {va n : Nat} (h : st.sound) : (st.noteWindowStore w va n).sound :=
  each_sound (fun h0 => (translate_sound h0).ite h0) _ h

theorem resolveWindow_sound {st : State} {who : Who} {upto bank w va n : Nat} {acc : Access} {join : Bool}
    {locs written : List Nat} (h : st.sound) :
    (st.resolveWindow who upto bank w va n acc join locs written).2.sound := by
  unfold State.resolveWindow
  split
  · exact h
  · split
    · exact h
    · extract_lets st1 st2 fills1 ok1
      have h1 : st1.sound := (noteWindowStore_sound h).ite h
      have h2 : st2.sound := h1.of (notePages_mem ..)
      split
      · exact h2
      · split
        · exact (translateAll_sound h2).of_thd ‹_›
        · split
          · exact (translateAll_sound h2).of_thd ‹_›
          · exact ((translateAll_sound h2).of_thd ‹_›).of (setBank_mem ..)

theorem resolveAperture_sound {st : State} {who : Who} {upto va n : Nat} {acc : Access} {written : Nat → List Nat}
    (h : st.sound) :
    (st.resolveAperture who upto va n acc written).2.sound := by
  unfold State.resolveAperture
  split
  · exact h
  · extract_lets b1
    split
    split
    · exact h
    · split
      · exact h
      · split
        · exact h
        · split
          · exact h
          · split
            · exact h
            · exact resolveWindow_sound h

theorem resolveOne_sound {st : State} {who : Who} {upto va n : Nat} {acc : Access} {join : Bool}
    {written : Nat → List Nat} (h : st.sound) :
    (st.resolveOne who upto va n acc join written).2.sound := by
  unfold State.resolveOne
  split
  · exact h
  · split
    · exact h
    · split
      · exact h
      · exact resolveWindow_sound h
    · split
      · split
        · exact h
        · exact resolveAperture_sound h
      · split
        · exact h
        · exact resolveMemory_sound h

theorem resolveSpan_sound {st : State} {who : Who} {m : MemOp} {first len : Nat} (h : st.sound) :
    (st.resolveSpan who m first len).2.2.sound := by
  unfold State.resolveSpan
  extract_lets written1
  split
  · exact (resolveOne_sound h).of_snd ‹_›
  · exact (resolveOne_sound h).of_snd ‹_›
  · exact (resolveOne_sound h).of_snd ‹_›

theorem resolveAll_sound {st : State} {k id : Nat} {m : MemOp} (h : st.sound) : (st.resolveAll k id m).2.2.sound := by
  unfold State.resolveAll
  extract_lets who1 first1 len1
  split
  · exact resolveSpan_sound h
  · refine foldl_sound_thd (fun {r x} hr => ?_) _ h
    split
    · exact (resolveOne_sound hr).of_snd ‹_›
    · exact (resolveOne_sound hr).of_snd ‹_›
    · exact (resolveOne_sound hr).of_snd ‹_›

theorem perform_sound {st : State} {k id : Nat} {m : MemOp} (h : st.sound) : (st.perform k id m).sound := by
  unfold State.perform
  split
  · exact ((resolveAll_sound h).of_thd ‹_›).of (setChunkOf_mem ..)
  · exact raiseIn_sound ((resolveAll_sound h).of_thd ‹_›)
  · extract_lets st1
    have h1 : st1.sound := ((resolveAll_sound h).of_thd ‹_›).of (taken_mem ..)
    exact (raiseIn_sound h1).ite ((h1.of (setChunkOf_mem ..)).ite (h1.of (performAt_mem ..)))

theorem performAgain_sound {st : State} {k id : Nat} {m : MemOp} (h : st.sound) : (st.performAgain k id m).sound :=
  perform_sound (h.of (setChunkOf_mem ..))

/-! ### Memory: what writes the memory -/

theorem whenFits_sound {st : State} {m : MemOp} {body : State → State} (h : st.sound)
    (hbody : ∀ {s}, s.sound → (body s).sound) :
    (st.whenFits m body).sound := (hbody h).ite ((h.of (endChunk_mem ..)).ite h)

theorem issueLoad_sound {st : State} {regs : List Nat} {fin : Fin} {m : MemOp} {acquire ends : Bool} (h : st.sound) :
    (st.issueLoad regs fin m acquire ends).sound := by
  unfold State.issueLoad
  split
  · exact h
  · extract_lets id1 m1 writes1 st1 st2 st3
    have h1 : st1.sound := (h.of (issueOp_mem ..)).of (finish_mem ..)
    have h2 : st2.sound := (h1.of (setChunkOf_mem ..)).ite h1
    have h3 : st3.sound := (h2.of (endChunk_mem ..)).ite h2
    exact perform_sound h3

theorem issueStore_sound {st : State} {m : MemOp} {sys : Bool} (h : st.sound) : (st.issueStore m sys).sound := by
  unfold State.issueStore
  extract_lets m1 counts1
  split
  · exact h
  · split
    · exact h.of (stallSt_mem ..)
    · refine whenFits_sound h (fun h0 => perform_sound ((((((h0.of (issueOp_mem ..)).ite h0).of (finish_mem ..)).of
      (setChunkOf_mem ..)).of (endChunk_mem ..)).ite ((((h0.of (issueOp_mem ..)).ite h0).of (finish_mem ..)).of
      (setChunkOf_mem ..))))

theorem loadForm_keeps {st : State} {o : Ops} {aligned acq stale ldl drop : Bool} (h : st.sound) :
    Keeps (st.loadForm o aligned acq stale ldl drop) :=
  scalar_keeps h (fun h0 => (raise_sound h0).ite ((raise_sound h0).ite (issueLoad_sound h0)))

theorem storeForm_keeps {st : State} {o : Ops} {sys : Bool} (h : st.sound) : Keeps (st.storeForm o sys) :=
  scalar_keeps h (fun h0 => (raise_sound h0).ite ((raise_sound h0).ite (issueStore_sound h0)))

theorem execAmo_keeps {o : Ops} {st : State} (h : st.sound) : Keeps (execAmo o st) :=
  scalar_keeps h (fun h0 => (raise_sound h0).ite ((raise_sound h0).ite (whenFits_sound h0 (fun h1 => issueLoad_sound
    h1))))

theorem execRed_keeps {o : Ops} {st : State} (h : st.sound) : Keeps (execRed o st) :=
  scalar_keeps h (fun h0 => (raise_sound h0).ite ((raise_sound h0).ite (issueStore_sound h0)))

/-! ### Home: what writes the memory -/

theorem rejectRead_sound {st : State} {p : Packet} (h : st.sound) : (st.rejectRead p).sound := by
  unfold State.rejectRead
  extract_lets st1
  have h1 : st1.sound := h.of (dropPacket_mem ..)
  split
  · refine each_sound (fun {s x} hs => ?_) _ h1
    split
    · exact hs
    · exact raiseIn_sound hs
  · split
    · exact raiseIn_sound h1
    · exact (raiseIn_sound h1).ite h1

theorem loseAccess_sound {st : State} {p : Packet} (h : st.sound) : (st.loseAccess p).sound := by
  unfold State.loseAccess
  extract_lets op1 origin1 who1 st1
  have h1 : st1.sound := h.of (dropPacket_mem ..)
  clear_value who1
  split
  · exact machineCheck_sound h1
  · exact h1

theorem execHomeReadRequest_keeps {id : Nat} {st : State} (h : st.sound) : Keeps (execHomeReadRequest id st) := by
  unfold execHomeReadRequest
  refine .next ?_
  split
  · exact h
  · extract_lets idx1 alone1 bit1
    split
    · exact rejectRead_sound h
    · split
      · exact loseAccess_sound h
      · split
        · exact ((h.of (woundAll_mem ..)).ite h).of (squash_mem ..)
        · split
          · exact ((h.of (woundAll_mem ..)).ite h).of (waitAtHome_mem ..)
          · split
            · exact (((h.of (woundAll_mem ..)).ite h).of (bringWords_mem ..)).of (waitAtHome_mem ..)
            · split
              · exact (((h.of (woundAll_mem ..)).ite h).of (askHost_mem ..)).of (waitAtHome_mem ..)
              · refine State.sound.of ?_ (send_mem ..)
                exact (((((h.of (woundAll_mem ..)).ite h).of (evictEntry_mem ..)).of (dropPacket_mem ..)).of
                  (countAccess_mem ..)).of (setEntry_mem ..)

theorem execHomeOwnershipRequest_keeps {id : Nat} {st : State} (h : st.sound) :
    Keeps (execHomeOwnershipRequest id st) := by
  unfold execHomeOwnershipRequest
  refine .next ?_
  split
  · exact h
  · split
    · exact applyPiece_sound h
    · extract_lets idx1
      split
      · exact h.of (dropPacket_mem ..)
      · extract_lets refused1
        split
        · exact raiseIn_sound (h.of (dropPacket_mem ..))
        · split
          · exact loseAccess_sound h
          · split
            · exact (h.of (woundAll_mem ..)).of (squash_mem ..)
            · split
              · exact (h.of (woundAll_mem ..)).of (waitAtHome_mem ..)
              · split
                · exact ((((h.of (woundAll_mem ..)).of (dropPacket_mem ..)).of (register_mem ..)).of (grantWords_mem
                  ..)).of (evictEntry_mem ..)
                · split
                  · exact ((h.of (woundAll_mem ..)).of (bringWords_mem ..)).of (waitAtHome_mem ..)
                  · split
                    · exact ((h.of (woundAll_mem ..)).of (askHost_mem ..)).of (waitAtHome_mem ..)
                    · exact ((((h.of (woundAll_mem ..)).of (dropPacket_mem ..)).of (setEntry_mem ..)).of
                      (grantWords_mem ..)).of (evictEntry_mem ..)

theorem deliverPosted_sound {st : State} {p : Packet} (h : st.sound) : (st.deliverPosted p).sound := by
  unfold State.deliverPosted
  split
  · exact h.of (owe_mem ..)
  · extract_lets src1
    have h1 : src1.sound := h.of (dropPacket_mem ..)
    exact writeCells_wf _ _ h

theorem execHomeWriteBack_keeps {id : Nat} {st : State} (h : st.sound) : Keeps (execHomeWriteBack id st) := by
  unfold execHomeWriteBack
  refine .next ?_
  split
  · exact h
  · exact (deliverPosted_sound h).ite (((applyCells_sound (h.of (dropPacket_mem ..))).of (countAccess_mem ..)).of
    (setEntry_mem ..))

theorem execRecallAnswer_keeps {id : Nat} {st : State} (h : st.sound) : Keeps (execRecallAnswer id st) := by
  unfold execRecallAnswer
  refine .next ?_
  split
  · exact h
  · exact (h.of (owe_mem ..)).ite ((applyCells_sound (h.of (dropPacket_mem ..))).of (setEntry_mem ..))

theorem execInvalidationArrival_keeps {id : Nat} {st : State} (h : st.sound) : Keeps (execInvalidationArrival id st) :=
    by
  unfold execInvalidationArrival
  refine .next ?_
  split
  · exact h
  · exact (h.of (owe_mem ..)).ite ((((h.of (dropPacket_mem ..)).of (dropSpans_mem ..)).of (strike_mem ..)).of
    (squashHit_mem ..))

theorem execRecallArrival_keeps {id : Nat} {st : State} (h : st.sound) : Keeps (execRecallArrival id st) := by
  unfold execRecallArrival
  refine .next ?_
  split
  · exact h
  · split
    · exact h.of (owe_mem ..)
    · extract_lets forWrite1 whole1 cells1 rest1 restCells1 st1 st2 st3
      have h1 : st1.sound := (h.of (dropPacket_mem ..)).of (yieldWords_mem ..)
      have h2 : st3.sound := (((h1.of (dropSpans_mem ..)).of (strike_mem ..)).of (squashHit_mem ..)).ite h1
      exact (h2.ite (h2.of (sendHome_mem ..))).of (send_mem ..)

theorem fillWindow_sound {st : State} {p : Packet} {bank w : Nat} (h : st.sound) : (st.fillWindow p bank w).sound := by
  unfold State.fillWindow
  split
  next all t e =>
    have ht : t.sound := by
      split at e
      · cases e
        exact h
      · split at e
        · cases e
          exact h
        · cases e
          exact (show State.sound { st with mem := _ } from writeCells_wf _ _ h).of (setBank_mem ..)
    exact each_sound (fun h0 => each_sound (fun h1 => (h1.of (fillWatches_mem ..)).of (ready_mem ..)) _
      (h0.of (setStrand_mem ..))) _ ht

theorem execFillAnswer_keeps {id : Nat} {st : State} (h : st.sound) : Keeps (execFillAnswer id st) := by
  unfold execFillAnswer
  refine .next ?_
  split
  · exact h
  · split
    · exact h.of (owe_mem ..)
    · extract_lets st1
      have h1 : st1.sound := h.of (dropPacket_mem ..)
      split
      · exact h1.of (setChunkOf_mem ..)
      · split
        · exact fillWindow_sound h1
        · split
          · exact h1.of (storeFill_mem ..)
          · refine State.sound.of ?_ (ready_mem ..)
            refine State.sound.of ?_ (fillWatches_mem ..)
            exact (((h1.of (storeFill_mem ..)).of (setChunkOf_mem ..)).ite (h1.of (storeFill_mem ..))).of
              (setStrand_mem ..)

theorem execConfirmRequest_keeps {id : Nat} {st : State} (h : st.sound) : Keeps (execConfirmRequest id st) := by
  unfold execConfirmRequest
  refine .next ?_
  split
  · exact h
  · exact (h.of (waitAtHome_mem ..)).ite ((h.of (dropPacket_mem ..)).of (send_mem ..))

theorem execConfirmAnswer_keeps {id : Nat} {st : State} (h : st.sound) : Keeps (execConfirmAnswer id st) := by
  unfold execConfirmAnswer
  refine .next ?_
  split
  · exact h
  · split
    · exact h.of (owe_mem ..)
    · extract_lets st1
      have h1 : st1.sound := (h.of (dropPacket_mem ..)).of (setChunkOf_mem ..)
      split
      · exact h1
      · split
        · exact h1
        · split
          · exact ((h1.of (setStrand_mem ..)).of (noteReads_mem ..)).ite (h1.of (setStrand_mem ..))
          · exact h1.of (setStrand_mem ..)

theorem execCombineRequest_keeps {id : Nat} {st : State} (h : st.sound) : Keeps (execCombineRequest id st) := by
  unfold execCombineRequest
  refine .next ?_
  split
  · exact h
  · split
    · exact h.of (owe_mem ..)
    · split
      · extract_lets mine1 st1 st2
        have h1 : st1.sound := (h.of (dropPacket_mem ..)).of (setCluster_mem ..)
        have h2 : st2.sound := by
          unfold st2
          refine each_sound (fun {s x} hs => ?_) _ h1
          split
          · exact hs
          · exact hs.of (send_mem ..)
        exact each_sound (fun h0 => h0.of (endRegistration_mem ..)) _ h2
      · exact h.of (dropPacket_mem ..)

theorem execCombinePartialArrival_keeps {id : Nat} {st : State} (h : st.sound) :
    Keeps (execCombinePartialArrival id st) := by
  unfold execCombinePartialArrival
  refine .next ?_
  split
  · exact h
  · split
    · exact h.of (owe_mem ..)
    · extract_lets st1
      have h1 : st1.sound := h.of (dropPacket_mem ..)
      split
      · exact applyCells_sound h1
      · exact h1.of (setEntry_mem ..)

theorem forwardLine_sound {st : State} {line : Nat} (h : st.sound) : (st.forwardLine line).sound := by
  unfold State.forwardLine
  extract_lets bytes
  clear_value bytes
  exact writeBytes_wf _ _ _ h

theorem hostSnoop_sound {st : State} {i : Instr} {line : Nat} {next' : Mesi → Mesi} {inval : Bool} (h : st.sound) :
    (st.hostSnoop i line next' inval).sound := by
  unfold State.hostSnoop
  split
  · exact h.of (owe_mem ..)
  · extract_lets now1 st1
    have h1 : st1.sound := (forwardLine_sound h).ite h
    exact (h1.ite ((h1.of (uncache_mem ..)).of (snoopSquash_mem ..))).ite (h1.of (setMesi_mem ..))

theorem execHostCxlMemRead_keeps {pkg addr size : Nat} {caches : Bool} {st : State} (h : st.sound) :
    Keeps (execHostCxlMemRead pkg addr size caches st) := by
  unfold execHostCxlMemRead
  -- The region stays a name of its own: the kernel would else evaluate it at the address.
  obtain ⟨region, e⟩ : ∃ f, f = State.regionAt := ⟨_, rfl⟩
  rw [← e]
  refine .ite .fault ?_
  extract_lets a key st1
  have h1 : st1.sound := (each_sound (fun h0 => h0.of (countAccess_mem ..)) _ h).of (leavePlaces_mem ..)
  split
  · exact .ite (.next ((h.of (hostWait_mem ..)).of (owe_mem ..))) (.next ((h1.of (setPkg_mem ..)).ite h1))
  · exact .ite (.next ((h.of (hostWait_mem ..)).of (owe_mem ..))) (.next ((h1.of (setPkg_mem ..)).ite h1))
  · exact .next h

theorem hostStore_sound {st : State} {a : Nat} {data : List Byte} (h : st.sound) : (st.hostStore a data).sound := by
  unfold State.hostStore
  extract_lets a1 cells1
  exact writeCells_wf _ _ h

theorem execHostCxlMemWrite_keeps {pkg addr : Nat} {data : List Byte} {st : State} (h : st.sound) :
    Keeps (execHostCxlMemWrite pkg addr data st) := by
  unfold execHostCxlMemWrite
  obtain ⟨region, e⟩ : ∃ f, f = State.regionAt := ⟨_, rfl⟩
  rw [← e]
  refine .ite .fault ?_
  extract_lets a key st1
  have h1 : st1.sound := h.of (leavePlaces_mem ..)
  have h2 : ∀ {s : State} {c : Prop} [Decidable c] {f l cells i o}, s.sound →
      ((if c then s.setPkg pkg f else s).writeLine l cells i o none none).sound := fun h0 =>
    writeLine_sound ((h0.of (setPkg_mem ..)).ite h0)
  split
  · exact .ite (.next ((h.of (hostWait_mem ..)).of (owe_mem ..))) (.next (each_sound h2 _ h1))
  · exact .ite (.next ((h.of (hostWait_mem ..)).of (owe_mem ..))) (.next (each_sound h2 _ h1))
  · exact .next (hostStore_sound h)
  · exact .next h

theorem execBackInvalidationAnswer_keeps {pkg line : Nat} {data : List Byte} {st : State} (h : st.sound) :
    Keeps (execBackInvalidationAnswer pkg line data st) := by
  unfold execBackInvalidationAnswer
  split
  · exact .fault
  · exact Keeps.ite (.next h) (.next ((h.of (setPkg_mem ..)).ite (applyCells_sound ((h.of (setPkg_mem ..)).of
    (writeThrough_mem ..)))))

theorem hostRoomFor_sound {st : State} {line : Nat} (h : st.sound) : (st.hostRoomFor line).sound := by
  unfold State.hostRoomFor
  extract_lets p1 mine1
  split
  · exact h
  · split
    · exact h
    · exact ((forwardLine_sound h).ite h).of (uncache_mem ..)

theorem execCxlCacheGrant_keeps {pkg line : Nat} {exclusive : Bool} {data : List Byte} {st : State} (h : st.sound) :
    Keeps (execCxlCacheGrant pkg line exclusive data st) := by
  unfold execCxlCacheGrant
  split
  · exact .fault
  · split
    · exact .next h
    · extract_lets st1 fresh1 st2 bytes1
      have h1 : st1.sound := h.of (setPkg_mem ..)
      have h2 : st2.sound := hostRoomFor_sound (h1.of (setMesi_mem ..))
      exact .next ((h2.of (setPkg_mem ..)).ite h2)

/-! ### Windows: what writes the memory -/

theorem writeBackEntry_sound {st : State} {bank : Nat} {q : WinWrite} (h : st.sound) :
    (st.writeBackEntry bank q).2.sound := by
  unfold State.writeBackEntry
  split
  · exact h
  · exact translate_sound h

theorem bringOwned_sound {st : State} {bank line : Nat} {q : WinWrite} {mine : List Nat} {cells : Tab Byte}
    (h : st.sound) :
    (st.bringOwned bank line q mine cells).sound :=
  ((applyCells_sound h).of (countAccess_mem ..)).of (setEntry_mem ..)

theorem writeBackAt_sound {st : State} {bank : Nat} {q : WinWrite} {e : TlbEntry} {again : Instr} (h : st.sound) :
    (st.writeBackAt bank q e again).sound := by
  unfold State.writeBackAt
  extract_lets a1 cells1 owner1 ent1 idx1 mine1
  split
  split
  · exact h.of (owe_mem ..)
  · split
    · exact (h.of (snoopCells_mem ..)).of (owe_mem ..)
    · extract_lets st1
      have h1 : st1.sound := (engineWrite_sound h ‹_›).ite (bringOwned_sound (engineWrite_sound h ‹_›))
      exact ((h1.of (setBank_mem ..)).of (owe_mem ..)).ite ((h1.of (popWrite_mem ..)).of (endFlushes_mem ..))

theorem writeBackBank_sound {st : State} {bank : Nat} {again : Instr} (h : st.sound) :
    (st.writeBackBank bank again).sound := by
  unfold State.writeBackBank
  split
  · exact h
  · split
    · exact (h.of (popWrite_mem ..)).of (endFlushes_mem ..)
    · split
      · exact (h.of (owe_mem ..)).ite ((h.of (popWrite_mem ..)).of (endFlushes_mem ..))
      · split
        · split
          · exact (((writeBackEntry_sound h).of_snd ‹_›).of (popWrite_mem ..)).of (endFlushes_mem ..)
          · exact (((writeBackEntry_sound h).of_snd ‹_›).of (park_mem ..)).of (owe_mem ..)
        · extract_lets st1 a1 src1
          have h1 : st1.sound := ((writeBackEntry_sound h).of_snd ‹_›).of (taken_mem ..)
          exact (machineCheck_sound ((h1.of (popWrite_mem ..)).of (endFlushes_mem ..))).ite (writeBackAt_sound h1)

theorem execWindowWriteBack_keeps {core : Nat} {st : State} (h : st.sound) : Keeps (execWindowWriteBack core st) :=
  Keeps.ite (.fault) (Keeps.ite (.next (writeBackBank_sound h)) (.next (writeBackBank_sound h)))

theorem mapPages_sound {st : State} {g len : Nat} {ro : Bool} (h : st.sound) : (st.mapPages g len ro).2.sound := by
  unfold State.mapPages
  extract_lets t1 source1
  refine foldl_sound_snd (fun {r x} hr => ?_) _ h
  split
  · exact hr
  · exact hr
  · split
    · exact ((translate_sound hr).of_snd ‹_›).of (park_mem ..)
    · extract_lets st1
      have h1 : st1.sound := ((translate_sound hr).of_snd ‹_›).of (noteUsed_mem ..)
      split
      · exact h1
      · split
        · exact h1
        · exact h1

theorem execSpmap_keeps {o : Ops} {st : State} (h : st.sound) : Keeps (execSpmap o st) := by
  unfold execSpmap
  refine scalar_keeps h (fun {s1} hs1 => ?_)
  extract_lets w1 g1 p1 len1 b1
  split
  · exact raise_sound hs1
  · split
    · exact raise_sound hs1
    · split
      · exact raise_sound hs1
      · split
        · exact raise_sound hs1
        · split
          · exact (mapPages_sound hs1).of_snd ‹_›
          · exact raise_sound ((mapPages_sound hs1).of_snd ‹_›)
          · extract_lets cls1
            split
            · exact raise_sound ((mapPages_sound hs1).of_snd ‹_›)
            · split
              extract_lets x1
              refine State.sound.of ?_ (finish_mem ..)
              exact ((((((mapPages_sound hs1).of_snd ‹_›).of (taken_mem ..)).of (fresh_mem ..)).of_snd ‹_›).of
                (setBank_mem ..)).of (setChunk_mem ..)

theorem execSpflush_keeps {o : Ops} {st : State} (h : st.sound) : Keeps (execSpflush o st) := by
  unfold execSpflush
  refine scalar_keeps h (fun {s1} hs1 => ?_)
  split
  · exact hs1
  · extract_lets id1 seq1
    split
    exact ((((((hs1.of (fresh_mem ..)).of_snd ‹_›).of (issueOp_mem ..)).update).of (hold_mem ..)).of (finish_mem
      ..)).of (endChunk_mem ..)

theorem resolveWatches_sound {st : State} {body : State → State} (h : st.sound)
    (hbody : ∀ {s}, s.sound → (body s).sound) :
    (st.resolveWatches body).sound :=
  ((h.of (setChunk_mem ..)).of (askWatches_mem ..)).ite (hbody (h.of (setChunk_mem ..)))

theorem execChkw_keeps {o : Ops} {st : State} (h : st.sound) : Keeps (execChkw o st) :=
  scalar_keeps h (fun h0 => resolveWatches_sound h0 (fun h1 => (jumpBy_sound h1).ite (h1.of (finish_mem ..))))

theorem execWclr_keeps {o : Ops} {st : State} (h : st.sound) : Keeps (execWclr o st) :=
  scalar_keeps h (fun h0 => resolveWatches_sound h0 (fun h1 => (h1.of (setMe_mem ..)).of (finish_mem ..)))

theorem fenceForm_keeps {st : State} {o : Ops} {sys : Bool} (h : st.sound) : Keeps (st.fenceForm o sys) :=
  scalar_keeps h (fun h0 => (((h0.of (finish_mem ..)).of (setChunk_mem ..)).of (setMe_mem ..)).of (endChunk_mem ..))

theorem execJinit_keeps {o : Ops} {st : State} (h : st.sound) : Keeps (execJinit o st) :=
  scalar_keeps h (fun h0 => (raise_sound h0).ite ((raise_sound h0).ite (issueStore_sound h0)))

theorem execJarr_keeps {o : Ops} {st : State} (h : st.sound) : Keeps (execJarr o st) :=
  scalar_keeps h (fun h0 => (raise_sound h0).ite ((raise_sound h0).ite (whenFits_sound h0 (fun h1 => issueLoad_sound
    h1))))

theorem hintCheck_sound {st : State} {va : Nat} {win : Option (Nat × Nat)} (h : st.sound) :
    (st.hintCheck va win).2.sound := by
  unfold State.hintCheck
  split
  · exact (translate_sound h).of_snd ‹_›
  · extract_lets a1
    split
    · exact (translate_sound h).of_snd ‹_›
    · exact (translate_sound h).of_snd ‹_›

theorem hintLine_sound {st : State} {va : Nat} {body : State → HintAt → State} (h : st.sound)
    (hbody : ∀ {s x}, s.sound → (body s x).sound) :
    (st.hintLine va body).sound := by
  unfold State.hintLine
  extract_lets act1
  have h1 : ∀ {s1 x2 x3}, s1.sound → (act1 s1 x2 x3).sound := by
    intro s1 x2 x3 hs1
    unfold act1
    split
    · exact ((hintCheck_sound hs1).of_snd ‹_›).of (dropCheck_mem ..)
    · exact ((hintCheck_sound hs1).of_snd ‹_›).ite (hbody ((hintCheck_sound hs1).of_snd ‹_›))
  split
  · exact h.of (dropCheck_mem ..)
  · split
    · split
      · exact h.of (dropCheck_mem ..)
      · split
        · exact h1 h
        · exact (h.of (dropCheck_mem ..)).ite h
    · exact h1 h

theorem execPf_keeps {o : Ops} {st : State} (h : st.sound) : Keeps (execPf o st) :=
   scalar_keeps h (fun h0 => (each_sound (fun h1 => hintLine_sound h1 (fun h2 => (h2.of (prefetchL2_mem ..)).ite
     (h2.of
     (prefetchL1_mem ..)))) _ h0).of (finish_mem ..))

theorem execRes_keeps {o : Ops} {st : State} (h : st.sound) : Keeps (execRes o st) :=
  scalar_keeps h (fun h0 => (each_sound (fun h1 => hintLine_sound h1 (fun h2 => h2.of (residency_mem ..))) _ h0).of
    (finish_mem ..))

theorem execLoadDataReturn_keeps {k seq : Nat} {st : State} (h : st.sound) : Keeps (execLoadDataReturn k seq st) := by
  unfold execLoadDataReturn
  split
  · exact .fault
  · split
    · exact .next h
    · split
      · exact .next ((h.of (setOp_mem ..)).of (owe_mem ..))
      · exact .next (((h.of (setStrand_mem ..)).of (setStrand_mem ..)).of (markDead_mem ..))

theorem execStoreAcknowledgement_keeps {k seq : Nat} {st : State} (h : st.sound) :
    Keeps (execStoreAcknowledgement k seq st) :=
  Keeps.ite (.fault) (.next ((h.of (setStrand_mem ..)).of (wakeFence_mem ..)))

/-! ### Tile: what writes the memory -/

theorem execLease_keeps {o : Ops} {st : State} (h : st.sound) : Keeps (execLease o st) :=
  scalar_keeps h (fun h0 => (h0.of (finish_mem ..)).ite (h0.ite ((h0.of (setCluster_mem ..)).of (owe_mem ..))))

theorem execSlotClm_keeps {o : Ops} {st : State} (h : st.sound) : Keeps (execSlotClm o st) := by
  unfold execSlotClm
  extract_lets first1 count1
  refine scalar_keeps h (fun h0 => (((h0.of (setCluster_mem ..)).of (writeP_mem ..)).of (finish_mem ..)).ite ((h0.of
    (writeP_mem ..)).of (finish_mem ..)))

theorem execSlotRel_keeps {o : Ops} {st : State} (h : st.sound) : Keeps (execSlotRel o st) := by
  unfold execSlotRel
  extract_lets first1 count1
  refine scalar_keeps h (fun {s1} hs1 => ?_)
  extract_lets c1
  split
  · exact raise_sound hs1
  · exact (hs1.of (hold_mem ..)).of (finish_mem ..)

theorem leased_sound {st : State} {body : State → State} (h : st.sound) (hbody : ∀ {s}, s.sound → (body s).sound) :
    (st.leased body).sound :=
  (hbody (h.of (endTerm_mem ..))).ite ((h.of (endTerm_mem ..)).ite (raise_sound (h.of (endTerm_mem ..))))

theorem mmaForm_keeps {st : State} {o : Ops} {ta tb : Nat} {scaled : Bool} (h : st.sound) :
    Keeps (st.mmaForm o ta tb scaled) := by
  unfold State.mmaForm
  extract_lets a1 b1 slots1 accs1 lack1
  refine scalar_keeps h (fun {s1} hs1 => ?_)
  refine leased_sound hs1 (fun {s2} hs2 => ?_)
  extract_lets c1
  split
  · exact raise_sound hs2
  · exact hs2.of (issueTask_mem ..)

theorem engineRange_sound {st : State} {cluster lkey : Nat} {sv : Bool} {va n : Nat} {acc : Access} {tag : Nat}
    (h : st.sound) :
    (st.engineRange cluster lkey sv va n acc tag).2.sound := by
  unfold State.engineRange
  extract_lets source1
  refine foldl_sound_snd (fun {r x} hr => ?_) _ h
  split
  · split
    · exact ((translate_sound hr).of_snd ‹_›).of (park_mem ..)
    · split
      · exact (translate_sound hr).of_snd ‹_›
      · exact (translate_sound hr).of_snd ‹_›
  · exact hr

theorem mmvRows_sound {st : State} {cluster lkey : Nat} {sv : Bool} {base stride len first tag : Nat} (h : st.sound) :
    (st.mmvRows cluster lkey sv base stride len first tag).2.sound := by
  unfold State.mmvRows
  refine foldl_sound_snd (fun {r x} hr => ?_) _ h
  split
  · extract_lets va1
    split
    · exact hr
    · split
      · exact hr
      · split
        · exact (engineRange_sound hr).of_snd ‹_›
        · exact (engineRange_sound hr).of_snd ‹_›
  · exact hr

theorem execMmv_keeps {o : Ops} {st : State} (h : st.sound) : Keeps (execMmv o st) := by
  unfold execMmv
  extract_lets ty1 k1 x1 sw1
  refine scalar_keeps h (fun {s1} hs1 => ?_)
  refine leased_sound hs1 (fun {s2} hs2 => ?_)
  extract_lets base1 stride1
  split
  · exact raise_sound hs2
  · split
    · exact raise_sound hs2
    · split
      · exact raise_sound ((mmvRows_sound hs2).of_snd ‹_›)
      · exact (mmvRows_sound hs2).of_snd ‹_›
      · exact (((mmvRows_sound hs2).of_snd ‹_›).of (taken_mem ..)).of (issueTask_mem ..)

theorem execAccZero_keeps {o : Ops} {st : State} (h : st.sound) : Keeps (execAccZero o st) :=
  scalar_keeps h (fun h0 => leased_sound h0 (fun h1 => h1.of (issueTask_mem ..)))

theorem execAccRd_keeps {o : Ops} {st : State} (h : st.sound) : Keeps (execAccRd o st) := by
  unfold execAccRd
  extract_lets count1
  refine scalar_keeps h (fun {s1} hs1 => ?_)
  refine leased_sound hs1 (fun {s2} hs2 => ?_)
  split
  · exact raise_sound hs2
  · exact hs2
  · exact hs2.of (issueTask_mem ..)

theorem poolWrite_sound {st : State} {cells : Tab Byte} (h : st.sound) : (st.poolWrite cells).sound := by
  unfold State.poolWrite
  extract_lets st1 clusters1
  have h1 : st1.sound := by
    unfold st1
    exact writeCells_wf _ _ h
  exact h1.of (squashHit_mem ..)

theorem mmvAgain_sound {st : State} {cluster : Nat} {t : Task} (h : st.sound) : (st.mmvAgain cluster t).2.sound := by
  unfold State.mmvAgain
  split
  · split
    · exact h.of (endTask_mem ..)
    · split
      · exact ((mmvRows_sound h).of_snd ‹_›).of (taken_mem ..)
      · exact ((mmvRows_sound h).of_snd ‹_›).of (owe_mem ..)
      · exact (((mmvRows_sound h).of_snd ‹_›).of (kill_mem ..)).of (endTask_mem ..)
  · exact h

theorem execTileTaskIssue_keeps {cluster : Nat} {st : State} (h : st.sound) : Keeps (execTileTaskIssue cluster st) := by
  unfold execTileTaskIssue
  split
  · exact .fault
  · extract_lets st1 c1
    have h1 : st1.sound := h.of (endDisplacedLease_mem ..)
    split
    · exact .next h1
    · split
      · exact .next h1
      · split
        · exact .next ((mmvAgain_sound h1).of_snd ‹_›)
        · extract_lets st2
          have h2 : st2.sound := ((mmvAgain_sound h1).of_snd ‹_›).of (setCluster_mem ..)
          split
          · exact .next ((h2.of (setCluster_mem ..)).of (owe_mem ..))
          · exact .next (h2.of (owe_mem ..))

theorem setAccElem_sound {st : State} {cluster acc m n : Nat} {wide : Bool} {x : Nat} (h : st.sound) :
    (st.setAccElem cluster acc m n wide x).sound := by
  unfold State.setAccElem
  extract_lets a1
  exact writeBytes_wf _ _ _ h

theorem putResults_sound {st : State} {cluster : Nat} {t : Task} {wide isInt : Bool} {xs : List (Nat × Nat × Nat)}
    (h : st.sound) :
    (st.putResults cluster t wide isInt xs).sound := by
  unfold State.putResults
  extract_lets st1 marks1
  have h1 : st1.sound := each_sound (fun h0 => setAccElem_sound h0) _ h
  exact (h1.of (endTask_mem ..)).ite (h1.of (awaitAssist_mem ..))

theorem mmvStep_sound {st : State} {cluster : Nat} {t : Task} {ty v k x : Nat} {rows : List (List Nat)}
    {base stride : Nat} (h : st.sound) :
    (st.mmvStep cluster t ty v k x rows base stride).sound := by
  unfold State.mmvStep
  extract_lets put1
  have h1 : ∀ {s1 x2}, s1.sound → (put1 s1 x2).sound := by
    intro s1 x2 hs1
    unfold put1
    exact hs1.of (setCluster_mem ..)
  split
  · exact h.of (endTask_mem ..)
  · split
    · split
      split
      · exact (h.of (kill_mem ..)).of (endTask_mem ..)
      · split
        · exact (h1 (engineRead_sound h ‹_›)).of (owe_mem ..)
        · exact (h.of (snoopFor_mem ..)).of (owe_mem ..)
    · extract_lets u1
      split
      · split
        · exact (h1 (each_sound (fun h0 => setAccElem_sound h0) _ h)).of (endTask_mem ..)
        · exact (each_sound (fun h0 => setAccElem_sound h0) _ h).of (awaitAssist_mem ..)
      · split
        · exact (each_sound (fun h0 => setAccElem_sound h0) _ h).of (suspendMmv_mem ..)
        · exact (h1 (each_sound (fun h0 => setAccElem_sound h0) _ h)).of (owe_mem ..)

theorem rdStep_sound {st : State} {cluster : Nat} {t : Task} {dest first count : Nat} (h : st.sound) :
    (st.rdStep cluster t dest first count).sound :=
  (h.of (endTask_mem ..)).ite ((h.of (owe_mem ..)).ite (((poolWrite_sound h).of (setCluster_mem ..)).of (owe_mem ..)))

theorem execTileTaskComplete_keeps {cluster : Nat} {st : State} (h : st.sound) :
    Keeps (execTileTaskComplete cluster st) := by
  unfold execTileTaskComplete
  split
  · exact .fault
  · extract_lets c1
    split
    · exact .next h
    · split
      · exact .next (putResults_sound h)
      · exact .next (mmvStep_sound h)
      · refine .next ?_
        refine State.sound.of ?_ (endTask_mem ..)
        exact foldl_wf _ (fun _ _ hm => write_wf _ _ _ hm) _ _ h
      · exact .next ((rdStep_sound h).ite h)

theorem execSubnormalAssist_keeps {cluster : Nat} {st : State} (h : st.sound) :
    Keeps (execSubnormalAssist cluster st) := by
  unfold execSubnormalAssist
  split
  · exact .fault
  · extract_lets c1 waiting1
    split
    · exact .next ((h.of (endTask_mem ..)).ite ((h.of (endTask_mem ..)).of (owe_mem ..)))
    · exact .next (h.ite (h.of (owe_mem ..)))

/-! ### Engine: what writes the memory -/

theorem engineAt_sound {st : State} {x : EngCtx} {va : Nat} {acc : Access} (h : st.sound) :
    (st.engineAt x va acc).Sound := by
  unfold State.engineAt
  split
  · exact .wait (h.of (leavePlaces_mem ..))
  · split
    · split
      · exact .wait (((translate_sound h).of_snd ‹_›).of (leavePlaces_mem ..))
      · exact .wait (((translate_sound h).of_snd ‹_›).of (park_mem ..))
    · extract_lets st1
      have h1 : st1.sound := ((translate_sound h).of_snd ‹_›).of (taken_mem ..)
      split
      · exact .code (h1.of (leavePlaces_mem ..))
      · exact Eng.Sound.ite (.code (h1.of (leavePlaces_mem ..))) (.ok h1)

theorem engineLoad_sound {st : State} {x : EngCtx} {va n : Nat} (h : st.sound) : (st.engineLoad x va n).Sound := by
  unfold State.engineLoad
  split
  · exact .ok h
  · split
    · exact .code ((engineAt_sound h).of_code ‹_›)
    · exact .wait ((engineAt_sound h).of_wait ‹_›)
    · extract_lets k1
      split
      · exact .ok (engineRead_sound ((engineAt_sound h).of_ok ‹_›) ‹_›)
      · exact .wait (((engineAt_sound h).of_ok ‹_›).of (snoopFor_mem ..))

theorem engineStore_sound {st : State} {x : EngCtx} {va : Nat} {bs : List Byte} {keep : Nat → Bool} (h : st.sound) :
    (st.engineStore x va bs keep).Sound := by
  unfold State.engineStore
  split
  · exact Eng.Sound.ite (.wait h) (.ok (poolWrite_sound h))
  · split
    · exact .code ((engineAt_sound h).of_code ‹_›)
    · exact .wait ((engineAt_sound h).of_wait ‹_›)
    · extract_lets cells1
      split
      · exact .ok (engineWrite_sound ((engineAt_sound h).of_ok ‹_›) ‹_›)
      · exact .wait (((engineAt_sound h).of_ok ‹_›).of (snoopCells_mem ..))

theorem windowMailbox_sound {st : State} {x : EngCtx} {va word : Nat} (h : st.sound) :
    (st.windowMailbox x va word).Sound := by
  unfold State.windowMailbox
  extract_lets bank1 off1
  split
  · exact .ok h
  · extract_lets phys1
    split
    · exact .wait h
    · exact Eng.Sound.ite (.wait (h.of (snoopFor_mem ..))) (.ok (((poolWrite_sound h).of (applyWindow_mem ..)).of
      (leavePlaces_mem ..)))

theorem putMailbox_sound {st : State} {x : EngCtx} {mailbox : Option Nat} {word : Nat} (h : st.sound) :
    (st.putMailbox x mailbox word).Sound := by
  unfold State.putMailbox
  split
  · exact .wait h
  · split
    · exact .ok h
    · split
      · exact windowMailbox_sound h
      · exact .ok h
      · split
        · exact .ok ((engineStore_sound h).of_code ‹_›)
        · exact engineStore_sound h

theorem withMailbox_sound {st : State} {mailbox : Option Nat} {body : State → State} (h : st.sound)
    (hbody : ∀ {s}, s.sound → (body s).sound) :
    (st.withMailbox mailbox body).sound := by
  unfold State.withMailbox
  extract_lets who1
  split
  · exact hbody h
  · split
    · exact raise_sound h
    · split
      · exact raise_sound h
      · split
        · split
          · exact raise_sound ((resolveAperture_sound h).of_snd ‹_›)
          · exact (resolveAperture_sound h).of_snd ‹_›
          · exact hbody (((resolveAperture_sound h).of_snd ‹_›).of (taken_mem ..))
        · split
          · exact raise_sound ((resolveMemory_sound h).of_snd ‹_›)
          · exact (resolveMemory_sound h).of_snd ‹_›
          · extract_lets st1
            have h1 : st1.sound := ((resolveMemory_sound h).of_snd ‹_›).of (taken_mem ..)
            exact (hbody h1).ite (raise_sound h1)

theorem pagesOf_sound {st : State} {x : EngCtx} {va n : Nat} {acc : Access} (h : st.sound) :
    (st.pagesOf x va n acc).Sound := by
  unfold State.pagesOf
  split
  · exact .code h
  · split
    · exact .ok h
    · refine foldl_sound_eng (fun {r x} hr => ?_) _ (.ok h)
      split
      · split
        · exact .ok ((engineAt_sound (hr.of_ok rfl)).of_ok ‹_›)
        · exact .code ((engineAt_sound (hr.of_ok rfl)).of_code ‹_›)
        · exact .wait ((engineAt_sound (hr.of_ok rfl)).of_wait ‹_›)
      · exact hr

theorem readAll_sound {st : State} {x : EngCtx} {i va n : Nat} (h : st.sound) : (st.readAll x i va n).Sound := by
  unfold State.readAll
  extract_lets done1
  split
  · exact .ok h
  · split
    · exact .code h
    · split
      · exact .wait (((engineLoad_sound h).of_ok ‹_›).of (addBytes_mem ..))
      · exact engineLoad_sound h

theorem writeAll_sound {st : State} {x : EngCtx} {i va : Nat} {bs : List Byte} (h : st.sound) :
    (st.writeAll x i va bs).Sound := by
  unfold State.writeAll
  extract_lets done1
  split
  · exact .ok h
  · split
    · exact .code h
    · split
      · extract_lets st1
        have h1 : st1.sound := ((engineStore_sound h).of_ok ‹_›).of (addBytes_mem ..)
        exact Eng.Sound.ite (.ok h1) (.wait h1)
      · exact engineStore_sound h

theorem writeFirst_sound {st : State} {x : EngCtx} {i va : Nat} {bs : List Byte} (h : st.sound) :
    (st.writeFirst x i va bs).Sound := by
  unfold State.writeFirst
  split
  · exact .ok h
  · split
    · exact .wait ((writeAll_sound h).of_ok ‹_›)
    · exact writeAll_sound h

/-! ### Copy: what writes the memory -/

theorem issueCopy_sound {st : State} {o : Ops} {kind : CmdKind} (h : st.sound) : (st.issueCopy o kind).sound := by
  unfold State.issueCopy
  refine withMailbox_sound h (fun {s1} hs1 => ?_)
  extract_lets cl1
  split
  · exact hs1
  · split
    · exact hs1.of (queueCopy_mem ..)
    · split
      extract_lets cmd1 st1
      have h1 : st1.sound := ((hs1.of (fresh_mem ..)).of_snd ‹_›).of (issueOp_mem ..)
      exact (((h1.of (setCluster_mem ..)).of (hold_mem ..)).of (finish_mem ..)).of (endChunk_mem ..)

theorem execCopyCommandStart_keeps {cluster : Nat} {st : State} (h : st.sound) :
    Keeps (execCopyCommandStart cluster st) := by
  unfold execCopyCommandStart
  split
  · exact .fault
  · extract_lets c1
    split
    · exact .next h
    · split
      · exact .next ((h.of (setCluster_mem ..)).of (startCopy_mem ..))
      · split
        · exact .next h
        · exact Keeps.ite (.next h) (Keeps.ite (.next ((h.of (setCluster_mem ..)).of (startCopy_mem ..))) (.next (h.of
          (setCluster_mem ..))))

theorem endCopy_sound {st : State} {cluster : Nat} {m : Cmd} (h : st.sound) : (st.endCopy cluster m).sound := by
  unfold State.endCopy
  split
  · exact ((putMailbox_sound h).of_ok ‹_›).of (leaveCopy_mem ..)
  · exact ((putMailbox_sound h).of_code ‹_›).of (leaveCopy_mem ..)
  · exact ((putMailbox_sound h).of_wait ‹_›).of (leaveCopy_mem ..)
  · exact ((putMailbox_sound h).of_wait ‹_›).of (owe_mem ..)

theorem codeCopy_sound {st : State} {cluster : Nat} {m : Cmd} {code : Nat} (h : st.sound) :
    (st.codeCopy cluster m code).sound := endCopy_sound (h.of (drainCopy_mem ..))

theorem onAccess_sound {α : Type} {cluster : Nat} {m : Cmd} {r : Eng α} {done : α → State → State} (hr : r.Sound)
    (hd : ∀ {x s}, s.sound → (done x s).sound) :
    (State.onAccess cluster m r done).sound := by
  cases hr with
  | ok h => exact hd h
  | code h => exact codeCopy_sound h
  | @wait l t h =>
    cases l
    · exact h.of (nextPiece_mem ..)
    · exact (h.of (drainCopy_mem ..)).of (leaveCopy_mem ..)

theorem latch_sound {st : State} {cluster : Nat} {m : Cmd} {addr : Nat} {done : Cmd → State → State} (h : st.sound)
    (hdone : ∀ {x s}, s.sound → (done x s).sound) :
    (st.latch cluster m addr done).sound := by
  unfold State.latch
  extract_lets n1
  split
  · exact codeCopy_sound h
  · split
    · exact codeCopy_sound h
    · exact onAccess_sound (engineLoad_sound h) (fun h0 => (h0.of (nextPiece_mem ..)).ite (hdone h0))

theorem putSlotElem_sound {st : State} {cluster slot w row k code : Nat} (h : st.sound) :
    (st.putSlotElem cluster slot w row k code).sound := by
  unfold State.putSlotElem
  extract_lets a1
  split
  · exact write_wf _ _ _ h
  · exact writeBytes_wf _ _ _ h

theorem putPiece_sound {st : State} {cluster slot : Nat} {l : Layout} {i off : Nat} {bs : List Byte} (h : st.sound) :
    (st.putPiece cluster slot l i off bs).sound := by
  unfold State.putPiece
  split
  · exact each_sound (fun h0 => putSlotElem_sound h0) _ h
  · exact writeBytes_wf _ _ _ h

theorem zeroRest_sound {st : State} {cluster slot : Nat} {l : Layout} (h : st.sound) :
    (st.zeroRest cluster slot l).sound := by
  unfold State.zeroRest
  split
  next r c e =>
    extract_lets keep mem1 mem2
    have h1 : mem1.wf = true := foldl_wf _ (fun m b hm => by
      split
      · exact hm
      · exact write_wf _ _ _ hm) _ _ h
    show mem2.wf = true
    unfold mem2
    split
    · exact foldl_wf _ (fun m b hm => write_wf _ _ _ hm) _ _ h1
    · exact h1

theorem cpyInStep_sound {st : State} {cluster : Nat} {m : Cmd} {slot record : Nat} (h : st.sound) :
    (st.cpyInStep cluster m slot record).sound := by
  unfold State.cpyInStep
  extract_lets x1
  split
  · refine latch_sound h (fun {x2 s1} hs1 => ?_)
    extract_lets l1
    split
    split
    · exact codeCopy_sound hs1
    · split
      · exact codeCopy_sound hs1
      · exact hs1.of (nextPiece_mem ..)
  · split
    · exact onAccess_sound (engineLoad_sound h) (fun h0 => (putPiece_sound h0).of (nextPiece_mem ..))
    · split
      · refine onAccess_sound (engineLoad_sound h) (fun {x2 s1} hs1 => ?_)
        refine State.sound.of ?_ (nextPiece_mem ..)
        exact writeBytes_wf _ _ _ hs1
      · exact codeCopy_sound (zeroRest_sound h)

theorem execAccumulatorLastElementRead_keeps {cluster id : Nat} {st : State} (h : st.sound) :
    Keeps (execAccumulatorLastElementRead cluster id st) := by
  unfold execAccumulatorLastElementRead
  split
  · exact .fault
  · extract_lets c1
    split
    · exact .next ((h.of (setCluster_mem ..)).of (owe_mem ..))
    · split
      · exact .next h
      · split
        · split
          · exact .next h
          · split
            exact .next ((h.of (setCluster_mem ..)).of (nextPiece_mem ..))
        · exact .next h

theorem cpyOutStep_sound {st : State} {cluster : Nat} {m : Cmd} {ty : Nat} {sat : Bool} {record : Nat} (h : st.sound) :
    (st.cpyOutStep cluster m ty sat record).sound := by
  unfold State.cpyOutStep
  extract_lets x1
  split
  · refine latch_sound h (fun {x2 s1} hs1 => ?_)
    extract_lets l1
    split
    · exact codeCopy_sound hs1
    · split
      · exact codeCopy_sound hs1
      · exact (hs1.of (setActive_mem ..)).of (owe_mem ..)
  · exact (h.of (owe_mem ..)).ite ((onAccess_sound (engineStore_sound h) (fun h0 => h0.of (nextPiece_mem ..))).ite
    (codeCopy_sound h))

theorem cpyMStep_sound {st : State} {cluster : Nat} {m : Cmd} {src dst n : Nat} (h : st.sound) :
    (st.cpyMStep cluster m src dst n).sound := by
  unfold State.cpyMStep
  extract_lets x1
  split
  · split
    · exact codeCopy_sound h
    · split
      · exact codeCopy_sound h
      · exact (codeCopy_sound h).ite (h.of (nextPiece_mem ..))
  · split
    · exact codeCopy_sound h
    · split
      · exact onAccess_sound (engineLoad_sound h) (fun h0 => h0.of (nextPiece_mem ..))
      · exact onAccess_sound (engineStore_sound h) (fun h0 => h0.of (nextPiece_mem ..))

theorem nvFrames_sound {st : State} {x : EngCtx} {va n : Nat} (h : st.sound) : (st.nvFrames x va n).Sound := by
  unfold State.nvFrames
  refine foldl_sound_eng (fun {r x} hr => ?_) _ (.ok h)
  split
  · split
    · exact Eng.Sound.ite (.code ((engineAt_sound (hr.of_ok rfl)).of_ok ‹_›)) (.ok ((engineAt_sound (hr.of_ok
      rfl)).of_ok ‹_›))
    · exact .code ((engineAt_sound (hr.of_ok rfl)).of_code ‹_›)
    · exact .wait ((engineAt_sound (hr.of_ok rfl)).of_wait ‹_›)
  · exact hr

theorem nvSubmit_sound {st t : State} {cluster : Nat} {m : Cmd} {blocks : Nat} {frames : List Nat} (h : st.sound)
    (e : st.nvSubmit cluster m blocks frames = some t) :
    t.sound := by
  unfold State.nvSubmit at e
  extract_lets p q w port tail next' at_ a pcie at e
  clear_value pcie a
  split at e
  next entry r he =>
    extract_lets sent at e
    rw [Option.map_eq_some_iff] at e
    obtain ⟨s, hs, rfl⟩ := e
    have h1 : s.sound := by
      unfold sent at hs
      split at hs
      · cases hs
        exact writeBytes_wf _ _ _ h
      · split at hs
        · cases hs
          exact (writeLine_sound h).of (leavePlaces_mem ..)
        · cases hs
    exact (h1.update.of (setReg_mem ..)).of (setPkg_mem ..)

theorem cpyNvStep_sound {st : State} {cluster : Nat} {m : Cmd} {desc : Nat} (h : st.sound) :
    (st.cpyNvStep cluster m desc).sound := by
  unfold State.cpyNvStep
  obtain ⟨code, hc⟩ : ∃ f, f = State.nvCode := ⟨_, rfl⟩
  obtain ⟨submit, hs⟩ : ∃ f, f = State.nvSubmit := ⟨_, rfl⟩
  rw [← hc, ← hs]
  extract_lets x p q lba nlb mine full
  refine (latch_sound h fun h0 => h0.of (nextPiece_mem ..)).ite ?_
  split
  · split
    · exact codeCopy_sound h
    · exact onAccess_sound (nvFrames_sound h) fun h0 => h0.of (nextPiece_mem ..)
  · split
    · refine h.ite ((h.of (nextPiece_mem ..)).ite ?_)
      split
      next t ht =>
        rw [hs] at ht
        exact (nvSubmit_sound h ht).of (nextPiece_mem ..)
      · exact (h.of (snoopFor_mem ..)).of (nextPiece_mem ..)
    · exact (codeCopy_sound h).ite h

theorem execCopyCommandComplete_keeps {cluster id : Nat} {st : State} (h : st.sound) :
    Keeps (execCopyCommandComplete cluster id st) := by
  unfold execCopyCommandComplete
  split
  · exact .fault
  · split
    · exact .next (endCopy_sound h)
    · split
      · exact .next h
      · split
        · exact .next h
        · split
          · exact .next (codeCopy_sound h)
          · split
            · exact .next (cpyInStep_sound h)
            · exact .next (cpyOutStep_sound h)
            · exact .next (cpyMStep_sound h)
            · exact .next (cpyNvStep_sound h)
            · exact .next h

theorem execNvmeCompletionEntry_keeps {pkg queue cid status : Nat} {st : State} (h : st.sound) :
    Keeps (execNvmeCompletionEntry pkg queue cid status st) := by
  unfold execNvmeCompletionEntry
  split
  · exact .fault
  · split
    · exact .next ((h.of (consumeEntry_mem ..)).ite h)
    · extract_lets st1
      have h1 : st1.sound := h.of (consumeEntry_mem ..)
      exact Keeps.ite (.next (h1.of (readComplete_mem ..))) (.next (((h1.of (setPkg_mem ..)).of (changeActive_mem
        ..)).of (owe_mem ..)))

theorem execNvmeTimeout_keeps {pkg queue cid : Nat} {st : State} (h : st.sound) :
    Keeps (execNvmeTimeout pkg queue cid st) := by
  unfold execNvmeTimeout
  split
  · exact .fault
  · split
    · exact .next h
    · exact Keeps.ite (.next h) (.next (((h.of (setPkg_mem ..)).of (changeActive_mem ..)).of (owe_mem ..)))

theorem execNvmeControllerWrite_keeps {pkg offset : Nat} {data : List Byte} {st : State} (h : st.sound) :
    Keeps (execNvmeControllerWrite pkg offset data st) := by
  unfold execNvmeControllerWrite
  split
  · exact .fault
  · split
    · exact .next h
    · extract_lets n1 rest1
      have h1 : ∀ {s1}, s1.sound → (rest1 s1).sound := by
        intro s1 hs1
        unfold rest1
        exact (hs1.of (owe_mem ..)).ite hs1
      split
      · exact .next (h1 h)
      · extract_lets a1 owner1
        split
        · exact .next ((h.of (snoopCells_mem ..)).of (owe_mem ..))
        · exact .next (h1 ((engineWrite_sound h ‹_›).of (readComplete_mem ..)))

theorem execNvmeQueueEntryWrite_keeps {pkg queue word value : Nat} {st : State} (h : st.sound) :
    Keeps (execNvmeQueueEntryWrite pkg queue word value st) :=
  Keeps.ite (.fault) (Keeps.ite (.next h) (.next (((h.of (setReg_mem ..)).of (setReg_mem ..)).ite (h.of (setReg_mem
    ..)))))

/-! ### Courses: what writes the memory -/

theorem execCbegin_keeps {o : Ops} {st : State} (h : st.sound) : Keeps (execCbegin o st) := by
  unfold execCbegin
  refine scalar_keeps h (fun {s1} hs1 => ?_)
  split
  · exact hs1
  · split
    · exact ((hs1.of (reserveCourse_mem ..)).of_snd ‹_›).of (issueAnswer_mem ..)
    · exact (((hs1.of (reserveCourse_mem ..)).of_snd ‹_›).of (hold_mem ..)).of (issueAnswer_mem ..)

theorem execStc_keeps {o : Ops} {st : State} (h : st.sound) : Keeps (execStc o st) :=
   scalar_keeps h (fun h0 => (raise_sound h0).ite ((raise_sound h0).ite ((raise_sound h0).ite (h0.ite (perform_sound
     ((h0.of (issueOp_mem ..)).of (finish_mem ..)))))))

theorem execLay_keeps {o : Ops} {st : State} (h : st.sound) : Keeps (execLay o st) :=
  scalar_keeps h (fun h0 => (raise_sound h0).ite (h0.ite (((h0.of (hold_mem ..)).of (issueAnswer_mem ..)).of
    (endChunk_mem ..))))

theorem execAbandon_keeps {o : Ops} {st : State} (h : st.sound) : Keeps (execAbandon o st) :=
  scalar_keeps h (fun h0 => (raise_sound h0).ite (((h0.of (hold_mem ..)).of (finish_mem ..)).of (endChunk_mem ..)))

theorem execStcStagingArrival_keeps {pkg id : Nat} {st : State} (h : st.sound) :
    Keeps (execStcStagingArrival pkg id st) := by
  unfold execStcStagingArrival
  split
  · exact .fault
  · split
    · exact .next h
    · split
      · exact .next h.update
      · split
        · exact .next (h.of (owe_mem ..))
        · extract_lets st1 st2 c1
          have h1 : st1.sound := h.update
          have h2 : st2.sound := (h1.of (owe_mem ..)).ite h1
          split
          · exact .next h2
          · split
            · exact .next (((h2.of (setCourse_mem ..)).of (decideCourse_mem ..)).ite (h2.of (setCourse_mem ..)))
            · exact .next (h2.of (setStaging_mem ..))

theorem execCoursePrepare_keeps {pkg src num : Nat} {st : State} (h : st.sound) :
    Keeps (execCoursePrepare pkg src num st) := by
  unfold execCoursePrepare
  split
  · exact .fault
  · extract_lets c1
    split
    · exact .next h
    · split
      · exact .next h
      · split
        · exact .next (h.of (owe_mem ..))
        · split
          · exact .next ((h.of (setStaging_mem ..)).of (owe_mem ..))
          · split
            · exact .next ((((h.of (setStaging_mem ..)).of (lockWords_mem ..)).of (setStaging_mem ..)).of (owe_mem
                ..))
            · exact .next (((h.of (setStaging_mem ..)).of (lockWords_mem ..)).of (owe_mem ..))

theorem execCourseReadyReport_keeps {src num dst status : Nat} {st : State} (h : st.sound) :
    Keeps (execCourseReadyReport src num dst status st) := by
  unfold execCourseReadyReport
  split
  · exact .fault
  · split
    · exact .next h
    · split
      · exact .next (h.of (decideCourse_mem ..))
      · split
        · exact .next (h.of (decideCourse_mem ..))
        · exact .next (((h.of (setCourse_mem ..)).of (decideCourse_mem ..)).ite (h.of (setCourse_mem ..)))

theorem execCourseTimeout_keeps {src num : Nat} {st : State} (h : st.sound) : Keeps (execCourseTimeout src num st) :=
  Keeps.ite (.fault) (Keeps.ite (.next h) (Keeps.ite (.next (h.of (owe_mem ..))) (.next (h.of (decideCourse_mem
    ..)))))

theorem execCourseDecision_keeps {pkg src num : Nat} {st : State} (h : st.sound) :
    Keeps (execCourseDecision pkg src num st) := by
  unfold execCourseDecision
  refine .ite .fault (.ite (.next h) ?_)
  extract_lets _ _ st1 st2
  refine .ite (.next ((each_sound (fun h0 => ((h0.of (bringWords_mem ..)).of (askHost_mem ..)).ite (h0.of
    (bringWords_mem ..))) _ h).of
    (owe_mem ..))) (.next ?_)
  have h1 : st1.sound := each_sound (fun h0 => (h0.of (leavePlaces_mem ..)).ite h0) _ (h.of (unlock_mem ..))
  have h2 : st2.sound := State.sound.ite (each_sound (fun h0 => writeLine_sound h0) _ h1) h1
  exact (h2.of (setPkg_mem ..)).of (owe_mem ..)

theorem execCourseDecisionAck_keeps {src num dst : Nat} {st : State} (h : st.sound) :
    Keeps (execCourseDecisionAck src num dst st) :=
  Keeps.ite (.fault) (Keeps.ite (.next h) (.next (((h.of (setCourse_mem ..)).of (endCourse_mem ..)).ite (h.of
    (setCourse_mem ..)))))

/-! ### Messages: what writes the memory -/

theorem withPlace_sound {st : State} {va n : Nat} {acc : Access} {body : Spot → State → State} (h : st.sound)
    (hbody : ∀ {x s}, s.sound → (body x s).sound) :
    (st.withPlace va n acc body).sound := by
  unfold State.withPlace
  extract_lets who1
  split
  · exact raise_sound ((resolveOne_sound h).of_snd ‹_›)
  · exact (resolveOne_sound h).of_snd ‹_›
  · exact hbody (((resolveOne_sound h).of_snd ‹_›).of (taken_mem ..))

theorem writeBrick_sound {st : State} {brick : Nat} {words : List (List Byte)} {held : Option Held} (h : st.sound) :
    (st.writeBrick brick words held).sound := by
  unfold State.writeBrick
  extract_lets id1 m1 st1 waits1 st2 st3
  have h1 : st1.sound := h.of (setChunk_mem ..)
  have h2 : st2.sound := h1.of (hold_mem ..)
  have h3 : st3.sound := by
    unfold st3
    split
    · exact h2.of (hold_mem ..)
    · exact h2
  exact perform_sound (h3.of (endRun_mem ..))

theorem readJoin_sound {st : State} {join : Nat} {body : Nat → State → State} (h : st.sound)
    (hbody : ∀ {x s}, s.sound → (body x s).sound) :
    (st.readJoin join body).sound := by
  unfold State.readJoin
  split
  · exact (hbody (h.of (setMe_mem ..))).ite h
  · exact perform_sound (h.of (issueOp_mem ..))

theorem brickFits_sound {st : State} {brick : Nat} {body : State → State} (h : st.sound)
    (hbody : ∀ {s}, s.sound → (body s).sound) :
    (st.brickFits brick body).sound := whenFits_sound h (fun h0 => hbody h0)

theorem suspend_keeps {st : State} {o : Ops} {msg : Bool} (h : st.sound) : Keeps (st.suspend o msg) := by
  unfold State.suspend
  refine scalar_keeps h fun {s} hs => ?_
  extract_lets brick join finish
  have hfin : ∀ {cnt s}, s.sound → (finish cnt s).sound := fun {cnt s} hs => by
    unfold finish
    split
    · exact raise_sound hs
    · exact writeBrick_sound hs
  clear_value finish
  refine hs.ite ((raise_sound hs).ite (withPlace_sound hs fun h1 => ?_))
  extract_lets homed
  have hhome : ∀ {s body}, s.sound → (∀ {t}, t.sound → (body t).sound) → (homed s body).sound := fun {s body} hs hb =>
    (raise_sound hs).ite (brickFits_sound hs hb)
  clear_value homed
  exact (hhome h1 fun h2 => hfin h2).ite (withPlace_sound h1 fun h2 => hhome h2 fun h3 => readJoin_sound h3 fun h4 =>
    hfin h4)

theorem execQwait_keeps {o : Ops} {st : State} (h : st.sound) : Keeps (execQwait o st) := by
  unfold execQwait
  refine scalar_keeps h fun {s} hs => ?_
  extract_lets brick
  refine hs.ite ((raise_sound hs).ite (withPlace_sound hs fun h1 => (raise_sound h1).ite (brickFits_sound h1 fun h2
    => ?_)))
  split
  · exact raise_sound h2
  · exact writeBrick_sound h2

theorem sendTo_sound {st : State} {o : Ops} {bad : Option (Nat × Nat)} {ts : List Nat} (h : st.sound) :
    (st.sendTo o bad ts).sound := by
  unfold State.sendTo
  split
  · exact raise_sound h
  · extract_lets len payload go
    have hgo : ∀ time, (go time).sound := fun time => by
      unfold go
      have h1 := List.foldlRecOn (motive := State.sound) ts
        (fun st t => st.hold (.msg t (o.immBits 5 0) payload len (o.modBits 51 48) time)) h fun _ hs _ _ => hs.of
          (hold_mem ..)
      exact ((h1.of (finish_mem ..)).of (endChunk_mem ..)).ite (h1.of (finish_mem ..))
    split
    · split
      · exact hgo _
      · exact raise_sound h
    · exact hgo _

theorem execSend_keeps {o : Ops} {st : State} (h : st.sound) : Keeps (execSend o st) :=
   scalar_keeps h (fun h0 => ((raise_sound h0).ite ((raise_sound h0).ite ((((h0.of (hold_mem ..)).of (finish_mem
     ..)).of (endChunk_mem ..)).ite ((h0.of (hold_mem ..)).of (finish_mem ..))))).ite (sendTo_sound h0))

theorem execSendm_keeps {o : Ops} {st : State} (h : st.sound) : Keeps (execSendm o st) :=
  scalar_keeps h (fun h0 => (h0.of (finish_mem ..)).ite ((raise_sound h0).ite (sendTo_sound h0)))

theorem execHset_keeps {o : Ops} {st : State} (h : st.sound) : Keeps (execHset o st) :=
  scalar_keeps h (fun h0 => (raise_sound h0).ite ((raise_sound h0).ite ((h0.of (hold_mem ..)).of (finish_mem ..))))

/-! ### Experts: what writes the memory -/

theorem findGrow_sound {st : State} {name job : Nat} {named : Bool} {is : List Nat} (h : st.sound) :
    (st.findGrow name job named is).2.sound := by
  induction is generalizing st with
  | nil => exact h
  | cons i rest ih =>
    unfold State.findGrow
    split
    · exact h
    · split
      · exact (engineAt_sound h).of_wait ‹_›
      · have h1 := (engineAt_sound h).of_code ‹_›
        split
        · exact h1
        · exact ih h1
      · have h1 := (engineAt_sound h).of_ok ‹_›
        split
        · exact h1
        · exact ih h1

theorem lackOf_sound {st : State} {name job : Nat} (h : st.sound) : (st.lackOf name job).Sound := by
  unfold State.lackOf
  split
  · exact .ok h
  · split
    · split
      · exact .ok ((findGrow_sound h).of_snd ‹_›)
      · exact .wait ((findGrow_sound h).of_snd ‹_›)
      · exact .ok ((findGrow_sound h).of_snd ‹_›)
    · exact .ok h

theorem setDrop_sound {st : State} {x : EngCtx} {comb slot : Nat} (h : st.sound) : (st.setDrop x comb slot).Sound := by
  unfold State.setDrop
  split
  · exact .ok ((pagesOf_sound h).of_code ‹_›)
  · exact .wait ((pagesOf_sound h).of_wait ‹_›)
  · split
    · split
      · exact .ok ((writeLine_sound ((settle_sound ((pagesOf_sound h).of_ok ‹_›)).of (leavePlaces_mem ..))).of
        (noteAtomic_mem ..))
      · exact .wait (((pagesOf_sound h).of_ok ‹_›).of (snoopFor_mem ..))
    · exact .ok ((pagesOf_sound h).of_ok ‹_›)

theorem dropToken_sound {st : State} {x : EngCtx} {record : List Nat} (h : st.sound) : (st.dropToken x record).Sound :=
    by
  unfold State.dropToken
  extract_lets comb1 slot1
  split
  · exact .ok (h.update.of (toDomain_mem ..))
  · exact setDrop_sound h

theorem routeToken_sound {st : State} {name job : Nat} {record : List Nat} {q : Nat} (h : st.sound) :
    (st.routeToken name job record q).Sound := by
  unfold State.routeToken
  split
  · exact .ok h
  · extract_lets x1
    split
    · exact .ok (h.of (deliver_mem ..))
    · split
      · exact .code ((lackOf_sound h).of_code ‹_›)
      · exact .wait ((lackOf_sound h).of_wait ‹_›)
      · extract_lets drop1
        have h1 : ∀ {s1}, s1.sound → (drop1 s1).Sound := by
          intro s1 hs1
          unfold drop1
          split
          · extract_lets st1
            have h1 : st1.sound := (((dropToken_sound hs1).of_ok ‹_›).of (meetLack_mem ..)).of (setExpert_mem ..)
            exact .ok (h1.ite (h1.of (expertEvent_mem ..)))
          · exact dropToken_sound hs1
        split
        · split
          · exact .ok ((((writeAll_sound ((lackOf_sound h).of_ok ‹_›)).of_ok ‹_›).of (meetLack_mem ..)).of
            (setExpert_mem ..))
          · exact h1 ((writeAll_sound ((lackOf_sound h).of_ok ‹_›)).of_code ‹_›)
          · exact .wait ((writeAll_sound ((lackOf_sound h).of_ok ‹_›)).of_wait ‹_›)
        · exact h1 ((lackOf_sound h).of_ok ‹_›)

theorem routeEntry_sound {st : State} {name job : Nat} (h : st.sound) : (st.routeEntry name job).Sound := by
  unfold State.routeEntry
  split
  · exact .ok h
  · split
    · exact .ok h
    · split
      · exact .ok (h.of (setExpert_mem ..))
      · split
        · split
          · exact .ok (((lackOf_sound h).of_ok ‹_›).of (meetLack_mem ..))
          · exact .ok ((lackOf_sound h).of_code ‹_›)
          · exact .wait ((lackOf_sound h).of_wait ‹_›)
        · extract_lets head1
          split
          · exact .wait ((readAll_sound h).of_wait ‹_›)
          · exact .ok ((readAll_sound h).of_code ‹_›)
          · exact .ok (((((readAll_sound h).of_ok ‹_›).of (endJob_mem ..)).of (setExpert_mem ..)).of (deliver_mem ..))

theorem runToken_sound {st : State} {name : Nat} {e : Expert} {m : Msg} (h : st.sound) :
    (st.runToken name e m).sound := by
  unfold State.runToken
  extract_lets leave1
  have h1 : ∀ {s1}, s1.sound → (leave1 s1).sound := by
    intro s1 hs1
    unfold leave1
    exact ((hs1.of (receive_mem ..)).of (endJob_mem ..)).of (endEvent_mem ..)
  split
  · exact (h.of (setExpert_mem ..)).of (endEvent_mem ..)
  · split
    · exact ((routeToken_sound h).of_wait ‹_›).of (eventAgain_mem ..)
    · exact h1 ((routeToken_sound h).of_ok ‹_›)
    · exact h1 ((routeToken_sound h).of_code ‹_›)
    · exact h1 ((routeToken_sound h).of_wait ‹_›)

theorem endEx_sound {st : State} {c : Cmd} {name code value layst : Nat} (h : st.sound) :
    (st.endEx c name code value layst).sound := by
  unfold State.endEx
  extract_lets c1
  split
  · exact ((putMailbox_sound h).of_ok ‹_›).of (leaveEx_mem ..)
  · exact ((putMailbox_sound h).of_code ‹_›).of (leaveEx_mem ..)
  · exact ((putMailbox_sound h).of_wait ‹_›).of (leaveEx_mem ..)
  · exact ((putMailbox_sound h).of_wait ‹_›).of (again_mem ..)

theorem onEx_sound {α : Type} {c : Cmd} {name : Nat} {r : Eng α} {done : α → State → State} (hr : r.Sound)
    (hd : ∀ {x s}, s.sound → (done x s).sound) :
    (State.onEx c name r done).sound := by
  cases hr with
  | ok h => exact hd h
  | code h => exact endEx_sound h
  | @wait l t h =>
    cases l
    · exact h.of (again_mem ..)
    · exact h.of (leaveEx_mem ..)

theorem layoutOf_sound {st : State} {name job : Nat} (h : st.sound) : (st.layoutOf name job).Sound := by
  unfold State.layoutOf
  split
  · exact .code h
  · split
    · split
      · exact .ok ((readAll_sound h).of_ok ‹_›)
      · exact .code ((readAll_sound h).of_ok ‹_›)
    · exact .code ((readAll_sound h).of_code ‹_›)
    · exact .wait ((readAll_sound h).of_wait ‹_›)

theorem bufsFit_sound {st : State} {x : EngCtx} {n : Nat} {bufs : List Nat} (h : st.sound) :
    (st.bufsFit x n bufs).Sound := by
  unfold State.bufsFit
  refine foldl_sound_eng (fun {r x} hr => ?_) _ (.ok h)
  split
  · split
    · exact .ok ((pagesOf_sound (hr.of_ok rfl)).of_ok ‹_›)
    · exact .code ((pagesOf_sound (hr.of_ok rfl)).of_code ‹_›)
    · exact .wait ((pagesOf_sound (hr.of_ok rfl)).of_wait ‹_›)
  · exact hr

theorem runExdef_sound {st : State} {c : Cmd} {name template : Nat} (h : st.sound) :
    (st.runExdef c name template).sound := by
  unfold State.runExdef
  extract_lets x1
  split
  · exact endEx_sound h
  · split
    · exact endEx_sound h
    · refine onEx_sound (readAll_sound h) (fun {x2 s1} hs1 => ?_)
      extract_lets ws1
      split
      · exact endEx_sound hs1
      · refine onEx_sound (readAll_sound hs1) (fun {x3 s2} hs2 => ?_)
        split
        · exact endEx_sound hs2
        · refine onEx_sound (pagesOf_sound hs2) (fun h0 => (endEx_sound h0).ite (onEx_sound (bufsFit_sound h0) (fun h1
          => (endEx_sound h1).ite ((endEx_sound h1).ite (endEx_sound h1.update)))))

theorem runExload_sound {st : State} {c : Cmd} {desc table : Nat} (h : st.sound) : (st.runExload c desc table).sound :=
    by
  unfold State.runExload
  extract_lets x1 busy1
  split
  · exact h.of (again_mem ..)
  · split
    · exact endEx_sound h
    · refine onEx_sound (readAll_sound h) (fun h0 => (endEx_sound h0).ite ((endEx_sound h0).ite (onEx_sound
      (readAll_sound h0) (fun h1 => onEx_sound (readAll_sound h1) (fun h2 => endEx_sound (h2.of (setPkg_mem ..)))))))

theorem endExEvent_sound {st : State} {c : Cmd} {name code value : Nat} (h : st.sound) :
    (st.endExEvent c name code value).sound := endEx_sound (h.of (endEvent_mem ..))

theorem runExgrow_sound {st : State} {c : Cmd} {name entry : Nat} {e : Expert} (h : st.sound) :
    (st.runExgrow c name entry e).sound := by
  unfold State.runExgrow
  split
  · exact endExEvent_sound h
  · split
    · exact ((((findGrow_sound h).of_snd ‹_›).of (takeGrow_mem ..)).update).of (endEvent_mem ..)
    · exact endExEvent_sound ((findGrow_sound h).of_snd ‹_›)
    · exact endExEvent_sound ((findGrow_sound h).of_snd ‹_›)
    · exact (((findGrow_sound h).of_snd ‹_›).of (leaveEx_mem ..)).of (endEvent_mem ..)
    · exact ((findGrow_sound h).of_snd ‹_›).of (eventAgain_mem ..)

theorem runExretire_sound {st : State} {c : Cmd} {name entry : Nat} {e : Expert} (h : st.sound) :
    (st.runExretire c name entry e).sound := (endExEvent_sound h).ite (endExEvent_sound (h.of (retireReplica_mem ..)))

theorem failJoin_sound {st : State} {c : Cmd} {name entry code : Nat} (h : st.sound) :
    (st.failJoin c name entry code).sound := endEx_sound (h.of (setExpert_mem ..))

theorem onJoin_sound {α : Type} {c : Cmd} {name entry : Nat} {r : Eng α} {done : α → State → State} (hr : r.Sound)
    (hd : ∀ {x s}, s.sound → (done x s).sound) :
    (State.onJoin c name entry r done).sound := by
  cases hr with
  | ok h => exact hd h
  | code h => exact failJoin_sound h
  | @wait l t h =>
    cases l
    · exact h.of (again_mem ..)
    · exact (h.of (setExpert_mem ..)).of (leaveEx_mem ..)

theorem sendContribution_sound {st : State} {c : Cmd} {name grad entry : Nat} {e : Expert} (h : st.sound) :
    (st.sendContribution c name grad entry e).sound := by
  unfold State.sendContribution
  extract_lets x own arrive
  have harr : ∀ {s}, s.sound → (arrive s).sound := fun hs => hs.update.of (queueEvent_mem ..)
  clear_value arrive
  exact onJoin_sound (layoutOf_sound h) fun h0 => onJoin_sound (pagesOf_sound h0) fun h1 => onJoin_sound
    (pagesOf_sound h1) fun h2 =>
    onJoin_sound (readAll_sound h2) fun h3 => (onJoin_sound (readAll_sound h3) fun h4 =>
      onJoin_sound (writeFirst_sound h4) fun h5 => harr h5).ite (harr h3)

theorem addContribution_sound {st : State} {c : Cmd} {name entry : Nat} {hand : Bool} {e : Expert} (h : st.sound) :
    (st.addContribution c name entry hand e).sound := by
  unfold State.addContribution
  extract_lets own1 at_1 first1 gs1 written1
  have h1 : written1.Sound := by
    unfold written1
    split
    · exact writeAll_sound ((Eng.Sound.ite (.ok h) (readAll_sound h)).of_ok ‹_›)
    · exact .code ((Eng.Sound.ite (.ok h) (readAll_sound h)).of_code ‹_›)
    · exact .wait ((Eng.Sound.ite (.ok h) (readAll_sound h)).of_wait ‹_›)
  clear_value written1
  split
  · exact failJoin_sound ((h1.of_code rfl).of (endEvent_mem ..))
  · exact ((h1.of_wait rfl).of (endEvent_mem ..)).of (leaveEx_mem ..)
  · exact (h1.of_wait rfl).of (eventAgain_mem ..)
  · split
    · exact (h1.of_ok rfl).of (eventAgain_mem ..)
    · extract_lets st1 st2
      have h2 : st1.sound := (h1.of_ok rfl).of (setExpert_mem ..)
      have h3 : st2.sound := (h2.of (freeReplica_mem ..)).ite h2
      exact endExEvent_sound (h3.of (closeTest_mem ..))

theorem runExjoin_sound {st : State} {c : Cmd} {name entry : Nat} {hand : Bool} {e : Expert} (h : st.sound) :
    (st.runExjoin c name entry hand e).sound := by
  unfold State.runExjoin
  extract_lets member1 had1
  split
  · exact endExEvent_sound h
  · split
    · exact endExEvent_sound h
    · split
      · exact endExEvent_sound (h.of (freeReplica_mem ..))
      · split
        · exact endExEvent_sound h
        · exact (endExEvent_sound h).ite ((endExEvent_sound h).ite (((h.of (setExpert_mem ..)).of (endEvent_mem
            ..)).of
          (again_mem ..)))

theorem layUpdate_sound {st : State} {c : Cmd} {name : Nat} {e : Expert} (h : st.sound) :
    (st.layUpdate c name e).sound := by
  unfold State.layUpdate
  extract_lets x on
  have hon : ∀ {α : Type} {r : Eng α} {done : α → State → State}, r.Sound → (∀ {y s}, s.sound → (done y s).sound) →
      (on r done).sound := fun hr hd => by
    cases hr with
    | ok h => exact hd h
    | code h => exact h.of (queueEvent_mem ..)
    | @wait l t h =>
      cases l
      · exact h.of (again_mem ..)
      · exact h.of (leaveEx_mem ..)
  clear_value on
  refine h.ite (hon (layoutOf_sound h) fun h0 => hon (readAll_sound h0) fun h1 => hon ?_ fun h2 => ?_)
  · refine foldl_sound_eng (fun hr => ?_) _ (.ok h1)
    split
    · have h2 := hr.of_ok rfl
      split
      · exact .ok ((pagesOf_sound h2).of_ok ‹_›)
      · exact .code ((pagesOf_sound h2).of_code ‹_›)
      · exact .wait ((pagesOf_sound h2).of_wait ‹_›)
    · exact hr
  · split
    · exact (h2.of (mem_of_snd (reserveCourse_mem ..) ‹_›)).of (queueEvent_mem ..)
    · have h3 := h2.of (mem_of_snd (reserveCourse_mem ..) ‹_›)
      exact (((each_sound (fun h0 => each_sound (fun h1 => h1.of (sendStc_mem ..)) _ h0) _
        (h3.of (openCourse_mem ..))).of (setCourse_mem ..)).of (prepareCourse_mem ..)).update

theorem runExupd_sound {st : State} {c : Cmd} {name : Nat} {e : Expert} (h : st.sound) :
    (st.runExupd c name e).sound := by
  unfold State.runExupd
  split
  · exact endExEvent_sound h
  · split
    · exact endExEvent_sound h
    · exact (endExEvent_sound h).ite ((((h.of (closeTest_mem ..)).of (setExpert_mem ..)).of (endEvent_mem ..)).of
      (again_mem ..))

theorem runExspill_sound {st : State} {c : Cmd} {name : Nat} (h : st.sound) : (st.runExspill c name).sound := by
  unfold State.runExspill
  split
  · exact (((routeEntry_sound h).of_ok ‹_›).update).of (eventAgain_mem ..)
  · exact endExEvent_sound ((routeEntry_sound h).of_ok ‹_›)
  · exact endExEvent_sound ((routeEntry_sound h).of_code ‹_›)
  · exact (((routeEntry_sound h).of_wait ‹_›).of (endEvent_mem ..)).of (leaveEx_mem ..)
  · exact ((routeEntry_sound h).of_wait ‹_›).of (eventAgain_mem ..)

theorem runCommand_sound {st : State} {c : Cmd} {name : Nat} {e : Expert} (h : st.sound) :
    (st.runCommand c name e).sound := by
  unfold State.runCommand
  split
  · exact runExgrow_sound h
  · exact runExretire_sound h
  · exact runExjoin_sound h
  · exact runExupd_sound h
  · exact runExspill_sound h
  · exact h.of (endEvent_mem ..)

theorem runCopied_sound {st : State} {name i code : Nat} {e : Expert} (h : st.sound) :
    (st.runCopied name i code e).sound := by
  unfold State.runCopied
  refine (h.of (endEvent_mem ..)).ite ?_
  extract_lets cmd failed copied next' done
  have hf : failed.sound := (h.of (freeReplica_mem ..)).of (endEvent_mem ..)
  have hn : next'.sound := (((h.of (endJob_mem ..)).of (setExpert_mem ..)).of (insertEvents_mem ..)).of (endEvent_mem
    ..)
  have hd : done.sound := by
    unfold done
    split
    · exact hn.of (owe_mem ..)
    · exact hn
  clear_value cmd
  split
  · split
    · exact endEx_sound hf
    · exact hf
  · split
    · exact endEx_sound hd
    · exact hd

theorem runCourse_sound {st : State} {name code status : Nat} {e : Expert} (h : st.sound) :
    (st.runCourse name code status e).sound := by
  unfold State.runCourse
  split
  · exact h.of (endEvent_mem ..)
  · extract_lets st1
    have h1 : st1.sound := h.of (setExpert_mem ..)
    split
    · exact endEx_sound ((h1.of (beginCopies_mem ..)).of (endEvent_mem ..))
    · exact endEx_sound ((((h1.of (setExpert_mem ..)).of (insertEvents_mem ..)).of (beginCopies_mem ..)).of
      (endEvent_mem ..))

theorem runWindow_sound {st : State} {name : Nat} {d : Tab Nat} {e : Expert} (h : st.sound) :
    (st.runWindow name d e).sound := by
  unfold State.runWindow
  extract_lets total1 active1
  split
  · split
    · exact (((findGrow_sound h).of_snd ‹_›).of (takeGrow_mem ..)).of (endEvent_mem ..)
    · exact ((findGrow_sound h).of_snd ‹_›).of (eventAgain_mem ..)
    · exact ((findGrow_sound h).of_snd ‹_›).of (endEvent_mem ..)
  · split
    · split
      · exact (h.of (retireReplica_mem ..)).of (endEvent_mem ..)
      · exact h.of (endEvent_mem ..)
    · exact h.of (endEvent_mem ..)

theorem runSpill_sound {st : State} {name : Nat} (h : st.sound) : (st.runSpill name).sound := by
  unfold State.runSpill
  split
  · exact ((routeEntry_sound h).of_ok ‹_›).of (eventAgain_mem ..)
  · exact ((routeEntry_sound h).of_wait ‹_›).of (eventAgain_mem ..)
  · exact ((routeEntry_sound h).of_ok ‹_›).of (endEvent_mem ..)
  · exact ((routeEntry_sound h).of_code ‹_›).of (endEvent_mem ..)
  · exact ((routeEntry_sound h).of_wait ‹_›).of (endEvent_mem ..)

theorem runEvent_sound {st : State} {name : Nat} (h : st.sound) : (st.runEvent name).sound := by
  unfold State.runEvent
  split
  · exact h
  · split
    · exact h
    · split
      · exact runToken_sound h
      · exact h.of (endEvent_mem ..)
    · split
      · exact runCommand_sound h
      · exact h.of (endEvent_mem ..)
    · split
      · split
        · exact addContribution_sound h
        · exact h.of (endEvent_mem ..)
      · exact h.of (endEvent_mem ..)
    · exact runWindow_sound h
    · exact runCopied_sound h
    · exact runCourse_sound h
    · exact runSpill_sound h

theorem arrive_sound {st : State} {name : Nat} {v : ExEvent} (h : st.sound) : (st.arrive name v).sound :=
  (runEvent_sound (h.of (joinQueue_mem ..))).ite (h.of (joinQueue_mem ..))

theorem execTokenArrival_keeps {msg : Nat} {st : State} (h : st.sound) : Keeps (execTokenArrival msg st) := by
  unfold execTokenArrival
  refine .next ?_
  split
  · exact h
  · extract_lets name1 record1
    split
    · exact h.of (receive_mem ..)
    · split
      · split
        · exact ((dropToken_sound h).of_wait ‹_›).of (owe_mem ..)
        · exact ((dropToken_sound h).of_wait ‹_›).of (receive_mem ..)
        · exact ((dropToken_sound h).of_ok ‹_›).of (receive_mem ..)
        · exact ((dropToken_sound h).of_code ‹_›).of (receive_mem ..)
      · exact h.ite (arrive_sound h)

theorem runEx_sound {st : State} {c : Cmd} (h : st.sound) : (st.runEx c).sound := by
  unfold State.runEx
  extract_lets named
  have hn : ∀ {name goOn}, (∀ {e}, (goOn e).sound) → (named name goOn).sound := fun {name goOn} hg => by
    refine (endEx_sound h).ite ?_
    split
    · exact endEx_sound h
    · exact hg.ite (arrive_sound h)
  clear_value named
  split
  · exact (endEx_sound h).ite (runExdef_sound h)
  · exact (endEx_sound h).ite (runExload_sound h)
  · exact hn h
  · exact hn h
  · exact hn ((sendContribution_sound h).ite (arrive_sound h))
  · exact hn ((layUpdate_sound h).ite h)
  · exact hn h
  · exact h

theorem execContributionArrival_keeps {name cmd : Nat} {st : State} (h : st.sound) :
    Keeps (execContributionArrival name cmd st) := by
  unfold execContributionArrival
  split
  · exact .fault
  · split
    · exact .next h
    · exact Keeps.ite (.next (runEx_sound h)) (.next h)

theorem copyReplica_sound {st : State} {name i : Nat} {e : Expert} (h : st.sound) : (st.copyReplica name i e).sound :=
    by
  unfold State.copyReplica
  extract_lets x1 copied1
  have h1 : copied1.Sound := by
    unfold copied1
    split
    · split
      · split
        · split
          · exact writeFirst_sound ((writeFirst_sound ((readAll_sound ((layoutOf_sound h).of_ok ‹_›)).of_ok
              ‹_›)).of_ok
            ‹_›)
          · exact .ok ((writeFirst_sound ((readAll_sound ((layoutOf_sound h).of_ok ‹_›)).of_ok ‹_›)).of_ok ‹_›)
        · exact writeFirst_sound ((readAll_sound ((layoutOf_sound h).of_ok ‹_›)).of_ok ‹_›)
      · exact .code ((readAll_sound ((layoutOf_sound h).of_ok ‹_›)).of_code ‹_›)
      · exact .wait ((readAll_sound ((layoutOf_sound h).of_ok ‹_›)).of_wait ‹_›)
    · exact .code ((layoutOf_sound h).of_code ‹_›)
    · exact .wait ((layoutOf_sound h).of_wait ‹_›)
  clear_value copied1
  split
  · exact ((h1.of_wait rfl).of (dropGrow_mem ..)).of (freeReplica_mem ..)
  · exact (h1.of_wait rfl).of (owe_mem ..)
  · exact arrive_sound (h1.of_code rfl)
  · exact ((h1.of_ok rfl).of (owe_mem ..)).ite (arrive_sound (h1.of_ok rfl))

theorem execReplicaCopyComplete_keeps {name entry : Nat} {st : State} (h : st.sound) :
    Keeps (execReplicaCopyComplete name entry st) := by
  unfold execReplicaCopyComplete
  split
  · exact .fault
  · split
    · exact .next h
    · split
      · exact Keeps.ite (.next (runEvent_sound h)) (Keeps.ite (.next h) (Keeps.ite (.next h) (.next (copyReplica_sound
        h))))
      · exact Keeps.ite (.next h) (.next (copyReplica_sound h))

theorem execExupdCourseStatus_keeps {name status : Nat} {st : State} (h : st.sound) :
    Keeps (execExupdCourseStatus name status st) := by
  unfold execExupdCourseStatus
  split
  · exact .fault
  · split
    · exact .next h
    · split
      · exact Keeps.ite (.next (runEvent_sound h)) (.next h)
      · exact Keeps.ite (.next h) (.next (arrive_sound h))

theorem execLoadWindowEnd_keeps {pkg : Nat} {st : State} (h : st.sound) : Keeps (execLoadWindowEnd pkg st) :=
  Keeps.ite (.fault) (.next (each_sound (fun h0 => (arrive_sound (h0.of (setExpert_mem ..))).ite (h0.of (setExpert_mem
    ..))) _ h))

theorem issueEx_sound {st : State} {o : Ops} {kind : CmdKind} (h : st.sound) : (st.issueEx o kind).sound := by
  unfold State.issueEx
  refine withMailbox_sound h (fun {s1} hs1 => ?_)
  split
  · exact hs1
  · split
    exact ((((((hs1.of (fresh_mem ..)).of_snd ‹_›).of (issueOp_mem ..)).update).of (hold_mem ..)).of (finish_mem
      ..)).of (endChunk_mem ..)

theorem exForm_keeps {st : State} {o : Ops} {regs : List Nat} {kind : Nat → State → CmdKind} (h : st.sound) :
    Keeps (st.exForm o regs kind) := scalar_keeps h (fun h0 => (raise_sound h0).ite (issueEx_sound h0))

theorem execExrt_keeps {o : Ops} {st : State} (h : st.sound) : Keeps (execExrt o st) :=
  scalar_keeps h (fun h0 => (raise_sound h0).ite (h0.ite (h0.of (issueAgent_mem ..))))

/-! ### Gateways: what writes the memory -/

theorem scoreToken_sound {st : State} {m : Msg} {p g : Nat} {t : Gate} {r : Request} (h : st.sound) :
    (st.scoreToken m p g t r).Sound := by
  unfold State.scoreToken
  extract_lets x1
  split
  · exact .code h
  · split
    · exact .code ((readAll_sound h).of_code ‹_›)
    · exact .wait ((readAll_sound h).of_wait ‹_›)
    · extract_lets sel1 ws1 names1
      split
      · exact .code ((writeFirst_sound ((readAll_sound h).of_ok ‹_›)).of_code ‹_›)
      · exact .wait ((writeFirst_sound ((readAll_sound h).of_ok ‹_›)).of_wait ‹_›)
      · split
        · exact .wait ((writeFirst_sound ((readAll_sound h).of_ok ‹_›)).of_ok ‹_›)
        · refine .ok ?_
          refine each_sound (fun h0 => h0.of (sendToken_mem ..)) _ (((writeFirst_sound ((readAll_sound h).of_ok
            ‹_›)).of_ok ‹_›).of (endJob_mem ..))

theorem execScoringRequest_keeps {msg : Nat} {st : State} (h : st.sound) : Keeps (execScoringRequest msg st) := by
  unfold execScoringRequest
  refine .next ?_
  split
  · exact h
  · split
    · exact h.of (receive_mem ..)
    · extract_lets r1 again1
      have h1 : ∀ {x1 s2}, s2.sound → (again1 x1 s2).sound := by
        intro x1 s2 hs2
        unfold again1
        exact hs2.update.of (owe_mem ..)
      split
      · exact h.of (owe_mem ..)
      · split
        · exact h.of (receive_mem ..)
        · split
          · exact h.of (owe_mem ..)
          · split
            · exact h.of (receive_mem ..)
            · split
              · exact h.of (receive_mem ..)
              · split
                · exact h.of (receive_mem ..)
                · split
                  · exact (((scoreToken_sound h).of_ok ‹_›).of (receive_mem ..)).ite (h1 ((scoreToken_sound h).of_ok
                    ‹_›))
                  · exact ((scoreToken_sound h).of_code ‹_›).of (finishMsg_mem ..)
                  · exact ((scoreToken_sound h).of_wait ‹_›).of (finishMsg_mem ..)
                  · exact h1 ((scoreToken_sound h).of_wait ‹_›)

theorem readRows_sound {st : State} {x : EngCtx} {n i : Nat} {as : List Nat} (h : st.sound) :
    (st.readRows x n i as).Sound := by
  unfold State.readRows
  refine foldl_sound_eng (fun {r x} hr => ?_) _ (.ok h)
  split
  · split
    · exact .ok ((readAll_sound (hr.of_ok rfl)).of_ok ‹_›)
    · exact .code ((readAll_sound (hr.of_ok rfl)).of_code ‹_›)
    · exact .wait ((readAll_sound (hr.of_ok rfl)).of_wait ‹_›)
  · exact hr

theorem readRecord_sound {st : State} {x : EngCtx} {c : Combine} (h : st.sound) : (st.readRecord x c).Sound := by
  unfold State.readRecord
  split
  · exact readAll_sound h
  · exact Eng.Sound.ite (.ok h) (.ok (h.of (addBytes_mem ..)))

theorem tryCombine_sound {st : State} {p : Nat} {c : Combine} (h : st.sound) : (st.tryCombine p c).sound := by
  unfold State.tryCombine
  extract_lets x again on
  have hon : ∀ {α : Type} {r : Eng α} {done : α → State → State}, r.Sound → (∀ {y s}, s.sound → (done y s).sound) →
      (on r done).sound := fun hr hd => by
    cases hr with
    | ok h => exact hd h
    | code h => exact h.of (endCombine_mem ..)
    | @wait l t h =>
      cases l
      · exact h.of (owe_mem ..)
      · exact h.of (endCombine_mem ..)
  have hagain : ∀ {s}, s.sound → (again s).sound := fun h => h.of (owe_mem ..)
  clear_value on again
  refine hon (readRecord_sound h) fun h0 => (h0.of (endJob_mem ..)).ite (State.sound.ite (hon (readRows_sound h0) fun
    h1 => ?_)
    ((h0.of (endJob_mem ..)).ite (hon (writeFirst_sound h0) fun h1 =>
      (hagain h1).ite (hon (writeAll_sound h1) fun h2 => h2.of (endCombine_mem ..)))))
  split
  · exact (h1.of (toDomain_mem ..)).of (endCombine_mem ..)
  · exact hagain (h1.of (setCombines_mem ..))

theorem joinCombine_sound {st : State} {p : Nat} {key : Combine} {f : Combine → Combine} (h : st.sound) :
    (st.joinCombine p key f).sound := by
  unfold State.joinCombine
  split
  · exact tryCombine_sound (h.of (setCombines_mem ..))
  · split
    exact tryCombine_sound (((h.of (fresh_mem ..)).of_snd ‹_›).of (setCombines_mem ..))

theorem recordPage_sound {st : State} {m : Msg} {p g record : Nat} (h : st.sound) :
    (st.recordPage m p g record).Sound := by
  unfold State.recordPage
  split
  · exact .ok ((pagesOf_sound h).of_ok ‹_›)
  · exact .code ((pagesOf_sound h).of_code ‹_›)
  · exact .wait ((pagesOf_sound h).of_wait ‹_›)

theorem execCombineContribution_keeps {msg : Nat} {st : State} (h : st.sound) :
    Keeps (execCombineContribution msg st) := by
  unfold execCombineContribution
  refine .next ?_
  split
  · exact h
  next m _ =>
    split
    · exact h.of (receive_mem ..)
    next p0 g _ =>
      extract_lets _ _ again on hop _ _ _ _
      have hon : ∀ {α : Type} {r : Eng α} {done : α → State → State}, r.Sound → (∀ {y s}, s.sound → (done y s).sound)
        →
          (on r done).sound := fun hr hd => by
        cases hr with
        | ok h => exact hd h
        | code h => exact h.of (finishMsg_mem ..)
        | @wait l t h =>
          cases l
          · exact h.of (owe_mem ..)
          · exact h.of (finishMsg_mem ..)
      have hagain : ∀ {s}, s.sound → (again s).sound := fun h => h.of (owe_mem ..)
      have hhop : ∀ {home s}, s.sound → (hop home s).sound := fun h => hagain h.update
      clear_value on again hop
      split
      · exact hagain h
      · split
        · exact (hon (setDrop_sound h) fun h0 => h0.of (finishMsg_mem ..)).ite (hon (recordPage_sound h) fun h0 =>
            (hhop h0).ite (joinCombine_sound (h0.of (finishMsg_mem ..))))
        · split
          · exact h.of (receive_mem ..)
          · split
            · split
              · exact hagain h
              · exact joinCombine_sound h
            · exact hon (recordPage_sound h) fun h0 => (hhop h0).ite (joinCombine_sound h0)

theorem runMerge_sound {st : State} {p : Nat} {m : Merge} {ws : List Nat} {msg : Nat} (h : st.sound) :
    (st.runMerge p m ws msg).sound := by
  unfold State.runMerge
  extract_lets x d slots again on
  have hon : ∀ {α : Type} {r : Eng α} {done : α → State → State}, r.Sound → (∀ {y s}, s.sound → (done y s).sound) →
      (on r done).sound := fun hr hd => by
    cases hr with
    | ok h => exact hd h
    | code h => exact h.of (endMerge_mem ..)
    | @wait l t h =>
      cases l
      · exact h.of (owe_mem ..)
      · exact h.of (endMerge_mem ..)
  have hagain : ∀ {s}, s.sound → (again s).sound := fun h => h.of (owe_mem ..)
  clear_value on again
  exact hon (readRows_sound h) fun h0 => hon (writeFirst_sound h0) fun h1 => (hagain h1).ite (hon (writeFirst_sound
    h1) fun h2 =>
    hon (writeAll_sound h2) fun h3 => h3.of (endMerge_mem ..))

theorem joinMerge_sound {st : State} {m : Msg} {p g record row slot : Nat} {ws : List Nat} (h : st.sound) :
    (st.joinMerge m p g record row slot ws).sound := by
  unfold State.joinMerge
  extract_lets is1 sets1 old1
  split
  · exact h.of (finishMsg_mem ..)
  · split
    · exact ((pagesOf_sound h).of_code ‹_›).of (finishMsg_mem ..)
    · exact ((pagesOf_sound h).of_wait ‹_›).of (finishMsg_mem ..)
    · exact ((pagesOf_sound h).of_wait ‹_›).of (owe_mem ..)
    · split
      · exact (((pagesOf_sound h).of_ok ‹_›).of (markHeld_mem ..)).of (owe_mem ..)
      · extract_lets st1 st2
        have h1 : st1.sound := ((pagesOf_sound h).of_ok ‹_›).of (markHeld_mem ..)
        have h2 : st2.sound := h1.of (setMerges_mem ..)
        exact (runMerge_sound h2).ite (h2.of (endJob_mem ..))

theorem execMergeContribution_keeps {msg : Nat} {st : State} (h : st.sound) : Keeps (execMergeContribution msg st) := by
  unfold execMergeContribution
  refine .next ?_
  split
  · exact h
  · split
    · exact h.of (receive_mem ..)
    · extract_lets words w found
      clear_value found
      refine (h.of (owe_mem ..)).ite ((h.of (receive_mem ..)).ite (h.ite ?_))
      split
      · exact ((readAll_sound h).of_code ‹_›).of (finishMsg_mem ..)
      · exact ((readAll_sound h).of_wait ‹_›).of (finishMsg_mem ..)
      · exact ((readAll_sound h).of_wait ‹_›).of (owe_mem ..)
      · have h1 := (readAll_sound h).of_ok ‹_›
        split
        · exact runMerge_sound h1
        · split
          · have h2 := (recordPage_sound h1).of_ok ‹_›
            exact (h2.of (finishMsg_mem ..)).ite (joinMerge_sound h2)
          · exact ((recordPage_sound h1).of_code ‹_›).of (finishMsg_mem ..)
          · exact ((recordPage_sound h1).of_wait ‹_›).of (owe_mem ..)

/-! ### Apply: what writes the memory -/

theorem dropWindows_sound {st : State} {bank : Nat} {hit : Nat → Bool} (h : st.sound) :
    (st.dropWindows bank hit).sound := by
  unfold State.dropWindows
  extract_lets st1 b1 st2 source1
  have h1 : st1.sound := h.of (squashStores_mem ..)
  have h2 : st2.sound := each_sound (fun h0 => (((h0.of (queueWrites_mem ..)).of (clearWords_mem ..)).of (setBank_mem
    ..)).of (rebindFills_mem ..)) _ h1
  refine each_sound (fun {s x} hs => ?_) _ h2
  split
  · split
    · exact ((translate_sound hs).of_snd ‹_›).of (setBank_mem ..)
    · exact (translate_sound hs).of_snd ‹_›
  · exact hs

theorem dropTranslations_sound {st : State} {inScope : Nat → Bool} {hit : Nat → Nat → Nat → Bool} (h : st.sound) :
    (st.dropTranslations inScope hit).2.sound := (each_sound (fun h0 => dropWindows_sound h0) _ h).update

theorem applyInvp_sound {st : State} {k scope : Nat} {domain : Bool} {va key n : Nat} (h : st.sound) :
    (st.applyInvp k scope domain va key n).sound := ((dropTranslations_sound h).of (setStrand_mem ..)).of (owe_mem ..)

theorem execInvpCompletion_keeps {k : Nat} {st : State} (h : st.sound) : Keeps (execInvpCompletion k st) := by
  unfold execInvpCompletion
  split
  · exact .fault
  · split
    · exact .next h
    · exact Keeps.ite (.next ((h.of (setStrand_mem ..)).of (resumeFrom_mem ..))) (.next ((h.of (setStrand_mem ..)).of
      (owe_mem ..)))

theorem swapBrick_sound {st : State} {k lkey pkg job addr kind link : Nat} (h : st.sound) :
    (st.swapBrick k lkey pkg job addr kind link).Sound := by
  unfold State.swapBrick
  extract_lets x1
  split
  · exact .code h
  · split
    · exact .code ((engineAt_sound h).of_code ‹_›)
    · exact .wait ((engineAt_sound h).of_wait ‹_›)
    · split
      · exact .code (((engineAt_sound h).of_ok ‹_›).of (leavePlaces_mem ..))
      · split
        · exact .wait (((engineAt_sound h).of_ok ‹_›).of (snoopFor_mem ..))
        · extract_lets w01 w71 state1 found1
          split
          · exact .ok (((engineAt_sound h).of_ok ‹_›).of (leavePlaces_mem ..))
          · split
            · exact .code ((engineAt_sound ((engineAt_sound h).of_ok ‹_›)).of_code ‹_›)
            · exact .wait ((engineAt_sound ((engineAt_sound h).of_ok ‹_›)).of_wait ‹_›)
            · split
              · exact .wait (((engineAt_sound ((engineAt_sound h).of_ok ‹_›)).of_ok ‹_›).of (snoopFor_mem ..))
              · extract_lets line1 st1 st2
                have h1 : st1.sound := writeLine_sound ((engineAt_sound ((engineAt_sound h).of_ok ‹_›)).of_ok ‹_›)
                have h2 : st2.sound := ((h1.of (noteAtomic_mem ..)).of (leavePlaces_mem ..)).of (setLaunch_mem ..)
                exact .ok (h2.of (enqueueBrick_mem ..))

theorem actOnBrick_sound {st : State} {k lkey pkg addr kind link : Nat} (h : st.sound) :
    (st.actOnBrick k lkey pkg addr kind link).sound := by
  unfold State.actOnBrick
  split
  split
  · exact (swapBrick_sound ((h.of (fresh_mem ..)).of_snd ‹_›)).of_ok ‹_›
  · exact ((swapBrick_sound ((h.of (fresh_mem ..)).of_snd ‹_›)).of_code ‹_›).of (leaveBrick_mem ..)
  · exact (swapBrick_sound ((h.of (fresh_mem ..)).of_snd ‹_›)).of_wait ‹_›
  · exact (((swapBrick_sound ((h.of (fresh_mem ..)).of_snd ‹_›)).of_wait ‹_›).update).of (owe_mem ..)

theorem execBrickMessageArrival_keeps {msg : Nat} {st : State} (h : st.sound) :
    Keeps (execBrickMessageArrival msg st) := by
  unfold execBrickMessageArrival
  refine .next ?_
  split
  · exact h
  · extract_lets pkg1
    split
    · exact h
    · split
      · exact ((swapBrick_sound h).of_ok ‹_›).of (receive_mem ..)
      · exact (((swapBrick_sound h).of_code ‹_›).of (leaveBrick_mem ..)).of (receive_mem ..)
      · exact ((swapBrick_sound h).of_wait ‹_›).of (receive_mem ..)
      · exact ((swapBrick_sound h).of_wait ‹_›).of (owe_mem ..)

theorem applyLine_sound {st : State} {k line : Nat} {cells : Tab Byte} {cls : Nat} {pcie : Bool} {atomics : List Nat}
    (h : st.sound) :
    (st.applyLine k line cells cls pcie atomics).sound := by
  unfold State.applyLine
  extract_lets ws1
  split
  · exact h.of (applyPeer_mem ..)
  · refine State.sound.of ?_ (countAccess_mem ..)
    split
    · refine putHostCells_sound ((((((((h.of (setCore_mem ..)).of (setDie_mem ..)).ite (h.of (setCore_mem ..))).ite
      ((((h.of (setCore_mem ..)).of (setDie_mem ..)).ite (h.of (setCore_mem ..))).of (writeThrough_mem ..))).ite
      (((((h.of (setCore_mem ..)).of (setDie_mem ..)).ite (h.of (setCore_mem ..))).ite ((((h.of (setCore_mem ..)).of
      (setDie_mem ..)).ite (h.of (setCore_mem ..))).of (writeThrough_mem ..))).of (writeThrough_mem ..))).of
      (dropLocal_mem ..)).of (conflict_mem ..)).ite (((((h.of (setCore_mem ..)).of (setDie_mem ..)).ite (h.of
      (setCore_mem ..))).ite ((((h.of (setCore_mem ..)).of (setDie_mem ..)).ite (h.of (setCore_mem ..))).of
      (writeThrough_mem ..))).ite (((((h.of (setCore_mem ..)).of (setDie_mem ..)).ite (h.of (setCore_mem ..))).ite
      ((((h.of (setCore_mem ..)).of (setDie_mem ..)).ite (h.of (setCore_mem ..))).of (writeThrough_mem ..))).of
      (writeThrough_mem ..))))
    · refine applyCells_sound ((((((((h.of (setCore_mem ..)).of (setDie_mem ..)).ite (h.of (setCore_mem ..))).ite
      ((((h.of (setCore_mem ..)).of (setDie_mem ..)).ite (h.of (setCore_mem ..))).of (writeThrough_mem ..))).ite
      (((((h.of (setCore_mem ..)).of (setDie_mem ..)).ite (h.of (setCore_mem ..))).ite ((((h.of (setCore_mem ..)).of
      (setDie_mem ..)).ite (h.of (setCore_mem ..))).of (writeThrough_mem ..))).of (writeThrough_mem ..))).of
      (dropLocal_mem ..)).of (conflict_mem ..)).ite (((((h.of (setCore_mem ..)).of (setDie_mem ..)).ite (h.of
      (setCore_mem ..))).ite ((((h.of (setCore_mem ..)).of (setDie_mem ..)).ite (h.of (setCore_mem ..))).of
      (writeThrough_mem ..))).ite (((((h.of (setCore_mem ..)).of (setDie_mem ..)).ite (h.of (setCore_mem ..))).ite
      ((((h.of (setCore_mem ..)).of (setDie_mem ..)).ite (h.of (setCore_mem ..))).of (writeThrough_mem ..))).of
      (writeThrough_mem ..))))

theorem applyPool_sound {st : State} {k : Nat} {cells : Tab Byte} (h : st.sound) : (st.applyPool k cells).sound := by
  unfold State.applyPool
  extract_lets st1 places1
  have h1 : st1.sound := by
    unfold st1
    exact writeCells_wf _ _ h
  exact each_sound (fun h0 => h0.of (applyWindow_mem ..)) _ h1

theorem applyStores_sound {st : State} {k : Nat} {c : Chunk} (h : st.sound) : (st.applyStores k c).sound := by
  unfold State.applyStores
  extract_lets dropped1
  split
  extract_lets cells1 memory1 st1 st2 st3
  have h1 : st1.sound := each_sound (fun h0 => applyLine_sound h0) _ h
  have h2 : st2.sound := applyPool_sound h1
  have h3 : st3.sound := by
    unfold st3
    refine each_sound (fun {s x} hs => ?_) _ h2
    split
    · exact (hs.of (applyRed_mem ..)).ite hs
    · exact hs
  exact each_sound (fun h0 => actOnBrick_sound h0) _ h3

theorem applyHeld_sound {st : State} {k lkey : Nat} {c : Chunk} {held : Held} (h : st.sound) :
    (st.applyHeld k lkey c held).sound := by
  unfold State.applyHeld
  split
  · exact h.of (applyDrop_mem ..)
  · exact h.of (unmapNow_mem ..)
  · exact h.of (setControl_mem ..)
  · exact (h.of (setHandler_mem ..)).of (wakeCore_mem ..)
  · exact (h.of (maskHandlers_mem ..)).of (wakeCore_mem ..)
  · exact h.of (openCourse_mem ..)
  · exact h.of (applyLay_mem ..)
  · exact h.of (applyAbandon_mem ..)
  · exact h.of (applyStc_mem ..)
  · exact h.of (openRegion_mem ..)
  · exact h.of (sendHeld_mem ..)
  · exact h.of (sendBrick_mem ..)
  · exact (h.of (releaseSlots_mem ..)).of (owe_mem ..)
  · exact h.of (applyCmd_mem ..)
  · exact h.of (applyTask_mem ..)
  · exact h.of (endRunNow_mem ..)
  · exact h.of (enqueueBrick_mem ..)
  · exact h.of (setLaunch_mem ..)
  · exact h.of (setLaunch_mem ..)
  · exact applyInvp_sound h
  · exact h.of (owe_mem ..)

theorem afterCommit_sound {st : State} {k : Nat} (h : st.sound) : (st.afterCommit k).sound := by
  unfold State.afterCommit
  extract_lets ks1 waiting1 st1 st2 t1
  have h1 : st1.sound := each_sound (fun h0 => (performAgain_sound h0).ite h0) _ h
  have h2 : st2.sound := h1.of (wakeFence_mem ..)
  split
  · exact (h2.of (owe_mem ..)).ite h2
  · exact (h2.of (owe_mem ..)).ite h2

theorem applyChunk_sound {st : State} {k : Nat} {c : Chunk} (h : st.sound) : (st.applyChunk k c).sound := by
  unfold State.applyChunk
  extract_lets lkey1 st1 st2
  have h1 : st1.sound := applyStores_sound h
  have h2 : st2.sound := each_sound (fun h0 => each_sound (fun h1 => applyHeld_sound h1) _ h0) _ h1
  exact afterCommit_sound (h2.of (retireChunk_mem ..))

theorem finishRelease_sound {st : State} {k : Nat} {c : Chunk} (h : st.sound) : (st.finishRelease k c).sound :=
  (applyChunk_sound h).ite ((h.of (setChunkOf_mem ..)).of (owe_mem ..))

theorem commit_sound {st : State} {k : Nat} {c : Chunk} (h : st.sound) : (st.commit k c).sound := by
  unfold State.commit
  extract_lets st1
  have h1 : st1.sound := (h.of (recordAtomics_mem ..)).of (deliverSignature_mem ..)
  exact (finishRelease_sound ((applyStores_sound h1).of (setChunkOf_mem ..))).ite (applyChunk_sound h1)

theorem tryCommit_sound {st : State} {k : Nat} {c : Chunk} (h : st.sound) : (st.tryCommit k c).sound := by
  unfold State.tryCommit
  split
  · exact (h.of (askRegister_mem ..)).of (owe_mem ..)
  · split
    · exact h.of (owe_mem ..)
    · split
      · exact h.of (squash_mem ..)
      · split
        · split
          · exact commit_sound ((h.of (lockPool_mem ..)).of_snd ‹_›)
          · exact (h.of (lockPool_mem ..)).of_snd ‹_›
        · exact (((h.of (lockPool_mem ..)).of_snd ‹_›).of (owe_mem ..)).ite ((h.of (lockPool_mem ..)).of_snd ‹_›)

theorem execCommitPoint_keeps {k : Nat} {st : State} (h : st.sound) : Keeps (execCommitPoint k st) := by
  unfold execCommitPoint
  split
  · exact .fault
  · refine .next ?_
    split
    · exact h
    · split
      · exact finishRelease_sound h
      · split
        · exact h
        · split
          · exact h.of (owe_mem ..)
          · extract_lets st1 st2
            have h1 : st1.sound := (h.of (setStrand_mem ..)).ite h
            split
            · exact h1.ite ((h1.of (setChunkOf_mem ..)).of (gain_mem ..))
            · extract_lets st3 token1 pending1 asks1
              have h2 : st3.sound := by
                unfold st3
                split
                · exact (h1.ite ((h1.of (setChunkOf_mem ..)).of (gain_mem ..))).of (askWatches_mem ..)
                · exact h1.ite ((h1.of (setChunkOf_mem ..)).of (gain_mem ..))
              exact (h2.of (owe_mem ..)).ite (tryCommit_sound h2)

/-! ### Mtu: what writes the memory -/

theorem retryParked_sound {st : State} {p : Nat} (h : st.sound) : (st.retryParked p).sound :=
  each_sound (fun h0 => (performAgain_sound h0).ite h0) _ h

theorem execTranslationMiss_keeps {source lkey va kind : Nat} {st : State} (h : st.sound) :
    Keeps (execTranslationMiss source lkey va kind st) := by
  unfold execTranslationMiss
  split
  · exact .fault
  · split
    · exact .next ((retryParked_sound h).of (wakeRefused_mem ..))
    · split
      · exact .next h
      · split
        · exact .next ((translate_sound h).of_snd ‹_›)
        · exact .next (((translate_sound h).of_snd ‹_›).of (park_mem ..))

theorem endPark_sound {st : State} {k : Park} (h : st.sound) : (st.endPark k).sound :=
  ((retryParked_sound h.update).of (wakeCores_mem ..)).of (wakeRefused_mem ..)

theorem execMtuResume_keeps {pkg unit parkId : Nat} {st : State} (h : st.sound) :
    Keeps (execMtuResume pkg unit parkId st) := by
  unfold execMtuResume
  split
  · exact .fault
  · split
    · exact .next (endPark_sound h)
    · exact .next h

theorem execCounterHalving_keeps {pkg unit : Nat} {st : State} (h : st.sound) :
    Keeps (execCounterHalving pkg unit st) :=
  Keeps.ite (.fault) (.next ((h.of (setPkg_mem ..)).of (scanCandidates_mem ..)))

theorem writePhysLine_sound {st : State} {line : Nat} {cells : Tab Byte} (h : st.sound) :
    (st.writePhysLine line cells).sound := by
  unfold State.writePhysLine
  split
  exact writeLine_sound h

theorem writeRange_sound {st : State} {base len : Nat} {cells : Tab Byte} (h : st.sound) :
    (st.writeRange base len cells).sound := each_sound (fun h0 => writePhysLine_sound h0) _ h

theorem execCdump_keeps {pkg unit value : Nat} {st : State} (h : st.sound) : Keeps (execCdump pkg unit value st) :=
  Keeps.ite (.fault) (Keeps.ite (.next h) (.next (((h.of (setReg_mem ..)).of (setReg_mem ..)).of (owe_mem ..))))

theorem execCounterDumpDone_keeps {pkg unit : Nat} {st : State} (h : st.sound) :
    Keeps (execCounterDumpDone pkg unit st) := by
  unfold execCounterDumpDone
  refine .ite .fault ?_
  extract_lets stat
  refine .ite (.next h) ?_
  extract_lets
  refine .ite (.next ((writeRange_sound h).of (setReg_mem ..))) (.next (State.sound.of ?_ (owe_mem ..)))
  exact List.foldlRecOn (motive := State.sound) _ _ h fun _ hs _ _ => hs.of (snoopFor_mem ..)

theorem rewriteLeaf_sound {st : State} {m : Move} {f : Nat → Nat} (h : st.sound) : (st.rewriteLeaf m f).sound :=
  each_sound (fun h0 => writePhysLine_sound h0) _ h

theorem copyLine_sound {st : State} {p : Nat} {m : Move} {l : Nat} (h : st.sound) : (st.copyLine p m l).sound := by
  unfold State.copyLine
  extract_lets job1 done1
  split
  · split
    · exact h.of (snoopFor_mem ..)
    · exact ((engineRead_sound h ‹_›).of (addBytes_mem ..)).of (setMove_mem ..)
  · split
    split
    · exact h.of (snoopCells_mem ..)
    · exact ((engineWrite_sound h ‹_›).update).of (setMove_mem ..)

theorem execPageMove_keeps {pkg unit leaf frame : Nat} {st : State} (h : st.sound) :
    Keeps (execPageMove pkg unit leaf frame st) := by
  unfold execPageMove
  split
  · exact .fault
  · split
    · split
      · exact .next h
      · exact Keeps.ite (.next (h.of (owe_mem ..))) (.next (h.of (beginAuto_mem ..)))
    · exact Keeps.ite (.next ((h.of (setPkg_mem ..)).of (beginMove_mem ..))) (.next h)

theorem moveReverse_sound {st : State} {p : Nat} {m : Move} (h : st.sound) : (st.moveReverse p m).sound := by
  unfold State.moveReverse
  extract_lets put1
  have h1 : ∀ {s1 x2 x3}, s1.sound → (put1 s1 x2 x3).sound := by
    intro s1 x2 x3 hs1
    unfold put1
    split
    · exact hs1
    · exact writePhysLine_sound hs1
  exact h.ite (h1 (h1 h))

theorem settlePage_sound {st : State} {m : Move} (h : st.sound) : (st.settlePage m).sound := by
  unfold State.settlePage
  refine each_sound (fun {s x} hs => ?_) _ h
  split
  exact (settle_sound hs).of (writeThrough_mem ..)

theorem finishMove_sound {st : State} {p : Nat} {m : Move} (h : st.sound) : (st.finishMove p m).sound := by
  unfold State.finishMove
  extract_lets st1 st2 st3 sz1 st4
  have h1 : st1.sound := moveReverse_sound h
  have h2 : st2.sound := h.ite h1.update
  have h3 : st3.sound := rewriteLeaf_sound h2
  have h4 : sz1.sound := dropTranslations_sound h3
  exact each_sound (fun h0 => endPark_sound h0) _ (h4.of (closeMove_mem ..))

theorem execMoveFinalPass_keeps {pkg unit : Nat} {st : State} (h : st.sound) : Keeps (execMoveFinalPass pkg unit st) :=
    by
  unfold execMoveFinalPass
  split
  · exact .fault
  · split
    · exact .next h
    · extract_lets again1
      split
      · exact .next ((copyLine_sound h).of (owe_mem ..))
      · split
        · exact .next ((h.of (setMove_mem ..)).of (owe_mem ..))
        · split
          · split
            · exact .next (h.of (owe_mem ..))
            · exact .next ((((rewriteLeaf_sound (dropTranslations_sound h)).of (snoopFor_mem ..)).of (setMove_mem
              ..)).of (owe_mem ..))
          · split
            · exact Keeps.ite (.next (h.of (owe_mem ..))) (Keeps.ite (.next (finishMove_sound h)) (.next ((h.of
              (setMove_mem ..)).of (owe_mem ..))))
            · split
              · exact .next (((h.of (squashParked_mem ..)).of (setMove_mem ..)).of (owe_mem ..))
              · exact Keeps.ite (.next (((settlePage_sound h).of (setMove_mem ..)).of (owe_mem ..))) (.next ((h.of
                (snoopFor_mem ..)).of (owe_mem ..)))

theorem flushRing_sound {st : State} {p unit : Nat} {fault : Bool} (h : st.sound) :
    (st.flushRing p unit fault).sound := by
  unfold State.flushRing
  split
  · exact h
  · split
    extract_lets blk1
    split
    extract_lets base1 log1
    split
    · exact h
    · split
      split
      · exact (h.of (snoopCells_mem ..)).of (owe_mem ..)
      · extract_lets st1 st2 st3
        have h1 : st1.sound := (engineWrite_sound h ‹_›).of (setReg_mem ..)
        have h2 : st2.sound := h1.of (setPkg_mem ..)
        have h3 : st3.sound := (h2.of (sendMsix_mem ..)).ite h2
        exact (h3.of (owe_mem ..)).ite h3

theorem ringRegister_sound {st : State} {p unit : Nat} {fault : Bool} {place low value : Nat} (h : st.sound) :
    (st.ringRegister p unit fault place low value).sound :=
  flushRing_sound (((h.of (keepRing_mem ..)).ite h).ite (((h.of (keepRing_mem ..)).ite h).of (setReg_mem ..)))

/-! ### Fetch: what writes the memory -/

/-- The state that a fetch leaves. -/
def Fetched.state : Fetched → State
  | .stop t => t
  | .run _ t => t
theorem fetch_sound {st : State} (h : st.sound) : st.fetch.state.sound := by
  unfold State.fetch
  extract_lets st0 pc
  have h0 : st0.sound := h.of (openChunk_mem ..)
  clear_value st0
  split
  · exact raise_sound h0
  · split
    · exact raise_sound h0
    · split
      · exact raiseAt_sound ((fetchLine_sound h0).of_snd ‹_›)
      · have h1 := (fetchLine_sound h0).of_snd ‹_›
        split
        · split
          · exact machineCheck_sound (h1.of (fetched_mem ..))
          · exact h1.of (setMe_mem ..)
        · split
          · exact h1.of (fetched_mem ..)
          · exact raise_sound (h1.of (fetched_mem ..))

/-! ### Runs: what writes the memory -/

theorem execMessageArrival_keeps {msg : Nat} {st : State} (h : st.sound) : Keeps (execMessageArrival msg st) := by
  unfold execMessageArrival
  refine .next ?_
  split
  · exact h
  · split
    · extract_lets _ _ _ _ _ _ _ st1
      have h1 : st1.sound := writeBytes_wf _ _ _ h
      exact (h.of (owe_mem ..)).ite ((h1.of (setBank_mem ..)).of (wakeCore_mem ..))
    · exact h.update

theorem checkStart_sound {st : State} {k pc : Nat} {sv : Bool} (h : st.sound) : (st.checkStart k pc sv).sound := by
  unfold State.checkStart
  extract_lets at_1
  split
  · exact raiseIn_sound h
  · split
    · exact raiseIn_sound ((fetchLine_sound h).of_snd ‹_›)
    · exact (raiseIn_sound ((fetchLine_sound h).of_snd ‹_›)).ite ((fetchLine_sound h).of_snd ‹_›)

theorem startMessage_sound {st : State} {k bank held : Nat} {m : InMsg} (h : st.sound) :
    (st.startMessage k bank held m).sound := checkStart_sound ((h.of (setBank_mem ..)).of (beginRun_mem ..))

theorem resumeBrick_sound {st : State} {k core cluster : Nat} {q : QBrick} (h : st.sound) :
    (st.resumeBrick k core cluster q).sound := by
  unfold State.resumeBrick
  extract_lets x1 taken1 lost1
  have h1 : ∀ {s1}, s1.sound → (taken1 s1).sound := by
    intro s1 hs1
    unfold taken1
    exact (hs1.of (endJob_mem ..)).of (unqueue_mem ..)
  have h2 : ∀ {s1}, s1.sound → (lost1 s1).sound := by
    intro s1 hs1
    unfold lost1
    exact (h1 hs1).of (leaveBrick_mem ..)
  split
  · exact h2 ((readAll_sound h).of_code ‹_›)
  · exact h2 ((readAll_sound h).of_wait ‹_›)
  · exact (readAll_sound h).of_wait ‹_›
  · extract_lets ws1 w01 w71 pc1 sv1 rec1 info1
    split
    · exact raiseIn_sound ((h1 ((readAll_sound h).of_ok ‹_›)).of (beginRun_mem ..))
    · split
      · exact h2 ((writeAll_sound ((readAll_sound h).of_ok ‹_›)).of_code ‹_›)
      · exact h2 ((writeAll_sound ((readAll_sound h).of_ok ‹_›)).of_wait ‹_›)
      · exact (writeAll_sound ((readAll_sound h).of_ok ‹_›)).of_wait ‹_›
      · exact ((h1 ((writeAll_sound ((readAll_sound h).of_ok ‹_›)).of_ok ‹_›)).of (setLaunch_mem ..)).of (beginRun_mem
        ..)

theorem selectOn_sound {st t : State} {core bank : Nat} (h : st.sound) (e : st.selectOn core bank = some t) :
    t.sound := by
  unfold State.selectOn at e
  extract_lets b free at e
  split at e
  · split at e
    · cases e
    · extract_lets at e
      split at e
      · obtain ⟨m, -, rfl⟩ := Option.map_eq_some_iff.1 e
        exact startMessage_sound h
      · cases e
        exact resumeBrick_sound h
      · split at e
        · cases e
        · obtain ⟨x, -, rfl⟩ := Option.map_eq_some_iff.1 e
          exact resumeBrick_sound h
  · cases e

theorem execHandlerSelection_keeps {core : Nat} {st : State} (h : st.sound) : Keeps (execHandlerSelection core st) := by
  unfold execHandlerSelection
  refine .ite .fault (.ite (.next (h.of (wakeCore_mem ..))) ?_)
  split
  next t e =>
    cases e1 : st.selectOn core (2 * core + 1) with
    | some s =>
      rw [e1] at e
      cases e
      exact .next ((selectOn_sound h e1).of (wakeCore_mem ..))
    | none =>
      rw [e1] at e
      exact .next ((selectOn_sound h e).of (wakeCore_mem ..))
  · exact .next h

theorem putPhysical_sound {st : State} {p l v : Nat} (h : st.sound) : (st.putPhysical p l v).Sound := by
  unfold State.putPhysical
  extract_lets f1 cells1 key1
  split
  split
  · exact .wait h
  · split
    · exact .ok (engineWrite_sound h ‹_›)
    · exact .wait (h.of (snoopCells_mem ..))

theorem writeCompletion_sound {st : State} {p q compl word : Nat} (h : st.sound) :
    (st.writeCompletion p q compl word).Sound := by
  unfold State.writeCompletion
  split
  · exact .ok (((putPhysical_sound h).of_ok ‹_›).of (pendMsix_mem ..))
  · exact putPhysical_sound h

theorem finishEnd_sound {st : State} {l : Launch} (h : st.sound) : (st.finishEnd l).sound := by
  unfold State.finishEnd
  split
  · exact h
  · extract_lets code1
    split
    · exact (writeCompletion_sound h).of_code ‹_›
    · exact (writeCompletion_sound h).of_wait ‹_›
    · extract_lets st1 st2
      have h1 : st1.sound := (((writeCompletion_sound h).of_ok ‹_›).of (entryDone_mem ..)).ite ((writeCompletion_sound
        h).of_ok ‹_›)
      have h2 : st2.sound := h1.of (releaseLaunch_mem ..)
      split
      · exact (h2.of (setPkg_mem ..)).of (owe_mem ..)
      · exact h2

theorem declare_sound {st : State} {l : Launch} {qs : List Nat} (h : st.sound) : (st.declare l qs).sound := by
  unfold State.declare
  extract_lets go1 stay1 st1 st2
  have h1 : st1.sound := h.of (setLaunch_mem ..)
  have h2 : st2.sound := each_sound (fun h0 => (h0.of (owe_mem ..)).ite (actOnBrick_sound h0)) _ h1
  exact each_sound (fun h0 => (h0.of (setExpert_mem ..)).of (queueEvent_mem ..)) _ h2

theorem waveOf_sound {st : State} {l : Launch} (h : st.sound) : (st.waveOf l).sound := by
  unfold State.waveOf
  split
  · exact finishEnd_sound h
  · extract_lets totals1 st1 st2
    have h1 : st1.sound := declare_sound h
    have h2 : st2.sound := h1.of (setLaunch_mem ..)
    split
    · split
      · exact finishEnd_sound (h2.of (beginEnd_mem ..))
      · exact h2.of (beginEnd_mem ..)
    · exact h2

theorem execQuiescenceWave_keeps {st : State} (h : st.sound) : Keeps (execQuiescenceWave st) := by
  unfold execQuiescenceWave
  refine .next ?_
  refine each_sound (fun {s x} hs => ?_) _ h
  split
  · exact (waveOf_sound hs).ite hs
  · exact hs

/-! ### Sched: what writes the memory -/

theorem readPhysical_sound {st : State} {p job i l n : Nat} (h : st.sound) : (st.readPhysical p job i l n).Sound := by
  unfold State.readPhysical
  extract_lets done1 f1 k1
  split
  · exact .ok h
  · split
    · exact .wait ((h.of (engineRead_mem ‹_›)).of (addBytes_mem ..))
    · exact .wait (h.of (snoopFor_mem ..))

theorem writePhysical_sound {st : State} {p job i l : Nat} {bs : List Byte} (h : st.sound) :
    (st.writePhysical p job i l bs).Sound := by
  unfold State.writePhysical
  obtain ⟨place, e⟩ : ∃ f, f = State.physicalOwner := ⟨_, rfl⟩
  obtain ⟨write, hw⟩ : ∃ f, f = @State.engineWrite := ⟨_, rfl⟩
  rw [← e, ← hw]
  extract_lets done f now cells
  refine .ite (.ite (.wait h) (.ok h)) ?_
  split
  split
  next t ht =>
    rw [hw] at ht
    exact .wait ((engineWrite_sound h ht).of (addBytes_mem ..))
  · exact .wait (h.of (snoopCells_mem ..))

theorem submit_sound {st : State} {p : Nat} {m : Msg} (h : st.sound) : (st.submit p m).sound := by
  unfold State.submit
  extract_lets q1 a1
  split
  · exact h.of (receive_mem ..)
  · split
    · exact h.of (owe_mem ..)
    · split
      · exact ((readPhysical_sound h).of_code ‹_›).of (owe_mem ..)
      · exact ((readPhysical_sound h).of_wait ‹_›).of (owe_mem ..)
      · split
        · exact ((writePhysical_sound ((readPhysical_sound h).of_ok ‹_›)).of_code ‹_›).of (owe_mem ..)
        · exact ((writePhysical_sound ((readPhysical_sound h).of_ok ‹_›)).of_wait ‹_›).of (owe_mem ..)
        · refine State.sound.of ?_ (ringDoorbell_mem ..)
          exact (((writePhysical_sound ((readPhysical_sound h).of_ok ‹_›)).of_ok ‹_›).of (endJob_mem ..)).of
            (receive_mem ..)

theorem execHquSubmitMessage_keeps {msg : Nat} {st : State} (h : st.sound) : Keeps (execHquSubmitMessage msg st) := by
  unfold execHquSubmitMessage
  refine .next ?_
  split
  · exact h
  · split
    · exact submit_sound h
    · exact h.of (receive_mem ..)

theorem execQuantumRemap_keeps {pkg : Nat} {st : State} (h : st.sound) : Keeps (execQuantumRemap pkg st) := by
  unfold execQuantumRemap
  split
  · exact .fault
  · extract_lets t1 st1 st2 st3
    have h1 : st1.sound := h.of (setPkg_mem ..)
    have h2 : st2.sound := each_sound (fun h0 => h0.of (mapLevel_mem ..)) _ h1
    have h3 : st3.sound := h2.of (setPkg_mem ..)
    exact .next (each_sound (fun h0 => h0.of (wakeQueue_mem ..)) _ h3)

theorem reserve_sound {st : State} {l : Launch} (h : st.sound) : (st.reserve l).sound := by
  unfold State.reserve
  extract_lets off1 kbReg1 kbSpad1 members1 sites1 mine1 st1
  have h1 : st1.sound := by
    unfold st1
    exact filter_wf _ _ h
  exact each_sound (fun h0 => each_sound (fun h1 => h1.of (setStrand_mem ..)) _ ((h0.of (setCore_mem ..)).of
    (setBank_mem ..))) _ h1

theorem tryAdmit_sound {st t : State} {p q : Nat} {graph : Option (Nat × Nat)} {ws : List Word} (h : st.sound)
    (e : st.tryAdmit p q graph ws = .taken t) :
    t.sound := by
  unfold State.tryAdmit at e
  extract_lets l l1 at e
  clear_value l1
  split at e
  · cases e
  · split at e
    · cases e
    · split at e
      · cases e
      · split at e
        · cases e
        · extract_lets held at e
          split at e
          · cases e
            exact reserve_sound h
          · split at e
            · cases e
              exact (reserve_sound h).of (oweAll_mem ..)
            · cases e

theorem refusePacket_sound {st : State} {p q compl : Nat} {graph : Option (Nat × Nat)} {code : Option Nat}
    (h : st.sound) :
    (st.refusePacket p q compl graph code).Sound := by
  unfold State.refusePacket
  extract_lets gone1
  have h1 : ∀ {s1}, s1.sound → (gone1 s1).sound := by
    intro s1 hs1
    unfold gone1
    exact ((hs1.of (failNode_mem ..)).of (endJob_mem ..)).of (entryTaken_mem ..)
  split
  · exact .ok (h1 h)
  · split
    · exact .ok (h1 ((writeCompletion_sound h).of_ok ‹_›))
    · exact writeCompletion_sound h

theorem loadLine_sound {st : State} {l : Launch} {core line : Nat} (h : st.sound) : (st.loadLine l core line).sound :=
    by
  unfold State.loadLine
  extract_lets k1 drop1 va1
  have h1 : ∀ {s1}, s1.sound → (drop1 s1).sound := by
    intro s1 hs1
    unfold drop1
    exact hs1.of (setCore_mem ..)
  split
  · exact h1 h
  · split
    · exact h1 ((translate_sound h).of_snd ‹_›)
    · extract_lets p1 a1
      split
      · exact h1 ((translate_sound h).of_snd ‹_›)
      · exact ((translate_sound h).of_snd ‹_›).ite (((translate_sound h).of_snd ‹_›).of (send_mem ..))

theorem loadFootprint_sound {st : State} {l : Launch} (h : st.sound) : (st.loadFootprint l).sound :=
  each_sound (fun h0 => each_sound (fun h1 => loadLine_sound h1) _ h0) _ h

theorem loadPayload_sound {st : State} {l : Launch} (h : st.sound) : (st.loadPayload l).sound := by
  unfold State.loadPayload
  extract_lets again job x
  refine State.sound.ite (((h.of (endJob_mem ..)).of (setLaunch_mem ..)).of (entryTaken_mem ..)) ?_
  have hread : (if l.plen = 0 then Eng.ok [] st else st.readAll x 0 l.payload l.plen).Sound := (Eng.Sound.ok h).ite
    (readAll_sound h)
  split
  · exact (hread.of_wait ‹_›).of (owe_mem ..)
  · have h0 := hread.of_code ‹_›
    split
    · exact (((refusePacket_sound h0).of_ok ‹_›).of (endJob_mem ..)).of (releaseLaunch_mem ..)
    · exact ((refusePacket_sound h0).of_code ‹_›).of (owe_mem ..)
    · exact ((refusePacket_sound h0).of_wait ‹_›).of (owe_mem ..)
  next bs s hs =>
    have h0 := hread.of_ok hs
    extract_lets mem loaded st1
    have hm : loaded.sound := foldl_wf _ (fun m _ hm => writeBytes_wf _ m _ hm) _ _ h0
    have h1 : st1.sound := (loadFootprint_sound (hm.of (endJob_mem ..))).of (setLaunch_mem ..)
    exact (h1.of (entryTaken_mem ..)).of (owe_mem ..)

theorem admitPacket_sound {st : State} {p q at_ : Nat} {graph : Option (Nat × Nat)} (h : st.sound) :
    (st.admitPacket p q at_ graph).sound := by
  unfold State.admitPacket
  extract_lets again job
  split
  · exact ((readPhysical_sound h).of_code ‹_›).of (owe_mem ..)
  · exact ((readPhysical_sound h).of_wait ‹_›).of (owe_mem ..)
  · have h0 := (readPhysical_sound h).of_ok ‹_›
    extract_lets ws lkey
    split
    · exact h0.of (endJob_mem ..)
    · split
      · exact (refusePacket_sound h0).of_ok ‹_›
      · exact ((refusePacket_sound h0).of_code ‹_›).of (owe_mem ..)
      · exact ((refusePacket_sound h0).of_wait ‹_›).of (owe_mem ..)
    · extract_lets taken
      have h1 : taken.sound := (tryAdmit_sound h0 ‹_›).of (endJob_mem ..)
      split
      · exact loadPayload_sound h1
      · exact h1

theorem execAdmission_keeps {pkg queue : Nat} {st : State} (h : st.sound) : Keeps (execAdmission pkg queue st) := by
  unfold execAdmission
  split
  · exact .fault
  · extract_lets loading1 st1 st2
    have h1 : st1.sound := each_sound (fun h0 => loadPayload_sound h0) _ h
    have h2 : st2.sound := each_sound (fun h0 => (h0.of (failNode_mem ..)).ite (admitPacket_sound h0)) _ h1
    exact .next ((h2.of (wakeQueue_mem ..)).ite ((h2.of (endJob_mem ..)).ite (admitPacket_sound h2)))

theorem execLaunchDispatch_keeps {lkey : Nat} {st : State} (h : st.sound) : Keeps (execLaunchDispatch lkey st) := by
  unfold execLaunchDispatch
  refine .next ?_
  split
  · exact h
  · exact h.ite ((h.of (owe_mem ..)).ite (each_sound (fun h0 => checkStart_sound (h0.of (beginRun_mem ..))) _ (h.of
    (setLaunch_mem ..))))

theorem closeGraph_sound {st : State} {p id node : Nat} (h : st.sound) : (st.closeGraph p id node).sound := by
  unfold State.closeGraph
  split
  · exact h
  · extract_lets finished1
    split
    · split
      · exact ((writeCompletion_sound h).of_code ‹_›).of (owe_mem ..)
      · exact ((writeCompletion_sound h).of_wait ‹_›).of (owe_mem ..)
      · exact ((((writeCompletion_sound h).of_ok ‹_›).of (setPkg_mem ..)).of (entryDone_mem ..)).of (wakeQueue_mem ..)
    · exact h

theorem execGraphAdmission_keeps {pkg queue : Nat} {st : State} (h : st.sound) :
    Keeps (execGraphAdmission pkg queue st) := by
  unfold execGraphAdmission
  refine .ite .fault (.ite (.next h) ?_)
  extract_lets again at_ job
  clear_value at_
  split
  · exact .next (((readPhysical_sound h).of_code ‹_›).of (owe_mem ..))
  · exact .next (((readPhysical_sound h).of_wait ‹_›).of (owe_mem ..))
  next bs s0 e0 =>
    have h0 := (readPhysical_sound h).of_ok e0
    extract_lets w compl n bad refuse
    have href : ∀ {s}, s.sound → (refuse s).sound := fun {s} hs => by
      unfold refuse
      split
      · exact (refusePacket_sound hs).of_ok ‹_›
      · exact ((refusePacket_sound hs).of_code ‹_›).of (owe_mem ..)
      · exact ((refusePacket_sound hs).of_wait ‹_›).of (owe_mem ..)
    clear_value refuse bad compl n
    refine .ite (.next (href h0)) ?_
    split
    · exact .next (((readPhysical_sound h0).of_code ‹_›).of (owe_mem ..))
    · exact .next (((readPhysical_sound h0).of_wait ‹_›).of (owe_mem ..))
    next ns s1 e1 =>
      have h1 := (readPhysical_sound h0).of_ok e1
      split
      next id s2 e2 =>
        have h2 := (h1.of (fresh_mem ..)).of_snd e2
        extract_lets g npred first g2 s3 r
        have h3 : s3.sound := ((h2.of (endJob_mem ..)).of (setPkg_mem ..)).of (entryTaken_mem ..)
        have hr : r.1.sound := List.foldlRecOn
          (motive := fun r : State × List (Nat × Bool) => r.1.sound) _ _ h3 fun r hr i _ => by
          split
          · exact hr.of (startNode_mem ..)
          · exact hr
        exact .ite (.next (href h2)) (.next (closeGraph_sound (hr.of (runGraph_mem ..))))

/-- The state that a step of a copy node leaves. -/
def CopyStep.state : CopyStep → State
  | .more st => st
  | .done st => st
  | .failed st => st
theorem copyNode_sound {st : State} {p : Nat} {g : Graph} {node : Nat} (h : st.sound) :
    (st.copyNode p g node).state.sound := by
  unfold State.copyNode
  obtain ⟨owner, e⟩ : ∃ f, f = State.physicalOwner := ⟨_, rfl⟩
  obtain ⟨write, hw⟩ : ∃ f, f = @State.engineWrite := ⟨_, rfl⟩
  obtain ⟨read, hr⟩ : ∃ f, f = @State.engineRead := ⟨_, rfl⟩
  rw [← e, ← hw, ← hr]
  extract_lets src dst n placed moved part job line a k f from' at_ both bs
  split
  · split
    · exact h
    · exact h
  · split
    · exact h
    · split
      · split
        · exact h
        · split
          · exact h.of (snoopFor_mem ..)
          next t ht =>
            rw [hr] at ht
            exact (engineRead_sound h ht).of (setGraph_mem ..)
      · split
        · exact h
        · split
          split
          · exact h.of (snoopCells_mem ..)
          next t ht =>
            rw [hw] at ht
            exact (engineWrite_sound h ht).of (setGraph_mem ..)

theorem execGraphNodeComplete_keeps {pkg graph node : Nat} {st : State} (h : st.sound) :
    Keeps (execGraphNodeComplete pkg graph node st) := by
  unfold execGraphNodeComplete
  refine .ite .fault ?_
  split
  · exact .next h
  next g _ =>
    refine .ite (.next (closeGraph_sound h)) (.ite (.next h) ?_)
    extract_lets finish
    have hfin : ∀ {s}, s.sound → (finish s).sound := fun h0 => closeGraph_sound (h0.of (runGraph_mem ..))
    clear_value finish
    have hcopy := copyNode_sound (p := pkg) (g := g) (node := node) h
    split
    · split
      next e =>
        rw [e] at hcopy
        exact .next (hcopy.of (owe_mem ..))
      next e =>
        rw [e] at hcopy
        exact .next (hfin hcopy)
      next e =>
        rw [e] at hcopy
        exact .next (hfin (hcopy.of (setGraph_mem ..)))
    · refine .ite ?_ (.next (hfin h))
      split
      · exact .next (hfin ((h.of (readPredicate_mem ..)).of_snd ‹_›))
      · exact .next (((h.of (readPredicate_mem ..)).of_snd ‹_›).of (owe_mem ..))

theorem execMsixCoalesceExpiry_keeps {pkg queue : Nat} {st : State} (h : st.sound) :
    Keeps (execMsixCoalesceExpiry pkg queue st) := by
  unfold execMsixCoalesceExpiry
  split
  · exact .fault
  · split
    · exact .next h
    · exact Keeps.ite (.next (h.of (owe_mem ..))) (.next ((h.of (setPkg_mem ..)).of (sendMsix_mem ..)))

theorem execWatchEntryWrite_keeps {pkg entry word value : Nat} {st : State} (h : st.sound) :
    Keeps (execWatchEntryWrite pkg entry word value st) := by
  unfold execWatchEntryWrite
  split
  · exact .fault
  · extract_lets off1
    split
    · exact .next ((h.of (setReg_mem ..)).of (testWatch_mem ..))
    · exact .next (h.of (setReg_mem ..))
    · exact .next h

/-! ### Preempt: what writes the memory -/

theorem execPreemption_keeps {cluster lkey : Nat} {st : State} (h : st.sound) :
    Keeps (execPreemption cluster lkey st) := by
  unfold execPreemption
  split
  · exact .fault
  · split
    · exact .next h
    · extract_lets banks1 held1 st1 st2 st3 st4
      have h1 : st1.sound := each_sound (fun h0 => h0.of (setBank_mem ..)) _ h
      have h2 : st2.sound := each_sound (fun h0 => (each_sound (fun h1 => h1.of (stopStrand_mem ..)) _ h0).of
        (cutL1_mem ..)) _ h1
      have h3 : st3.sound := h2.of (grantToken_mem ..)
      have h4 : st4.sound := ((h3.of (setCluster_mem ..)).of (stopActive_mem ..)).of (endDisplacedLease_mem ..)
      exact .next (h4.of (oweAll_mem ..))

theorem execSpillComplete_keeps {cluster : Nat} {st : State} (h : st.sound) : Keeps (execSpillComplete cluster st) :=
  Keeps.ite (.fault) (Keeps.ite (.next h) (.next (((h.of (setCluster_mem ..)).of (owe_mem ..)).ite (h.of
    (setCluster_mem ..)))))

theorem shift_sound {st : State} {m : Shift} (h : st.sound) : (st.shift m).sound := by
  unfold State.shift
  extract_lets lkeys1 banks1 st1 old1 low1 moved1 mem1 mineAt1 counts1 gone1 stays1 st2 st3 st4 st5 st6 owner1
  have h1 : st1.sound := each_sound (fun h0 => h0.of (moveWindows_mem ..)) _ h
  have h2 : st2.sound := by
    unfold st2
    exact writeCells_wf _ _ (filter_wf _ _ h1)
  have h3 : st3.sound := each_sound (fun h0 => (h0.of (setCore_mem ..)).of (setCore_mem ..)) _ h2
  have h4 : st4.sound := h3.of (setCluster_mem ..)
  have h5 : st5.sound := h4.of (setDie_mem ..)
  have h6 : st6.sound := h5.of (setDie_mem ..)
  exact h6.of (setCluster_mem ..)

theorem execLaunchResume_keeps {cluster target : Nat} {st : State} (h : st.sound) :
    Keeps (execLaunchResume cluster target st) := by
  unfold execLaunchResume
  split
  · exact .fault
  · split
    · exact .next h
    · split
      · exact .next ((h.of (thaw_mem ..)).ite h)
      · exact Keeps.ite (.next h) (Keeps.ite (.next (h.of (owe_mem ..))) (.next ((shift_sound h).of (thaw_mem ..))))

/-! ### Recovery: what writes the memory -/

theorem execPackageDeclaredDown_keeps {pkg : Nat} {st : State} (h : st.sound) :
    Keeps (execPackageDeclaredDown pkg st) := by
  unfold execPackageDeclaredDown
  split
  · exact .fault
  · split
    · exact .next h
    · extract_lets far1 st1 st2 st3 st4
      have h1 : st1.sound := each_sound (fun h0 => h0.of (endJob_mem ..)) _ h
      have h2 : st2.sound := by
        unfold st2
        exact filter_wf _ _ h1
      have h3 : st3.sound := h2.of (setPkg_mem ..)
      have h4 : st4.sound := (h3.of (loseMessages_mem ..)).of (loseCourses_mem ..)
      exact .next (each_sound (fun h0 => h0.of (loseReplicas_mem ..)) _ h4)

theorem execSecondTierLinkDown_keeps {pkg port : Nat} {st : State} (h : st.sound) :
    Keeps (execSecondTierLinkDown pkg port st) :=
  Keeps.ite (.fault) (.next (each_sound (fun h0 => (loseAccess_sound h0).ite h0) _ (h.of (setPkg_mem ..))))

/-! ### Fabric: what writes the memory -/

theorem execRegisterWrite_keeps {pkg offset size value : Nat} {st : State} (h : st.sound) :
    Keeps (execRegisterWrite pkg offset size value st) := by
  unfold execRegisterWrite
  split
  · exact .fault
  · split
    · exact .next h
    · extract_lets off1
      split
      · exact .next ((h.of (setPkg_mem ..)).ite h)
      · exact Keeps.ite (.next h) (.next ((h.of (setReg_mem ..)).of (registerWritten_mem ..)))

theorem execE2eAckTimer_keeps {pkg : Nat} {st : State} (h : st.sound) : Keeps (execE2eAckTimer pkg st) :=
  Keeps.ite (.fault) (.next (each_sound (fun h0 => h0.of (acknowledge_mem ..)) _ h))

theorem execE2eResendRequest_keeps {pkg dst vc seq : Nat} {st : State} (h : st.sound) :
    Keeps (execE2eResendRequest pkg dst vc seq st) :=
  Keeps.ite (.fault) (.next (each_sound (fun h0 => h0.of (sendFlit_mem ..)) _ h))

theorem execGixisFlitReceive_keeps {pkg port : Nat} {flit : List Byte} {st : State} (h : st.sound) :
    Keeps (execGixisFlitReceive pkg port flit st) := by
  unfold execGixisFlitReceive
  split
  · exact .fault
  · extract_lets l1
    split
    · exact .next h
    · split
      · exact .next (h.of (setLink_mem ..))
      · split
        · split
          · exact .next (((h.of (setLink_mem ..)).of (sendUnsent_mem ..)).of (setLink_mem ..))
          · exact .next ((((h.of (setLink_mem ..)).of (sendUnsent_mem ..)).of (setLink_mem ..)).of (takeFlit_mem ..))
        · split
          · exact .next ((h.of (setLink_mem ..)).of (sendUnsent_mem ..))
          · exact .next (((h.of (setLink_mem ..)).of (sendUnsent_mem ..)).of (setLink_mem ..))

theorem execLinkRetrain_keeps {pkg port width lanes speed peerWidth peerLanes peerSpeed : Nat} {st : State}
    (h : st.sound) :
    Keeps (execLinkRetrain pkg port width lanes speed peerWidth peerLanes peerSpeed st) := by
  unfold execLinkRetrain
  split
  · exact .fault
  · extract_lets l1
    split
    · exact .next h
    · split
      · refine .next ?_
        split
        · exact h.of (setLink_mem ..)
        · exact ((h.of (setLink_mem ..)).of (replay_mem ..)).ite (h.of (setLink_mem ..))
      · exact Keeps.ite (.next (h.of (retrainFailed_mem ..))) (.next (h.of (setLink_mem ..)))

theorem execLinkRetrainTimeout_keeps {pkg port : Nat} {st : State} (h : st.sound) :
    Keeps (execLinkRetrainTimeout pkg port st) :=
  Keeps.ite (.fault) (Keeps.ite (.next (h.of (retrainFailed_mem ..))) (.next h))

theorem execTunnelDatagramReceive_keeps {pkg port : Nat} {datagram : List Byte} {st : State} (h : st.sound) :
    Keeps (execTunnelDatagramReceive pkg port datagram st) := by
  unfold execTunnelDatagramReceive
  split
  · exact .fault
  · split
    · exact .next h
    · extract_lets h1 d1
      split
      · exact .next h
      · split
        · exact .next (h.of (tunnelAcked_mem ..))
        · split
          · exact .next ((h.of (tunnelAcked_mem ..)).of (setTunnel_mem ..))
          · split
            · exact .next (h.of (tunnelAcked_mem ..))
            · refine .next ?_
              exact each_sound (fun h0 => h0.of (takeTunnelFlit_mem ..)) _ (((h.of (tunnelAcked_mem ..)).of
                (setTunnel_mem ..)).of (setTunnel_mem ..))

theorem execTunnelRetransmitTimeout_keeps {pkg domain seq : Nat} {st : State} (h : st.sound) :
    Keeps (execTunnelRetransmitTimeout pkg domain seq st) := by
  unfold execTunnelRetransmitTimeout
  split
  · exact .fault
  · split
    · exact .next h
    · split
      · exact .next (h.of (setTunnel_mem ..))
      · exact .next h

theorem execTunnelRouteEntryWrite_keeps {pkg domain word value : Nat} {st : State} (h : st.sound) :
    Keeps (execTunnelRouteEntryWrite pkg domain word value st) :=
  Keeps.ite (.fault) (Keeps.ite (.next h) (.next ((h.of (setReg_mem ..)).of (releaseHeld_mem ..))))

theorem execBringUpLevel_keeps {pkg : Nat} {selfTest : Bool} {st : State} (h : st.sound) :
    Keeps (execBringUpLevel pkg selfTest st) := by
  unfold execBringUpLevel
  split
  · exact .fault
  · extract_lets old1
    split
    · exact .next (h.ite (h.of (reportSecurity_mem ..)))
    · exact .next ((h.of (setPkg_mem ..)).ite ((h.of (setPkg_mem ..)).of (levelReached_mem ..)))

/-! ### Scalar: what writes the memory -/

theorem intOp_keeps {st : State} {o : Ops} {f : Word → Word → Word} (h : st.sound) : Keeps (st.intOp o f) :=
  scalar_keeps h (fun h0 => (h0.of (writeS_mem ..)).of (finish_mem ..))

theorem intUnary_keeps {st : State} {o : Ops} {f : Word → Word} (h : st.sound) : Keeps (st.intUnary o f) :=
  scalar_keeps h (fun h0 => (h0.of (writeS_mem ..)).of (finish_mem ..))

theorem fpOp_keeps {st : State} {o : Ops} {f : Nat → Nat → Nat} (h : st.sound) : Keeps (st.fpOp o f) :=
  scalar_keeps h (fun h0 => (h0.of (writeF_mem ..)).of (finish_mem ..))

theorem execLea_keeps {o : Ops} {st : State} (h : st.sound) : Keeps (execLea o st) :=
  scalar_keeps h (fun h0 => ((h0.of (writeS_mem ..)).of (finish_mem ..)).ite (raise_sound h0))

theorem execFcvt_keeps {o : Ops} {st : State} (h : st.sound) : Keeps (execFcvt o st) := by
  unfold execFcvt
  extract_lets dstR1 srcR1
  refine scalar_keeps h (fun h0 => (((h0.of (stepQ_mem ..)).of (writeF_mem ..)).ite ((h0.of (stepQ_mem ..)).of
    (writeS_mem ..))).of (finish_mem ..))

theorem execFmov_keeps {o : Ops} {st : State} (h : st.sound) : Keeps (execFmov o st) :=
  scalar_keeps h (fun h0 => ((h0.of (writeS_mem ..)).ite (h0.of (writeF_mem ..))).of (finish_mem ..))

/-! ### Vector: what writes the memory -/

theorem vecOp_keeps {st : State} {o : Ops} {op : ElemOp} (h : st.sound) : Keeps (st.vecOp o op) :=
  vector_keeps h (fun h0 => (h0.of (writeElems_mem ..)).of (finish_mem ..))

theorem vecUnary_keeps {st : State} {o : Ops} {f : Nat → Nat} (h : st.sound) : Keeps (st.vecUnary o f) :=
  vector_keeps h (fun h0 => (h0.of (writeElems_mem ..)).of (finish_mem ..))

theorem execVcvt_keeps {o : Ops} {st : State} (h : st.sound) : Keeps (execVcvt o st) :=
  vector_keeps h (fun h0 => ((h0.of (setMe_mem ..)).of (writeElems_mem ..)).of (finish_mem ..))

theorem reduce_keeps {st : State} {o : Ops} {op : RedOp} (h : st.sound) : Keeps (st.reduce o op) :=
  vector_keeps h (fun h0 => ((h0.of (writeS_mem ..)).ite (h0.of (writeF_mem ..))).of (finish_mem ..))

theorem execVmovs_keeps {o : Ops} {st : State} (h : st.sound) : Keeps (execVmovs o st) := by
  unfold execVmovs
  extract_lets t1 k1 v1 r1
  refine issue_keeps h (fun h0 => ((h0.of (writeElems_mem ..)).ite ((h0.of (writeS_mem ..)).ite (h0.of (writeF_mem
    ..)))).of (finish_mem ..))

theorem execVtopk_keeps {o : Ops} {st : State} (h : st.sound) : Keeps (execVtopk o st) :=
  vector_keeps h (fun h0 => ((h0.of (writeElems_mem ..)).of (writeElems_mem ..)).of (finish_mem ..))

theorem execPair_keeps {p : PairOps} {st : State} (h : st.sound) : Keeps (execPair p st) := by
  unfold execPair
  extract_lets t1 scalarOn1 vectorOn1 vop1 unary1 vregs1 sregs1
  refine issue_keeps h (fun {s1} hs1 => ?_)
  extract_lets r1 xs1 st1
  have h1 : st1.sound := by
    unfold st1
    clear_value r1
    split
    · exact (hs1.of (writeS_mem ..)).ite hs1
    · exact hs1
  exact (h1.of (writeElems_mem ..)).of (finish_mem ..)

/-! ### Dispatch: what writes the memory -/

theorem exec_keeps {i : Instr} {s : State} (h : s.sound) : Keeps (exec i s) := by
  delta exec
  cases i with
  | add | sub | mul | mulh | div | rem | and | or | xor | andn | shl | shr | sra | rot | min | max | minz | maxz
  | bfx => exact intOp_keeps h
  | clz | ctz | popc => exact intUnary_keeps h
  | cmp | fcmp => exact scalar_keeps h (fun h0 => (h0.of (writeP_mem ..)).of (finish_mem ..))
  | sel | movi | bfi | krd => exact scalar_keeps h (fun h0 => (h0.of (writeS_mem ..)).of (finish_mem ..))
  | lea => exact execLea_keeps h
  | nop => exact scalar_keeps h (fun h0 => h0.of (finish_mem ..))
  | fadd | fsub | fmul | fdiv | fmin | fmax => exact fpOp_keeps h
  | ffma | fsqrt => exact scalar_keeps h (fun h0 => (h0.of (writeF_mem ..)).of (finish_mem ..))
  | fcvt => exact execFcvt_keeps h
  | fmov => exact execFmov_keeps h
  | br => exact scalar_keeps h (fun h0 => jumpBy_sound h0)
  | j => exact execJ_keeps h
  | jr => exact execJr_keeps h
  | call => exact execCall_keeps h
  | callReg => exact execCallReg_keeps h
  | ret => exact execRet_keeps h
  | loop => exact execLoop_keeps h
  | wait => exact execWait_keeps h
  | chunk => exact scalar_keeps h (fun h0 => (h0.of (finish_mem ..)).of (endChunk_mem ..))
  | susp | suspMsg => exact suspend_keeps h
  | done => exact scalar_keeps h (fun h0 => (h0.of (endRun_mem ..)).ite h0)
  | yield => exact execYield_keeps h
  | yieldExpiry => exact execYieldExpiry_keeps h
  | trap => exact execTrap_keeps h
  | kwr | spunmap | hmask | hunmask | qopen => exact scalar_keeps h (fun h0 => (h0.of (hold_mem ..)).of (finish_mem
    ..))
  | eret => exact execEret_keeps h
  | invp => exact execInvp_keeps h
  | invpCompletion => exact execInvpCompletion_keeps h
  | halt => exact scalar_keeps h (fun h0 => h0.of (setMe_mem ..))
  | haltRelease => exact execHaltRelease_keeps h
  | pair => exact execPair_keeps h
  | vadd | vsub | vmul | vmin | vmax | vand | vor | vxor | vshl | vshr => exact vecOp_keeps h
  | vfma | vsel | vbcast | vperm => exact vector_keeps h (fun h0 => (h0.of (writeElems_mem ..)).of (finish_mem ..))
  | vabs | vneg | vexp2 | vrcp | vrsq => exact vecUnary_keeps h
  | vcmp => exact vector_keeps h (fun h0 => (h0.of (writeP_mem ..)).of (finish_mem ..))
  | vcvt => exact execVcvt_keeps h
  | vld => exact vector_keeps h (fun h0 => (raise_sound h0).ite (issueLoad_sound h0))
  | vst => exact vector_keeps h (fun h0 => (raise_sound h0).ite (issueStore_sound h0))
  | vgath => exact vector_keeps h (fun h0 => issueLoad_sound h0)
  | vscat => exact vector_keeps h (fun h0 => issueStore_sound h0)
  | vredsum | vredmax | vredmin => exact reduce_keeps h
  | vmovs => exact execVmovs_keeps h
  | vdist => exact issue_keeps h (fun h0 => issueLoad_sound h0)
  | vtopk => exact execVtopk_keeps h
  | ld | ldAcqSy | lds | ldl | ldlDrop => exact loadForm_keeps h
  | st | stRelSy => exact storeForm_keeps h
  | chkw => exact execChkw_keeps h
  | wclr => exact execWclr_keeps h
  | pf => exact execPf_keeps h
  | res => exact execRes_keeps h
  | spmap => exact execSpmap_keeps h
  | spflush => exact execSpflush_keeps h
  | fence | fenceSy => exact fenceForm_keeps h
  | lease => exact execLease_keeps h
  | unlease => exact scalar_keeps h (fun h0 => (h0.of (releaseLease_mem ..)).of (finish_mem ..))
  | slotClm => exact execSlotClm_keeps h
  | slotRel => exact execSlotRel_keeps h
  | cpyIn => exact scalar_keeps h (fun h0 => (raise_sound h0).ite (issueCopy_sound h0))
  | cpyOut | cpyM | cpyNv => exact scalar_keeps h (fun h0 => issueCopy_sound h0)
  | mmaDd | mmaSs | mmaBb | mmaHh | mmaEe | mmaEf | mmaFf | mmaQq | mmaQe | mmaIi => exact mmaForm_keeps h
  | mmv => exact execMmv_keeps h
  | accZero => exact execAccZero_keeps h
  | accRd => exact execAccRd_keeps h
  | amo => exact execAmo_keeps h
  | red => exact execRed_keeps h
  | send => exact execSend_keeps h
  | sendm => exact execSendm_keeps h
  | sendNx => exact scalar_keeps h (fun h0 => sendTo_sound h0)
  | hset => exact execHset_keeps h
  | jinit => exact execJinit_keeps h
  | jarr => exact execJarr_keeps h
  | qwait => exact execQwait_keeps h
  | cbegin => exact execCbegin_keeps h
  | stc => exact execStc_keeps h
  | lay => exact execLay_keeps h
  | abandon => exact execAbandon_keeps h
  | cstat => exact scalar_keeps h (fun h0 => h0.ite (h0.of (issueAnswer_mem ..)))
  | exdef | exgrow | exretire | exjoinContrib | exjoinHand | exupd | exspill => exact exForm_keeps h
  | exrt => exact execExrt_keeps h
  | exload => exact scalar_keeps h (fun h0 => issueEx_sound h0)
  | instructionLimitChunkEnd => exact execInstructionLimitChunkEnd_keeps h
  | commitPoint => exact execCommitPoint_keeps h
  | soleCommitTokenGrant => exact Keeps.ite (.fault) (.next (h.of (grantToken_mem ..)))
  | loadDataReturn => exact execLoadDataReturn_keeps h
  | storeAcknowledgement => exact execStoreAcknowledgement_keeps h
  | translationMiss => exact execTranslationMiss_keeps h
  | mtuResume => exact execMtuResume_keeps h
  | mtuKill => exact Keeps.ite (.fault) (.next (h.of (kill_mem ..)))
  | counterHalving => exact execCounterHalving_keeps h
  | cdump => exact execCdump_keeps h
  | counterDumpDone => exact execCounterDumpDone_keeps h
  | pageMove => exact execPageMove_keeps h
  | moveFinalPass => exact execMoveFinalPass_keeps h
  | homeReadRequest => exact execHomeReadRequest_keeps h
  | homeOwnershipRequest => exact execHomeOwnershipRequest_keeps h
  | homeWriteBack => exact execHomeWriteBack_keeps h
  | recallAnswer => exact execRecallAnswer_keeps h
  | invalidationArrival => exact execInvalidationArrival_keeps h
  | recallArrival => exact execRecallArrival_keeps h
  | fillAnswer => exact execFillAnswer_keeps h
  | confirmRequest => exact execConfirmRequest_keeps h
  | confirmAnswer => exact execConfirmAnswer_keeps h
  | combineRequest => exact execCombineRequest_keeps h
  | combinePartialArrival => exact execCombinePartialArrival_keeps h
  | windowWriteBack => exact execWindowWriteBack_keeps h
  | hostSnpdata | hostSnpinv | hostSnpcur => exact Keeps.ite (.fault) (.next (hostSnoop_sound h))
  | hostCxlMemRead => exact execHostCxlMemRead_keeps h
  | hostCxlMemWrite => exact execHostCxlMemWrite_keeps h
  | backInvalidationAnswer => exact execBackInvalidationAnswer_keeps h
  | cxlCacheGrant => exact execCxlCacheGrant_keeps h
  | messageArrival => exact execMessageArrival_keeps h
  | handlerSelection => exact execHandlerSelection_keeps h
  | brickMessageArrival => exact execBrickMessageArrival_keeps h
  | quiescenceWave => exact execQuiescenceWave_keeps h
  | doorbell => exact Keeps.ite (.fault) (.next (h.of (ringDoorbell_mem ..)))
  | hquSubmitMessage => exact execHquSubmitMessage_keeps h
  | quantumRemap => exact execQuantumRemap_keeps h
  | admission => exact execAdmission_keeps h
  | launchDispatch => exact execLaunchDispatch_keeps h
  | graphAdmission => exact execGraphAdmission_keeps h
  | graphNodeComplete => exact execGraphNodeComplete_keeps h
  | msixCoalesceExpiry => exact execMsixCoalesceExpiry_keeps h
  | watchEntryWrite => exact execWatchEntryWrite_keeps h
  | leaseGrant => exact Keeps.ite (.fault) (.next (h.of (grantLease_mem ..)))
  | leaseTermExpiry => exact Keeps.ite (.fault) (.next (h.of (endTerm_mem ..)))
  | tileTaskIssue => exact execTileTaskIssue_keeps h
  | tileTaskComplete => exact execTileTaskComplete_keeps h
  | subnormalAssist => exact execSubnormalAssist_keeps h
  | copyCommandStart => exact execCopyCommandStart_keeps h
  | copyCommandComplete => exact execCopyCommandComplete_keeps h
  | nvmeCompletionEntry => exact execNvmeCompletionEntry_keeps h
  | nvmeTimeout => exact execNvmeTimeout_keeps h
  | nvmeControllerWrite => exact execNvmeControllerWrite_keeps h
  | nvmeQueueEntryWrite => exact execNvmeQueueEntryWrite_keeps h
  | stcStagingArrival => exact execStcStagingArrival_keeps h
  | coursePrepare => exact execCoursePrepare_keeps h
  | courseReadyReport => exact execCourseReadyReport_keeps h
  | courseTimeout => exact execCourseTimeout_keeps h
  | courseDecision => exact execCourseDecision_keeps h
  | courseDecisionAck => exact execCourseDecisionAck_keeps h
  | scoringRequest => exact execScoringRequest_keeps h
  | tokenArrival => exact execTokenArrival_keeps h
  | loadWindowEnd => exact execLoadWindowEnd_keeps h
  | replicaCopyComplete => exact execReplicaCopyComplete_keeps h
  | contributionArrival => exact execContributionArrival_keeps h
  | exupdCourseStatus => exact execExupdCourseStatus_keeps h
  | combineContribution => exact execCombineContribution_keeps h
  | combineRecordRecheck => exact Keeps.ite (.fault) (.next (each_sound (fun h0 => tryCombine_sound h0) _ h))
  | mergeContribution => exact execMergeContribution_keeps h
  | trapEntry => exact Keeps.ite (.fault) (Keeps.ite (.next (enterTrap_sound h)) (.next h))
  | preemption => exact execPreemption_keeps h
  | spillComplete => exact execSpillComplete_keeps h
  | launchResume => exact execLaunchResume_keeps h
  | packageDeclaredDown => exact execPackageDeclaredDown_keeps h
  | gixisFlitReceive => exact execGixisFlitReceive_keeps h
  | gixisReplayRequest => exact Keeps.ite (.fault) (Keeps.ite (.next (h.of (replay_mem ..))) (.next h))
  | linkRetrain => exact execLinkRetrain_keeps h
  | linkRetrainTimeout => exact execLinkRetrainTimeout_keeps h
  | e2eAckArrival => exact Keeps.ite (.fault) (.next (h.of (setPeer_mem ..)))
  | e2eAckTimer => exact execE2eAckTimer_keeps h
  | e2eResendRequest => exact execE2eResendRequest_keeps h
  | tunnelDatagramReceive => exact execTunnelDatagramReceive_keeps h
  | tunnelRetransmitTimeout => exact execTunnelRetransmitTimeout_keeps h
  | secondTierLinkDown => exact execSecondTierLinkDown_keeps h
  | powerEpoch | ageingRefresh | secondTierLinkUp => exact Keeps.ite (.fault) (.next (h.of (setPkg_mem ..)))
  | firmwareVerify | attestationRequest => exact Keeps.ite (.fault) (Keeps.ite (.next h) (.next (h.of (setPkg_mem
    ..))))
  | bringUpLevel => exact execBringUpLevel_keeps h
  | registerWrite => exact execRegisterWrite_keeps h
  | faultRingWrite | candidateRingWrite => exact Keeps.ite (.fault) (Keeps.ite (.next (ringRegister_sound h)) (.next
    h))
  | tunnelRouteEntryWrite => exact execTunnelRouteEntryWrite_keeps h
  | accumulatorLastElementRead => exact execAccumulatorLastElementRead_keeps h

/-! ### Step: what writes the memory -/

theorem runStrand_keeps {s : State} (h : s.sound) : Keeps s.runStrand := by
  unfold State.runStrand
  refine .ite .fault (.ite (exec_keeps h) (.ite (.next h) ?_))
  have hf := fetch_sound h
  split
  next e =>
    rw [e] at hf
    exact .next hf
  next e =>
    rw [e] at hf
    exact exec_keeps hf

theorem takeInput_keeps {s : State} {i : Instr} (h : s.sound) : Keeps (s.takeInput i) :=
  Keeps.ite (.next h) (exec_keeps h)

theorem step_keeps {s : State} (h : s.sound) : Keeps (step s) := by
  unfold step
  extract_lets t1
  have h1 : t1.sound := h.of (tickOn_mem ..)
  split
  · exact runStrand_keeps h1.update
  · split
    · exact exec_keeps h1.update
    · exact .next h1.update
  · exact takeInput_keeps h1.update
  · split
    · exact exec_keeps h1.update
    · exact runStrand_keeps h1

/-- Settles O7: every arm of the step keeps the canonical form, along the calls of the model. -/
theorem memoryCanonicalKept : Obligations.MemoryCanonicalKept := by
  intro s t h e
  have hk := step_keeps h
  rw [e] at hk
  cases hk
  assumption

end Sys2Proof.Machine

/-! # A kill that frees a strand's token where the table lists a strand twice -/

namespace Sys2Proof.Machine

/-- A launch with two strands of one die: strand 0 runs and holds the die's token, strand 1 is free. The table lists strand 1
twice: `strand 1` reads the first entry, while the search for a strand that waits for the token (R108) meets the second. -/
def strandListedTwice : State :=
  { strands := [(0, { lkey := 1, run := .running }), (1, { lkey := 1 }), (1, { lkey := 1, run := .token, sole := some ⟨0, 1⟩ })]
    dies := [(0, { token := some 0 })]
    launches := [(1, { lkey := 1, ptroot := 0, packet := [], pkg := 0, queue := 0, context := 0 })] }

theorem strandListedTwice_chunks (k : Nat) : (strandListedTwice.strand k).chunks = [] := by
  simp only [strandListedTwice, State.strand, tget]
  split
  · rfl
  · split
    · rfl
    · rfl

/-- The kill frees strand 0, whose token then goes to strand 1: its second entry waits for it. -/
theorem kill_strandListedTwice_run : ((strandListedTwice.kill 1).strand 1).run = .running := by decide

/-- Refutes O58, in its clause on MTU_KILL: the clause asks nothing of the strand table (as COUNTER_HALVING's asks `tcanon` of the
counters), and in `strandListedTwice` a free strand of the killed launch runs after the kill. The
table is not in canonical form; what the clause lacks is the hypothesis `tcanon {} s.strands`. -/
theorem not_translationUnitsWork : ¬ Obligations.TranslationUnitsWork := by
  rintro ⟨-, units⟩
  obtain ⟨-, kill, -⟩ := units strandListedTwice 0 0 (by decide) (by decide)
  obtain ⟨t, _, step, -, -, -, freed⟩ := kill 1 _ (by decide) rfl
    (fun j _ c hc => absurd hc (by simp [strandListedTwice_chunks])) fun j c hc => absurd hc (by simp [strandListedTwice_chunks])
  have ht : strandListedTwice.kill 1 = t := by
    cases step
    rfl
  have run := freed 1 rfl
  rw [← ht, kill_strandListedTwice_run] at run
  cases run

end Sys2Proof.Machine
